-- ==== Sys2Proof/Word.lean ====
section
/-! DEFINITION. The word types of the T7 and their plainest arithmetic (R2, R3, R81). -/

namespace Sys2Proof

/-- A 64-bit word: a uniform register, one thread's part of a vector register, an instruction word. -/
abbrev Word := BitVec 64
/-- One byte of memory. -/
abbrev Byte := BitVec 8
/-- A set of lanes of one warp: bit t stands for thread t. -/
abbrev Mask := BitVec 32
/-- A 57-bit virtual address of an instruction (R29). -/
abbrev PC := BitVec 57

/-- The lanes of a warp in ascending order (R7). -/
def allLanes : List Nat := List.range 32

/-- Lane t belongs to the set. -/
def Mask.has (m : Mask) (t : Nat) : Bool := BitVec.getLsbD m t
/-- The lanes of a set in ascending order. -/
def Mask.lanes (m : Mask) : List Nat := allLanes.filter (fun t => m.getLsbD t)
/-- The set of the lanes that satisfy a test. -/
def Mask.ofPred (p : Nat → Bool) : Mask :=
  allLanes.foldl (fun acc t => if p t then acc ||| BitVec.ofNat 32 (2 ^ t) else acc) 0
/-- The number of lanes in the set. -/
def Mask.count (m : Mask) : Nat := m.lanes.length
/-- The lowest lane of the set, 0 for the empty set. -/
def Mask.low (m : Mask) : Nat := m.lanes.headD 0

end Sys2Proof
end

