-- ==== Sys2Proof/Syntax.lean ====
section
/-! DEFINITION. The instructions of the T7 and the events of its agents, one constructor per row of the opcode
table. An instruction's constructor holds the fields of its body format as R83 lays them out, with the guard of the
header (R81); an event's constructor names what it happens to. -/

namespace Sys2Proof

/-- The RRR body: three sources (R83). -/
structure RRR where
  pg : BitVec 4
  pn : Bool
  d : BitVec 8
  a : BitVec 8
  b : BitVec 8
  c : BitVec 8
  f : BitVec 4
  wa : Bool
  wb : Bool
  wc : Bool
  x : BitVec 9
  deriving DecidableEq, Repr

/-- The RI body: one source and a 16-bit immediate (R83). -/
structure RI where
  pg : BitVec 4
  pn : Bool
  d : BitVec 8
  a : BitVec 8
  imm : BitVec 16
  f : BitVec 4
  wa : Bool
  x : BitVec 9
  deriving DecidableEq, Repr

/-- The M body: memory (R83). -/
structure MF where
  pg : BitVec 4
  pn : Bool
  d : BitVec 8
  a : BitVec 8
  b : BitVec 8
  off : BitVec 8
  f : BitVec 4
  wa : Bool
  wb : Bool
  wd : Bool
  x : BitVec 9
  deriving DecidableEq, Repr

/-- The B body: branch (R83). -/
structure BF where
  pg : BitVec 4
  pn : Bool
  off : BitVec 32
  tpri : BitVec 8
  x : BitVec 8
  deriving DecidableEq, Repr

/-- The I32 body: a 32-bit immediate (R83). -/
structure I32 where
  pg : BitVec 4
  pn : Bool
  d : BitVec 8
  imm : BitVec 32
  x : BitVec 8
  deriving DecidableEq, Repr

/-- A message as it travels (R215): RXID (R327), source rank, tag, program context, slot width and block flag,
element codes in row order, one block header per 32 elements of a block-scaled slot, the sender's warp slot (R329), the
package it comes from (0xFF: this one) and the elements whose bytes hold an uncorrectable error (R218). -/
structure Msg where
  rxid : Nat
  src : BitVec 32
  tag : BitVec 32
  mctx : BitVec 16
  width : Nat
  blk : Bool
  codes : List Nat
  heads : List Word
  wslot : Nat
  srcPkg : Nat
  bad : List Nat
  deriving DecidableEq, Repr

/-- What reaches a die's receive match engine: a message of this package's own, by its number, or one from another
package of the pod (R326, R329). -/
inductive Arrival where
  | own (id : Nat)
  | remote (m : Msg)
  deriving DecidableEq, Repr

/-- An active message (R221, R333): the sender's launch when it is of this package, RXID, source rank, the sending
warp's WBLK, its count of earlier sends to the die (R301), handler index and payload words. -/
structure ActiveMsg where
  ctx : Nat
  q : Option Nat
  rxid : Nat
  src : BitVec 32
  wblk : Nat
  sent : Nat
  handler : Nat
  words : List Word
  deriving DecidableEq, Repr

/-- What reaches the scheduler of a die as an active message (R333). -/
inductive ActiveArrival where
  | own (id : Nat)
  | remote (m : ActiveMsg)
  deriving DecidableEq, Repr

/-- A firmware image: its version and security version, and whether its signature verifies (R136, R359). -/
structure Firmware where
  version : BitVec 32
  security : Word
  verified : Bool
  deriving DecidableEq, Repr

/-- What the host does through its BAR before a doorbell: it writes a byte of device memory, at its key (R287), the driver sets the
words of a multicast group (R334), the host offers an image to the recovery loader (R359), or it writes to a slot of the launch window
(R294). -/
inductive HostWrite where
  | byte (key : Nat) (b : BitVec 8)
  | group (g : Nat) (words : List Word)
  | image (f : Firmware)
  | slot (k : Nat)
  deriving DecidableEq, Repr

/-- A doorbell of the host (R287, R294): the record that it has written to the launch window's slot, and its other writes before it. -/
structure Doorbell where
  record : List (BitVec 8)
  before : List HostWrite
  deriving DecidableEq, Repr

/-- What the driver decides when it creates a context (R20, R252, R255, R259, R261, R304, R307, R327, R328, R334),
with the signed code objects that it loads for it (R347: base, size, Alavy, security version). -/
structure CtxParams where
  rxid : Nat
  dies : List Nat
  x0 : Nat
  y0 : Nat
  x1 : Nat
  y1 : Nat
  spk : Nat
  l2rmt : Nat
  vaultw : Nat
  wsz : Nat
  hw : Nat
  privBase : Nat
  root : Nat
  bb : Nat
  nb : Nat
  bc : Nat
  nc : Nat
  uqBytes : Nat
  uqVault : Bool
  slices : List Nat
  groups : List (Nat × List Word)
  objects : List (Nat × Nat × Bool × Nat × Nat)
  running : Bool
  deriving DecidableEq, Repr

/-- The driver's answer to a fault at V = 0 or past PRIVHW (R260, R265, R267): the page-table words it writes, as
physical address and entry, with the new HW, or a refusal. -/
inductive DriverReply where
  | mapped (ptes : List (Nat × Word)) (hw : Option Nat)
  | refused
  deriving DecidableEq, Repr

/-- Where an error arises (R269, R349, R350): the granule of a byte as HBM or an array protects it, the 16 bytes of a byte in L2, in a
core's L1 or in the remote ways of a context's partition on a die; a vector or uniform register, or a register of another class: 2
predicates, 3 slots, 4 tile descriptors, 5 accumulator handles. -/
inductive ErrorSite where
  | granule (key : Nat)
  | l2 (key : Nat)
  | l1 (core key : Nat)
  | remoteWays (die ctx key : Nat)
  | vreg (c w r t : Nat)
  | sreg (c w r : Nat)
  | reg (c w cls n : Nat)
  | none
  deriving DecidableEq, Repr

/-- An error event of the journal (R349, R350): the unit that met it, its die, cluster and index, its location, where
the error stands, and whether it was consumed. -/
structure ErrorEvent where
  unit : BitVec 8
  die : BitVec 8
  cluster : BitVec 8
  idx : BitVec 32
  loc : Word
  site : ErrorSite
  consumed : Bool
  deriving DecidableEq, Repr

/-- A copy channel's counts and ring as a checkpoint holds them (R184, R194): cluster, channel, ring, log2 of its slots, next slot,
completion word, next sequence number, DONE and ERR. -/
structure ChannelSeed where
  cl : Nat
  ch : Nat
  ring : Nat
  k : Nat
  nextSlot : Nat
  cw : Nat
  nextSeq : Nat
  done : Nat
  err : Bool
  deriving DecidableEq, Repr

/-- What a context goes back to before its launches are posted again (R353, R354): RNDSEED, the next sequence number, the next receive
generation, the number from which its messages are of after the checkpoint, the context's registers (R130: CTX is `csr`) and what
PRIVHW gives (R259), its broadcast channels by key with value and generation (R214), and its copy channels. -/
structure ContextSeed where
  ctx : Nat
  stamp : Nat
  csr : Word
  hw : Nat
  rndseed : Word
  nextQ : Nat
  rxGen : Nat
  fairt : Word
  fairq : Word
  wdog : Word
  gencfg : Word
  utvec : Word
  wawdrop : Word
  gtdrop : Word
  bcast : List (Nat × Word × Nat)
  channels : List ChannelSeed
  deriving DecidableEq, Repr

/-- A recovery as the driver carries it out on this package (R353): whether a new fatal fault starts it again, the job's contexts,
the pod number this package takes when it is the spare, the failed package's contexts that are loaded into it, the page-table
words that remap pages (physical address and entry), the multicast groups set (context, group, words), what each context goes back
to, the bytes restored from the checkpoint (memory key and byte), and the records
posted again (context, record). -/
structure RecoveryPlan where
  fault : Bool
  job : List Nat
  takesNumber : Option Nat
  contexts : List CtxParams
  remap : List (Nat × Word)
  groups : List (Nat × Nat × List Word)
  seeds : List ContextSeed
  restore : List (Nat × Byte)
  repost : List (Nat × List Byte)
  deriving DecidableEq, Repr

/-- One constructor per row of the opcode table. -/
inductive Instr where
  /-- NOP (R107). Does nothing; the active threads go to PC + 8. -/
  | nop (r : RRR)
  /-- BRA (R108). Sends each thread in P to the target at priority TPRI. -/
  | bra (r : BF)
  /-- BRU_ANY (R108). Moves the whole entry to the target if any active thread's guard is true. -/
  | bruAny (r : BF)
  /-- BRU_ALL (R108). Moves the whole entry to the target only if every active thread's guard is true. -/
  | bruAll (r : BF)
  /-- BRX (R109). Sends each thread in P to its own register target at priority IMM16[7:0]. -/
  | brx (r : RI)
  /-- CALL (R110). Pushes a call record for each thread in P and transfers to the target at TPRI. -/
  | call (r : BF)
  /-- CALLX (R109). Acts as CALL, using each thread's register target. -/
  | callx (r : RI)
  /-- RET (R111). Pops each thread's call record and returns it to the saved PC and priority; a stale translation generation is completed through the translator. -/
  | ret (r : RRR)
  /-- EXIT (R112). Clears the live flag of every thread in P; the warp and its block end when their last thread exits. -/
  | exit (r : RRR)
  /-- WJOIN (R113). Parks the threads in P at PC for a bounded rejoin and releases them with predicate 1 once every live thread has arrived. -/
  | wjoin (r : RI)
  /-- YIELD (R114). Demotes the issuing entry under R42. -/
  | yield (r : RRR)
  /-- PRIO_IMM (R115). Sets the priority of each thread in P to IMM16[7:0]. -/
  | prioImm (r : RI)
  /-- PRIO_REG (R115). Sets the priority of each thread in P from its vector register. -/
  | prioReg (r : RI)
  /-- TRAP (R117). Raises USER_TRAP when AnyG holds. -/
  | trap (r : I32)
  /-- BKPT (R117). Raises BREAKPOINT when AnyG holds. -/
  | bkpt (r : I32)
  /-- NAP_IMM (R116). Parks the whole warp for IMM16 resident cycles. -/
  | napImm (r : RI)
  /-- NAP_REG (R116). Parks the whole warp for ReadS(A)[31:0] resident cycles. -/
  | napReg (r : RI)
  /-- SADD (R118). Uniform add. -/
  | sadd (r : RRR)
  /-- SSUB (R118). Uniform subtract. -/
  | ssub (r : RRR)
  /-- SMUL (R118). Low 64 bits of the uniform product. -/
  | smul (r : RRR)
  /-- SMULH (R118). High 64 bits of the unsigned or signed uniform product. -/
  | smulh (r : RRR)
  /-- SAND (R118). Uniform bitwise AND. -/
  | sand (r : RRR)
  /-- SOR (R118). Uniform bitwise OR. -/
  | sor (r : RRR)
  /-- SXOR (R118). Uniform bitwise XOR. -/
  | sxor (r : RRR)
  /-- SSHL (R118). Uniform shift left by B[5:0]. -/
  | sshl (r : RRR)
  /-- SSHR (R118). Uniform logical shift right by B[5:0]. -/
  | sshr (r : RRR)
  /-- SSRA (R118). Uniform arithmetic shift right by B[5:0]. -/
  | ssra (r : RRR)
  /-- SMIN (R118). Uniform minimum, unsigned or signed. -/
  | smin (r : RRR)
  /-- SMAX (R118). Uniform maximum, unsigned or signed. -/
  | smax (r : RRR)
  /-- SADDI (R118). Adds the sign-extended IMM16 to a uniform register. -/
  | saddi (r : RI)
  /-- SLDI (R118). Loads a sign- or zero-extended IMM32 into a uniform register. -/
  | sldi (r : I32)
  /-- SLDHI (R118). Writes IMM32 into D[63:32] and keeps D[31:0]. -/
  | sldhi (r : I32)
  /-- SCMP (R118). Writes 1 or 0 according to a uniform comparison. -/
  | scmp (r : RRR)
  /-- SSEL (R118). Selects A if C is non-zero, else B. -/
  | ssel (r : RRR)
  /-- SGET (R119). Moves lane ReadS(B)[4:0]'s vector value into a uniform register. -/
  | sget (r : RRR)
  /-- SGET_FIRST (R119). Moves the lowest lane of P's vector value into a uniform register. -/
  | sgetFirst (r : RRR)
  /-- VBC (R119). Broadcasts a uniform value into the vector register of every thread in P. -/
  | vbc (r : RRR)
  /-- IADD (R139). Element-wise integer add, wrapping or saturating. -/
  | iadd (r : RRR)
  /-- ISUB (R139). Element-wise integer subtract, wrapping or saturating. -/
  | isub (r : RRR)
  /-- IMUL (R139). Element-wise integer multiply, wrapping or saturating. -/
  | imul (r : RRR)
  /-- IMULH (R139). High half of the element-wise integer product. -/
  | imulh (r : RRR)
  /-- IMAD (R139). Element-wise a × b + c, formed exactly and then wrapped or clamped once. -/
  | imad (r : RRR)
  /-- IAND (R139). Bitwise AND. -/
  | iand (r : RRR)
  /-- IOR (R139). Bitwise OR. -/
  | ior (r : RRR)
  /-- IXOR (R139). Bitwise XOR. -/
  | ixor (r : RRR)
  /-- ISHL (R139). Element-wise shift left by B_i mod ew. -/
  | ishl (r : RRR)
  /-- ISHR (R139). Element-wise logical shift right. -/
  | ishr (r : RRR)
  /-- ISRA (R139). Element-wise arithmetic shift right. -/
  | isra (r : RRR)
  /-- IMIN (R139). Element-wise minimum. -/
  | imin (r : RRR)
  /-- IMAX (R139). Element-wise maximum. -/
  | imax (r : RRR)
  /-- ICMP (R140). Writes a predicate from an element comparison on element 0, any element or every element. -/
  | icmp (r : RRR)
  /-- ISEL (R141). Selects A or B per thread by a predicate. -/
  | isel (r : RRR)
  /-- ISEL_M (R141). Selects A_i or B_i per element by a vector mask. -/
  | iselM (r : RRR)
  /-- IPOPC (R139). Counts the one bits of each element. -/
  | ipopc (r : RRR)
  /-- ICLZ (R139). Counts the leading zeros of each element. -/
  | iclz (r : RRR)
  /-- IBFE (R142). Extracts a bit field from each element. -/
  | ibfe (r : RRR)
  /-- IBFI (R142). Inserts a bit field into each element of D. -/
  | ibfi (r : RRR)
  /-- LEA (R143). Computes A + idx × 2^k on whole 64-bit words. -/
  | lea (r : RRR)
  /-- IADDI (R144). Adds a broadcast immediate, wrapping or saturating. -/
  | iaddi (r : RI)
  /-- IANDI (R144). Bitwise AND with a broadcast immediate. -/
  | iandi (r : RI)
  /-- IORI (R144). Bitwise OR with a broadcast immediate. -/
  | iori (r : RI)
  /-- IXORI (R144). Bitwise XOR with a broadcast immediate. -/
  | ixori (r : RI)
  /-- ISHLI (R144). Shifts each element left by an immediate amount. -/
  | ishli (r : RI)
  /-- ISHRI (R144). Shifts each element right, logically or arithmetically, by an immediate amount. -/
  | ishri (r : RI)
  /-- ICMPI (R140). Writes a predicate from a comparison against an immediate. -/
  | icmpi (r : RI)
  /-- ICMPM (R140). Writes an all-ones or zero mask per element from a comparison. -/
  | icmpm (r : RRR)
  /-- MOV (R145). Copies the 64 bits of A. -/
  | mov (r : RRR)
  /-- MOVI (R145). Writes an immediate into every element. -/
  | movi (r : I32)
  /-- MOVI_HI (R145). Writes IMM32 into D[63:32] and keeps D[31:0]. -/
  | moviHi (r : I32)
  /-- FADD (R147). Element-wise slot addition, rounded once. -/
  | fadd (r : RRR)
  /-- FSUB (R147). Element-wise slot subtraction. -/
  | fsub (r : RRR)
  /-- FMUL (R147). Element-wise slot multiplication. -/
  | fmul (r : RRR)
  /-- FFMA (R147). Element-wise fused multiply-add with optional negations, rounded once. -/
  | ffma (r : RRR)
  /-- FMIN (R148). Element-wise minimum under the FMIN rules. -/
  | fmin (r : RRR)
  /-- FMAX (R148). Element-wise maximum under the FMAX rules. -/
  | fmax (r : RRR)
  /-- FABSN (R149). Absolute value, negation or copy-sign per element. -/
  | fabsn (r : RRR)
  /-- FCMP (R150). Element comparison written as a mask or as a predicate. -/
  | fcmp (r : RRR)
  /-- FCLASS (R151). Writes all ones per element whose class is set in the mask. -/
  | fclass (r : RRR)
  /-- FDIV (R147). Correctly rounded element-wise division. -/
  | fdiv (r : RRR)
  /-- FSQRT (R147). Correctly rounded element-wise square root. -/
  | fsqrt (r : RRR)
  /-- FRCP (R153). Table-based reciprocal with one refinement step. -/
  | frcp (r : RRR)
  /-- FRSQ (R153). Table-based reciprocal square root. -/
  | frsq (r : RRR)
  /-- FEXP2 (R153). Table-based base-2 exponential. -/
  | fexp2 (r : RRR)
  /-- FLOG2 (R153). Table-based base-2 logarithm. -/
  | flog2 (r : RRR)
  /-- FSUM (R152). Sums the elements of a thread exactly and rounds once into element 0. -/
  | fsum (r : RRR)
  /-- FADDI (R147). Adds a slot immediate to each element. -/
  | faddi (r : RI)
  /-- FMULI (R147). Multiplies each element by a slot immediate. -/
  | fmuli (r : RI)
  /-- FFMAI (R147). Fused a × imm ± d per element. -/
  | ffmai (r : RI)
  /-- FCVT (R155). Converts a run of elements from one slot to another. -/
  | fcvt (r : RRR)
  /-- FTOI (R155). Converts a run of slot elements to clamped integers. -/
  | ftoi (r : RRR)
  /-- ITOF (R155). Converts a run of integer elements into a slot. -/
  | itof (r : RRR)
  /-- FPACK (R156). Moves codes between even, odd and interleaved positions without decoding. -/
  | fpack (r : RRR)
  /-- FBSCL (R155). Converts block-scaled codes under a header into a scalar slot. -/
  | fbscl (r : RRR)
  /-- FDOT (R152). Exact dot product within a thread, rounded once. -/
  | fdot (r : RRR)
  /-- FRND (R147). Rounds each element to an integer value. -/
  | frnd (r : RRR)
  /-- FSCALE (R147). Multiplies each element by 2^n. -/
  | fscale (r : RRR)
  /-- SHFL (R120). Gives each thread the value of A in a lane named by B. -/
  | shfl (r : RRR)
  /-- SHFLX (R121). Reads register A of a lane in another warp of the same block. -/
  | shflx (r : RRR)
  /-- SHFLUD (R120). Shuffles by a uniform delta: from below, from above, pair or rotate. -/
  | shflud (r : RRR)
  /-- VOTE (R122). Writes a predicate from a count of the predicate over P. -/
  | vote (r : RRR)
  /-- MATCH (R123). Writes the mask of the lanes of P holding an equal value. -/
  | matchEq (r : RRR)
  /-- MRANK (R123). Writes the number of equal lanes below each lane. -/
  | mrank (r : RRR)
  /-- MLEAD (R123). Sets a predicate in the lowest lane of each equal-value group. -/
  | mlead (r : RRR)
  /-- ELECT (R122). Sets a predicate in the lowest, or with .last the highest, lane of P. -/
  | elect (r : RRR)
  /-- PLOG (R124). Computes any function of three predicates through a lookup table. -/
  | plog (r : RRR)
  /-- PMOV (R125). Writes the predicates into a vector register. -/
  | pmov (r : RRR)
  /-- PMOV_SET (R125). Sets p0–p14 from a vector register. -/
  | pmovSet (r : RRR)
  /-- PBAL (R125). Writes the lane mask, or the count, of the threads of P whose predicate is set. -/
  | pbal (r : RRR)
  /-- REDUX (R126). Reduces integer elements across the lanes of P into a uniform register. -/
  | redux (r : RRR)
  /-- FREDX (R127). Reduces slot elements across P into a uniform register with one rounding. -/
  | fredx (r : RRR)
  /-- SCAN (R126). Inclusive or exclusive integer prefix over the lanes of P. -/
  | scan (r : RRR)
  /-- SCAN_FADD (R127). Slot prefix sums, each rounded once from its exact sum. -/
  | scanFadd (r : RRR)
  /-- LD (R165). Global load for each thread in P; the destination is marked empty until the data returns. -/
  | ld (r : MF)
  /-- LD2 (R164). 16-byte global load into a register pair. -/
  | ld2 (r : MF)
  /-- LDP (R169). Loads Elems(F) consecutive packed elements. -/
  | ldp (r : MF)
  /-- LDS (R166). Scratchpad load that parks on absent lines. -/
  | lds (r : MF)
  /-- LDV (R167). Vault load. -/
  | ldv (r : MF)
  /-- LDU (R165). One global load for the whole warp into a uniform register. -/
  | ldu (r : MF)
  /-- LDACQ (R165). Load followed by an acquire at its scope. -/
  | ldacq (r : MF)
  /-- LDPV (R168). Load from the thread's private window. -/
  | ldpv (r : MF)
  /-- PFETCH (R173). Prefetches lines into L1 and L2, or into L2 only; it never faults. -/
  | pfetch (r : MF)
  /-- LDG (R171). Gathers one packed element per thread. -/
  | ldg (r : MF)
  /-- ST (R165). Global store for each thread in P. -/
  | st (r : MF)
  /-- ST2 (R164). 16-byte global store from a register pair. -/
  | st2 (r : MF)
  /-- STP (R169). Stores packed elements as a masked write of exactly their bits. -/
  | stp (r : MF)
  /-- STS (R166). Scratchpad store that parks on absent lines. -/
  | sts (r : MF)
  /-- STV (R167). Vault store. -/
  | stv (r : MF)
  /-- STU (R165). One global store for the warp from a uniform register. -/
  | stu (r : MF)
  /-- STREL (R165). Release at its scope followed by a store. -/
  | strel (r : MF)
  /-- STPV (R168). Store into the thread's private window. -/
  | stpv (r : MF)
  /-- MST (R174). Stores each thread's data to every member of a multicast group. -/
  | mst (r : MF)
  /-- MSTO (R174). Multicast store sequenced through the group's home, so every member applies it in one order. -/
  | msto (r : MF)
  /-- STSC (R171). Scatters one packed element per thread. -/
  | stsc (r : MF)
  /-- ATOM (R176). Relaxed integer atomic at the home, with optional return of the old value. -/
  | atom (r : MF)
  /-- ACAS (R176). Compare-and-swap at the home; returns the old value. -/
  | acas (r : MF)
  /-- ATOMS (R176). Integer atomic on scratchpad. -/
  | atoms (r : MF)
  /-- FATOM (R177). Slot add, min or max atomic on an 8-byte word. -/
  | fatom (r : MF)
  /-- FENCE (R178). Release, acquire or both at a scope for the whole warp; it holds the warp until it completes. -/
  | fence (r : RRR)
  /-- ATOMV (R176). Integer atomic on a vault address. -/
  | atomv (r : MF)
  /-- JPOST (R186). Checks and builds a copy, reduce or loop card in a channel ring slot, then releases within its footprint. -/
  | jpost (r : RRR)
  /-- CHSET_RING (R185). Configures a channel's card ring and completion word. -/
  | chsetRing (r : RRR)
  /-- CHSET_CHAIN (R185). Hands a program-built card chain to a channel's engine. -/
  | chsetChain (r : RRR)
  /-- TWAIT (R193). Tests a bitmap word against a mask and parks until it is met or the bound expires. -/
  | twait (r : RI)
  /-- SQWAIT (R193). Tests a channel's DONE against a target and parks until it is reached or the bound expires. -/
  | sqwait (r : RI)
  /-- PRESQ (R194). Reads the presence bit of a scratchpad line into a predicate. -/
  | presq (r : MF)
  /-- SINV (R194). Clears the presence bits of a run of scratchpad lines. -/
  | sinv (r : MF)
  /-- SINV_SET (R194). Sets the presence bits of a run of scratchpad lines. -/
  | sinvSet (r : MF)
  /-- TDESC (R180). Writes a tile descriptor from three uniform registers. -/
  | tdesc (r : RRR)
  /-- TMOD (R180). Copies a descriptor with one field replaced or increased. -/
  | tmod (r : RRR)
  /-- JCANCEL (R192). Withdraws an accepted card that has not started, or the unstarted iterations of a loop card. -/
  | jcancel (r : RRR)
  /-- QPUSH (R195). Appends one item per thread to the next pipeline stage's queue once it has room, with a die-scope release. -/
  | qpush (r : RRR)
  /-- MMA (R202). Posts a matrix multiply-accumulate tile task on an accumulator handle. -/
  | mma (r : RRR)
  /-- MMA_CO (R203). Co-operative matrix multiply-accumulate over a 2×2 rectangle of clusters. -/
  | mmaCo (r : RRR)
  /-- MMAS (R202). Block-scaled matrix multiply-accumulate. -/
  | mmas (r : RRR)
  /-- MMAS_CO (R203). Co-operative block-scaled matrix multiply-accumulate. -/
  | mmasCo (r : RRR)
  /-- AZERO (R204). Sets the handle's ZERO flag and clears ERR. -/
  | azero (r : RRR)
  /-- AREL (R204). Empties the handle; its slots return once earlier operations complete. -/
  | arel (r : RRR)
  /-- ASTO (R205). Writes the handle's tile to a descriptor window. -/
  | asto (r : RRR)
  /-- ALDR (R206). Loads a descriptor window into the handle. -/
  | aldr (r : RRR)
  /-- AMOVV (R207). Reads accumulator values into vector registers once the handle is full. -/
  | amovv (r : RRR)
  /-- AQRY (R208). Writes the handle's state into a uniform register. -/
  | aqry (r : RRR)
  /-- BSYNC (R211). Arrives at a pewter barrier channel with an expected count, with optional release and acquire; the arrival that reaches the count closes the generation. -/
  | bsync (r : RI)
  /-- BARR (R213). Arrives at one of the block's 16 barriers after performing earlier writes at core scope. -/
  | barr (r : RI)
  /-- BCAST (R214). Sends 64 bits on a pewter broadcast channel. -/
  | bcast (r : RRR)
  /-- BRECV (R214). Marks D empty and fills it once the channel's generation exceeds the warp's. -/
  | brecv (r : RRR)
  /-- MSEND (R216). Sends a descriptor window as a message and holds the warp until it is read and reserved. -/
  | msend (r : RRR)
  /-- MPOST (R217). Searches the unexpected queue and posts a receive, indivisibly, writing its handle. -/
  | mpost (r : RRR)
  /-- MTEST (R220). Returns a receive's status; DONE = 1 is a package-scope acquire and retires the receive. -/
  | mtest (r : RRR)
  /-- MPROBE (R220). Searches the unexpected queue without removing anything. -/
  | mprobe (r : RRR)
  /-- MCANCEL (R220). Withdraws a receive that no message has matched. -/
  | mcancel (r : RRR)
  /-- ASEND (R221). Sends an active message of up to 256 bytes to a handler. -/
  | asend (r : RRR)
  /-- GEN (R222). Opens a generator region with producers and a consumer body. -/
  | gen (r : BF)
  /-- YLD (R223). Appends producer entries to the solder buffer; a mode switch may follow. -/
  | yld (r : RRR)
  /-- GDONE (R223). Retires the producers in P. -/
  | gdone (r : RRR)
  /-- GTAKE (R223). Reads each thread's entry value from the frame being drained. -/
  | gtake (r : RRR)
  /-- GTAKE_LN (R223). Reads each thread's entry producer lane from the frame being drained. -/
  | gtakeLn (r : RRR)
  /-- GNEXT (R223). Arrives at the end of a consumer pass; the last arrival ends the pass under R225. -/
  | gnext (r : RRR)
  /-- LAUNCH (R227). Submits a launch record from the device with a package-scope release. -/
  | launch (r : RRR)
  /-- FDRW (R128). Checks and writes a format slot and starts the slot hold. -/
  | fdrw (r : RRR)
  /-- FDRR (R128). Reads a format slot into a uniform register. -/
  | fdrr (r : RRR)
  /-- CSRR (R129). Reads a control and status register. -/
  | csrr (r : RI)
  /-- CSRW (R129). Writes a control and status register that has no row of its own. -/
  | csrw (r : RI)
  /-- CSRW_CTX (R130). Writes CTX; a change of PROG ends any grant and resets FC. -/
  | csrwCtx (r : RI)
  /-- CSRW_FAIRT (R130). Writes FAIRT and sets FC to 0 from each warp's next issue. -/
  | csrwFairt (r : RI)
  /-- CSRW_FAIRQ (R130). Writes FAIRQ and sets FC to 0 from each warp's next issue. -/
  | csrwFairq (r : RI)
  /-- CSRW_WDOG (R130). Writes WDOG and sets WC to 0 from each warp's next issue. -/
  | csrwWdog (r : RI)
  /-- CSRW_GENCFG (R317). Writes the generator switch thresholds, first seen by the next producer-mode test. -/
  | csrwGencfg (r : RI)
  /-- CSRW_FRES (R131). In firmware mode, writes the selected lane of the emulated destination and sets it full. -/
  | csrwFres (r : RI)
  /-- SREG (R132). Writes the special value named by a selector. -/
  | sreg (r : RI)
  /-- RGROW (R133). Requests a larger vector register allocation, parking until it is granted or refused. -/
  | rgrow (r : RI)
  /-- RSHRK (R133). Shrinks the vector register allocation at once. -/
  | rshrk (r : RI)
  /-- PDONE (R134). Halts the warp from the pre-emption handler. -/
  | pdone (r : RRR)
  /-- ERET (R135). Leaves handler mode, returning to UEPC, restoring the pre-emption frontier, or ending firmware emulation. -/
  | eret (r : RRR)
  /-- ERET_NEXT (R135). Leaves user-handler mode, returning to UEPC + 8. -/
  | eretNext (r : RRR)
  /-- FWCALL_VERSION (R136). Firmware service 0: returns the firmware version and the security version. -/
  | fwcallVersion (r : I32)
  /-- FWCALL_CAPABILITY (R136). Firmware service 1: returns the capability table's address and length. -/
  | fwcallCapability (r : I32)
  /-- FWCALL_JOURNAL (R136). Firmware service 2: returns the journal write pointer. -/
  | fwcallJournal (r : I32)
  /-- HADD (R100). Retired binary16 add, emulated in firmware. -/
  | hadd (r : RRR)
  /-- HMUL (R100). Retired binary16 multiply, emulated in firmware. -/
  | hmul (r : RRR)
  /-- HFMA (R100). Retired binary16 fused multiply-add, emulated in firmware. -/
  | hfma (r : RRR)
  /-- BHADD (R100). Retired bfloat16 add, emulated in firmware. -/
  | bhadd (r : RRR)
  /-- BHMUL (R100). Retired bfloat16 multiply, emulated in firmware. -/
  | bhmul (r : RRR)
  /-- BHFMA (R100). Retired bfloat16 fused multiply-add, emulated in firmware. -/
  | bhfma (r : RRR)
  /-- BARW (R100). Retired store followed by block barrier 15, emulated in firmware. -/
  | barw (r : RRR)
  /-- LDTEX (R100). Retired clamped texel fetch, emulated in firmware. -/
  | ldtex (r : RRR)
  /-- UNASSIGNED_OPCODE (R96). A word with an unassigned or reserved opcode traps with ILLEGAL_OPC. -/
  | unassignedOpcode (w : Word)
  /-- FAIRNESS_GRANT (R40). FC reaching FAIRT.LIMIT grants the oldest waiting entry FAIRQ.GRANT issue slots. -/
  | fairnessGrant (c w : Nat)
  /-- GRANT_END (R41). A fairness grant's count reaches zero and strict frontier order resumes. -/
  | grantEnd (c w : Nat)
  /-- SPIN_WATCHDOG (R43). An issue that would bring WC to WDOG.LIMIT traps in place of executing. -/
  | spinWatchdog
  /-- WJOIN_EXPIRE (R44). The rejoin wait expires and the parked threads are released with predicate 0. -/
  | wjoinExpire (c w : Nat) (pc : PC)
  /-- RGROW_GRANT (R47). Registers freed in the partition grant the oldest waiting RGROW, with predicate 1. -/
  | rgrowGrant (c part : Nat)
  /-- NAP_END (R116). A nap's resident-cycle count runs out and the warp continues. -/
  | napEnd (c w : Nat)
  /-- RESULT_RETURN (R91). A long-latency result arrives and fills its register, or is discarded as stale. -/
  | resultReturn (c id : Nat)
  /-- WAIT_CONDITION_MET (R193). The condition of a parked TWAIT or SQWAIT becomes true and the warp acquires with predicate 1. -/
  | waitConditionMet (c w : Nat)
  /-- WAIT_EXPIRE (R193). A TWAIT or SQWAIT bound expires with predicate 0. -/
  | waitExpire (c w : Nat)
  /-- ACCESS_PERFORM (R274). A write, atomic or read reaches its home and takes its place in the byte's order. -/
  | accessPerform (c id : Nat) (fromCopy : Bool)
  /-- FENCE_COMPLETE (R178). A fence's wait ends; MCAST_FAIL or REMOTE_ERROR may then trap. -/
  | fenceComplete (c w : Nat)
  /-- JPOST_ACCEPT (R187). A held JPOST finds the ring slot free, writes and links its card, and the card's sequence number fills D. -/
  | jpostAccept (c cl ch : Nat)
  /-- CHAIN_CARD_ACCEPT (R185). The engine walks a program chain and accepts the next owned card. -/
  | chainCardAccept (c cl ch : Nat)
  /-- CARD_START (R188). The engine task scheduler starts a card once no conflicting earlier card has work left, after checking its windows. -/
  | cardStart (c id : Nat)
  /-- LOOP_ITERATION_START (R189). The loop expander starts an iteration card when a permit is free, after checking it. -/
  | loopIterationStart (c id : Nat)
  /-- CARD_COMPLETE (R190). A card completes, writes STATUS, clears OWN and advances DONE. -/
  | cardComplete (c id : Nat)
  /-- MMA_COMPLETE (R202). A tile task finishes forming the result tile. -/
  | mmaComplete (c id : Nat)
  /-- ASTO_COMPLETE (R205). The engine finishes writing a tile to memory. -/
  | astoComplete (c id : Nat)
  /-- ALDR_COMPLETE (R206). The engine finishes loading a window into the handle. -/
  | aldrComplete (c id : Nat)
  /-- AMOVV_READOUT (R207). The engine read-out forms every element and fills the destination registers. -/
  | amovvReadout (c w : Nat)
  /-- BSYNC_RELEASE (R211). 24 or 64 cycles after a generation closes, every warp that arrived in it is released. -/
  | bsyncRelease (c die ch : Nat)
  /-- BARR_RELEASE (R213). Every participant is released, with a core-scope acquire, after the last arrival. -/
  | barrRelease (c blk id : Nat)
  /-- BCAST_ARRIVE (R214). A broadcast value reaches the channel register and raises its generation. -/
  | bcastArrive (c id : Nat)
  /-- RESERVATION_GRANT (R326). An end-to-end receive slot reservation is granted for a message piece. -/
  | reservationGrant (pkg die : Nat)
  /-- MSEND_COMPLETE (R216). Every byte of the payload has been read and reserved, and the sending warp continues. -/
  | msendComplete (c w : Nat)
  /-- MESSAGE_MATCH (R218). A message's first piece reaches the engine and matches a posted receive or joins the unexpected queue. -/
  | messageMatch (die : Nat) (m : Arrival)
  /-- PIECE_LAND (R329). A piece lands, returns its slot, and the last piece completes the receive. -/
  | pieceLand (die id : Nat)
  /-- ACTIVE_MESSAGE_DELIVER (R333). An active message spawns a one-warp handler block in its target launch, or is discarded. -/
  | activeMessageDeliver (die : Nat) (m : ActiveArrival)
  /-- LAUNCH_ACCEPT (R292). The sequencer checks a record, assigns q or refuses it, and hands it to every die. -/
  | launchAccept (c : Nat)
  /-- BLOCK_ADMIT (R297). A die admits the next waiting block, or co-operative share, when it fits. -/
  | blockAdmit (c die : Nat)
  /-- STAGE_BLOCK_DISPATCH (R300). A stage block is dispatched when its queue holds enough items. -/
  | stageBlockDispatch (c die stage : Nat)
  /-- CORE_REASSIGN (R302). A core with no resident block of the launch is reassigned to a stage. -/
  | coreReassign (c core : Nat)
  /-- LAUNCH_COMPLETE (R295). A launch ends or is refused and its completion word is written after a package-scope release. -/
  | launchComplete (c q : Nat)
  /-- SLICE_EXPIRE (R308). The time slice expires and the context enters Draining. -/
  | sliceExpire (c : Nat)
  /-- PREEMPT_SIGNAL (R309). The pre-emption signal reaches a warp, which saves its frontier and enters the handler, or halts. -/
  | preemptSignal (c w : Nat)
  /-- FORCED_STOP (R311). 8 µs after the signal, a warp that has not executed PDONE is stopped by force. -/
  | forcedStop (c w : Nat)
  /-- CONTEXT_IDLE_EXCHANGE (R306). An idle running context yields to a standby context that has work. -/
  | contextIdleExchange (c : Nat)
  /-- CONTEXT_EXCHANGE (R312). Once every core has halted, the outgoing context is saved and the standby context restored. -/
  | contextExchange (c : Nat)
  /-- REMOTE_ACCESS_FAIL (R324). A remote access fails at its target or path, poisoning a destination or setting the remote-failure mark. -/
  | remoteAccessFail (c id : Nat)
  /-- CARD_LINE_WRITTEN (R190). A card writes a scratchpad line and sets its presence bit. -/
  | cardLineWritten (c id line : Nat)
  /-- CARD_CHUNK_DONE (R190). Every byte of a chunk is performed and its bitmap bit is set as a release. -/
  | cardChunkDone (c id k : Nat)
  /-- MCAST_MEMBER_TIMEOUT (R335). A multicast member gives no acknowledgement within 1 ms and is queried once. -/
  | mcastMemberTimeout (c id member : Nat) (answered : Bool)
  /-- HOST_DOORBELL (R294). The host rings a launch-window slot's doorbell and the record is taken. -/
  | hostDoorbell (c slot : Nat) (ring : Doorbell)
  /-- LAUNCH_KILL (R345). The driver ends a launch with cause KILLED. -/
  | launchKill (c q : Nat)
  /-- CONTEXT_CREATE (R304). The driver creates a context with reset registers, a pewter window and an RXID. -/
  | contextCreate (p : CtxParams)
  /-- FETCH_FAULT_SWAP (R267). An instruction fetch that reaches a missing page swaps the whole block out. -/
  | fetchFaultSwap (c w : Nat)
  /-- BLOCK_SWAP_IN (R267). Once the page is mapped, or is refused, the block returns to its warp slots. -/
  | blockSwapIn (c blk : Nat) (r : DriverReply)
  /-- PAGE_MIGRATION (R264). A MODE 11 page's miss counter reaches its threshold and firmware migrates the page. -/
  | pageMigration (die c : Nat) (va : Nat) (pfn : Nat) (ok : Bool)
  /-- TLB_SHOOTDOWN (R266). The driver or firmware removes a translation from every TLB and walk cache. -/
  | tlbShootdown (c : Nat) (va : Nat)
  /-- ERROR_CORRECTED (R269). A correctable error is corrected in place and recorded. -/
  | errorCorrected (e : ErrorEvent)
  /-- JAP_WRITE (R352). The host advances the journal read pointer, possibly letting the dropped-record count be appended. -/
  | japWrite (v : Nat)
  /-- NFEAT_WRITE (R358). The driver selects the features it will use, while no context exists. -/
  | nfeatWrite (v : Word)
  /-- FUNCTION_READY (R356). A function of the package becomes ready and sets its RDY bit. -/
  | functionReady (bit : Nat)
  /-- PORT_DEAD (R321). A UALink port fails replay or times out and is declared dead. -/
  | portDead (k : Nat)
  /-- PORT_RETRAIN (R321). The driver retrains a dead port. -/
  | portRetrain (k : Nat)
  /-- FATAL_FAULT_RECOVERY (R353). A fatal fault in a pod starts the recovery of the job from its checkpoint onto a spare. -/
  | fatalFaultRecovery (r : RecoveryPlan)
  /-- FSV_RAISE (R360). A verified firmware image directs the fuse counter to rise. -/
  | fsvRaise (v : Nat)
  /-- RESET (R357). At reset, firmware is verified and the capability table is copied to HBM. -/
  | reset
  /-- POWER_LOSS (R362). Power is lost and only fuses, journal state and the signature index persist. -/
  | powerLoss
  /-- SUPPLY_DROOP (R361). A supply sag stretches the die's clock without changing any count. -/
  | supplyDroop (die extra : Nat)
  /-- CONTEXT_END (R256). A context ends, freeing its vault, retiring its posted receives and discarding its unexpected queue. -/
  | contextEnd (c : Nat)
  /-- TENANT_ROTATION (R306). The driver rotates a tenant between Standby and In HBM, moving its state and vault contents whole. -/
  | tenantRotation (c : Nat) (inward : Bool)
  /-- DEMAND_PAGING (R265). The driver services an access fault at V = 0 or past PRIVHW by mapping pages and raising HW, after which the instruction issues again, or refuses and the access traps with PAGE_FAULT or PRIV_GROW. -/
  | demandPaging (c w : Nat) (r : DriverReply)
  /-- UNCORRECTABLE_ERROR (R269). An uncorrectable error arises in HBM, L2, SRAM, a register file or a page-table entry, or is found by scrubbing, marking the granule or register poisoned and appending a journal record. -/
  | uncorrectableError (e : ErrorEvent)
  /-- ATTESTATION_REQUEST (R359). An attestation report is requested and signed with the device identity key, or refused once the key's index is exhausted. -/
  | attestationRequest (nonce : Word)
  /-- LANDFAULT_ENTRY_FREE (R330). The driver frees an unexpected-queue entry flagged LANDFAULT. -/
  | landfaultEntryFree (die id : Nat)
  deriving DecidableEq, Repr

end Sys2Proof
end

