-- ==== Sys2Proof/Machine/Forms.lean ====
section
/-! DEFINITION. What each instruction form names: its register operands with their classes and roles, whether F names a
slot, its literal fields, the X values that have a meaning, and its opcode (R83, R85, R86, R94, R95 and the encoding
tables of the four instruction chapters). -/

namespace Sys2Proof.Machine

/-- A register field of a body (R83). -/
inductive Fld where
  | A | B | C | D
  deriving DecidableEq, Repr

/-- A register class (R45, R86). -/
inductive Cls where
  | vec | uni | pred | slot | tdesc | acc
  deriving DecidableEq, Repr

/-- The body format (R83). -/
inductive Fmt5 where
  | rrr | ri | mf | bf | i32 | event
  deriving DecidableEq, Repr

/-- A register operand: its field and class, whether the instruction reads it and writes it, and how many consecutive
registers from the field's number on it covers. -/
structure Opnd where
  fld : Fld
  cls : Cls
  src : Bool
  dst : Bool
  n : Nat
  deriving DecidableEq, Repr

/-- A form: body format, operands, F as a slot, and the bits of its other used fields except X and the header. -/
structure Form where
  fmt : Fmt5
  ops : List Opnd
  slot : Bool
  lit : Nat
  deriving DecidableEq, Repr

/-- A register that is read. -/
def src (f : Fld) (c : Cls) : Opnd := ⟨f, c, true, false, 1⟩
/-- A register that is written. -/
def dst (f : Fld) (c : Cls) : Opnd := ⟨f, c, false, true, 1⟩
/-- A register that is read and written. -/
def srcDst (f : Fld) (c : Cls) : Opnd := ⟨f, c, true, true, 1⟩
/-- A form from its parts. -/
def form (fmt : Fmt5) (ops : List Opnd) (slot : Bool) (lit : Nat) : Form := ⟨fmt, ops, slot, lit⟩

/-- The address operands of an address mode (R161): [sa], [va], [sa + vb], [sp]. -/
def addrOps (am : Nat) : List Opnd :=
  match am with
  | 0 => [src .A .uni]
  | 1 => [src .A .vec]
  | 2 => [src .A .uni, src .B .vec]
  | _ => []

/-- The used bits of IMM16 in the integer immediate forms: 7:0 for 8-bit elements (R144). -/
def immEw (x : Nat) : Nat := if x % 4 = 0 then 0xFF0000 else 0xFFFF0000
/-- The used bits of IMM32 in plain MOVI (R145). -/
def imm32Ew (x : Nat) : Nat := if x % 4 = 0 then 0xFF00 else if x % 4 = 1 then 0xFFFF00 else 0xFFFFFFFF00

/-- Whether a selector of SREG is in the table, and whether it has a vector destination (R132). -/
def sregClass (sel : Nat) : Option Cls :=
  if sel = 0 || sel = 1 || (0x10 ≤ sel && sel ≤ 0x17) then some .vec
  else if (0x20 ≤ sel && sel ≤ 0x28) || (0x30 ≤ sel && sel ≤ 0x37) || (0x40 ≤ sel && sel ≤ 0x42) then some .uni
  else none

/-- SREG's destination, by selector (R132). -/
def sregOps (sel : Nat) : List Opnd :=
  match sregClass sel with
  | some c => [dst .D c]
  | none => []

/-- What each instruction form names. -/
def formOf (i : Instr) : Form :=
  match i with
  | .nop _ => form .rrr ([]) false 0x0
  | .bra _ => form .bf ([]) false 0xFFFFFFFFFF00
  | .bruAny _ => form .bf ([]) false 0xFFFFFFFFFF00
  | .bruAll _ => form .bf ([]) false 0xFFFFFFFFFF00
  | .brx _ => form .ri ([src .A .vec]) false 0xFF0000
  | .call _ => form .bf ([]) false 0xFFFFFFFFFF00
  | .callx _ => form .ri ([src .A .vec]) false 0xFF0000
  | .ret _ => form .rrr ([]) false 0x0
  | .exit _ => form .rrr ([]) false 0x0
  | .wjoin _ => form .ri ([dst .D .pred]) false 0xFFFF0000
  | .yield _ => form .rrr ([]) false 0x0
  | .prioImm _ => form .ri ([]) false 0xFF0000
  | .prioReg _ => form .ri ([src .A .vec]) false 0x0
  | .trap _ => form .i32 ([]) false 0xFFFFFFFF00
  | .bkpt _ => form .i32 ([]) false 0xFFFFFFFF00
  | .napImm _ => form .ri ([]) false 0xFFFF0000
  | .napReg _ => form .ri ([src .A .uni]) false 0x0
  | .sadd _ => form .rrr ([dst .D .uni, src .A .uni, src .B .uni]) false 0x0
  | .ssub _ => form .rrr ([dst .D .uni, src .A .uni, src .B .uni]) false 0x0
  | .smul _ => form .rrr ([dst .D .uni, src .A .uni, src .B .uni]) false 0x0
  | .smulh _ => form .rrr ([dst .D .uni, src .A .uni, src .B .uni]) false 0x0
  | .sand _ => form .rrr ([dst .D .uni, src .A .uni, src .B .uni]) false 0x0
  | .sor _ => form .rrr ([dst .D .uni, src .A .uni, src .B .uni]) false 0x0
  | .sxor _ => form .rrr ([dst .D .uni, src .A .uni, src .B .uni]) false 0x0
  | .sshl _ => form .rrr ([dst .D .uni, src .A .uni, src .B .uni]) false 0x0
  | .sshr _ => form .rrr ([dst .D .uni, src .A .uni, src .B .uni]) false 0x0
  | .ssra _ => form .rrr ([dst .D .uni, src .A .uni, src .B .uni]) false 0x0
  | .smin _ => form .rrr ([dst .D .uni, src .A .uni, src .B .uni]) false 0x0
  | .smax _ => form .rrr ([dst .D .uni, src .A .uni, src .B .uni]) false 0x0
  | .saddi _ => form .ri ([dst .D .uni, src .A .uni]) false 0xFFFF0000
  | .sldi _ => form .i32 ([dst .D .uni]) false 0xFFFFFFFF00
  | .sldhi _ => form .i32 ([srcDst .D .uni]) false 0xFFFFFFFF00
  | .scmp _ => form .rrr ([dst .D .uni, src .A .uni, src .B .uni]) false 0x0
  | .ssel _ => form .rrr ([dst .D .uni, src .A .uni, src .B .uni, src .C .uni]) false 0x0
  | .sget _ => form .rrr ([dst .D .uni, src .A .vec, src .B .uni]) false 0x0
  | .sgetFirst _ => form .rrr ([dst .D .uni, src .A .vec]) false 0x0
  | .vbc _ => form .rrr ([dst .D .vec, src .A .uni]) false 0x0
  | .iadd _ => form .rrr ([dst .D .vec, src .A .vec, src .B .vec]) false 0x0
  | .isub _ => form .rrr ([dst .D .vec, src .A .vec, src .B .vec]) false 0x0
  | .imul _ => form .rrr ([dst .D .vec, src .A .vec, src .B .vec]) false 0x0
  | .imulh _ => form .rrr ([dst .D .vec, src .A .vec, src .B .vec]) false 0x0
  | .imad _ => form .rrr ([dst .D .vec, src .A .vec, src .B .vec, src .C .vec]) false 0x0
  | .iand _ => form .rrr ([dst .D .vec, src .A .vec, src .B .vec]) false 0x0
  | .ior _ => form .rrr ([dst .D .vec, src .A .vec, src .B .vec]) false 0x0
  | .ixor _ => form .rrr ([dst .D .vec, src .A .vec, src .B .vec]) false 0x0
  | .ishl _ => form .rrr ([dst .D .vec, src .A .vec, src .B .vec]) false 0x0
  | .ishr _ => form .rrr ([dst .D .vec, src .A .vec, src .B .vec]) false 0x0
  | .isra _ => form .rrr ([dst .D .vec, src .A .vec, src .B .vec]) false 0x0
  | .imin _ => form .rrr ([dst .D .vec, src .A .vec, src .B .vec]) false 0x0
  | .imax _ => form .rrr ([dst .D .vec, src .A .vec, src .B .vec]) false 0x0
  | .icmp _ => form .rrr ([dst .D .pred, src .A .vec, src .B .vec]) false 0x0
  | .isel _ => form .rrr ([dst .D .vec, src .A .vec, src .B .vec, src .C .pred]) false 0x0
  | .iselM _ => form .rrr ([dst .D .vec, src .A .vec, src .B .vec, src .C .vec]) false 0x0
  | .ipopc _ => form .rrr ([dst .D .vec, src .A .vec]) false 0x0
  | .iclz _ => form .rrr ([dst .D .vec, src .A .vec]) false 0x0
  | .ibfe _ => form .rrr ([dst .D .vec, src .A .vec, src .B .vec, src .C .vec]) false 0x0
  | .ibfi _ => form .rrr ([srcDst .D .vec, src .A .vec, src .B .vec, src .C .vec]) false 0x0
  | .lea _ => form .rrr ([dst .D .vec, src .A .vec, src .B .vec]) false 0x0
  | .iaddi r => let x := r.x.toNat; form .ri ([dst .D .vec, src .A .vec]) false (immEw x)
  | .iandi r => let x := r.x.toNat; form .ri ([dst .D .vec, src .A .vec]) false (immEw x)
  | .iori r => let x := r.x.toNat; form .ri ([dst .D .vec, src .A .vec]) false (immEw x)
  | .ixori r => let x := r.x.toNat; form .ri ([dst .D .vec, src .A .vec]) false (immEw x)
  | .ishli _ => form .ri ([dst .D .vec, src .A .vec]) false 0x3F0000
  | .ishri _ => form .ri ([dst .D .vec, src .A .vec]) false 0x3F0000
  | .icmpi r => let x := r.x.toNat; form .ri ([dst .D .pred, src .A .vec]) false (immEw x)
  | .icmpm _ => form .rrr ([dst .D .vec, src .A .vec, src .B .vec]) false 0x0
  | .mov _ => form .rrr ([dst .D .vec, src .A .vec]) false 0x0
  | .movi r => let x := r.x.toNat; form .i32 ([dst .D .vec]) false (imm32Ew x)
  | .moviHi _ => form .i32 ([srcDst .D .vec]) false 0xFFFFFFFF00
  | .fadd _ => form .rrr ([dst .D .vec, src .A .vec, src .B .vec]) true 0x0
  | .fsub _ => form .rrr ([dst .D .vec, src .A .vec, src .B .vec]) true 0x0
  | .fmul _ => form .rrr ([dst .D .vec, src .A .vec, src .B .vec]) true 0x0
  | .ffma _ => form .rrr ([dst .D .vec, src .A .vec, src .B .vec, src .C .vec]) true 0x0
  | .fmin _ => form .rrr ([dst .D .vec, src .A .vec, src .B .vec]) true 0x0
  | .fmax _ => form .rrr ([dst .D .vec, src .A .vec, src .B .vec]) true 0x0
  | .fabsn r => let x := r.x.toNat; form .rrr (if x = 2 then [dst .D .vec, src .A .vec, src .B .vec] else [dst .D .vec, src .A .vec]) true 0x0
  | .fcmp r => let x := r.x.toNat; form .rrr ([dst .D (if x / 64 % 4 = 0 then .vec else .pred), src .A .vec, src .B .vec]) true 0x0
  | .fclass _ => form .rrr ([dst .D .vec, src .A .vec]) true 0x0
  | .fdiv _ => form .rrr ([dst .D .vec, src .A .vec, src .B .vec]) true 0x0
  | .fsqrt _ => form .rrr ([dst .D .vec, src .A .vec]) true 0x0
  | .frcp _ => form .rrr ([dst .D .vec, src .A .vec]) true 0x0
  | .frsq _ => form .rrr ([dst .D .vec, src .A .vec]) true 0x0
  | .fexp2 _ => form .rrr ([dst .D .vec, src .A .vec]) true 0x0
  | .flog2 _ => form .rrr ([dst .D .vec, src .A .vec]) true 0x0
  | .fsum r => let x := r.x.toNat; form .rrr (if x % 2 = 1 then [dst .D .vec, src .A .vec, src .B .vec] else [dst .D .vec, src .A .vec]) true 0x0
  | .faddi _ => form .ri ([dst .D .vec, src .A .vec]) true 0xFFFF0000
  | .fmuli _ => form .ri ([dst .D .vec, src .A .vec]) true 0xFFFF0000
  | .ffmai _ => form .ri ([srcDst .D .vec, src .A .vec]) true 0xFFFF0000
  | .fcvt _ => form .rrr ([srcDst .D .vec, src .A .vec]) true 0xFFFF0000
  | .ftoi _ => form .rrr ([srcDst .D .vec, src .A .vec]) true 0xFFFF0000
  | .itof _ => form .rrr ([srcDst .D .vec, src .A .vec]) true 0xFFFF0000
  | .fpack _ => form .rrr ([dst .D .vec, src .A .vec, src .B .vec]) true 0x0
  | .fbscl _ => form .rrr ([srcDst .D .vec, src .A .vec, src .B .vec]) true 0xFF0000
  | .fdot r => let x := r.x.toNat; form .rrr (if x % 2 = 1 then [dst .D .vec, src .A .vec, src .B .vec, src .C .vec] else [dst .D .vec, src .A .vec, src .B .vec]) true 0x0
  | .frnd _ => form .rrr ([dst .D .vec, src .A .vec]) true 0x0
  | .fscale _ => form .rrr ([dst .D .vec, src .A .vec, src .B .vec]) true 0x0
  | .shfl _ => form .rrr ([dst .D .vec, src .A .vec, src .B .vec]) false 0x0
  | .shflx _ => form .rrr ([dst .D .vec, src .A .vec, src .B .vec, src .C .uni]) false 0x0
  | .shflud _ => form .rrr ([dst .D .vec, src .A .vec, src .B .uni]) false 0x0
  | .vote _ => form .rrr ([dst .D .pred, src .A .pred]) false 0x0
  | .matchEq _ => form .rrr ([dst .D .vec, src .A .vec]) false 0x0
  | .mrank _ => form .rrr ([dst .D .vec, src .A .vec]) false 0x0
  | .mlead _ => form .rrr ([dst .D .pred, src .A .vec]) false 0x0
  | .elect _ => form .rrr ([dst .D .pred]) false 0x0
  | .plog _ => form .rrr ([dst .D .pred, src .A .pred, src .B .pred, src .C .pred]) false 0x0
  | .pmov _ => form .rrr ([dst .D .vec]) false 0x0
  | .pmovSet _ => form .rrr ([src .A .vec]) false 0x0
  | .pbal _ => form .rrr ([dst .D .uni, src .A .pred]) false 0x0
  | .redux _ => form .rrr ([dst .D .uni, src .A .vec]) false 0x0
  | .fredx _ => form .rrr ([dst .D .uni, src .A .vec]) true 0x0
  | .scan _ => form .rrr ([dst .D .vec, src .A .vec]) false 0x0
  | .scanFadd _ => form .rrr ([dst .D .vec, src .A .vec]) true 0x0
  | .ld r => let x := r.x.toNat; form .mf (addrOps (x / 128) ++ [dst .D .vec]) false 0xFF0000
  | .ld2 r => let x := r.x.toNat; form .mf (addrOps (x / 128) ++ [{ fld := .D, cls := .vec, src := false, dst := true, n := 2 }]) false 0xFF0000
  | .ldp r => let x := r.x.toNat; form .mf (addrOps (x / 128) ++ [dst .D .vec]) true 0xFF0000
  | .lds r => let x := r.x.toNat; form .mf (addrOps (x / 128) ++ [dst .D .vec]) false 0xFF0000
  | .ldv r => let x := r.x.toNat; form .mf (addrOps (x / 128) ++ [dst .D .vec]) false 0xFF0000
  | .ldu _ => form .mf ([dst .D .uni, src .A .uni]) false 0xFF0000
  | .ldacq r => let x := r.x.toNat; form .mf (addrOps (x / 128) ++ [dst .D .vec]) false 0xFF0000
  | .ldpv r => let x := r.x.toNat; form .mf (addrOps (x / 128) ++ [dst .D .vec]) false 0xFF0000
  | .pfetch r => let x := r.x.toNat; form .mf (addrOps (x / 128)) false 0xFF0000
  | .ldg _ => form .mf ([src .A .uni, src .B .vec, srcDst .D .vec]) true 0xFF0000
  | .st r => let x := r.x.toNat; form .mf (addrOps (x / 128) ++ [src .D .vec]) false 0xFF0000
  | .st2 r => let x := r.x.toNat; form .mf (addrOps (x / 128) ++ [{ fld := .D, cls := .vec, src := true, dst := false, n := 2 }]) false 0xFF0000
  | .stp r => let x := r.x.toNat; form .mf (addrOps (x / 128) ++ [src .D .vec]) true 0xFF0000
  | .sts r => let x := r.x.toNat; form .mf (addrOps (x / 128) ++ [src .D .vec]) false 0xFF0000
  | .stv r => let x := r.x.toNat; form .mf (addrOps (x / 128) ++ [src .D .vec]) false 0xFF0000
  | .stu _ => form .mf ([src .A .uni, src .D .uni]) false 0xFF0000
  | .strel r => let x := r.x.toNat; form .mf (addrOps (x / 128) ++ [src .D .vec]) false 0xFF0000
  | .stpv r => let x := r.x.toNat; form .mf (addrOps (x / 128) ++ [src .D .vec]) false 0xFF0000
  | .mst _ => form .mf ([src .A .uni, src .B .uni, src .D .vec]) false 0xFF0000
  | .msto _ => form .mf ([src .A .uni, src .B .uni, src .D .vec]) false 0xFF0000
  | .stsc _ => form .mf ([src .A .uni, src .B .vec, src .D .vec]) true 0xFF0000
  | .atom r => let x := r.x.toNat; form .mf ([src .A .vec, { fld := .D, cls := .vec, src := true, dst := x / 16 % 2 = 1, n := 1 }]) false 0xFF0000
  | .acas _ => form .mf ([src .A .vec, src .B .vec, srcDst .D .vec]) false 0xFF0000
  | .atoms r => let x := r.x.toNat; form .mf ([src .A .vec, { fld := .D, cls := .vec, src := true, dst := x / 16 % 2 = 1, n := 1 }]) false 0xFF0000
  | .fatom r => let x := r.x.toNat; form .mf ([src .A .vec, { fld := .D, cls := .vec, src := true, dst := x / 16 % 2 = 1, n := 1 }]) true 0xFF0000
  | .fence r => let x := r.x.toNat; form .rrr (if x / 8 % 2 = 1 then [dst .D .uni] else []) false 0x0
  | .atomv r => let x := r.x.toNat; form .mf ([src .A .uni, src .B .vec, { fld := .D, cls := .vec, src := true, dst := x / 16 % 2 = 1, n := 1 }]) false 0xFF0000
  | .jpost r => let x := r.x.toNat; form .rrr ([dst .D .uni, src .A .tdesc, src .B .tdesc, { fld := .C, cls := .uni, src := true, dst := false, n := if x = 2 then 4 else 2 }]) false 0x0
  | .chsetRing _ => form .rrr ([src .A .uni, src .B .uni, src .C .uni]) false 0x0
  | .chsetChain _ => form .rrr ([src .A .uni, src .B .uni]) false 0x0
  | .twait _ => form .ri ([dst .D .pred, { fld := .A, cls := .uni, src := true, dst := false, n := 2 }]) false 0xFFF70000
  | .sqwait _ => form .ri ([dst .D .pred, src .A .uni]) false 0xFFF70000
  | .presq r => let x := r.x.toNat; form .mf (addrOps (x / 128) ++ [dst .D .pred]) false 0xFF0000
  | .sinv _ => form .mf ([src .A .uni, src .B .uni]) false 0xFF0000
  | .sinvSet _ => form .mf ([src .A .uni, src .B .uni]) false 0xFF0000
  | .tdesc _ => form .rrr ([dst .D .tdesc, src .A .uni, src .B .uni, src .C .uni]) false 0x0
  | .tmod _ => form .rrr ([dst .D .tdesc, src .A .tdesc, src .B .uni]) false 0x0
  | .jcancel _ => form .rrr ([dst .D .pred, src .A .uni]) false 0x0
  | .qpush r => let x := r.x.toNat; form .rrr ([{ fld := .A, cls := .vec, src := true, dst := false, n := x + 1 }]) false 0x0
  | .mma _ => form .rrr ([dst .D .acc, src .A .tdesc, src .B .tdesc]) true 0x0
  | .mmaCo _ => form .rrr ([dst .D .acc, src .A .tdesc, src .B .tdesc, src .C .uni]) true 0x0
  | .mmas _ => form .rrr ([dst .D .acc, src .A .tdesc, src .B .tdesc]) true 0x0
  | .mmasCo _ => form .rrr ([dst .D .acc, src .A .tdesc, src .B .tdesc, src .C .uni]) true 0x0
  | .azero _ => form .rrr ([dst .D .acc]) false 0x0
  | .arel _ => form .rrr ([dst .D .acc]) false 0x0
  | .asto _ => form .rrr ([src .D .tdesc, src .A .acc]) false 0x0
  | .aldr _ => form .rrr ([dst .D .acc, src .A .tdesc]) true 0x0
  | .amovv r => let x := r.x.toNat; form .rrr ([{ fld := .D, cls := .vec, src := false, dst := true, n := 2 ^ x }, src .A .acc, src .B .uni]) true 0x0
  | .aqry _ => form .rrr ([dst .D .uni, src .A .acc]) false 0x0
  | .bsync _ => form .ri ([src .A .uni]) false 0x7F0000
  | .barr _ => form .ri ([]) false 0x3FF0000
  | .bcast _ => form .rrr ([src .A .uni]) false 0x0
  | .brecv _ => form .rrr ([dst .D .uni]) false 0x0
  | .msend _ => form .rrr ([src .A .tdesc, src .B .uni, src .C .uni]) false 0x0
  | .mpost _ => form .rrr ([dst .D .uni, src .A .tdesc, src .B .uni, { fld := .C, cls := .uni, src := true, dst := false, n := 2 }]) false 0x0
  | .mtest _ => form .rrr ([dst .D .uni, src .A .uni]) false 0x0
  | .mprobe _ => form .rrr ([dst .D .uni, src .B .uni, { fld := .C, cls := .uni, src := true, dst := false, n := 2 }]) false 0x0
  | .mcancel _ => form .rrr ([dst .D .pred, src .A .uni]) false 0x0
  | .asend _ => form .rrr ([{ fld := .A, cls := .vec, src := true, dst := false, n := 4 }, src .B .uni]) false 0x0
  | .gen _ => form .bf ([]) false 0xFFFFFFFFFF00
  | .yld _ => form .rrr ([src .A .vec]) false 0x0
  | .gdone _ => form .rrr ([]) false 0x0
  | .gtake _ => form .rrr ([dst .D .vec, dst .B .pred]) false 0x0
  | .gtakeLn _ => form .rrr ([dst .D .vec, dst .B .pred]) false 0x0
  | .gnext _ => form .rrr ([]) false 0x0
  | .launch _ => form .rrr ([dst .D .uni, src .A .uni]) false 0x0
  | .fdrw _ => form .rrr ([dst .D .slot, src .A .uni]) false 0x0
  | .fdrr _ => form .rrr ([dst .D .uni, src .A .slot]) false 0x0
  | .csrr _ => form .ri ([dst .D .uni]) false 0xFFFF0000
  | .csrwCtx _ => form .ri ([src .A .uni]) false 0xFFFF0000
  | .csrwFairt _ => form .ri ([src .A .uni]) false 0xFFFF0000
  | .csrwFairq _ => form .ri ([src .A .uni]) false 0xFFFF0000
  | .csrwWdog _ => form .ri ([src .A .uni]) false 0xFFFF0000
  | .csrwGencfg _ => form .ri ([src .A .uni]) false 0xFFFF0000
  | .csrwFres _ => form .ri ([src .A .uni]) false 0xFFFF0000
  | .csrw _ => form .ri ([src .A .uni]) false 0xFFFF0000
  | .sreg r => let imm := r.imm.toNat; form .ri (sregOps imm) false 0xFF00FFFF0000
  | .rgrow _ => form .ri ([dst .D .pred]) false 0xFFFF0000
  | .rshrk _ => form .ri ([]) false 0xFFFF0000
  | .pdone _ => form .rrr ([]) false 0x0
  | .eret _ => form .rrr ([]) false 0x0
  | .eretNext _ => form .rrr ([]) false 0x0
  | .fwcallCapability _ => form .i32 ([]) false 0xFFFFFFFF00
  | .fwcallJournal _ => form .i32 ([]) false 0xFFFFFFFF00
  | .fwcallVersion _ => form .i32 ([]) false 0xFFFFFFFF00
  | .hadd _ => form .rrr ([]) false 0xFFFFFFFFFFFF
  | .hmul _ => form .rrr ([]) false 0xFFFFFFFFFFFF
  | .hfma _ => form .rrr ([]) false 0xFFFFFFFFFFFF
  | .bhadd _ => form .rrr ([]) false 0xFFFFFFFFFFFF
  | .bhmul _ => form .rrr ([]) false 0xFFFFFFFFFFFF
  | .bhfma _ => form .rrr ([]) false 0xFFFFFFFFFFFF
  | .barw _ => form .rrr ([]) false 0xFFFFFFFFFFFF
  | .ldtex _ => form .rrr ([]) false 0xFFFFFFFFFFFF
  | .unassignedOpcode _ => form .event [] false 0
  | .fairnessGrant _ _ => form .event [] false 0
  | .grantEnd _ _ => form .event [] false 0
  | .spinWatchdog => form .event [] false 0
  | .wjoinExpire _ _ _ => form .event [] false 0
  | .rgrowGrant _ _ => form .event [] false 0
  | .napEnd _ _ => form .event [] false 0
  | .resultReturn _ _ => form .event [] false 0
  | .waitConditionMet _ _ => form .event [] false 0
  | .waitExpire _ _ => form .event [] false 0
  | .accessPerform _ _ _ => form .event [] false 0
  | .fenceComplete _ _ => form .event [] false 0
  | .remoteAccessFail _ _ => form .event [] false 0
  | .jpostAccept _ _ _ => form .event [] false 0
  | .chainCardAccept _ _ _ => form .event [] false 0
  | .cardStart _ _ => form .event [] false 0
  | .loopIterationStart _ _ => form .event [] false 0
  | .cardLineWritten _ _ _ => form .event [] false 0
  | .cardChunkDone _ _ _ => form .event [] false 0
  | .cardComplete _ _ => form .event [] false 0
  | .mmaComplete _ _ => form .event [] false 0
  | .astoComplete _ _ => form .event [] false 0
  | .aldrComplete _ _ => form .event [] false 0
  | .amovvReadout _ _ => form .event [] false 0
  | .bsyncRelease _ _ _ => form .event [] false 0
  | .barrRelease _ _ _ => form .event [] false 0
  | .bcastArrive _ _ => form .event [] false 0
  | .reservationGrant _ _ => form .event [] false 0
  | .msendComplete _ _ => form .event [] false 0
  | .messageMatch _ _ => form .event [] false 0
  | .pieceLand _ _ => form .event [] false 0
  | .activeMessageDeliver _ _ => form .event [] false 0
  | .mcastMemberTimeout _ _ _ _ => form .event [] false 0
  | .hostDoorbell _ _ _ => form .event [] false 0
  | .launchAccept _ => form .event [] false 0
  | .blockAdmit _ _ => form .event [] false 0
  | .stageBlockDispatch _ _ _ => form .event [] false 0
  | .coreReassign _ _ => form .event [] false 0
  | .launchComplete _ _ => form .event [] false 0
  | .launchKill _ _ => form .event [] false 0
  | .sliceExpire _ => form .event [] false 0
  | .preemptSignal _ _ => form .event [] false 0
  | .forcedStop _ _ => form .event [] false 0
  | .contextIdleExchange _ => form .event [] false 0
  | .contextExchange _ => form .event [] false 0
  | .contextCreate _ => form .event [] false 0
  | .fetchFaultSwap _ _ => form .event [] false 0
  | .blockSwapIn _ _ _ => form .event [] false 0
  | .pageMigration _ _ _ _ _ => form .event [] false 0
  | .tlbShootdown _ _ => form .event [] false 0
  | .errorCorrected _ => form .event [] false 0
  | .japWrite _ => form .event [] false 0
  | .nfeatWrite _ => form .event [] false 0
  | .functionReady _ => form .event [] false 0
  | .portDead _ => form .event [] false 0
  | .portRetrain _ => form .event [] false 0
  | .fatalFaultRecovery _ => form .event [] false 0
  | .fsvRaise _ => form .event [] false 0
  | .reset => form .event [] false 0
  | .powerLoss => form .event [] false 0
  | .supplyDroop _ _ => form .event [] false 0
  | .contextEnd _ => form .event [] false 0
  | .tenantRotation _ _ => form .event [] false 0
  | .demandPaging _ _ _ => form .event [] false 0
  | .uncorrectableError _ => form .event [] false 0
  | .attestationRequest _ => form .event [] false 0
  | .landfaultEntryFree _ _ => form .event [] false 0

/-- The X values (and CSR and service numbers) that select each member (R95). -/
def xLegal (i : Instr) : Bool :=
  match i with
  | .nop r => let x := r.x.toNat; x = 0
  | .bra r => let x := r.x.toNat; x = 0
  | .bruAny r => let x := r.x.toNat; x = 0
  | .bruAll r => let x := r.x.toNat; x = 1
  | .brx r => let x := r.x.toNat; x = 0
  | .call r => let x := r.x.toNat; x = 0
  | .callx r => let x := r.x.toNat; x = 0
  | .ret r => let x := r.x.toNat; x = 0
  | .exit r => let x := r.x.toNat; x = 0
  | .wjoin r => let x := r.x.toNat; x = 0
  | .yield r => let x := r.x.toNat; x = 0
  | .prioImm r => let x := r.x.toNat; x = 0
  | .prioReg r => let x := r.x.toNat; x = 1
  | .trap r => let x := r.x.toNat; x = 0
  | .bkpt r => let x := r.x.toNat; x = 0
  | .napImm r => let x := r.x.toNat; x = 0
  | .napReg r => let x := r.x.toNat; x = 1
  | .sadd r => let x := r.x.toNat; x = 0
  | .ssub r => let x := r.x.toNat; x = 0
  | .smul r => let x := r.x.toNat; x = 0
  | .smulh r => let x := r.x.toNat; x ≤ 1
  | .sand r => let x := r.x.toNat; x = 0
  | .sor r => let x := r.x.toNat; x = 0
  | .sxor r => let x := r.x.toNat; x = 0
  | .sshl r => let x := r.x.toNat; x = 0
  | .sshr r => let x := r.x.toNat; x = 1
  | .ssra r => let x := r.x.toNat; x = 2
  | .smin r => let x := r.x.toNat; (x = 0 || x = 2)
  | .smax r => let x := r.x.toNat; (x = 1 || x = 3)
  | .saddi r => let x := r.x.toNat; x = 0
  | .sldi r => let x := r.x.toNat; x ≤ 1
  | .sldhi r => let x := r.x.toNat; x = 0
  | .scmp r => let x := r.x.toNat; x ≤ 5
  | .ssel r => let x := r.x.toNat; x = 0
  | .sget r => let x := r.x.toNat; x = 0
  | .sgetFirst r => let x := r.x.toNat; x = 1
  | .vbc r => let x := r.x.toNat; x = 0
  | .iadd r => let x := r.x.toNat; x / 8 ≤ 1
  | .isub r => let x := r.x.toNat; x / 8 ≤ 1
  | .imul r => let x := r.x.toNat; x / 8 ≤ 1
  | .imulh r => let x := r.x.toNat; x / 8 = 0
  | .imad r => let x := r.x.toNat; x / 8 ≤ 1
  | .iand r => let x := r.x.toNat; x / 8 = 0
  | .ior r => let x := r.x.toNat; x / 8 = 0
  | .ixor r => let x := r.x.toNat; x / 8 = 0
  | .ishl r => let x := r.x.toNat; x / 8 = 0
  | .ishr r => let x := r.x.toNat; x / 8 = 1
  | .isra r => let x := r.x.toNat; x / 8 = 2
  | .imin r => let x := r.x.toNat; x / 8 = 0
  | .imax r => let x := r.x.toNat; x / 8 = 1
  | .icmp r => let x := r.x.toNat; (x / 64 ≤ 5 && x / 16 % 4 ≠ 3 && x / 8 % 2 = 0)
  | .isel r => let x := r.x.toNat; x = 0
  | .iselM r => let x := r.x.toNat; x / 8 = 1
  | .ipopc r => let x := r.x.toNat; x / 8 = 0
  | .iclz r => let x := r.x.toNat; x / 8 = 1
  | .ibfe r => let x := r.x.toNat; x / 8 = 0
  | .ibfi r => let x := r.x.toNat; x / 8 = 0
  | .lea r => let x := r.x.toNat; x / 64 = 0
  | .iaddi r => let x := r.x.toNat; x / 8 ≤ 1
  | .iandi r => let x := r.x.toNat; x / 8 = 0
  | .iori r => let x := r.x.toNat; x / 8 = 1
  | .ixori r => let x := r.x.toNat; x / 8 = 2
  | .ishli r => let x := r.x.toNat; x / 8 = 0
  | .ishri r => let x := r.x.toNat; x / 8 = 1
  | .icmpi r => let x := r.x.toNat; (x / 64 ≤ 5 && x / 16 % 4 ≠ 3 && x / 8 % 2 = 0)
  | .icmpm r => let x := r.x.toNat; (x / 64 ≤ 5 && x / 8 % 8 = 0)
  | .mov r => let x := r.x.toNat; x = 0
  | .movi r => let x := r.x.toNat; x / 8 = 0
  | .moviHi r => let x := r.x.toNat; x = 0x0B
  | .fadd r => let x := r.x.toNat; (x / 8 ≤ 6 && x % 8 = 0)
  | .fsub r => let x := r.x.toNat; (x / 8 ≤ 6 && x % 8 = 0)
  | .fmul r => let x := r.x.toNat; (x / 8 ≤ 6 && x % 8 = 0)
  | .ffma r => let x := r.x.toNat; (x / 8 ≤ 6 && x / 4 % 2 = 0)
  | .fmin r => let x := r.x.toNat; x = 0
  | .fmax r => let x := r.x.toNat; x = 0
  | .fabsn r => let x := r.x.toNat; x ≤ 2
  | .fcmp r => let x := r.x.toNat; (x / 256 = 0 && x / 8 % 8 = 0)
  | .fclass _ => true
  | .fdiv r => let x := r.x.toNat; (x / 8 ≤ 6 && x % 8 = 0)
  | .fsqrt r => let x := r.x.toNat; (x / 8 ≤ 6 && x % 8 = 0)
  | .frcp r => let x := r.x.toNat; (x / 8 ≤ 6 && x % 8 = 0)
  | .frsq r => let x := r.x.toNat; (x / 8 ≤ 6 && x % 8 = 0)
  | .fexp2 r => let x := r.x.toNat; (x / 8 ≤ 6 && x % 8 = 0)
  | .flog2 r => let x := r.x.toNat; (x / 8 ≤ 6 && x % 8 = 0)
  | .fsum r => let x := r.x.toNat; (x / 8 ≤ 6 && x / 2 % 4 = 0)
  | .faddi r => let x := r.x.toNat; (x / 8 ≤ 6 && x % 8 = 0)
  | .fmuli r => let x := r.x.toNat; (x / 8 ≤ 6 && x % 8 = 0)
  | .ffmai r => let x := r.x.toNat; (x / 8 ≤ 6 && x / 4 % 2 = 0)
  | .fcvt r => let x := r.x.toNat; (x / 4 % 8 ≤ 6 && x % 4 = 0)
  | .ftoi r => let x := r.x.toNat; x / 8 ≤ 6
  | .itof r => let x := r.x.toNat; x / 8 ≤ 6
  | .fpack r => let x := r.x.toNat; x ≤ 3
  | .fbscl r => let x := r.x.toNat; (x / 4 % 8 ≤ 6 && x % 4 = 0)
  | .fdot r => let x := r.x.toNat; (x / 8 ≤ 6 && x / 2 % 4 = 0)
  | .frnd r => let x := r.x.toNat; (x / 8 ≤ 6 && x % 8 = 0)
  | .fscale r => let x := r.x.toNat; (x / 8 ≤ 6 && x % 8 = 0)
  | .shfl r => let x := r.x.toNat; x = 0
  | .shflx r => let x := r.x.toNat; x = 0
  | .shflud r => let x := r.x.toNat; x ≤ 3
  | .vote r => let x := r.x.toNat; x ≤ 4
  | .matchEq r => let x := r.x.toNat; x ≤ 1
  | .mrank r => let x := r.x.toNat; x ≤ 1
  | .mlead r => let x := r.x.toNat; x ≤ 1
  | .elect r => let x := r.x.toNat; x ≤ 1
  | .plog r => let x := r.x.toNat; x / 256 = 0
  | .pmov r => let x := r.x.toNat; x = 0
  | .pmovSet r => let x := r.x.toNat; x = 1
  | .pbal r => let x := r.x.toNat; x ≤ 1
  | .redux r => let x := r.x.toNat; x / 8 ≤ 5
  | .fredx r => let x := r.x.toNat; x ≤ 2
  | .scan r => let x := r.x.toNat; (x / 128 = 0 && x / 8 % 8 ≤ 2)
  | .scanFadd r => let x := r.x.toNat; (x / 128 = 0 && x / 8 % 8 = 3 && x % 8 = 0)
  | .ld r => let x := r.x.toNat; (x / 128 ≤ 2 && x / 16 % 8 ≤ 1 && x % 8 ≤ 3 && x % 16 ≠ 11)
  | .ld2 r => let x := r.x.toNat; (x / 128 ≤ 2 && x / 16 % 8 ≤ 1 && x % 16 = 0)
  | .ldp r => let x := r.x.toNat; (x / 128 ≤ 2 && x / 16 % 8 ≤ 2 && x % 16 = 0 && (x / 16 % 8 ≠ 2 || x / 128 ≠ 1))
  | .lds r => let x := r.x.toNat; (x / 128 ≤ 2 && x / 16 % 8 = 0 && x % 8 ≤ 3 && x % 16 ≠ 11)
  | .ldv r => let x := r.x.toNat; ((x / 128 = 0 || x / 128 = 2) && x / 16 % 8 = 0 && x % 8 ≤ 3 && x % 16 ≠ 11)
  | .ldu r => let x := r.x.toNat; (x / 128 = 0 && x / 16 % 8 ≤ 1 && x % 8 ≤ 3 && x % 16 ≠ 11)
  | .ldacq r => let x := r.x.toNat; (x / 128 ≤ 2 && x / 16 % 8 ≤ 6 && x % 8 ≤ 3 && x % 16 ≠ 11)
  | .ldpv r => let x := r.x.toNat; (x / 16 % 8 = 0 && x % 8 ≤ 3 && x % 16 ≠ 11)
  | .pfetch r => let x := r.x.toNat; (x / 128 ≤ 2 && x / 16 % 8 ≤ 1 && x % 16 = 0)
  | .ldg r => let x := r.x.toNat; x % 8 ≤ 2
  | .st r => let x := r.x.toNat; (x / 128 ≤ 2 && x / 16 % 8 ≤ 1 && x % 16 ≤ 3)
  | .st2 r => let x := r.x.toNat; (x / 128 ≤ 2 && x / 16 % 8 ≤ 1 && x % 16 = 0)
  | .stp r => let x := r.x.toNat; (x / 128 ≤ 2 && x / 16 % 8 ≤ 2 && x % 16 = 0 && (x / 16 % 8 ≠ 2 || x / 128 ≠ 1))
  | .sts r => let x := r.x.toNat; (x / 128 ≤ 2 && x / 16 % 8 = 0 && x % 16 ≤ 3)
  | .stv r => let x := r.x.toNat; ((x / 128 = 0 || x / 128 = 2) && x / 16 % 8 = 0 && x % 16 ≤ 3)
  | .stu r => let x := r.x.toNat; (x / 128 = 0 && x / 16 % 8 ≤ 1 && x % 16 ≤ 3)
  | .strel r => let x := r.x.toNat; (x / 128 ≤ 2 && x / 16 % 8 ≤ 6 && x % 16 ≤ 3)
  | .stpv r => let x := r.x.toNat; (x / 16 % 8 = 0 && x % 16 ≤ 3)
  | .mst r => let x := r.x.toNat; x % 256 ≤ 3
  | .msto r => let x := r.x.toNat; x % 256 ≤ 3
  | .stsc r => let x := r.x.toNat; x % 8 ≤ 2
  | .atom r => let x := r.x.toNat; (x / 32 ≤ 8 && (x % 8 = 2 || x % 8 = 3))
  | .acas r => let x := r.x.toNat; (x / 8 = 0 && (x % 8 = 2 || x % 8 = 3))
  | .atoms r => let x := r.x.toNat; (x / 32 ≤ 8 && (x % 8 = 2 || x % 8 = 3))
  | .fatom r => let x := r.x.toNat; ((x / 32 = 0 || x / 32 = 2 || x / 32 = 3) && x % 16 = 3)
  | .fence r => let x := r.x.toNat; (x / 64 = 0 && x / 16 % 4 ≠ 0 && x % 8 ≤ 6)
  | .atomv r => let x := r.x.toNat; (x / 32 ≤ 8 && (x % 8 = 2 || x % 8 = 3))
  | .jpost r => let x := r.x.toNat; x ≤ 2
  | .chsetRing r => let x := r.x.toNat; x = 0
  | .chsetChain r => let x := r.x.toNat; x = 1
  | .twait r => let x := r.x.toNat; x = 0
  | .sqwait r => let x := r.x.toNat; x = 0
  | .presq r => let x := r.x.toNat; (x / 128 ≤ 2 && x % 128 = 0)
  | .sinv r => let x := r.x.toNat; x = 0
  | .sinvSet r => let x := r.x.toNat; x = 1
  | .tdesc r => let x := r.x.toNat; x = 0
  | .tmod r => let x := r.x.toNat; (x / 16 = 0 && x ≠ 14 && x ≠ 15)
  | .jcancel r => let x := r.x.toNat; x = 0
  | .qpush r => let x := r.x.toNat; x ≤ 1
  | .mma r => let x := r.x.toNat; (x = 0 || x = 2)
  | .mmaCo r => let x := r.x.toNat; (x = 1 || x = 3)
  | .mmas r => let x := r.x.toNat; x = 0
  | .mmasCo r => let x := r.x.toNat; x = 1
  | .azero r => let x := r.x.toNat; x = 0
  | .arel r => let x := r.x.toNat; x = 0
  | .asto r => let x := r.x.toNat; x = 0
  | .aldr r => let x := r.x.toNat; x = 0
  | .amovv r => let x := r.x.toNat; x ≤ 2
  | .aqry r => let x := r.x.toNat; x = 0
  | .bsync r => let x := r.x.toNat; x ≤ 3
  | .barr r => let x := r.x.toNat; x = 0
  | .bcast r => let x := r.x.toNat; x ≤ 31
  | .brecv r => let x := r.x.toNat; x ≤ 31
  | .msend r => let x := r.x.toNat; x = 0
  | .mpost r => let x := r.x.toNat; (x = 0 || x = 1 || x = 3 || x = 5)
  | .mtest r => let x := r.x.toNat; x = 0
  | .mprobe r => let x := r.x.toNat; x = 0
  | .mcancel r => let x := r.x.toNat; x = 0
  | .asend r => let x := r.x.toNat; x = 0
  | .gen r => let x := r.x.toNat; x = 0
  | .yld r => let x := r.x.toNat; x = 0
  | .gdone r => let x := r.x.toNat; x = 0
  | .gtake r => let x := r.x.toNat; x = 0
  | .gtakeLn r => let x := r.x.toNat; x = 1
  | .gnext r => let x := r.x.toNat; x = 0
  | .launch r => let x := r.x.toNat; x = 0
  | .fdrw r => let x := r.x.toNat; x = 0
  | .fdrr r => let x := r.x.toNat; x = 0
  | .csrr r => let x := r.x.toNat; x = 0
  | .csrwCtx r => let x := r.x.toNat; let imm := r.imm.toNat; (x = 0 && imm = 0)
  | .csrwFairt r => let x := r.x.toNat; let imm := r.imm.toNat; (x = 0 && imm = 1)
  | .csrwFairq r => let x := r.x.toNat; let imm := r.imm.toNat; (x = 0 && imm = 2)
  | .csrwWdog r => let x := r.x.toNat; let imm := r.imm.toNat; (x = 0 && imm = 3)
  | .csrwGencfg r => let x := r.x.toNat; let imm := r.imm.toNat; (x = 0 && imm = 5)
  | .csrwFres r => let x := r.x.toNat; let imm := r.imm.toNat; (x = 0 && imm = 0x105)
  | .csrw r => let x := r.x.toNat; let imm := r.imm.toNat; (x = 0 && !([0, 1, 2, 3, 5, 0x105].contains imm))
  | .sreg r => let x := r.x.toNat; x = 0
  | .rgrow r => let x := r.x.toNat; x = 0
  | .rshrk r => let x := r.x.toNat; x = 0
  | .pdone r => let x := r.x.toNat; x = 0
  | .eret r => let x := r.x.toNat; x = 0
  | .eretNext r => let x := r.x.toNat; x = 1
  | .fwcallCapability r => let x := r.x.toNat; let imm := r.imm.toNat; (x = 0 && imm = 1)
  | .fwcallJournal r => let x := r.x.toNat; let imm := r.imm.toNat; (x = 0 && imm = 2)
  | .fwcallVersion r => let x := r.x.toNat; let imm := r.imm.toNat; (x = 0 && imm ≠ 1 && imm ≠ 2)
  | .hadd _ => true
  | .hmul _ => true
  | .hfma _ => true
  | .bhadd _ => true
  | .bhmul _ => true
  | .bhfma _ => true
  | .barw _ => true
  | .ldtex _ => true
  | .unassignedOpcode _ => true
  | .fairnessGrant _ _ => true
  | .grantEnd _ _ => true
  | .spinWatchdog => true
  | .wjoinExpire _ _ _ => true
  | .rgrowGrant _ _ => true
  | .napEnd _ _ => true
  | .resultReturn _ _ => true
  | .waitConditionMet _ _ => true
  | .waitExpire _ _ => true
  | .accessPerform _ _ _ => true
  | .fenceComplete _ _ => true
  | .remoteAccessFail _ _ => true
  | .jpostAccept _ _ _ => true
  | .chainCardAccept _ _ _ => true
  | .cardStart _ _ => true
  | .loopIterationStart _ _ => true
  | .cardLineWritten _ _ _ => true
  | .cardChunkDone _ _ _ => true
  | .cardComplete _ _ => true
  | .mmaComplete _ _ => true
  | .astoComplete _ _ => true
  | .aldrComplete _ _ => true
  | .amovvReadout _ _ => true
  | .bsyncRelease _ _ _ => true
  | .barrRelease _ _ _ => true
  | .bcastArrive _ _ => true
  | .reservationGrant _ _ => true
  | .msendComplete _ _ => true
  | .messageMatch _ _ => true
  | .pieceLand _ _ => true
  | .activeMessageDeliver _ _ => true
  | .mcastMemberTimeout _ _ _ _ => true
  | .hostDoorbell _ _ _ => true
  | .launchAccept _ => true
  | .blockAdmit _ _ => true
  | .stageBlockDispatch _ _ _ => true
  | .coreReassign _ _ => true
  | .launchComplete _ _ => true
  | .launchKill _ _ => true
  | .sliceExpire _ => true
  | .preemptSignal _ _ => true
  | .forcedStop _ _ => true
  | .contextIdleExchange _ => true
  | .contextExchange _ => true
  | .contextCreate _ => true
  | .fetchFaultSwap _ _ => true
  | .blockSwapIn _ _ _ => true
  | .pageMigration _ _ _ _ _ => true
  | .tlbShootdown _ _ => true
  | .errorCorrected _ => true
  | .japWrite _ => true
  | .nfeatWrite _ => true
  | .functionReady _ => true
  | .portDead _ => true
  | .portRetrain _ => true
  | .fatalFaultRecovery _ => true
  | .fsvRaise _ => true
  | .reset => true
  | .powerLoss => true
  | .supplyDroop _ _ => true
  | .contextEnd _ => true
  | .tenantRotation _ _ => true
  | .demandPaging _ _ _ => true
  | .uncorrectableError _ => true
  | .attestationRequest _ => true
  | .landfaultEntryFree _ _ => true

/-- The primary opcode (R94); an event has none. -/
def opcodeOf (i : Instr) : Option Nat :=
  match i with
  | .nop _ => some 0x00
  | .bra _ => some 0x01
  | .bruAny _ => some 0x02
  | .bruAll _ => some 0x02
  | .brx _ => some 0x03
  | .call _ => some 0x04
  | .callx _ => some 0x05
  | .ret _ => some 0x06
  | .exit _ => some 0x07
  | .wjoin _ => some 0x08
  | .yield _ => some 0x09
  | .prioImm _ => some 0x0A
  | .prioReg _ => some 0x0A
  | .trap _ => some 0x0B
  | .bkpt _ => some 0x0C
  | .napImm _ => some 0x0D
  | .napReg _ => some 0x0D
  | .sadd _ => some 0x10
  | .ssub _ => some 0x11
  | .smul _ => some 0x12
  | .smulh _ => some 0x13
  | .sand _ => some 0x14
  | .sor _ => some 0x15
  | .sxor _ => some 0x16
  | .sshl _ => some 0x17
  | .sshr _ => some 0x17
  | .ssra _ => some 0x17
  | .smin _ => some 0x18
  | .smax _ => some 0x18
  | .saddi _ => some 0x19
  | .sldi _ => some 0x1A
  | .sldhi _ => some 0x1B
  | .scmp _ => some 0x1C
  | .ssel _ => some 0x1D
  | .sget _ => some 0x1E
  | .sgetFirst _ => some 0x1E
  | .vbc _ => some 0x1F
  | .iadd _ => some 0x20
  | .isub _ => some 0x21
  | .imul _ => some 0x22
  | .imulh _ => some 0x23
  | .imad _ => some 0x24
  | .iand _ => some 0x25
  | .ior _ => some 0x26
  | .ixor _ => some 0x27
  | .ishl _ => some 0x28
  | .ishr _ => some 0x28
  | .isra _ => some 0x28
  | .imin _ => some 0x29
  | .imax _ => some 0x29
  | .icmp _ => some 0x2A
  | .isel _ => some 0x2B
  | .iselM _ => some 0x2B
  | .ipopc _ => some 0x2C
  | .iclz _ => some 0x2C
  | .ibfe _ => some 0x2D
  | .ibfi _ => some 0x2E
  | .lea _ => some 0x2F
  | .iaddi _ => some 0x30
  | .iandi _ => some 0x31
  | .iori _ => some 0x31
  | .ixori _ => some 0x31
  | .ishli _ => some 0x32
  | .ishri _ => some 0x32
  | .icmpi _ => some 0x33
  | .icmpm _ => some 0x34
  | .mov _ => some 0x35
  | .movi _ => some 0x36
  | .moviHi _ => some 0x36
  | .fadd _ => some 0x40
  | .fsub _ => some 0x41
  | .fmul _ => some 0x42
  | .ffma _ => some 0x43
  | .fmin _ => some 0x44
  | .fmax _ => some 0x45
  | .fabsn _ => some 0x46
  | .fcmp _ => some 0x47
  | .fclass _ => some 0x48
  | .fdiv _ => some 0x49
  | .fsqrt _ => some 0x4A
  | .frcp _ => some 0x4B
  | .frsq _ => some 0x4C
  | .fexp2 _ => some 0x4D
  | .flog2 _ => some 0x4E
  | .fsum _ => some 0x4F
  | .faddi _ => some 0x50
  | .fmuli _ => some 0x51
  | .ffmai _ => some 0x52
  | .fcvt _ => some 0x53
  | .ftoi _ => some 0x54
  | .itof _ => some 0x55
  | .fpack _ => some 0x56
  | .fbscl _ => some 0x57
  | .fdot _ => some 0x58
  | .frnd _ => some 0x59
  | .fscale _ => some 0x5A
  | .shfl _ => some 0x60
  | .shflx _ => some 0x61
  | .shflud _ => some 0x62
  | .vote _ => some 0x63
  | .matchEq _ => some 0x64
  | .mrank _ => some 0x65
  | .mlead _ => some 0x66
  | .elect _ => some 0x67
  | .plog _ => some 0x68
  | .pmov _ => some 0x69
  | .pmovSet _ => some 0x69
  | .pbal _ => some 0x6A
  | .redux _ => some 0x6B
  | .fredx _ => some 0x6C
  | .scan _ => some 0x6D
  | .scanFadd _ => some 0x6D
  | .ld _ => some 0x70
  | .ld2 _ => some 0x71
  | .ldp _ => some 0x72
  | .lds _ => some 0x73
  | .ldv _ => some 0x74
  | .ldu _ => some 0x75
  | .ldacq _ => some 0x76
  | .ldpv _ => some 0x77
  | .pfetch _ => some 0x78
  | .ldg _ => some 0x79
  | .st _ => some 0x80
  | .st2 _ => some 0x81
  | .stp _ => some 0x82
  | .sts _ => some 0x83
  | .stv _ => some 0x84
  | .stu _ => some 0x85
  | .strel _ => some 0x86
  | .stpv _ => some 0x87
  | .mst _ => some 0x88
  | .msto _ => some 0x89
  | .stsc _ => some 0x8A
  | .atom _ => some 0x90
  | .acas _ => some 0x91
  | .atoms _ => some 0x92
  | .fatom _ => some 0x93
  | .fence _ => some 0x94
  | .atomv _ => some 0x95
  | .jpost _ => some 0xA0
  | .chsetRing _ => some 0xA1
  | .chsetChain _ => some 0xA1
  | .twait _ => some 0xA2
  | .sqwait _ => some 0xA3
  | .presq _ => some 0xA4
  | .sinv _ => some 0xA5
  | .sinvSet _ => some 0xA5
  | .tdesc _ => some 0xA6
  | .tmod _ => some 0xA7
  | .jcancel _ => some 0xA8
  | .qpush _ => some 0xA9
  | .mma _ => some 0xB0
  | .mmaCo _ => some 0xB0
  | .mmas _ => some 0xB1
  | .mmasCo _ => some 0xB1
  | .azero _ => some 0xB2
  | .arel _ => some 0xB3
  | .asto _ => some 0xB4
  | .aldr _ => some 0xB5
  | .amovv _ => some 0xB6
  | .aqry _ => some 0xB7
  | .bsync _ => some 0xC0
  | .barr _ => some 0xC1
  | .bcast _ => some 0xC2
  | .brecv _ => some 0xC3
  | .msend _ => some 0xC4
  | .mpost _ => some 0xC5
  | .mtest _ => some 0xC6
  | .mprobe _ => some 0xC7
  | .mcancel _ => some 0xC8
  | .asend _ => some 0xC9
  | .gen _ => some 0xCA
  | .yld _ => some 0xCB
  | .gdone _ => some 0xCC
  | .gtake _ => some 0xCD
  | .gtakeLn _ => some 0xCD
  | .gnext _ => some 0xCE
  | .launch _ => some 0xCF
  | .fdrw _ => some 0xD0
  | .fdrr _ => some 0xD1
  | .csrr _ => some 0xD2
  | .csrwCtx _ => some 0xD3
  | .csrwFairt _ => some 0xD3
  | .csrwFairq _ => some 0xD3
  | .csrwWdog _ => some 0xD3
  | .csrwGencfg _ => some 0xD3
  | .csrwFres _ => some 0xD3
  | .csrw _ => some 0xD3
  | .sreg _ => some 0xD4
  | .rgrow _ => some 0xD5
  | .rshrk _ => some 0xD6
  | .pdone _ => some 0xD7
  | .eret _ => some 0xD8
  | .eretNext _ => some 0xD8
  | .fwcallCapability _ => some 0xD9
  | .fwcallJournal _ => some 0xD9
  | .fwcallVersion _ => some 0xD9
  | .hadd _ => some 0xF0
  | .hmul _ => some 0xF1
  | .hfma _ => some 0xF2
  | .bhadd _ => some 0xF3
  | .bhmul _ => some 0xF4
  | .bhfma _ => some 0xF5
  | .barw _ => some 0xF6
  | .ldtex _ => some 0xF7
  | .unassignedOpcode _ => none
  | .fairnessGrant _ _ => none
  | .grantEnd _ _ => none
  | .spinWatchdog => none
  | .wjoinExpire _ _ _ => none
  | .rgrowGrant _ _ => none
  | .napEnd _ _ => none
  | .resultReturn _ _ => none
  | .waitConditionMet _ _ => none
  | .waitExpire _ _ => none
  | .accessPerform _ _ _ => none
  | .fenceComplete _ _ => none
  | .remoteAccessFail _ _ => none
  | .jpostAccept _ _ _ => none
  | .chainCardAccept _ _ _ => none
  | .cardStart _ _ => none
  | .loopIterationStart _ _ => none
  | .cardLineWritten _ _ _ => none
  | .cardChunkDone _ _ _ => none
  | .cardComplete _ _ => none
  | .mmaComplete _ _ => none
  | .astoComplete _ _ => none
  | .aldrComplete _ _ => none
  | .amovvReadout _ _ => none
  | .bsyncRelease _ _ _ => none
  | .barrRelease _ _ _ => none
  | .bcastArrive _ _ => none
  | .reservationGrant _ _ => none
  | .msendComplete _ _ => none
  | .messageMatch _ _ => none
  | .pieceLand _ _ => none
  | .activeMessageDeliver _ _ => none
  | .mcastMemberTimeout _ _ _ _ => none
  | .hostDoorbell _ _ _ => none
  | .launchAccept _ => none
  | .blockAdmit _ _ => none
  | .stageBlockDispatch _ _ _ => none
  | .coreReassign _ _ => none
  | .launchComplete _ _ => none
  | .launchKill _ _ => none
  | .sliceExpire _ => none
  | .preemptSignal _ _ => none
  | .forcedStop _ _ => none
  | .contextIdleExchange _ => none
  | .contextExchange _ => none
  | .contextCreate _ => none
  | .fetchFaultSwap _ _ => none
  | .blockSwapIn _ _ _ => none
  | .pageMigration _ _ _ _ _ => none
  | .tlbShootdown _ _ => none
  | .errorCorrected _ => none
  | .japWrite _ => none
  | .nfeatWrite _ => none
  | .functionReady _ => none
  | .portDead _ => none
  | .portRetrain _ => none
  | .fatalFaultRecovery _ => none
  | .fsvRaise _ => none
  | .reset => none
  | .powerLoss => none
  | .supplyDroop _ _ => none
  | .contextEnd _ => none
  | .tenantRotation _ _ => none
  | .demandPaging _ _ _ => none
  | .uncorrectableError _ => none
  | .attestationRequest _ => none
  | .landfaultEntryFree _ _ => none

/-- The bits of a register field. -/
def Fld.bits (f : Fld) : Nat :=
  match f with
  | .A => 0xFF00000000
  | .B => 0xFF000000
  | .C => 0xFF0000
  | .D => 0xFF0000000000

/-- The W bit of a field in a format, 0 when it has none (R83, R90). -/
def Fld.wBit (f : Fld) (fmt : Fmt5) : Nat :=
  match fmt, f with
  | .rrr, .A => 0x800
  | .rrr, .B => 0x400
  | .rrr, .C => 0x200
  | .ri, .A => 0x800
  | .mf, .A => 0x800
  | .mf, .B => 0x400
  | .mf, .D => 0x200
  | _, _ => 0

/-- The bits an operand uses: its field, and its W bit when it is a vector or uniform source (R85). -/
def Opnd.bits (o : Opnd) (fmt : Fmt5) : Nat :=
  o.fld.bits ||| (if o.src && (o.cls = .vec || o.cls = .uni) then o.fld.wBit fmt else 0)

/-- The bits of X in a format. -/
def Fmt5.xBits (f : Fmt5) : Nat :=
  match f with
  | .bf => 0xFF
  | .i32 => 0xFF
  | .event => 0
  | _ => 0x1FF

/-- Every bit of the word that a form uses, header included; bits 50:48 are never used (R81, R85). -/
def Form.mask (f : Form) : Nat :=
  f.ops.foldl (fun acc o => acc ||| o.bits f.fmt)
    (0xFFF8000000000000 ||| f.fmt.xBits ||| f.lit ||| (if f.slot then 0xF000 else 0))

/-- The bits that some member or modifier of an opcode uses, for the opcodes whose members use different fields (R85,
R97 position 2). -/
def unionMask (opc : Nat) : Option Nat :=
  match opc with
  | 0x0A => some 0xFFF800FF00FF09FF
  | 0x0D => some 0xFFF800FFFFFF09FF
  | 0x1E => some 0xFFF8FFFFFF000DFF
  | 0x2B => some 0xFFF8FFFFFFFF0FFF
  | 0x30 => some 0xFFF8FFFFFFFF09FF
  | 0x31 => some 0xFFF8FFFFFFFF09FF
  | 0x33 => some 0xFFF8FFFFFFFF09FF
  | 0x36 => some 0xFFF8FFFFFFFFFFFF
  | 0x46 => some 0xFFF8FFFFFF00FDFF
  | 0x4F => some 0xFFF8FFFFFF00FDFF
  | 0x58 => some 0xFFF8FFFFFFFFFFFF
  | 0x69 => some 0xFFF8FFFF000009FF
  | 0x6D => some 0xFFF8FFFF0000F9FF
  | 0x70 => some 0xFFF8FFFFFFFF0DFF
  | 0x71 => some 0xFFF8FFFFFFFF0DFF
  | 0x72 => some 0xFFF8FFFFFFFFFDFF
  | 0x73 => some 0xFFF8FFFFFFFF0DFF
  | 0x74 => some 0xFFF8FFFFFFFF0DFF
  | 0x76 => some 0xFFF8FFFFFFFF0DFF
  | 0x77 => some 0xFFF8FFFFFFFF0DFF
  | 0x78 => some 0xFFF800FFFFFF0DFF
  | 0x80 => some 0xFFF8FFFFFFFF0FFF
  | 0x81 => some 0xFFF8FFFFFFFF0FFF
  | 0x82 => some 0xFFF8FFFFFFFFFFFF
  | 0x83 => some 0xFFF8FFFFFFFF0FFF
  | 0x84 => some 0xFFF8FFFFFFFF0FFF
  | 0x86 => some 0xFFF8FFFFFFFF0FFF
  | 0x87 => some 0xFFF8FFFFFFFF0FFF
  | 0x94 => some 0xFFF8FF00000001FF
  | 0xA1 => some 0xFFF800FFFFFF0FFF
  | 0xA4 => some 0xFFF8FFFFFFFF0DFF
  | 0xB0 => some 0xFFF8FFFFFFFFF3FF
  | 0xB1 => some 0xFFF8FFFFFFFFF3FF
  | _ => none

end Sys2Proof.Machine
end

