-- ==== Sys2Proof/WellFormed.lean ====
section
/-! DEFINITION. Well-formed instructions: an X value with a meaning (R95) and every unused field zero (R85). -/

namespace Sys2Proof

/-- The bits of a body's fields as they stand in the word (R83), with the guard and without the opcode. -/
def RRR.bits (r : RRR) : Nat :=
  r.pg.toNat * 2 ^ 52 + r.pn.toNat * 2 ^ 51 + r.d.toNat * 2 ^ 40 + r.a.toNat * 2 ^ 32 + r.b.toNat * 2 ^ 24 +
    r.c.toNat * 2 ^ 16 + r.f.toNat * 2 ^ 12 + r.wa.toNat * 2 ^ 11 + r.wb.toNat * 2 ^ 10 + r.wc.toNat * 2 ^ 9 + r.x.toNat

/-- As for RRR. -/
def RI.bits (r : RI) : Nat :=
  r.pg.toNat * 2 ^ 52 + r.pn.toNat * 2 ^ 51 + r.d.toNat * 2 ^ 40 + r.a.toNat * 2 ^ 32 + r.imm.toNat * 2 ^ 16 +
    r.f.toNat * 2 ^ 12 + r.wa.toNat * 2 ^ 11 + r.x.toNat

/-- As for RRR. -/
def MF.bits (r : MF) : Nat :=
  r.pg.toNat * 2 ^ 52 + r.pn.toNat * 2 ^ 51 + r.d.toNat * 2 ^ 40 + r.a.toNat * 2 ^ 32 + r.b.toNat * 2 ^ 24 +
    r.off.toNat * 2 ^ 16 + r.f.toNat * 2 ^ 12 + r.wa.toNat * 2 ^ 11 + r.wb.toNat * 2 ^ 10 + r.wd.toNat * 2 ^ 9 + r.x.toNat

/-- As for RRR. -/
def BF.bits (r : BF) : Nat :=
  r.pg.toNat * 2 ^ 52 + r.pn.toNat * 2 ^ 51 + r.off.toNat * 2 ^ 16 + r.tpri.toNat * 2 ^ 8 + r.x.toNat

/-- As for RRR. -/
def I32.bits (r : I32) : Nat :=
  r.pg.toNat * 2 ^ 52 + r.pn.toNat * 2 ^ 51 + r.d.toNat * 2 ^ 40 + r.imm.toNat * 2 ^ 8 + r.x.toNat

/-- The body bits of an instruction; an event has none. -/
def Instr.bodyBits (i : Instr) : Nat :=
  match i with
  | .nop r => r.bits
  | .bra r => r.bits
  | .bruAny r => r.bits
  | .bruAll r => r.bits
  | .brx r => r.bits
  | .call r => r.bits
  | .callx r => r.bits
  | .ret r => r.bits
  | .exit r => r.bits
  | .wjoin r => r.bits
  | .yield r => r.bits
  | .prioImm r => r.bits
  | .prioReg r => r.bits
  | .trap r => r.bits
  | .bkpt r => r.bits
  | .napImm r => r.bits
  | .napReg r => r.bits
  | .sadd r => r.bits
  | .ssub r => r.bits
  | .smul r => r.bits
  | .smulh r => r.bits
  | .sand r => r.bits
  | .sor r => r.bits
  | .sxor r => r.bits
  | .sshl r => r.bits
  | .sshr r => r.bits
  | .ssra r => r.bits
  | .smin r => r.bits
  | .smax r => r.bits
  | .saddi r => r.bits
  | .sldi r => r.bits
  | .sldhi r => r.bits
  | .scmp r => r.bits
  | .ssel r => r.bits
  | .sget r => r.bits
  | .sgetFirst r => r.bits
  | .vbc r => r.bits
  | .iadd r => r.bits
  | .isub r => r.bits
  | .imul r => r.bits
  | .imulh r => r.bits
  | .imad r => r.bits
  | .iand r => r.bits
  | .ior r => r.bits
  | .ixor r => r.bits
  | .ishl r => r.bits
  | .ishr r => r.bits
  | .isra r => r.bits
  | .imin r => r.bits
  | .imax r => r.bits
  | .icmp r => r.bits
  | .isel r => r.bits
  | .iselM r => r.bits
  | .ipopc r => r.bits
  | .iclz r => r.bits
  | .ibfe r => r.bits
  | .ibfi r => r.bits
  | .lea r => r.bits
  | .iaddi r => r.bits
  | .iandi r => r.bits
  | .iori r => r.bits
  | .ixori r => r.bits
  | .ishli r => r.bits
  | .ishri r => r.bits
  | .icmpi r => r.bits
  | .icmpm r => r.bits
  | .mov r => r.bits
  | .movi r => r.bits
  | .moviHi r => r.bits
  | .fadd r => r.bits
  | .fsub r => r.bits
  | .fmul r => r.bits
  | .ffma r => r.bits
  | .fmin r => r.bits
  | .fmax r => r.bits
  | .fabsn r => r.bits
  | .fcmp r => r.bits
  | .fclass r => r.bits
  | .fdiv r => r.bits
  | .fsqrt r => r.bits
  | .frcp r => r.bits
  | .frsq r => r.bits
  | .fexp2 r => r.bits
  | .flog2 r => r.bits
  | .fsum r => r.bits
  | .faddi r => r.bits
  | .fmuli r => r.bits
  | .ffmai r => r.bits
  | .fcvt r => r.bits
  | .ftoi r => r.bits
  | .itof r => r.bits
  | .fpack r => r.bits
  | .fbscl r => r.bits
  | .fdot r => r.bits
  | .frnd r => r.bits
  | .fscale r => r.bits
  | .shfl r => r.bits
  | .shflx r => r.bits
  | .shflud r => r.bits
  | .vote r => r.bits
  | .matchEq r => r.bits
  | .mrank r => r.bits
  | .mlead r => r.bits
  | .elect r => r.bits
  | .plog r => r.bits
  | .pmov r => r.bits
  | .pmovSet r => r.bits
  | .pbal r => r.bits
  | .redux r => r.bits
  | .fredx r => r.bits
  | .scan r => r.bits
  | .scanFadd r => r.bits
  | .ld r => r.bits
  | .ld2 r => r.bits
  | .ldp r => r.bits
  | .lds r => r.bits
  | .ldv r => r.bits
  | .ldu r => r.bits
  | .ldacq r => r.bits
  | .ldpv r => r.bits
  | .pfetch r => r.bits
  | .ldg r => r.bits
  | .st r => r.bits
  | .st2 r => r.bits
  | .stp r => r.bits
  | .sts r => r.bits
  | .stv r => r.bits
  | .stu r => r.bits
  | .strel r => r.bits
  | .stpv r => r.bits
  | .mst r => r.bits
  | .msto r => r.bits
  | .stsc r => r.bits
  | .atom r => r.bits
  | .acas r => r.bits
  | .atoms r => r.bits
  | .fatom r => r.bits
  | .fence r => r.bits
  | .atomv r => r.bits
  | .jpost r => r.bits
  | .chsetRing r => r.bits
  | .chsetChain r => r.bits
  | .twait r => r.bits
  | .sqwait r => r.bits
  | .presq r => r.bits
  | .sinv r => r.bits
  | .sinvSet r => r.bits
  | .tdesc r => r.bits
  | .tmod r => r.bits
  | .jcancel r => r.bits
  | .qpush r => r.bits
  | .mma r => r.bits
  | .mmaCo r => r.bits
  | .mmas r => r.bits
  | .mmasCo r => r.bits
  | .azero r => r.bits
  | .arel r => r.bits
  | .asto r => r.bits
  | .aldr r => r.bits
  | .amovv r => r.bits
  | .aqry r => r.bits
  | .bsync r => r.bits
  | .barr r => r.bits
  | .bcast r => r.bits
  | .brecv r => r.bits
  | .msend r => r.bits
  | .mpost r => r.bits
  | .mtest r => r.bits
  | .mprobe r => r.bits
  | .mcancel r => r.bits
  | .asend r => r.bits
  | .gen r => r.bits
  | .yld r => r.bits
  | .gdone r => r.bits
  | .gtake r => r.bits
  | .gtakeLn r => r.bits
  | .gnext r => r.bits
  | .launch r => r.bits
  | .fdrw r => r.bits
  | .fdrr r => r.bits
  | .csrr r => r.bits
  | .csrwCtx r => r.bits
  | .csrwFairt r => r.bits
  | .csrwFairq r => r.bits
  | .csrwWdog r => r.bits
  | .csrwGencfg r => r.bits
  | .csrwFres r => r.bits
  | .csrw r => r.bits
  | .sreg r => r.bits
  | .rgrow r => r.bits
  | .rshrk r => r.bits
  | .pdone r => r.bits
  | .eret r => r.bits
  | .eretNext r => r.bits
  | .fwcallCapability r => r.bits
  | .fwcallJournal r => r.bits
  | .fwcallVersion r => r.bits
  | .hadd r => r.bits
  | .hmul r => r.bits
  | .hfma r => r.bits
  | .bhadd r => r.bits
  | .bhmul r => r.bits
  | .bhfma r => r.bits
  | .barw r => r.bits
  | .ldtex r => r.bits
  | .unassignedOpcode _ => 0
  | .fairnessGrant _ _ => 0
  | .grantEnd _ _ => 0
  | .spinWatchdog => 0
  | .wjoinExpire _ _ _ => 0
  | .rgrowGrant _ _ => 0
  | .napEnd _ _ => 0
  | .resultReturn _ _ => 0
  | .waitConditionMet _ _ => 0
  | .waitExpire _ _ => 0
  | .accessPerform _ _ _ => 0
  | .fenceComplete _ _ => 0
  | .remoteAccessFail _ _ => 0
  | .jpostAccept _ _ _ => 0
  | .chainCardAccept _ _ _ => 0
  | .cardStart _ _ => 0
  | .loopIterationStart _ _ => 0
  | .cardLineWritten _ _ _ => 0
  | .cardChunkDone _ _ _ => 0
  | .cardComplete _ _ => 0
  | .mmaComplete _ _ => 0
  | .astoComplete _ _ => 0
  | .aldrComplete _ _ => 0
  | .amovvReadout _ _ => 0
  | .bsyncRelease _ _ _ => 0
  | .barrRelease _ _ _ => 0
  | .bcastArrive _ _ => 0
  | .reservationGrant _ _ => 0
  | .msendComplete _ _ => 0
  | .messageMatch _ _ => 0
  | .pieceLand _ _ => 0
  | .activeMessageDeliver _ _ => 0
  | .mcastMemberTimeout _ _ _ _ => 0
  | .hostDoorbell _ _ _ => 0
  | .launchAccept _ => 0
  | .blockAdmit _ _ => 0
  | .stageBlockDispatch _ _ _ => 0
  | .coreReassign _ _ => 0
  | .launchComplete _ _ => 0
  | .launchKill _ _ => 0
  | .sliceExpire _ => 0
  | .preemptSignal _ _ => 0
  | .forcedStop _ _ => 0
  | .contextIdleExchange _ => 0
  | .contextExchange _ => 0
  | .contextCreate _ => 0
  | .fetchFaultSwap _ _ => 0
  | .blockSwapIn _ _ _ => 0
  | .pageMigration _ _ _ _ _ => 0
  | .tlbShootdown _ _ => 0
  | .errorCorrected _ => 0
  | .japWrite _ => 0
  | .nfeatWrite _ => 0
  | .functionReady _ => 0
  | .portDead _ => 0
  | .portRetrain _ => 0
  | .fatalFaultRecovery _ => 0
  | .fsvRaise _ => 0
  | .reset => 0
  | .powerLoss => 0
  | .supplyDroop _ _ => 0
  | .contextEnd _ => 0
  | .tenantRotation _ _ => 0
  | .demandPaging _ _ _ => 0
  | .uncorrectableError _ => 0
  | .attestationRequest _ => 0
  | .landfaultEntryFree _ _ => 0

/-- Bits with place values are well placed: no bit of a word stands outside a mask. -/
def within (n mask : Nat) : Bool := n &&& mask = n

/-- An instruction that the manual gives: its opcode is in the map, its X selects it, and every field it does not use
is zero. -/
def Instr.wellFormed (i : Instr) : Bool :=
  (Machine.opcodeOf i).isSome && Machine.xLegal i && within i.bodyBits (Machine.formOf i).mask

end Sys2Proof
end

