-- ==== Sys2Proof/Decode.lean ====
section
/-! DEFINITION. Decoding, total on any bytes and any word, with the reasons of R96 in the order of R97; and the
encoder. -/

namespace Sys2Proof

open Machine

/-- Why a word is not an instruction (R96). Unassigned and reserved opcodes are instructions that trap
(UNASSIGNED_OPCODE), not reasons. -/
inductive BadWord where
  | rsvdBits
  | illegalX
  deriving DecidableEq, Repr

/-- Bits hi down to lo of a word. -/
def field (n hi lo : Nat) : Nat := (n >>> lo) % 2 ^ (hi + 1 - lo)

/-- The RRR body of a word (R83). -/
def rrrOf (n : Nat) : RRR :=
  { pg := BitVec.ofNat _ (field n 55 52), pn := field n 51 51 = 1, d := BitVec.ofNat _ (field n 47 40), a := BitVec.ofNat _ (field n 39 32), b := BitVec.ofNat _ (field n 31 24),
    c := BitVec.ofNat _ (field n 23 16), f := BitVec.ofNat _ (field n 15 12), wa := field n 11 11 = 1, wb := field n 10 10 = 1, wc := field n 9 9 = 1, x := BitVec.ofNat _ (field n 8 0) }

/-- The RI body of a word (R83). -/
def riOf (n : Nat) : RI :=
  { pg := BitVec.ofNat _ (field n 55 52), pn := field n 51 51 = 1, d := BitVec.ofNat _ (field n 47 40), a := BitVec.ofNat _ (field n 39 32), imm := BitVec.ofNat _ (field n 31 16),
    f := BitVec.ofNat _ (field n 15 12), wa := field n 11 11 = 1, x := BitVec.ofNat _ (field n 8 0) }

/-- The M body of a word (R83). -/
def mfOf (n : Nat) : MF :=
  { pg := BitVec.ofNat _ (field n 55 52), pn := field n 51 51 = 1, d := BitVec.ofNat _ (field n 47 40), a := BitVec.ofNat _ (field n 39 32), b := BitVec.ofNat _ (field n 31 24),
    off := BitVec.ofNat _ (field n 23 16), f := BitVec.ofNat _ (field n 15 12), wa := field n 11 11 = 1, wb := field n 10 10 = 1, wd := field n 9 9 = 1, x := BitVec.ofNat _ (field n 8 0) }

/-- The B body of a word (R83). -/
def bfOf (n : Nat) : BF :=
  { pg := BitVec.ofNat _ (field n 55 52), pn := field n 51 51 = 1, off := BitVec.ofNat _ (field n 47 16), tpri := BitVec.ofNat _ (field n 15 8), x := BitVec.ofNat _ (field n 7 0) }

/-- The I32 body of a word (R83). -/
def i32Of (n : Nat) : I32 :=
  { pg := BitVec.ofNat _ (field n 55 52), pn := field n 51 51 = 1, d := BitVec.ofNat _ (field n 47 40), imm := BitVec.ofNat _ (field n 39 8), x := BitVec.ofNat _ (field n 7 0) }

/-- The members of an opcode read from a word, in the order of the map (R94); none for an unassigned or reserved
opcode. -/
def members (opc n : Nat) : Option (List Instr) :=
  match opc with
  | 0x00 => some [.nop (rrrOf n)]
  | 0x01 => some [.bra (bfOf n)]
  | 0x02 => some [.bruAny (bfOf n), .bruAll (bfOf n)]
  | 0x03 => some [.brx (riOf n)]
  | 0x04 => some [.call (bfOf n)]
  | 0x05 => some [.callx (riOf n)]
  | 0x06 => some [.ret (rrrOf n)]
  | 0x07 => some [.exit (rrrOf n)]
  | 0x08 => some [.wjoin (riOf n)]
  | 0x09 => some [.yield (rrrOf n)]
  | 0x0A => some [.prioImm (riOf n), .prioReg (riOf n)]
  | 0x0B => some [.trap (i32Of n)]
  | 0x0C => some [.bkpt (i32Of n)]
  | 0x0D => some [.napImm (riOf n), .napReg (riOf n)]
  | 0x10 => some [.sadd (rrrOf n)]
  | 0x11 => some [.ssub (rrrOf n)]
  | 0x12 => some [.smul (rrrOf n)]
  | 0x13 => some [.smulh (rrrOf n)]
  | 0x14 => some [.sand (rrrOf n)]
  | 0x15 => some [.sor (rrrOf n)]
  | 0x16 => some [.sxor (rrrOf n)]
  | 0x17 => some [.sshl (rrrOf n), .sshr (rrrOf n), .ssra (rrrOf n)]
  | 0x18 => some [.smin (rrrOf n), .smax (rrrOf n)]
  | 0x19 => some [.saddi (riOf n)]
  | 0x1A => some [.sldi (i32Of n)]
  | 0x1B => some [.sldhi (i32Of n)]
  | 0x1C => some [.scmp (rrrOf n)]
  | 0x1D => some [.ssel (rrrOf n)]
  | 0x1E => some [.sget (rrrOf n), .sgetFirst (rrrOf n)]
  | 0x1F => some [.vbc (rrrOf n)]
  | 0x20 => some [.iadd (rrrOf n)]
  | 0x21 => some [.isub (rrrOf n)]
  | 0x22 => some [.imul (rrrOf n)]
  | 0x23 => some [.imulh (rrrOf n)]
  | 0x24 => some [.imad (rrrOf n)]
  | 0x25 => some [.iand (rrrOf n)]
  | 0x26 => some [.ior (rrrOf n)]
  | 0x27 => some [.ixor (rrrOf n)]
  | 0x28 => some [.ishl (rrrOf n), .ishr (rrrOf n), .isra (rrrOf n)]
  | 0x29 => some [.imin (rrrOf n), .imax (rrrOf n)]
  | 0x2A => some [.icmp (rrrOf n)]
  | 0x2B => some [.isel (rrrOf n), .iselM (rrrOf n)]
  | 0x2C => some [.ipopc (rrrOf n), .iclz (rrrOf n)]
  | 0x2D => some [.ibfe (rrrOf n)]
  | 0x2E => some [.ibfi (rrrOf n)]
  | 0x2F => some [.lea (rrrOf n)]
  | 0x30 => some [.iaddi (riOf n)]
  | 0x31 => some [.iandi (riOf n), .iori (riOf n), .ixori (riOf n)]
  | 0x32 => some [.ishli (riOf n), .ishri (riOf n)]
  | 0x33 => some [.icmpi (riOf n)]
  | 0x34 => some [.icmpm (rrrOf n)]
  | 0x35 => some [.mov (rrrOf n)]
  | 0x36 => some [.movi (i32Of n), .moviHi (i32Of n)]
  | 0x40 => some [.fadd (rrrOf n)]
  | 0x41 => some [.fsub (rrrOf n)]
  | 0x42 => some [.fmul (rrrOf n)]
  | 0x43 => some [.ffma (rrrOf n)]
  | 0x44 => some [.fmin (rrrOf n)]
  | 0x45 => some [.fmax (rrrOf n)]
  | 0x46 => some [.fabsn (rrrOf n)]
  | 0x47 => some [.fcmp (rrrOf n)]
  | 0x48 => some [.fclass (rrrOf n)]
  | 0x49 => some [.fdiv (rrrOf n)]
  | 0x4A => some [.fsqrt (rrrOf n)]
  | 0x4B => some [.frcp (rrrOf n)]
  | 0x4C => some [.frsq (rrrOf n)]
  | 0x4D => some [.fexp2 (rrrOf n)]
  | 0x4E => some [.flog2 (rrrOf n)]
  | 0x4F => some [.fsum (rrrOf n)]
  | 0x50 => some [.faddi (riOf n)]
  | 0x51 => some [.fmuli (riOf n)]
  | 0x52 => some [.ffmai (riOf n)]
  | 0x53 => some [.fcvt (rrrOf n)]
  | 0x54 => some [.ftoi (rrrOf n)]
  | 0x55 => some [.itof (rrrOf n)]
  | 0x56 => some [.fpack (rrrOf n)]
  | 0x57 => some [.fbscl (rrrOf n)]
  | 0x58 => some [.fdot (rrrOf n)]
  | 0x59 => some [.frnd (rrrOf n)]
  | 0x5A => some [.fscale (rrrOf n)]
  | 0x60 => some [.shfl (rrrOf n)]
  | 0x61 => some [.shflx (rrrOf n)]
  | 0x62 => some [.shflud (rrrOf n)]
  | 0x63 => some [.vote (rrrOf n)]
  | 0x64 => some [.matchEq (rrrOf n)]
  | 0x65 => some [.mrank (rrrOf n)]
  | 0x66 => some [.mlead (rrrOf n)]
  | 0x67 => some [.elect (rrrOf n)]
  | 0x68 => some [.plog (rrrOf n)]
  | 0x69 => some [.pmov (rrrOf n), .pmovSet (rrrOf n)]
  | 0x6A => some [.pbal (rrrOf n)]
  | 0x6B => some [.redux (rrrOf n)]
  | 0x6C => some [.fredx (rrrOf n)]
  | 0x6D => some [.scan (rrrOf n), .scanFadd (rrrOf n)]
  | 0x70 => some [.ld (mfOf n)]
  | 0x71 => some [.ld2 (mfOf n)]
  | 0x72 => some [.ldp (mfOf n)]
  | 0x73 => some [.lds (mfOf n)]
  | 0x74 => some [.ldv (mfOf n)]
  | 0x75 => some [.ldu (mfOf n)]
  | 0x76 => some [.ldacq (mfOf n)]
  | 0x77 => some [.ldpv (mfOf n)]
  | 0x78 => some [.pfetch (mfOf n)]
  | 0x79 => some [.ldg (mfOf n)]
  | 0x80 => some [.st (mfOf n)]
  | 0x81 => some [.st2 (mfOf n)]
  | 0x82 => some [.stp (mfOf n)]
  | 0x83 => some [.sts (mfOf n)]
  | 0x84 => some [.stv (mfOf n)]
  | 0x85 => some [.stu (mfOf n)]
  | 0x86 => some [.strel (mfOf n)]
  | 0x87 => some [.stpv (mfOf n)]
  | 0x88 => some [.mst (mfOf n)]
  | 0x89 => some [.msto (mfOf n)]
  | 0x8A => some [.stsc (mfOf n)]
  | 0x90 => some [.atom (mfOf n)]
  | 0x91 => some [.acas (mfOf n)]
  | 0x92 => some [.atoms (mfOf n)]
  | 0x93 => some [.fatom (mfOf n)]
  | 0x94 => some [.fence (rrrOf n)]
  | 0x95 => some [.atomv (mfOf n)]
  | 0xA0 => some [.jpost (rrrOf n)]
  | 0xA1 => some [.chsetRing (rrrOf n), .chsetChain (rrrOf n)]
  | 0xA2 => some [.twait (riOf n)]
  | 0xA3 => some [.sqwait (riOf n)]
  | 0xA4 => some [.presq (mfOf n)]
  | 0xA5 => some [.sinv (mfOf n), .sinvSet (mfOf n)]
  | 0xA6 => some [.tdesc (rrrOf n)]
  | 0xA7 => some [.tmod (rrrOf n)]
  | 0xA8 => some [.jcancel (rrrOf n)]
  | 0xA9 => some [.qpush (rrrOf n)]
  | 0xB0 => some [.mma (rrrOf n), .mmaCo (rrrOf n)]
  | 0xB1 => some [.mmas (rrrOf n), .mmasCo (rrrOf n)]
  | 0xB2 => some [.azero (rrrOf n)]
  | 0xB3 => some [.arel (rrrOf n)]
  | 0xB4 => some [.asto (rrrOf n)]
  | 0xB5 => some [.aldr (rrrOf n)]
  | 0xB6 => some [.amovv (rrrOf n)]
  | 0xB7 => some [.aqry (rrrOf n)]
  | 0xC0 => some [.bsync (riOf n)]
  | 0xC1 => some [.barr (riOf n)]
  | 0xC2 => some [.bcast (rrrOf n)]
  | 0xC3 => some [.brecv (rrrOf n)]
  | 0xC4 => some [.msend (rrrOf n)]
  | 0xC5 => some [.mpost (rrrOf n)]
  | 0xC6 => some [.mtest (rrrOf n)]
  | 0xC7 => some [.mprobe (rrrOf n)]
  | 0xC8 => some [.mcancel (rrrOf n)]
  | 0xC9 => some [.asend (rrrOf n)]
  | 0xCA => some [.gen (bfOf n)]
  | 0xCB => some [.yld (rrrOf n)]
  | 0xCC => some [.gdone (rrrOf n)]
  | 0xCD => some [.gtake (rrrOf n), .gtakeLn (rrrOf n)]
  | 0xCE => some [.gnext (rrrOf n)]
  | 0xCF => some [.launch (rrrOf n)]
  | 0xD0 => some [.fdrw (rrrOf n)]
  | 0xD1 => some [.fdrr (rrrOf n)]
  | 0xD2 => some [.csrr (riOf n)]
  | 0xD3 => some [.csrwCtx (riOf n), .csrwFairt (riOf n), .csrwFairq (riOf n), .csrwWdog (riOf n), .csrwGencfg (riOf n), .csrwFres (riOf n), .csrw (riOf n)]
  | 0xD4 => some [.sreg (riOf n)]
  | 0xD5 => some [.rgrow (riOf n)]
  | 0xD6 => some [.rshrk (riOf n)]
  | 0xD7 => some [.pdone (rrrOf n)]
  | 0xD8 => some [.eret (rrrOf n), .eretNext (rrrOf n)]
  | 0xD9 => some [.fwcallCapability (i32Of n), .fwcallJournal (i32Of n), .fwcallVersion (i32Of n)]
  | 0xF0 => some [.hadd (rrrOf n)]
  | 0xF1 => some [.hmul (rrrOf n)]
  | 0xF2 => some [.hfma (rrrOf n)]
  | 0xF3 => some [.bhadd (rrrOf n)]
  | 0xF4 => some [.bhmul (rrrOf n)]
  | 0xF5 => some [.bhfma (rrrOf n)]
  | 0xF6 => some [.barw (rrrOf n)]
  | 0xF7 => some [.ldtex (rrrOf n)]
  | _ => none

/-- The retired opcodes (R99). -/
def retired (opc : Nat) : Bool := 0xF0 ≤ opc && opc ≤ 0xF7

/-- The bits that the members of an opcode may use (R97 position 2). -/
def opcodeMask (opc : Nat) (ms : List Instr) : Nat :=
  match unionMask opc with
  | some m => m
  | none => ms.foldl (fun acc i => acc ||| (formOf i).mask) 0

/-- The instruction of a 64-bit word, or why it is none, in the order of R97: reserved bits that no member uses, X, then
the bits that the member leaves unused. A retired opcode comes first of all (R97 position 1); one with header bits
50:48 set is illegal under T5 rules and is delivered as ILLEGAL_OPC (R101; log entry 11). -/
def decodeWord (w : Word) : Except BadWord Instr :=
  let n := w.toNat
  let opc := field n 63 56
  match members opc n with
  | none => .ok (.unassignedOpcode w)
  | some ms =>
    if retired opc && field n 50 48 ≠ 0 then .ok (.unassignedOpcode w)
    else if !within n (opcodeMask opc ms) then .error .rsvdBits
    else match ms.find? xLegal with
      | none => .error .illegalX
      | some i => if within n (formOf i).mask then .ok i else .error .rsvdBits

/-- Eight bytes as a little-endian word (R3, R81), with the rest of the list. -/
def takeWord (bytes : List Byte) : Option (Word × List Byte) :=
  match bytes with
  | b0 :: b1 :: b2 :: b3 :: b4 :: b5 :: b6 :: b7 :: rest => some (b7 ++ b6 ++ b5 ++ b4 ++ b3 ++ b2 ++ b1 ++ b0, rest)
  | _ => none

/-- Decoding from bytes: the instruction and the rest, or none where there are too few bytes or the word is no
instruction. -/
def decodeBytes (bytes : List Byte) : Option (Instr × List Byte) :=
  match takeWord bytes with
  | none => none
  | some (w, rest) =>
    match decodeWord w with
    | .ok i => some (i, rest)
    | .error _ => none

/-- The bytes of a word at rising addresses (R3, R81). -/
def wordBytes (w : Word) : List Byte := (List.range 8).map (fun k => w.extractLsb' (8 * k) 8)

/-- The words of an instruction: its opcode over its body (R81, R83); none for an event. -/
def encode (i : Instr) : Option Word :=
  match i with
  | .unassignedOpcode w => some w
  | _ =>
    match opcodeOf i with
    | some opc => some (BitVec.ofNat 64 (opc * 2 ^ 56 + i.bodyBits))
    | none => none

/-- The instruction's word, 0 for an event. -/
def wordOf (i : Instr) : Word := (encode i).getD 0

/-- What the decoder reads from an instruction whose bits are w, numbered as the opcode table numbers them. -/
def decodeTableWord (_nbits w : Nat) : Option Instr :=
  (decodeBytes (wordBytes (BitVec.ofNat 64 w))).map Prod.fst

end Sys2Proof
end

