-- ==== Sys2Proof/Machine/Numbers.lean ====
section
/-! DEFINITION. Format slots, the value of a code, exact arithmetic, rounding and Encode (R55 to R76). -/

namespace Sys2Proof.Machine

/-- Bits hi down to lo of a natural number (R2). -/
def natBits (n hi lo : Nat) : Nat := (n >>> lo) % 2 ^ (hi + 1 - lo)

/-- A format definition register read as its fields (R55). -/
structure Fmt where
  val : Bool
  sgn : Nat
  ew : Nat
  mw : Nat
  bias : Int
  sub : Nat
  inf : Nat
  nan : Nat
  rnd : Nat
  sat : Bool
  inv : Nat
  blk : Nat
  low : Nat
  deriving DecidableEq, Repr

/-- The fields of a definition word (R55). -/
def Fmt.ofWord (w : Word) : Fmt :=
  let n := w.toNat
  let b := natBits n 51 40
  { val := n.testBit 63
    sgn := natBits n 62 62
    ew := natBits n 61 58
    mw := natBits n 57 52
    bias := if b < 2048 then (b : Int) else (b : Int) - 4096
    sub := natBits n 39 38
    inf := natBits n 37 36
    nan := natBits n 35 34
    rnd := natBits n 33 31
    sat := n.testBit 30
    inv := natBits n 29 28
    blk := natBits n 27 26
    low := natBits n 25 0 }

/-- w = SGN + EW + MW (R7). -/
def Fmt.width (f : Fmt) : Nat := f.sgn + f.ew + f.mw
/-- n = floor(64 / w) (R59). -/
def Fmt.elems (f : Fmt) : Nat := 64 / f.width
/-- Block-scaled (R70). -/
def Fmt.isBlk (f : Fmt) : Bool := f.blk = 1

/-- The conditions of R56 on a definition with VAL = 1. -/
def Fmt.accepts (f : Fmt) : Bool :=
  (f.low = 0 && f.ew ≤ 11 && f.mw ≤ 52) &&
  (1 ≤ f.width && f.width ≤ 64) &&
  (f.sub ≠ 3 && f.inf ≤ 1 && f.rnd ≤ 5 && f.inv ≠ 3 && f.blk ≤ 1) &&
  ((f.inf = 1) == (f.nan = 1)) && (f.inf ≠ 1 || (1 ≤ f.ew && 1 ≤ f.mw)) &&
  (f.nan ≠ 2 || 1 ≤ f.ew) && (f.nan ≠ 3 || (f.sgn = 1 && 1 ≤ f.ew)) &&
  (f.ew ≠ 0 || (f.sub = 0 && f.inf = 0 && f.nan = 0)) &&
  (f.blk ≠ 1 || (1 ≤ f.ew && f.width ≤ 8))

/-- The layout of IEEE 754 binary32, that of a block header's fields (R70). -/
def Fmt.binary32 : Fmt :=
  { val := true, sgn := 1, ew := 8, mw := 23, bias := 127, sub := 0, inf := 1, nan := 1, rnd := 0, sat := false,
    inv := 0, blk := 0, low := 0 }

/-- A non-negative exact magnitude: num / den, or its square root (R147). -/
structure Mag where
  num : Nat
  den : Nat
  root : Bool
  deriving DecidableEq, Repr

/-- An exact value or special value (R61, R64); a finite value carries its sign even when it is zero. -/
inductive Val where
  | nan
  | inf (neg : Bool)
  | fin (neg : Bool) (m : Mag)
  deriving DecidableEq, Repr

/-- The finite value with magnitude n × 2^e. -/
def Val.dyadic (neg : Bool) (n : Nat) (e : Int) : Val :=
  .fin neg (if 0 ≤ e then ⟨n * 2 ^ e.toNat, 1, false⟩ else ⟨n, 2 ^ (-e).toNat, false⟩)

/-- Zero of a sign. -/
def Val.zero (neg : Bool) : Val := .fin neg ⟨0, 1, false⟩
/-- The value of an integer. -/
def Val.ofInt (i : Int) : Val := .fin (i < 0) ⟨i.natAbs, 1, false⟩
/-- The sign a value carries; a NaN carries none. -/
def Val.neg : Val → Bool
  | .nan => false
  | .inf s => s
  | .fin s _ => s
/-- The value is a NaN. -/
def Val.isNan : Val → Bool
  | .nan => true
  | _ => false
/-- The value is zero. -/
def Val.isZero : Val → Bool
  | .fin _ m => m.num = 0
  | _ => false
/-- The value is infinite. -/
def Val.isInf : Val → Bool
  | .inf _ => true
  | _ => false
/-- The value with its sign changed when s holds; a NaN stays. -/
def Val.flip (s : Bool) : Val → Val
  | .nan => .nan
  | .inf n => .inf (n != s)
  | .fin n m => .fin (n != s) m
/-- The value with a given sign; a NaN stays. -/
def Val.withSign (s : Bool) : Val → Val
  | .nan => .nan
  | .inf _ => .inf s
  | .fin _ m => .fin s m

/-! ### The value of a code -/

/-- The sign bit of a code, 0 when SGN = 0. -/
def Fmt.signBit (f : Fmt) (code : Nat) : Bool := f.sgn = 1 && code.testBit (f.width - 1)

/-- Decode(f, code) (R61). A signalling NaN gives the same results as a quiet one (R68). -/
def Fmt.decode (f : Fmt) (code : Nat) : Val :=
  if f.ew = 0 then
    let n : Int := if f.sgn = 1 && code.testBit (f.width - 1) then (code : Int) - 2 ^ f.width else code
    .dyadic (n < 0) n.natAbs (-f.bias)
  else
    let s := f.signBit code
    let e := natBits code (f.mw + f.ew - 1) f.mw
    let m := code % 2 ^ f.mw
    let top := 2 ^ f.ew - 1
    if f.nan = 1 && e = top && m ≠ 0 then .nan
    else if f.nan = 2 && e = top && m = 2 ^ f.mw - 1 then .nan
    else if f.nan = 3 && s && e = 0 && m = 0 then .nan
    else if f.inf = 1 && e = top && m = 0 then .inf s
    else if e = 0 then
      if f.sub = 2 then .zero s else .dyadic s m (1 - f.bias - f.mw)
    else .dyadic s (2 ^ f.mw + m) ((e : Int) - f.bias - f.mw)

/-- The largest finite positive code (R62). -/
def Fmt.maxCode (f : Fmt) : Nat :=
  if f.ew = 0 then 2 ^ f.mw - 1
  else if f.inf = 1 then (2 ^ f.ew - 2) * 2 ^ f.mw + (2 ^ f.mw - 1)
  else if f.nan = 2 then
    if f.mw = 0 then 2 ^ f.ew - 2 else (2 ^ f.ew - 1) * 2 ^ f.mw + (2 ^ f.mw - 2)
  else 2 ^ (f.ew + f.mw) - 1

/-- NaNCode(f) (R63). -/
def Fmt.nanCode (f : Fmt) : Nat :=
  if f.nan = 1 then (2 ^ f.ew - 1) * 2 ^ f.mw + 2 ^ (f.mw - 1)
  else if f.nan = 2 then 2 ^ (f.ew + f.mw) - 1
  else 2 ^ (f.width - 1)

/-- A magnitude code with a sign bit. -/
def Fmt.signed (f : Fmt) (s : Bool) (mag : Nat) : Nat :=
  if s && f.sgn = 1 then 2 ^ (f.width - 1) + mag else mag

/-- The code of (−1)^s × MAXF(f); for EW = 0 the negative of the largest code value. -/
def Fmt.maxSigned (f : Fmt) (s : Bool) : Nat :=
  if f.ew = 0 then if s && f.sgn = 1 then (2 ^ f.width - f.maxCode) % 2 ^ f.width else f.maxCode
  else f.signed s f.maxCode

/-- The infinity code of a sign. -/
def Fmt.infCode (f : Fmt) (s : Bool) : Nat := f.signed s ((2 ^ f.ew - 1) * 2 ^ f.mw)

/-! ### Rounding -/

/-- Adds to k, from 2^(f − 1) down, every power of two that leaves 2^k at most n. -/
def natLog2Step (n : Nat) : Nat → Nat → Nat
  | 0, k => k
  | f + 1, k => if n / 2 ^ (k + 2 ^ f) = 0 then natLog2Step n f k else natLog2Step n f (k + 2 ^ f)

/-- floor(log2 n), 0 for 0, in few steps for numbers of up to 2^20 bits. -/
def natLog2 (n : Nat) : Nat := if n / 2 ^ 2 ^ 20 = 0 then natLog2Step n 20 0 else n.log2

/-- Newton's steps toward floor(√n) from above. -/
def natSqrtStep (n : Nat) : Nat → Nat → Nat
  | 0, r => r
  | _ + 1, 0 => 0
  | fuel + 1, r + 1 =>
    let next := (r + 1 + n / (r + 1)) / 2
    if next < r + 1 then natSqrtStep n fuel next else r + 1

/-- floor(√n): the start 2^(⌊log2 n⌋/2 + 1) lies above √n by less than a factor of 4. -/
def natSqrt (n : Nat) : Nat :=
  if n = 0 then 0 else natSqrtStep n (natLog2 (natLog2 n) + 12) (2 ^ (natLog2 n / 2 + 1))

/-- floor(m × 2^j). -/
def Mag.floorScaled (m : Mag) (j : Int) : Nat :=
  if m.root then
    natSqrt (if 0 ≤ j then m.num * 2 ^ (2 * j.toNat) / m.den else m.num / (m.den * 2 ^ (2 * (-j).toNat)))
  else if 0 ≤ j then m.num * 2 ^ j.toNat / m.den
  else m.num / (m.den * 2 ^ (-j).toNat)

/-- m × 2^j is the integer k. -/
def Mag.isScaled (m : Mag) (j : Int) (k : Nat) : Bool :=
  let l := if m.root then k * k else k
  let p := if m.root then 2 * j.natAbs else j.natAbs
  if 0 ≤ j then l * m.den = m.num * 2 ^ p else l * m.den * 2 ^ p = m.num

/-- floor(log2 m) for m ≠ 0. -/
def Mag.log2 (m : Mag) : Int :=
  let guess : Int := (m.num.log2 : Int) - m.den.log2
  if m.root then
    -- a scale large enough that the scaled square root is at least 1
    let j : Nat := (m.den.log2 + 2) / 2 + 1
    ((m.floorScaled j).log2 : Int) - j
  else if 1 ≤ m.floorScaled (-guess) then guess else guess - 1

/-- Rounding modes as RND codes them (R55). -/
inductive Rm where
  | rne | rtz | rup | rdn | rna | rsto
  deriving DecidableEq, Repr

/-- The mode of an RND code; the reserved codes do not pass R56. -/
def Rm.ofCode (n : Nat) : Rm :=
  match n with
  | 1 => .rtz
  | 2 => .rup
  | 3 => .rdn
  | 4 => .rna
  | 5 => .rsto
  | _ => .rne

/-- The slot's RND as a mode. -/
def Fmt.rm (f : Fmt) : Rm := Rm.ofCode f.rnd
/-- RND, or RNE when RND is RSTO: the mode of engines and the fabric (R67). -/
def Fmt.engineRm (f : Fmt) : Rm := if f.rm = .rsto then .rne else f.rm

/-- (−1)^neg × m rounded under rnd to a multiple of 2^g; the result is the integer k with value (−1)^neg × k × 2^g
(R65). u is the draw of R66, used by RSTO only. -/
def Mag.round (m : Mag) (neg : Bool) (g : Int) (rnd : Rm) (u : Nat) : Nat :=
  let k := m.floorScaled (-g)
  if m.isScaled (-g) k then k
  else match rnd with
    | .rtz => k
    | .rup => if neg then k else k + 1
    | .rdn => if neg then k + 1 else k
    | .rne =>
      let h := m.floorScaled (1 - g)
      if h % 2 = 0 then k
      else if m.isScaled (1 - g) h then (if k % 2 = 0 then k else k + 1)
      else k + 1
    | .rna => if m.floorScaled (1 - g) % 2 = 0 then k else k + 1
    | .rsto =>
      -- floor(2^32 × frac) of the magnitude, and whether 2^32 × frac is whole
      let q := m.floorScaled (32 - g)
      let fr := q - k * 2 ^ 32
      let whole := m.isScaled (32 - g) q
      if neg then
        -- lo = −(k+1), hi = −k
        let share := 2 ^ 32 - (if whole then fr else fr + 1)
        if u < share then k else k + 1
      else if u < fr then k + 1 else k

/-- k × 2^g < l × 2^h. -/
def dyLt (k : Nat) (g : Int) (l : Nat) (h : Int) : Bool :=
  if h ≤ g then k * 2 ^ (g - h).toNat < l else k < l * 2 ^ (h - g).toNat

/-- Invalid(f, s) (R64); none is the trap FMT_INVALID. -/
def Fmt.invalid (f : Fmt) (s : Bool) : Option Nat :=
  if f.nan ≠ 0 then some f.nanCode
  else if f.inv = 0 then none
  else if f.inv = 1 then some 0
  else some (f.maxSigned (s && f.sgn = 1))

/-- Overflow(f, s, rnd) (R64). -/
def Fmt.overflow (f : Fmt) (s : Bool) (rnd : Rm) : Option Nat :=
  if f.sgn = 0 && s then
    if f.sat then some 0 else f.invalid true
  else if f.sat then some (f.maxSigned s)
  else if f.inf = 1 then
    if rnd = .rtz || (rnd = .rup && s) || (rnd = .rdn && !s) then some (f.maxSigned s)
    else some (f.infCode s)
  else f.invalid s

/-- Fixed(f, x, rnd) (R64) for a finite x. -/
def Fmt.fixed (f : Fmt) (neg : Bool) (m : Mag) (rnd : Rm) (u : Nat) : Nat :=
  let k : Nat := m.round neg (-f.bias) rnd u
  let k : Int := if neg then -(k : Int) else k
  let w := f.width
  let lo : Int := if f.sgn = 1 then -2 ^ (w - 1) else 0
  let hi : Int := if f.sgn = 1 then 2 ^ (w - 1) - 1 else 2 ^ w - 1
  let k := if f.sat then (if k < lo then lo else if hi < k then hi else k) else k
  (k % (2 ^ w : Int)).toNat

/-- The code whose value is (−1)^s × k × 2^g, for a value on the slot's grid that is at most MAXF (R64). -/
def Fmt.codeOf (f : Fmt) (s : Bool) (k : Nat) (g : Int) : Nat :=
  if k = 0 then f.signed s 0
  else
    let e : Int := (k.log2 : Int) + g
    let emin : Int := 1 - f.bias
    if e < emin then
      -- subnormal: a multiple of 2^(1 − BIAS − MW)
      let sh : Int := g - (emin - f.mw)
      f.signed s (if 0 ≤ sh then k * 2 ^ sh.toNat else k / 2 ^ (-sh).toNat)
    else
      let sh : Int := g - (e - f.mw)
      let full := if 0 ≤ sh then k * 2 ^ sh.toNat else k / 2 ^ (-sh).toNat
      f.signed s ((e + f.bias).toNat * 2 ^ f.mw + (full - 2 ^ f.mw))

/-- k × 2^g is above MAXF(f), for EW ≥ 1. -/
def Fmt.aboveMax (f : Fmt) (k : Nat) (g : Int) : Bool :=
  let c := f.maxCode
  let e := c / 2 ^ f.mw
  let mant := c % 2 ^ f.mw
  if e = 0 then dyLt mant (1 - f.bias - f.mw) k g
  else dyLt (2 ^ f.mw + mant) ((e : Int) - f.bias - f.mw) k g

/-- Encode(f, x, rnd) (R64). s1 is the sign bit of the first source operand; u is the draw of R66. none is the trap
FMT_INVALID. -/
def Fmt.encode (f : Fmt) (x : Val) (rnd : Rm) (s1 : Bool) (u : Nat) : Option Nat :=
  match x with
  | .nan => f.invalid s1
  | .inf s =>
    if f.ew = 0 then f.invalid s
    else if f.inf = 1 && !(s && f.sgn = 0) then some (f.infCode s)
    else f.overflow s rnd
  | .fin s m =>
    if f.ew = 0 then some (f.fixed s m rnd u)
    else if m.num = 0 then
      if f.sgn = 0 || f.nan = 3 then some 0 else some (f.signed s 0)
    else
      let g0 : Int := m.log2 - f.mw
      let k0 := m.round s g0 rnd u
      let gs : Int := 1 - f.bias - f.mw
      let (k, g) :=
        if dyLt k0 g0 1 (1 - f.bias) then
          if f.sub ≠ 0 then (0, gs) else (m.round s gs rnd u, gs)
        else (k0, g0)
      if f.aboveMax k g then f.overflow s rnd
      else if k ≠ 0 && s && f.sgn = 0 then f.overflow true rnd
      else if k = 0 && (f.sgn = 0 || f.nan = 3) then some 0
      else some (f.codeOf s k g)

/-- Encode as an engine or the fabric uses it: RNE for RSTO (R67), and the +0 code with a mark where INV = 00 would
trap (R189, R202, R219). -/
def Fmt.encodeEngine (f : Fmt) (x : Val) (rnd : Rm) (s1 : Bool) : Nat × Bool :=
  match f.encode x (if rnd = .rsto then .rne else rnd) s1 0 with
  | some c => (c, false)
  | none => (0, true)

/-! ### Exact arithmetic on values (R68, R69) -/

/-- An exact rational. -/
structure Rat' where
  num : Int
  den : Nat
  deriving DecidableEq, Repr

/-- The exact sum. -/
def Rat'.add (a b : Rat') : Rat' :=
  if a.den = b.den then ⟨a.num + b.num, a.den⟩
  else
    let l := Nat.lcm a.den b.den
    ⟨a.num * (l / a.den : Nat) + b.num * (l / b.den : Nat), l⟩

/-- A finite value as a rational. -/
def Val.toRat : Val → Rat'
  | .fin s m => ⟨if s then -(m.num : Int) else m.num, m.den⟩
  | _ => ⟨0, 1⟩

/-- The exact sum of addends under the rules of R68 and R69; rnd decides the sign of a zero sum. -/
def Val.sum (xs : List Val) (rnd : Rm) : Val :=
  if xs.any Val.isNan then .nan
  else
    let pinf := xs.any (fun x => x = .inf false)
    let ninf := xs.any (fun x => x = .inf true)
    if pinf && ninf then .nan
    else if pinf then .inf false
    else if ninf then .inf true
    else
      let r := xs.foldl (fun acc x => Rat'.add acc x.toRat) ⟨0, 1⟩
      if r.num ≠ 0 then .fin (r.num < 0) ⟨r.num.natAbs, r.den, false⟩
      else if !xs.isEmpty && xs.all (fun x => x.neg) && xs.all Val.isZero then .zero true
      else .zero (rnd = .rdn)

/-- The exact product (R68). -/
def Val.mul (a b : Val) : Val :=
  match a, b with
  | .nan, _ => .nan
  | _, .nan => .nan
  | .inf s, .inf t => .inf (s != t)
  | .inf s, .fin t m => if m.num = 0 then .nan else .inf (s != t)
  | .fin s m, .inf t => if m.num = 0 then .nan else .inf (s != t)
  | .fin s m, .fin t n => .fin (s != t) ⟨m.num * n.num, m.den * n.den, false⟩

/-- 0 × ∞ in either order (R68: NaN even when the addend is NaN). -/
def Val.mulInvalid (a b : Val) : Bool := (a.isZero && b.isInf) || (a.isInf && b.isZero)

/-- The exact quotient (R68). -/
def Val.div (a b : Val) : Val :=
  match a, b with
  | .nan, _ => .nan
  | _, .nan => .nan
  | .inf _, .inf _ => .nan
  | .inf s, .fin t _ => .inf (s != t)
  | .fin s _, .inf t => .zero (s != t)
  | .fin s m, .fin t n =>
    if n.num = 0 then (if m.num = 0 then .nan else .inf (s != t))
    else .fin (s != t) ⟨m.num * n.den, m.den * n.num, false⟩

/-- The exact square root (R68). -/
def Val.sqrt (a : Val) : Val :=
  match a with
  | .nan => .nan
  | .inf s => if s then .nan else .inf false
  | .fin s m => if m.num = 0 then .zero s else if s then .nan else .fin false ⟨m.num, m.den, true⟩

/-- An exponent of 2 held within ±100,000: beyond that, no slot's exponent range (R55) or fraction of RSTO (R65) tells
two results apart. -/
def clampExp (n : Int) : Int := if n < -100000 then -100000 else if 100000 < n then 100000 else n

/-- a × 2^n; ±∞, ±0 and NaN keep their value (R147). -/
def Val.scale2 (a : Val) (n : Int) : Val :=
  match a with
  | .fin s m =>
    let n := clampExp n
    if m.num = 0 then a
    else .fin s (if 0 ≤ n then ⟨m.num * 2 ^ n.toNat, m.den, m.root⟩ else ⟨m.num, m.den * 2 ^ (-n).toNat, m.root⟩)
  | _ => a

/-- a < b for values that are not NaN; zeros compare equal. -/
def Val.lt (a b : Val) : Bool :=
  match a, b with
  | .nan, _ => false
  | _, .nan => false
  | .inf s, .inf t => s && !t
  | .inf s, _ => s
  | _, .inf t => !t
  | .fin _ _, .fin _ _ =>
    let p := a.toRat
    let q := b.toRat
    p.num * (q.den : Int) < q.num * (p.den : Int)

/-- Equal values; −0 equals +0. -/
def Val.eqv (a b : Val) : Bool := !a.isNan && !b.isNan && !a.lt b && !b.lt a

/-- FMIN's choice between two values that are not NaN, −0 below +0 (R68). -/
def Val.min (a b : Val) : Val :=
  if a.isNan then b else if b.isNan then a
  else if a.lt b then a else if b.lt a then b
  else if a.neg then a else b

/-- FMAX's choice (R68). -/
def Val.max (a b : Val) : Val :=
  if a.isNan then b else if b.isNan then a
  else if a.lt b then b else if b.lt a then a
  else if a.neg then b else a

/-- The value rounded under rnd to an integer, with the sign of the value (R147, R155). -/
def Val.roundInt (a : Val) (rnd : Rm) (u : Nat) : Val :=
  match a with
  | .fin s m => .fin s ⟨m.round s 0 rnd u, 1, false⟩
  | _ => a

/-! ### Blocks and packing (R59, R60, R70, R71) -/

/-- Element i of a thread-word in width w (R59). -/
def elemOf (w : Nat) (x : Word) (i : Nat) : Nat := natBits x.toNat (i * w + w - 1) (i * w)

/-- A thread-word from codes of width w, the bits above them zero (R59). -/
def packElems (w : Nat) (codes : List Nat) : Word :=
  BitVec.ofNat 64 ((codes.zipIdx.foldl (fun acc p => acc + (p.1 % 2 ^ w) * 2 ^ (p.2 * w)) 0) % 2 ^ 64)

/-- The value of an element of a block (R71). -/
def Fmt.blockValue (f : Fmt) (header : Word) (code : Nat) : Val :=
  let scale := Fmt.binary32.decode (natBits header.toNat 63 32)
  let v := if f.nan = 3 && code = 2 ^ (f.width - 1) then Fmt.binary32.decode (natBits header.toNat 31 0)
           else f.decode code
  Val.mul scale v

/-- The scale of a block header. -/
def headerScale (header : Word) : Val := Fmt.binary32.decode (natBits header.toNat 63 32)

/-- BitPos(b, j) for a stream at byte b (R169, R170). -/
def Fmt.bitPos (f : Fmt) (b j : Nat) : Nat :=
  if f.isBlk then 8 * (b + (j / 32) * (8 + 4 * f.width) + 8) + (j % 32) * f.width
  else 8 * b + j * f.width

/-! ### The stochastic state (R66) -/

/-- RS advanced by one draw. -/
def rsNext (rs : Word) : Word :=
  let a := rs ^^^ (rs <<< 13)
  let b := a ^^^ (a >>> 7)
  b ^^^ (b <<< 17)

/-- The draw of an advanced state: its top half. -/
def rsDraw (rs : Word) : Nat := natBits rs.toNat 63 32

/-- RS at dispatch from RNDSEED and the linear index. -/
def rsInit (seed : Word) (lin : Nat) : Word :=
  let r := seed ^^^ BitVec.ofNat 64 ((lin + 1) * 0x9E3779B97F4A7C15)
  if r = 0 then 1 else r

end Sys2Proof.Machine
end

