-- ==== Sys2Proof/Config.lean ====
section
/-! DEFINITION. What an implementation fixes and the values the spec leaves open. Each opaque constant has no body
that a proof can see, so a claim holds whatever it is (notes/assumptions/5.md). -/

namespace Sys2Proof.Config

/-- The free value drawn at a count of State.freeCount (log entry 5). -/
opaque freeWord : Nat → Word

/-- Byte i of the identity record's value: part code, silicon revision, package serial (R357; log entry 9). -/
opaque identity : Nat → Byte
/-- Byte i of the value of the BAR map record (R357; log entry 9). -/
opaque barMap : Nat → Byte
/-- The length of the value of the BAR map record, at most 65,528 (R357; log entry 9). -/
opaque barLen : Nat
/-- The LMS signature over the records of the ROM (R357, R359; log entry 9). -/
opaque romSign : List Byte → List Byte
/-- The errata that firmware appends to the table: number, affected revisions, workaround code (R357; log entry 9). -/
opaque errata : List (BitVec 32 × BitVec 32 × Word)
/-- The LMS signature by the firmware key over records (R357, R359; log entry 9). -/
opaque fwSign : List Byte → List Byte
/-- The local physical address of the table's copy in the HBM of die 0 (R357; log entry 9). -/
opaque capBase : Nat
/-- The firmware images pass the boot ROM's verification (R359; log entry 9). -/
opaque fwVerified : Bool
/-- The version of the recovery loader, for FWCALL service 0 while it runs (R136, R359; log entry 9). -/
opaque loaderVersion : BitVec 32
/-- The security version of the recovery loader (R136, R359; log entry 9). -/
opaque loaderSecurity : Word
/-- Bit i: feature i of FEATOFF is offered (R357, R358; log entry 9). -/
opaque featOffered : Word
/-- The firmware version that FWCALL service 0 returns (R136; log entry 9). -/
opaque fwVersion : BitVec 32
/-- The security version of the running image, for FWCALL service 0 (R136; log entry 9). -/
opaque fwSecurity : Word
/-- The LMS signature over a seal's SEQ and CHAIN with one-time key i (R351, R359; log entry 9). -/
opaque lmsSign : Nat → Nat → List Byte → List Byte
/-- The length in bytes of an entry of the signature area (R351; log entry 9). -/
opaque sigBytes : Nat
/-- The attestation report over a nonce with one-time key i (R359; log entry 9). -/
opaque attest : Nat → Word → List Byte
/-- The HBM stack that holds a 128-byte line of local memory, modulo 8 (R250, R356; log entry 9). -/
opaque hbmStack : Nat → Nat

/-- What a read at a bit of the scratchpad of a block that has ended gives (R253; log entry 88). -/
opaque lostWord : Nat → Word

/-- The die whose slice is the home of a 128-byte line of local memory, modulo 4 (R250, R263; log entry 9). -/
opaque homeDie : Nat → Nat

/-- The number of this package once it is in a pod, modulo 128 (R322; log entry 9). -/
opaque podNumber : Nat

/-- The size in bytes of the local HBM (R21: 384 GiB). -/
def hbmBytes : Nat := 384 * 2 ^ 30
/-- The valid offsets of a node lie below this (R322). -/
def nodeBytes : Nat := 0x07F000000000
/-- The default slice of class 0 in ns: 2 ms (R307). -/
def class0Slice : Nat := 2000000
/-- The least slice of any class in ns: 100 microseconds (R307). -/
def leastSlice : Nat := 100000
/-- What State.wall counts in a ns: a cycle is 10 of them, at 1.1 GHz (R5). -/
def wallPerNs : Nat := 11
/-- The budget of the pre-emption handler in ns: 8 microseconds (R311). -/
def forceNs : Nat := 8000
/-- Cycles from the last BARR arrival to the release (R213: at most 4; log entry 6). -/
def barrCycles : Nat := 4

end Sys2Proof.Config
end

