-- ==== Sys2Proof/Machine/State.lean ====
section
/-! DEFINITION. The state of the T7 package: plain data, everything the spec gives the machine (INVENTORY.md lists
each piece with its rule and reset value), and State.reset. -/

namespace Sys2Proof.Machine

/-- A sparse map by key: keys strictly rise and no entry holds the default value, so equal maps are equal lists. -/
abbrev SMap (α : Type) := List (Nat × α)

/-- Bytes by key; an unlisted key reads 0 (log entry 2). Keys are those of Ops.lean (`keyHbm`, `keyPeer`, …). -/
abbrev Memory := List Host.Cell

/-- The full/empty bit of a register (R88) with the last producer it waits for (R91), or its poison mark: a failed
access and whether it was remote (R160, R324), or an error in the register file (R269). -/
inductive Mark where
  | full
  | empty (prod : Nat)
  | poison (addr : Word) (remote : Bool)
  | regError
  deriving DecidableEq, Repr

/-- A frontier entry (R30): its pair, threads and parked state, wait stamp (R39), demotion mark (R42) and grant (R41). -/
structure Entry where
  pri : BitVec 8
  pc : PC
  mask : Mask
  parked : Bool
  stamp : Nat
  demoted : Bool
  granted : Bool
  deriving DecidableEq, Repr

/-- A WJOIN wait (R44): address, resident cycles left, destination predicate, and whether the handler started it. -/
structure WJoin where
  pc : PC
  left : Nat
  d : BitVec 8
  handler : Bool
  deriving DecidableEq, Repr

/-- Why a whole warp does not issue (R32). The `retry` forms have not issued and issue again once they can (R309);
the others have issued and continue at PC + 8 when they end. -/
inductive Park where
  | nap (left : Nat)
  | rgrow (d : BitVec 8) (m : Nat) (act : Mask)
  | twait (d : BitVec 8) (va : Nat) (mask : Word) (scope : Nat) (left : Nat) (act : Mask)
  | sqwait (d : BitVec 8) (cl ch : Nat) (target : Nat) (scope : Nat) (left : Nat) (act : Mask)
  | bsync (ch : Nat) (acquire : Bool) (scope : Nat)
  | barr (blk id : Nat)
  | fence (acq rel : Bool) (ms : Bool) (scope : Nat) (d : BitVec 8) (upTo : Nat) (pc : PC) (act : Mask)
  | send (id : Nat)
  | readout (d : BitVec 8) (handle k : Nat) (f : Word) (r0 c0 : Nat) (p : Mask) (prod : Nat)
  | retrySources (keys : List Nat)
  | retryLines (keys : List Nat)
  | retryRing (cl ch : Nat)
  | retryQueue (need : Nat)
  | retryHandle (a : Nat)
  | driver (va : Nat) (priv : Bool)
  deriving DecidableEq, Repr

/-- The mode of a warp: program, user handler entered by a trap or by the pre-emption signal, or firmware on behalf
of one of them (R131, R309, R340). -/
inductive Mode where
  | program
  | handler (preempt : Bool)
  | firmware (fromHandler : Bool) (preempt : Bool)
  deriving DecidableEq, Repr

/-- What the warp holds while it is in user-handler mode: the frontier, park, grant and, for a pre-emption, WC set aside
(R52, R309, R341), the threads that entered with the priority each saved and the grant and demotion marks of their entry
(R340, R41, R42). -/
structure Saved where
  frontier : List Entry
  park : Option Park
  grantLeft : Nat
  wc : Nat
  entered : Mask
  pris : SMap (BitVec 8)
  granted : Bool
  demoted : Bool
  deriving DecidableEq, Repr

/-- A generator region (R222 to R225): producers not retired, saved pairs, the two frames with each entry's value and
lane, the filling frame, the frame being drained when in consumer mode, arrivals at GNEXT with the address each goes to
(R225), the consumer body, and a switch that an issue which traps or waits at a FENCE has found due (R305). -/
structure Region where
  producers : Mask
  saved : SMap (BitVec 8 × PC)
  frame0 : List (Word × Nat)
  frame1 : List (Word × Nat)
  filling : Nat
  drain : Option Nat
  arrived : Mask
  cons : PC
  tpri : BitVec 8
  next : SMap PC
  due : Bool
  deriving DecidableEq, Repr

/-- The tile an accumulator handle names (R199): M / 64, N / 64, the clusters that hold it (one, or four for a
co-operative rectangle), the slots held in each, AF and the number of the slot that supplied it. -/
structure Tile where
  mt : Nat
  nt : Nat
  engines : List Nat
  slots : List (Nat × Nat)
  co : Bool
  af : Word
  afn : Nat
  deriving DecidableEq, Repr

/-- An accumulator handle (R199). -/
structure Acc where
  tile : Option Tile
  zero : Bool
  err : Bool
  pend : Nat
  deriving DecidableEq, Repr

/-- Where a result goes (R89, R91): a uniform or vector register, the producer number and the allocation tag. -/
structure Dest where
  uniform : Bool
  reg : Nat
  lane : Nat
  prod : Nat
  allocGen : Nat
  deriving DecidableEq, Repr

/-- A warp (R29, R45, R88): what is visible to programs, directly or through its effects. `grantDue` holds the slots of
a grant that FC has earned and that starts with the next issue (R40), `fcClear`, `wcClear` and `grantClear` the resets that
its next issue brings (R130), `fcause` the cause of the last entry into firmware mode (R101, R104), `refused` and `growRefused` the pages and the private growth that the driver refused (R260, R265),
`recvs` the BRECVs that wait,
each with its channel (R214), `gens` the translation generations that it runs under, by the base of the code object (R104), `faults` the
registers in error that are neither vector nor uniform, by class and number (R269). -/
structure Warp where
  uid : Nat
  wid : Nat
  q : Nat
  blk : Nat
  wblk : Nat
  age : Nat
  nregs : Nat
  allocGen : Nat
  vregs : SMap Word
  vmarks : SMap Mark
  sregs : SMap Word
  smarks : SMap Mark
  preds : SMap Mask
  slots : SMap Word
  tdn : Nat
  tdescs : SMap (BitVec 256)
  accs : SMap Acc
  live : Mask
  frontier : List Entry
  issues : Nat
  fc : Nat
  wc : Nat
  grantDue : Nat
  fcClear : Bool
  wcClear : Bool
  grantClear : Bool
  grantLeft : Nat
  wjoins : List WJoin
  csp : SMap Nat
  rs : SMap Word
  lin : SMap Nat
  midx : SMap Nat
  mode : Mode
  saved : Option Saved
  signal : Bool
  park : Option Park
  refused : List Nat
  growRefused : Bool
  halted : Bool
  region : Option Region
  mstat : Word
  mtrap : Bool
  remFail : Option Nat
  bcSeen : SMap Nat
  recvs : List (Nat × Dest)
  sends : SMap Nat
  uepc : PC
  ucause : BitVec 9
  utval : Word
  ufmask : Mask
  uscr : Word
  flsel : BitVec 5
  finsn : Word
  flact : Mask
  fcause : BitVec 9
  gens : SMap Nat
  faults : List Nat := []
  deriving DecidableEq, Repr

/-- A barrier instance of a block (R213): its count, the warps that arrived, and the cycle of the last arrival. -/
structure Barr where
  n : Nat
  arrived : List Nat
  full : Option Nat
  deriving DecidableEq, Repr

/-- What a block is: of the hierarchy, of a pipeline stage (R300), or a handler block (R221). -/
inductive BlockKind where
  | grid
  | stage (k n : Nat)
  | message (m : Nat)
  deriving DecidableEq, Repr

/-- A resident block (R253, R297, R298): placement, warps, scratchpad, accumulator slots held, barriers, and the warp whose
fetch fault swapped it out (R267). -/
structure Block where
  id : Nat
  q : Nat
  num : Nat
  kind : BlockKind
  core : Nat
  warps : List Nat
  nwarps : Nat
  spBase : Nat
  spSize : Nat
  acc : Nat
  barrs : SMap Barr
  swapped : Option Nat
  deriving DecidableEq, Repr

/-- A launch record read as its fields (R291). -/
structure Rec where
  kind : Bool
  entry : Nat
  fmask : Nat
  nbc : Nat
  nbar : Nat
  tpri : Nat
  tclass : Nat
  nstg : Nat
  prio : Nat
  levels : List (Nat × Nat × Nat)
  scr : Nat
  acc : Nat
  tdn : Nat
  regs : Nat
  stages : List (Nat × Int)
  ftab : Nat
  hcnt : Nat
  htab : Nat
  cpl : Nat
  arg0 : Word
  arg1 : Word
  deriving DecidableEq, Repr

/-- An accepted launch that is not complete (R292 to R302): what was read at acceptance, the translation generations of
its code by object base, the shares not yet admitted as (die, level-0 member), the stage of each core, the counts of stage blocks (die · 4 +
stage) and of handler blocks (die), and the cause that ended it early. -/
structure Launch where
  q : Nat
  rcd : Rec
  slots : SMap Word
  handlers : List Nat
  gens : SMap Nat
  waiting : List (Nat × Nat)
  stageOf : SMap Nat
  stageCount : SMap Nat
  msgCount : SMap Nat
  ended : Option Nat
  deriving DecidableEq, Repr

/-- A record submitted and not yet accepted (R293, R294): by the host from a window slot with its bytes, or by a
LAUNCH of a warp, at an address, with the destination register and the producer number. -/
inductive Submitted where
  | host (slot : Nat) (bytes : List Byte)
  | warp (uid : Nat) (addr : Nat) (d : BitVec 8) (prod : Nat)
  deriving DecidableEq, Repr

/-- What a result carries in place of data (R160, R324): the access's address, whether it failed remotely, and the keys of
the granules in error that it records (R349, R355). -/
structure BadData where
  addr : Word
  remote : Bool
  keys : List Nat
  deriving DecidableEq, Repr

/-- A long-latency result that is still owed (R89, R91). -/
structure Owed where
  id : Nat
  uid : Nat
  dest : Dest
  value : Word
  bad : Option BadData
  deriving DecidableEq, Repr

/-- A run of bits of one access: first bit in the key space, length, its place in the data, the MODE and the virtual
base address of its page (R263, R264), whether the page is global (R266), and the virtual address of its first byte. -/
structure Piece where
  pos : Nat
  len : Nat
  off : Nat
  mode : Nat := 0
  page : Nat := 0
  shared : Bool := false
  va : Nat := 0
  deriving DecidableEq, Repr

/-- What an access does at its home (R165, R169, R172, R174, R176, R177), or reads in another warp (R121). -/
inductive AccKind where
  | load (dest : Dest) (hi : Option Dest) (bytes : Nat) (sx : Bool) (keep : Word)
  | store (data : Nat)
  | atomic (op : Nat) (sgn : Bool) (bytes : Nat) (data : Nat) (ret : Option Dest)
  | acas (bytes : Nat) (cmp new : Nat) (dest : Dest)
  | fatom (op : Nat) (slot : Word) (data : Word) (ret : Option Dest)
  | member (m home : Nat) (trap ordered : Bool) (data : Nat)
  | peek (uid reg lane : Nat) (dest : Dest)
  deriving DecidableEq, Repr

/-- An access that has passed its checks and is not yet performed (R159, R274, R285): the warp and which of its issues made
it, its core, whether it may leave L1 copies (.nt), the scope of its acquire, the scope of the release that stands before it (R165),
the widest scope, core to die, at which a release has covered it before it is performed (R178, R276), its address as the program gave it, and a
number that rises in the order of R163. The writes of a card are accesses of no warp (number 0), with the card's SCOPE (R190). -/
structure Access where
  id : Nat
  uid : Nat
  ins : Nat
  core : Nat
  lane : Nat
  addr : Word
  cached : Bool
  acq : Option Nat
  rel : Option Nat
  relAt : Nat
  kind : AccKind
  pieces : List Piece
  card : Nat := 0
  deriving DecidableEq, Repr

/-- Where a clean copy of a line is kept (R254, R257, R267): the L1 of a core, what a core has read ahead of its program order
(R270, R275; log entry 63), the remote ways of a context's partition on a die, or the instruction cache of a core. -/
inductive CopyAt where
  | l1 (core : Nat)
  | ahead (core : Nat)
  | remote (die ctx : Nat)
  | icache (core : Nat)
  deriving DecidableEq, Repr

/-- A clean copy of a 128-byte line: the line's key, its bytes as one number, least significant byte first, and the poison
marks that came with it (R269). -/
structure Copy where
  at_ : CopyAt
  line : Nat
  data : Nat
  bad : List Nat
  deriving DecidableEq, Repr

/-- A TLB entry (R266): the TLB that holds it, cluster · 4 + core for a core's and cluster · 4 + 2 for the cluster's; its
context unless G, page base, log2 of the page size, and the leaf. -/
structure TlbEntry where
  unit : Nat
  ctx : Option Nat
  va : Nat
  bits : Nat
  leaf : Word
  deriving DecidableEq, Repr

/-- A table entry in the walk cache of a die (R266): where it stands and what it held. -/
structure WalkEntry where
  die : Nat
  at_ : Nat
  entry : Nat
  deriving DecidableEq, Repr

/-- A page counter of MODE 11 (R264): of a context, or of a page that every context shares. -/
structure MigCount where
  die : Nat
  ctx : Option Nat
  va : Nat
  count : Nat
  deriving DecidableEq, Repr

/-- A copy channel of a cluster (R184, R185): ring, completion word, next slot and sequence, DONE, the sequence
numbers completed ahead of DONE, the last card linked, and the program chain being walked with its sampled slots and
its
launch, block, core and scratchpad allocation (base, size). -/
structure Channel where
  cl : Nat
  ch : Nat
  ring : Nat
  k : Nat
  nextSlot : Nat
  last : Option Nat
  cw : Nat
  nextSeq : Nat
  done : Nat
  err : Bool
  ahead : List Nat
  walking : Option Nat
  chainSlots : List Word
  chainQ : Nat
  chainBlk : Nat
  chainCore : Nat
  chainSp : Nat × Nat
  deriving DecidableEq, Repr


/-- One element or block header that a card moves (R189): its bit position and length at the destination and at the source, the
headers of its source and destination blocks, and the iteration it belongs to. -/
structure CardItem where
  pos : Nat
  len : Nat
  src : Int
  slen : Nat
  srcHdr : Option Int
  dstHdr : Option Nat
  isHdr : Bool
  iter : Nat
  deriving DecidableEq, Repr

/-- A card that an engine owns (R182, R187 to R190): its place in memory when it has one, its words, sampled slots, and its
progress, with the source words that it has read so far, by iteration and word number (R191). -/
structure Card where
  id : Nat
  cl : Nat
  ch : Nat
  seq : Nat
  addr : Nat
  typ : Nat
  scope : Nat
  rop : Nat
  lred : Bool
  ds : BitVec 256
  dd : BitVec 256
  sfmt : Word
  dfmt : Word
  count : Nat
  perm : Nat
  sstep : Int
  dstep : Int
  read0 : Word
  read1 : Word
  write : Word
  bmap : Nat
  q : Nat
  blk : Nat
  core : Nat
  spBase : Nat
  spSize : Nat
  program : Bool
  started : Bool
  iter : Nat
  items : List CardItem
  seen : List (Nat × Int × Nat)
  chunks : List Nat
  status : Nat
  cancelled : Bool
  deriving DecidableEq, Repr

/-- A JPOST that has issued, its card written to its slot, and is not yet accepted (R187): the warp, the card, the destination and
the producer number. -/
structure Posted where
  uid : Nat
  card : Card
  d : BitVec 8
  prod : Nat
  deriving DecidableEq, Repr

/-- An operation on an accumulator handle (R199 to R206), in the order issued, with what it sampled: 0 MMA, 1 MMAS, 2 ALDR,
3 ASTO, 4 AZERO, 5 AREL. An AREL holds the ZERO and ERR of the handle as it was, for the operations before it; `lines` are the
lines that an ASTO writes, as keys divided by 128. -/
structure EngOp where
  id : Nat
  uid : Nat
  cl : Nat
  blk : Nat
  core : Nat
  spBase : Nat
  spSize : Nat
  handle : Nat
  op : Nat
  bt : Bool
  da : BitVec 256
  db : BitVec 256
  fa : Word
  fb : Word
  tile : Option Tile
  zero : Bool
  err : Bool
  read0 : Word
  read1 : Word
  lines : List Nat := []
  deriving DecidableEq, Repr

/-- An open generation of a pewter barrier channel (R211): the dies it spans, its count and arrivals. -/
structure BarGen where
  ch : Nat
  dies : List Nat
  pkg : Bool
  c : Nat
  arrived : List (Nat × Nat)
  deriving DecidableEq, Repr

/-- A closed generation, of die or package scope, whose warps are released at a cycle (R211). -/
structure Closing where
  ch : Nat
  dies : List Nat
  pkg : Bool
  at_ : Nat
  warps : List Nat
  deriving DecidableEq, Repr

/-- A broadcast on its way (R214), with the warp slot that it comes from. -/
structure Bcast where
  id : Nat
  wid : Nat
  ch : Nat
  dies : List Nat
  at_ : Nat
  value : Word
  deriving DecidableEq, Repr

/-- The queue of a pipeline stage on one die (R299), with the number of items that have been put into it. -/
structure StageQueue where
  q : Nat
  die : Nat
  stage : Nat
  pushed : Nat
  items : List (Word × Word)
  deriving DecidableEq, Repr

/-- The state of a context (R306). -/
inductive CtxState where
  | running | draining | exchanging | standby | inHbm
  deriving DecidableEq, Repr

/-- A context (R129, R304, R306): the cycle in which it was created (R358), what the driver fixed, its registers, launches, blocks, warps, channels, cards,
engine work, accumulator memory, accesses in flight and results owed. `sliceLeft` and `forceAt` are wall time, `signalAt` a
cycle, `rxGen` numbers the receives posted (R217), `unsignalled` the warps that the pre-emption signal has still to reach (R307 to R311). -/
structure Context where
  id : Nat
  born : Nat
  p : CtxParams
  state : CtxState
  hw : Nat
  ctx : Word
  fairt : Word
  fairq : Word
  wdog : Word
  rndseed : Word
  gencfg : Word
  wawdrop : Word
  gtdrop : Word
  utvec : Word
  sliceLeft : Nat
  signalAt : Option Nat
  forceAt : Option Nat
  unsignalled : List Nat
  busy : BitVec 16
  taken : BitVec 32
  submitted : List Submitted
  nextQ : Nat
  launches : List Launch
  blocks : List Block
  warps : List Warp
  queues : List StageQueue
  barGens : List BarGen
  barCount : SMap Nat
  closings : List Closing
  bcValue : SMap Word
  bcGen : SMap Nat
  bcasts : List Bcast
  rxGen : Nat
  channels : List Channel
  posted : List Posted
  cards : List Card
  engOps : List EngOp
  accMem : SMap Word
  accTaken : SMap (List Nat)
  accesses : List Access
  owed : List Owed
  absent : List Nat
  deriving DecidableEq, Repr

/-- A receive (R217 to R220, R329, R339). -/
structure Receive where
  die : Nat
  entry : Nat
  gen : Nat
  ctx : Nat
  rxid : Nat
  q : Nat
  blk : Nat
  cl : Nat
  td : BitVec 256
  slot : Word
  mword : Word
  mask : Word
  mctx : Nat
  red : Option (Nat × Nat)
  order : Nat
  open_ : Bool
  msg : Option Nat
  taken : List (Nat × Msg)
  landed : Nat
  tag : BitVec 32
  status : Nat
  done : Bool
  deriving DecidableEq, Repr

/-- An active message of another package that has arrived at a die and must wait (R333). -/
structure HeldActive where
  id : Nat
  die : Nat
  msg : ActiveMsg
  deriving DecidableEq, Repr

/-- A message at its target die (R326, R329 to R331): pieces in reservation slots, in the unexpected queue, matched
to a receive, or flagged LANDFAULT. -/
structure Held where
  id : Nat
  die : Nat
  msg : Msg
  pieces : Nat
  arrived : Nat
  landed : Nat
  queued : Bool
  landfault : Bool
  receive : Option (Nat × Nat)
  deriving DecidableEq, Repr

/-- A message or active message of this package that is being sent (R216, R221, R326), with the descriptor, slot and block of a message
whose payload is still to be read. -/
structure Sending where
  id : Nat
  ctx : Nat
  uid : Nat
  pkg : Nat
  die : Nat
  msg : Option Msg
  active : Option ActiveMsg
  pieces : Nat
  granted : Nat
  matched : Bool
  td : BitVec 256 := 0
  slot : Word := 0
  blk : Nat := 0
  deriving DecidableEq, Repr

/-- A signed code object (R347) of a context: address range, kind, its security version and that of its translation, the
generation of the installed translation (0: none), the numbers that its context has run under, and the earlier generations
whose side tables are kept (R104, R348). A translation stands at the addresses of its image, so a side table maps each
address to itself (log entry 7). -/
structure CodeObject where
  ctx : Nat
  base : Nat
  size : Nat
  alavy : Bool
  secver : Nat
  transver : Nat
  gen : Nat
  used : List Nat
  side : List Nat
  deriving DecidableEq, Repr

/-- A journal record (R350). -/
structure JRec where
  seq : Nat
  time : Nat
  src : Word
  loc : Word
  chain : List Byte
  deriving DecidableEq, Repr

/-- The package. `fsv` is the fuse counter in effect, `fuses` the fuses blown and read back, `fsvGoal` where a rise is to end (R360),
`loader` says that the recovery loader runs in place of firmware, `fw` is the firmware's image (R359), `capDone` says that the
capability table has been copied to HBM (R357), `reposts` are the records that a recovery has still to
post (R353), `droops` the stretched cycles of the last microsecond with what each added (R361). `slotsUsed` counts the receive slots taken by die and source package (R325), `firsts` holds for each die the cycle
in which a message last met its receive match engine, and its place in the order of that cycle (R329), `recBuf` the journal
events of this cycle (R349), `cur` the warp that issues, `turn` the next issue partition of the cycle, `nextId` and `freeCount` the
model's own counters, `oracle` its choices and `agenda` the events and inputs to come. -/
structure State where
  cycle : Nat
  wall : Nat
  mem : Memory
  poison : List Nat
  copies : List Copy
  tlb : List TlbEntry
  wcache : List WalkEntry
  migs : List MigCount
  ctxs : List Context
  nextCtx : Nat
  receives : List Receive
  rxGen : Nat
  held : List Held
  actives : List HeldActive
  firsts : SMap (Nat × Nat)
  sending : List Sending
  slotsUsed : SMap Nat
  pod : Option Nat
  rdy : Word
  dead : BitVec 16
  nfeat : Word
  fsv : Nat
  fuses : Nat
  fsvGoal : Nat
  loader : Bool
  fw : Firmware
  capDone : Bool
  objects : List CodeObject
  recBuf : List (Word × Word)
  journal : List JRec
  jwp : Nat
  jap : Nat
  jdrop : Nat
  chain : List Byte
  seals : List (Nat × List Byte)
  sigIndex : Nat
  reports : List (List Byte)
  driverLog : List Word
  recovering : Bool
  reposts : List (Nat × List Byte)
  droops : List (Nat × Nat)
  cur : Option (Nat × Nat)
  turn : Nat
  nextId : Nat
  freeCount : Nat
  oracle : List Nat
  agenda : List Instr
  deriving DecidableEq, Repr

/-- Why the machine stops with a fault. -/
inductive Fault where
  /-- Raised by an instruction handed to `exec` while no warp is issuing: State.cur names no resident warp with an
  entry to issue. No step reaches it, since step names the warp first; it is safe. -/
  | noIssuer
  deriving DecidableEq, Repr

/-- Why the machine gives no meaning. -/
inductive Refusal where
  /-- Raised by an arm of `exec` whose instruction has no meaning yet; it is safe. -/
  | notModelled (mnemonic : String)
  deriving DecidableEq, Repr

/-- The firmware image that the boot ROM finds (R359; log entry 9). -/
def bootImage : Firmware := { version := Config.fwVersion, security := Config.fwSecurity, verified := Config.fwVerified }
/-- The boot ROM's check (R359): an image that fails verification, or whose security version is below FSV, is not run, and the
recovery loader takes its place. -/
def bootLoader (f : Firmware) (fsv : Nat) : Bool := !f.verified || f.security.toNat < fsv

/-- The package right after reset (R352, R356, R357, R358, R360): no function ready, no context, no port live, nothing
in memory, where the capability table is still to be copied (log entry 93); the values the spec keeps across reset have the first values of log entry 10. -/
def State.reset : State :=
  { cycle := 0, wall := 0, mem := [], poison := [], copies := [], tlb := [], wcache := [], migs := [], ctxs := [], nextCtx := 0,
    receives := [], rxGen := 0, held := [], actives := [], firsts := [], sending := [], slotsUsed := [], pod := none, rdy := 0, dead := 0, nfeat := 1, fsv := 0,
    fuses := 0, fsvGoal := 0, loader := bootLoader bootImage 0, fw := bootImage, capDone := false, objects := [], recBuf := [], journal := [], jwp := 0, jap := 0, jdrop := 0, chain := [], seals := [], sigIndex := 0,
    reports := [], driverLog := [], recovering := false, reposts := [], droops := [], cur := none, turn := 0, nextId := 1, freeCount := 0, oracle := [], agenda := [] }

end Sys2Proof.Machine
end

