-- ==== Sys2Proof/Machine/Ops.lean ====
section
/-! DEFINITION. The named operations over sparse maps, memory, registers and the frontier, the issue of one instruction
(R30 to R54), taking a trap (R340 to R343) and the return from it (R135). -/

namespace Sys2Proof.Machine

/-- The cause codes (R345). -/
inductive Cause where
  | illegalOpc
  | rsvdBits
  | illegalX
  | illegalOperand
  | regUnalloc
  | feEmpty
  | partialMask
  | targetInvalid
  | callUnderflow
  | userTrap
  | breakpoint
  | illegalMode
  | fwcallSvc
  | shflRange
  | csrAccess
  | csrValue
  | retiredHadd
  | retiredHmul
  | retiredHfma
  | retiredBhadd
  | retiredBhmul
  | retiredBhfma
  | retiredBarw
  | retiredLdtex
  | transStale
  | slotUndef
  | slotBlock
  | slotDef
  | fmtInvalid
  | atomSlot
  | memRange
  | memAlign
  | spRange
  | vaultRange
  | privRange
  | placeRange
  | privGrow
  | pteInvalid
  | pageFault
  | permRead
  | permWrite
  | permExec
  | dataError
  | descInvalid
  | cardInvalid
  | copyBounds
  | chanState
  | queueNone
  | mmaShape
  | accShape
  | accState
  | accRange
  | accQuota
  | genState
  | mcastGroup
  | mcastRange
  | mcastFail
  | msgRank
  | msgSize
  | msgPostfull
  | msgHandle
  | msgHandler
  | remoteError
  | spinWatchdog
  | preempt
  | pewterChan
  | pewterCount
  | launchFull
  | launchRecord
  | launchFit
  | alavyInvalid
  | transRevoked
  | killed
  | recovery
  deriving DecidableEq, Repr

/-- The number of a cause (R345). -/
def Cause.code : Cause → Nat
  | .illegalOpc => 0x001
  | .rsvdBits => 0x002
  | .illegalX => 0x003
  | .illegalOperand => 0x004
  | .regUnalloc => 0x005
  | .feEmpty => 0x006
  | .partialMask => 0x007
  | .targetInvalid => 0x008
  | .callUnderflow => 0x009
  | .userTrap => 0x00A
  | .breakpoint => 0x00B
  | .illegalMode => 0x00C
  | .fwcallSvc => 0x00D
  | .shflRange => 0x00E
  | .csrAccess => 0x00F
  | .csrValue => 0x010
  | .retiredHadd => 0x030
  | .retiredHmul => 0x031
  | .retiredHfma => 0x032
  | .retiredBhadd => 0x033
  | .retiredBhmul => 0x034
  | .retiredBhfma => 0x035
  | .retiredBarw => 0x036
  | .retiredLdtex => 0x037
  | .transStale => 0x038
  | .slotUndef => 0x040
  | .slotBlock => 0x041
  | .slotDef => 0x042
  | .fmtInvalid => 0x043
  | .atomSlot => 0x044
  | .memRange => 0x080
  | .memAlign => 0x081
  | .spRange => 0x082
  | .vaultRange => 0x083
  | .privRange => 0x084
  | .placeRange => 0x085
  | .privGrow => 0x086
  | .pteInvalid => 0x087
  | .pageFault => 0x088
  | .permRead => 0x089
  | .permWrite => 0x08A
  | .permExec => 0x08B
  | .dataError => 0x08C
  | .descInvalid => 0x0C0
  | .cardInvalid => 0x0C1
  | .copyBounds => 0x0C2
  | .chanState => 0x0C3
  | .queueNone => 0x0C4
  | .mmaShape => 0x0C5
  | .accShape => 0x0C6
  | .accState => 0x0C7
  | .accRange => 0x0C8
  | .accQuota => 0x0C9
  | .genState => 0x0CA
  | .mcastGroup => 0x100
  | .mcastRange => 0x101
  | .mcastFail => 0x102
  | .msgRank => 0x103
  | .msgSize => 0x104
  | .msgPostfull => 0x105
  | .msgHandle => 0x106
  | .msgHandler => 0x107
  | .remoteError => 0x108
  | .spinWatchdog => 0x140
  | .preempt => 0x141
  | .pewterChan => 0x142
  | .pewterCount => 0x143
  | .launchFull => 0x144
  | .launchRecord => 0x145
  | .launchFit => 0x146
  | .alavyInvalid => 0x147
  | .transRevoked => 0x148
  | .killed => 0x149
  | .recovery => 0x14A

/-! ### Sparse maps -/

/-- The value at a key. -/
def smGet {α : Type} (d : α) (m : SMap α) (i : Nat) : α :=
  match m with
  | [] => d
  | c :: r => if c.1 = i then c.2 else smGet d r i

/-- Inserts an entry before the first greater key. -/
def smInsert {α : Type} (m : SMap α) (i : Nat) (v : α) : SMap α :=
  match m with
  | [] => [(i, v)]
  | c :: r => if i < c.1 then (i, v) :: c :: r else c :: smInsert r i v

/-- Writes a key; writing the default removes the entry. -/
def smPut {α : Type} [DecidableEq α] (d : α) (m : SMap α) (i : Nat) (v : α) : SMap α :=
  let r := m.filter (fun c => c.1 ≠ i)
  if v = d then r else smInsert r i v

/-- Removes every key that satisfies a test. -/
def smDrop {α : Type} (m : SMap α) (p : Nat → Bool) : SMap α := m.filter (fun c => !p c.1)

/-- Keys strictly rise, starting above a bound when one is given. -/
def smRising {α : Type} (lo : Option Nat) (m : SMap α) : Bool :=
  match m with
  | [] => true
  | c :: r => (match lo with | none => true | some b => b < c.1) && smRising (some c.1) r

/-- The canonical form: keys strictly rise and no entry holds the default. -/
def smWf {α : Type} [DecidableEq α] (d : α) (m : SMap α) : Bool := smRising none m && m.all (fun c => c.2 ≠ d)

/-! ### Memory -/

/-- The canonical form of memory. -/
def Memory.wf (m : Memory) : Bool := smWf (0 : Byte) m

/-- What an address reads as (log entry 2). -/
def memByte (m : Memory) (k : Nat) : Byte := smGet 0 m k

/-- Writes one byte. -/
def putByte (m : Memory) (k : Nat) (b : Byte) : Memory := smPut 0 m k b

/-- n bytes from a key up, little-endian (R3). -/
def readBytes (m : Memory) (k : Nat) : Nat → Nat
  | 0 => 0
  | n + 1 => (memByte m k).toNat + 256 * readBytes m (k + 1) n

/-- Writes n bytes from a key up, little-endian (R3). -/
def writeBytes (m : Memory) (k : Nat) : Nat → Nat → Memory
  | 0, _ => m
  | n + 1, v => writeBytes (putByte m k (BitVec.ofNat 8 v)) (k + 1) n (v / 256)

/-- len bits from a bit position on (R60). -/
def readBits (m : Memory) (pos len : Nat) : Nat :=
  ((readBytes m (pos / 8) ((pos % 8 + len + 7) / 8)) >>> (pos % 8)) % 2 ^ len

/-- Replaces len bits from bit sh of a number on. -/
def spliceBits (old sh len v : Nat) : Nat :=
  old ^^^ ((old ^^^ ((v % 2 ^ len) <<< sh)) &&& ((2 ^ len - 1) <<< sh))

/-- Writes exactly len bits from a bit position on (R172). -/
def writeBits (m : Memory) (pos len v : Nat) : Memory :=
  let n := (pos % 8 + len + 7) / 8
  if len = 0 then m else writeBytes m (pos / 8) n (spliceBits (readBytes m (pos / 8) n) (pos % 8) len v)

/-- A run of zero bytes. -/
def zeroBytes (m : Memory) (k n : Nat) : Memory := m.filter (fun c => !(k ≤ c.1 && c.1 < k + n))

/-- One target's share of the key space. -/
def keyTag : Nat := 2 ^ 64
/-- The key of a byte of local HBM (R251). -/
def keyHbm (a : Nat) : Nat := a
/-- The key of a byte of another target, PEER 0x00 to 0x8F (R251, R262). -/
def keyPeer (peer a : Nat) : Nat := (1 + peer) * keyTag + a
/-- The key of a vault byte of a context: cluster number die · 64 + cluster (R13, R256). -/
def keyVault (ctx cl o : Nat) : Nat := (0x100 + ctx * 0x1000 + cl) * keyTag + o
/-- The key of a byte of a context's SRAM array: core number die · 128 + cluster · 2 + core (R12, R252). -/
def keySram (ctx core o : Nat) : Nat := (0x500 + ctx * 0x1000 + core) * keyTag + o

/-! ### Contexts and warps -/

/-- The context of a number. -/
def State.ctx? (s : State) (c : Nat) : Option Context := s.ctxs.find? (fun x => x.id = c)
/-- Puts a context back. -/
def State.setCtx (s : State) (x : Context) : State :=
  { s with ctxs := s.ctxs.map (fun y => if y.id = x.id then x else y) }
/-- The warp of a number. -/
def Context.warp? (x : Context) (u : Nat) : Option Warp := x.warps.find? (fun w => w.uid = u)
/-- Puts a warp back. -/
def Context.setWarp (x : Context) (w : Warp) : Context :=
  { x with warps := x.warps.map (fun y => if y.uid = w.uid then w else y) }
/-- The launch of a number. -/
def Context.launch? (x : Context) (q : Nat) : Option Launch := x.launches.find? (fun l => l.q = q)
/-- Puts a launch back. -/
def Context.setLaunch (x : Context) (l : Launch) : Context :=
  { x with launches := x.launches.map (fun y => if y.q = l.q then l else y) }
/-- The block of a number. -/
def Context.block? (x : Context) (b : Nat) : Option Block := x.blocks.find? (fun y => y.id = b)
/-- A block is swapped out and holds no registers and no scratchpad (R267). -/
def Context.isOut (x : Context) (blk : Nat) : Bool :=
  match x.block? blk with
  | some b => b.swapped.isSome
  | none => false
/-- The context holds its units: it is Running or Draining (R196, R306). -/
def Context.active (x : Context) : Bool := x.state = .running || x.state = .draining
/-- A resident warp runs: its context is active, it is not halted and its block is not swapped out. -/
def Context.runs (x : Context) (w : Warp) : Bool := x.active && !w.halted && !x.isOut w.blk
/-- Puts a block back. -/
def Context.setBlock (x : Context) (b : Block) : Context :=
  { x with blocks := x.blocks.map (fun y => if y.id = b.id then b else y) }

/-- The die of a warp slot number die · 4096 + cluster · 64 + core · 32 + partition · 8 + slot (R10). -/
def widDie (n : Nat) : Nat := n / 4096
/-- The cluster, 8 · y + x (R9). -/
def widCluster (n : Nat) : Nat := n / 64 % 64
/-- The core within its cluster. -/
def widCore (n : Nat) : Nat := n / 32 % 2
/-- The issue partition within its core. -/
def widPart (n : Nat) : Nat := n / 8 % 4
/-- The warp slot within its partition. -/
def widSlot (n : Nat) : Nat := n % 8
/-- The core's number in the package, die · 128 + cluster · 2 + core. -/
def widCoreNo (n : Nat) : Nat := n / 32
/-- The cluster's number in the package, die · 64 + cluster. -/
def widClusterNo (n : Nat) : Nat := n / 64

/-! ### Registers -/

/-- The key of a vector register in a lane. -/
def vkey (r t : Nat) : Nat := r * 32 + t

/-- ReadV (R7). -/
def Warp.readV (w : Warp) (r t : Nat) : Word := smGet 0 w.vregs (vkey r t)
/-- WriteV (R7): the register becomes full with its value (R89, R91). -/
def Warp.writeV (w : Warp) (r t : Nat) (x : Word) : Warp :=
  { w with vregs := smPut 0 w.vregs (vkey r t) x, vmarks := smPut .full w.vmarks (vkey r t) .full }
/-- The full/empty state of a vector register in a lane (R88). -/
def Warp.vmark (w : Warp) (r t : Nat) : Mark := smGet .full w.vmarks (vkey r t)
/-- Sets the full/empty state (R89). -/
def Warp.markV (w : Warp) (r t : Nat) (m : Mark) : Warp := { w with vmarks := smPut .full w.vmarks (vkey r t) m }
/-- ReadS (R7). -/
def Warp.readS (w : Warp) (r : Nat) : Word := smGet 0 w.sregs r
/-- WriteS (R7). -/
def Warp.writeS (w : Warp) (r : Nat) (x : Word) : Warp :=
  { w with sregs := smPut 0 w.sregs r x, smarks := smPut .full w.smarks r .full }
/-- The full/empty state of a uniform register (R88). -/
def Warp.smark (w : Warp) (r : Nat) : Mark := smGet .full w.smarks r
/-- Sets the full/empty state of a uniform register (R89). -/
def Warp.markS (w : Warp) (r : Nat) (m : Mark) : Warp := { w with smarks := smPut .full w.smarks r m }
/-- A predicate in every lane; p15 reads one (R29). -/
def Warp.pred (w : Warp) (p : Nat) : Mask := if p = 15 then BitVec.allOnes 32 else smGet 0 w.preds p
/-- The number of a register of a class among those that carry an error mark of their own (R269): 2 predicates, 3 slots, 4 tile
descriptors, 5 accumulator handles. -/
def faultKey (cls n : Nat) : Nat := cls * 256 + n
/-- A register written whole is in error no longer (R269). -/
def Warp.mend (w : Warp) (cls n : Nat) : Warp := { w with faults := w.faults.filter (fun k => k ≠ faultKey cls n) }
/-- Writes a predicate in the lanes of a set; a write of p15 is discarded (R86). -/
def Warp.setPred (w : Warp) (p : Nat) (lanes vals : Mask) : Warp :=
  if p = 15 then w
  else { w with preds := smPut 0 w.preds p ((smGet 0 w.preds p &&& ~~~lanes) ||| (vals &&& lanes))
                faults := if lanes = BitVec.allOnes 32 then w.faults.filter (fun k => k ≠ faultKey 2 p) else w.faults }
/-- The definition of a slot (R7, R55). -/
def Warp.slot (w : Warp) (f : Nat) : Fmt := Fmt.ofWord (smGet 0 w.slots f)
/-- Writes the word of a slot (R128). -/
def Warp.setSlot (w : Warp) (f : Nat) (x : Word) : Warp := { w.mend 3 f with slots := smPut 0 w.slots f x }
/-- Writes a tile descriptor (R180). -/
def Warp.setTdesc (w : Warp) (t : Nat) (d : BitVec 256) : Warp := { w.mend 4 t with tdescs := smPut 0 w.tdescs t d }
/-- A tile descriptor (R179). -/
def Warp.tdesc (w : Warp) (t : Nat) : BitVec 256 := smGet 0 w.tdescs t
/-- An accumulator handle that holds nothing (R199). -/
def Acc.empty : Acc := { tile := none, zero := false, err := false, pend := 0 }
/-- The state of an accumulator handle (R199). -/
def Warp.acc (w : Warp) (a : Nat) : Acc := smGet Acc.empty w.accs a
/-- Sets the state of an accumulator handle, which does not write it: its count of operations and its flags (R199). -/
def Warp.markAcc (w : Warp) (a : Nat) (x : Acc) : Warp := { w with accs := smPut Acc.empty w.accs a x }
/-- Writes an accumulator handle, which is then in error no longer (R269). -/
def Warp.setAcc (w : Warp) (a : Nat) (x : Acc) : Warp := (w.mend 5 a).markAcc a x
/-- Writes the lanes of a set of a vector register, in ascending order. -/
def Warp.writeLanes (w : Warp) (r : Nat) (lanes : Mask) (f : Nat → Word) : Warp :=
  lanes.lanes.foldl (fun w t => w.writeV r t (f t)) w

/-! ### The frontier -/

/-- Frontier order (R31): higher priority first, then lower PC; of two entries with one pair the one that is not parked
stands first. -/
def Entry.before (a b : Entry) : Bool :=
  b.pri < a.pri || (a.pri = b.pri && (a.pc < b.pc || (a.pc = b.pc && !a.parked && b.parked)))

/-- Equal pair and parked state (R30). -/
def Entry.same (a b : Entry) : Bool := a.pri = b.pri && a.pc = b.pc && a.parked = b.parked

/-- The merge of two entries (R30): the smaller stamp (R39), demoted only if both are (R42), the grant of either (R41). -/
def Entry.join (a b : Entry) : Entry :=
  { a with mask := a.mask ||| b.mask, stamp := min a.stamp b.stamp, demoted := a.demoted && b.demoted,
           granted := a.granted || b.granted }

/-- Adds an entry to a frontier in frontier order, merging it with an equal one (R30). -/
def insertEntry (e : Entry) : List Entry → List Entry
  | [] => [e]
  | x :: r => if e.same x then x.join e :: r else if e.before x then e :: x :: r else x :: insertEntry e r

/-- Merges a list of entries into a frontier (R30). -/
def mergeEntries (es : List Entry) : List Entry := es.foldl (fun acc e => insertEntry e acc) []

/-- Clears the demotion mark of the only entry that is not parked (R42). -/
def soloDemotion (es : List Entry) : List Entry :=
  if (es.filter (fun e => !e.parked)).length = 1 then
    es.map (fun e => if e.parked then e else { e with demoted := false })
  else es

/-- The top entry (R31). -/
def topEntry (es : List Entry) : Option Entry :=
  match es.find? (fun e => !e.parked && !e.demoted) with
  | some e => some e
  | none => es.find? (fun e => !e.parked)

/-- CTX.PROG (R38). -/
def Context.prog (x : Context) : Bool := x.ctx.getLsbD 0
/-- FAIRT.LIMIT (R38). -/
def Context.limit (x : Context) : Nat := natBits x.fairt.toNat 15 0
/-- FAIRQ.GRANT (R38). -/
def Context.quota (x : Context) : Nat := natBits x.fairq.toNat 15 0
/-- WDOG.LIMIT (R38). -/
def Context.watchdog (x : Context) : Nat := natBits x.wdog.toNat 31 0

/-- The entry that holds an active grant (R41). -/
def grantEntry (prog : Bool) (w : Warp) : Option Entry :=
  if prog && 0 < w.grantLeft && w.mode = .program then w.frontier.find? (fun e => e.granted && !e.parked) else none

/-- The entry that issues (R31, R41). -/
def selectEntry (prog : Bool) (w : Warp) : Option Entry :=
  match grantEntry prog w with
  | some e => some e
  | none => topEntry w.frontier

/-- A hold under which the entry has not issued and is tried again (R32). -/
def Park.isRetry : Park → Bool
  | .retrySources _ | .retryLines _ | .retryRing _ _ | .retryQueue _ | .retryHandle _ => true
  | _ => false

/-- A warp does not issue: it has issued and waits, or it is parked whole on a scratchpad line that is still absent (R32, R166). -/
def Context.parked (x : Context) (k : Park) : Bool :=
  match k with
  | .retryLines ls => ls.any x.absent.contains
  | k => !k.isRetry

/-! ### One issue -/

/-- What one issue works on: the package, the context, the warp and the entry as the issue began; whether the entry is
the top one and another entry that is not parked exists (R246); P; the word; and what the issue gives: threads that
transfer (lane, PC, priority), threads that exit, threads that leave the frontier into a generator region (R222, R223),
threads that park in WJOIN with bound and predicate, YIELD. -/
structure Env where
  dev : State
  ctx : Context
  w : Warp
  e : Entry
  top : Bool
  more : Bool
  spin : Bool
  p : Mask
  ins : Instr
  word : Word
  moves : List (Nat × PC × BitVec 8)
  dead : Mask
  out : Mask
  join : Option (Mask × Nat × BitVec 8)
  yielded : Bool

/-- What a trap reports (R340, R345), the journal records of the errors that it consumes, as source and location (R349), and
the addresses of remote errors, of which the driver is told (R324). -/
structure TrapInfo where
  cause : Cause
  tval : Word
  mask : Mask
  recs : List (Word × Word) := []
  told : List Word := []

/-- How an attempt to issue ends: with its effect, with a trap, or not at all yet (R32). -/
inductive Res where
  | done (env : Env)
  | trap (t : TrapInfo)
  | hold (k : Park)

/-- How an instruction uses a slot: a scalar slot, a block-scaled one, or either (R57). -/
inductive SlotUse where
  | scalar | block | any
  deriving DecidableEq, Repr

/-- What is particular to an instruction's checks (R97) and to its count of issues (R43): a whole-warp issue (R33), a
slot immediate (R92), a reset of WC when P is not empty, the reset of a branch; the lanes in which a source is read
(R90), with the registers of the source, counted from its first, that are read in a lane; the slots it uses; what it waits for
as for an empty source, whatever its guards (R207); and a cause of its own entry that reads no source (R157). -/
structure Opts where
  whole : Bool
  imm : Bool
  reset : Bool
  branch : Bool
  lanes : Env → Fld → Mask
  reads : Env → Nat → Nat → Bool
  slots : Env → List (Nat × SlotUse)
  busy : Env → Option Park
  early : Env → Option Res

/-- PC + 8 (R34). -/
def Env.next (env : Env) : PC := env.e.pc + 8

/-- Bits hi down to lo of the instruction's body. -/
def Env.field (env : Env) (hi lo : Nat) : Nat := Sys2Proof.field env.ins.bodyBits hi lo

/-- The value of F (R83). -/
def Env.fSlot (env : Env) : Nat := env.field 15 12

/-- The ordinary case: every active thread's sources, and F as a scalar slot where the form names one. -/
def Opts.plain : Opts :=
  { whole := false, imm := false, reset := false, branch := false, lanes := fun env _ => env.e.mask, reads := fun _ _ _ => true
    slots := fun env => if (formOf env.ins).slot then [(env.fSlot, .scalar)] else []
    busy := fun _ => none, early := fun _ => none }

/-- The guard of each thread (R7, R82). -/
def guardMask (w : Warp) (pg : Nat) (pn : Bool) : Mask := if pn then ~~~(w.pred pg) else w.pred pg

/-- The warp as its next issue finds it: resets of R130 applied, to what a handler set aside too, no grant with PROG = 0 (R38). -/
def Warp.opened (w : Warp) (prog : Bool) : Warp :=
  let held := prog && !w.grantClear
  { w with fc := if w.fcClear || !prog then 0 else w.fc, wc := if w.wcClear then 0 else w.wc,
           fcClear := false, wcClear := false, grantClear := false, grantLeft := if held then w.grantLeft else 0,
           grantDue := if held then w.grantDue else 0
           saved := w.saved.map (fun sv => { sv with
             wc := if w.wcClear then 0 else sv.wc, grantLeft := if held then sv.grantLeft else 0 }) }

/-- Opens the issue of a word for the entry that the warp issues next; none where no warp is named or it may not
issue. -/
def openIssue (ins : Instr) (word : Word) (s : State) : Option Env :=
  match s.cur with
  | none => none
  | some cu =>
    match s.ctx? cu.1 with
    | none => none
    | some x =>
      match x.warp? cu.2 with
      | none => none
      | some w0 =>
        let ready := !w0.halted && (match w0.park with | none => true | some k => !x.parked k)
        let w := { w0.opened x.prog with park := none }
        match (if ready then selectEntry x.prog w else none) with
        | none => none
        | some e =>
          some { dev := s, ctx := x, w := w, e := e, top := topEntry w.frontier = some e
                 more := w.frontier.any (fun y => !y.parked && y ≠ e)
                 spin := x.watchdog ≠ 0 && w.wc + 1 = x.watchdog
                 p := e.mask &&& guardMask w (Sys2Proof.field word.toNat 55 52) (word.getLsbD 51)
                 ins := ins, word := word, moves := [], dead := 0, out := 0, join := none, yielded := false }

/-- Puts the warp and the context back. -/
def Env.commit (env : Env) : State := env.dev.setCtx (env.ctx.setWarp env.w)

/-! ### Checks 2 and 4 to 8 of R97 -/

/-- The size of a register class (R86). -/
def Cls.size : Cls → Nat
  | .vec => 256
  | .uni => 64
  | .pred => 16
  | .slot => 16
  | .tdesc => 16
  | .acc => 32

/-- The number in an operand's field of a body (R86). -/
def Fld.num (f : Fld) (body : Nat) : Nat :=
  match f with
  | .D => Sys2Proof.field body 47 40
  | .A => Sys2Proof.field body 39 32
  | .B => Sys2Proof.field body 31 24
  | .C => Sys2Proof.field body 23 16

/-- The number in an operand's field (R86). -/
def Env.num (env : Env) (f : Fld) : Nat := f.num env.ins.bodyBits

/-- Inside its class but outside the warp's allocation (R45, R86). -/
def Env.unalloc (env : Env) (o : Opnd) : Bool :=
  match o.cls with
  | .vec => env.w.nregs < env.num o.fld + o.n
  | .tdesc => env.w.tdn < env.num o.fld + o.n
  | _ => false

/-- The spare bits of a slot immediate (R92), for a scalar slot that is defined. -/
def immSpare (f : Fmt) (imm : Nat) : Bool :=
  f.val && f.blk = 0 &&
    (if f.width ≤ 8 then natBits imm 7 0 ≥ 2 ^ f.width || natBits imm 15 8 ≥ 2 ^ f.width
     else if f.width ≤ 15 then imm ≥ 2 ^ f.width else false)

/-- A trap with the instruction word and every thread of the entry (R98). -/
def Env.wordTrap (env : Env) (c : Cause) : Res := .trap { cause := c, tval := env.word, mask := env.e.mask }

/-- Whether a slot breaks the use that an instruction makes of it (R57). -/
def SlotUse.broken (u : SlotUse) (f : Fmt) : Bool :=
  match u with
  | .scalar => f.isBlk
  | .block => !f.isBlk
  | .any => false

/-- The registers of a source operand. -/
def Env.regs (env : Env) (o : Opnd) : List Nat := (List.range o.n).map (fun k => env.num o.fld + k)

/-- The lanes in which a source holds a mark that satisfies a test; every thread of the entry for a uniform register. -/
def Env.marked (env : Env) (opts : Opts) (o : Opnd) (test : Mark → Bool) : Mask :=
  match o.cls with
  | .vec => Mask.ofPred (fun t => (opts.lanes env o.fld).has t &&
      (List.range o.n).any (fun k => opts.reads env k t && test (env.w.vmark (env.num o.fld + k) t)))
  | .uni => if (env.regs o).any (fun r => test (env.w.smark r)) then env.e.mask else 0
  | _ => 0

/-- Empty and not poisoned (R88, R160). -/
def Mark.isEmpty : Mark → Bool
  | .empty _ => true
  | _ => false
/-- Poisoned by a local access, or in error (R160, R269). -/
def Mark.isBad : Mark → Bool
  | .poison _ remote => !remote
  | .regError => true
  | _ => false
/-- Poisoned by a failed remote access (R324). -/
def Mark.isRemote : Mark → Bool
  | .poison _ remote => remote
  | _ => false

/-- The signed object of a context that holds an address (R347). -/
def State.objectAt (s : State) (c a : Nat) : Option CodeObject :=
  s.objects.find? (fun o => o.ctx = c && o.base ≤ a && a < o.base + o.size)

/-- The translation generation of the code that holds an address, as the issuing warp runs it; 0 for native code (R35, R104). -/
def Env.genAt (env : Env) (pc : PC) : Nat :=
  match env.dev.objectAt env.ctx.id pc.toNat with
  | some o => smGet 0 env.w.gens o.base
  | none => 0

/-- A source waits when it is empty (R90): its W bit, or a field that has none, or translated code (R103). -/
def Env.waits (env : Env) (o : Opnd) : Bool :=
  let b := o.fld.wBit (formOf env.ins).fmt
  b = 0 || env.genAt env.e.pc ≠ 0 || env.ins.bodyBits &&& b ≠ 0

/-- Field order of R345. -/
def Fld.rank : Fld → Nat
  | .A => 0
  | .B => 1
  | .C => 2
  | .D => 3

/-- The first operand in the order A, B, C, D. -/
def firstOpnd (os : List Opnd) : Option Opnd :=
  [Fld.A, Fld.B, Fld.C, Fld.D].findSome? (fun f => os.find? (fun o => o.fld = f))

/-- The sources of an instruction that are vector or uniform registers. -/
def Env.sources (env : Env) : List Opnd := (formOf env.ins).ops.filter (fun o => o.src && (o.cls = .vec || o.cls = .uni))

/-- What a poisoned register reports: the address of the access, or the register's number (R160, R269, R324, R345). -/
def Mark.report (m : Mark) (r : Nat) : Word := match m with | .poison a _ => a | _ => BitVec.ofNat 64 r

/-- What a result takes with it from a register that is poisoned or in error (R160, R269, R324): for one in error, the register's
number. -/
def Mark.carried (m : Mark) (r : Nat) : Option BadData :=
  match m with
  | .poison a remote => some { addr := a, remote := remote, keys := [] }
  | .regError => some { addr := BitVec.ofNat 64 r, remote := false, keys := [] }
  | _ => none

/-- What an operand reports in a lane: its first register whose mark satisfies a test. -/
def Env.poisonIn (env : Env) (opts : Opts) (test : Mark → Bool) (lane : Nat) (o : Opnd) : Option Word :=
  if !(env.marked opts o test).has lane then none
  else (env.regs o).findSome? (fun r =>
    let m := if o.cls = .uni then env.w.smark r else env.w.vmark r lane
    if test m && (o.cls = .uni || opts.reads env (r - env.num o.fld) lane) then some (m.report r) else none)

/-- The source word of a record (R350). -/
def srcWord (typ unit die cluster : BitVec 8) (idx : BitVec 32) : Word := typ ++ unit ++ die ++ cluster ++ idx

/-- The record of a register in error that an instruction reads (R269, R349, R350): its warp slot and its number. -/
def Warp.errorRec (w : Warp) (r : Nat) : Word × Word :=
  (srcWord 0x02 0x05 (BitVec.ofNat 8 (widDie w.wid)) (BitVec.ofNat 8 (widCluster w.wid)) (BitVec.ofNat 32 (w.wid % 64)), BitVec.ofNat 64 r)

/-- The records of an operand's registers that are in error, one for each register and lane (R349). -/
def Env.errorRecs (env : Env) (m : Mask) (o : Opnd) : List (Word × Word) :=
  (env.regs o).flatMap (fun r =>
    if o.cls = .uni then (if env.w.smark r = .regError then [env.w.errorRec r] else [])
    else (m.lanes.filter (fun t => env.w.vmark r t = .regError)).map (fun _ => env.w.errorRec r))

/-- The trap of the sources whose marks satisfy a test (R160, R342): every thread that reads one, and what the first of the
fields A, B, C, D reports in the lowest of them. -/
def Env.poisonOf (env : Env) (opts : Opts) (os : List Opnd) (test : Mark → Bool) (c : Cause) : Option TrapInfo :=
  let m := os.foldl (fun m o => m ||| env.marked opts o test) (0 : Mask)
  if m = 0 then none
  else some { cause := c, mask := m, recs := os.flatMap (env.errorRecs m)
              tval := ([Fld.A, Fld.B, Fld.C, Fld.D].findSome? (fun f =>
                (os.filter (fun o => o.fld = f)).findSome? (env.poisonIn opts test m.low))).getD 0 }


/-- The number of the class of an operand among those with an error mark of their own (R269); 0 for the others. -/
def Cls.faultClass : Cls → Nat
  | .pred => 2
  | .slot => 3
  | .tdesc => 4
  | .acc => 5
  | _ => 0

/-- The predicates, slots, descriptors and handles that an instruction reads: its guard, its sources and its slots; PMOV reads every
predicate (R125). -/
def Env.readsFaulty (env : Env) (opts : Opts) : List (Nat × Nat) :=
  (2, Sys2Proof.field env.word.toNat 55 52) ::
    (((formOf env.ins).ops.filter (fun o => o.src && o.cls.faultClass ≠ 0)).flatMap (fun o => (env.regs o).map (fun r => (o.cls.faultClass, r))) ++
      (opts.slots env).map (fun q => (3, q.1)) ++
      (match env.ins with | .pmov _ => (List.range 15).map (fun i => (2, i)) | _ => []))

/-- DATA_ERROR of a register in error that is neither vector nor uniform (R269): every thread of the entry, and the number of the
first that the instruction reads. -/
def Env.faultTrap (env : Env) (opts : Opts) : Option TrapInfo :=
  let bad := (env.readsFaulty opts).filter (fun q => env.w.faults.contains (faultKey q.1 q.2))
  match bad with
  | [] => none
  | q :: _ => some { cause := .dataError, tval := BitVec.ofNat 64 q.2, mask := env.e.mask, recs := bad.map (fun q => env.w.errorRec q.2) }

/-- Two traps of one cause: every thread of either, with what the lowest of them reports (R342). -/
def TrapInfo.both (a b : TrapInfo) : TrapInfo :=
  { a with mask := a.mask ||| b.mask, tval := if a.mask.low ≤ b.mask.low then a.tval else b.tval, recs := a.recs ++ b.recs }

/-- DATA_ERROR of a source that is poisoned or in error, and of any other register in error that the instruction reads (R160,
R269). -/
def Env.dataTrap (env : Env) (opts : Opts) (os : List Opnd) : Option TrapInfo :=
  match env.poisonOf opts os Mark.isBad .dataError, env.faultTrap opts with
  | some a, some b => some (a.both b)
  | a, b => a.or b

/-- A trap of a poisoned source, or of a register in error (R160, R269, R324). REMOTE_ERROR stands before DATA_ERROR in the table of
R197, for opcodes 0x70 to 0xA9, and after it in those of R137, R157 and R229. -/
def Env.poisonTrap (env : Env) (opts : Opts) (os : List Opnd) : Option TrapInfo :=
  let data := env.dataTrap opts os
  let remote := env.poisonOf opts os Mark.isRemote .remoteError
  let opc := natBits env.word.toNat 63 56
  if 0x70 ≤ opc && opc ≤ 0xA9 then remote.or data else data.or remote

/-- A trap of a poisoned source of the instruction, or of a register in error. -/
def Env.poison (env : Env) (opts : Opts) : Option TrapInfo := env.poisonTrap opts env.sources

/-- PARTIAL_MASK: the entry does not hold every live thread (R33). -/
def Env.isPartial (env : Env) (opts : Opts) : Bool := opts.whole && env.e.mask ≠ env.w.live

/-- Checks 2 and 4 to 8 of R97, in order, and the wait for an empty source (R90), which a poisoned one ends (R160), behind a cause of
the entry that reads no source, where a thread of P can raise it; none when they pass. UFMASK and UTVAL of FE_EMPTY take in the sources
read under W = 0 only (log entry 100). -/
def gate (opts : Opts) (env : Env) : Option Res :=
  let f := formOf env.ins
  let sl := opts.slots env
  let empties := env.sources.filter (fun o => env.marked opts o Mark.isEmpty ≠ 0)
  let bare := empties.filter (fun o => !env.waits o)
  if opts.imm && immSpare (env.w.slot env.fSlot) (env.field 31 16) then some (env.wordTrap .rsvdBits)
  else if f.ops.any (fun o => o.cls.size < env.num o.fld + o.n) then some (env.wordTrap .illegalOperand)
  else if f.ops.any env.unalloc then some (env.wordTrap .regUnalloc)
  else match sl.find? (fun q => !(env.w.slot q.1).val) with
  | some q => some (.trap { cause := .slotUndef, tval := BitVec.ofNat 64 q.1, mask := env.e.mask })
  | none =>
    match sl.find? (fun q => q.2.broken (env.w.slot q.1)) with
    | some q => some (.trap { cause := .slotBlock, tval := BitVec.ofNat 64 q.1, mask := env.e.mask })
    | none =>
      match firstOpnd bare with
      | some o => some (.trap { cause := .feEmpty, tval := BitVec.ofNat 64 (env.num o.fld)
                                mask := bare.foldl (fun m o => m ||| env.marked opts o Mark.isEmpty) 0 })
      | none =>
        if empties ≠ [] || (opts.busy env).isSome then
          match env.poison opts with
          | some t => some (if env.isPartial opts then env.wordTrap .partialMask
              else (if env.p = 0 then none else opts.early env).getD (.trap t))
          | none => some (.hold ((opts.busy env).getD (.retrySources (empties.map (fun o => env.num o.fld)))))
        else if env.isPartial opts then some (env.wordTrap .partialMask)
        else none

/-- Checks 2 and 4 to 8 of R97, and no source that is empty or poisoned; none when they pass. -/
def precheck (opts : Opts) (env : Env) : Option Res :=
  match gate opts env with
  | some r => some r
  | none => (env.poison opts).map Res.trap

/-! ### Generator regions -/

/-- The filling frame of a region (R222). -/
def Region.fill (g : Region) : List (Word × Nat) := if g.filling = 0 then g.frame0 else g.frame1
/-- A frame of a region. -/
def Region.frame (g : Region) (k : Nat) : List (Word × Nat) := if k = 0 then g.frame0 else g.frame1
/-- Sets a frame of a region. -/
def Region.setFrame (g : Region) (k : Nat) (f : List (Word × Nat)) : Region :=
  if k = 0 then { g with frame0 := f } else { g with frame1 := f }

/-- The conditions of R224 under a GENCFG value; `drain` lets an empty frame drain (R225). -/
def Region.switches (g : Region) (cfg : Word) (live : Mask) (drain : Bool) : Bool :=
  let q := (g.producers &&& live).count
  let n := g.fill.length
  let cmin := max 1 (natBits cfg.toNat 13 8)
  32 ≤ n || (q = 0 && (drain || n ≠ 0)) || (q ≤ natBits cfg.toNat 4 0 && cmin ≤ n && q ≠ 0)

/-- The (priority, PC) pair of a thread in a frontier. -/
def pairOf (fr : List Entry) (t : Nat) : BitVec 8 × PC :=
  match fr.find? (fun e => e.mask.has t) with
  | some e => (e.pri, e.pc)
  | none => (0, 0)

/-- Starts a consumer pass on the filling frame (R224, R315): every live thread forms one entry at the consumer body. A
frame made full leaves its pair as the filling frame. A grant stays with its threads (log entry 58). -/
def Warp.startPass (w : Warp) (g : Region) : Warp :=
  let granted := w.frontier.any (fun e => e.granted && !e.parked)
  { w with
    frontier := [⟨g.tpri, g.cons, w.live, false, w.issues, false, granted⟩]
    region := some { g with drain := some g.filling, arrived := 0, next := [], due := false
                            filling := if 32 ≤ g.fill.length then 1 - g.filling else g.filling } }

/-- The switch of R224: each live producer's next pair is saved, and the first pass starts. Producers that stand in a WJOIN
are saved at its address, and its wait runs on (log entry 59). -/
def Warp.switchOver (w : Warp) (g : Region) : Warp :=
  w.startPass { g with saved := g.producers.lanes.foldl (fun m t => smPut (0, 0) m t (pairOf w.frontier t)) [] }

/-- The end of a pass (R225). A grant ends with it, unless a pass follows at once (log entry 58). -/
def Warp.endPass (w : Warp) (cfg : Word) (g : Region) (k : Nat) : Warp :=
  let g := { g.setFrame k [] with drain := none }
  let live := g.producers &&& w.live
  if g.switches cfg w.live false then w.startPass g
  else if live ≠ 0 then
    { w with
      frontier := soloDemotion (mergeEntries (live.lanes.map (fun t =>
        let q := smGet (0, 0) g.saved t
        ⟨q.1, q.2, BitVec.ofNat 32 (2 ^ t), false, w.issues, false, false⟩)))
      region := some { g with saved := [], arrived := 0 } }
  else { w with region := none, frontier := mergeEntries (w.live.lanes.map (fun t =>
      ⟨g.tpri, smGet 0 g.next t, BitVec.ofNat 32 (2 ^ t), false, w.issues, false, false⟩)) }

/-- What follows each issue in program mode inside a region (R223 to R225, R305, R317, R318): the switch test in producer
mode, the end of a pass in consumer mode. -/
def Warp.regionStep (w : Warp) (cfg : Word) : Warp :=
  match w.region with
  | none => w
  | some g0 =>
    let g := { g0 with producers := g0.producers &&& w.live }
    if w.mode ≠ .program then w
    else if w.live = 0 then { w with region := none }
    else match g.drain with
    | none =>
      if g.switches cfg w.live true then w.switchOver g else { w with region := some g }
    | some k => if w.live &&& g.arrived = w.live then w.endPass cfg g k else { w with region := some g }

/-- The switch test after an issue in producer mode that traps, or that waits at a FENCE (R305): a switch that is due waits for the
return of the threads in the handler (log entry 57), or for the end of the fence, behind which the warp issues nothing, but for the
pre-emption signal (`Warp.switchEarly`). -/
def Warp.regionTrap (w : Warp) (cfg : Word) : Warp :=
  match w.region with
  | none => w
  | some g0 =>
    let g := { g0 with producers := g0.producers &&& w.live }
    if w.mode = .program && g.drain.isNone && w.live ≠ 0 && g.switches cfg w.live true then
      { w with region := some { g with due := true } }
    else w

/-- What follows an issue that has its effect, inside a region: the switch test, whose switch waits for the end of a FENCE, or the end of
a pass. -/
def Warp.afterIssue (w : Warp) (cfg : Word) : Warp :=
  match w.park with
  | some (.fence _ _ _ _ _ _ _ _) => w.regionTrap cfg
  | _ => w.regionStep cfg

/-- Carries out a switch that a trapping issue, or a FENCE, found due, once the warp is in program mode again. -/
def Warp.regionBack (w : Warp) : Warp :=
  match w.region with
  | none => w
  | some g0 =>
    let g := { g0 with producers := g0.producers &&& w.live }
    if g.due && g.drain.isNone && w.mode = .program && w.live ≠ 0 then w.switchOver g else w

/-- The threads of an entry that stand at a FENCE go on to PC + 8. -/
def Warp.stepOver (w : Warp) (pc : PC) (act : Mask) : Warp :=
  { w with frontier := mergeEntries (w.frontier.map (fun e =>
      if e.pc = pc && !e.parked && e.mask &&& act ≠ 0 then { e with pc := pc + 8 } else e)) }

/-- A switch was made ahead of the end of the FENCE that found it due (R319): the region keeps `due` in consumer mode till then. -/
def Warp.switchedEarly (w : Warp) : Bool :=
  w.mode = .program && (match w.region with | some g => g.due && g.drain.isSome | none => false)

/-- What the pre-emption signal finds (R319): a switch that a FENCE found due takes effect first, so that the frontier saved is that of
consumer mode; the fence's wait goes on. -/
def Warp.switchEarly (w : Warp) : Warp :=
  match w.park, w.region with
  | some (.fence _ _ _ _ _ _ pc act), some g =>
    if g.due && g.drain.isNone && w.mode = .program && w.live ≠ 0 then
      let v := (w.stepOver pc act).regionBack
      { v with region := v.region.map (fun g => { g with due := true }) }
    else w
  | _, _ => w

/-- A FENCE that traps after such a switch traps its threads at the fence (R175, R324): the warp is in producer mode again, and the switch
is due once more when they are back (log entry 57). -/
def Warp.undoSwitch (w : Warp) (pc : PC) (act : Mask) : Warp :=
  match w.region with
  | none => w
  | some g =>
    match g.drain with
    | none => w
    | some k =>
      { w with
        frontier := soloDemotion (mergeEntries ((g.producers &&& w.live).lanes.map (fun t =>
          let q := smGet (0, 0) g.saved t
          ⟨q.1, if act.has t then pc else q.2, BitVec.ofNat 32 (2 ^ t), false, w.issues, false, false⟩)))
        region := some { g with drain := none, filling := k, saved := [], due := true } }

/-! ### Counting an issue, moving its threads, WJOIN -/

/-- FC and the grant after an issue (R40, R41): held in user-handler mode (R340), 0 with PROG = 0 or under a grant. -/
def Warp.countFc (w : Warp) (x : Context) (e : Entry) (top more : Bool) : Warp :=
  if w.mode ≠ .program then w
  else match grantEntry x.prog w with
  | some g => { w with fc := 0, grantLeft := if g = e then w.grantLeft - 1 else w.grantLeft }
  | none =>
    if x.prog && top && more then
      { w with fc := w.fc + 1, grantDue := if w.fc + 1 = x.limit then x.quota else w.grantDue }
    else { w with fc := 0 }

/-- Where a thread of the issuing entry goes (R34): where its transfer sends it, else to PC + 8 at its priority. -/
def Env.dest (env : Env) (t : Nat) : BitVec 8 × PC × Bool :=
  match env.moves.find? (fun m => m.1 = t) with
  | some m => (m.2.2, m.2.1, false)
  | none => (env.e.pri, env.next, false)

/-- A thread of the issuing entry that the issue neither ends nor takes out of the frontier. -/
def Env.remains (env : Env) (t : Nat) : Bool := env.e.mask.has t && !env.dead.has t && !env.out.has t

/-- A thread that the issue parks in WJOIN (R44). -/
def Env.parks (env : Env) (t : Nat) : Bool := match env.join with | some j => j.1.has t | none => false

/-- Where a thread of the issuing entry stands after the issue: parked where it is, or where it goes. -/
def Env.stands (env : Env) (t : Nat) : BitVec 8 × PC × Bool :=
  if env.parks t then (env.e.pri, env.e.pc, true) else env.dest t

/-- The threads of the issuing entry after the issue, as entries (R34): one for each pair and parked state, all with the stamp n
(R39). -/
def successors (env : Env) (n : Nat) (demoted : Bool) : List Entry :=
  mergeEntries ((allLanes.filter env.remains).map (fun t =>
    ⟨(env.stands t).1, (env.stands t).2.1, BitVec.ofNat 32 (2 ^ t), (env.stands t).2.2, n, demoted, false⟩))

/-- Gives the grant of an entry that has split to the first of its successors, in frontier order, that is not parked (R41; log
entry 60). -/
def grantFirst (es : List Entry) : List Entry :=
  match es with
  | [] => []
  | e :: r => if e.parked then e :: grantFirst r else { e with granted := true } :: r

/-- The oldest entry that is not parked, the earlier in frontier order on a tie (R40). -/
def oldestEntry (es : List Entry) : Option Entry :=
  (es.filter (fun e => !e.parked)).foldl
    (fun b e => match b with | none => some e | some x => if e.stamp < x.stamp then some e else some x) none

/-- Ends a grant whose threads have all left the frontier or parked (R41). -/
def Warp.dropGrant (w : Warp) : Warp :=
  if w.frontier.any (fun e => e.granted && !e.parked) then w
  else { w with grantLeft := 0, frontier := w.frontier.map (fun e => { e with granted := false }) }

/-- Whether a WJOIN wait belongs to the frontier that is issuing (R44). -/
def WJoin.here (j : WJoin) (w : Warp) : Bool := j.handler == (w.mode ≠ .program)

/-- Releases the threads parked at an address, with the predicate (R44). -/
def Warp.releaseJoin (w : Warp) (j : WJoin) (bit : Bool) : Warp :=
  let out := w.frontier.filter (fun e => e.parked && e.pc = j.pc)
  let lanes := out.foldl (fun m e => m ||| e.mask) (0 : Mask)
  let freed := out.map (fun e => { e with parked := false, pc := j.pc + 8 })
  let w := w.setPred j.d.toNat lanes (if bit then lanes else 0)
  { w with frontier := soloDemotion (mergeEntries (w.frontier.filter (fun e => !(e.parked && e.pc = j.pc)) ++ freed))
           wjoins := w.wjoins.filter (fun k => !(k.pc = j.pc && k.handler == j.handler)) }

/-- Whether every live thread is parked at the address of a wait (R44). -/
def Warp.joinMet (w : Warp) (j : WJoin) : Bool :=
  j.here w && !w.frontier.isEmpty && w.frontier.all (fun e => e.parked && e.pc = j.pc) &&
    (w.mode ≠ .program || w.frontier.foldl (fun m e => m ||| e.mask) (0 : Mask) = w.live)

/-- Step 5 of R51. -/
def Warp.joinStep (w : Warp) : Warp :=
  match w.wjoins.find? w.joinMet with
  | some j => w.releaseJoin j true
  | none => w

/-- Starts the wait of a WJOIN unless one stands at its address (R44). -/
def Warp.startJoin (w : Warp) (pc : PC) (left : Nat) (d : BitVec 8) : Warp :=
  let h := w.mode ≠ .program
  if w.wjoins.any (fun k => k.pc = pc && k.handler == h) then w
  else { w with wjoins := w.wjoins ++ [{ pc := pc, left := left, d := d, handler := h }] }

/-- Whether an issue that does not trap resets WC (R43). -/
def Env.resets (opts : Opts) (env : Env) (succ : List Entry) : Bool :=
  (opts.reset && env.p ≠ 0) || (opts.branch && succ.any (fun e => env.e.pc < e.pc))

/-- The frontier without the issuing entry, its other demotion marks cleared (R42). -/
def Env.others (env : Env) (fr : List Entry) : List Entry :=
  (fr.filter (fun y => !(y.same env.e))).map (fun y => { y with demoted := false })

/-- The context as this issue found it: a write of its registers counts from the next issue (R130, R317). -/
def Env.before (env : Env) : Context := (env.dev.ctx? env.ctx.id).getD env.ctx

/-- The warp after steps 2 to 5 of R51 for an issue that has its effect. A grant that FC earns goes to the oldest of the
entries other than the issuing one as they stood before its threads merge (log entry 61). A handler whose threads have all
exited leaves the warp in user-handler mode with no entry to issue (log entry 28). A YIELD of a granted entry that is the only one not
parked ends the grant (log entry 101). -/
def Env.closed (opts : Opts) (env : Env) : Warp :=
  let n := env.w.issues + 1
  let succ := successors env n (env.e.demoted || (env.yielded && env.more))
  let succ' := if env.e.granted && 0 < env.w.grantLeft && !env.yielded then grantFirst succ else succ
  let w := env.w.countFc env.before env.e env.top env.more
  let others := env.others w.frontier
  let heir := if 0 < w.grantDue then oldestEntry others else none
  let others := if 0 < w.grantDue then others.map (fun y => { y with granted := heir = some y }) else others
  let w := { w with
    issues := n
    wc := if env.resets opts succ then 0 else w.wc + 1
    frontier := soloDemotion (mergeEntries (others ++ succ'))
    live := w.live &&& ~~~env.dead
    refused := [], growRefused := false }
  let w := match env.join with | some j => w.startJoin env.e.pc j.2.1 j.2.2 | none => w
  let w := w.afterIssue env.before.gencfg
  (if 0 < w.grantLeft && w.mode = .program then w.dropGrant else w).joinStep

/-- Steps 2 to 5 of R51 for an issue that has its effect. -/
def closeIssue (opts : Opts) (env : Env) : State := { env with w := env.closed opts }.commit

/-- Parks the warp on a hold: the entry has not issued (R32, R265). -/
def holdIssue (env : Env) (k : Park) : State := { env with w := { env.w with park := some k } }.commit

/-! ### Traps -/

/-- Notes an event for the journal, while the journal accepts records (R349, R356): it is appended as the cycle ends, in the
order of R349 (log entry 64). -/
def State.record (s : State) (src loc : Word) : State :=
  if s.rdy.getLsbD 40 then { s with recBuf := s.recBuf ++ [(src, loc)] } else s

/-- The errors that a trap consumes, noted before it is delivered (R349), and what the driver is told (R324). -/
def State.noteTrap (s : State) (t : TrapInfo) : State :=
  { t.recs.foldl (fun s r => s.record r.1 r.2) s with driverLog := s.driverLog ++ t.told }

/-- UFMASK of a set of lanes (R130). -/
def ufmaskWord (m : Mask) : Word := BitVec.ofNat 64 (m.low * 2 ^ 32 + m.toNat)

/-- The handler's address in UTVEC (R130). -/
def Context.vector (x : Context) : PC := BitVec.ofNat 57 (natBits x.utvec.toNat 56 3 * 8)

/-- What the driver is given of a trap that ends a launch (R343). -/
def trapReport (w : Warp) (q : Nat) (t : TrapInfo) (pc : PC) : List Word :=
  [BitVec.ofNat 64 w.wid, BitVec.ofNat 64 q, BitVec.ofNat 64 t.cause.code, BitVec.ofNat 64 pc.toNat, t.tval,
   ufmaskWord t.mask]

/-- Marks a launch as ending with a cause (R344); its warps halt, and LAUNCH_COMPLETE carries out the rest. -/
def Context.endLaunch (x : Context) (q : Nat) (c : Cause) : Context :=
  { x with launches := x.launches.map (fun l => if l.q = q && l.ended.isNone then { l with ended := some c.code } else l)
           warps := x.warps.map (fun w => if w.q = q then { w with halted := true } else w) }

/-- Whether a trap can be delivered (R343). -/
def Env.canHandle (env : Env) (t : TrapInfo) : Bool :=
  env.ctx.vector ≠ 0 && env.w.mode = .program &&
    !(t.cause = .illegalMode && (match env.ins with | .pdone _ => true | _ => false))

/-- Taking a trap (R340): the report in UCAUSE, UEPC, UTVAL and UFMASK, the threads of the entry at (255, UTVEC) in
user-handler mode with their priorities saved, the other entries held (R341); or the end of the launch (R343). -/
def deliver (env : Env) (t : TrapInfo) : State :=
  let env := { env with dev := env.dev.noteTrap t }
  let w := { env.w with ucause := BitVec.ofNat 9 t.cause.code, uepc := env.e.pc, utval := t.tval, ufmask := t.mask }
  if env.canHandle t then
    let held := env.others w.frontier
    let pris := env.e.mask.lanes.foldl (fun m l => smPut 0 m l env.e.pri) ([] : SMap (BitVec 8))
    { env with w := { w with
        frontier := [⟨255, env.ctx.vector, env.e.mask, false, w.issues, false, false⟩]
        saved := some { frontier := held, park := none, grantLeft := w.grantLeft, wc := 0, entered := env.e.mask, pris := pris
                        granted := env.e.granted, demoted := env.e.demoted }
        grantLeft := 0
        mode := .handler false } }.commit
  else
    let dev := { env.dev with driverLog := env.dev.driverLog ++ trapReport w w.q t env.e.pc }
    dev.setCtx ((env.ctx.setWarp w).endLaunch w.q t.cause)

/-- The warp back from firmware mode in the mode that it was entered from (R101, R135). -/
def Warp.asBase (w : Warp) : Warp :=
  match w.mode with
  | .firmware handler pre => { w with mode := if handler then .handler pre else .program }
  | _ => w

/-- The trap of an issue (R340), in firmware mode of the instruction that entered it (R101): the issue counts for FC and WC (R247), SPIN_WATCHDOG clears WC (R43), and the switch test of a
region is made (R305). An issue that brings FC to its limit clears FC, and its grant is lost: R341 gives none while the warp
is in the handler (log entry 62). -/
def takeTrap (env : Env) (t : TrapInfo) : State :=
  let env := { env with w := env.w.asBase }
  let w := (env.w.countFc env.ctx env.e env.top env.more).regionTrap env.ctx.gencfg
  deliver { env with w := { w with
    issues := env.w.issues + 1, wc := if t.cause = .spinWatchdog then 0 else w.wc + 1, refused := [], growRefused := false
    fc := if w.fc = env.ctx.limit && env.ctx.prog then 0 else w.fc, grantDue := 0 } } t

/-- SPIN_WATCHDOG, in place of the instruction (R43). -/
def Env.spinTrap (env : Env) : TrapInfo :=
  { cause := .spinWatchdog, tval := BitVec.ofNat 64 env.ctx.watchdog, mask := env.e.mask }

/-! ### The whole issue -/

/-- A poisoned source traps in place of anything but a cause of the instruction's own entry, which stands before it in the
tables of R137, R157, R197 and R229. -/
def Res.orPoison (r : Res) (t : Option TrapInfo) : Res :=
  match t with
  | none => r
  | some t => (match r with | .trap u => .trap u | _ => .trap t)

/-- The checks, then the effect where AnyG holds (R82, R106, R158). -/
def attempt (opts : Opts) (env : Env) (body : Env → Res) : Res :=
  match gate opts env with
  | some r => r
  | none => (if env.p = 0 then .done env else body env).orPoison (env.poison opts)

/-- The state after an attempt: its effect, its trap, SPIN_WATCHDOG in place of either (R43, R51), or a hold. A page
fault at the driver comes after the WC test. -/
def settle (opts : Opts) (env : Env) (r : Res) : State :=
  match r with
  | .hold k =>
    match k with
    | .driver _ _ => if env.spin then takeTrap env env.spinTrap else holdIssue env k
    | _ => holdIssue env k
  | .trap t => takeTrap env (if env.spin then env.spinTrap else t)
  | .done env' => if env.spin then takeTrap env env.spinTrap else closeIssue opts env'

/-- One issue of an instruction (R33), with what follows it. -/
def issueThen (ins : Instr) (opts : Opts) (s : State) (body : Env → Res) (post : State → State) :
    Host.Outcome State Fault Refusal :=
  match openIssue ins (wordOf ins) s with
  | none => .fault .noIssuer
  | some env => .next (post (settle opts env (attempt opts env body)))

/-- One issue of an instruction (R33). -/
def issue (ins : Instr) (opts : Opts) (s : State) (body : Env → Res) : Host.Outcome State Fault Refusal :=
  issueThen ins opts s body id

/-- An issue whose effect cannot trap or wait after its checks. -/
def issueDone (ins : Instr) (opts : Opts) (s : State) (body : Env → Env) : Host.Outcome State Fault Refusal :=
  issue ins opts s (fun env => .done (body env))

/-! ### Return from a handler -/

/-- ERET (R135): the threads that entered return to an address at the priority each saved, and rejoin the held frontier
(R30); a park, grant and FC continue from what they were (R309, R341). -/
def Warp.returnTo (w : Warp) (sv : Saved) (pc : PC) (n : Nat) : Warp :=
  let back (t : Nat) : Entry :=
    ⟨smGet 0 sv.pris t, pc, BitVec.ofNat 32 (2 ^ t), false, n, sv.demoted, false⟩
  let mine := mergeEntries ((sv.entered &&& w.live).lanes.map back)
  let mine := if sv.granted then grantFirst mine else mine
  ({ w with frontier := soloDemotion (mergeEntries (sv.frontier ++ mine)), park := sv.park, grantLeft := sv.grantLeft
            mode := .program, saved := none, issues := n } : Warp).regionBack

end Sys2Proof.Machine
end

