-- ==== Sys2Proof/Machine/Flags.lean ====
section
/-! DEFINITION. Conditions and predicates: integer and slot comparisons, the forms over elements, element classes, votes,
and PLOG's table (R118, R122, R124, R140, R150, R151). -/

namespace Sys2Proof.Machine

/-- The condition codes of the integer comparisons (R140). -/
def intCc (cc : Nat) (a b : Int) : Bool :=
  match cc with
  | 0 => a = b
  | 1 => a ≠ b
  | 2 => a < b
  | 3 => a ≤ b
  | 4 => b < a
  | _ => b ≤ a

/-- The conditions of SCMP (R118): .lt and .ge are signed. -/
def scmpCc (cc : Nat) (a b : Word) : Bool :=
  match cc with
  | 0 => a = b
  | 1 => a ≠ b
  | 2 => a.toInt < b.toInt
  | 3 => b.toInt ≤ a.toInt
  | 4 => a.toNat < b.toNat
  | _ => b.toNat ≤ a.toNat

/-- The conditions of FCMP (R150): a NaN operand makes .ne and .un true and every other condition false. -/
def fcmpCc (cc : Nat) (a b : Val) : Bool :=
  let un := a.isNan || b.isNan
  match cc with
  | 0 => a.eqv b
  | 1 => !a.eqv b
  | 2 => a.lt b
  | 3 => a.lt b || a.eqv b
  | 4 => b.lt a
  | 5 => b.lt a || a.eqv b
  | 6 => un
  | _ => !un

/-- A condition over n elements: on element 0, on any, or on every one (R140). -/
def overElems (form n : Nat) (test : Nat → Bool) : Bool :=
  match form with
  | 0 => test 0
  | 1 => (List.range n).any test
  | _ => (List.range n).all test

/-- The class bit of a code (R151), read from the code before any flush. -/
def Fmt.classBit (f : Fmt) (code : Nat) : Nat :=
  match { f with sub := 0 }.decode code with
  | .nan => 8
  | .inf s => if s then 0 else 7
  | .fin s m =>
    if m.num = 0 then (if s then 3 else 4)
    else if f.ew ≠ 0 && natBits code (f.mw + f.ew - 1) f.mw = 0 then (if s then 2 else 5)
    else if s then 1 else 6

/-- VOTE's outcome (R122): c threads of m hold a 1. -/
def voteCc (x c m : Nat) : Bool :=
  match x with
  | 0 => 1 ≤ c
  | 1 => c = m
  | 2 => c = 0 || c = m
  | 3 => m < 2 * c
  | _ => c % 2 = 1

/-- PLOG in one lane (R124). -/
def plogBit (lut : Nat) (a b c : Bool) : Bool :=
  lut.testBit ((if a then 4 else 0) + (if b then 2 else 0) + (if c then 1 else 0))

end Sys2Proof.Machine
end

