-- ==== Sys2Proof/Machine/Operands.lean ====
section
/-! DEFINITION. Operand forms: registers, elements and their types (R95, R138, R139), immediates (R92, R144), slot elements
with their draws (R59, R67, R146), and the address forms of every space (R161, R162, R166 to R171). -/

namespace Sys2Proof.Machine

/-- A uniform register of the issuing warp. -/
def Env.s (env : Env) (r : BitVec 8) : Word := env.w.readS r.toNat
/-- A vector register of the issuing warp in a lane. -/
def Env.v (env : Env) (r : BitVec 8) (t : Nat) : Word := env.w.readV r.toNat t
/-- A predicate of the issuing warp in every lane. -/
def Env.pr (env : Env) (r : BitVec 8) : Mask := env.w.pred r.toNat
/-- Writes a uniform register. -/
def Env.setS (env : Env) (r : BitVec 8) (x : Word) : Env := { env with w := env.w.writeS r.toNat x }
/-- Writes a vector register in the lanes of P. -/
def Env.setV (env : Env) (r : BitVec 8) (f : Nat → Word) : Env :=
  { env with w := env.w.writeLanes r.toNat env.p f }
/-- Writes a predicate in the lanes of P. -/
def Env.setP (env : Env) (r : BitVec 8) (f : Nat → Bool) : Env :=
  { env with w := env.w.setPred r.toNat env.p (Mask.ofPred f) }
/-- A trap with the threads of P (R342). -/
def Env.trapP (env : Env) (c : Cause) (tval : Word) : Res := .trap { cause := c, tval := tval, mask := env.p }
/-- A trap with every thread of the entry. -/
def Env.trapE (env : Env) (c : Cause) (tval : Word) : Res := .trap { cause := c, tval := tval, mask := env.e.mask }
/-- A trap over the lanes of P that fail a test, with the value of the lowest (R342); none when no lane fails. -/
def Env.trapLanes (env : Env) (c : Cause) (bad : Nat → Bool) (tval : Nat → Word) : Option Res :=
  let m := Mask.ofPred (fun t => env.p.has t && bad t)
  if m = 0 then none else some (.trap { cause := c, tval := tval m.low, mask := m })

/-- The lanes that a shuffle of P reads, one source lane per thread. -/
def lanesRead (p : Mask) (src : Nat → Nat) : Mask := p.lanes.foldl (fun m t => m ||| BitVec.ofNat 32 (2 ^ src t)) 0

/-! ### Integer elements -/

/-- The element width of a type field (R95). -/
def ewOf (ty : Nat) : Nat := 8 * 2 ^ (ty % 4)
/-- X[2]: signed elements (R95). -/
def sgnOf (ty : Nat) : Bool := ty / 4 % 2 = 1
/-- A number of w bits read as signed. -/
def signedOf (w n : Nat) : Int := if n < 2 ^ (w - 1) then (n : Int) else (n : Int) - 2 ^ w
/-- Element i of a thread-word, as the type reads it (R138). -/
def elemInt (ty : Nat) (x : Word) (i : Nat) : Int :=
  let n := elemOf (ewOf ty) x i
  if sgnOf ty then signedOf (ewOf ty) n else n
/-- An integer modulo 2^w. -/
def wrapNat (w : Nat) (k : Int) : Nat := (k % (2 ^ w : Int)).toNat
/-- The range of a type (R139). -/
def clampTy (ty : Nat) (k : Int) : Int :=
  let w := ewOf ty
  let lo : Int := if sgnOf ty then -2 ^ (w - 1) else 0
  let hi : Int := if sgnOf ty then 2 ^ (w - 1) - 1 else 2 ^ w - 1
  if k < lo then lo else if hi < k then hi else k
/-- A thread-word from one integer per element, each modulo 2^ew (R139). -/
def packInts (ty : Nat) (f : Nat → Int) : Word :=
  packElems (ewOf ty) ((List.range (64 / ewOf ty)).map (fun i => wrapNat (ewOf ty) (f i)))
/-- The plain or .sat result by X[8:3] (R139). -/
def satInt (x : Nat) (k : Int) : Int := if x / 8 = 1 then clampTy x k else k

/-- Sign extension of an immediate of w bits. -/
def sextImm (w : Nat) (imm : Nat) : Int := signedOf w imm
/-- The immediate of the logical forms and of ICMPI (R144). -/
def logicImm (ty imm : Nat) : Int :=
  if ty % 4 = 0 then (if sgnOf ty then signedOf 8 (imm % 256) else ((imm % 256 : Nat) : Int))
  else if sgnOf ty then signedOf 16 imm else (imm : Int)
/-- The immediate of IADDI, signed whatever the type (R144). -/
def addImm (ty imm : Nat) : Int := if ty % 4 = 0 then signedOf 8 (imm % 256) else signedOf 16 imm
/-- A word from an integer modulo 2^64. -/
def wordInt (k : Int) : Word := BitVec.ofNat 64 (wrapNat 64 k)

/-! ### Slot elements -/

/-- The rounding mode of an RM field (R146). -/
def rmOf (code : Nat) (f : Fmt) : Rm :=
  match code with
  | 0 => f.rm
  | 1 => .rne
  | 2 => .rtz
  | 3 => .rup
  | 4 => .rdn
  | 5 => .rna
  | _ => .rsto

/-- The code of an element of a thread-word in a slot (R59). -/
def Fmt.code (f : Fmt) (x : Word) (i : Nat) : Nat := elemOf f.width x i
/-- The value of an element of a thread-word in a slot. -/
def Fmt.val' (f : Fmt) (x : Word) (i : Nat) : Val := f.decode (f.code x i)
/-- The sign bit of an element's code. -/
def Fmt.sign (f : Fmt) (x : Word) (i : Nat) : Bool := f.signBit (f.code x i)

/-- Element codes, each from its draw, in ascending order; a draw advances RS once per element (R67). none stands for
the trap of Invalid. -/
def encodeRun (draws : Bool) : Word → List (Nat → Option Nat) → Word × List (Option Nat)
  | rs, [] => (rs, [])
  | rs, g :: gs =>
    let rs' := if draws then rsNext rs else rs
    let r := encodeRun draws rs' gs
    (r.1, g (rsDraw rs') :: r.2)

/-- The immediate's code for element i (R92). -/
def immCode (f : Fmt) (imm i : Nat) : Nat :=
  let w := f.width
  if w ≤ 8 then natBits (if i % 2 = 0 then imm else imm / 256) (w - 1) 0
  else if w ≤ 16 then natBits imm (w - 1) 0
  else imm * 2 ^ (w - 16)

/-- The element codes of a thread with the state that its draws leave (R67). -/
def Env.draw (env : Env) (rm : Rm) (elems : Nat → List (Nat → Option Nat)) (t : Nat) : Word × List (Option Nat) :=
  encodeRun (rm = .rsto) (smGet 0 env.w.rs t) (elems t)

/-- The effect of an instruction of R146: in every thread of P the destination word from the codes of its elements, and the state that
its draws leave (R67). -/
def Env.encoded (env : Env) (rm : Rm) (d : BitVec 8) (elems : Nat → List (Nat → Option Nat)) (place : Nat → List Nat → Word) : Env :=
  let w := env.w.writeLanes d.toNat env.p (fun t => place t ((env.draw rm elems t).2.map (fun c => c.getD 0)))
  { env with w := { w with rs := env.p.lanes.foldl (fun m t => smPut 0 m t (env.draw rm elems t).1) w.rs } }

/-- The lowest element of a thread that is Invalid. -/
def Env.badElem (env : Env) (rm : Rm) (elems : Nat → List (Nat → Option Nat)) (t : Nat) : Option Nat :=
  (env.draw rm elems t).2.findIdx? (fun c => c.isNone)

/-- What an instruction of R146 does in every thread of P: its effect; or FMT_INVALID of any thread traps the whole (R146, R342), with
`base` added to the position of the element in the run. -/
def Env.encodeLanes (env : Env) (rm : Rm) (d : BitVec 8) (base : Nat) (elems : Nat → List (Nat → Option Nat))
    (place : Nat → List Nat → Word) : Res :=
  match env.trapLanes .fmtInvalid (fun t => (env.badElem rm elems t).isSome)
      (fun t => BitVec.ofNat 64 (base + (env.badElem rm elems t).getD 0)) with
  | some r => r
  | none => .done (env.encoded rm d elems place)

/-- The elements of the ordinary form of R146: x from the operands, rounded once. -/
def Env.slotElems (env : Env) (rm : Rm) (a : BitVec 8) (f : Fmt) (op : Nat → Nat → Val) (t : Nat) : List (Nat → Option Nat) :=
  (List.range f.elems).map (fun i u => f.encode (op t i) rm (f.sign (env.v a t) i) u)

/-- The ordinary element form of R146. -/
def Env.slotMap (env : Env) (rmCode : Nat) (d a : BitVec 8) (f : Fmt) (op : Nat → Nat → Val) : Res :=
  let rm := rmOf rmCode f
  env.encodeLanes rm d 0 (env.slotElems rm a f op) (fun _ cs => packElems f.width cs)

/-- A run of conversions (R155): source elements sa on into destination elements da on; the others keep D. -/
def mergeRun (w n : Nat) (old : Word) (da : Nat) (cs : List Nat) : Word :=
  packElems w ((List.range n).map (fun i =>
    if da ≤ i && i < da + cs.length then cs.getD (i - da) 0 else elemOf w old i))

/-! ### Addresses -/

/-- 8 × sext(OFF8) (R162). -/
def mfOff (r : MF) : Int := 8 * signedOf 8 r.off.toNat
/-- The address mode (R161). -/
def mfAm (r : MF) : Nat := r.x.toNat / 128
/-- The size in bytes of SZ (R161). -/
def mfSize (r : MF) : Nat := 2 ^ (r.x.toNat % 8)

/-- SP(t) = CSP(t) − PWB(t) is kept as the warp's csp less the window's base. -/
def Env.window (env : Env) (t : Nat) : Nat :=
  env.ctx.p.privBase + (env.w.wid * 32 + t) * 2 ^ env.ctx.p.wsz

/-- Base(t) of R162 before the offset, with the index term scaled. -/
def Env.baseOf (env : Env) (r : MF) (am scale : Nat) (t : Nat) : Int :=
  match am with
  | 0 => (env.s r.a).toNat
  | 1 => (env.v r.a t).toNat
  | 2 => (env.s r.a).toNat + (env.v r.b t).toInt * scale
  | _ => ((smGet (0 : Nat) env.w.csp t : Nat) : Int) - env.window t

/-- The effective address of R162, modulo 2^64. -/
def Env.ea (env : Env) (r : MF) (am scale : Nat) (t : Nat) : Word := wordInt (env.baseOf r am scale t + mfOff r)

/-- The vault offset of R167, read as signed. -/
def Env.vaultOff (env : Env) (r : MF) (index : Int) (scale : Nat) : Int :=
  (wordInt (natBits (env.s r.a).toNat 63 32 + index * scale + mfOff r)).toInt

end Sys2Proof.Machine
end

