-- ==== Sys2Proof/Machine/Lanes.lean ====
section
/-! DEFINITION. The lane instructions, predicates, reductions and scans (R120 to R127). -/

namespace Sys2Proof.Machine

/-- The lane of SHFL and SHFLX: B[4:0] of the thread (R120, R121). -/
def Env.shflLane (env : Env) (r : RRR) (t : Nat) : Nat := (env.v r.b t).toNat % 32

/-- The threads of P in which a vector register can be read. -/
def Env.fullInP (env : Env) (r : BitVec 8) : Mask := Mask.ofPred (fun t => env.p.has t && env.w.vmark r.toNat t = .full)

/-- SHFL's sources (R90, R120): A in the lanes that a readable B names, whatever else of B is empty, and B in the lanes of P. -/
def shflOpts (r : RRR) : Opts :=
  { Opts.plain with lanes := fun env f => if f = .A then lanesRead (env.fullInP r.b) (env.shflLane r) else env.p }

/-- SHFL (R120). -/
def execShfl (r : RRR) (s : State) : Host.Outcome State Fault Refusal :=
  issueDone (.shfl r) (shflOpts r) s (fun env => env.setV r.d (fun t => env.v r.a (env.shflLane r t)))

/-- The source lane of SHFLUD (R120); its own lane where the named one does not exist. -/
def shfludLane (x δ t : Nat) : Nat :=
  match x with
  | 0 => if δ ≤ t then t - δ else t
  | 1 => if t + δ < 32 then t + δ else t
  | 2 => t ^^^ δ
  | _ => (t + δ) % 32

/-- The lane that a thread of SHFLUD reads. -/
def Env.udLane (env : Env) (r : RRR) (t : Nat) : Nat := shfludLane r.x.toNat ((env.s r.b).toNat % 32) t

/-- SHFLUD's sources (R90, R120): A in the lanes read; while B is empty, in those that are read whatever δ is. -/
def shfludOpts (r : RRR) : Opts :=
  { Opts.plain with lanes := fun env f =>
      if f ≠ .A then env.e.mask
      else if env.w.smark r.b.toNat = .full then lanesRead env.p (env.udLane r)
      else (List.range 32).foldl (fun m δ => m &&& lanesRead env.p (shfludLane r.x.toNat δ)) (BitVec.allOnes 32) }

/-- SHFLUD (R120). -/
def execShflud (r : RRR) (s : State) : Host.Outcome State Fault Refusal :=
  issueDone (.shflud r) (shfludOpts r) s (fun env => env.setV r.d (fun t => env.v r.a (env.udLane r t)))

/-- VOTE (R122). -/
def execVote (r : RRR) (s : State) : Host.Outcome State Fault Refusal :=
  issueDone (.vote r) .plain s (fun env =>
    let c := (env.p &&& env.pr r.a).count
    env.setP r.d (fun _ => voteCc r.x.toNat c env.p.count))

/-- What MATCH, MRANK and MLEAD compare (R123): all 64 bits, or bits 31:0 with .w32. -/
def matchKey (x : Nat) (v : Word) : Nat := if x = 0 then v.toNat else v.toNat % 2 ^ 32
/-- E(t) of R123. -/
def Env.equalSet (env : Env) (r : RRR) (t : Nat) : Mask :=
  Mask.ofPred (fun u => env.p.has u &&
    matchKey r.x.toNat (env.v r.a u) = matchKey r.x.toNat (env.v r.a t))

/-- MATCH (R123). -/
def execMatchEq (r : RRR) (s : State) : Host.Outcome State Fault Refusal :=
  issueDone (.matchEq r) .plain s (fun env => env.setV r.d (fun t => (env.equalSet r t).zeroExtend 64))
/-- MRANK (R123). -/
def execMrank (r : RRR) (s : State) : Host.Outcome State Fault Refusal :=
  issueDone (.mrank r) .plain s (fun env => env.setV r.d (fun t =>
    BitVec.ofNat 64 ((env.equalSet r t).lanes.filter (fun u => u < t)).length))
/-- MLEAD (R123). -/
def execMlead (r : RRR) (s : State) : Host.Outcome State Fault Refusal :=
  issueDone (.mlead r) .plain s (fun env => env.setP r.d (fun t => (env.equalSet r t).low = t))
/-- ELECT (R122): the lowest lane of P, or the highest with .last. -/
def execElect (r : RRR) (s : State) : Host.Outcome State Fault Refusal :=
  issueDone (.elect r) .plain s (fun env =>
    let l := if r.x = 0 then env.p.low else env.p.lanes.getLastD 0
    env.setP r.d (fun t => t = l))
/-- PLOG (R124). -/
def execPlog (r : RRR) (s : State) : Host.Outcome State Fault Refusal :=
  issueDone (.plog r) .plain s (fun env =>
    env.setP r.d (fun t => plogBit r.x.toNat ((env.pr r.a).has t) ((env.pr r.b).has t) ((env.pr r.c).has t)))
/-- PMOV (R125): bit i is p_i, so bit 15 is 1. -/
def execPmov (r : RRR) (s : State) : Host.Outcome State Fault Refusal :=
  issueDone (.pmov r) .plain s (fun env => env.setV r.d (fun t =>
    BitVec.ofNat 64 ((List.range 16).foldl (fun acc i => acc + (if (env.w.pred i).has t then 2 ^ i else 0)) 0)))
/-- PMOV.set (R125): p0 to p14 from A[14:0]. -/
def execPmovSet (r : RRR) (s : State) : Host.Outcome State Fault Refusal :=
  issueDone (.pmovSet r) .plain s (fun env =>
    let w := (List.range 15).foldl
      (fun w i => w.setPred i env.p (Mask.ofPred (fun t => (env.v r.a t).getLsbD i))) env.w
    { env with w := w })
/-- PBAL (R125): the mask, or the count with .pop. -/
def execPbal (r : RRR) (s : State) : Host.Outcome State Fault Refusal :=
  issueDone (.pbal r) .plain s (fun env =>
    let m := env.p &&& env.pr r.a
    env.setS r.d (if r.x = 0 then m.zeroExtend 64 else BitVec.ofNat 64 m.count))

/-- One combination of R126 on elements read as the type reads them. -/
def laneReduce (op ty : Nat) (a b : Int) : Int :=
  let w := ewOf ty
  match op with
  | 0 => a + b
  | 1 => if a ≤ b then a else b
  | 2 => if a ≤ b then b else a
  | 3 => ((wrapNat w a &&& wrapNat w b : Nat) : Int)
  | 4 => ((wrapNat w a ||| wrapNat w b : Nat) : Int)
  | _ => ((wrapNat w a ^^^ wrapNat w b : Nat) : Int)

/-- The identity of a SCAN over no lanes (R126). -/
def scanIdentity (op ty : Nat) : Int :=
  let w := ewOf ty
  match op with
  | 0 => 0
  | 1 => if sgnOf ty then 2 ^ (w - 1) - 1 else 2 ^ w - 1
  | _ => if sgnOf ty then -2 ^ (w - 1) else 0

/-- A combination over a list of elements. -/
def reduceList (op ty : Nat) (d : Int) (xs : List Int) : Int :=
  match xs with
  | [] => d
  | x :: r => r.foldl (laneReduce op ty) x

/-- REDUX (R126). -/
def execRedux (r : RRR) (s : State) : Host.Outcome State Fault Refusal :=
  let ty := r.x.toNat % 8
  issueDone (.redux r) .plain s (fun env => env.setS r.d (packInts ty (fun k =>
    reduceList (r.x.toNat / 8 % 8) ty 0 (env.p.lanes.map (fun t => elemInt ty (env.v r.a t) k)))))

/-- The lanes of P that a scan takes for lane t (R126). -/
def scanLanes (p : Mask) (ex : Bool) (t : Nat) : List Nat := p.lanes.filter (fun u => if ex then u < t else u ≤ t)

/-- SCAN (R126). -/
def execScan (r : RRR) (s : State) : Host.Outcome State Fault Refusal :=
  let ty := r.x.toNat % 8
  let op := r.x.toNat / 8 % 8
  issueDone (.scan r) .plain s (fun env => env.setV r.d (fun t => packInts ty (fun k =>
    reduceList op ty (scanIdentity op ty)
      ((scanLanes env.p (r.x.getLsbD 6) t).map (fun u => elemInt ty (env.v r.a u) k)))))

/-- The codes of FREDX's elements with their draws from the lowest thread of P (R67, R127). FREDX.min and FREDX.max, which round nothing,
draw nothing under RSTO (log entry 99). -/
def fredxRun (env : Env) (r : RRR) (f : Fmt) : Word × List (Option Nat) :=
  let col (k : Nat) := env.p.lanes.map (fun t => f.val' (env.v r.a t) k)
  let s1 (k : Nat) := f.sign (env.v r.a env.p.low) k
  match r.x.toNat with
  | 0 => encodeRun (f.rm = .rsto) (smGet 0 env.w.rs env.p.low)
      ((List.range f.elems).map (fun k u => f.encode (Val.sum (col k) f.rm) f.rm (s1 k) u))
  | x =>
    let op := if x = 1 then Val.min else Val.max
    encodeRun false (smGet 0 env.w.rs env.p.low) ((List.range f.elems).map (fun k _ =>
      let v := (col k).foldl op .nan
      if v.isNan then some f.nanCode else some ((f.encode v .rne false 0).getD 0)))

/-- FREDX (R127). -/
def execFredx (r : RRR) (s : State) : Host.Outcome State Fault Refusal :=
  issue (.fredx r) .plain s (fun env =>
    let f := env.w.slot r.f.toNat
    let run := fredxRun env r f
    match run.2.findIdx? (fun c => c.isNone) with
    | some k => env.trapP .fmtInvalid (BitVec.ofNat 64 k)
    | none =>
      let env' := env.setS r.d (packElems f.width (run.2.map (fun c => c.getD 0)))
      .done { env' with w := { env'.w with rs := smPut 0 env'.w.rs env.p.low run.1 } })

/-- SCAN.fadd (R127): each prefix rounded once from its exact sum; the empty prefix is +0; one draw per element. -/
def execScanFadd (r : RRR) (s : State) : Host.Outcome State Fault Refusal :=
  issue (.scanFadd r) .plain s (fun env =>
    let f := env.w.slot r.f.toNat
    env.encodeLanes f.rm r.d 0
      (fun t => (List.range f.elems).map (fun k u =>
        match scanLanes env.p (r.x.getLsbD 6) t with
        | [] => some 0
        | us => f.encode (Val.sum (us.map (fun v => f.val' (env.v r.a v) k)) f.rm) f.rm
                  (f.sign (env.v r.a env.p.low) k) u))
      (fun _ cs => packElems f.width cs))

end Sys2Proof.Machine
end

