-- ==== Sys2Proof/Machine/Capability.lean ====
section
/-! DEFINITION. The capability table, where its copy lies, and the stack that holds a line (R250, R357). -/

namespace Sys2Proof.Machine

/-- A number as n little-endian bytes. -/
def leBytes (n v : Nat) : List Byte := (List.range n).map (fun i => BitVec.ofNat 8 (v / 256 ^ i))

/-- A capability record (R357): type, length, four zero bytes, and the value padded to a multiple of 8 bytes. -/
def capRecord (typ : Nat) (v : List Byte) : List Byte :=
  leBytes 2 typ ++ leBytes 2 v.length ++ leBytes 4 0 ++ v ++ List.replicate ((8 - v.length % 8) % 8) 0

/-- n bytes that a function gives. -/
def bytesOf (n : Nat) (f : Nat → Byte) : List Byte := (List.range n).map f

/-- The capability table in the device ROM (R357): identity, FEATOFF, the BAR map, and the signature over these. -/
def capRom : List Byte :=
  let rs := capRecord 0x0001 (bytesOf 24 Config.identity) ++ capRecord 0x0002 (leBytes 8 Config.featOffered.toNat) ++
    capRecord 0x0003 (bytesOf (min Config.barLen 65528) Config.barMap)
  rs ++ capRecord 0x0004 (Config.romSign rs)

/-- The erratum records that firmware appends, and their signature where there are any (R357). -/
def capErrata : List Byte :=
  let es := Config.errata.flatMap (fun e => capRecord 0x0100 (leBytes 4 e.1.toNat ++ leBytes 4 e.2.1.toNat ++ leBytes 8 e.2.2.toNat))
  if es = [] then [] else es ++ capRecord 0x0101 (Config.fwSign es)

/-- The table's copy (R357): what firmware appends is missing where the recovery loader runs in its place (R359). -/
def capTable (loader : Bool) : List Byte := capRom ++ (if loader then [] else capErrata)

/-- Where the table's copy lies (R357). -/
def capPlace : Nat := Config.capBase % (Config.hbmBytes / 2)

/-- The stack that holds a 128-byte line of local memory (R250, R356); the table's copy lies in the HBM of die 0, which is stacks 0 and
1 (R357). -/
def stackOf (line : Nat) : Nat :=
  if capPlace / 128 ≤ line && line * 128 < capPlace + (capTable false).length then Config.hbmStack line % 2 else Config.hbmStack line % 8

/-- Bytes written one after another from an address of local memory on. -/
def putBytes (m : Memory) (a : Nat) (bs : List Byte) : Memory :=
  bs.zipIdx.foldl (fun (m : Memory) q => putByte m (keyHbm (a + q.2)) q.1) m

/-- The table is copied to local HBM of die 0 (R357). -/
def State.copyTable (s : State) : State := { s with mem := putBytes s.mem capPlace (capTable s.loader), capDone := true }

end Sys2Proof.Machine
end

