-- ==== Sys2Proof/Machine/Translate.lean ====
section
/-! DEFINITION. Translation (R261 to R266), the checks of an access before it is made (R159, R162, R166 to R171, R260,
R265), and the pieces of memory that it touches. -/

namespace Sys2Proof.Machine

/-- How a walk ends (R265): at a leaf, with its level and, when it was walked, the entry's address; or without one. -/
inductive Walk where
  | leaf (pte level : Nat) (at_ : Option Nat)
  | missing
  | invalid
  | poisoned (at_ : Nat)
  | busy
  deriving DecidableEq, Repr

/-- The source of a record about a byte (R350): HBM with its die and stack, a vault or an SRAM array with its die and cluster;
HBM of no named die for a byte of another target. -/
def keySrc (typ : BitVec 8) (k : Nat) : Word :=
  let t := k / keyTag
  if t = 0 then
    let n := stackOf (k / 128)
    srcWord typ 0x01 (BitVec.ofNat 8 (n / 2)) 0 (BitVec.ofNat 32 n)
  else if t < 0x100 then srcWord typ 0x01 0 0 0
  else
    let u := (t - 0x100) % 0x1000
    if u < 0x400 then srcWord typ 0x02 (BitVec.ofNat 8 (u / 64)) (BitVec.ofNat 8 (u % 64)) 0
    else srcWord typ 0x04 (BitVec.ofNat 8 ((u - 0x400) / 128)) (BitVec.ofNat 8 ((u - 0x400) / 2 % 64)) (BitVec.ofNat 32 ((u - 0x400) % 2))

/-- The location of a byte in a record (R251, R350): bit 51 set for another target. -/
def keyLoc (k : Nat) : Word :=
  let t := k / keyTag
  BitVec.ofNat 64 (if 0 < t && t < 0x100 then 2 ^ 51 + k % keyTag % 2 ^ 51 else k % keyTag)

/-- The record of an error in a byte (R349, R350). -/
def badRecord (typ : BitVec 8) (k : Nat) : Word × Word := (keySrc typ k, keyLoc k)

/-- A poison entry: the granule's first key times 64 plus its size, 16 or 32 bytes (R269). -/
def poisonHits (p k n : Nat) : Bool := p / 64 < k + n && k < p / 64 + p % 64
/-- Whether bytes hold poison (R269). -/
def State.bad (s : State) (k n : Nat) : Bool := s.poison.any (fun p => poisonHits p k n)
/-- The granules in error that bytes touch, by their first keys. -/
def State.badGranules (s : State) (k n : Nat) : List Nat := (s.poison.filter (fun p => poisonHits p k n)).map (fun p => p / 64)

/-- Whether the HBM stack of a local byte is ready (R356). -/
def State.hbmReady (s : State) (a : Nat) : Bool :=
  s.rdy.toNat % 256 = 255 || s.rdy.toNat.testBit (stackOf (a / 128))

/-- PEER values that exist (R262). -/
def peerOk (p : Nat) : Bool := p ≤ 0x8F || p = 0xFF

/-- log2 of the page size of a level (R261). -/
def pageBits (level : Nat) : Nat := 16 + (match level with | 0 => 0 | 1 => 5 | _ => 14)

/-- A leaf that R262, R322 and R358 accept at a level: no page over a node's reserved window, and MODE 11 only with
migration in use. -/
def leafOk (pod migr : Bool) (e level : Nat) : Bool :=
  let mode := natBits e 59 58
  let peer := natBits e 54 47
  let base := natBits e 46 12 * 2 ^ 16
  let reserved := 0x80 ≤ peer && peer ≤ 0x8F && base < 2 ^ 43 && Config.nodeBytes < base + 2 ^ pageBits level
  level ≤ 2 && natBits e 11 9 = level && natBits e 8 4 = 0 && natBits e 0 0 = 0 &&
    (match level with | 0 => true | 1 => natBits e 16 12 = 0 | _ => natBits e 25 12 = 0) &&
    peerOk peer && (if mode = 0 then peer = 0xFF else peer ≠ 0xFF && pod) && !reserved && (mode ≠ 3 || migr)

/-- A table entry that R261 and R262 accept at a level. -/
def tableOk (e level : Nat) : Bool :=
  level ≠ 0 && natBits e 11 9 = 7 && natBits e 62 47 = 0 && natBits e 8 0 = 0 &&
    natBits e 46 12 * 4096 + 4096 ≤ Config.hbmBytes

/-- The address of the entry for an address in a table of level n − 1 (R261). -/
def entryAt (va n table : Nat) : Nat :=
  table + 8 * (if n = 0 then natBits va 20 16 else natBits va (20 + 9 * n) (12 + 9 * n))

/-- The walk from a table of level n − 1 down (R261, R265). -/
def walkFrom (s : State) (va : Nat) : Nat → Nat → Walk
  | 0, _ => .invalid
  | n + 1, table =>
    let a := entryAt va n table
    let e := readBytes s.mem (keyHbm a) 8
    if !s.hbmReady a then .busy
    else if s.bad (keyHbm a) 8 then .poisoned a
    else if !e.testBit 63 then .missing
    else if natBits e 62 60 = 0 then
      if tableOk e n then walkFrom s va n (natBits e 46 12 * 4096) else .invalid
    else if leafOk s.pod.isSome (s.nfeat.getLsbD 3) e n then .leaf e n (some a) else .invalid

/-- Whether this cycle's choice takes a TLB entry (R266), an instruction-cache line (R268), a copy (R254). -/
def State.pick (s : State) (k : Nat) : Bool := (s.oracle.headD 0).testBit k

/-- The TLB of a core, and that of a cluster (R266). -/
def tlbCore (core : Nat) : Nat := core / 2 * 4 + core % 2
def tlbCluster (cl : Nat) : Nat := cl * 4 + 2

/-- A TLB entry for an address, in a TLB or in that of its cluster (R266). -/
def tlbFind (s : State) (c unit va : Nat) : Option TlbEntry :=
  let hit (u : Nat) (t : TlbEntry) : Bool := t.unit = u && (t.ctx = none || t.ctx = some c) && t.va = va / 2 ^ t.bits
  (s.tlb.find? (hit unit)).or (s.tlb.find? (hit (unit / 4 * 4 + 2)))

/-- The walk that takes the table entries that its die's walk cache holds, by their addresses (R266). -/
def walkCached (s : State) (die va : Nat) : Nat → Nat → Walk
  | 0, _ => .invalid
  | n + 1, table =>
    match s.wcache.find? (fun c => c.die = die && c.at_ = entryAt va n table) with
    | some c => walkCached s die va n (natBits c.entry 46 12 * 4096)
    | none =>
      let e := readBytes s.mem (keyHbm (entryAt va n table)) 8
      if e.testBit 63 && natBits e 62 60 = 0 && s.hbmReady (entryAt va n table) && !s.bad (keyHbm (entryAt va n table)) 8 &&
          tableOk e n then walkCached s die va n (natBits e 46 12 * 4096)
      else walkFrom s va (n + 1) table

/-- The table entries that a walk passes through, which its die's walk cache then holds (R266). -/
def walkTables (s : State) (va : Nat) : Nat → Nat → List (Nat × Nat)
  | 0, _ => []
  | n + 1, table =>
    let e := readBytes s.mem (keyHbm (entryAt va n table)) 8
    if e.testBit 63 && natBits e 62 60 = 0 && tableOk e n then
      (entryAt va n table, e) :: walkTables s va n (natBits e 46 12 * 4096)
    else []

/-- The leaf that an access uses: a TLB entry when this cycle's choice takes one that needs no D update, else a walk, through
the die's walk cache when the choice says so. -/
def findLeaf (s : State) (x : Context) (unit va : Nat) (write : Bool) : Walk :=
  let w := if s.pick 4 then walkCached s (unit / 256) va 5 x.p.root else walkFrom s va 5 x.p.root
  match (if s.pick 0 then tlbFind s x.id unit va else none) with
  | some t => if write && !t.leaf.getLsbD 2 then w else .leaf t.leaf.toNat ((t.bits - 16) / 5) none
  | none => w

/-- The key of a byte of a target: PEER 0xFF and the package's own pod number name local memory (R262, R322). -/
def State.peerKey (s : State) (peer a : Nat) : Nat :=
  if peer = 0xFF || s.pod = some peer then keyHbm a else keyPeer peer a

/-- The key of a byte under a leaf (R262). -/
def leafKey (s : State) (e level va : Nat) : Nat :=
  s.peerKey (natBits e 54 47) (natBits e 46 12 * 2 ^ 16 + va % 2 ^ pageBits level)

/-- Keeps the first n of the members of a list that satisfy a test, and all the others. -/
def keepFirst {α : Type} (p : α → Bool) : Nat → List α → List α
  | _, [] => []
  | n, x :: r => if p x then (match n with | 0 => keepFirst p 0 r | m + 1 => x :: keepFirst p m r) else x :: keepFirst p n r

/-- Puts an entry into its TLB, of 64 entries in a core and 2,048 in a cluster; the oldest goes (R266). -/
def tlbPut (tlb : List TlbEntry) (t : TlbEntry) : List TlbEntry :=
  keepFirst (fun y => y.unit = t.unit) (if t.unit % 4 = 2 then 2048 else 64)
    (t :: tlb.filter (fun y => !(y.unit = t.unit && y.ctx = t.ctx && y.va = t.va && y.bits = t.bits)))

/-- Puts the table entries of a walk into a die's walk cache. -/
def wcachePut (c : List WalkEntry) (die : Nat) (es : List (Nat × Nat)) : List WalkEntry :=
  es.foldl (fun c e => ⟨die, e.1, e.2⟩ :: c.filter (fun y => !(y.die = die && y.at_ = e.1))) c

/-- Sets A, and D for a write that the page allows, at the entry's home, and keeps the translation in the TLB that asked and in its
cluster's, and the tables of the walk in the die's walk cache (R262, R266). -/
def touchLeaf (s : State) (x : Context) (unit va : Nat) (write : Bool) : State :=
  match findLeaf s x unit va write with
  | .leaf e level a =>
    let e' := e ||| 2 ||| (if write && e.testBit 61 then 4 else 0)
    let t : TlbEntry := { unit := unit, ctx := if e.testBit 3 then none else some x.id, va := va / 2 ^ pageBits level
                          bits := pageBits level, leaf := BitVec.ofNat 64 e' }
    { s with
      mem := match a with | none => s.mem | some k => writeBytes s.mem (keyHbm k) 8 e'
      tlb := tlbPut (tlbPut s.tlb { t with unit := unit / 4 * 4 + 2 }) t
      wcache := match a with | none => s.wcache | some _ => wcachePut s.wcache (unit / 256) (walkTables s va 5 x.p.root) }
  | _ => s

/-- A run of bits in a space, from a bit position on. -/
structure Run where
  pos : Int
  len : Nat
  deriving DecidableEq, Repr

/-- The first byte of a run. -/
def Run.first (r : Run) : Int := r.pos / 8
/-- The last byte of a run. -/
def Run.last (r : Run) : Int := (r.pos + r.len - 1) / 8

/-- The four spaces (R250). -/
inductive Space where
  | global | scratch | vault | priv
  deriving DecidableEq, Repr

/-- The issuing warp's cluster number in the package. -/
def Env.cl (env : Env) : Nat := widClusterNo env.w.wid
/-- The issuing warp's core number in the package. -/
def Env.core (env : Env) : Nat := widCoreNo env.w.wid
/-- The issuing warp's block. -/
def Env.blk (env : Env) : Option Block := env.ctx.block? env.w.blk
/-- The size of the block's scratchpad allocation (R253). -/
def Env.spSize (env : Env) : Nat := match env.blk with | some b => b.spSize | none => 0
/-- Where the block's scratchpad starts in its core's array (R253). -/
def Env.spBase (env : Env) : Nat := match env.blk with | some b => b.spBase | none => 0
/-- PWS (R259). -/
def Env.pws (env : Env) : Nat := 2 ^ env.ctx.p.wsz
/-- The bytes that a launch's stage queues take on each die (R299). -/
def Rec.queueBytes (r : Rec) : Nat :=
  (List.range r.nstg).foldl (fun n k => if k = 0 then n else n + 16 * 2 ^ (r.stages.getD k (0, 0)).1) 0
/-- The vault bytes of the origin cluster of each die that stage queues and an unexpected queue take (R299, R328). -/
def Context.vaultTaken (x : Context) : Nat :=
  x.launches.foldl (fun n l => n + l.rcd.queueBytes) (if x.p.uqVault then x.p.uqBytes else 0)
/-- The size of a cluster's vault as a program finds it (R167, R299). -/
def Context.vaultSize (x : Context) (cl : Nat) : Nat :=
  x.p.vaultw * 2 ^ 18 - (if cl % 64 = 8 * x.p.y0 + x.p.x0 then x.vaultTaken else 0)

/-- The unit that a place value names (R93), as die and cluster; none outside the launch's spatial partitions. -/
def placeUnit (x : Context) (die cl place : Nat) : Option (Nat × Nat) :=
  let dd := (((die : Int) + signedOf 2 (natBits place 9 8)) % 4).toNat
  let y : Int := (cl / 8 : Nat) + signedOf 4 (natBits place 7 4)
  let cx : Int := (cl % 8 : Nat) + signedOf 4 (natBits place 3 0)
  if x.p.dies.contains dd && (x.p.x0 : Int) ≤ cx && cx ≤ x.p.x1 && (x.p.y0 : Int) ≤ y && y ≤ x.p.y1 then
    some (dd, (8 * y + cx).toNat)
  else none

/-- Whether a run lies outside its space, by the range check that the space has (R162, R166 to R168). -/
def Run.outside (r : Run) (space : Space) (spSize vaultSize pws : Nat) : Bool :=
  match space with
  | .global => r.first < 0 || 2 ^ 57 ≤ r.last
  | .scratch => r.first < 0 || (spSize : Int) ≤ r.last
  | .vault => r.first < 0 || (vaultSize : Int) ≤ r.last
  | .priv => r.first < 0 || (pws : Int) ≤ r.last

/-- The size of the vault that an address names; 0 where its place lies outside the partition (R167). -/
def Env.vaultRoom (env : Env) (a : Word) : Nat :=
  match placeUnit env.ctx (widDie env.w.wid) (widCluster env.w.wid) (natBits a.toNat 9 0) with
  | some u => env.ctx.vaultSize (u.1 * 64 + u.2)
  | none => 0

/-- What each thread of P touches in one instruction, the address that a misalignment reports, whether the runs are those
of a packed stream, and where the first run's bits stand in the data. -/
structure Plan where
  space : Space
  uniA : Word
  runs : Nat → List Run
  base : Nat → Int
  align : Nat
  read : Bool
  write : Bool
  packed : Bool
  off : Nat

/-- The virtual address of a byte of a run: the private window's base is added (R168, R259). -/
def Env.vaOf (env : Env) (space : Space) (t : Nat) (b : Int) : Nat :=
  match space with
  | .priv => (b + env.window t).toNat
  | _ => b.toNat

/-- One virtual address for each 64 KiB page that a list of runs touches. -/
def Env.pagesOf (env : Env) (space : Space) (t : Nat) (runs : List Run) : List Nat :=
  runs.flatMap (fun r =>
    let lo := env.vaOf space t r.first
    let hi := env.vaOf space t r.last
    if lo / 2 ^ 16 = hi / 2 ^ 16 then [lo]
    else (List.range (hi / 2 ^ 16 - lo / 2 ^ 16 + 1)).map (fun k =>
      if k = 0 then lo else (lo / 2 ^ 16 + k) * 2 ^ 16))

/-- The result of translating one page for an access (R265). -/
inductive PageCheck where
  | ok | invalid | missing | noRead | noWrite | poisoned (at_ : Nat) | busy
  deriving DecidableEq, Repr

/-- Steps 1 to 4 of R265 for one address. -/
def checkPage (s : State) (x : Context) (unit : Nat) (read write : Bool) (va : Nat) : PageCheck :=
  match findLeaf s x unit va write with
  | .invalid => .invalid
  | .missing => .missing
  | .poisoned a => .poisoned a
  | .busy => .busy
  | .leaf e _ _ => if read && !e.testBit 62 then .noRead else if write && !e.testBit 61 then .noWrite else .ok

/-- The first address of a lane whose page check gives a result. -/
def firstPage (chk : Nat → PageCheck) (k : PageCheck) (vas : List Nat) : Option Nat := vas.find? (fun v => chk v = k)

/-- The entry in error that a list of addresses meets. -/
def poisonedAt (chk : Nat → PageCheck) (vas : List Nat) : Option (Nat × Nat) :=
  vas.findSome? (fun v => match chk v with | .poisoned a => some (v, a) | _ => none)

/-- The translation causes over P in the order of R265: PTE_INVALID, the driver for V = 0 or PAGE_FAULT where it refused,
PERM_READ, PERM_WRITE, and DATA_ERROR for a page-table entry (R269). A walk that needs a stack that is not ready waits
(R356). -/
def Env.checkPages (env : Env) (chk : Nat → PageCheck) (vas : Nat → List Nat) (priv : Bool) : Option Res :=
  let cause (k : PageCheck) (c : Cause) : Option Res :=
    env.trapLanes c (fun t => (firstPage chk k (vas t)).isSome)
      (fun t => BitVec.ofNat 64 ((firstPage chk k (vas t)).getD 0))
  let gone (v : Nat) : Bool := chk v = .missing && env.w.refused.contains (v / 2 ^ 16)
  let open_ := env.p.lanes.findSome? (fun t =>
    (vas t).find? (fun v => chk v = .missing && !env.w.refused.contains (v / 2 ^ 16)))
  if env.p.lanes.any (fun t => (firstPage chk .busy (vas t)).isSome) then some (.hold (.retrySources []))
  else match cause .invalid .pteInvalid with
  | some r => some r
  | none =>
    match open_ with
    | some v => some (.hold (.driver v priv))
    | none =>
      match env.trapLanes .pageFault (fun t => (vas t).any gone) (fun t => BitVec.ofNat 64 (((vas t).find? gone).getD 0)) with
      | some r => some r
      | none =>
        match cause .noRead .permRead with
        | some r => some r
        | none =>
          match cause .noWrite .permWrite with
          | some r => some r
          | none =>
            let m := Mask.ofPred (fun t => env.p.has t && (poisonedAt chk (vas t)).isSome)
            match poisonedAt chk (vas m.low) with
            | some q => if m = 0 then none else
                let met := (m.lanes.flatMap (fun t => (vas t).filterMap (fun v => match chk v with | .poisoned a => some a | _ => none))).eraseDups
                some (.trap { cause := .dataError, tval := BitVec.ofNat 64 q.1, mask := m, recs := met.map (fun a => badRecord 0x02 (keyHbm a)) })
            | none => none

/-- The offset of the first byte of a list of runs that fails a test. -/
def badByte (runs : List Run) (bad : Run → Bool) : Int :=
  match runs.find? bad with
  | some r => r.first
  | none => 0

/-- The range check of a plan's space (R162, R166 to R168), over P. -/
def Env.checkRange (env : Env) (pl : Plan) : Option Res :=
  let bad (r : Run) :=
    if pl.space = .global && !pl.packed then r.first < 0 || 2 ^ 57 ≤ r.first
    else r.outside pl.space env.spSize (env.vaultRoom pl.uniA) env.pws
  let addr (t : Nat) : Word := wordInt (badByte (pl.runs t) bad)
  let fails (t : Nat) : Bool := (pl.runs t).any bad
  match pl.space with
  | .global => env.trapLanes .memRange fails addr
  | .scratch => env.trapLanes .spRange fails addr
  | .priv => env.trapLanes .privRange fails addr
  | .vault =>
    let a := pl.uniA
    if (placeUnit env.ctx (widDie env.w.wid) (widCluster env.w.wid) (natBits a.toNat 9 0)).isNone then
      env.trapLanes .placeRange (fun _ => true) (fun _ => a)
    else if natBits a.toNat 31 10 ≠ 0 then env.trapLanes .vaultRange (fun _ => true) (fun _ => a)
    else env.trapLanes .vaultRange fails (fun _ => a)

/-- Growth of the private region: an offset below PWS − HW goes to the driver, or traps once it refused (R260). -/
def Env.checkGrow (env : Env) (pl : Plan) : Option Res :=
  let deep (r : Run) : Bool := r.first < (env.pws : Int) - env.ctx.hw
  if pl.space ≠ .priv then none
  else match env.p.lanes.find? (fun t => (pl.runs t).any deep) with
  | none => none
  | some t =>
    if env.w.growRefused then
      env.trapLanes .privGrow (fun u => (pl.runs u).any deep) (fun u => wordInt (badByte (pl.runs u) deep))
    else some (.hold (.driver (env.vaOf .priv t (badByte (pl.runs t) deep)) true))

/-- The range, then the alignment of a plan (R162, R169). -/
def Env.checkShape (env : Env) (pl : Plan) : Option Res :=
  match env.checkRange pl with
  | some r => some r
  | none => env.trapLanes .memAlign (fun t => pl.base t % pl.align ≠ 0) (fun t => wordInt (pl.base t))

/-- Every check of a plan before its access (R159): range, alignment, growth, translation and permission. -/
def Env.checkPlan (env : Env) (pl : Plan) : Option Res :=
  match env.checkShape pl with
  | some r => some r
  | none =>
    match env.checkGrow pl with
    | some r => some r
    | none =>
      match pl.space with
      | .scratch => none
      | .vault => none
      | sp => env.checkPages (checkPage env.dev env.ctx (tlbCore env.core) pl.read pl.write)
                (fun t => env.pagesOf sp t (pl.runs t)) (sp = .priv)

/-- The lines of scratchpad that a plan touches, as keys divided by 128 (R166). -/
def Env.planLines (env : Env) (pl : Plan) : List Nat :=
  env.p.lanes.flatMap (fun t => (pl.runs t).flatMap (fun r =>
    let k (b : Int) := keySram env.ctx.id env.core (env.spBase + b.toNat) / 128
    (List.range (k r.last - k r.first + 1)).map (fun j => k r.first + j)))

/-- The absent lines of a plan (R166). -/
def Env.absentLines (env : Env) (pl : Plan) : List Nat :=
  if pl.space = .scratch then (env.planLines pl).filter env.ctx.absent.contains else []

/-- The key of a byte of a thread's access in a space, once its checks have passed. -/
def Env.keyOf (env : Env) (pl : Plan) (t : Nat) (b : Int) : Nat :=
  match pl.space with
  | .scratch => keySram env.ctx.id env.core (env.spBase + b.toNat)
  | .vault =>
    match placeUnit env.ctx (widDie env.w.wid) (widCluster env.w.wid) (natBits pl.uniA.toNat 9 0) with
    | some u => keyVault env.ctx.id (u.1 * 64 + u.2) b.toNat
    | none => 0
  | sp =>
    let va := env.vaOf sp t b
    match findLeaf env.dev env.ctx (tlbCore env.core) va pl.write with
    | .leaf e level _ => leafKey env.dev e level va
    | _ => 0

/-- A piece of data with what its leaf says of its page (R262 to R264, R266). -/
def leafPiece (e level va pos len off : Nat) : Piece :=
  { pos := pos, len := len, off := off, mode := natBits e 59 58, page := va / 2 ^ pageBits level * 2 ^ pageBits level
    shared := e.testBit 3, va := va }

/-- A piece from a byte on; it has no page outside the translated spaces. -/
def Env.pieceAt (env : Env) (pl : Plan) (t : Nat) (b : Int) (bit len off : Nat) : Piece :=
  let pos := env.keyOf pl t b * 8 + bit
  match pl.space with
  | .scratch => { pos := pos, len := len, off := off }
  | .vault => { pos := pos, len := len, off := off }
  | sp =>
    let va := env.vaOf sp t b
    match findLeaf env.dev env.ctx (tlbCore env.core) va pl.write with
    | .leaf e level _ => leafPiece e level va pos len off
    | _ => { pos := pos, len := len, off := off }

/-- The pieces of a run: one, or one on each side of a 64 KiB page boundary; `off` is its place in the data. -/
def Env.piecesOf (env : Env) (pl : Plan) (t : Nat) (r : Run) (off : Nat) : List Piece :=
  let bit : Nat := (r.pos % 8).toNat
  let va0 := env.vaOf pl.space t r.first
  let room := (2 ^ 16 - va0 % 2 ^ 16) * 8 - bit
  if r.len ≤ room then [env.pieceAt pl t r.first bit r.len off]
  else [env.pieceAt pl t r.first bit room off,
        env.pieceAt pl t (r.first + ((room + bit) / 8 : Nat)) 0 (r.len - room) (off + room)]

/-- The pieces of a thread's runs, laid one after the other in the data. -/
def Env.pieces (env : Env) (pl : Plan) (t : Nat) (runs : List Run) (off : Nat) : List Piece :=
  match runs with
  | [] => []
  | r :: rs => env.piecesOf pl t r off ++ env.pieces pl t rs (off + r.len)

/-- Sets the A and D bits of every page that a plan touches (R262). -/
def Env.touchPlan (env : Env) (pl : Plan) : Env :=
  match pl.space with
  | .scratch => env
  | .vault => env
  | sp =>
    let vas := env.p.lanes.flatMap (fun t => env.pagesOf sp t (pl.runs t))
    { env with dev := vas.foldl (fun s va => touchLeaf s env.ctx (tlbCore env.core) va pl.write) env.dev }

end Sys2Proof.Machine
end

