-- ==== Sys2Proof/Machine/Journal.lean ====
section
/-! DEFINITION. SHA-256 and the Corrected Error Journal (R349 to R352, R359). -/

namespace Sys2Proof.Machine

/-- The round constants of SHA-256 (FIPS 180-4; PRESUMED, log entry 12). -/
def shaK : List (BitVec 32) :=
   [0x428A2F98, 0x71374491, 0xB5C0FBCF, 0xE9B5DBA5, 0x3956C25B, 0x59F111F1, 0x923F82A4, 0xAB1C5ED5] ++
   [0xD807AA98, 0x12835B01, 0x243185BE, 0x550C7DC3, 0x72BE5D74, 0x80DEB1FE, 0x9BDC06A7, 0xC19BF174] ++
   [0xE49B69C1, 0xEFBE4786, 0x0FC19DC6, 0x240CA1CC, 0x2DE92C6F, 0x4A7484AA, 0x5CB0A9DC, 0x76F988DA] ++
   [0x983E5152, 0xA831C66D, 0xB00327C8, 0xBF597FC7, 0xC6E00BF3, 0xD5A79147, 0x06CA6351, 0x14292967] ++
   [0x27B70A85, 0x2E1B2138, 0x4D2C6DFC, 0x53380D13, 0x650A7354, 0x766A0ABB, 0x81C2C92E, 0x92722C85] ++
   [0xA2BFE8A1, 0xA81A664B, 0xC24B8B70, 0xC76C51A3, 0xD192E819, 0xD6990624, 0xF40E3585, 0x106AA070] ++
   [0x19A4C116, 0x1E376C08, 0x2748774C, 0x34B0BCB5, 0x391C0CB3, 0x4ED8AA4A, 0x5B9CCA4F, 0x682E6FF3] ++
   [0x748F82EE, 0x78A5636F, 0x84C87814, 0x8CC70208, 0x90BEFFFA, 0xA4506CEB, 0xBEF9A3F7, 0xC67178F2]

/-- The initial hash value of SHA-256 (log entry 12). -/
def shaH0 : List (BitVec 32) :=
   [0x6A09E667, 0xBB67AE85, 0x3C6EF372, 0xA54FF53A, 0x510E527F, 0x9B05688C, 0x1F83D9AB, 0x5BE0CD19]

/-- Rotation right of a 32-bit word. -/
def rotr32 (x : BitVec 32) (n : Nat) : BitVec 32 := (x >>> n) ||| (x <<< (32 - n))

/-- Item i of a list of words. -/
def word32 (xs : List (BitVec 32)) (i : Nat) : BitVec 32 := xs.getD i 0

/-- Extends a message schedule by n words. -/
def shaSchedule (w : List (BitVec 32)) : Nat → List (BitVec 32)
  | 0 => w
  | n + 1 =>
    let t := w.length
    let a := word32 w (t - 15)
    let b := word32 w (t - 2)
    let s0 := rotr32 a 7 ^^^ rotr32 a 18 ^^^ (a >>> 3)
    let s1 := rotr32 b 17 ^^^ rotr32 b 19 ^^^ (b >>> 10)
    shaSchedule (w ++ [word32 w (t - 16) + s0 + word32 w (t - 7) + s1]) n

/-- One round on the eight working words. -/
def shaRound (v : List (BitVec 32)) (kw : BitVec 32 × BitVec 32) : List (BitVec 32) :=
  match v with
  | [a, b, c, d, e, f, g, h] =>
    let s1 := rotr32 e 6 ^^^ rotr32 e 11 ^^^ rotr32 e 25
    let ch := (e &&& f) ^^^ (~~~e &&& g)
    let t1 := h + s1 + ch + kw.1 + kw.2
    let s0 := rotr32 a 2 ^^^ rotr32 a 13 ^^^ rotr32 a 22
    let mj := (a &&& b) ^^^ (a &&& c) ^^^ (b &&& c)
    [t1 + s0 + mj, a, b, c, d + t1, e, f, g]
  | _ => v

/-- Four bytes as a big-endian word. -/
def word32Be (bs : List Byte) (i : Nat) : BitVec 32 :=
  bs.getD i 0 ++ bs.getD (i + 1) 0 ++ bs.getD (i + 2) 0 ++ bs.getD (i + 3) 0

/-- One block of 64 bytes. -/
def shaBlock (h : List (BitVec 32)) (block : List Byte) : List (BitVec 32) :=
  let w := shaSchedule ((List.range 16).map (fun i => word32Be block (4 * i))) 48
  List.zipWith (fun a b => a + b) h ((shaK.zip w).foldl shaRound h)

/-- All blocks of a padded message. -/
def shaBlocks : Nat → List (BitVec 32) → List Byte → List (BitVec 32)
  | 0, h, _ => h
  | n + 1, h, bs => shaBlocks n (shaBlock h (bs.take 64)) (bs.drop 64)

/-- SHA-256 (log entry 12). -/
def sha256 (msg : List Byte) : List Byte :=
  let zeros := (119 - msg.length % 64) % 64
  let len := msg.length * 8
  let padded := msg ++ [0x80] ++ List.replicate zeros 0 ++
    (List.range 8).map (fun i => BitVec.ofNat 8 (len / 256 ^ (7 - i)))
  (shaBlocks (padded.length / 64) shaH0 padded).flatMap (fun w =>
    [w.extractLsb' 24 8, w.extractLsb' 16 8, w.extractLsb' 8 8, w.extractLsb' 0 8])

/-- Bytes 0 to 31 of a journal record (R350). -/
def JRec.head (r : JRec) : List Byte :=
  leBytes 8 r.seq ++ leBytes 8 r.time ++ leBytes 8 r.src.toNat ++ leBytes 8 r.loc.toNat

/-- The CHAIN value before the first record: 32 zero bytes (R350). -/
def State.lastChain (s : State) : List Byte := if s.jwp = 0 then List.replicate 32 0 else s.chain

/-- Whether the journal has room (R352). -/
def State.journalRoom (s : State) : Bool := s.jwp - s.jap < 2 ^ 20

/-- Writes a record into its slot (R350, R352). -/
def State.putRecord (s : State) (src loc : Word) : State :=
  let r : JRec := { seq := s.jwp, time := s.wall / 11, src := src, loc := loc, chain := [] }
  let chain := sha256 (s.lastChain ++ r.head)
  { s with journal := (s.journal.filter (fun x => x.seq % 2 ^ 20 ≠ r.seq % 2 ^ 20)) ++ [{ r with chain := chain }]
           jwp := s.jwp + 1, chain := chain }

/-- The signature of a seal over its SEQ and CHAIN, or zero bytes where SEALs carry none or the key is exhausted (R351,
R358, R359): the key's index rises before the signature is released. -/
def State.signSeal (s : State) (k : Nat) : State :=
  if s.nfeat.getLsbD 0 && s.sigIndex < 2 ^ 40 then
    { s with seals := s.seals ++ [(k, Config.lmsSign s.sigIndex (s.jwp - 1) s.chain)], sigIndex := s.sigIndex + 1 }
  else { s with seals := s.seals ++ [(k, List.replicate Config.sigBytes 0)] }

/-- Counts an event for which there is no room (R352). -/
def State.dropRecord (s : State) : State := { s with jdrop := min (s.jdrop + 1) (2 ^ 32 - 1) }

/-- The SEAL after every 1,024th record (R351; the numbering of seals is log entry 13). -/
def State.sealStep (s : State) : State :=
  if s.jwp % 1024 ≠ 0 then s
  else if s.journalRoom then
    ((s.putRecord (srcWord 0x06 0x00 0 0 0) (BitVec.ofNat 64 (s.jwp / 1024))).signSeal (s.jwp / 1024))
  else s.dropRecord

/-- Appends a record and its SEAL when one is due; without room it is counted (R349, R351, R352). -/
def State.append (s : State) (src loc : Word) : State := if s.journalRoom then (s.putRecord src loc).sealStep else s.dropRecord

/-- The record of dropped events, first when room returns (R352). -/
def State.recordDrops (s : State) : State :=
  if s.jdrop ≠ 0 && s.journalRoom then
    let n := s.jdrop
    ({ s with jdrop := 0 }.putRecord (srcWord 0x05 0x00 0 0 0) (BitVec.ofNat 64 n)).sealStep
  else s

/-- The die and cluster of a record, in the order of R349. -/
def recPlace (r : Word × Word) : Nat := natBits r.1.toNat 47 32

/-- Inserts a record behind those of no greater die and cluster. -/
def insertRec (r : Word × Word) : List (Word × Word) → List (Word × Word)
  | [] => [r]
  | q :: l => if recPlace r < recPlace q then r :: q :: l else q :: insertRec r l

/-- Appends the records of the cycle, in ascending order of die and cluster (R349): behind a host write of JAP in the same
cycle (R355), the record of dropped events first. -/
def State.flushRecords (s : State) : State :=
  let s := if s.rdy.getLsbD 40 then s.recordDrops else s
  (s.recBuf.foldl (fun l r => insertRec r l) []).foldl (fun s r => s.append r.1 r.2) { s with recBuf := [] }

end Sys2Proof.Machine
end

