-- ==== Sys2Proof/Machine/Access.lean ====
section
/-! DEFINITION. Accesses in flight: how they are made, when one may be performed at its home, what it does there, copies
and acquires, results that return (R89, R91, R121, R159 to R178, R254, R257, R263, R264, R269, R274, R276, R322 to
R324). -/

namespace Sys2Proof.Machine

/-! ### Making accesses -/

/-- A number of its own. -/
def Env.id (env : Env) : Nat := env.dev.nextId
/-- Takes a number. -/
def Env.bump (env : Env) : Env := { env with dev := { env.dev with nextId := env.dev.nextId + 1 } }

/-- The destination of a vector result of the issuing warp (R89, R91). -/
def Env.destV (env : Env) (r t : Nat) : Dest :=
  { uniform := false, reg := r, lane := t, prod := env.id, allocGen := env.w.allocGen }
/-- The destination of a uniform result of the issuing warp. -/
def Env.destS (env : Env) (r : Nat) : Dest :=
  { uniform := true, reg := r, lane := 0, prod := env.id, allocGen := env.w.allocGen }
/-- Marks a destination empty with its producer (R89, R91). -/
def Warp.markDest (w : Warp) (d : Dest) : Warp :=
  if d.uniform then w.markS d.reg (.empty d.prod) else w.markV d.reg d.lane (.empty d.prod)

/-- The destinations of an access. -/
def AccKind.dests : AccKind → List Dest
  | .load d hi _ _ _ => d :: hi.toList
  | .store _ => []
  | .atomic _ _ _ _ r => r.toList
  | .acas _ _ _ d => [d]
  | .fatom _ _ _ r => r.toList
  | .member _ _ _ _ _ => []
  | .peek _ _ _ d => [d]

/-- What is particular to the accesses of an instruction: .nt, the acquire and the release of an ordered form. -/
structure AccOpts where
  cached : Bool
  acq : Option Nat
  rel : Option Nat

/-- The ordinary access. -/
def AccOpts.plain : AccOpts := { cached := true, acq := none, rel := none }

/-- Adds one access of the issuing warp and marks its destinations empty. -/
def Env.addAccess (env : Env) (o : AccOpts) (lane : Nat) (addr : Word) (pieces : List Piece) (kind : AccKind) : Env :=
  let a : Access := { id := env.id, uid := env.w.uid, ins := env.w.issues, core := env.core, lane := lane, addr := addr
                      cached := o.cached, acq := o.acq, rel := o.rel, relAt := 0, kind := kind, pieces := pieces }
  ({ env with ctx := { env.ctx with accesses := env.ctx.accesses ++ [a] }
              w := kind.dests.foldl Warp.markDest env.w }).bump

/-- Adds one access for each lane, in ascending order (R163). -/
def Env.addLanes (env : Env) (o : AccOpts) (pl : Plan) (lanes : List Nat) (kind : Env → Nat → AccKind) : Env :=
  lanes.foldl (fun e t => e.addAccess o t (wordInt (pl.base t)) (env.pieces pl t (pl.runs t) pl.off) (kind e t)) env

/-- The accesses of an instruction once its checks have passed and the lines it touches are present (R159, R166). -/
def Env.makeAccess (env : Env) (o : AccOpts) (pl : Plan) (lanes : List Nat) (kind : Env → Nat → AccKind) : Res :=
  match env.checkPlan pl with
  | some r => r
  | none =>
    match env.absentLines pl with
    | [] => .done ((env.touchPlan pl).addLanes o pl lanes kind)
    | ls => .hold (.retryLines ls)

/-! ### Copies and acquires -/

/-- The copies that the warps of a core in a context may read or update: its L1's, what it has read ahead, and the remote ways
of the context's partition on its die (R254, R257). -/
def CopyAt.of (c : CopyAt) (ctx core : Nat) : Bool :=
  match c with
  | .l1 k => k = core
  | .ahead k => k = core
  | .remote d x => d = core / 128 && x = ctx
  | .icache _ => false

/-- Bytes first to first + n − 1 of a line's copy. -/
def Copy.bytes (c : Copy) (k n : Nat) : Nat := c.data / 256 ^ (k - c.line * 128) % 256 ^ n

/-- The copy of a line that a core's access meets: in L1, read ahead, then in the remote ways. -/
def State.copyOf (s : State) (ctx core line : Nat) : Option Copy :=
  let at_ (q : CopyAt) : Option Copy := s.copies.find? (fun c => c.line = line && c.at_ = q)
  ((at_ (.l1 core)).or (at_ (.ahead core))).or (at_ (.remote (core / 128) ctx))

/-- The current bytes of a line with its poison marks (R269). -/
def State.lineAt (s : State) (at_ : CopyAt) (line : Nat) : Copy :=
  { at_ := at_, line := line, data := readBytes s.mem (line * 128) 128, bad := s.poison.filter (fun p => poisonHits p (line * 128) 128) }

/-- Brings a line's current bytes into a place that has room for a number of lines; the oldest goes (R254, R257). -/
def State.fillCopy (s : State) (room : Nat) (at_ : CopyAt) (line : Nat) : State :=
  let rest := s.copies.filter (fun c => !(c.line = line && c.at_ = at_))
  { s with copies := keepFirst (fun c => c.at_ = at_) room (s.lineAt at_ line :: rest) }

/-- Refreshes the copies of a line that a core's reads may meet, when there are any (R274). -/
def State.refreshCopies (s : State) (ctx core line : Nat) : State :=
  { s with copies := s.copies.map (fun c => if c.line = line && c.at_.of ctx core then s.lineAt c.at_ line else c) }

/-- Writes bits into a copy of a line. -/
def Copy.splice (c : Copy) (p : Piece) (v : Nat) : Copy :=
  let lo := max p.pos (c.line * 1024)
  let hi := min (p.pos + p.len) (c.line * 1024 + 1024)
  if lo < hi then { c with data := spliceBits c.data (lo - c.line * 1024) (hi - lo) (v / 2 ^ (lo - p.pos)) } else c

/-- The copies that a store of a core updates: its L1's, what it has read ahead, and the remote ways of its die, whichever context's
partition holds them (R254, R257). -/
def CopyAt.written (c : CopyAt) (core : Nat) : Bool :=
  match c with
  | .l1 k => k = core
  | .ahead k => k = core
  | .remote d _ => d = core / 128
  | .icache _ => false

/-- A store updates the copies of the issuing core and die (R254, R257). -/
def State.updateCopies (s : State) (core : Nat) (p : Piece) (v : Nat) : State :=
  { s with copies := s.copies.map (fun c => if c.at_.written core then c.splice p v else c) }

/-- A core lies in the core, the cluster or the die of another (R25). -/
def coreNear (scope a b : Nat) : Bool :=
  match scope with
  | 2 => a = b
  | 3 => a / 2 = b / 2
  | 4 => a / 128 = b / 128
  | _ => false

/-- A card's write that an acquire of a core at a scope pairs with, each within the scope of the other, is released for all of the
card's SCOPE; until then it is for the engine's cluster (R190, R277; log entry 16). -/
def Access.raised (b : Access) (core scope : Nat) : Access :=
  if coreNear b.card b.core core && (5 ≤ scope || coreNear scope core b.core) then { b with relAt := max b.relAt b.card } else b

/-- What an acquire of a core at a scope does to a context's accesses. -/
def Context.raise (x : Context) (core scope : Nat) : Context := { x with accesses := x.accesses.map (fun b => b.raised core scope) }

/-- An acquire invalidates the core's L1 lines at cluster scope or wider and the die's remote-way lines at package scope or wider
(R165); nothing that the core has read ahead outlives one (R276). The writes of cards that it pairs with are released for it (R277). -/
def State.acquire (s : State) (core scope : Nat) : State :=
  { s with
    copies := s.copies.filter (fun c =>
      match c.at_ with
      | .l1 k => !(3 ≤ scope && k = core)
      | .ahead k => k ≠ core
      | .remote d _ => !(5 ≤ scope && d = core / 128)
      | .icache _ => true)
    ctxs := s.ctxs.map (fun x => x.raise core scope) }

/-- An acquire of a core at a scope, with a context as it then is. -/
def State.acquireWith (s : State) (x : Context) (core scope : Nat) : State := (s.acquire core scope).setCtx (x.raise core scope)

/-- The numbers of what a warp has issued behind an acquire, as the acquire takes effect: they then lie behind all that is in flight
(R276). -/
def laterBy (id n k : Nat) : Nat := if id < k then n + (k - id) else k

/-- A fence that stands behind an acquire is renumbered with it. -/
def Park.behind (k : Park) (id n : Nat) : Park :=
  match k with
  | .fence a r m sc d upTo pc act => .fence a r m sc d (laterBy id n upTo) pc act
  | k => k

/-- Renumbers what a warp has issued behind an acquire, as it takes effect: its accesses, its operations on handles, its fence. -/
def Context.behind (x : Context) (uid id n : Nat) : Context :=
  let late (b : Access) : Bool := b.uid = uid && id < b.id
  let fence (w : Warp) : Warp :=
    { w with park := w.park.map (fun k => k.behind id n)
             saved := w.saved.map (fun v => { v with park := v.park.map (fun k => k.behind id n) }) }
  { x with
    accesses := x.accesses.filter (fun b => !late b) ++ (x.accesses.filter late).map (fun b => { b with id := laterBy id n b.id })
    engOps := x.engOps.map (fun o => if o.uid = uid then { o with id := laterBy id n o.id } else o)
    warps := x.warps.map (fun w => if w.uid = uid then fence w else w) }

/-- The acquire that an access makes as it takes effect (R165, R276). -/
def Access.acquired (a : Access) (s : State) (x : Context) : State × Context :=
  match a.acq with
  | none => (s, x)
  | some sc => ({ s.acquire a.core sc with nextId := s.nextId + (s.nextId - a.id) }, (x.raise a.core sc).behind a.uid a.id s.nextId)

/-! ### Poison -/

/-- Some bits of a poison entry's granule are not in a list of pieces; an entry of no size is left. -/
def granuleLeft (ps : List Piece) (p : Nat) : Bool :=
  p % 64 = 0 || (List.range (p % 64 * 8)).any (fun i => !ps.any (fun q => q.pos ≤ p / 64 * 8 + i && p / 64 * 8 + i < q.pos + q.len))

/-- A store clears the mark of every granule that it writes whole, here and in the copies that it updates (R269). -/
def State.clearPoison (s : State) (core : Nat) (ps : List Piece) : State :=
  { s with poison := s.poison.filter (granuleLeft ps)
           copies := s.copies.map (fun c => if c.at_.written core then { c with bad := c.bad.filter (granuleLeft ps) } else c) }

/-- Writes a piece of data at its home. -/
def State.putPiece (s : State) (p : Piece) (data : Nat) : State := { s with mem := writeBits s.mem p.pos p.len (data / 2 ^ p.off) }

/-- The remote ways of a die, whichever context's partition they are (R257). -/
def CopyAt.remoteOf (k : CopyAt) (die : Nat) : Bool :=
  match k with
  | .remote d _ => d = die
  | _ => false

/-- Writes a run of bits for an engine at its home, and in the copies of the remote ways of a die (R257). -/
def engPut (s : State) (die : Nat) (ps : List Piece) (v : Nat) : State :=
  ps.foldl (fun s p =>
    let s := s.putPiece p v
    { s with copies := s.copies.map (fun y =>
        if y.at_.remoteOf die && y.line = p.pos / 1024 then y.splice p (v / 2 ^ p.off) else y) }) s

/-- Clears the poison of every granule that a list of pieces writes whole, at its home and in the copies written (R269). -/
def clearWritten (s : State) (die : Nat) (ps : List Piece) : State :=
  { s with poison := s.poison.filter (granuleLeft ps)
           copies := s.copies.map (fun y => if y.at_.remoteOf die then { y with bad := y.bad.filter (granuleLeft ps) } else y) }

/-- Writes data at its home and in the copies that a store of the core updates. -/
def State.putData (s : State) (core : Nat) (ps : List Piece) (data : Nat) : State :=
  ps.foldl (fun s p => (s.putPiece p data).updateCopies core p (data / 2 ^ p.off)) s

/-- The granules in error that a core's read of a byte meets, by their first keys. -/
def State.badByte (s : State) (ctx core : Nat) (fromCopy : Bool) (k : Nat) : List Nat :=
  match (if fromCopy then s.copyOf ctx core (k / 128) else none) with
  | some c => (c.bad.filter (fun p => poisonHits p k 1)).map (fun p => p / 64)
  | none => s.badGranules k 1

/-- The granules in error that a core's read of pieces meets, each once (R355). -/
def State.badData (s : State) (ctx core : Nat) (fromCopy : Bool) (ps : List Piece) : List Nat :=
  (ps.flatMap (fun p => (List.range ((p.pos % 8 + p.len + 7) / 8)).flatMap (fun i => s.badByte ctx core fromCopy (p.pos / 8 + i)))).eraseDups

/-- The granules in error that pieces touch at their homes. -/
def State.badPieces (s : State) (ps : List Piece) : List Nat :=
  (ps.flatMap (fun p => s.badGranules (p.pos / 8) ((p.pos % 8 + p.len + 7) / 8))).eraseDups

/-- One byte as a core reads it: from a copy of its line when it takes copies and one is there, else from its home. -/
def State.seenByte (s : State) (ctx core : Nat) (fromCopy : Bool) (k : Nat) : Nat :=
  match (if fromCopy then s.copyOf ctx core (k / 128) else none) with
  | some c => c.bytes k 1
  | none => (memByte s.mem k).toNat

/-- n bytes as a core reads them. -/
def State.seenBytes (s : State) (ctx core : Nat) (fromCopy : Bool) (k : Nat) : Nat → Nat
  | 0 => 0
  | n + 1 => s.seenByte ctx core fromCopy k + 256 * s.seenBytes ctx core fromCopy (k + 1) n

/-- The data of a list of pieces as a core reads it. -/
def State.getData (s : State) (ctx core : Nat) (fromCopy : Bool) (ps : List Piece) : Nat :=
  ps.foldl (fun acc p =>
    let raw := s.seenBytes ctx core fromCopy (p.pos / 8) ((p.pos % 8 + p.len + 7) / 8)
    acc + (raw / 2 ^ (p.pos % 8) % 2 ^ p.len) * 2 ^ p.off) 0

/-- The lines that a piece touches. -/
def Piece.lines (p : Piece) : List Nat := (List.range ((p.pos + p.len - 1) / 1024 - p.pos / 1024 + 1)).map (fun j => p.pos / 1024 + j)
/-- The lines that pieces touch. -/
def linesOf (ps : List Piece) : List Nat := (ps.flatMap Piece.lines).eraseDups

/-! ### When an access may be performed -/

/-- Two lists of pieces touch one byte. -/
def piecesMeet (ps qs : List Piece) : Bool :=
  ps.any (fun p => qs.any (fun q => p.pos / 8 ≤ (q.pos + q.len - 1) / 8 && q.pos / 8 ≤ (p.pos + p.len - 1) / 8))
/-- Two accesses touch one byte. -/
def Access.overlaps (a b : Access) : Bool := piecesMeet a.pieces b.pieces
/-- Two accesses touch one line. -/
def Access.sharesLine (a b : Access) : Bool := (linesOf a.pieces).any (linesOf b.pieces).contains
/-- A store. -/
def AccKind.isStore : AccKind → Bool
  | .store _ => true
  | _ => false

/-- An access that only writes: a store, or a member's. -/
def AccKind.isWrite : AccKind → Bool
  | .store _ => true
  | .member _ _ _ _ _ => true
  | _ => false

/-- The space of a key: 0 local HBM, 1 + PEER another target, above that vault and SRAM. -/
def keySpace (k : Nat) : Nat := k / keyTag
/-- A port of the package is live (R321): none is outside a pod. -/
def State.portLive (s : State) (k : Nat) : Bool := s.pod.isSome && s.rdy.getLsbD (16 + k)
/-- A byte exists at its target and a live path leads there (R322 to R324). -/
def State.reachable (s : State) (k : Nat) : Bool :=
  let t := keySpace k
  let o := k % keyTag
  if t = 0 then o < Config.hbmBytes
  else if 0x100 ≤ t then true
  else if 0x80 ≤ t - 1 then o < Config.nodeBytes && s.portLive (t - 1 - 0x80)
  else o < Config.hbmBytes && (List.range 16).any s.portLive

/-- A byte exists at its target (R322). -/
def byteExists (k : Nat) : Bool :=
  let t := keySpace k
  let o := k % keyTag
  if t = 0 then o < Config.hbmBytes
  else if 0x100 ≤ t then true
  else if 0x80 ≤ t - 1 then o < Config.nodeBytes else o < Config.hbmBytes

/-- The node whose port carries an access of a multicast member, which its group's home carries out (R335). -/
def AccKind.home : AccKind → Option Nat
  | .member _ h _ _ _ => some h
  | _ => none
/-- A member's store of MSTO, which the home puts in one order (R174, R283). -/
def AccKind.isOrdered : AccKind → Bool
  | .member _ _ _ o _ => o
  | _ => false

/-- Every piece of an access exists and can be reached; a multicast's members are reached from its home, while the port to it
lives (R324, R335, R337). -/
def State.accessOk (s : State) (a : Access) : Bool :=
  a.pieces.all (fun p =>
    match a.kind.home with
    | some h => s.portLive (h - 0x80) && byteExists (p.pos / 8) && byteExists ((p.pos + p.len - 1) / 8)
    | none => s.reachable (p.pos / 8) && s.reachable ((p.pos + p.len - 1) / 8))

/-- Every local line that a piece touches lies in a stack that is ready (R356). -/
def State.pieceReady (s : State) (p : Piece) : Bool := p.lines.all (fun l => keySpace (l * 128) ≠ 0 || s.hbmReady (l * 128))
/-- Every local line of an access lies in a stack that is ready (R356). -/
def State.accessReady (s : State) (a : Access) : Bool := a.pieces.all s.pieceReady

/-- An ASTO of a warp, issued before a number, whose writes are still to come (R205). -/
def Context.astoBefore (x : Context) (uid id : Nat) : Bool := x.engOps.any (fun o => o.uid = uid && o.op = 3 && o.id < id)

/-- An ASTO of a warp, issued before a number, is still to write one of some lines, by their keys divided by 128 (R163, R205). -/
def Context.astoOn (x : Context) (uid id : Nat) (ls : List Nat) : Bool :=
  x.engOps.any (fun o => o.uid = uid && o.op = 3 && o.id < id && o.lines.any ls.contains)

/-- A key of an SRAM array. -/
def keyIsSram (k : Nat) : Bool := 0x100 ≤ keySpace k && 0x400 ≤ (keySpace k - 0x100) % 0x1000

/-- A store that a release has covered before it is performed is released for an observer of a core (R273). -/
def Access.releasedFor (b : Access) (core : Nat) : Bool := coreNear b.relAt b.core core

/-- A release of a warp of a core covers an access: the warp's own, or one released for the core, which it so passes on (R278; log
entry 16). -/
def Access.covered (b : Access) (uid core : Nat) : Bool := b.uid = uid || b.releasedFor core

/-- A release may cover an access before it is performed for observers outside its scope: a store outside the scratchpad. -/
def Access.deferrable (b : Access) : Bool := b.kind.isStore && !b.pieces.any (fun p => keyIsSram (p.pos / 8))

/-- A release at a scope that covers an access must perform it (R276, R278): no release of this scope has covered it yet; at die scope
and below, only where it cannot be performed later for the observers outside. -/
def Access.due (b : Access) (scope : Nat) : Bool := b.relAt < scope && (5 ≤ scope || !b.deferrable)

/-- A release of a warp at a scope must perform an access. -/
def Access.mustGo (b : Access) (uid core scope : Nat) : Bool := b.covered uid core && b.due scope

/-- A store that is released for an observer's core stands before what the observer reads, and before what it writes later (R273,
R276, R278). -/
def Access.shields (b : Access) (uid core id : Nat) (write : Bool) (ps : List Piece) : Bool :=
  b.uid ≠ uid && (!write || b.id < id) && b.releasedFor core && piecesMeet b.pieces ps

/-- A store that is released for an observer that belongs to a cluster (level 3) or to a die (level 4) stands before what the
observer reads or writes (R272, R273). -/
def Access.shieldsUnit (b : Access) (level core : Nat) (ps : List Piece) : Bool :=
  level ≤ b.relAt && b.releasedFor core && piecesMeet b.pieces ps

/-- The accesses in flight of the other contexts. -/
def State.foreign (s : State) (x : Context) : List Access := (s.ctxs.filter (fun y => y.id ≠ x.id)).flatMap (fun y => y.accesses)
/-- The accesses in flight, those of a context as it is (R272): every warp of a scope, of whatever context, lies within it. -/
def State.flying (s : State) (x : Context) : List Access := x.accesses ++ s.foreign x

/-- A unit of a cluster or a die must wait for a store released for it before it takes some pieces. -/
def State.shielded (s : State) (x : Context) (level core : Nat) (ps : List Piece) : Bool :=
  (s.flying x).any (fun b => b.shieldsUnit level core ps)

/-- A store that is released for a core, and that will not update its L1, is still to be performed at a line: the core keeps no copy of
the line meanwhile, which would outlive the store (R273, R276). -/
def State.unsettled (s : State) (core line : Nat) : Bool :=
  s.ctxs.any (fun x => x.accesses.any (fun b => b.releasedFor core && (b.card ≠ 0 || b.core ≠ core) && b.pieces.any (fun p => p.lines.contains line)))

/-- A release of a warp of a core at a scope finds an earlier store of another context that is released for the core and not for the
scope: it stands before the release, which waits for it (R276, R278). -/
def State.foreignDue (s : State) (x : Context) (core scope id : Nat) : Bool :=
  (s.foreign x).any (fun b => b.id < id && b.releasedFor core && b.relAt < scope)

/-- A release at a scope finds an earlier access that it must perform. -/
def Context.unreleased (x : Context) (uid core scope id : Nat) : Bool :=
  x.accesses.any (fun b => b.id < id && b.mustGo uid core scope)

/-- What a release covers without performing it is marked with its scope (R178, R276, R278): it may still be performed later for
observers outside. -/
def Context.markAs (x : Context) (p : Access → Bool) (scope id : Nat) : Context :=
  if 5 ≤ scope then x
  else { x with accesses := x.accesses.map (fun b =>
    if b.id < id && p b && b.deferrable then { b with relAt := max b.relAt scope } else b) }

/-- The marks of a release of a warp. -/
def Context.markReleased (x : Context) (uid core scope id : Nat) : Context := x.markAs (fun b => b.covered uid core) scope id

/-- The order of one warp's accesses (R163, R165, R205, R276): no earlier access to one of the same bytes, but for the other
lanes of one store; no earlier acquire, nothing of an earlier instruction before a release, and no earlier ASTO before a release or an
access to the lines that it writes; the MSTOs of a context reach each member in one order (R174). -/
def Context.inOrder (x : Context) (a : Access) : Bool :=
  !(x.accesses.any (fun b => b.uid = a.uid && b.id < a.id &&
      (b.acq.isSome || (b.overlaps a && !(a.kind.isStore && b.ins = a.ins))))) &&
    (match a.rel with
     | some sc => !{ x with accesses := x.accesses.filter (fun b => !(b.uid = a.uid && b.ins = a.ins)) }.unreleased a.uid a.core sc a.id
     | none => true) &&
    !(a.kind.isOrdered && x.accesses.any (fun b => b.kind.isOrdered && b.id < a.id && b.overlaps a)) &&
    !(x.astoBefore a.uid a.id && a.rel.isSome) && !(x.astoOn a.uid a.id (linesOf a.pieces))

/-- The order of an access among those of other warps, of whatever context (R272, R273, R276, R278): a store released for its core to
bytes that it touches comes first, and before a release what that must perform. -/
def Context.inTurn (x : Context) (s : State) (a : Access) : Bool :=
  !((s.flying x).any (fun b => b.shields a.uid a.core a.id a.kind.isWrite a.pieces)) &&
    (match a.rel with
     | some sc => !s.foreignDue x a.core sc a.id
     | none => true)

/-- The source of a SHFLX in another warp is not empty, or its warp has ended, or it is not allocated (R121). -/
def Context.peekReady (x : Context) (uid reg lane : Nat) : Bool :=
  match x.warp? uid with
  | none => true
  | some w => !(w.vmark reg lane).isEmpty || w.nregs ≤ reg

/-- Whether an access may be performed now: no line of scratchpad that it touches is absent (R166). -/
def canPerform (s : State) (x : Context) (a : Access) : Bool :=
  s.accessReady a && s.accessOk a && x.inOrder a && x.inTurn s a && !(linesOf a.pieces).any x.absent.contains &&
    (match a.kind with | .peek u r l _ => x.peekReady u r l | _ => true)

/-- Adds to a list of accesses those of another that share a line with it, as far as that goes. -/
def growGroup : Nat → List Access → List Access → List Access
  | 0, g, _ => g
  | n + 1, g, r =>
    let more := r.filter (fun b => g.any b.sharesLine)
    if more.isEmpty then g else growGroup n (g ++ more) (r.filter (fun b => !g.any b.sharesLine))

/-- The accesses that take effect together with one (R163): for a store, those of the same instruction that its lines join to
it, in lane order, so that no observer reads a lower lane's value. -/
def storeGroup (s : State) (x : Context) (a : Access) : List Access :=
  if a.kind.isStore then
    let mine := x.accesses.filter (fun b => b.uid = a.uid && b.ins = a.ins && b.kind.isStore && s.accessOk b)
    let g := (growGroup mine.length [a] (mine.filter (fun b => b.id ≠ a.id))).map (fun b => b.id)
    mine.filter (fun b => g.contains b.id)
  else [a]

/-! ### Performing -/

/-- The integer atomics (R176) on n-bit values. -/
def atomicOp (op : Nat) (sgn : Bool) (w old v : Nat) : Nat :=
  let lt (a b : Nat) : Bool := if sgn then signedOf w a < signedOf w b else a < b
  match op with
  | 0 => (old + v) % 2 ^ w
  | 1 => (old + (2 ^ w - v)) % 2 ^ w
  | 2 => if lt v old then v else old
  | 3 => if lt old v then v else old
  | 4 => old &&& v
  | 5 => old ||| v
  | 6 => old ^^^ v
  | 7 => v
  | _ => if v ≤ old then 0 else (old + 1) % 2 ^ w

/-- FATOM on one word (R148, R177): no draw, +0 where the slot writes +0, bits above the elements zero. -/
def fatomOp (op : Nat) (f : Fmt) (old v : Word) : Word :=
  packElems f.width ((List.range f.elems).map (fun i =>
    let a := f.code old i
    let b := f.code v i
    match op with
    | 0 => (f.encodeEngine (Val.sum [f.decode a, f.decode b] f.engineRm) f.engineRm (f.signBit a)).1
    | _ =>
      let x := f.decode a
      let y := f.decode b
      if x.isNan && y.isNan then f.nanCode
      else (f.encode (if op = 2 then Val.min x y else Val.max x y) .rne false 0).getD 0))

/-- Owes a result to a warp (R91). -/
def Context.owe (x : Context) (id uid : Nat) (d : Dest) (v : Word) (bad : Option BadData) : Context :=
  { x with owed := x.owed ++ [{ id := id, uid := uid, dest := d, value := v, bad := bad }] }

/-- The value of a load from its data (R165, R169, R171). -/
def loadValue (bytes : Nat) (sx : Bool) (keep : Word) (data : Nat) : Word :=
  if sx then BitVec.ofInt 64 (signedOf (8 * bytes) (data % 2 ^ (8 * bytes))) else BitVec.ofNat 64 data ||| keep

/-- Counts a line request of a MODE 11 page that misses in the die's L2 (R264); the table holds 256 pages, and the one that came
first gives way. -/
def State.countPage (s : State) (c : Option Nat) (die va n : Nat) : State :=
  if n = 0 then s
  else match s.migs.find? (fun m => m.die = die && m.ctx = c && m.va = va) with
  | some _ => { s with migs := s.migs.map (fun m =>
      if m.die = die && m.ctx = c && m.va = va then { m with count := m.count + n } else m) }
  | none =>
    let kept := if (s.migs.filter (fun m => m.die = die)).length < 256 then s.migs else
      match s.migs.find? (fun m => m.die = die) with
      | some v => s.migs.filter (fun m => m ≠ v)
      | none => s.migs
    { s with migs := kept ++ [{ die := die, ctx := c, va := va, count := n }] }

/-- Counts the lines of an access that go to a MODE 11 page and that the remote ways do not hold (R264). -/
def State.countMiss (s : State) (c core : Nat) (ps : List Piece) : State :=
  ps.foldl (fun s p =>
    if p.mode ≠ 3 then s
    else s.countPage (if p.shared then none else some c) (core / 128) p.page
      ((p.lines.filter (fun l => !s.copies.any (fun y => y.line = l && y.at_ = .remote (core / 128) c))).length)) s

/-- The lines of a core's L1: what the scratchpad's share leaves of 256 KiB (R12). -/
def l1Lines (p : CtxParams) : Nat := (8 - p.spk) * 256
/-- The lines of a partition's remote ways on a die: L2RMT of the 2,048 sets of each slice (R13, R255). -/
def remoteLines (p : CtxParams) : Nat := p.l2rmt * 2048 * ((p.x1 - p.x0 + 1) * (p.y1 - p.y0 + 1))

/-- The remote ways of a die may hold a line: it is homed elsewhere (R255, R263). -/
def remoteHolds (die line : Nat) : Bool := keySpace (line * 128) ≠ 0 || Config.homeDie line % 4 ≠ die

/-- Where the lines of an access may be kept after it, by the MODE of each of its pages (R254, R257, R263): those that its core
reads are refreshed (R274). -/
def State.keepLines (s : State) (x : Context) (core : Nat) (cached : Bool) (ps : List Piece) : State :=
  { s with copies := (ps.foldl (fun s p => p.lines.foldl (fun s l =>
    let s := s.refreshCopies x.id core l
    let s := if keySpace (l * 128) < 0x100 && cached && p.mode ≠ 1 && !s.unsettled core l then s.fillCopy (l1Lines x.p) (.l1 core) l else s
    if keySpace (l * 128) < 0x100 && p.mode ≠ 1 && remoteHolds (core / 128) l then s.fillCopy (remoteLines x.p) (.remote (core / 128) x.id) l
    else s) s) s).copies }

/-- The lines of some pieces of which a core's read finds no copy: those it takes from their homes (R254, R264). -/
def State.uncopied (s : State) (ctx core : Nat) (ps : List Piece) : List Piece :=
  ps.flatMap (fun p => (p.lines.filter (fun l => (s.copyOf ctx core l).isNone)).map (fun l => { p with pos := l * 1024, len := 1024 }))

/-- Whether an access reaches another target than local memory, so that its errors are remote (R160, R324). -/
def Access.remote (a : Access) : Bool :=
  a.pieces.any (fun p => 0 < keySpace (p.pos / 8) && keySpace (p.pos / 8) < 0x100)

/-- The warp's remote-failure mark with the address of its first failure (R324). -/
def Context.failRemote (x : Context) (uid : Nat) (addr : Word) : Context :=
  { x with warps := x.warps.map (fun w => if w.uid = uid && w.remFail.isNone then { w with remFail := some addr.toNat } else w) }

/-- Tells the driver of an access. -/
def State.tellDriver (s : State) (a : Access) : State := { s with driverLog := s.driverLog ++ [a.addr] }

/-- The records of granules in error, consumed (02) or not (03) (R349, R350). -/
def State.recordKeys (s : State) (typ : BitVec 8) (keys : List Nat) : State :=
  keys.foldl (fun s k => s.record (badRecord typ k).1 (badRecord typ k).2) s

/-- What an uncorrectable error leaves behind besides a poisoned register (R160, R324, R349): every remote error goes to the driver;
an error that an atomic without .ret meets is recorded at once, and a remote one marks the warp. -/
def spoiled (s : State) (x : Context) (a : Access) (keys : List Nat) : State × Context :=
  if keys = [] then (s, x)
  else if a.kind.dests ≠ [] then (if a.remote then s.tellDriver a else s, x)
  else ((s.recordKeys 0x02 keys).tellDriver a, if a.remote then x.failRemote a.uid a.addr else x)

/-- The effect of an atomic at its home: the new value where no granule is in error, its old value where it returns. -/
def performAtomic (s : State) (x : Context) (a : Access) (write : Option Nat) (old : Word) (ret : Option Dest) : State :=
  let keys := s.badPieces a.pieces
  let s := s.countMiss x.id a.core a.pieces
  let q := spoiled s x a keys
  let s := match write with
    | some v => if keys = [] then (q.1.putData a.core a.pieces v).clearPoison a.core a.pieces else q.1
    | none => (linesOf a.pieces).foldl (fun s l => s.refreshCopies x.id a.core l) q.1
  let bad : Option BadData := if keys = [] then none else some { addr := a.addr, remote := a.remote, keys := keys }
  match ret with
  | some d => { s with nextId := s.nextId + 1 }.setCtx (q.2.owe s.nextId a.uid d old bad)
  | none => s.setCtx q.2

/-- What the release of an ordered access leaves to be performed later is marked as the access takes effect (R276, R278). -/
def Context.releaseOf (x : Context) (a : Access) : Context :=
  match a.rel with
  | some sc => x.markReleased a.uid a.core sc a.id
  | none => x

/-- The effect of an access at its home (R165, R172, R174, R176, R177), its results owed; the access leaves the list, and with
a store the others of its group. A load may take copies of the lines that it reads where no page is of MODE 01. -/
def performAccess (s : State) (x : Context) (a : Access) (fromCopy : Bool) : State :=
  let group := storeGroup s x a
  let x := x.releaseOf a
  let x := { x with accesses := x.accesses.filter (fun b => b.id ≠ a.id && !group.any (fun g => g.id = b.id)) }
  let take := fromCopy && a.pieces.all (fun p => p.mode ≠ 1)
  let p0 : Piece := a.pieces.headD { pos := 0, len := 0, off := 0 }
  match a.kind with
  | .load d hi bytes sx keep =>
    let data := s.getData x.id a.core take a.pieces
    let keys := s.badData x.id a.core take a.pieces
    let bad : Option BadData := if keys = [] then none else some { addr := a.addr, remote := a.remote, keys := keys }
    let home := if take then s.uncopied x.id a.core a.pieces else a.pieces
    let s := (s.countMiss x.id a.core home).keepLines x a.core a.cached home
    let q := spoiled s x a keys
    let x := q.2.owe q.1.nextId a.uid d (loadValue (min bytes 8) sx keep (data % 2 ^ 64)) bad
    let x := match hi with
      | some h => x.owe (q.1.nextId + 1) a.uid h (BitVec.ofNat 64 (data / 2 ^ 64)) bad
      | none => x
    let z := a.acquired { q.1 with nextId := q.1.nextId + 2 } x
    z.1.setCtx z.2
  | .store data =>
    if a.card ≠ 0 then (clearWritten (engPut s (a.core / 128) a.pieces data) (a.core / 128) a.pieces).setCtx x
    else
      let s := (if group = [] then [a] else group).foldl (fun s b =>
        (s.countMiss x.id b.core b.pieces).putData b.core b.pieces
          (match b.kind with | .store v => v | _ => data)) s
      (s.clearPoison a.core ((if group = [] then [a] else group).flatMap (fun b => b.pieces))).setCtx x
  | .member _ _ _ _ data => ((s.putData a.core a.pieces data).clearPoison a.core a.pieces).setCtx x
  | .atomic op sgn bytes data ret =>
    let old := readBits s.mem p0.pos (8 * bytes)
    performAtomic s x a (some (atomicOp op sgn (8 * bytes) old data)) (BitVec.ofNat 64 old) ret
  | .acas bytes cmp new d =>
    let old := readBits s.mem p0.pos (8 * bytes)
    performAtomic s x a (if old = cmp then some new else none) (BitVec.ofNat 64 old) (some d)
  | .fatom op slot data ret =>
    let old := BitVec.ofNat 64 (readBits s.mem p0.pos 64)
    performAtomic s x a (some (fatomOp op (Fmt.ofWord slot) old data).toNat) old ret
  | .peek u reg lane d =>
    let far : Option Warp := (x.warp? u).bind (fun w => if reg < w.nregs then some w else none)
    let s := match far with
      | some w => if w.vmark reg lane = Mark.regError then s.record (w.errorRec reg).1 (w.errorRec reg).2 else s
      | none => s
    { s with nextId := s.nextId + 1 }.setCtx
      (x.owe s.nextId a.uid d (far.elim 0 (fun w => w.readV reg lane)) (far.bind (fun w => (w.vmark reg lane).carried reg)))

/-- A failed access (R175, R324, R335): a result poisoned, or the warp's mark and the address of its first failure, or
the member's bit of MSTAT; nothing is written, and the driver is told. An acquire is made and a release takes effect all the same
(R276, R290). -/
def failAccess (s : State) (x : Context) (a : Access) : State :=
  let x := x.releaseOf a
  let x := { x with accesses := x.accesses.filter (fun b => b.id ≠ a.id) }
  let s := s.tellDriver a
  let z := a.acquired s x
  let s := z.1
  let x := z.2
  match a.kind with
  | .member m _ trap _ _ =>
    s.setCtx { x with warps := x.warps.map (fun w =>
      if w.uid = a.uid then { w with mstat := w.mstat ||| BitVec.ofNat 64 (2 ^ m), mtrap := w.mtrap || trap } else w) }
  | k =>
    match k.dests with
    | [] => s.setCtx (x.failRemote a.uid a.addr)
    | ds =>
      let x := ds.foldl (fun x d => x.owe (s.nextId + d.reg) a.uid d 0 (some { addr := a.addr, remote := true, keys := [] })) x
      { s with nextId := s.nextId + 512 }.setCtx x

/-- Performs or fails one access of a context, by number, when it may go; nothing otherwise. A store goes with its group. -/
def goAccess (s : State) (c id : Nat) (fromCopy : Bool) : State :=
  match s.ctx? c with
  | none => s
  | some x =>
    match x.accesses.find? (fun a => a.id = id) with
    | none => s
    | some a =>
      if (a :: storeGroup s x a).all (canPerform s x) then performAccess s x a fromCopy
      else if !s.accessOk a && x.inOrder a then failAccess s x a else s

/-- Performs at most n of the accesses of a context that satisfy a test, in order, from behind a number on. -/
def goFrom (c : Nat) (p : Access → Bool) : Nat → Nat → State → State
  | 0, _, s => s
  | n + 1, last, s =>
    match (s.ctx? c).bind (fun x => x.accesses.find? (fun a => p a && last < a.id)) with
    | none => s
    | some a => goFrom c p n a.id (goAccess s c a.id false)

/-- Performs accesses of a context in order. -/
def goAccesses (s : State) (c : Nat) (p : Access → Bool) : State :=
  match s.ctx? c with
  | none => s
  | some x => goFrom c p x.accesses.length 0 s

/-- Performs every access of a warp in order (a release: R276, R178). -/
def drainWarp (s : State) (c uid : Nat) : State := goAccesses s c (fun a => a.uid = uid)

/-- A warp has no access in flight. -/
def Context.quietWarp (x : Context) (uid : Nat) : Bool := !(x.accesses.any (fun a => a.uid = uid))

/-- Performs the accesses that satisfy a test before the issuing instruction takes effect; none where one of them must still wait,
or an ASTO's writes are still to come (R205). -/
def Env.perform (env : Env) (p : Access → Bool) : Option Env :=
  if env.ctx.astoBefore env.w.uid env.id then none
  else
    let s := goAccesses env.commit env.ctx.id p
    match s.ctx? env.ctx.id with
    | none => none
    | some y =>
      match y.warp? env.w.uid with
      | none => none
      | some w => if y.accesses.any p then none else some { env with dev := s, ctx := y, w := w }

/-- A release at a scope of the accesses that satisfy a test, before the instruction takes effect (R276, R278): what it must perform is
performed, and the other stores are marked. -/
def Env.releaseFor (env : Env) (scope : Nat) (p : Access → Bool) : Option Env :=
  if env.dev.foreignDue env.ctx env.core scope env.id then none
  else (env.perform (fun b => p b && b.due scope)).map (fun e => { e with ctx := e.ctx.markAs p scope e.id })

/-- An acquire of the issuing warp at a scope (R276). -/
def Env.acquire (env : Env) (scope : Nat) : Env :=
  { env with dev := env.dev.acquire env.core scope, ctx := env.ctx.raise env.core scope }

/-- A release of the issuing warp at a scope before its instruction takes effect (R276, R278). -/
def Env.releaseAt (env : Env) (scope : Nat) : Option Env := env.releaseFor scope (fun b => b.covered env.w.uid env.core)

/-- A release of everything that the warp has issued. -/
def Env.release (env : Env) : Option Env := env.releaseAt 6

/-- An acquire of the issuing warp is in flight, and holds its later reads (R276). -/
def Env.acquiring (env : Env) : Bool := env.ctx.accesses.any (fun a => a.uid = env.w.uid && a.acq.isSome)

/-! ### Results -/

/-- The other half of the result of one access (LD2), while it is still owed with an error to record. -/
def Context.twin (x : Context) (o : Owed) : Option Owed :=
  x.owed.find? (fun y => y.uid = o.uid && y.dest.prod = o.dest.prod && y.dest.lane = o.dest.lane && y.id ≠ o.id &&
    (match y.bad with | some b => b.keys ≠ [] | none => false))

/-- The record of an error in a result that arrives, once for its access (R349): as consumed when a half of it reaches its register,
else as not consumed with the last half (R346). -/
def noteResult (s : State) (x : Context) (o : Owed) (used : Bool) : State × Context :=
  match o.bad, x.twin o with
  | none, _ => (s, x)
  | some b, none => (s.recordKeys (if used then 0x02 else 0x03) b.keys, x)
  | some b, some t =>
    if used then
      (s.recordKeys 0x02 b.keys,
       { x with owed := x.owed.map (fun y => if y.id = t.id then { y with bad := t.bad.map (fun c => { c with keys := [] }) } else y) })
    else (s, x)

/-- A result arrives (R91): it fills its register, or is discarded for a stale generation or an exited thread (GTDROP) or
because a later producer took the register (WAWDROP); an uncorrectable error in it is recorded as consumed or not (R346,
R349). -/
def returnResult (s : State) (x : Context) (o : Owed) : State :=
  let x := { x with owed := x.owed.filter (fun y => y.id ≠ o.id) }
  let lost (f : Context → Context) : State := let q := noteResult s x o false; q.1.setCtx (f q.2)
  match x.warp? o.uid with
  | none => lost (fun x => { x with gtdrop := x.gtdrop + 1 })
  | some w =>
    let stale := if o.dest.uniform then false
      else !(w.live.has o.dest.lane) || w.nregs ≤ o.dest.reg || o.dest.allocGen ≠ w.allocGen
    let mark := if o.dest.uniform then w.smark o.dest.reg else w.vmark o.dest.reg o.dest.lane
    if stale then lost (fun x => { x with gtdrop := x.gtdrop + 1 })
    else if mark ≠ .empty o.dest.prod then lost (fun x => { x with wawdrop := x.wawdrop + 1 })
    else
      let w := match o.bad with
        | some b =>
          if o.dest.uniform then w.markS o.dest.reg (.poison b.addr b.remote)
          else w.markV o.dest.reg o.dest.lane (.poison b.addr b.remote)
        | none =>
          if o.dest.uniform then w.writeS o.dest.reg o.value else w.writeV o.dest.reg o.dest.lane o.value
      let q := noteResult s x o true
      q.1.setCtx (q.2.setWarp w)

end Sys2Proof.Machine
end

