-- ==== Sys2Proof/Machine/Control.lean ====
section
/-! DEFINITION. Control transfer, waiting and priority: opcodes 0x00 to 0x0D but EXIT (R107 to R117). -/

namespace Sys2Proof.Machine

/-- Sends the threads of a set to a PC at a priority (R34). -/
def Env.send (env : Env) (m : Mask) (pc : Nat → PC) (pri : BitVec 8) : Env :=
  { env with moves := m.lanes.map (fun t => (t, pc t, pri)) }
/-- Parks the warp, whose threads go on at PC + 8 (R32). -/
def Env.parkOn (env : Env) (k : Park) : Env := { env with w := { env.w with park := some k } }
/-- PC + 8 × sext(OFF32) (R84). -/
def Env.target (env : Env) (off : BitVec 32) : PC := env.e.pc + BitVec.ofInt 57 (8 * off.toInt)
/-- The options of a branch (R43). -/
def Opts.jump : Opts := { Opts.plain with branch := true }
/-- The options of an instruction that resets WC when P is not empty (R43). -/
def Opts.resets : Opts := { Opts.plain with reset := true }

/-- The bits of a target that must be zero (R109). -/
def targetBad (x : Word) : Bool := x.toNat / 2 ^ 57 ≠ 0 || x.toNat % 8 ≠ 0
/-- TARGET_INVALID over P (R109). -/
def Env.checkTarget (env : Env) (a : BitVec 8) : Option Res :=
  env.trapLanes .targetInvalid (fun t => targetBad (env.v a t)) (fun t => env.v a t)

/-- NOP (R107). -/
def execNop (r : RRR) (s : State) : Host.Outcome State Fault Refusal := issueDone (.nop r) .plain s id

/-- BRA (R108). -/
def execBra (r : BF) (s : State) : Host.Outcome State Fault Refusal :=
  issueDone (.bra r) .jump s (fun env => env.send env.p (fun _ => env.target r.off) r.tpri)

/-- BRU.any (R108). The active threads stay together: the guard of any one of them sends all. -/
def execBruAny (r : BF) (s : State) : Host.Outcome State Fault Refusal :=
  issueDone (.bruAny r) .jump s (fun env => env.send env.e.mask (fun _ => env.target r.off) r.tpri)

/-- BRU.all (R108). -/
def execBruAll (r : BF) (s : State) : Host.Outcome State Fault Refusal :=
  issueDone (.bruAll r) .jump s (fun env =>
    if env.p = env.e.mask then env.send env.e.mask (fun _ => env.target r.off) r.tpri else env)

/-- BRX (R109). -/
def execBrx (r : RI) (s : State) : Host.Outcome State Fault Refusal :=
  issue (.brx r) .jump s (fun env =>
    match env.checkTarget r.a with
    | some x => x
    | none => .done (env.send env.p (fun t => (env.v r.a t).setWidth 57) (r.imm.setWidth 8)))

/-- A window offset of a thread's call stack (R35, R168). -/
def Env.stackOff (env : Env) (t : Nat) : Int := ((smGet (0 : Nat) env.w.csp t : Nat) : Int) - env.window t
/-- The 16 bytes of a call record at a displacement from CSP. -/
def Env.recordPlan (env : Env) (disp : Int) (write : Bool) : Plan :=
  { space := .priv, uniA := 0, runs := fun t => [{ pos := (env.stackOff t + disp) * 8, len := 128 }],
    base := fun t => env.stackOff t + disp, align := 1, read := !write, write := write
    packed := false, off := 0 }
/-- A call record (R35). -/
def callRecord (gen : Nat) (rpc : PC) (pri : BitVec 8) : Nat := gen * 2 ^ 57 + rpc.toNat + pri.toNat * 2 ^ 64

/-- The push of a call record for each thread of P and the transfer (R35, R110). -/
def Env.callTo (env : Env) (pc : Nat → PC) (tpri : BitVec 8) : Res :=
  let env' := { env with w := { env.w with csp := env.p.lanes.foldl (fun m t => smPut 0 m t (smGet 0 m t - 16)) env.w.csp } }
  match env.makeAccess .plain (env.recordPlan (-16) true) env.p.lanes
      (fun _ _ => .store (callRecord (env.genAt env.next) env.next env.e.pri)) with
  | .done e => .done ({ e with w := { e.w with csp := env'.w.csp } }.send env.p pc tpri)
  | r => r

/-- CALL (R110). -/
def execCall (r : BF) (s : State) : Host.Outcome State Fault Refusal :=
  issue (.call r) .plain s (fun env => env.callTo (fun _ => env.target r.off) r.tpri)

/-- CALLX (R109, R110). -/
def execCallx (r : RI) (s : State) : Host.Outcome State Fault Refusal :=
  issue (.callx r) .plain s (fun env =>
    match env.checkTarget r.a with
    | some x => x
    | none => env.callTo (fun t => (env.v r.a t).setWidth 57) (r.imm.setWidth 8))

/-- A generation differs from that of the translation installed for the object that holds an address (R104). -/
def State.stale (s : State) (c gen : Nat) (pc : PC) : Bool :=
  match s.objectAt c pc.toNat with
  | none => false
  | some o => o.gen ≠ gen

/-- What every entry into firmware mode leaves in the warp (R131): the word and the active threads of the issue. -/
def Env.firmwareWord (env : Env) : Env := { env with w := { env.w with finsn := env.word, flact := env.e.mask } }
/-- What an entry into firmware mode with a cause leaves in the warp (R101, R104). -/
def Env.enterFirmware (env : Env) (c : Cause) : Env :=
  { env with w := { env.firmwareWord.w with fcause := BitVec.ofNat 9 c.code } }

/-- A stale RET goes on under the generation that is installed for the object that holds its return PC (R104); one that is deleted is
kept (R348). -/
def Env.refreshGen (env : Env) (pc : PC) : Env :=
  match env.dev.objectAt env.ctx.id pc.toNat with
  | some o => if o.gen = 0 then env else { env with w := { env.w with gens := smPut 0 env.w.gens o.base o.gen } }
  | none => env

/-- The record that a thread pops: what its own earlier pushes left (R111, R163). -/
def Env.popped (env : Env) (pl : Plan) (t : Nat) : Nat :=
  env.dev.getData env.ctx.id env.core false (env.pieces pl t (pl.runs t) 0)

/-- An access in flight stands before a read of some pieces that the issue itself makes: the warp's own of one of the bytes or an
acquire (R163, R276), or a store that a warp near it has released (R278). -/
def Env.awaits (env : Env) (ps : List Piece) : Bool :=
  env.acquiring || env.ctx.accesses.any (fun a => a.uid = env.w.uid && piecesMeet a.pieces ps) ||
    (env.dev.flying env.ctx).any (fun a => a.shields env.w.uid env.core env.id false ps)

/-- The pieces that a plan touches. -/
def Env.planPieces (env : Env) (pl : Plan) : List Piece := env.p.lanes.flatMap (fun t => env.pieces pl t (pl.runs t) 0)

/-- A read that the issue itself makes, once the warp's own accesses there are performed: an unreachable byte is
REMOTE_ERROR (R324) and an uncorrectable error DATA_ERROR (R269), precise as the entry's other causes (log entry 15). An error in
another target is remote too (R160, R324). -/
def Env.readNow (env : Env) (pl : Plan) : Option Res :=
  let ps (t : Nat) := env.pieces pl t (pl.runs t) 0
  let far (t : Nat) : Bool := (ps t).any (fun p => 0 < keySpace (p.pos / 8) && keySpace (p.pos / 8) < 0x100)
  let addr (t : Nat) : Word := wordInt (pl.base t)
  let fails (c : Cause) (bad : Nat → Bool) : Option Res :=
    let m := Mask.ofPred (fun t => env.p.has t && bad t)
    if m = 0 then none
    else some (.trap { cause := c, tval := addr m.low, mask := m
                       recs := ((m.lanes.flatMap (fun t => env.dev.badPieces (ps t))).eraseDups).map (badRecord 0x02)
                       told := if c = .remoteError then m.lanes.map addr else [] })
  if env.awaits (env.planPieces pl) || !(env.planPieces pl).all env.dev.pieceReady then
    some (.hold (.retrySources []))
  else
    match fails .remoteError (fun t => (ps t).any (fun p => !env.dev.reachable (p.pos / 8)) || (far t && env.dev.badPieces (ps t) ≠ [])) with
    | some r => some r
    | none => fails .dataError (fun t => env.dev.badPieces (ps t) ≠ [])

/-- What the lines of a read that the issue itself makes leave behind (R254, R264, R274). -/
def Env.keepRead (env : Env) (pl : Plan) : Env :=
  let ps := env.planPieces pl
  { env with dev := (env.dev.countMiss env.ctx.id env.core ps).keepLines env.ctx env.core true ps }

/-- What RET does in the threads of P (R111). A record whose generation is not that of the installed translation enters
firmware with TRANS_STALE, which completes the RET at the address that the record's side table gives (R104; log entry 7). An empty
stack is tested before any target (log entry 98). -/
def Env.ret (env : Env) : Res :=
  match env.trapLanes .callUnderflow (fun t => (env.pws : Int) ≤ env.stackOff t) (fun _ => 0) with
  | some x => x
  | none =>
    let pl := env.recordPlan 0 false
    match env.checkPlan pl with
    | some x => x
    | none =>
      match env.readNow pl with
      | some x => x
      | none =>
        let pop (t : Nat) : Nat := env.popped pl t
        let rpc (t : Nat) : PC := BitVec.ofNat 57 (pop t)
        match env.trapLanes .targetInvalid (fun t => (rpc t).toNat % 8 ≠ 0) (fun t => (rpc t).setWidth 64) with
        | some x => x
        | none =>
          let old := env.p.lanes.filter (fun t => env.dev.stale env.ctx.id (natBits (pop t) 63 57) (rpc t))
          let env := (env.touchPlan pl).keepRead pl
          let env := if old = [] then env else (old.map rpc).foldl Env.refreshGen (env.enterFirmware .transStale)
          .done { env with
            w := { env.w with csp := env.p.lanes.foldl (fun m t => smPut 0 m t (smGet 0 m t + 16)) env.w.csp }
            moves := env.p.lanes.map (fun t => (t, rpc t, BitVec.ofNat 8 (pop t / 2 ^ 64))) }

/-- RET (R111). -/
def execRet (r : RRR) (s : State) : Host.Outcome State Fault Refusal := issue (.ret r) .plain s Env.ret

/-- WJOIN (R113): parks the threads of P for 16 × IMM16 cycles. -/
def execWjoin (r : RI) (s : State) : Host.Outcome State Fault Refusal :=
  issueDone (.wjoin r) .resets s (fun env => { env with join := some (env.p, 16 * r.imm.toNat, r.d) })

/-- YIELD (R114). -/
def execYield (r : RRR) (s : State) : Host.Outcome State Fault Refusal :=
  issueDone (.yield r) .plain s (fun env => { env with yielded := true })

/-- PRIO with an immediate (R115). -/
def execPrioImm (r : RI) (s : State) : Host.Outcome State Fault Refusal :=
  issueDone (.prioImm r) .plain s (fun env => env.send env.p (fun _ => env.next) (r.imm.setWidth 8))

/-- PRIO with a register (R115). -/
def execPrioReg (r : RI) (s : State) : Host.Outcome State Fault Refusal :=
  issueDone (.prioReg r) .plain s (fun env =>
    { env with moves := env.p.lanes.map (fun t => (t, env.next, (env.v r.a t).setWidth 8)) })

/-- TRAP (R117). -/
def execTrap (r : I32) (s : State) : Host.Outcome State Fault Refusal :=
  issue (.trap r) .plain s (fun env => env.trapP .userTrap (r.imm.setWidth 64))

/-- BKPT (R117). -/
def execBkpt (r : I32) (s : State) : Host.Outcome State Fault Refusal :=
  issue (.bkpt r) .plain s (fun env => env.trapP .breakpoint (r.imm.setWidth 64))

/-- The park of a nap of N resident cycles (R116). -/
def Env.nap (env : Env) (n : Nat) : Env := if n = 0 then env else env.parkOn (.nap n)

/-- NAP with an immediate (R116). -/
def execNapImm (r : RI) (s : State) : Host.Outcome State Fault Refusal :=
  issueDone (.napImm r) .resets s (fun env => env.nap r.imm.toNat)

/-- NAP with a register (R116). -/
def execNapReg (r : RI) (s : State) : Host.Outcome State Fault Refusal :=
  issueDone (.napReg r) .resets s (fun env => env.nap ((env.s r.a).toNat % 2 ^ 32))

end Sys2Proof.Machine
end

