-- ==== Sys2Proof/Machine/Memory.lean ====
section
/-! DEFINITION. Loads, stores, packed accesses, prefetch, multicast stores, atomics and fences: opcodes 0x70 to 0x95
(R161 to R178). -/

namespace Sys2Proof.Machine

/-- The offset or address of a thread's access in a space (R162, R166 to R168). -/
def Env.place (env : Env) (r : MF) (sp : Space) (am scale : Nat) (t : Nat) : Int :=
  match sp with
  | .global => (env.ea r am scale t).toNat
  | .vault => env.vaultOff r (if am = 2 then (env.v r.b t).toInt else 0) scale
  | _ => (env.ea r am scale t).toInt

/-- What an access of `size` bytes for each thread touches (R162, R164). -/
def Env.sized (env : Env) (r : MF) (sp : Space) (am scale size : Nat) (rd wr : Bool) : Plan :=
  { space := sp, uniA := env.s r.a, runs := fun t => [{ pos := env.place r sp am scale t * 8, len := 8 * size }]
    base := env.place r sp am scale, align := size, read := rd, write := wr, packed := false, off := 0 }

/-- SX (R161). -/
def mfSx (r : MF) : Bool := r.x.toNat.testBit 3
/-- ORD (R161). -/
def mfOrd (r : MF) : Nat := r.x.toNat / 16 % 8
/-- Default or .nt (R161). -/
def AccOpts.ofOrd (ord : Nat) : AccOpts := { AccOpts.plain with cached := ord = 0 }

/-- A sized load into a vector register (R164, R165). -/
def Env.load (env : Env) (r : MF) (sp : Space) (o : AccOpts) : Res :=
  env.makeAccess o (env.sized r sp (mfAm r) (mfSize r) (mfSize r) true false) env.p.lanes
    (fun e t => .load (e.destV r.d.toNat t) none (mfSize r) (mfSx r) 0)

/-- A sized store from a vector register (R164, R165). -/
def Env.store (env : Env) (r : MF) (sp : Space) (o : AccOpts) : Res :=
  env.makeAccess o (env.sized r sp (mfAm r) (mfSize r) (mfSize r) false true) env.p.lanes
    (fun _ t => .store ((env.v r.d t).toNat % 2 ^ (8 * mfSize r)))

/-- LD (R165). -/
def execLd (r : MF) (s : State) : Host.Outcome State Fault Refusal :=
  issue (.ld r) .plain s (fun env => env.load r .global (.ofOrd (mfOrd r)))

/-- LD2 (R164): bytes 0 to 7 into D and 8 to 15 into D + 1. -/
def execLd2 (r : MF) (s : State) : Host.Outcome State Fault Refusal :=
  issue (.ld2 r) .plain s (fun env =>
    env.makeAccess (.ofOrd (mfOrd r)) (env.sized r .global (mfAm r) 16 16 true false) env.p.lanes
      (fun e t => .load (e.destV r.d.toNat t) (some (e.destV (r.d.toNat + 1) t)) 16 false 0))

/-- LDS (R166). -/
def execLds (r : MF) (s : State) : Host.Outcome State Fault Refusal :=
  issue (.lds r) .plain s (fun env => env.load r .scratch .plain)

/-- LDV (R167). -/
def execLdv (r : MF) (s : State) : Host.Outcome State Fault Refusal :=
  issue (.ldv r) .plain s (fun env => env.load r .vault .plain)

/-- LDU (R165): one access for the warp. -/
def execLdu (r : MF) (s : State) : Host.Outcome State Fault Refusal :=
  issue (.ldu r) .plain s (fun env =>
    env.makeAccess (.ofOrd (mfOrd r)) (env.sized r .global 0 1 (mfSize r) true false) [env.p.low]
      (fun e _ => .load (e.destS r.d.toNat) none (mfSize r) (mfSx r) 0))

/-- LDACQ (R165): ORD is the scope of the acquire. -/
def execLdacq (r : MF) (s : State) : Host.Outcome State Fault Refusal :=
  issue (.ldacq r) .plain s (fun env => env.load r .global { AccOpts.plain with acq := some (mfOrd r) })

/-- LDPV (R168). -/
def execLdpv (r : MF) (s : State) : Host.Outcome State Fault Refusal :=
  issue (.ldpv r) .plain s (fun env => env.load r .priv .plain)

/-- The lines that a prefetch brings near its core, of those that a load could read: into L1, or with .l2 no nearer than the
remote ways (R173). The first use of a translation sets its A bit (R262), and a page-table entry in error is recorded (R349). -/
def Env.prefetch (env : Env) (r : MF) : Env :=
  let s := env.p.lanes.foldl (fun s t =>
    let va := (env.ea r (mfAm r) 1 t).toNat
    match (if va < 2 ^ 57 then findLeaf s env.ctx (tlbCore env.core) va false else .missing) with
    | .leaf e level _ =>
      let k := leafKey s e level va
      let p := leafPiece e level va (k / 128 * 1024) 1024 0
      if e.testBit 62 && s.reachable k && (keySpace k ≠ 0 || s.hbmReady k) then
        ((touchLeaf s env.ctx (tlbCore env.core) va false).countMiss env.ctx.id env.core [p]).keepLines env.ctx env.core (mfOrd r = 0) [p]
      else s
    | .poisoned a => s.recordKeys 0x02 [keyHbm a]
    | _ => s) env.dev
  { env with dev := s }

/-- PFETCH (R37, R173): it never faults and writes nothing that a program sees. -/
def execPfetch (r : MF) (s : State) : Host.Outcome State Fault Refusal :=
  issueDone (.pfetch r) .plain s (fun env => env.prefetch r)

/-- BitPos of an index that may be negative (R169, R170). -/
def Fmt.bitPosI (f : Fmt) (b j : Int) : Int :=
  if f.isBlk then 8 * (b + (j / 32) * (8 + 4 * f.width) + 8) + (j % 32) * f.width else 8 * b + j * f.width

/-- The space of a packed access (R169, R171). -/
def spaceOf (code : Nat) : Space :=
  match code with
  | 0 => .global
  | 1 => .scratch
  | _ => .vault

/-- Packed elements k to k + n − 1 for each thread (R169, R171): the stream's base takes no index term. -/
def Env.packed (env : Env) (r : MF) (f : Fmt) (sp : Space) (am : Nat) (index : Nat → Int) (n off : Nat)
    (rd wr : Bool) : Plan :=
  let base (t : Nat) : Int :=
    match sp with
    | .global => (env.ea r am 0 t).toNat
    | .vault => env.vaultOff r 0 0
    | _ => (env.ea r am 0 t).toInt
  { space := sp, uniA := env.s r.a, base := base, align := 8, read := rd, write := wr, packed := true, off := off
    runs := fun t => (List.range n).map (fun i =>
      { pos := f.bitPosI (base t) (index t + (i : Nat)), len := f.width }) }

/-- A format slot of any kind (R57). -/
def Opts.anySlot : Opts := { Opts.plain with slots := fun env => [(env.fSlot, .any)] }
/-- A packed store: a format slot of any kind, and a reset of WC (R43, R57). -/
def Opts.packedStore : Opts := { Opts.anySlot with reset := true }

/-- The first element of LDP and STP (R169). -/
def Env.firstElem (env : Env) (r : MF) (t : Nat) : Int := if mfAm r = 2 then (env.v r.b t).toInt else 0

/-- LDP (R169). -/
def execLdp (r : MF) (s : State) : Host.Outcome State Fault Refusal :=
  issue (.ldp r) .anySlot s (fun env =>
    let f := env.w.slot r.f.toNat
    env.makeAccess .plain (env.packed r f (spaceOf (mfOrd r)) (mfAm r) (env.firstElem r) f.elems 0 true false) env.p.lanes
      (fun e t => .load (e.destV r.d.toNat t) none 8 false 0))

/-- STP (R169, R172). -/
def execStp (r : MF) (s : State) : Host.Outcome State Fault Refusal :=
  issue (.stp r) Opts.packedStore s (fun env =>
    let f := env.w.slot r.f.toNat
    env.makeAccess .plain (env.packed r f (spaceOf (mfOrd r)) (mfAm r) (env.firstElem r) f.elems 0 false true) env.p.lanes
      (fun _ t => .store (env.v r.d t).toNat))

/-- The element position of LDG and STSC (R171). -/
def mfDp (r : MF) : Nat := r.x.toNat / 8
/-- ILLEGAL_OPERAND for a position at or above Elems(F) (R171). -/
def Env.checkDp (env : Env) (r : MF) : Option Res :=
  if (env.w.slot r.f.toNat).elems ≤ mfDp r then some (env.wordTrap .illegalOperand) else none

/-- LDG (R171): D keeps its other elements. -/
def execLdg (r : MF) (s : State) : Host.Outcome State Fault Refusal :=
  issue (.ldg r) .anySlot s (fun env =>
    let f := env.w.slot r.f.toNat
    match env.checkDp r with
    | some x => x
    | none =>
      env.makeAccess .plain
        (env.packed r f (spaceOf (r.x.toNat % 8)) 0 (fun t => (env.v r.b t).toInt) 1 (mfDp r * f.width) true false)
        env.p.lanes
        (fun e t => .load (e.destV r.d.toNat t) none 8 false
          (packElems f.width ((List.range f.elems).map (fun i => if i = mfDp r then 0 else f.code (env.v r.d t) i)))))

/-- STSC (R171, R172). -/
def execStsc (r : MF) (s : State) : Host.Outcome State Fault Refusal :=
  issue (.stsc r) Opts.packedStore s (fun env =>
    let f := env.w.slot r.f.toNat
    match env.checkDp r with
    | some x => x
    | none =>
      env.makeAccess .plain
        (env.packed r f (spaceOf (r.x.toNat % 8)) 0 (fun t => (env.v r.b t).toInt) 1 (mfDp r * f.width) false true)
        env.p.lanes (fun _ t => .store (env.v r.d t).toNat))

/-- ST (R165). -/
def execSt (r : MF) (s : State) : Host.Outcome State Fault Refusal :=
  issue (.st r) .resets s (fun env => env.store r .global (.ofOrd (mfOrd r)))

/-- ST2 (R164). -/
def execSt2 (r : MF) (s : State) : Host.Outcome State Fault Refusal :=
  issue (.st2 r) .resets s (fun env =>
    env.makeAccess (.ofOrd (mfOrd r)) (env.sized r .global (mfAm r) 16 16 false true) env.p.lanes
      (fun _ t => .store ((env.v r.d t).toNat + (env.w.readV (r.d.toNat + 1) t).toNat * 2 ^ 64)))

/-- STS (R166). -/
def execSts (r : MF) (s : State) : Host.Outcome State Fault Refusal :=
  issue (.sts r) .resets s (fun env => env.store r .scratch .plain)

/-- STV (R167). -/
def execStv (r : MF) (s : State) : Host.Outcome State Fault Refusal :=
  issue (.stv r) .resets s (fun env => env.store r .vault .plain)

/-- STU (R165): one access for the warp. -/
def execStu (r : MF) (s : State) : Host.Outcome State Fault Refusal :=
  issue (.stu r) .resets s (fun env =>
    env.makeAccess (.ofOrd (mfOrd r)) (env.sized r .global 0 1 (mfSize r) false true) [env.p.low]
      (fun _ _ => .store ((env.s r.d).toNat % 2 ^ (8 * mfSize r))))

/-- STREL (R165): ORD is the scope of the release, which its first store makes as it is performed (R276; log entry 16). -/
def execStrel (r : MF) (s : State) : Host.Outcome State Fault Refusal :=
  issue (.strel r) .resets s (fun env => env.store r .global { AccOpts.plain with rel := some (mfOrd r) })

/-- STPV (R168). -/
def execStpv (r : MF) (s : State) : Host.Outcome State Fault Refusal :=
  issue (.stpv r) .resets s (fun env => env.store r .priv .plain)

/-! ### Multicast -/

/-- A multicast group's words: GHDR, then the members (R334); none when it is not defined. -/
def Context.group (x : Context) (b : Word) : Option (Word × List Word) :=
  if b.toNat / 64 ≠ 0 then none
  else match x.p.groups.find? (fun g => g.1 = b.toNat) with
  | some (_, h :: ms) => if h.getLsbD 63 then some (h, ms.take (natBits h.toNat 62 56)) else none
  | _ => none

/-- off(t) of R174. -/
def Env.mcOff (env : Env) (r : MF) (size t : Nat) : Word := wordInt ((env.s r.a).toNat + mfOff r + t * size)

/-- The store of one lane to one member. -/
def Env.toMember (env : Env) (r : MF) (ordered trap : Bool) (home size : Nat) (env0 : Env) (t m : Nat) (w : Word) : Env :=
  let off := env0.mcOff r size t
  let pos := env0.dev.peerKey (natBits w.toNat 63 56) (natBits w.toNat 50 0 + off.toNat) * 8
  env.addAccess .plain t off [{ pos := pos, len := 8 * size, off := 0 }]
    (.member m home trap ordered ((env0.v r.d t).toNat % 2 ^ (8 * size)))

/-- The multicast stores in flight to a home node (R326; log entry 68). -/
def Context.multicasts (x : Context) (home : Nat) : Nat :=
  (((x.accesses.filter (fun a => a.kind.home = some home)).map (fun a => (a.uid, a.ins))).eraseDups).length

/-- MST and MSTO (R174, R175, R325, R335): one store for each lane and member, once a reservation at the home node is free; with a
dead port to HOME every member counts as failed and nothing is written. -/
def Env.multicast (env : Env) (r : MF) (ordered : Bool) : Res :=
  let size := 2 ^ (r.x.toNat % 8)
  let trap := r.x.toNat.testBit 8
  match env.ctx.group (env.s r.b) with
  | none => env.trapP .mcastGroup (env.s r.b)
  | some (h, ms) =>
    let off (t : Nat) := env.mcOff r size t
    match env.trapLanes .mcastRange (fun t => (off t).toInt % size ≠ 0 || (off t).toInt < 0 ||
        natBits h.toNat 39 0 < (off t).toNat + size) off with
    | some x => x
    | none =>
      if env.dev.portLive (natBits h.toNat 55 48 - 0x80) then
        if 16 ≤ (env.dev.ctxs.foldl (fun n x => n + x.multicasts (natBits h.toNat 55 48)) 0) then .hold (.retrySources [])
        else .done (env.p.lanes.foldl (fun e t =>
          (List.range ms.length).foldl (fun e m => e.toMember r ordered trap (natBits h.toNat 55 48) size env t m (ms.getD m 0)) e) env)
      else
        .done { env with
          w := { env.w with mstat := env.w.mstat ||| BitVec.ofNat 64 (2 ^ ms.length - 1), mtrap := env.w.mtrap || trap }
          dev := { env.dev with driverLog := env.dev.driverLog ++ [off env.p.low] } }

/-- MST (R174). -/
def execMst (r : MF) (s : State) : Host.Outcome State Fault Refusal :=
  issue (.mst r) .resets s (fun env => env.multicast r false)

/-- MSTO (R174). -/
def execMsto (r : MF) (s : State) : Host.Outcome State Fault Refusal :=
  issue (.msto r) .resets s (fun env => env.multicast r true)

/-! ### Atomics -/

/-- The integer atomics (R176) in a space. -/
def Env.atomic (env : Env) (r : MF) (sp : Space) (am : Nat) : Res :=
  let size := 2 ^ (r.x.toNat % 8)
  env.makeAccess .plain (env.sized r sp am size size true true) env.p.lanes
    (fun e t => .atomic (r.x.toNat / 32) (r.x.toNat.testBit 3) size ((env.v r.d t).toNat % 2 ^ (8 * size))
      (if r.x.toNat.testBit 4 then some (e.destV r.d.toNat t) else none))

/-- ATOM (R176). -/
def execAtom (r : MF) (s : State) : Host.Outcome State Fault Refusal :=
  issue (.atom r) .resets s (fun env => env.atomic r .global 1)

/-- ACAS (R176). -/
def execAcas (r : MF) (s : State) : Host.Outcome State Fault Refusal :=
  issue (.acas r) .resets s (fun env =>
    let size := 2 ^ (r.x.toNat % 8)
    let low (x : Word) := x.toNat % 2 ^ (8 * size)
    env.makeAccess .plain (env.sized r .global 1 size size true true) env.p.lanes
      (fun e t => .acas size (low (env.v r.d t)) (low (env.v r.b t)) (e.destV r.d.toNat t)))

/-- ATOMS (R176). -/
def execAtoms (r : MF) (s : State) : Host.Outcome State Fault Refusal :=
  issue (.atoms r) .resets s (fun env => env.atomic r .scratch 1)

/-- FATOM (R177): the slot's test stands between the alignment and the translation causes (R197). -/
def execFatom (r : MF) (s : State) : Host.Outcome State Fault Refusal :=
  issue (.fatom r) .resets s (fun env =>
    let f := env.w.slot r.f.toNat
    let pl := env.sized r .global 1 8 8 true true
    match env.checkShape pl with
    | some x => x
    | none =>
      if f.nan = 0 && f.inv = 0 then env.trapP .atomSlot (BitVec.ofNat 64 r.f.toNat)
      else
        env.makeAccess .plain pl env.p.lanes
          (fun e t => .fatom (r.x.toNat / 32) (smGet 0 env.w.slots r.f.toNat) (env.v r.d t)
            (if r.x.toNat.testBit 4 then some (e.destV r.d.toNat t) else none)))

/-- ATOMV (R176). -/
def execAtomv (r : MF) (s : State) : Host.Outcome State Fault Refusal :=
  issue (.atomv r) .resets s (fun env => env.atomic r .vault 2)

/-! ### Fences -/

/-- FENCE (R178): its warp waits at the fence, which has issued, until FENCE_COMPLETE. -/
def execFence (r : RRR) (s : State) : Host.Outcome State Fault Refusal :=
  issueDone (.fence r) .plain s (fun env =>
    let x := r.x.toNat
    let env := env.send env.e.mask (fun _ => env.e.pc) env.e.pri
    env.parkOn (.fence (x.testBit 4) (x.testBit 5) (x.testBit 3) (x % 8) r.d env.id env.e.pc env.e.mask))

/-- Everything an acquire waits for has returned: every earlier load and .ret of a warp (R178, R193). -/
def Context.acquireReady (x : Context) (uid upTo : Nat) : Bool :=
  !(x.accesses.any (fun a => a.uid = uid && a.id < upTo && !a.kind.dests.isEmpty)) &&
    !(x.owed.any (fun o => o.uid = uid && o.dest.prod < upTo))

/-- Everything a fence at a scope waits for is done (R178, R205): every earlier access, ASTO and operation before it for a
release, every earlier load and result for an acquire. -/
def Context.fenceReady (x : Context) (w : Warp) (acq rel : Bool) (scope upTo : Nat) : Bool :=
  !(rel && x.unreleased w.uid (widCoreNo w.wid) scope upTo) && !(rel && x.astoBefore w.uid upTo) &&
    !(acq && !x.acquireReady w.uid upTo)

/-- The threads that stood at a fence go on at PC + 8 (R34; log entry 54), and a switch of a region that the issue found due is made
(R305), unless the pre-emption signal has had it made (R319). -/
def Warp.passFence (w : Warp) (pc : PC) (act : Mask) : Warp :=
  if w.switchedEarly then { w with park := none, region := w.region.map (fun g => { g with due := false }) }
  else (({ w with park := none } : Warp).stepOver pc act).regionBack

/-- The trap of a fence whose wait has ended (R175, R324): the threads of its entry, at the fence. -/
def State.fenceTrap (s : State) (x : Context) (w : Warp) (pc : PC) (act : Mask) (c : Cause) (v : Word) : State :=
  let w := if w.switchedEarly then w.undoSwitch pc act else w
  match w.frontier.find? (fun e => e.pc = pc && !e.parked && e.mask &&& act ≠ 0) with
  | none => s
  | some e =>
    deliver { dev := s, ctx := x, w := { w with park := none }, e := e, top := false
              more := false, spin := false, p := e.mask, ins := .nop ⟨0, false, 0, 0, 0, 0, 0, false, false, false, 0⟩
              word := 0, moves := [], dead := 0, out := 0, join := none, yielded := false }
      { cause := c, tval := v, mask := e.mask }

/-- FENCE_COMPLETE (R175, R178, R324): the fence's wait ends. MCAST_FAIL comes before .ms and before REMOTE_ERROR, which
clears its mark. -/
def execFenceComplete (c u : Nat) (s : State) : Host.Outcome State Fault Refusal :=
  .next (match s.ctx? c with
  | none => s
  | some x =>
    match x.warp? u with
    | none => s
    | some w =>
      match w.park with
      | some (.fence acq rel ms scope d upTo pc act) =>
        if !x.runs w || !x.fenceReady w acq rel scope upTo || (rel && s.foreignDue x (widCoreNo w.wid) scope upTo) then s
        else
          let s := if acq then s.acquire (widCoreNo w.wid) scope else s
          let x := if rel then x.markReleased w.uid (widCoreNo w.wid) scope upTo else x
          let x := if acq then x.raise (widCoreNo w.wid) scope else x
          if rel && 6 ≤ scope && w.mtrap then
            s.fenceTrap x { w with mtrap := false } pc act .mcastFail w.mstat
          else if rel && 5 ≤ scope && w.remFail.isSome then
            s.fenceTrap x { w with remFail := none } pc act .remoteError (BitVec.ofNat 64 (w.remFail.getD 0))
          else
            let w := w.passFence pc act
            s.setCtx (x.setWarp (if ms then { w.writeS d.toNat w.mstat with mstat := 0 } else w))
      | _ => s)

end Sys2Proof.Machine
end

