-- ==== Sys2Proof/Machine/System.lean ====
section
/-! DEFINITION. Format slots, control and status registers, special values, the register allocation, handlers, firmware
services and SHFLX: opcodes 0xD0 to 0xD9 and 0x61 (R121, R128 to R136, R252, R255, R259, R304). -/

namespace Sys2Proof.Machine

/-- FDRW (R56, R128): a definition with VAL = 0 writes zeros. Its write is complete with the issue (R58). -/
def execFdrw (r : RRR) (s : State) : Host.Outcome State Fault Refusal :=
  issue (.fdrw r) .plain s (fun env =>
    let x := env.s r.a
    if x.getLsbD 63 then
      if (Fmt.ofWord x).accepts then .done { env with w := env.w.setSlot r.d.toNat x }
      else env.trapE .slotDef x
    else .done { env with w := env.w.setSlot r.d.toNat 0 })

/-- FDRR (R128). -/
def execFdrr (r : RRR) (s : State) : Host.Outcome State Fault Refusal :=
  issueDone (.fdrr r) .plain s (fun env => env.setS r.d (smGet 0 env.w.slots r.a.toNat))

/-! ### Control and status registers -/

/-- The warp is in firmware mode (R131). -/
def Warp.firmware (w : Warp) : Bool :=
  match w.mode with
  | .firmware _ _ => true
  | _ => false

/-- A field of the word that entered firmware mode, in lane FLSEL (R131). -/
def Warp.fop (w : Warp) (hi lo : Nat) : Word := w.readV (natBits w.finsn.toNat hi lo) w.flsel.toNat

/-- What CSRR reads (R129 to R131); none where the access fails. -/
def Env.csr (env : Env) (n : Nat) : Option Word :=
  let x := env.ctx
  let w := env.w
  let fw (v : Word) : Option Word := if w.firmware then some v else none
  match n with
  | 0x0000 => some x.ctx
  | 0x0001 => some x.fairt
  | 0x0002 => some x.fairq
  | 0x0003 => some x.wdog
  | 0x0004 => some x.rndseed
  | 0x0005 => some x.gencfg
  | 0x0006 => some x.wawdrop
  | 0x0007 => some x.gtdrop
  | 0x0010 => some x.utvec
  | 0x0011 => some (w.uepc.setWidth 64)
  | 0x0012 => some (w.ucause.setWidth 64)
  | 0x0013 => some w.utval
  | 0x0014 => some (ufmaskWord w.ufmask)
  | 0x0015 => some w.uscr
  | 0x0020 => some (BitVec.ofNat 64 x.p.l2rmt)
  | 0x0021 => some (BitVec.ofNat 64 x.p.vaultw)
  | 0x0022 => some (BitVec.ofNat 64 x.p.spk)
  | 0x0023 => some (BitVec.ofNat 64 (x.p.wsz * 2 ^ 32 + x.hw))
  | 0x0024 => some (BitVec.ofNat 64 (x.p.nc * 2 ^ 8 + x.p.nb))
  | 0x0100 => fw (w.flsel.setWidth 64)
  | 0x0101 => fw w.finsn
  | 0x0102 => fw (w.fop 39 32)
  | 0x0103 => fw (w.fop 31 24)
  | 0x0104 => fw (w.fop 23 16)
  | 0x0106 => fw (w.flact.setWidth 64)
  | _ => none

/-- What stands against a read of FOPA, FOPB or FOPC: the lane's register is empty (R90), or poisoned or in error (R137). -/
def Env.fopCheck (env : Env) (n : Nat) : Option Res :=
  if !env.w.firmware || n < 0x0102 || 0x0104 < n then none
  else
    let r := natBits (env.w.finsn.toNat / 2 ^ (8 * (0x0104 - n))) 23 16
    let t := env.w.flsel.toNat
    match env.w.vmark r t with
    | .full => none
    | .empty _ => some (.hold (.retrySources [r]))
    | m => some (.trap { cause := if m.isBad then .dataError else .remoteError, tval := m.report r, mask := BitVec.ofNat 32 (2 ^ t)
                         recs := if m = .regError then [env.w.errorRec r] else [] })

/-- CSRR (R129). The spec does not say what a read of the write-only FRES does in firmware mode; it traps (the model's choice, log
entry 92). -/
def execCsrr (r : RI) (s : State) : Host.Outcome State Fault Refusal :=
  issue (.csrr r) .plain s (fun env =>
    match env.fopCheck r.imm.toNat with
    | some x => x
    | none =>
      match env.csr r.imm.toNat with
      | some v => .done (env.setS r.d v)
      | none => env.trapE .csrAccess (r.imm.setWidth 64))

/-- A write of a context register with its map's test (R129, R130). -/
def Env.writeCsr (env : Env) (v : Word) (ok : Bool) (f : Context → Context) : Res :=
  if ok then .done { env with ctx := f env.ctx } else env.trapE .csrValue v

/-- Marks a reset at the next issue of every warp of the context, the issuing one included (R130). -/
def Env.everyWarp (env : Env) (f : Warp → Warp) : Env :=
  { env with w := f env.w, ctx := { env.ctx with warps := env.ctx.warps.map f } }

/-- Bits hi down to 0 hold a value. -/
def fits (v : Word) (n : Nat) : Bool := v.toNat < 2 ^ n
/-- An address of 57 bits with bits 2:0 zero (R130). -/
def addrOk (v : Word) : Bool := fits v 57 && v.toNat % 8 = 0

/-- CSRW of a register without a row of its own (R129): RNDSEED, WAWDROP, GTDROP, UTVEC, UEPC, USCR and, in firmware mode,
FLSEL. -/
def execCsrw (r : RI) (s : State) : Host.Outcome State Fault Refusal :=
  issue (.csrw r) .plain s (fun env =>
    let v := env.s r.a
    match r.imm.toNat with
    | 0x0004 => env.writeCsr v true (fun x => { x with rndseed := v })
    | 0x0006 => env.writeCsr v true (fun x => { x with wawdrop := v })
    | 0x0007 => env.writeCsr v true (fun x => { x with gtdrop := v })
    | 0x0010 => env.writeCsr v (addrOk v) (fun x => { x with utvec := v })
    | 0x0011 => if addrOk v then .done { env with w := { env.w with uepc := v.setWidth 57 } } else env.trapE .csrValue v
    | 0x0015 => .done { env with w := { env.w with uscr := v } }
    | 0x0100 =>
      if !env.w.firmware then env.trapE .csrAccess (r.imm.setWidth 64)
      else if fits v 5 then .done { env with w := { env.w with flsel := v.setWidth 5 } } else env.trapE .csrValue v
    | _ => env.trapE .csrAccess (r.imm.setWidth 64))

/-- What a change of PROG resets at a warp's next issue (R130): FC either way, and the grant where it falls. -/
def Warp.progChange (w : Warp) (old new : Bool) : Warp :=
  if old = new then w else { w with fcClear := true, grantClear := w.grantClear || old }

/-- CSRW to CTX (R38, R130). -/
def execCsrwCtx (r : RI) (s : State) : Host.Outcome State Fault Refusal :=
  issue (.csrwCtx r) .plain s (fun env =>
    let v := env.s r.a
    (env.everyWarp (fun w => w.progChange env.ctx.prog (v.getLsbD 0))).writeCsr v (fits v 1) (fun x => { x with ctx := v }))

/-- CSRW to FAIRT (R38, R130). -/
def execCsrwFairt (r : RI) (s : State) : Host.Outcome State Fault Refusal :=
  issue (.csrwFairt r) .plain s (fun env =>
    (env.everyWarp (fun w => { w with fcClear := true })).writeCsr (env.s r.a)
      (fits (env.s r.a) 16 && env.s r.a ≠ 0) (fun x => { x with fairt := env.s r.a }))

/-- CSRW to FAIRQ (R38, R130). -/
def execCsrwFairq (r : RI) (s : State) : Host.Outcome State Fault Refusal :=
  issue (.csrwFairq r) .plain s (fun env =>
    (env.everyWarp (fun w => { w with fcClear := true })).writeCsr (env.s r.a)
      (fits (env.s r.a) 16 && env.s r.a ≠ 0) (fun x => { x with fairq := env.s r.a }))

/-- CSRW to WDOG (R38, R130). -/
def execCsrwWdog (r : RI) (s : State) : Host.Outcome State Fault Refusal :=
  issue (.csrwWdog r) .plain s (fun env =>
    (env.everyWarp (fun w => { w with wcClear := true })).writeCsr (env.s r.a) (fits (env.s r.a) 32)
      (fun x => { x with wdog := env.s r.a }))

/-- CSRW to GENCFG (R304, R317). -/
def execCsrwGencfg (r : RI) (s : State) : Host.Outcome State Fault Refusal :=
  issue (.csrwGencfg r) .plain s (fun env =>
    let v := env.s r.a
    env.writeCsr v (fits v 14 && natBits v.toNat 7 5 = 0 && natBits v.toNat 13 8 ≤ 32) (fun x => { x with gencfg := v }))

/-- CSRW to FRES (R131): the selected lane of the emulated destination becomes full with the value. -/
def execCsrwFres (r : RI) (s : State) : Host.Outcome State Fault Refusal :=
  issue (.csrwFres r) .plain s (fun env =>
    if env.w.firmware then
      .done { env with w := env.w.writeV (natBits env.w.finsn.toNat 47 40) env.w.flsel.toNat (env.s r.a) }
    else env.trapE .csrAccess (r.imm.setWidth 64))

/-! ### Special values -/

/-- The level of a launch (R25): count, domain, scope; none beyond the last. -/
def Context.level (x : Context) (q k : Nat) : Option (Nat × Nat × Nat) :=
  match x.launch? q with
  | some l => l.rcd.levels[k]?
  | none => none

/-- The uniform values of SREG (R132). -/
def Env.special (env : Env) (sel : Nat) : Word :=
  let wid := env.w.wid
  let n : Nat :=
    if 0x20 ≤ sel && sel ≤ 0x27 then (match env.ctx.level env.w.q (sel - 0x20) with | some l => l.1 | none => 0)
    else match sel with
    | 0x28 => (match env.ctx.launch? env.w.q with | some l => l.rcd.levels.length | none => 0)
    | 0x30 => env.w.wblk
    | 0x31 => widSlot wid
    | 0x32 => widPart wid
    | 0x33 => widCore wid
    | 0x34 => widCluster wid
    | 0x35 => widDie wid
    | 0x36 => env.dev.pod.getD 0
    | 0x37 => env.ctx.p.x0 + env.ctx.p.y0 * 8 + env.ctx.p.x1 * 64 + env.ctx.p.y1 * 512
    | 0x40 => env.dev.cycle
    | 0x41 => env.w.q
    | 0x42 => (match env.blk with | some b => b.num | none => 0)
    | _ => 0
  BitVec.ofNat 64 n

/-- The vector values of SREG (R132): LANE, TLIN and the member indices, kept by lane. -/
def Env.specialV (env : Env) (sel t : Nat) : Word :=
  if sel = 0 then BitVec.ofNat 64 t
  else if sel = 1 then BitVec.ofNat 64 (smGet 0 env.w.lin t)
  else BitVec.ofNat 64 (smGet 0 env.w.midx (vkey (sel - 0x10) t))

/-- SREG (R132). -/
def execSreg (r : RI) (s : State) : Host.Outcome State Fault Refusal :=
  issue (.sreg r) .plain s (fun env =>
    match sregClass r.imm.toNat with
    | none => env.trapE .illegalOperand (r.imm.setWidth 64)
    | some .vec => .done (env.setV r.d (env.specialV r.imm.toNat))
    | some _ => .done (env.setS r.d (env.special r.imm.toNat)))

/-! ### The register allocation -/

/-- RGROW (R47, R133): at once when m ≤ n, else the warp waits. -/
def execRgrow (r : RI) (s : State) : Host.Outcome State Fault Refusal :=
  issue (.rgrow r) .plain s (fun env =>
    let m := r.imm.toNat
    if m % 8 ≠ 0 || m < 8 || 256 < m then env.trapE .illegalOperand (r.imm.setWidth 64)
    else if m ≤ env.w.nregs then .done { env with w := env.w.setPred r.d.toNat env.e.mask (BitVec.allOnes 32) }
    else .done (env.parkOn (.rgrow r.d m env.e.mask)))

/-- Retags a result that is not lost with an allocation (R49, R50): one that is owed to a register that RSHRK keeps, so that it is
still delivered, as the results owed to uniform registers are. R50 could be read as a loss of every result owed at the RSHRK (the
model's reading, log entry 84). -/
def Dest.retag (d : Dest) (m gen : Nat) : Dest := if !d.uniform && d.reg < m then { d with allocGen := gen } else d

/-- The access kind with its destinations changed. -/
def AccKind.mapDest (f : Dest → Dest) : AccKind → AccKind
  | .load d hi b sx k => .load (f d) (hi.map f) b sx k
  | .atomic o sg b x r => .atomic o sg b x (r.map f)
  | .acas b c n d => .acas b c n (f d)
  | .fatom o sl x r => .fatom o sl x (r.map f)
  | .peek u r l d => .peek u r l (f d)
  | k => k

/-- RSHRK (R49, R133): registers m and above are lost with their marks, and results still owed to them become stale. -/
def execRshrk (r : RI) (s : State) : Host.Outcome State Fault Refusal :=
  issue (.rshrk r) .plain s (fun env =>
    let m := r.imm.toNat
    if m % 8 ≠ 0 || m < 8 || env.w.nregs < m then env.trapE .illegalOperand (r.imm.setWidth 64)
    else
      let g := env.w.allocGen + 1
      let mine (u : Nat) (d : Dest) : Dest := if u = env.w.uid then d.retag m g else d
      .done { env with
        w := { env.w with
          nregs := m, allocGen := g
          vregs := smDrop env.w.vregs (fun k => m * 32 ≤ k), vmarks := smDrop env.w.vmarks (fun k => m * 32 ≤ k) }
        ctx := { env.ctx with
          accesses := env.ctx.accesses.map (fun a => { a with kind := a.kind.mapDest (mine a.uid) })
          owed := env.ctx.owed.map (fun o => { o with dest := mine o.uid o.dest }) } })

/-! ### Handlers and firmware -/

/-- PDONE (R134): the warp halts; its issuing threads go on at PC + 8 when it is resumed. -/
def execPdone (r : RRR) (s : State) : Host.Outcome State Fault Refusal :=
  issue (.pdone r) .plain s (fun env =>
    if env.w.mode = .handler true then .done { env with w := { env.w with halted := true } }
    else env.trapE .illegalMode env.word)

/-- The pre-emption signal at a warp in program mode (R309): a switch that is due is made first (R319), its frontier, park and grant are
set aside and it enters the handler with every live thread, or halts where there is none. The program's WC is set aside (R52); where WC
starts in the handler the spec does not say: it runs on from the program's count, as R340 has it in the handler of a trap (log entry
75). -/
def Warp.enterPreempt (w : Warp) (vector : PC) : Warp :=
  let w := w.switchEarly
  let sv : Saved := { frontier := w.frontier, park := w.park, grantLeft := w.grantLeft, wc := w.wc, entered := w.live, pris := []
                      granted := false, demoted := false }
  if vector = 0 then { w with signal := false, halted := true }
  else { w with
    frontier := [⟨255, vector, w.live, false, w.issues, false, false⟩], saved := some sv, park := none, grantLeft := 0
    mode := .handler true, signal := false, ucause := BitVec.ofNat 9 Cause.preempt.code, utval := 0, ufmask := w.live }

/-- The frontier and WC that a pre-emption saved, restored (R52, R310). -/
def Warp.leavePreempt (w : Warp) (sv : Saved) : Warp :=
  { w with frontier := (sv.frontier.map (fun e => { e with mask := e.mask &&& w.live })).filter (fun e => e.mask ≠ 0)
           park := sv.park, grantLeft := sv.grantLeft, wc := sv.wc, mode := .program, saved := none }

/-- What ERET does in user-handler mode (R135, R309, R310): the waits of the handler end with it, and a pending signal
enters the pre-emption handler in place of returning. -/
def Env.leave (env : Env) (preempt : Bool) (pc : PC) : Env :=
  match env.w.saved with
  | none => env
  | some sv =>
    let w := { env.w with wjoins := env.w.wjoins.filter (fun j => !j.handler), issues := env.w.issues + 1
                          wc := env.w.wc + 1 }
    let w := if preempt then w.leavePreempt sv else w.returnTo sv pc w.issues
    let w := if w.signal then w.enterPreempt env.ctx.vector else w.joinStep
    { env with w := w }

/-- A warp whose firmware work ends in program mode takes the signal that reached it there (R309). -/
def State.takeSignal (s : State) (c u : Nat) : State :=
  match s.ctx? c with
  | none => s
  | some x =>
    match x.warp? u with
    | none => s
    | some w => if w.signal && w.mode = .program then s.setCtx (x.setWarp (w.enterPreempt x.vector)) else s

/-- The instruction that entered firmware mode, guarded as it is itself. -/
def Env.asEntered (env : Env) : Env :=
  { env with p := env.e.mask &&& guardMask env.w (natBits env.w.finsn.toNat 55 52) (env.w.finsn.getLsbD 51) }

/-- How the instruction that entered firmware mode counts (R101): BARW resets WC, as a store does. -/
def Env.enteredOpts (env : Env) : Opts := if natBits env.w.finsn.toNat 63 56 = 0xF6 then .resets else .plain

/-- The end of the instruction that entered firmware mode (R101, R104, R136): a RET is made as an ordinary one, and any other
goes to PC + 8. -/
def Env.completeEntry (env : Env) : Res :=
  match decodeWord env.w.finsn with
  | .ok (.ret _) => env.asEntered.ret
  | _ => .done env.asEntered

/-- ERET in either form: admitted and guarded as any instruction; ILLEGAL_MODE in program mode (R135). In firmware mode
plain ERET completes the instruction that entered it, and ERET.next delivers ILLEGAL_OPC with that instruction's word. -/
def eretWith (ins : Instr) (isNext : Bool) (s : State) : Host.Outcome State Fault Refusal :=
  match openIssue ins (wordOf ins) s with
  | none => .fault .noIssuer
  | some env =>
    .next (match precheck .plain env with
    | some r => settle .plain env r
    | none =>
      if env.p = 0 then settle .plain env (.done env)
      else if env.spin then takeTrap env env.spinTrap
      else match env.w.mode with
      | .program => takeTrap env { cause := .illegalMode, tval := env.word, mask := env.e.mask }
      | .handler pre => (env.leave pre (if isNext then env.w.uepc + 8 else env.w.uepc)).commit
      | .firmware _ _ =>
        let env := { env with w := env.w.asBase }
        if isNext then takeTrap env { cause := .illegalOpc, tval := env.w.finsn, mask := env.e.mask }
        else (settle env.enteredOpts env env.completeEntry).takeSignal env.ctx.id env.w.uid)

/-- ERET (R135). -/
def execEret (r : RRR) (s : State) : Host.Outcome State Fault Refusal := eretWith (.eret r) false s

/-- ERET.next (R135). -/
def execEretNext (r : RRR) (s : State) : Host.Outcome State Fault Refusal := eretWith (.eretNext r) true s

/-- The versions that FWCALL service 0 returns: those of the running image, firmware or the recovery loader (R136, R359). -/
def State.imageVersion (s : State) : Word × Word :=
  if s.loader then (Config.loaderVersion.setWidth 64, Config.loaderSecurity) else (s.fw.version.setWidth 64, s.fw.security)

/-- FWCALL of service 0 (R136), and of every number that is no service. -/
def execFwcallVersion (r : I32) (s : State) : Host.Outcome State Fault Refusal :=
  issue (.fwcallVersion r) .plain s (fun env =>
    if r.imm = 0 then
      let v := env.dev.imageVersion
      .done { env with w := (env.firmwareWord.w.writeS 0 v.1).writeS 1 v.2 }
    else env.trapE .fwcallSvc (r.imm.setWidth 64))

/-- FWCALL of service 1 (R136, R357): the physical address of the table's copy and its length (log entry 9). -/
def execFwcallCapability (r : I32) (s : State) : Host.Outcome State Fault Refusal :=
  issueDone (.fwcallCapability r) .plain s (fun env =>
    { env with w := (env.firmwareWord.w.writeS 0 (BitVec.ofNat 64 capPlace)).writeS 1 (BitVec.ofNat 64 (capTable env.dev.loader).length) })

/-- FWCALL of service 2 (R136, R352). -/
def execFwcallJournal (r : I32) (s : State) : Host.Outcome State Fault Refusal :=
  issueDone (.fwcallJournal r) .plain s (fun env => { env with w := env.firmwareWord.w.writeS 0 (BitVec.ofNat 64 env.dev.jwp) })

/-! ### SHFLX -/

/-- The lane of A that a thread reads (R121). -/
def Env.farLane (env : Env) (r : RRR) (t : Nat) : Nat := (env.v r.b t).toNat % 32

/-- SHFLX's sources (R90, R121): A in the lanes that a readable B names, where a readable C names the issuing warp. -/
def shflxOpts (r : RRR) : Opts :=
  { Opts.plain with lanes := fun env f =>
      if f ≠ .A then env.e.mask
      else if env.w.smark r.c.toNat ≠ .full || (env.s r.c).toNat % 32 ≠ env.w.wblk then 0
      else lanesRead (env.fullInP r.b) (env.farLane r) }

/-- Owes the issuing warp the values of a vector register, which it has read at its issue, and marks it empty until they return
(R89). -/
def Env.oweV (env : Env) (d : BitVec 8) (f : Nat → Word) : Env :=
  env.p.lanes.foldl (fun e t =>
    let q := e.destV d.toNat t
    ({ e with w := e.w.markDest q, ctx := e.ctx.owe (e.id + 1) e.w.uid q (f t) none } : Env).bump.bump) env

/-- The far registers that a SHFLX meets at its issue: one that is poisoned or in error then traps, as for any reader (R137, R160, R269); one
that is so only when it is read makes the result poisoned (log entry 96). -/
def Env.farTrap (env : Env) (r : RRR) (far : Warp) : Option Res :=
  let mark (t : Nat) : Mark := if r.a.toNat < far.nregs then far.vmark r.a.toNat (env.farLane r t) else .full
  let trap (c : Cause) (bad : Mark → Bool) : Option Res :=
    let m := Mask.ofPred (fun t => env.p.has t && bad (mark t))
    let lost := ((m.lanes.filter (fun t => mark t = .regError)).map (env.farLane r)).eraseDups
    if m = 0 then none
    else some (.trap { cause := c, tval := (mark m.low).report r.a.toNat, mask := m, recs := lost.map (fun _ => far.errorRec r.a.toNat) })
  (trap .dataError Mark.isBad).or (trap .remoteError Mark.isRemote)

/-- SHFLX (R121): A is read in the issuing warp only where it names that warp, and then at issue; the result returns later (R89). -/
def execShflx (r : RRR) (s : State) : Host.Outcome State Fault Refusal :=
  issue (.shflx r) (shflxOpts r) s (fun env =>
      let k := (env.s r.c).toNat % 32
      match env.blk with
      | none => .done env
      | some b =>
        if b.nwarps ≤ k then env.trapE .shflRange (env.s r.c)
        else if k = env.w.wblk then .done (env.oweV r.d (fun t => env.v r.a (env.farLane r t)))
        else
          let far := env.ctx.warps.find? (fun w => w.blk = b.id && w.wblk = k)
          match far.bind (env.farTrap r) with
          | some x => x
          | none =>
            .done (env.p.lanes.foldl (fun e t =>
              e.addAccess .plain t 0 [] (.peek (far.elim 0 (fun w => w.uid)) r.a.toNat (env.farLane r t) (e.destV r.d.toNat t))) env))

end Sys2Proof.Machine
end

