-- ==== Sys2Proof/Machine/Window.lean ====
section
/-! DEFINITION. Windows of tile descriptors and their regions (R179 to R181), and the accesses that engines and the receive
match engine make to them (R189, R265, R269). -/

namespace Sys2Proof.Machine

/-! ### Windows -/

/-- Bits hi down to lo of a descriptor. -/
def dBits (d : BitVec 256) (hi lo : Nat) : Nat := natBits d.toNat hi lo

/-- A window of a tensor with its slot's definition (R179). -/
structure Window where
  space : Nat
  base : Int
  stride : Nat
  row0 : Nat
  col0 : Nat
  rows : Nat
  cols : Nat
  place : Nat
  f : Fmt

/-- The slot number in a descriptor (R179). -/
def dFmt (d : BitVec 256) : Nat := dBits d 103 100
/-- Bits 127:64 of a descriptor, which several causes report. -/
def dHigh (d : BitVec 256) : Word := BitVec.ofNat 64 (dBits d 127 64)

/-- The window of a descriptor under a slot definition, its base moved by `step` bytes (R179, R189). -/
def windowOf (d : BitVec 256) (fw : Word) (step : Int) : Window :=
  { space := dBits d 98 96, base := dBits d 56 0 + step, stride := dBits d 167 128, row0 := dBits d 207 192
    col0 := dBits d 223 208, rows := dBits d 79 64, cols := dBits d 95 80, place := dBits d 113 104, f := Fmt.ofWord fw }

/-- Where row i begins (R179). -/
def Window.row (w : Window) (i : Nat) : Int := w.base + ((w.row0 + i) * w.stride : Nat)
/-- Bytes of a block: its header and 32 elements (R70). -/
def Window.blockBytes (w : Window) : Nat := 8 + 4 * w.f.width
/-- The bit position of element c of row i (R169, R170, R179). -/
def Window.elem (w : Window) (i c : Nat) : Int := w.f.bitPosI (w.row i) ((w.col0 + c : Nat) : Int)
/-- The bit position of the header of the block that holds element c of row i (R70). -/
def Window.header (w : Window) (i c : Nat) : Int := 8 * (w.row i + ((w.col0 + c) / 32 * w.blockBytes : Nat))
/-- The first bit of row i of the window, with its block's header. -/
def Window.rowFirst (w : Window) (i : Nat) : Int := if w.f.isBlk then w.header i 0 else w.elem i 0
/-- The last bit of row i of the window. -/
def Window.rowLast (w : Window) (i : Nat) : Int := w.elem i (w.cols - 1) + w.f.width - 1
/-- The first byte of the window's bounding range (R181). -/
def Window.first (w : Window) : Int := w.rowFirst 0 / 8
/-- The last byte of the window's bounding range (R181). -/
def Window.last (w : Window) : Int := w.rowLast (w.rows - 1) / 8
/-- Bits from a row's start to just past the window's last element (R186). -/
def Window.extent (w : Window) : Nat :=
  if w.f.isBlk then 8 * ((w.col0 + w.cols) / 32) * w.blockBytes else (w.col0 + w.cols) * w.f.width
/-- Block-misaligned (R179). -/
def Window.misaligned (w : Window) : Bool := w.f.isBlk && (w.col0 % 32 ≠ 0 || w.cols % 32 ≠ 0)
/-- Its rows overlap one another (R186). -/
def Window.overlapping (w : Window) : Bool := w.stride * 8 < w.extent
/-- Every (row, column) of the window, in row order. -/
def Window.cells (w : Window) : List (Nat × Nat) :=
  (List.range w.rows).flatMap (fun i => (List.range w.cols).map (fun c => (i, c)))

/-! ### Regions -/

/-- A set of lines in one space (R181, R188): space, unit (the vault's cluster or the core), first and last line. -/
structure Reg where
  space : Nat
  unit : Nat
  lo : Int
  hi : Int
  write : Bool
  deriving DecidableEq, Repr

/-- Conflicting regions (R188): overlapping lines of which one is written. -/
def Reg.conflicts (a b : Reg) : Bool :=
  (a.write || b.write) && a.space = b.space && a.unit = b.unit && a.lo ≤ b.hi && b.lo ≤ a.hi

/-- The number of 128-byte lines of a window's bounding range (R181). -/
def Window.lines (w : Window) : Int := w.last / 128 - w.first / 128 + 1

/-- The region word of a window (R181). -/
def Window.regionWord (w : Window) : Word :=
  let l := (w.first / 128).toNat
  let start := match w.space with
    | 2 => w.place * 2 ^ 40 + l % 2 ^ 40
    | _ => l % 2 ^ 50
  BitVec.ofNat 64 (w.space * 2 ^ 62 + start * 2 ^ 12 + w.lines.toNat)

/-- What stands at an engine (R181, R184): die and cluster, the posting core, its block's scratchpad. -/
structure Seat where
  die : Nat
  cl : Nat
  core : Nat
  spBase : Nat
  spSize : Nat

/-- The unit that a place names, as a cluster number of the package; none outside the partition (R93). -/
def Context.vaultAt (x : Context) (e : Seat) (place : Nat) : Option Nat :=
  (placeUnit x e.die (e.cl % 64) place).map (fun u => u.1 * 64 + u.2)

/-- A window's bytes leave the allocation or the vault (R186). -/
def Window.outside (w : Window) (x : Context) (e : Seat) : Bool :=
  match w.space with
  | 1 => w.first < 0 || (e.spSize : Int) ≤ w.last
  | 2 =>
    match x.vaultAt e w.place with
    | some u => w.first < 0 || (x.vaultSize u : Int) ≤ w.last
    | none => true
  | _ => false

/-- The region that a region word names; none for COUNT 0 (R181, R188). Scratchpad lines are those of the core's array. -/
def regionOf (x : Context) (e : Seat) (w : Word) (write : Bool) : Option Reg :=
  let n := natBits w.toNat 11 0
  let start := natBits w.toNat 61 12
  if n = 0 then none
  else match natBits w.toNat 63 62 with
  | 1 => some ⟨1, e.core, e.spBase / 128 + start, e.spBase / 128 + start + n - 1, write⟩
  | 2 => some ⟨2, (x.vaultAt e (start / 2 ^ 40)).getD 0, (start % 2 ^ 40 : Nat), (start % 2 ^ 40 + n - 1 : Nat), write⟩
  | k => some ⟨k, 0, start, (start + n - 1 : Nat), write⟩

/-- A region moved by whole bytes: the lines that hold its moved bytes (R188). -/
def Reg.move (r : Reg) (step : Int) : Reg := { r with lo := (r.lo * 128 + step) / 128, hi := (r.hi * 128 + 127 + step) / 128 }

/-- The region of a window (R181). -/
def Window.region (x : Context) (e : Seat) (w : Window) (write : Bool) : Reg :=
  match w.space with
  | 1 => ⟨1, e.core, e.spBase / 128 + w.first / 128, e.spBase / 128 + w.last / 128, write⟩
  | 2 => ⟨2, (x.vaultAt e w.place).getD 0, w.first / 128, w.last / 128, write⟩
  | k => ⟨k, 0, w.first / 128, w.last / 128, write⟩

/-- A piece of an access lies in lines of a region (R181): of a scratchpad, of a vault, or of virtual addresses. -/
def Piece.inReg (p : Piece) (r : Reg) : Bool :=
  let t := keySpace (p.pos / 8)
  let u := (t - 0x100) % 0x1000
  let meets (first : Nat) : Bool := (first / 128 : Nat) ≤ r.hi && r.lo ≤ ((first + (p.pos % 8 + p.len - 1) / 8) / 128 : Nat)
  match r.space with
  | 1 => 0x100 ≤ t && 0x400 ≤ u && u - 0x400 = r.unit && meets (p.pos / 8 % keyTag)
  | 2 => 0x100 ≤ t && u < 0x400 && u = r.unit && meets (p.pos / 8 % keyTag)
  | _ => t < 0x100 && meets p.va

/-- A region lies inside another. -/
def Reg.inside (a b : Reg) : Bool := a.space = b.space && a.unit = b.unit && b.lo ≤ a.lo && a.hi ≤ b.hi

/-! ### Accesses of engines -/

/-- How an engine's access to a byte ends: at its key, or with a card status (R183, R189) and the granules in error that it met
(R349), or not yet (R264, R356). -/
inductive Hit where
  | ok (key : Nat)
  | fail (status : Nat) (keys : List Nat)
  | wait
  deriving DecidableEq, Repr

/-- What the end of an engine's access leaves: the records of the errors that it consumed (R349), and the driver's word of a remote
one (R324), with an address. -/
def State.noteHit (s : State) (a : Word) (h : Hit) : State :=
  match h with
  | .fail n ks =>
    let s := s.recordKeys 0x02 ks
    if n = 4 && (ks = [] || ks.any (fun k => 0 < keySpace k && keySpace k < 0x100)) then { s with driverLog := s.driverLog ++ [a] } else s
  | _ => s

/-- The home of a byte of a space for an engine (R265): page faults and invalid entries 2, permission 3, an unreachable
target or a poisoned entry 4. -/
def engHome (s : State) (x : Context) (e : Seat) (space place : Nat) (write : Bool) (b : Int) : Hit :=
  let look (k : Nat) : Hit :=
    if !s.reachable k then .fail 4 [] else if keySpace k = 0 && !s.hbmReady k then .wait else .ok k
  match space with
  | 1 => look (keySram x.id e.core (e.spBase + b.toNat))
  | 2 =>
    match x.vaultAt e place with
    | some u => look (keyVault x.id u b.toNat)
    | none => .fail 2 []
  | _ =>
    if b < 0 || 2 ^ 57 ≤ b then .fail 2 []
    else match findLeaf s x (tlbCluster e.cl) b.toNat write with
    | .leaf pte level _ =>
      if write && !pte.testBit 61 then .fail 3 [] else if !write && !pte.testBit 62 then .fail 3 [] else look (leafKey s pte level b.toNat)
    | .poisoned a => .fail 4 [keyHbm a]
    | .busy => .wait
    | _ => .fail 2 []

/-- The key of a byte of a space for an engine; a read that meets poison ends with 4 (R269). -/
def engKey (s : State) (x : Context) (e : Seat) (space place : Nat) (write : Bool) (b : Int) : Hit :=
  match engHome s x e space place write b with
  | .ok k => if !write && s.bad k 1 then .fail 4 (s.badGranules k 1) else .ok k
  | h => h

/-- How an access ends that has met a failure and then another byte: errors in further granules are met too, each once (R355). -/
def Hit.also (h k : Hit) : Hit :=
  match h, k with
  | .fail 4 (a :: as), .fail 4 bs => .fail 4 ((a :: as) ++ bs).eraseDups
  | h, _ => h

/-- The pieces of a run of bits for an engine, one for each byte; or the first way in which a byte is not ok, with every granule in error
that the access meets (R355). -/
def engPieces (s : State) (x : Context) (e : Seat) (space place : Nat) (write : Bool) (pos : Int) (len : Nat) :
    List Piece × Hit :=
  let lo := pos / 8
  let n := ((pos + len - 1) / 8 - lo + 1).toNat
  (List.range n).foldl (fun acc (j : Nat) =>
    match acc.2 with
    | .ok _ =>
      match engKey s x e space place write (lo + j) with
      | .ok k =>
        let a := max pos ((lo + j) * 8)
        let b := min (pos + len) ((lo + j) * 8 + 8)
        (acc.1 ++ [{ pos := k * 8 + (a % 8).toNat, len := (b - a).toNat, off := (a - pos).toNat }], .ok k)
      | h => (acc.1, h)
    | h => (acc.1, h.also (engKey s x e space place write (lo + j)))) ([], .ok 0)

/-- A store released for the engines of a cluster stands before some pieces (R202, R272, R273, R277). -/
def State.holdsUp (s : State) (x : Context) (e : Seat) (ps : List Piece) : Bool := s.shielded x 3 (e.cl * 2) ps

/-- The offset in its array at which what a block has left finds its scratchpad once the block has ended (R253; log entry 88). -/
def lostBase (blk : Nat) : Nat := 2 ^ 62 + blk * 2 ^ 20
/-- The scratchpad of a seat went with its block. -/
def Seat.lost (e : Seat) : Bool := 2 ^ 62 ≤ e.spBase

/-- Reads a run of bits at its home, whatever stores are on their way; a free value where the scratchpad went with its block. -/
def engPeek (s : State) (x : Context) (e : Seat) (space place : Nat) (pos : Int) (len : Nat) : Nat × Hit :=
  let r := engPieces s x e space place false pos len
  if space = 1 && e.lost then ((Config.lostWord (keySram x.id e.core e.spBase * 8 + pos.toNat)).toNat % 2 ^ len, .ok 0)
  else match r.2 with
  | .ok _ => (r.1.foldl (fun acc p => acc + readBits s.mem p.pos p.len * 2 ^ p.off) 0, .ok 0)
  | h => (0, h)

/-- Reads a run of bits at its home, once no store that is released for the engine is on its way there (R273, R277). -/
def engRead (s : State) (x : Context) (e : Seat) (space place : Nat) (pos : Int) (len : Nat) : Nat × Hit :=
  if s.holdsUp x e (engPieces s x e space place false pos len).1 then (0, .wait) else engPeek s x e space place pos len


/-- One run of bits that an engine writes. -/
structure Put where
  pos : Int
  len : Nat
  v : Nat

/-- Writes runs in turn until one cannot be written: the state, the runs left, how the first of them ends, and the pieces
written. -/
def engWriteFrom (s : State) (x : Context) (e : Seat) (space place : Nat) (puts : List Put) (done : List Piece) :
    State × List Put × Hit × List Piece :=
  match puts with
  | [] => (s, [], .ok 0, done)
  | p :: r =>
    let q := engPieces s x e space place true p.pos p.len
    match q.2 with
    | .ok _ => engWriteFrom (engPut s e.die q.1 p.v) x e space place r (done ++ q.1)
    | h => (s, p :: r, h, done)

/-- Writes runs in turn until one cannot be written, clearing the poison of the granules that they write whole. -/
def engWriteAll (s : State) (x : Context) (e : Seat) (space place : Nat) (puts : List Put) : State × List Put × Hit :=
  let z := engWriteFrom s x e space place puts []
  (clearWritten z.1 e.die z.2.2.2, z.2.1, z.2.2.1)

/-- Sets A, and D for a write, on the pages of a run of bits of the global space that an engine touches (R262). -/
def engTouch (s : State) (x : Context) (e : Seat) (space : Nat) (write : Bool) (pos : Int) (len : Nat) : State :=
  if space ≠ 0 then s
  else
    let lo := (pos / 8).toNat
    let hi := ((pos + len - 1) / 8).toNat
    (List.range (hi / 2 ^ 16 - lo / 2 ^ 16 + 1)).foldl (fun s k =>
      touchLeaf s x (tlbCluster e.cl) (if k = 0 then lo else (lo / 2 ^ 16 + k) * 2 ^ 16) write) s

/-- Counts the lines of one page, from an address to another, that an engine's requests touch (R264). -/
def countLines (s : State) (x : Context) (e : Seat) (write : Bool) (lo hi : Nat) : State :=
  match findLeaf s x (tlbCluster e.cl) lo write with
  | .leaf pte level _ =>
    let k := leafKey s pte level lo
    s.countMiss x.id (e.cl * 2) [leafPiece pte level lo (k * 8) ((hi + 1 - lo) * 8) 0]
  | _ => s

/-- The runs of bytes of a window's rows of the global space, page by page. -/
def Window.pageRuns (w : Window) : List (Nat × Nat) :=
  if w.space ≠ 0 then []
  else (List.range w.rows).flatMap (fun i =>
    let lo := (w.rowFirst i / 8).toNat
    let hi := (w.rowLast i / 8).toNat
    (List.range (hi / 2 ^ 16 - lo / 2 ^ 16 + 1)).map (fun k =>
      let a := if k = 0 then lo else (lo / 2 ^ 16 + k) * 2 ^ 16
      (a, min hi (a / 2 ^ 16 * 2 ^ 16 + 2 ^ 16 - 1))))

/-- Counts the line requests of a window of the global space (R264). -/
def countWindow (s : State) (x : Context) (e : Seat) (w : Window) (write : Bool) : State :=
  w.pageRuns.foldl (fun s q => countLines s x e write q.1 q.2) s

/-- Sets A, and D for a write, on every page that a window of the global space touches, and counts its line requests (R262,
R264). -/
def touchWindow (s : State) (x : Context) (e : Seat) (w : Window) (write : Bool) : State :=
  w.pageRuns.foldl (fun s q => countLines (touchLeaf s x (tlbCluster e.cl) q.1 write) x e write q.1 q.2) s

/-- The code of an element with its block header, 0 for a scalar slot; how the read ends. -/
def Window.read (w : Window) (s : State) (x : Context) (e : Seat) (i c : Nat) : Nat × Word × Hit :=
  let a := engRead s x e w.space w.place (w.elem i c) w.f.width
  match a.2 with
  | .ok _ =>
    if w.f.isBlk then
      let h := engRead s x e w.space w.place (w.header i c) 64
      (a.1, BitVec.ofNat 64 h.1, h.2)
    else (a.1, 0, a.2)
  | h => (0, 0, h)

/-- The value of a code under a header (R71, R189). -/
def Fmt.valueOf (f : Fmt) (header : Word) (code : Nat) : Val := if f.isBlk then f.blockValue header code else f.decode code

/-- The issuing warp's seat. -/
def Env.seat (env : Env) : Seat :=
  { die := widDie env.w.wid, cl := env.cl, core := env.core, spBase := env.spBase, spSize := env.spSize }

/-- The worst of several results: the first that is not ok. -/
def firstBad (hs : List Hit) : Hit :=
  match hs.find? (fun h => match h with | .ok _ => false | _ => true) with
  | some h => h
  | none => .ok 0

/-- The absolute scratchpad lines of a region, as keys divided by 128. -/
def Reg.sramLines (x : Context) (r : Reg) : List Nat :=
  if r.space ≠ 1 then [] else
  (List.range (r.hi - r.lo + 1).toNat).map (fun (k : Nat) => keySram x.id r.unit 0 / 128 + (r.lo + k).toNat)

/-- The absolute scratchpad lines that the rows of a window touch (R205). -/
def Window.sramLines (x : Context) (e : Seat) (w : Window) : List Nat :=
  if w.space ≠ 1 then []
  else ((List.range w.rows).flatMap (fun i =>
    let lo := (e.spBase + (w.rowFirst i / 8).toNat) / 128
    let hi := (e.spBase + (w.rowLast i / 8).toNat) / 128
    (List.range (hi - lo + 1)).map (fun k => keySram x.id e.core 0 / 128 + lo + k))).eraseDups

/-- Clears the presence bits of lines (R253). -/
def Context.clearLines (x : Context) (ls : List Nat) : Context :=
  { x with absent := ls ++ x.absent.filter (fun l => !ls.contains l) }

/-- Sets the presence bits of lines (R253). -/
def Context.setLines (x : Context) (ls : List Nat) : Context :=
  { x with absent := x.absent.filter (fun l => !ls.contains l) }

end Sys2Proof.Machine
end

