-- ==== Sys2Proof/Machine/Cards.lean ====
section
/-! DEFINITION. Tile descriptors, copy channels, job cards and their engines, waits, presence bits and stage queues: opcodes
0xA0 to 0xA9 and the events of cards (R180 to R196). -/

namespace Sys2Proof.Machine

/-! ### Descriptors -/

/-- TDESC (R180). A PLACE that is not zero beside another space than vault is accepted, and of several offending words the first of A,
B and C is reported (log entry 102). -/
def execTdesc (r : RRR) (s : State) : Host.Outcome State Fault Refusal :=
  issue (.tdesc r) .plain s (fun env =>
    let a := env.s r.a
    let b := env.s r.b
    let c := env.s r.c
    if natBits a.toNat 63 57 ≠ 0 then env.trapE .descInvalid a
    else if natBits b.toNat 63 50 ≠ 0 || b.getLsbD 35 || 2 < natBits b.toNat 34 32 then env.trapE .descInvalid b
    else if natBits c.toNat 63 40 ≠ 0 then env.trapE .descInvalid c
    else
      let d := BitVec.ofNat 256 (a.toNat + b.toNat * 2 ^ 64 + c.toNat * 2 ^ 128)
      .done { env with w := env.w.setTdesc r.d.toNat d })

/-- The lowest bit and the width of a field of TMOD (R179, R180). -/
def tmodField (k : Nat) : Nat × Nat :=
  match k with
  | 0 => (0, 57)
  | 1 => (64, 16)
  | 2 => (80, 16)
  | 3 => (128, 40)
  | 4 => (192, 16)
  | 5 => (208, 16)
  | 6 => (100, 4)
  | _ => (104, 10)

/-- TMOD (R180). As in TDESC, PLACE is not tested against SPACE (log entry 102). -/
def execTmod (r : RRR) (s : State) : Host.Outcome State Fault Refusal :=
  issue (.tmod r) .plain s (fun env =>
    let q := tmodField (r.x.toNat % 8)
    let add := r.x.toNat.testBit 3
    let old := (env.w.tdesc r.a.toNat).toNat
    let v := (env.s r.b).toNat
    if !add && 2 ^ q.2 ≤ v then env.trapE .descInvalid (env.s r.b)
    else
      let f := if add then natBits old (q.1 + q.2 - 1) q.1 + v else v
      .done { env with w := env.w.setTdesc r.d.toNat (BitVec.ofNat 256 (spliceBits old q.1 q.2 f)) })

/-! ### Channels -/

/-- The channel of a cluster (R184). -/
def Context.chan? (x : Context) (cl ch : Nat) : Option Channel := x.channels.find? (fun c => c.cl = cl && c.ch = ch)
/-- Puts a channel back, or adds it. -/
def Context.setChan (x : Context) (c : Channel) : Context :=
  { x with channels := c :: x.channels.filter (fun y => !(y.cl = c.cl && y.ch = c.ch)) }
/-- Accepted cards of a channel that are not complete, or posted ones not accepted yet (R185). -/
def Context.chanBusy (x : Context) (cl ch : Nat) : Bool :=
  x.cards.any (fun k => k.cl = cl && k.ch = ch) || x.posted.any (fun p => p.card.cl = cl && p.card.ch = ch)

/-- The first address check that fails (R185, R197): MEM_RANGE of any address, then MEM_ALIGN. -/
def Env.checkAddrs (env : Env) (as : List (Word × Nat)) : Option Res :=
  match as.find? (fun a => 2 ^ 57 ≤ a.1.toNat) with
  | some a => some (env.trapE .memRange a.1)
  | none => (as.find? (fun a => a.1.toNat % a.2 ≠ 0)).map (fun a => env.trapE .memAlign a.1)

/-- The engine's write of a word waits for its HBM stack (R356). -/
def engWaits (s : State) (x : Context) (e : Seat) (a : Nat) : Bool := (engPieces s x e 0 0 true (a * 8) 64).2 = .wait

/-- Writes n bytes at a global address for the engine of a cluster. A word of a card, a bitmap or a completion word that cannot be
written is not written: the driver is told and the engine goes on, since the spec names no effect (the model's choice, log entry
86). The error that it met is recorded (R349). -/
def engStore (s : State) (x : Context) (e : Seat) (a n v : Nat) : State :=
  let z := engWriteAll s x e 0 0 [{ pos := a * 8, len := 8 * n, v := v }]
  match z.2.2 with
  | .ok _ => countLines (touchLeaf z.1 x (tlbCluster e.cl) a true) x e true a (a + n - 1)
  | h =>
    let s := s.noteHit (BitVec.ofNat 64 a) h
    { s with driverLog := s.driverLog ++ [BitVec.ofNat 64 a] }

/-- The release of an engine's instruction (R187, R202): what happens-before it in some regions is performed for the cluster. -/
def Access.inFoot (b : Access) (uid core : Nat) (rs : List Reg) : Bool :=
  b.covered uid core && b.relAt < 3 && b.pieces.any (fun p => rs.any p.inReg)
/-- Performs what a release of the regions of an engine's instruction covers, and nothing else; none where it must wait, as behind an
acquire of the warp that is in flight (R276, R290). -/
def Env.releaseIn (env : Env) (rs : List Reg) : Option Env :=
  if env.acquiring || (env.dev.foreign env.ctx).any (fun b => b.inFoot env.w.uid env.core rs) then none
  else env.perform (fun b => b.inFoot env.w.uid env.core rs)

/-- CHSET.ring (R185): its write of the completion word stands behind the warp's earlier accesses to that line, and waits for its HBM
stack (R356). A JPOST posted and not accepted counts as a card that is not complete, and a walk with no accepted card left ends with it (the model's choice, log entry
85). -/
def execChsetRing (r : RRR) (s : State) : Host.Outcome State Fault Refusal :=
  issue (.chsetRing r) .resets s (fun env =>
    let b := (env.s r.b).toNat
    let ch := b % 64
    let k := natBits b 11 8
    if b / 2 ^ 12 ≠ 0 || natBits b 7 6 ≠ 0 || k < 1 || 12 < k then env.wordTrap .illegalOperand
    else match env.checkAddrs [(env.s r.a, 128), (env.s r.c, 8)] with
    | some x => x
    | none =>
      if env.ctx.chanBusy env.cl ch then env.trapE .chanState (BitVec.ofNat 64 ch)
      else if engWaits env.dev env.ctx env.seat (env.s r.c).toNat then .hold (.retrySources [])
      else match env.releaseIn [⟨0, 0, (env.s r.c).toNat / 128, (env.s r.c).toNat / 128, true⟩] with
      | none => .hold (.retrySources [])
      | some env =>
        let c : Channel := { cl := env.cl, ch := ch, ring := (env.s r.a).toNat, k := k, nextSlot := 0, last := none
                             cw := (env.s r.c).toNat, nextSeq := 1, done := 0, err := false, ahead := [], walking := none
                             chainSlots := [], chainQ := 0, chainBlk := 0, chainCore := 0, chainSp := (0, 0) }
        .done { env with dev := engStore env.dev env.ctx env.seat (env.s r.c).toNat 8 0, ctx := env.ctx.setChan c })

/-- CHSET.chain (R185). A JPOST posted and not accepted, or a walk with no accepted card left, is CHAN_STATE too: the spec names only
accepted cards (the model's choice, log entry 85). -/
def execChsetChain (r : RRR) (s : State) : Host.Outcome State Fault Refusal :=
  issue (.chsetChain r) .resets s (fun env =>
    let b := (env.s r.b).toNat
    if 64 ≤ b then env.wordTrap .illegalOperand
    else match env.checkAddrs [(env.s r.a, 128)] with
    | some x => x
    | none =>
      match env.ctx.chan? env.cl b with
      | none => env.trapE .chanState (BitVec.ofNat 64 b)
      | some c =>
        if env.ctx.chanBusy env.cl b || c.walking.isSome then env.trapE .chanState (BitVec.ofNat 64 b)
        else if env.acquiring then .hold (.retrySources [])
        else .done { env with ctx := env.ctx.setChan { c with
          walking := some (env.s r.a).toNat, chainQ := env.w.q, chainBlk := env.w.blk, chainCore := env.core, chainSp := (env.spBase, env.spSize)
          chainSlots := (List.range 16).map (fun f => smGet 0 env.w.slots f) } })

/-! ### JPOST -/

/-- A trap with a descriptor's bits 127:64 (R186). -/
def Env.trapDesc (env : Env) (c : Cause) (d : BitVec 256) : Res := env.trapE c (dHigh d)

/-- The window of a descriptor of the issuing warp (R58). -/
def Env.window? (env : Env) (d : BitVec 256) (step : Int) : Window :=
  windowOf d (smGet 0 env.w.slots (dFmt d)) step

/-- The slots that descriptors name, of any kind (R57). -/
def Opts.descSlots (ts : Env → List Nat) (u : SlotUse) : Opts :=
  { Opts.plain with slots := fun env => (ts env).map (fun t => (dFmt (env.w.tdesc t), u)) }

/-- A place outside the partition (R93). -/
def Window.placeBad (x : Context) (e : Seat) (w : Window) : Bool := w.space = 2 && (x.vaultAt e w.place).isNone

/-- Checks 3 to 7 of R186 on one descriptor alone; `steps` are the moves of its base for check 7. -/
def Env.checkDesc (env : Env) (d : BitVec 256) (steps : List Int) : Option Res :=
  let w := env.window? d 0
  if w.rows = 0 || w.cols = 0 || 2 < w.space || w.misaligned then some (env.trapDesc .cardInvalid d)
  else if w.placeBad env.ctx env.seat then some (env.trapDesc .placeRange d)
  else if steps.any (fun k => (env.window? d k).outside env.ctx env.seat) then some (env.trapDesc .copyBounds d)
  else none

/-- A JPOST's operands (R186). -/
structure Post where
  typ : Nat
  ctl : Word
  bmap : Word
  aux0 : Word
  aux1 : Word
  ds : BitVec 256
  dd : BitVec 256

/-- LRED of the control word. -/
def Post.lred (p : Post) : Bool := p.ctl.getLsbD 16
/-- Iterations: COUNT of a loop, one otherwise. -/
def Post.count (p : Post) : Nat := if p.typ = 2 then p.aux0.toNat % 2 ^ 32 else 1
/-- SSTEP and DSTEP, signed (R183). -/
def Post.steps (p : Post) : Int × Int :=
  if p.typ = 2 then (signedOf 32 (natBits p.aux1.toNat 31 0), signedOf 32 (natBits p.aux1.toNat 63 32)) else (0, 0)
/-- ROP is used (R186). -/
def Post.usesRop (p : Post) : Bool := p.typ = 1 || (p.typ = 2 && p.lred)

/-- Check 2 of R186. -/
def Post.wordsBad (p : Post) : Bool :=
  let c := p.ctl.toNat
  c / 2 ^ 17 ≠ 0 || natBits c 15 14 ≠ 0 || c.testBit 11 || natBits c 7 6 ≠ 0 || (p.lred && p.typ ≠ 2) ||
    natBits c 10 8 = 7 || (if p.usesRop then natBits c 13 12 = 3 else natBits c 13 12 ≠ 0) || !addrOk p.bmap

/-- Checks 2 to 10 of R186 in order. Which descriptor UTVAL reports where both could be meant, and that check 4 compares slot definitions,
are the model's choices (log entry 103). -/
def Env.checkPost (env : Env) (p : Post) : Option Res :=
  let ws := env.window? p.ds 0
  let wd := env.window? p.dd 0
  let n := p.count
  let ends (k : Int) : List Int := if n = 0 then [] else [0, ((n : Int) - 1) * k]
  let empty (w : Window) : Bool := w.rows = 0 || w.cols = 0 || 2 < w.space
  let out (w : Int → Window) (k : Int) : Bool := (ends k).any (fun j => (w j).outside env.ctx env.seat)
  let ctl (c : Cause) : Option Res := some (env.trapE c p.ctl)
  if p.wordsBad then ctl .cardInvalid
  else if empty ws then some (env.trapDesc .cardInvalid p.ds)
  else if empty wd || ws.rows ≠ wd.rows || ws.cols ≠ wd.cols then some (env.trapDesc .cardInvalid p.dd)
  else if wd.f.isBlk && smGet 0 env.w.slots (dFmt p.ds) ≠ smGet 0 env.w.slots (dFmt p.dd) then
    some (env.trapDesc .cardInvalid p.dd)
  else if ws.misaligned then some (env.trapDesc .cardInvalid p.ds)
  else if wd.misaligned || wd.overlapping then some (env.trapDesc .cardInvalid p.dd)
  else if ws.placeBad env.ctx env.seat then some (env.trapDesc .placeRange p.ds)
  else if wd.placeBad env.ctx env.seat then some (env.trapDesc .placeRange p.dd)
  else if out (env.window? p.ds) p.steps.1 then some (env.trapDesc .copyBounds p.ds)
  else if out (env.window? p.dd) p.steps.2 then some (env.trapDesc .copyBounds p.dd)
  else if 4095 < ws.lines || 4095 < wd.lines || (p.typ = 2 && n = 0) then ctl .cardInvalid
  else if p.typ = 2 && p.bmap ≠ 0 && p.steps.2 < 0 then ctl .cardInvalid
  else if (env.ctx.chan? env.cl (p.ctl.toNat % 64)).isNone then ctl .chanState
  else none

/-- The address of the ring's next slot (R187). -/
def Channel.slotAddr (c : Channel) : Nat := c.ring + c.nextSlot * 128
/-- The next slot is free and no program chain is walked (R187). -/
def Context.ringFree (x : Context) (c : Channel) : Bool :=
  c.walking.isNone && !x.cards.any (fun k => k.cl = c.cl && k.ch = c.ch && k.addr = c.slotAddr) &&
    !x.posted.any (fun p => p.card.cl = c.cl && p.card.ch = c.ch && p.card.addr = c.slotAddr)

/-- JPOST's checks and counts (R33, R43, R57). A block-scaled slot of a descriptor does not trap with SLOT_BLOCK (R186, R189; log entry
71). -/
def jpostOpts (r : RRR) : Opts :=
  { Opts.descSlots (fun _ => [r.a.toNat, r.b.toNat]) .any with whole := true, reset := true }

/-! ### Cards -/

/-- Where a card's engine stands. -/
def Card.seat (k : Card) : Seat := { die := k.cl / 64, cl := k.cl, core := k.core, spBase := k.spBase, spSize := k.spSize }
/-- A card that reduces: type 3, or a loop of reduces (R183, R189). -/
def Card.reduces (k : Card) : Bool := k.typ = 3 || (k.typ = 2 && k.lred)
/-- Iterations (R189). -/
def Card.iters (k : Card) : Nat := if k.typ = 2 then k.count else 1
/-- The source window of iteration j. -/
def Card.src (k : Card) (j : Nat) : Window := windowOf k.ds k.sfmt (j * k.sstep)
/-- The destination window of iteration j. -/
def Card.dst (k : Card) (j : Nat) : Window := windowOf k.dd k.dfmt (j * k.dstep)
/-- The declared regions moved to iteration j (R188), with the move between iterations. -/
def Card.regs (x : Context) (k : Card) (j : Nat) : List Reg :=
  ((regionOf x k.seat k.read0 false).map (fun r => r.move (j * k.sstep))).toList ++
    ((regionOf x k.seat k.read1 false).map (fun r => r.move (j * k.dstep))).toList ++
    ((regionOf x k.seat k.write true).map (fun r => r.move (j * k.dstep))).toList
/-- Two regions' bounding range. -/
def Reg.hull (a b : Reg) : Reg := { a with lo := min a.lo b.lo, hi := max a.hi b.hi }
/-- The regions of iterations j to the last, as bounding ranges (R188). -/
def Card.hulls (x : Context) (k : Card) (j : Nat) : List Reg := List.zipWith Reg.hull (k.regs x j) (k.regs x (k.iters - 1))
/-- The scratchpad lines of the card's write region over its iterations, as keys divided by 128. -/
def Card.sramLines (x : Context) (k : Card) : List Nat := (k.hulls x 0).flatMap (fun r => if r.write then r.sramLines x else [])

/-- The card of a number. -/
def Context.card? (x : Context) (id : Nat) : Option Card := x.cards.find? (fun k => k.id = id)
/-- Puts a card back. -/
def Context.setCard (x : Context) (k : Card) : Context :=
  { x with cards := x.cards.map (fun y => if y.id = k.id then k else y) }

/-- The regions of the operand windows of an MMA or MMAS (R202). -/
def EngOp.regs (x : Context) (o : EngOp) : List Reg :=
  if o.op ≤ 1 then
    let e : Seat := { die := o.cl / 64, cl := o.cl, core := o.core, spBase := o.spBase, spSize := o.spSize }
    (regionOf x e o.read0 false).toList ++ (regionOf x e o.read1 false).toList
  else []

/-- An earlier card or tile task of the cluster has work left that conflicts (R188). -/
def Context.blocked (x : Context) (cl id : Nat) (rs : List Reg) : Bool :=
  x.cards.any (fun k => k.cl = cl && k.id < id && (k.hulls x 0).any (fun a => rs.any a.conflicts)) ||
    x.engOps.any (fun o => o.cl = cl && o.id < id && (o.regs x).any (fun a => rs.any a.conflicts))

/-- The bytes of chunk k of a card (R190): the first byte, in the write region's space. -/
def Card.chunkAt (k : Card) (n : Nat) : Nat :=
  let start := match natBits k.write.toNat 63 62 with
    | 2 => natBits k.write.toNat 51 12
    | _ => natBits k.write.toNat 61 12
  start * 128 / 512 * 512 + 512 * n
/-- The number of chunks of a card over its iterations. -/
def Card.chunkCount (k : Card) : Nat :=
  ((k.dst (k.iters - 1)).last - k.chunkAt 0).toNat / 512 + 1
/-- The address of the bitmap word of chunk n. -/
def Card.bitmapAt (k : Card) (n : Nat) : Nat := k.bmap + 8 * (n / 64)
/-- The addresses of a card's bitmap words. -/
def Card.bitmapWords (k : Card) : List Nat := if k.bmap = 0 then [] else (List.range k.chunkCount).map k.bitmapAt
/-- A word that placing a card writes waits for its HBM stack: its slot, the previous slot, its bitmap (R187, R356). -/
def Card.placeWaits (k : Card) (s : State) (x : Context) (n : Channel) : Bool :=
  (k.addr :: n.last.toList ++ k.bitmapWords).any (engWaits s x k.seat)
/-- A word that the end of a card writes waits for its HBM stack: its own, its bitmap, its channel's (R190, R356). -/
def Card.endWaits (k : Card) (s : State) (x : Context) : Bool :=
  (k.addr :: ((x.chan? k.cl k.ch).map (fun n => n.cw)).toList ++ k.bitmapWords).any (engWaits s x k.seat)
/-- Sets or clears the bitmap bit of chunk n at its home. -/
def Card.markChunk (s : State) (x : Context) (k : Card) (n : Nat) (bit : Bool) : State :=
  if k.bmap = 0 then s
  else
    let old := (engPeek s x k.seat 0 0 (k.bitmapAt n * 8) 64).1
    engStore s x k.seat (k.bitmapAt n) 8 (spliceBits old (n % 64) 1 (if bit then 1 else 0))

/-- The words of a card (R182). -/
def Card.words (k : Card) (aux0 aux1 : Word) : List Nat :=
  let d4 (d : BitVec 256) : List Nat := [dBits d 63 0, dBits d 127 64, dBits d 191 128, dBits d 255 192]
  let hdr := k.seq * 2 ^ 32 + k.rop * 2 ^ 16 + k.ch * 2 ^ 8 + (if k.lred then 2 ^ 7 else 0) + k.scope * 2 ^ 4 + k.typ
  [2 ^ 63, hdr] ++ d4 k.ds ++ d4 k.dd ++
    [aux0.toNat, aux1.toNat, k.read0.toNat, k.read1.toNat, k.write.toNat, k.bmap]

/-- Writes the words of a list from an address on. -/
def engWords (s : State) (x : Context) (e : Seat) (a : Nat) (ws : List Nat) : State :=
  match ws with
  | [] => s
  | w :: r => engWords (engStore s x e a 8 w) x e (a + 8) r

/-- The card of a JPOST (R187): type codes of X are copy, reduce, loop. It has no number of its own before it is accepted. -/
def Env.postCard (env : Env) (p : Post) (c : Channel) : Card :=
  let sf := smGet 0 env.w.slots (dFmt p.ds)
  let df := smGet 0 env.w.slots (dFmt p.dd)
  let typ := match p.typ with
    | 0 => 0
    | 1 => 3
    | _ => 2
  let wd := (windowOf p.dd df 0).regionWord
  let perm := natBits p.aux0.toNat 39 32
  { id := 0, cl := c.cl, ch := c.ch, seq := c.nextSeq, addr := c.slotAddr, typ := typ, scope := natBits p.ctl.toNat 10 8
    rop := natBits p.ctl.toNat 13 12, lred := p.lred, ds := p.ds, dd := p.dd, sfmt := sf, dfmt := df
    count := natBits p.aux0.toNat 31 0, perm := if perm = 0 then 16 else perm
    sstep := signedOf 32 (natBits p.aux1.toNat 31 0), dstep := signedOf 32 (natBits p.aux1.toNat 63 32)
    read0 := (windowOf p.ds sf 0).regionWord, read1 := if typ = 3 || (typ = 2 && p.lred) then wd else 0, write := wd
    bmap := p.bmap.toNat, q := env.w.q, blk := env.w.blk, core := env.core, spBase := env.spBase, spSize := env.spSize, program := false
    started := false, iter := 0, items := [], seen := [], chunks := [], status := 0, cancelled := false }

/-- Steps 2 to 4 of R187: the words of a card in its slot, the link from the previous slot, the bitmap and presence bits cleared, the
channel moved on. -/
def Card.place (k : Card) (s : State) (x : Context) (n : Channel) (aux0 aux1 : Word) : State × Context :=
  let s := engWords s x k.seat k.addr (k.words aux0 aux1)
  let s := match n.last with
    | some a => engStore s x k.seat a 8 (spliceBits (engPeek s x k.seat 0 0 (a * 8) 64).1 7 50 (k.addr / 128))
    | none => s
  let s := if k.bmap = 0 then s else (List.range k.chunkCount).foldl (fun s i => k.markChunk s x i false) s
  (s, (x.clearLines (k.sramLines x)).setChan
    { n with last := some k.addr, nextSlot := (n.nextSlot + 1) % 2 ^ n.k, nextSeq := (n.nextSeq + 1) % 2 ^ 32 })

/-- JPOST (R186, R187): it holds while the slot is owned, a word that it writes must wait (R356) or its release must (log entry 16),
then carries out steps 1 to 5. -/
def execJpost (r : RRR) (s : State) : Host.Outcome State Fault Refusal :=
  issue (.jpost r) (jpostOpts r) s (fun env =>
    let reg (k : Nat) : Word := env.w.readS (r.c.toNat + k)
    let p : Post := { typ := r.x.toNat, ctl := reg 0, bmap := reg 1, aux0 := if r.x = 2 then reg 2 else 0
                      aux1 := if r.x = 2 then reg 3 else 0, ds := env.w.tdesc r.a.toNat, dd := env.w.tdesc r.b.toNat }
    match env.checkPost p with
    | some x => x
    | none =>
      let ch := p.ctl.toNat % 64
      match env.ctx.chan? env.cl ch with
      | none => env.trapE .chanState p.ctl
      | some c =>
        let k := env.postCard p c
        if !env.ctx.ringFree c then .hold (.retryRing env.cl ch)
        else if k.placeWaits env.dev env.ctx c then .hold (.retrySources [])
        else match env.releaseIn (k.hulls env.ctx 0) with
        | none => .hold (.retrySources [])
        | some env =>
          let z := k.place env.dev env.ctx c p.aux0 p.aux1
          let post : Posted := { uid := env.w.uid, card := k, d := r.d, prod := env.id }
          .done ({ env with dev := z.1, ctx := { z.2 with posted := z.2.posted ++ [post] }
                            w := env.w.markS r.d.toNat (.empty env.id) }.bump))

/-- JPOST_ACCEPT (R187): the oldest posted card of the channel is handed to the engine task scheduler, and its sequence number is owed
to D. -/
def execJpostAccept (c cl ch : Nat) (s : State) : Host.Outcome State Fault Refusal :=
  .next (match s.ctx? c with
  | none => s
  | some x =>
    match x.posted.find? (fun p => p.card.cl = cl && p.card.ch = ch) with
    | none => s
    | some p =>
      if !x.active then s
      else
        let d : Dest := { uniform := true, reg := p.d.toNat, lane := 0, prod := p.prod, allocGen := 0 }
        let x := { x with posted := x.posted.filter (fun y => y.prod ≠ p.prod), cards := x.cards ++ [{ p.card with id := s.nextId }] }
        { s with nextId := s.nextId + 2 }.setCtx (x.owe (s.nextId + 1) p.uid d (BitVec.ofNat 64 p.card.seq) none))

/-- Word i of a card in memory, 0 where it cannot be read. -/
def cardWord (s : State) (x : Context) (e : Seat) (a i : Nat) : Nat := (engPeek s x e 0 0 ((a + 8 * i) * 8) 64).1

/-- Four words of a card as a descriptor. -/
def cardDesc (s : State) (x : Context) (e : Seat) (a i : Nat) : BitVec 256 :=
  BitVec.ofNat 256 (cardWord s x e a i + cardWord s x e a (i + 1) * 2 ^ 64 + cardWord s x e a (i + 2) * 2 ^ 128 +
    cardWord s x e a (i + 3) * 2 ^ 192)

/-- A program-built card as its words give it (R182, R183). -/
def chainCard (s : State) (x : Context) (n : Channel) (e : Seat) (a id : Nat) : Card :=
  let w (i : Nat) := cardWord s x e a i
  let ds := cardDesc s x e a 2
  let dd := cardDesc s x e a 6
  let h := w 1
  let perm := natBits (w 10) 39 32
  { id := id, cl := n.cl, ch := n.ch, seq := n.nextSeq, addr := a, typ := natBits h 3 0, scope := natBits h 6 4
    rop := natBits h 17 16, lred := h.testBit 7, ds := ds, dd := dd, sfmt := n.chainSlots.getD (dFmt ds) 0
    dfmt := n.chainSlots.getD (dFmt dd) 0, count := natBits (w 10) 31 0, perm := if perm = 0 then 16 else perm
    sstep := signedOf 32 (natBits (w 11) 31 0), dstep := signedOf 32 (natBits (w 11) 63 32)
    read0 := BitVec.ofNat 64 (w 12), read1 := BitVec.ofNat 64 (w 13), write := BitVec.ofNat 64 (w 14), bmap := w 15
    q := n.chainQ, blk := n.chainBlk, core := e.core, spBase := e.spBase, spSize := e.spSize, program := true
    started := false, iter := 0, items := [], seen := [], chunks := [], status := 0, cancelled := false }

/-- The fixed words of a program-built card hold what R183 allows (R182, R183). A tile task (TYPE 0001), which has no handle here, does
not; words that a card does not use, and the CHAN field of its header, are not tested (the model's choice, log entry 87). -/
def chainWordsOk (s : State) (x : Context) (e : Seat) (a : Nat) (k : Card) : Bool :=
  let n := cardWord s x e a 0
  let h := cardWord s x e a 1
  natBits n 62 57 = 0 && natBits n 6 0 = 0 && natBits h 31 28 = 0 && natBits h 23 18 = 0 && natBits h 15 14 = 0 &&
    k.scope ≠ 7 && (k.typ = 0 || k.typ = 2 || k.typ = 3) && (!k.reduces || k.rop ≠ 3) &&
    natBits (cardWord s x e a 10) 63 40 = 0 && k.bmap < 2 ^ 57 && k.bmap % 8 = 0 && (k.typ ≠ 2 || k.count ≠ 0)

/-- CHAIN_CARD_ACCEPT (R185): the next card of a program chain when the engine owns it, with its SEQ written and the presence
bits of its write region cleared; the walk ends at NADDR = 0 or at a card that the program owns. A card that cannot be read ends it
too, and the driver is told (the model's choice, log entry 86). -/
def execChainCardAccept (c cl ch : Nat) (s : State) : Host.Outcome State Fault Refusal :=
  .next (match s.ctx? c with
  | none => s
  | some x =>
    match x.chan? cl ch with
    | none => s
    | some n =>
      match n.walking with
      | none => s
      | some a =>
        let e : Seat := { die := cl / 64, cl := cl, core := n.chainCore, spBase := n.chainSp.1, spSize := n.chainSp.2 }
        let next := engRead s x e 0 0 (a * 8) 1024
        if !x.active then s
        else match next.2 with
        | .wait => s
        | .fail _ ks =>
          { ks.foldl (fun (s : State) k => s.record (badRecord 0x02 k).1 (badRecord 0x02 k).2) s with
            driverLog := s.driverLog ++ [BitVec.ofNat 64 a] }.setCtx (x.setChan { n with walking := none })
        | .ok _ =>
          let s := touchLeaf s x (tlbCluster cl) a false
          if !(cardWord s x e a 0).testBit 63 then s.setCtx (x.setChan { n with walking := none })
          else
            let k := chainCard s x n e a s.nextId
            let k := if chainWordsOk s x e a k then k else { k with status := 6 }
            let nx := natBits (cardWord s x e a 0) 56 7 * 128
            let s := engStore s x e (a + 12) 4 k.seq
            let x := x.clearLines (k.sramLines x)
            let x := x.setChan { n with walking := if nx = 0 then none else some nx
                                        nextSeq := (n.nextSeq + 1) % 2 ^ 32 }
            { s with nextId := s.nextId + 1 }.setCtx { x with cards := x.cards ++ [k] })

/-! ### Carrying out cards -/

/-- The tests of a card's or an iteration's windows before it starts (R188). -/
def Card.fits (x : Context) (k : Card) (j : Nat) : Bool :=
  let a := k.src j
  let b := k.dst j
  let ra := a.region x k.seat false
  let rb := b.region x k.seat true
  let inside (w : Word) (step : Int) (r : Reg) : Bool :=
    match regionOf x k.seat w false with
    | some q => r.inside (q.move step)
    | none => false
  a.f.val && b.f.val && a.rows ≠ 0 && a.cols ≠ 0 && a.space ≤ 2 && b.space ≤ 2 && a.rows = b.rows && a.cols = b.cols &&
    (!b.f.isBlk || k.sfmt = k.dfmt) && !a.misaligned && !b.misaligned && !a.placeBad x k.seat && !b.placeBad x k.seat &&
    !a.outside x k.seat && !b.outside x k.seat &&
    inside k.read0 (j * k.sstep) ra && inside k.write (j * k.dstep) rb && (!k.reduces || inside k.read1 (j * k.dstep) rb)

/-- The elements and headers that one iteration moves (R189). -/
def Card.itemsOf (k : Card) (j : Nat) : List CardItem :=
  let a := k.src j
  let b := k.dst j
  let one (q : Nat × Nat) : List CardItem :=
    let i : CardItem :=
      { pos := (b.elem q.1 q.2).toNat, len := b.f.width, src := a.elem q.1 q.2, slen := a.f.width
        srcHdr := if a.f.isBlk then some (a.header q.1 q.2) else none
        dstHdr := if b.f.isBlk then some (b.header q.1 q.2).toNat else none, isHdr := false, iter := j }
    if !k.reduces && k.sfmt = k.dfmt && b.f.isBlk && q.2 % 32 = 0 then
      [i, { i with pos := (b.header q.1 q.2).toNat, len := 64, src := a.header q.1 q.2, slen := 64, isHdr := true }]
    else [i]
  a.cells.flatMap one

/-- A source word of a card as it was read, or as it is read now, once (R191). -/
def Card.word (s : State) (x : Context) (k : Card) (j : Nat) (n : Int) : Card × Nat × Hit :=
  match k.seen.find? (fun w => w.1 = j && w.2.1 = n) with
  | some w => (k, w.2.2, .ok 0)
  | none =>
    let a := k.src j
    let r := engRead s x k.seat a.space a.place (n * 64) 64
    match r.2 with
    | .ok _ => ({ k with seen := (j, n, r.1) :: k.seen }, r.1, .ok 0)
    | h => (k, 0, h)

/-- The numbers of the words that hold a run of source bits. -/
def wordsOf (pos : Int) (len : Nat) : List Int :=
  (List.range ((pos + len - 1) / 64 - pos / 64 + 1).toNat).map (fun (m : Nat) => pos / 64 + m)

/-- Reads source words in turn until one cannot be read: the card, the bits of the run so far, how it ends. -/
def Card.words? (s : State) (x : Context) (k : Card) (j : Nat) (pos : Int) (len : Nat) : Card × Nat × Hit :=
  let z := (wordsOf pos len).foldl (fun (acc : Card × Nat × Hit) n =>
    match acc.2.2 with
    | .ok _ =>
      let w := acc.1.word s x j n
      (w.1, acc.2.1 + w.2.1 * 2 ^ ((n - pos / 64) * 64).toNat, w.2.2)
    | _ => acc) (k, 0, .ok 0)
  (z.1, z.2.1 / 2 ^ (pos % 64).toNat % 2 ^ len, z.2.2)

/-- The source code of an item and its block's header. -/
def Card.source (s : State) (x : Context) (k : Card) (i : CardItem) : Card × Nat × Word × Hit :=
  let c := k.words? s x i.iter i.src i.slen
  match c.2.2, i.srcHdr with
  | .ok _, some h =>
    let d := c.1.words? s x i.iter h 64
    (d.1, c.2.1, BitVec.ofNat 64 d.2.1, d.2.2)
  | h, _ => (c.1, c.2.1, 0, h)

/-- ROP (R183, R189). -/
def reduceOp (rop : Nat) (rm : Rm) (a b : Val) : Val :=
  match rop with
  | 0 => Val.sum [a, b] rm
  | 1 => Val.min a b
  | _ => Val.max a b

/-- The code that an item writes (R189), from its source code and, when the card reduces, from its destination: code, invalid, how
it ends. The sign for a zero is that of the code combined first (log entry 66). -/
def Card.result (s : State) (x : Context) (k : Card) (i : CardItem) (src : Nat) (hdr : Word) : Nat × Bool × Hit :=
  let b := k.dst i.iter
  let f := b.f
  let g := Fmt.ofWord k.sfmt
  if k.reduces then
    let old := engRead s x k.seat b.space b.place i.pos f.width
    let head := match i.dstHdr with
      | some h => engRead s x k.seat b.space b.place h 64
      | none => (0, .ok 0)
    let h := BitVec.ofNat 64 head.1
    let v := reduceOp k.rop f.engineRm (f.valueOf h old.1) (g.valueOf hdr src)
    let v := if f.isBlk then Val.div v (headerScale h) else v
    let c := f.encodeEngine v f.engineRm (f.signBit old.1)
    (c.1, c.2, firstBad [old.2, head.2])
  else if k.sfmt = k.dfmt then (src, false, .ok 0)
  else
    let c := f.encodeEngine (g.valueOf hdr src) f.engineRm (g.signBit src)
    (c.1, c.2, .ok 0)

/-- What a run of items leaves: the state, the card with what it has read, the items left, whether a result was invalid, how it
ends, and the pieces written. -/
structure CardRun where
  dev : State
  card : Card
  left : List CardItem
  bad : Bool
  hit : Hit
  done : List Piece

/-- Sets A on the pages of the source words that an item has still to read (R191, R262). -/
def Card.touchSource (s : State) (x : Context) (k : Card) (i : CardItem) : State :=
  let ws := wordsOf i.src i.slen ++ i.srcHdr.toList.flatMap (fun h => wordsOf h 64)
  (ws.filter (fun n => !k.seen.any (fun w => w.1 = i.iter && w.2.1 = n))).foldl
    (fun s n => engTouch s x k.seat (k.src i.iter).space false (n * 64) 64) s

/-- Sets A and D on the pages that an item writes, and A on that of the header that it combines under (R262). -/
def Card.touchDest (s : State) (x : Context) (k : Card) (i : CardItem) : State :=
  let sp := (k.dst i.iter).space
  let s := match i.dstHdr with
    | some h => if k.reduces then engTouch s x k.seat sp false h 64 else s
    | none => s
  engTouch s x k.seat sp true i.pos i.len

/-- Carries out items in turn, in ascending order and in one event, until one cannot be. The spec gives the elements of a card no order,
and those of two clusters' cards none among one another (the model's choice, log entry 95). -/
def Card.runFrom (x : Context) : List CardItem → CardRun → CardRun
  | [], z => { z with left := [] }
  | i :: r, z0 =>
    let z := { z0 with dev := z0.card.touchSource z0.dev x i }
    let q := z.card.source z.dev x i
    match q.2.2.2 with
    | .ok _ =>
      let c := q.1.result z.dev x i q.2.1 q.2.2.1
      match c.2.2 with
      | .ok _ =>
        let b := q.1.dst i.iter
        let w := engPieces z.dev x q.1.seat b.space b.place true i.pos i.len
        match (if z.dev.holdsUp x q.1.seat w.1 then Hit.wait else w.2) with
        | .ok _ =>
          Card.runFrom x r { z with dev := engPut (q.1.touchDest z.dev x i) q.1.seat.die w.1 c.1, card := q.1, bad := z.bad || c.2.1
                                    done := z.done ++ w.1 }
        | h => { z with card := q.1, left := i :: r, hit := h }
      | h => { z with card := q.1, left := i :: r, hit := h }
    | h => { z with card := q.1, left := i :: r, hit := h }

/-- STATUS after a run: the status of a failure, else 7 where a result was invalid (R189). -/
def Card.noted (k : Card) (bad : Bool) (h : Hit) : Card :=
  match h with
  | .fail n _ => { k with status := n }
  | _ => if bad then { k with status := 7 } else k

/-- What carrying out items of a card leaves, and how it ends. -/
structure CardEnd where
  dev : State
  ctx : Context
  card : Card
  hit : Hit

/-- The data that pieces of an access hold, laid one after the other. -/
def gather (s : State) : List Piece → Nat → List Piece × Nat
  | [], _ => ([], 0)
  | p :: r, n =>
    let q := gather s r (n + p.len)
    ({ p with off := n } :: q.1, readBits s.mem p.pos p.len + 2 ^ p.len * q.2)

/-- What a run of a card has written is performed at once where it lies in scratchpad or SCOPE is package or wider. Otherwise it is
taken back, and is performed later as one access of no warp, which is released for the engine's cluster, and for all of SCOPE once an
acquire pairs with it (R190, R273, R277; log entry 16). -/
def Card.publish (s t : State) (x : Context) (k : Card) (ps : List Piece) : State × Context :=
  if 5 ≤ k.scope || (k.dst 0).space = 1 || ps = [] then (clearWritten t k.seat.die ps, x)
  else
    let g := gather t ps 0
    let a : Access := { id := t.nextId, uid := 0, ins := t.nextId, core := k.cl * 2, lane := 0, addr := BitVec.ofNat 64 k.addr, cached := false
                        acq := none, rel := none, relAt := 3, kind := .store g.2, pieces := g.1, card := max 3 k.scope }
    ({ t with mem := ps.foldl (fun m p => writeBits m p.pos p.len (readBits s.mem p.pos p.len)) t.mem
              copies := s.copies, nextId := t.nextId + 1 }, { x with accesses := x.accesses ++ [a] })

/-- Carries out the items of a card that satisfy a test; the items left stand in the card. -/
def Card.run (s : State) (x : Context) (k : Card) (p : CardItem → Bool) : CardEnd :=
  let z := Card.runFrom x (k.items.filter p) { dev := s, card := k, left := [], bad := false, hit := .ok 0, done := [] }
  let q := k.publish s z.dev x z.done
  { dev := q.1.noteHit (BitVec.ofNat 64 k.addr) z.hit, ctx := q.2
    card := { z.card with items := z.left ++ k.items.filter (fun i => !p i) }.noted z.bad z.hit, hit := z.hit }

/-- No step has failed yet: not complete, or an invalid result written as +0. -/
def Card.going (k : Card) : Bool := k.status = 0 || k.status = 7

/-- The source words of iteration j that this cycle's choice reads as it starts (R191; log entry 3); the rest are read as its
elements are carried out. -/
def Card.readAhead (s : State) (x : Context) (k : Card) (j : Nat) : Card × Hit :=
  let ws := ((k.itemsOf j).flatMap (fun i => wordsOf i.src i.slen)).eraseDups
  ((List.range ws.length).filter (fun n => s.pick (8 + n % 24))).foldl (fun (acc : Card × Hit) n =>
    match acc.2 with
    | .ok _ =>
      let w := acc.1.word s x j (ws.getD n 0)
      (w.1, w.2.2)
    | _ => acc) (k, .ok 0)

/-- Starts iteration j of a card: its windows are tested, and its sources begin to be read. -/
def Card.begin (s : State) (x : Context) (k : Card) (j : Nat) : State :=
  if !k.fits x j then s.setCtx (x.setCard { k with status := 6 })
  else
    let z := k.readAhead s x j
    match z.2 with
    | .wait => s
    | h =>
      let s := countWindow (touchWindow s x k.seat (k.src j) false) x k.seat (k.dst j) true
      let k := { z.1 with started := true, iter := j + 1, items := k.items ++ k.itemsOf j }.noted false h
      (s.noteHit (BitVec.ofNat 64 k.addr) h).setCtx (x.setCard k)

/-- CARD_START (R188): a card with no conflicting earlier card left; one of an ended launch does not start (R344). -/
def execCardStart (c id : Nat) (s : State) : Host.Outcome State Fault Refusal :=
  .next (match s.ctx? c with
  | none => s
  | some x =>
    match x.card? id with
    | none => s
    | some k =>
      let ended := match x.launch? k.q with
        | some l => l.ended.isSome
        | none => false
      if !x.active || k.started || k.status ≠ 0 || x.blocked k.cl k.id (k.hulls x 0) then s
      else if ended then s.setCtx (x.setCard { k with status := 5 })
      else k.begin s x 0)

/-- The iterations of a loop that have items left (R189). -/
def Card.outstanding (k : Card) : List Nat := (k.items.map (fun i => i.iter)).eraseDups

/-- LOOP_ITERATION_START (R188, R189): the next iteration once a permit is free and no outstanding one conflicts. -/
def execLoopIterationStart (c id : Nat) (s : State) : Host.Outcome State Fault Refusal :=
  .next (match s.ctx? c with
  | none => s
  | some x =>
    match x.card? id with
    | none => s
    | some k =>
      let clash := k.outstanding.any (fun j => (k.regs x j).any (fun a => (k.regs x k.iter).any a.conflicts))
      if !x.active || !k.started || k.cancelled || !k.going || k.iters ≤ k.iter || k.perm ≤ k.outstanding.length || clash then s
      else k.begin s x k.iter)

/-- Whether one of the iterations j0 to j1 − 1 moves a range of bytes, lo to hi in iteration 0, onto one of first to last. -/
def stepHits (step : Int) (j0 j1 : Nat) (lo hi first last : Int) : Bool :=
  if step = 0 then j0 < j1 && lo ≤ last && first ≤ hi
  else
    let a := if 0 < step then (first - hi + step - 1) / step else (lo - last + (-step) - 1) / (-step)
    let b := if 0 < step then (last - lo) / step else (hi - first) / (-step)
    max a (j0 : Int) ≤ min b ((j1 : Int) - 1)

/-- Whether one of the iterations j0 to j1 − 1 of a card writes a byte of a range (R189, R190): a row of its destination window lies
there. -/
def Card.writes (k : Card) (j0 j1 : Nat) (first last : Int) : Bool :=
  let b := k.dst 0
  (List.range b.rows).any (fun i => stepHits k.dstep j0 j1 (b.rowFirst i / 8) (b.rowLast i / 8) first last)

/-- Iterations not started may still write a byte of a range (R190). -/
def Card.mayWrite (k : Card) (first last : Int) : Bool := k.iter < k.iters && k.writes k.iter k.iters first last

/-- An item touches bytes of a range. -/
def CardItem.touches (i : CardItem) (first last : Nat) : Bool := i.pos / 8 ≤ last && first ≤ (i.pos + i.len - 1) / 8

/-- The bytes that are written with those of a range: whole destination words, and with them whole elements (R191). -/
def Card.span (k : Card) : Nat → Nat × Nat → Nat × Nat
  | 0, r => r
  | n + 1, r =>
    let hit := k.items.filter (fun i => i.touches r.1 r.2)
    let lo := hit.foldl (fun m i => min m (i.pos / 64 * 8)) r.1
    let hi := hit.foldl (fun m i => max m ((i.pos + i.len - 1) / 64 * 8 + 7)) r.2
    if (lo, hi) = r then r else k.span n (lo, hi)

/-- Carries out what a card writes to a range of bytes, and with it what shares a destination word with that (R191). -/
def Card.runRange (s : State) (x : Context) (k : Card) (first last : Nat) : CardEnd :=
  let r := k.span k.items.length (first, last)
  k.run s x (fun i => i.touches r.1 r.2)

/-- CARD_LINE_WRITTEN (R190): the card's bytes of a scratchpad line of its write region, by its offset in lines, and its presence
bit. -/
def execCardLineWritten (c id line : Nat) (s : State) : Host.Outcome State Fault Refusal :=
  .next (match s.ctx? c with
  | none => s
  | some x =>
    match x.card? id with
    | none => s
    | some k =>
      let key := keySram x.id k.core k.spBase / 128 + line
      if !x.active || !k.started || !k.going || (k.dst 0).space ≠ 1 || !(k.sramLines x).contains key then s
      else
        let z := k.runRange s x (line * 128) (line * 128 + 127)
        let x := z.ctx.setCard z.card
        match z.hit with
        | .ok _ => if k.mayWrite (line * 128) (line * 128 + 127) then z.dev.setCtx x else z.dev.setCtx (x.setLines [key])
        | _ => z.dev.setCtx x)

/-- Sets the bitmap bit of a chunk that is written whole. -/
def Card.endChunk (s : State) (x : Context) (k : Card) (n : Nat) : State × Card :=
  if k.chunks.contains n || k.chunkCount ≤ n then (s, k)
  else (k.markChunk s x n true, { k with chunks := k.chunks ++ [n] })

/-- CARD_CHUNK_DONE (R190): the card's bytes of a chunk, then its bitmap bit. -/
def execCardChunkDone (c id n : Nat) (s : State) : Host.Outcome State Fault Refusal :=
  .next (match s.ctx? c with
  | none => s
  | some x =>
    match x.card? id with
    | none => s
    | some k =>
      if !x.active || !k.started || !k.going || (k.bmap ≠ 0 && engWaits s x k.seat (k.bitmapAt n)) then s
      else
        let a := k.chunkAt n
        let z := k.runRange s x a (a + 511)
        match z.hit with
        | .ok _ =>
          if k.mayWrite a (a + 511) then z.dev.setCtx (z.ctx.setCard z.card)
          else
            let q := z.card.endChunk z.dev z.ctx n
            q.1.setCtx (z.ctx.setCard q.2)
        | _ => z.dev.setCtx (z.ctx.setCard z.card))

/-- DONE after a sequence number completes, with those that wait for earlier ones (R184). -/
def doneFrom (done : Nat) (ahead : List Nat) : Nat → Nat
  | 0 => done
  | n + 1 => if ahead.contains ((done + 1) % 2 ^ 32) then doneFrom ((done + 1) % 2 ^ 32) ahead n else done

/-- The completion word (R184). -/
def Channel.word (c : Channel) : Nat := (if c.err then 2 ^ 63 else 0) + c.done

/-- The end of a card (R190, R192): presence bits, the bitmap bits of the chunks written whole, in which no iteration that did not run
would have written another byte than those that ran, STATUS, OWN, ERR and DONE. -/
def Card.finish (s : State) (x : Context) (k : Card) (status : Nat) : State :=
  let lost (b : Int) : Bool := k.mayWrite b b && !k.writes 0 k.iter b b
  let whole (n : Nat) : Bool :=
    status = 1 || status = 7 || (k.started && !k.items.any (fun i => i.touches (k.chunkAt n) (k.chunkAt n + 511)) &&
      (!k.mayWrite (k.chunkAt n) (k.chunkAt n + 511) || !(List.range 512).any (fun i => lost (k.chunkAt n + i : Nat))))
  let ns := if k.bmap = 0 || !k.started then [] else (List.range k.chunkCount).filter whole
  let s := ns.foldl (fun s n => (k.endChunk s x n).1) s
  let s := engStore s x k.seat (k.addr + 8) 8 (spliceBits (cardWord s x k.seat k.addr 1) 24 4 status)
  let s := engStore s x k.seat k.addr 8 (cardWord s x k.seat k.addr 0 % 2 ^ 63)
  let x := { x.setLines (k.sramLines x) with cards := x.cards.filter (fun y => y.id ≠ k.id) }
  match x.chan? k.cl k.ch with
  | none => s.setCtx x
  | some n =>
    let ahead := n.ahead ++ [k.seq]
    let d := doneFrom n.done ahead ahead.length
    let n := { n with err := n.err || status ≠ 1, done := d, ahead := ahead.filter (fun q => 2 ^ 31 ≤ (d + 2 ^ 32 - q) % 2 ^ 32) }
    (engStore s x k.seat n.cw 8 n.word).setCtx (x.setChan n)

/-- CARD_COMPLETE (R190): the rest of the card's bytes and its end; a loop with iterations left completes its oldest
outstanding one. Where an iteration failed its tests, those already started complete (R188). The end waits for the HBM stacks of the
words that it writes (R356). -/
def execCardComplete (c id : Nat) (s : State) : Host.Outcome State Fault Refusal :=
  .next (match s.ctx? c with
  | none => s
  | some x =>
    match x.card? id with
    | none => s
    | some k =>
      if !x.active || k.endWaits s x then s
      else if !k.going then
        let z : CardEnd := if k.status = 6 then k.run s x (fun _ => true) else { dev := s, ctx := x, card := k, hit := .ok 0 }
        match z.hit with
        | .wait => z.dev.setCtx (z.ctx.setCard { z.card with status := k.status })
        | _ => z.card.finish z.dev z.ctx k.status
      else if !k.started then s
      else if k.iter < k.iters && !k.cancelled then
        match k.outstanding with
        | [] => s
        | j :: _ =>
          let z := k.run s x (fun i => i.iter = j)
          z.dev.setCtx (z.ctx.setCard z.card)
      else
        let z := k.run s x (fun _ => true)
        let k := z.card
        match z.hit with
        | .wait => z.dev.setCtx (z.ctx.setCard k)
        | .fail n _ => k.finish z.dev z.ctx (if k.cancelled then 5 else n)
        | .ok _ => k.finish z.dev z.ctx (if k.cancelled then 5 else if k.status = 7 then 7 else 1))

/-- JCANCEL (R192): D for every active thread. -/
def execJcancel (r : RRR) (s : State) : Host.Outcome State Fault Refusal :=
  issue (.jcancel r) .plain s (fun env =>
    let a := (env.s r.a).toNat
    let put (b : Bool) : Env := { env with w := env.w.setPred r.d.toNat env.e.mask (if b then BitVec.allOnes 32 else 0) }
    if natBits a 31 6 ≠ 0 then env.wordTrap .illegalOperand
    else match env.ctx.cards.find? (fun k => k.cl = env.cl && k.ch = a % 64 && k.seq = a / 2 ^ 32) with
    | none => .done (put false)
    | some k =>
      let hit (k : Card) : Res := .done { put true with ctx := env.ctx.setCard k }
      if !k.started && k.status = 0 then hit { k with status := 5 }
      else if k.started && k.going && !k.cancelled && k.iter < k.iters then hit { k with cancelled := true }
      else .done (put false))

/-! ### Waits and presence -/

/-- A target is reached (R184). -/
def reached (done target : Nat) : Bool := (done + 2 ^ 32 - target % 2 ^ 32) % 2 ^ 32 < 2 ^ 31

/-- D and the acquire of a wait whose condition holds (R193): that of a load of the word followed by FENCE.acq, which waits for
every earlier load and .ret. -/
def Env.waitDone (env : Env) (d : BitVec 8) (scope : Nat) : Res :=
  if !env.ctx.acquireReady env.w.uid env.id then .hold (.retrySources [])
  else .done { env.acquire scope with w := env.w.setPred d.toNat env.e.mask (BitVec.allOnes 32) }
/-- D of a wait whose bound is over. -/
def Env.waitOver (env : Env) (d : BitVec 8) : Env := { env with w := env.w.setPred d.toNat env.e.mask 0 }


/-- TWAIT (R193). -/
def execTwait (r : RI) (s : State) : Host.Outcome State Fault Refusal :=
  issue (.twait r) .resets s (fun env =>
    let scope := r.imm.toNat % 8
    let n := r.imm.toNat / 16
    let a := env.s r.a
    let m := env.w.readS (r.a.toNat + 1)
    let pl : Plan := { space := .global, uniA := a, runs := fun _ => [{ pos := a.toNat * 8, len := 64 }], base := fun _ => a.toNat
                       align := 8, read := true, write := false, packed := false, off := 0 }
    if scope = 7 then env.wordTrap .illegalOperand
    else match env.checkPlan pl with
    | some x => x
    | none =>
      match env.readNow pl with
      | some x => x
      | none =>
        let key := ((env.pieces pl env.p.low (pl.runs env.p.low) 0).headD { pos := 0, len := 0, off := 0 }).pos / 8
        let env := (env.touchPlan pl).keepRead pl
        if BitVec.ofNat 64 (readBytes env.dev.mem key 8) &&& m = m then env.waitDone r.d scope
        else if n = 0 then .done (env.waitOver r.d)
        else .done (env.parkOn (.twait r.d a.toNat m scope (64 * n) env.e.mask)))

/-- SQWAIT (R193). -/
def execSqwait (r : RI) (s : State) : Host.Outcome State Fault Refusal :=
  issue (.sqwait r) .resets s (fun env =>
    let scope := r.imm.toNat % 8
    let n := r.imm.toNat / 16
    let a := (env.s r.a).toNat
    if scope = 7 || natBits a 31 6 ≠ 0 then env.wordTrap .illegalOperand
    else match env.ctx.chan? env.cl (a % 64) with
    | none => env.trapE .chanState (env.s r.a)
    | some c =>
      if env.acquiring then .hold (.retrySources [])
      else if reached c.done (a / 2 ^ 32) then env.waitDone r.d scope
      else if n = 0 then .done (env.waitOver r.d)
      else .done (env.parkOn (.sqwait r.d env.cl (a % 64) (a / 2 ^ 32) scope (64 * n) env.e.mask)))

/-- Where the word of a parked TWAIT stands now (R193, R264, R266): each test of it takes its translation anew, and finds nothing where
there is none, or where the word cannot be reached (log entry 97). -/
def Context.waitWord (x : Context) (s : State) (w : Warp) (va : Nat) : Option Piece :=
  match findLeaf s x (tlbCore (widCoreNo w.wid)) va false with
  | .leaf e level _ =>
    let k := leafKey s e level va
    if e.testBit 62 && s.reachable k && (keySpace k ≠ 0 || s.hbmReady k) then some (leafPiece e level va (k * 8) 64 0) else none
  | _ => none

/-- The condition of a parked TWAIT or SQWAIT (R193): a word in error never meets it (R269), and a store that is released for the warp
comes before the read (R278). -/
def waitHolds (s : State) (x : Context) (w : Warp) (k : Park) : Bool :=
  match k with
  | .twait _ va m _ _ _ =>
    (match x.waitWord s w va with
    | some p => !s.bad (p.pos / 8) 8 && BitVec.ofNat 64 (readBytes s.mem (p.pos / 8) 8) &&& m = m &&
        !(s.flying x).any (fun b => b.shields w.uid (widCoreNo w.wid) s.nextId false [p])
    | none => false)
  | .sqwait _ cl ch t _ _ _ => (match x.chan? cl ch with | some c => reached c.done t | none => false)
  | _ => false

/-- What a test of a TWAIT's word leaves behind (R262, R264, R274). -/
def State.testWord (s : State) (x : Context) (w : Warp) (va : Nat) : State :=
  match x.waitWord s w va with
  | none => s
  | some p =>
    ((touchLeaf s x (tlbCore (widCoreNo w.wid)) va false).countMiss x.id (widCoreNo w.wid) [p]).keepLines x (widCoreNo w.wid) true [p]

/-- What the last test of a TWAIT's word leaves behind: with it the record of an error in the word, or in a page-table entry on the way
to it (R349; log entry 97). -/
def State.sawWord (s : State) (x : Context) (w : Warp) (va : Nat) : State :=
  let bad : List Nat :=
    match x.waitWord s w va, findLeaf s x (tlbCore (widCoreNo w.wid)) va false with
    | some p, _ => s.badGranules (p.pos / 8) 8
    | none, .poisoned a => [keyHbm a]
    | none, _ => []
  (s.recordKeys 0x02 bad).testWord x w va

/-- What a test of a parked wait whose condition does not hold leaves behind. -/
def State.testPark (s : State) (x : Context) (w : Warp) (k : Park) : State :=
  match k with
  | .twait _ va _ _ _ _ => s.testWord x w va
  | _ => s

/-- Ends the park of a TWAIT or SQWAIT with its predicate, and the acquire where the condition holds (R193). -/
def endWait (s : State) (x : Context) (w : Warp) (met : Bool) : State :=
  let go (s : State) (d : BitVec 8) (scope : Nat) (act : Mask) : State :=
    let w := { w.setPred d.toNat act (if met then BitVec.allOnes 32 else 0) with park := none }
    if met then s.acquireWith (x.setWarp w) (widCoreNo w.wid) scope else s.setCtx (x.setWarp w)
  match w.park with
  | some (.twait d va _ scope _ act) => go (s.sawWord x w va) d scope act
  | some (.sqwait d _ _ _ scope _ act) => go s d scope act
  | _ => s

/-- WAIT_CONDITION_MET (R193). -/
def execWaitConditionMet (c u : Nat) (s : State) : Host.Outcome State Fault Refusal :=
  .next (match s.ctx? c with
  | none => s
  | some x =>
    match x.warp? u with
    | none => s
    | some w =>
      match w.park with
      | some k =>
        if !x.runs w then s
        else if waitHolds s x w k && x.acquireReady u s.nextId then endWait s x w true else s.testPark x w k
      | none => s)

/-- The cycles left of a timed park. -/
def Park.left? : Park → Option Nat
  | .nap n => some n
  | .twait _ _ _ _ n _ => some n
  | .sqwait _ _ _ _ _ n _ => some n
  | _ => none

/-- WAIT_EXPIRE (R193): the condition wins in the same cycle, and its acquire waits for what is still to return. -/
def execWaitExpire (c u : Nat) (s : State) : Host.Outcome State Fault Refusal :=
  .next (match s.ctx? c with
  | none => s
  | some x =>
    match x.warp? u with
    | none => s
    | some w =>
      match w.park with
      | some k =>
        let met := waitHolds s x w k
        if x.runs w && k.left? = some 0 && (!met || x.acquireReady u s.nextId) then endWait s x w met else s
      | none => s)

/-- The key of a scratchpad line of the block by byte offset, divided by 128. -/
def Env.lineOf (env : Env) (off : Nat) : Nat := keySram env.ctx.id env.core (env.spBase + off) / 128

/-- PRESQ (R194). -/
def execPresq (r : MF) (s : State) : Host.Outcome State Fault Refusal :=
  issue (.presq r) .plain s (fun env =>
    let ea (t : Nat) := env.ea r (mfAm r) 1 t
    match env.trapLanes .spRange (fun t => (ea t).toInt < 0 || (env.spSize : Int) ≤ (ea t).toInt) ea with
    | some x => x
    | none => .done (env.setP r.d (fun t => !env.ctx.absent.contains (env.lineOf (ea t).toNat))))

/-- SINV in either form (R194). -/
def Env.sinv (env : Env) (r : MF) (set : Bool) : Res :=
  let ea := wordInt ((env.s r.a).toNat + mfOff r)
  let n := (env.s r.b).toNat
  if ea.toNat % 128 ≠ 0 then env.trapE .memAlign ea
  else if n = 0 then .done env
  else if ea.toInt < 0 || (env.spSize : Int) < ea.toInt + 128 * n then env.trapE .spRange ea
  else
    let ls := (List.range n).map (fun k => env.lineOf (ea.toNat + 128 * k))
    .done { env with ctx := if set then env.ctx.setLines ls else env.ctx.clearLines ls }

/-- SINV (R194). -/
def execSinv (r : MF) (s : State) : Host.Outcome State Fault Refusal :=
  issue (.sinv r) .plain s (fun env => env.sinv r false)

/-- SINV.set (R194). -/
def execSinvSet (r : MF) (s : State) : Host.Outcome State Fault Refusal :=
  issue (.sinvSet r) .plain s (fun env => env.sinv r true)

/-! ### Stage queues -/

/-- The queue of a stage on a die (R299). -/
def Context.queue (x : Context) (q die stage : Nat) : List (Word × Word) :=
  match x.queues.find? (fun k => k.q = q && k.die = die && k.stage = stage) with
  | some k => k.items
  | none => []
/-- Replaces the items of the queue of a stage, into which n more have been put. -/
def Context.setQueue (x : Context) (q die stage n : Nat) (items : List (Word × Word)) : Context :=
  let mine (k : StageQueue) : Bool := k.q = q && k.die = die && k.stage = stage
  let old := match x.queues.find? mine with | some k => k.pushed | none => 0
  { x with queues := x.queues.filter (fun k => !mine k) ++ [{ q := q, die := die, stage := stage, pushed := old + n, items := items }] }
/-- The stages of a launch (R291). -/
def Launch.stages (l : Launch) : Nat := l.rcd.nstg
/-- Items that the queue of stage k holds: 2^DEPTH (R291). -/
def Launch.depth (l : Launch) (k : Nat) : Nat := 2 ^ (l.rcd.stages.getD k (0, 0)).1
/-- The stage that a block feeds, when it feeds one (R195, R299). -/
def Launch.feeds (l : Launch) (b : Block) : Option Nat :=
  let k := match b.kind with
    | .grid => some 1
    | .stage k _ => some (k + 1)
    | .message _ => none
  k.bind (fun k => if k < l.stages then some k else none)

/-- The first byte of the queue of a stage of a launch in the vault of a die's origin cluster (R299): the highest bytes, below those
of an unexpected queue and of the launches accepted before it, stage 1 topmost. -/
def Context.queueBase (x : Context) (q stage : Nat) : Nat :=
  let before := (x.launches.takeWhile (fun l => l.q ≠ q)).foldl (fun n l => n + l.rcd.queueBytes) (if x.p.uqVault then x.p.uqBytes else 0)
  let mine := match x.launch? q with
    | some l => (List.range stage).foldl (fun n k => n + 16 * l.depth (k + 1)) 0
    | none => 0
  x.p.vaultw * 2 ^ 18 - before - mine

/-- Writes items into their places in the vault, the place of item n being n modulo the queue's size (R299; log entry 65). -/
def State.putItems (s : State) (x : Context) (q die stage depth : Nat) : Nat → List (Word × Word) → State
  | _, [] => s
  | n, i :: r =>
    let k := keyVault x.id (die * 64 + 8 * x.p.y0 + x.p.x0) (x.queueBase q stage + 16 * (n % depth))
    ({ s with mem := writeBytes s.mem k 16 (i.1.toNat + i.2.toNat * 2 ^ 64) }).putItems x q die stage depth (n + 1) r

/-- The items put into the queue of a stage so far. -/
def Context.pushedTo (x : Context) (q die stage : Nat) : Nat :=
  match x.queues.find? (fun k => k.q = q && k.die = die && k.stage = stage) with
  | some k => k.pushed
  | none => 0

/-- QPUSH (R195): one item for each thread of P in ascending order, once the queue has room for all, after a release. -/
def execQpush (r : RRR) (s : State) : Host.Outcome State Fault Refusal :=
  issue (.qpush r) .resets s (fun env =>
    let die := widDie env.w.wid
    let dest := (env.ctx.launch? env.w.q).bind (fun l => env.blk.bind (fun b => (l.feeds b).map (fun k => (l, k))))
    match dest with
    | none => env.trapE .queueNone 0
    | some (l, k) =>
      let q := env.ctx.queue env.w.q die k
      if l.depth k < q.length + env.p.count then .hold (.retryQueue env.p.count)
      else match env.releaseAt 4 with
      | none => .hold (.retrySources [])
      | some e =>
        let items := env.p.lanes.map (fun t => (env.v r.a t, if r.x = 1 then env.w.readV (r.a.toNat + 1) t else 0))
        .done { e with ctx := e.ctx.setQueue env.w.q die k items.length (q ++ items)
                       dev := e.dev.putItems e.ctx env.w.q die k (l.depth k) (e.ctx.pushedTo env.w.q die k) items })

end Sys2Proof.Machine
end

