-- ==== Sys2Proof/Machine/Approx.lean ====
section
/-! DEFINITION. FRCP, FRSQ, FEXP2 and FLOG2: the tables and steps of R153, bit for bit. -/

namespace Sys2Proof.Machine

/-- The exact product of two rationals. -/
def Rat'.mul (a b : Rat') : Rat' := ⟨a.num * b.num, a.den * b.den⟩
/-- The exact negation. -/
def Rat'.neg (a : Rat') : Rat' := ⟨-a.num, a.den⟩
/-- The exact difference. -/
def Rat'.sub (a b : Rat') : Rat' := a.add b.neg
/-- The largest integer at most a. -/
def Rat'.floor (a : Rat') : Int := a.num / (a.den : Int)
/-- A rational with denominator 2^k. -/
def Rat'.scaled (n : Int) (k : Nat) : Rat' := ⟨n, 2 ^ k⟩

/-- Trunc60(y): y rounded toward zero to a multiple of 2^−60 (R153). -/
def trunc60 (y : Rat') : Rat' :=
  ⟨(if y.num < 0 then -(((y.num.natAbs * 2 ^ 60) / y.den : Nat) : Int) else ((y.num.natAbs * 2 ^ 60) / y.den : Nat)), 2 ^ 60⟩

/-- The value of a rational with a carried sign. -/
def Rat'.toVal (y : Rat') : Val := .fin (y.num < 0) ⟨y.num.natAbs, y.den, false⟩

/-- TR[j] of FRCP. -/
def tableTR (j : Nat) : Nat := (2 * 2 ^ 24 * 2048 / (2048 + 2 * j + 1) + 1) / 2
/-- TS[j] of FRSQ. -/
def tableTS (j : Nat) : Nat := (natSqrt (4 * 2 ^ 48 * 1024 / (1024 + 2 * j + 1)) + 1) / 2

/-- floor of the 2^k-th root. -/
def natRoot (n : Nat) : Nat → Nat
  | 0 => n
  | k + 1 => natRoot (natSqrt n) k

/-- TE[j] of FEXP2, in units of 2^−60: the nested floors of square roots are the floor of the 1024th root. -/
def tableTE (j : Nat) : Nat := (natRoot (2 ^ (61 * 1024 + j)) 10 + 1) / 2

/-- TA[j] of FLOG2, in units of 2^−24. -/
def tableTA (j : Nat) : Nat := (2 * 2 ^ 24 * 2048 / (2048 + 2 * j + 1) + 1) / 2

/-- Binary digits of log2 of x / 2^160, for 1 ≤ x / 2^160 < 2, most significant first, by repeated squaring. -/
def log2Digits : Nat → Nat → Nat → Nat
  | 0, _, acc => acc
  | k + 1, x, acc =>
    let y := x * x / 2 ^ 160
    if 2 ^ 161 ≤ y then log2Digits k (y / 2) (2 * acc + 1) else log2Digits k y (2 * acc)

/-- TB[j] of FLOG2, in units of 2^−60: −log2(TA[j]). TA[j] lies above 1/2 and below 1, so the value is 1 less the
logarithm of 2·TA[j], taken to 80 binary digits before the last rounding. -/
def tableTB (j : Nat) : Nat :=
  let frac := log2Digits 80 (2 * tableTA j * 2 ^ 136) 0
  (2 * (2 ^ 80 - frac) + 2 ^ 20) / 2 ^ 21

/-- c1 = ln 2, in units of 2^−60. -/
def constC1 : Int := 799144290325165979
/-- c2 = (ln 2)²/2, in units of 2^−60. -/
def constC2 : Int := 276962305849733589
/-- c3 = (ln 2)³/6, in units of 2^−60. -/
def constC3 : Int := 63991880473708028
/-- d1 = 1/ln 2, in units of 2^−60. -/
def constD1 : Int := 1663314137230540311
/-- d2, in units of 2^−60. -/
def constD2 : Int := -831657068615270156
/-- d3, in units of 2^−60. -/
def constD3 : Int := 554438045743513437
/-- d4, in units of 2^−60. -/
def constD4 : Int := -415828534307635078

/-- The magnitude of a finite operand as 2^e × m with 1 ≤ m < 2. -/
def splitBinade (m : Mag) : Int × Rat' :=
  let e := m.log2
  (e, if 0 ≤ e then ⟨m.num, m.den * 2 ^ e.toNat⟩ else ⟨(m.num * 2 ^ (-e).toNat : Nat), m.den⟩)

/-- FRCP of an operand (R68, R153). -/
def Val.rcp (a : Val) : Val :=
  match a with
  | .nan => .nan
  | .inf s => .zero s
  | .fin s mag =>
    if mag.num = 0 then .inf s
    else
      let (e, m) := splitBinade mag
      let j := ((m.sub ⟨1, 1⟩).mul ⟨1024, 1⟩).floor.toNat
      let y0 := Rat'.scaled (tableTR j) 24
      let ε := (Rat'.mk 1 1).sub (m.mul y0)
      let y := trunc60 (y0.mul ((Rat'.add ⟨1, 1⟩ ε).add (ε.mul ε)))
      (y.toVal.scale2 (-e)).flip s

/-- FRSQ of an operand (R68, R153). -/
def Val.rsq (a : Val) : Val :=
  match a with
  | .nan => .nan
  | .inf s => if s then .nan else .zero false
  | .fin s mag =>
    if mag.num = 0 then .inf s
    else if s then .nan
    else
      let (e, m) := splitBinade mag
      let odd := e % 2 = 1
      let u := if odd then m.mul ⟨2, 1⟩ else m
      let k := if odd then (e - 1) / 2 else e / 2
      let j := ((u.sub ⟨1, 1⟩).mul ⟨512, 1⟩).floor.toNat
      let y0 := Rat'.scaled (tableTS j) 24
      let ε := (Rat'.mk 1 1).sub (u.mul (y0.mul y0))
      let y := trunc60 (y0.mul ((Rat'.add ⟨1, 1⟩ (ε.mul ⟨1, 2⟩)).add ((ε.mul ε).mul ⟨3, 8⟩)))
      y.toVal.scale2 (-k)

/-- FEXP2 of an operand (R68, R153). -/
def Val.exp2 (a : Val) : Val :=
  match a with
  | .nan => .nan
  | .inf s => if s then .zero false else .inf false
  | .fin _ _ =>
    let r := a.toRat
    let n := r.floor
    let g := r.sub ⟨n, 1⟩
    let j := (g.mul ⟨1024, 1⟩).floor.toNat
    let h := g.sub ⟨j, 1024⟩
    let p := (Rat'.add ⟨1, 1⟩ ((Rat'.scaled constC1 60).mul h)).add
      (((Rat'.scaled constC2 60).mul (h.mul h)).add ((Rat'.scaled constC3 60).mul (h.mul (h.mul h))))
    (trunc60 ((Rat'.scaled (tableTE j) 60).mul p)).toVal.scale2 n

/-- FLOG2 of an operand (R68, R153). -/
def Val.log2v (a : Val) : Val :=
  match a with
  | .nan => .nan
  | .inf s => if s then .nan else .inf false
  | .fin s mag =>
    if mag.num = 0 then .inf true
    else if s then .nan
    else if mag.num = mag.den then .zero false
    else
      let (e, m) := splitBinade mag
      let j := ((m.sub ⟨1, 1⟩).mul ⟨1024, 1⟩).floor.toNat
      let h := (m.mul (Rat'.scaled (tableTA j) 24)).sub ⟨1, 1⟩
      let h2 := h.mul h
      let sum := (((Rat'.mk e 1).add (Rat'.scaled (tableTB j) 60)).add ((Rat'.scaled constD1 60).mul h)).add
        ((((Rat'.scaled constD2 60).mul h2).add ((Rat'.scaled constD3 60).mul (h2.mul h))).add
          ((Rat'.scaled constD4 60).mul (h2.mul h2)))
      (trunc60 sum).toVal.withSign (sum.num < 0)

end Sys2Proof.Machine
end

