-- ==== Sys2Proof/Machine/Float.lean ====
section
/-! DEFINITION. The format-slot instructions (R146 to R156). -/

namespace Sys2Proof.Machine

/-- The RM field of the format-slot instructions, X[5:3] (R146). -/
def rmField (x : Nat) : Nat := x / 8 % 8

/-- An instruction of R147 over A and B. -/
def fpBinary (i : Instr) (r : RRR) (s : State) (op : Rm → Val → Val → Val) : Host.Outcome State Fault Refusal :=
  issue i .plain s (fun env =>
    let f := env.w.slot r.f.toNat
    let c := rmField r.x.toNat
    env.slotMap c r.d r.a f (fun t k => op (rmOf c f) (f.val' (env.v r.a t) k) (f.val' (env.v r.b t) k)))

/-- An instruction of R147 or R153 over A. -/
def fpUnary (i : Instr) (r : RRR) (s : State) (op : Val → Val) : Host.Outcome State Fault Refusal :=
  issue i .plain s (fun env =>
    let f := env.w.slot r.f.toNat
    env.slotMap (rmField r.x.toNat) r.d r.a f (fun t k => op (f.val' (env.v r.a t) k)))

/-- The exact product and addend of FFMA under its two negations (R73, R147): NaN for 0 × ∞ whatever the addend. -/
def fmaVal (np nc : Bool) (rm : Rm) (a b c : Val) : Val :=
  if Val.mulInvalid a b then .nan else Val.sum [(Val.mul a b).flip np, c.flip nc] rm

/-- FADD (R147). -/
def execFadd (r : RRR) (s : State) : Host.Outcome State Fault Refusal :=
  fpBinary (.fadd r) r s (fun rm a b => Val.sum [a, b] rm)
/-- FSUB (R147). -/
def execFsub (r : RRR) (s : State) : Host.Outcome State Fault Refusal :=
  fpBinary (.fsub r) r s (fun rm a b => Val.sum [a, b.flip true] rm)
/-- FMUL (R147). -/
def execFmul (r : RRR) (s : State) : Host.Outcome State Fault Refusal :=
  fpBinary (.fmul r) r s (fun _ a b => Val.mul a b)
/-- FDIV (R147). -/
def execFdiv (r : RRR) (s : State) : Host.Outcome State Fault Refusal :=
  fpBinary (.fdiv r) r s (fun _ a b => Val.div a b)
/-- FFMA (R73, R147). -/
def execFfma (r : RRR) (s : State) : Host.Outcome State Fault Refusal :=
  issue (.ffma r) .plain s (fun env =>
    let f := env.w.slot r.f.toNat
    let c := rmField r.x.toNat
    env.slotMap c r.d r.a f (fun t k =>
      fmaVal (r.x.getLsbD 1) (r.x.getLsbD 0) (rmOf c f) (f.val' (env.v r.a t) k) (f.val' (env.v r.b t) k)
        (f.val' (env.v r.c t) k)))

/-- FMIN and FMAX of one element (R148): never a trap, no draw. -/
def minmaxCode (f : Fmt) (op : Val → Val → Val) (a b : Nat) : Nat :=
  let x := f.decode a
  let y := f.decode b
  if x.isNan && y.isNan then f.nanCode else (f.encode (op x y) .rne false 0).getD 0

/-- FMIN and FMAX (R148). -/
def fpMinmax (i : Instr) (r : RRR) (s : State) (op : Val → Val → Val) : Host.Outcome State Fault Refusal :=
  issueDone i .plain s (fun env =>
    let f := env.w.slot r.f.toNat
    env.setV r.d (fun t => packElems f.width ((List.range f.elems).map (fun k =>
      minmaxCode f op (f.code (env.v r.a t) k) (f.code (env.v r.b t) k)))))

/-- FMIN (R148). -/
def execFmin (r : RRR) (s : State) : Host.Outcome State Fault Refusal := fpMinmax (.fmin r) r s Val.min
/-- FMAX (R148). -/
def execFmax (r : RRR) (s : State) : Host.Outcome State Fault Refusal := fpMinmax (.fmax r) r s Val.max

/-- One element of FABSN (R149): the code itself for a NaN, otherwise Encode under RNE. -/
def fabsnElem (x : Nat) (f : Fmt) (a b : Nat) (_u : Nat) : Option Nat :=
  let v := f.decode a
  if v.isNan then some a
  else
    let y := match x with
      | 0 => v.withSign false
      | 1 => v.flip true
      | _ => v.withSign (f.signBit b)
    f.encode y .rne (f.signBit a) 0

/-- FABSN (R149). -/
def execFabsn (r : RRR) (s : State) : Host.Outcome State Fault Refusal :=
  issue (.fabsn r) .plain s (fun env =>
    let f := env.w.slot r.f.toNat
    env.encodeLanes .rne r.d 0
      (fun t => (List.range f.elems).map (fun k => fabsnElem r.x.toNat f (f.code (env.v r.a t) k) (f.code (env.v r.b t) k)))
      (fun _ cs => packElems f.width cs))

/-- FCMP (R150): X[7:6] = 0 writes a mask per element, the other forms a predicate. -/
def execFcmp (r : RRR) (s : State) : Host.Outcome State Fault Refusal :=
  issueDone (.fcmp r) .plain s (fun env =>
    let f := env.w.slot r.f.toNat
    let test (t k : Nat) : Bool := fcmpCc (r.x.toNat % 8) (f.val' (env.v r.a t) k) (f.val' (env.v r.b t) k)
    let form := r.x.toNat / 64 % 4
    if form = 0 then
      env.setV r.d (fun t => packElems f.width ((List.range f.elems).map (fun k =>
        if test t k then 2 ^ f.width - 1 else 0)))
    else env.setP r.d (fun t => overElems (form - 1) f.elems (test t)))

/-- FCLASS (R151). -/
def execFclass (r : RRR) (s : State) : Host.Outcome State Fault Refusal :=
  issueDone (.fclass r) .plain s (fun env =>
    let f := env.w.slot r.f.toNat
    env.setV r.d (fun t => packElems f.width ((List.range f.elems).map (fun k =>
      if r.x.getLsbD (f.classBit (f.code (env.v r.a t) k)) then 2 ^ f.width - 1 else 0))))

/-- FSQRT (R147). -/
def execFsqrt (r : RRR) (s : State) : Host.Outcome State Fault Refusal := fpUnary (.fsqrt r) r s Val.sqrt
/-- FRCP (R153). -/
def execFrcp (r : RRR) (s : State) : Host.Outcome State Fault Refusal := fpUnary (.frcp r) r s Val.rcp
/-- FRSQ (R153). -/
def execFrsq (r : RRR) (s : State) : Host.Outcome State Fault Refusal := fpUnary (.frsq r) r s Val.rsq
/-- FEXP2 (R153). -/
def execFexp2 (r : RRR) (s : State) : Host.Outcome State Fault Refusal := fpUnary (.fexp2 r) r s Val.exp2
/-- FLOG2 (R153). -/
def execFlog2 (r : RRR) (s : State) : Host.Outcome State Fault Refusal := fpUnary (.flog2 r) r s Val.log2v

/-- An exact sum of a thread, rounded once into element 0 (R74, R152). The sign for a zero result is that of element 0 of A (R64; log
entry 66). -/
def fpThreadSum (i : Instr) (r : RRR) (s : State) (terms : Env → Fmt → Nat → List Val) :
    Host.Outcome State Fault Refusal :=
  issue i .plain s (fun env =>
    let f := env.w.slot r.f.toNat
    let rm := rmOf (rmField r.x.toNat) f
    env.encodeLanes rm r.d 0
      (fun t => [fun u => f.encode (Val.sum (terms env f t) rm) rm (f.sign (env.v r.a t) 0) u])
      (fun _ cs => packElems f.width cs))

/-- FSUM (R152). -/
def execFsum (r : RRR) (s : State) : Host.Outcome State Fault Refusal :=
  fpThreadSum (.fsum r) r s (fun env f t =>
    (List.range f.elems).map (f.val' (env.v r.a t)) ++ (if r.x.getLsbD 0 then [f.val' (env.v r.b t) 0] else []))
/-- FDOT (R152). -/
def execFdot (r : RRR) (s : State) : Host.Outcome State Fault Refusal :=
  fpThreadSum (.fdot r) r s (fun env f t =>
    (List.range f.elems).map (fun k => Val.mul (f.val' (env.v r.a t) k) (f.val' (env.v r.b t) k)) ++
      (if r.x.getLsbD 0 then [f.val' (env.v r.c t) 0] else []))

/-- The checks of an instruction with a slot immediate (R92, R97). -/
def Opts.slotImm : Opts := { Opts.plain with imm := true }

/-- FADDI (R92, R147). -/
def execFaddi (r : RI) (s : State) : Host.Outcome State Fault Refusal :=
  issue (.faddi r) .slotImm s (fun env =>
    let f := env.w.slot r.f.toNat
    let c := rmField r.x.toNat
    env.slotMap c r.d r.a f (fun t k =>
      Val.sum [f.val' (env.v r.a t) k, f.decode (immCode f r.imm.toNat k)] (rmOf c f)))
/-- FMULI (R92, R147). -/
def execFmuli (r : RI) (s : State) : Host.Outcome State Fault Refusal :=
  issue (.fmuli r) .slotImm s (fun env =>
    let f := env.w.slot r.f.toNat
    env.slotMap (rmField r.x.toNat) r.d r.a f (fun t k =>
      Val.mul (f.val' (env.v r.a t) k) (f.decode (immCode f r.imm.toNat k))))
/-- FFMAI (R92, R147): D is the addend. -/
def execFfmai (r : RI) (s : State) : Host.Outcome State Fault Refusal :=
  issue (.ffmai r) .slotImm s (fun env =>
    let f := env.w.slot r.f.toNat
    let c := rmField r.x.toNat
    env.slotMap c r.d r.a f (fun t k =>
      fmaVal (r.x.getLsbD 1) (r.x.getLsbD 0) (rmOf c f) (f.val' (env.v r.a t) k)
        (f.decode (immCode f r.imm.toNat k)) (f.val' (env.v r.d t) k)))

/-- A conversion run (R155): ILLEGAL_OPERAND where a start is at or beyond its count, else the run from source element sa
into destination element da of width w and count nd. The element index that FMT_INVALID reports is that of the destination; the spec
does not say which of the two it is (the model's choice, log entry 83). -/
def Env.convert (env : Env) (rm : Rm) (d : BitVec 8) (ns sa w nd da : Nat) (elem : Nat → Nat → Nat → Option Nat) : Res :=
  if ns ≤ sa || nd ≤ da then env.trapE .illegalOperand env.word
  else
    let k := min (ns - sa) (nd - da)
    env.encodeLanes rm d da (fun t => (List.range k).map (fun j => elem t (sa + j)))
      (fun t cs => mergeRun w nd (env.v d t) da cs)

/-- The destination slot of FCVT and FBSCL, X[8:5] (R95, R155). -/
def cvtSlot (x : Nat) : Nat := x / 32

/-- The start-index check of a conversion ahead of a poisoned source (R157): it reads no register. -/
def Opts.starts (o : Opts) (ns nd : Env → Nat) (sa da : Nat) : Opts :=
  { o with early := fun env => if ns env ≤ sa || nd env ≤ da then some (env.trapE .illegalOperand env.word) else none }

/-- The slots of FCVT and FBSCL (R57, R155). Where both break a rule of R57, F is reported: the spec gives no order (the model's
choice, log entry 83). -/
def Opts.convert (x : Nat) (u : SlotUse) : Opts :=
  { Opts.plain with slots := fun env => [(env.fSlot, u), (cvtSlot x, .scalar)] }

/-- FCVT's checks (R155, R157). -/
def fcvtOpts (r : RRR) : Opts :=
  (Opts.convert r.x.toNat .scalar).starts (fun env => (env.w.slot r.f.toNat).elems) (fun env => (env.w.slot (cvtSlot r.x.toNat)).elems)
    r.b.toNat r.c.toNat
/-- FBSCL's checks (R155, R157). -/
def fbsclOpts (r : RRR) : Opts :=
  (Opts.convert r.x.toNat .block).starts (fun env => (env.w.slot r.f.toNat).elems) (fun env => (env.w.slot (cvtSlot r.x.toNat)).elems)
    r.c.toNat 0
/-- FTOI's checks (R155, R157). -/
def ftoiOpts (r : RRR) : Opts :=
  Opts.plain.starts (fun env => (env.w.slot r.f.toNat).elems) (fun _ => 64 / ewOf (r.x.toNat % 8)) r.b.toNat r.c.toNat
/-- ITOF's checks (R155, R157). -/
def itofOpts (r : RRR) : Opts :=
  Opts.plain.starts (fun _ => 64 / ewOf (r.x.toNat % 8)) (fun env => (env.w.slot r.f.toNat).elems) r.b.toNat r.c.toNat

/-- FCVT (R72, R155). -/
def execFcvt (r : RRR) (s : State) : Host.Outcome State Fault Refusal :=
  issue (.fcvt r) (fcvtOpts r) s (fun env =>
    let fs := env.w.slot r.f.toNat
    let fd := env.w.slot (cvtSlot r.x.toNat)
    let rm := rmOf (r.x.toNat / 4 % 8) fd
    env.convert rm r.d fs.elems r.b.toNat fd.width fd.elems r.c.toNat (fun t k u =>
      fd.encode (fs.val' (env.v r.a t) k) rm (fs.sign (env.v r.a t) k) u))
/-- FBSCL (R71, R155): a block-scaled source slot, a scalar destination slot, destination element 0 on. -/
def execFbscl (r : RRR) (s : State) : Host.Outcome State Fault Refusal :=
  issue (.fbscl r) (fbsclOpts r) s (fun env =>
    let fs := env.w.slot r.f.toNat
    let fd := env.w.slot (cvtSlot r.x.toNat)
    let rm := rmOf (r.x.toNat / 4 % 8) fd
    env.convert rm r.d fs.elems r.c.toNat fd.width fd.elems 0 (fun t k u =>
      fd.encode (fs.blockValue (env.v r.b t) (fs.code (env.v r.a t) k)) rm (fs.sign (env.v r.a t) k) u))

/-- A rounded value as a clamped integer of a type (R155): NaN gives 0, ±∞ the end of the range. -/
def valToInt (ty : Nat) (v : Val) (rm : Rm) (u : Nat) : Int :=
  match v with
  | .nan => 0
  | .inf s => clampTy ty (if s then -2 ^ 64 else 2 ^ 64)
  | .fin s m =>
    let k : Int := (m.round s 0 rm u : Nat)
    clampTy ty (if s then -k else k)

/-- FTOI (R155). -/
def execFtoi (r : RRR) (s : State) : Host.Outcome State Fault Refusal :=
  issue (.ftoi r) (ftoiOpts r) s (fun env =>
    let f := env.w.slot r.f.toNat
    let ty := r.x.toNat % 8
    let rm := rmOf (rmField r.x.toNat) f
    env.convert rm r.d f.elems r.b.toNat (ewOf ty) (64 / ewOf ty) r.c.toNat (fun t k u =>
      some (wrapNat (ewOf ty) (valToInt ty (f.val' (env.v r.a t) k) rm u))))
/-- ITOF (R155). -/
def execItof (r : RRR) (s : State) : Host.Outcome State Fault Refusal :=
  issue (.itof r) (itofOpts r) s (fun env =>
    let f := env.w.slot r.f.toNat
    let ty := r.x.toNat % 8
    let rm := rmOf (rmField r.x.toNat) f
    env.convert rm r.d (64 / ewOf ty) r.b.toNat f.width f.elems r.c.toNat (fun t k u =>
      let n := elemInt ty (env.v r.a t) k
      f.encode (Val.ofInt n) rm (elemOf (ewOf ty) (env.v r.a t) k ≥ 2 ^ (ewOf ty - 1)) u))

/-- Element i of FPACK's destination (R156); an index of n or above reads as zero. -/
def fpackElem (form n : Nat) (a b : Nat → Nat) (i : Nat) : Nat :=
  let a' (j : Nat) := if j < n then a j else 0
  let b' (j : Nat) := if j < n then b j else 0
  let seq (j : Nat) := if j < n then a' j else b' (j - n)
  let h := (n + 1) / 2
  match form with
  | 0 => seq (2 * i)
  | 1 => seq (2 * i + 1)
  | 2 => if i % 2 = 0 then a' (i / 2) else b' ((i - 1) / 2)
  | _ => if i % 2 = 0 then a' (h + i / 2) else b' (h + (i - 1) / 2)

/-- FPACK (R156). -/
def execFpack (r : RRR) (s : State) : Host.Outcome State Fault Refusal :=
  issueDone (.fpack r) .plain s (fun env =>
    let f := env.w.slot r.f.toNat
    env.setV r.d (fun t => packElems f.width ((List.range f.elems).map
      (fpackElem r.x.toNat f.elems (f.code (env.v r.a t)) (f.code (env.v r.b t))))))

/-- FRND (R147): rounded to an integer under rm, which draws under RSTO, then encoded under RNE. -/
def execFrnd (r : RRR) (s : State) : Host.Outcome State Fault Refusal :=
  issue (.frnd r) .plain s (fun env =>
    let f := env.w.slot r.f.toNat
    let rm := rmOf (rmField r.x.toNat) f
    env.encodeLanes rm r.d 0
      (fun t => (List.range f.elems).map (fun k u =>
        f.encode ((f.val' (env.v r.a t) k).roundInt rm u) .rne (f.sign (env.v r.a t) k) u))
      (fun _ cs => packElems f.width cs))
/-- FSCALE (R147): n is B[31:0] of the thread, signed, for every element. -/
def execFscale (r : RRR) (s : State) : Host.Outcome State Fault Refusal :=
  issue (.fscale r) .plain s (fun env =>
    let f := env.w.slot r.f.toNat
    env.slotMap (rmField r.x.toNat) r.d r.a f (fun t k =>
      (f.val' (env.v r.a t) k).scale2 (signedOf 32 ((env.v r.b t).toNat % 2 ^ 32))))

end Sys2Proof.Machine
end

