-- ==== Sys2Proof/Machine/Matrix.lean ====
section
/-! DEFINITION. Accumulator handles and the matrix engine: opcodes 0xB0 to 0xB7 and their events (R75, R199 to R209). -/

namespace Sys2Proof.Machine

/-! ### Tiles -/

/-- WIDE (R199). -/
def wideAf (af : Word) : Bool := 32 < (Fmt.ofWord af).width
/-- Slots for each 64×64 sub-tile (R199). -/
def Tile.per (t : Tile) : Nat := if wideAf t.af then 2 else 1
/-- M. -/
def Tile.m (t : Tile) : Nat := t.mt * 64
/-- N. -/
def Tile.n (t : Tile) : Nat := t.nt * 64

/-- Where element (i, c) is kept: its engine's slot of its sub-tile, and its place there (R199, R203). -/
def Tile.key (t : Tile) (i c : Nat) : Nat :=
  let half (n : Nat) : Nat := if t.co then n / 2 else n
  let dy := if t.co then i / (t.m / 2) else 0
  let dx := if t.co then c / (t.n / 2) else 0
  let i := if t.co then i % (t.m / 2) else i
  let c := if t.co then c % (t.n / 2) else c
  let e := t.engines.getD (dx + 2 * dy) 0
  let mine := t.slots.filter (fun q => q.1 = e)
  let sub := (i / 64) * half t.nt + c / 64
  let slot := (mine.getD (sub * t.per) (0, 0)).2
  (e * 64 + slot) * 4096 + (i % 64) * 64 + c % 64

/-- The code of an element of a tile; +0 under ZERO (R199). -/
def Context.accCode (x : Context) (t : Tile) (zero : Bool) (i c : Nat) : Nat :=
  if zero then 0 else (smGet 0 x.accMem (t.key i c)).toNat
/-- Writes the codes of a tile. -/
def Context.setTile (x : Context) (t : Tile) (f : Nat → Nat → Nat) : Context :=
  { x with accMem := (List.range t.m).foldl (fun m i =>
      (List.range t.n).foldl (fun m c => smPut 0 m (t.key i c) (BitVec.ofNat 64 (f i c))) m) x.accMem }

/-- The slots of an engine that are free, lowest first (R22, R200). -/
def Context.freeSlots (x : Context) (e : Nat) : List Nat :=
  (List.range 64).filter (fun k => !(smGet [] x.accTaken e).contains k)
/-- The slots that a tile takes, engine by engine; none when an engine holds fewer than its share (R200). -/
def Context.pickSlots (x : Context) (engines : List Nat) (share : Nat) : Option (List (Nat × Nat)) :=
  if engines.any (fun e => (x.freeSlots e).length < share) then none
  else some (engines.flatMap (fun e => ((x.freeSlots e).take share).map (fun k => (e, k))))
/-- Takes slots, whose contents read as zero until they are written (R200). -/
def Context.takeSlots (x : Context) (ks : List (Nat × Nat)) : Context :=
  { x with
    accTaken := ks.foldl (fun (m : SMap (List Nat)) (q : Nat × Nat) => smPut [] m q.1 (smGet [] m q.1 ++ [q.2])) x.accTaken
    accMem := smDrop x.accMem (fun k => ks.any (fun q => k / 4096 = q.1 * 64 + q.2)) }
/-- Returns slots to their free lists and to their block's quota (R200, R204). -/
def Context.freeTile (x : Context) (blk : Nat) (t : Tile) : Context :=
  let drop (m : SMap (List Nat)) (q : Nat × Nat) : SMap (List Nat) := smPut [] m q.1 ((smGet [] m q.1).filter (fun k => k ≠ q.2))
  let x := { x with accTaken := t.slots.foldl drop x.accTaken }
  match x.block? blk with
  | some b => x.setBlock { b with acc := b.acc - t.slots.length }
  | none => x

/-- An operation is the oldest left on its handle (R199). -/
def Context.headOp (x : Context) (o : EngOp) : Bool :=
  !x.engOps.any (fun p => p.uid = o.uid && p.handle = o.handle && p.id < o.id)
/-- The AREL that ends the handle's life as an operation found it, if one is queued. -/
def Context.nextRel (x : Context) (o : EngOp) : Option EngOp :=
  x.engOps.find? (fun p => p.op = 5 && p.uid = o.uid && p.handle = o.handle && o.id < p.id)
/-- ZERO as an operation finds it. -/
def Context.zeroOf (x : Context) (o : EngOp) : Bool :=
  match x.nextRel o with
  | some p => p.zero
  | none => (match x.warp? o.uid with | some w => (w.acc o.handle).zero | none => false)
/-- Sets ZERO, and ERR from what it was, as an operation leaves them. -/
def Context.setFlags (x : Context) (o : EngOp) (zero : Bool) (err : Bool → Bool) : Context :=
  match x.nextRel o with
  | some p => { x with engOps := x.engOps.map (fun y => if y.id = p.id then { y with zero := zero, err := err y.err } else y) }
  | none =>
    match x.warp? o.uid with
    | some w => x.setWarp (w.markAcc o.handle { w.acc o.handle with zero := zero, err := err (w.acc o.handle).err })
    | none => x
/-- An operation leaves the queue; PEND falls for those that it counts (R199, R204). -/
def Context.endOp (x : Context) (o : EngOp) : Context :=
  let x := { x with engOps := x.engOps.filter (fun p => p.id ≠ o.id) }
  if 4 ≤ o.op then x
  else match x.warp? o.uid with
  | some w => x.setWarp (w.markAcc o.handle { w.acc o.handle with pend := (w.acc o.handle).pend - 1 })
  | none => x

/-- Applies the AZEROs and ARELs that stand at the head of their handles (R199, R204). -/
def Context.flushOps (x : Context) : Nat → Context
  | 0 => x
  | n + 1 =>
    match x.engOps.find? (fun o => 4 ≤ o.op && x.headOp o) with
    | none => x
    | some o =>
      let y := if o.op = 4 then x.setFlags o true (fun _ => false)
        else match o.tile with | some t => x.freeTile o.blk t | none => x
      (y.endOp o).flushOps n
/-- Flushes every such operation. -/
def Context.flush (x : Context) : Context := x.flushOps x.engOps.length

/-! ### Issue -/

/-- An operation on a handle of the issuing warp. -/
def Env.op (env : Env) (handle op : Nat) : EngOp :=
  { id := env.id, uid := env.w.uid, cl := env.cl, blk := env.w.blk, core := env.core, spBase := env.spBase, spSize := env.spSize
    handle := handle, op := op, bt := false, da := 0, db := 0, fa := 0, fb := 0, tile := (env.w.acc handle).tile
    zero := false, err := false, read0 := 0, read1 := 0 }

/-- The number of a handle, as the causes report it. -/
def Env.trapAcc (env : Env) (c : Cause) (a : BitVec 8) : Res := env.trapE c (a.setWidth 64)

/-- The new tile of a handle with its slots taken, or ACC_QUOTA (R200). -/
def Env.newTile (env : Env) (a : BitVec 8) (mt nt : Nat) (engines : List Nat) (af : Word) (afn : Nat) : Res ⊕ Tile × Env :=
  let share := mt * nt * (if wideAf af then 2 else 1) / engines.length
  let quota := match env.ctx.launch? env.w.q with
    | some l => l.rcd.acc
    | none => 0
  match env.blk, env.ctx.pickSlots engines share with
  | some b, some ks =>
    if quota < b.acc + ks.length then .inl (env.trapAcc .accQuota a)
    else
      let t : Tile := { mt := mt, nt := nt, engines := engines, slots := ks, co := engines.length = 4, af := af, afn := afn }
      .inr (t, { env with ctx := (env.ctx.takeSlots ks).setBlock { b with acc := b.acc + ks.length } })
  | _, _ => .inl (env.trapAcc .accQuota a)

/-- Posts an operation: PEND rises, and the handle holds the tile (R199, R202, R205, R206); a new tile and an ALDR write the handle, which
mends an error in it (R269). -/
def Env.postOp (env : Env) (o : EngOp) (t : Tile) : Env :=
  let h := env.w.acc o.handle
  let h' : Acc := { h with tile := some t, pend := h.pend + 1 }
  ({ env with ctx := { env.ctx with engOps := env.ctx.engOps ++ [{ o with tile := some t }] }
              w := if h.tile.isNone || o.op = 2 then env.w.setAcc o.handle h' else env.w.markAcc o.handle h' }).bump

/-- A matrix instruction's operands: its form, descriptors, handle, accumulator slot and rectangle (R201). -/
structure MmaArgs where
  scaled : Bool
  bt : Bool
  co : Bool
  a : BitVec 256
  b : BitVec 256
  d : BitVec 8
  f : Nat
  c : Word

/-- The engines of a co-operative rectangle (R201, R203); none when a cluster lies outside the partition. -/
def Env.rectangle (env : Env) (place : Nat) : Option (List Nat) :=
  match placeUnit env.ctx (widDie env.w.wid) (widCluster env.w.wid) place with
  | none => none
  | some u =>
    let at_ (dx dy : Nat) : Option Nat :=
      let cx := u.2 % 8 + dx
      let cy := u.2 / 8 + dy
      if cx ≤ env.ctx.p.x1 && cy ≤ env.ctx.p.y1 then some (u.1 * 64 + cy * 8 + cx) else none
    match at_ 0 0, at_ 1 0, at_ 0 1, at_ 1 1 with
    | some p, some q, some r, some t => some [p, q, r, t]
    | _, _, _, _ => none

/-- Checks 3 and 4 of R201 in order: the descriptor at fault with its cause. The order of the cases of check 3, which decides what UTVAL
reports, is the model's choice (log entry 104). -/
def MmaArgs.shapeBad (g : MmaArgs) (env : Env) : Option (Cause × BitVec 256) :=
  let a := env.window? g.a 0
  let b := env.window? g.b 0
  let tr := g.bt || g.scaled
  let n := if tr then b.rows else b.cols
  let kb := if tr then b.cols else b.rows
  let chunk := if max a.f.width b.f.width ≤ 4 then 64 else 32
  let unit := if g.co then 128 else 64
  let first (p : Window → Bool) : Option (BitVec 256) := if p a then some g.a else if p b then some g.b else none
  match first (fun w => w.rows = 0 || w.cols = 0) with
  | some d => some (.mmaShape, d)
  | none =>
    if a.cols ≠ kb then some (.mmaShape, g.b)
    else if a.cols % chunk ≠ 0 then some (.mmaShape, g.a)
    else if a.rows % unit ≠ 0 || (if g.co then 512 else 256) < a.rows then some (.mmaShape, g.a)
    else if n % unit ≠ 0 || (if g.co then 640 else 320) < n then some (.mmaShape, g.b)
    else match first (fun w => w.space ≠ 0 && w.space ≠ 2) with
    | some d => some (.mmaShape, d)
    | none =>
      match first (fun w => w.misaligned) with
      | some d => some (.mmaShape, d)
      | none => (first (fun w => w.placeBad env.ctx env.seat)).map (fun d => (.placeRange, d))

/-- The lines of the operand windows of a matrix instruction, whose writes its release performs (R202). -/
def MmaArgs.foot (g : MmaArgs) (env : Env) : List Reg :=
  (regionOf env.ctx env.seat (env.window? g.a 0).regionWord false).toList ++
    (regionOf env.ctx env.seat (env.window? g.b 0).regionWord false).toList

/-- An MMA or MMAS after its checks of R97 (R201, R202): it holds while the release of its operand windows must wait (log entry
16). -/
def Env.mma (env : Env) (g : MmaArgs) : Res :=
  let engines := if g.co then env.rectangle (g.c.toNat % 2 ^ 10) else some [env.cl]
  if g.co && (natBits g.c.toNat 63 10 ≠ 0 || natBits g.c.toNat 9 8 ≠ 0) then env.wordTrap .illegalOperand
  else match engines with
  | none => env.trapE .placeRange g.c
  | some es =>
    match g.shapeBad env with
    | some q => env.trapDesc q.1 q.2
    | none =>
      let a := env.window? g.a 0
      let b := env.window? g.b 0
      let mt := a.rows / 64
      let nt := (if g.bt || g.scaled then b.rows else b.cols) / 64
      let af := smGet 0 env.w.slots g.f
      let go (t : Tile) (env : Env) : Res :=
        match env.releaseIn (g.foot env) with
        | none => .hold (.retrySources [])
        | some env =>
          .done (env.postOp { env.op g.d.toNat (if g.scaled then 1 else 0) with
            bt := g.bt, da := g.a, db := g.b, fa := smGet 0 env.w.slots (dFmt g.a), fb := smGet 0 env.w.slots (dFmt g.b)
            read0 := a.regionWord, read1 := b.regionWord } t)
      match (env.w.acc g.d.toNat).tile with
      | some t =>
        if t.mt ≠ mt || t.nt ≠ nt || t.af ≠ af || t.co ≠ g.co || t.engines ≠ es then env.trapAcc .accShape g.d else go t env
      | none =>
        match env.newTile g.d mt nt es af g.f with
        | .inl r => r
        | .inr q => go q.1 q.2

/-- The slots that a matrix instruction names (R201). -/
def Opts.matrix (r : RRR) (u : SlotUse) : Opts :=
  { Opts.plain with
    whole := true
    slots := fun env => [(r.f.toNat, .scalar), (dFmt (env.w.tdesc r.a.toNat), u), (dFmt (env.w.tdesc r.b.toNat), u)] }

/-- The operands of a matrix instruction. -/
def Env.mmaArgs (env : Env) (r : RRR) (scaled bt co : Bool) : MmaArgs :=
  { scaled := scaled, bt := bt, co := co, a := env.w.tdesc r.a.toNat, b := env.w.tdesc r.b.toNat, d := r.d, f := r.f.toNat
    c := if co then env.s r.c else 0 }

/-- MMA (R202). -/
def execMma (r : RRR) (s : State) : Host.Outcome State Fault Refusal :=
  issue (.mma r) (.matrix r .scalar) s (fun env => env.mma (env.mmaArgs r false (r.x.toNat.testBit 1) false))

/-- MMA.co (R203). -/
def execMmaCo (r : RRR) (s : State) : Host.Outcome State Fault Refusal :=
  issue (.mmaCo r) (.matrix r .scalar) s (fun env => env.mma (env.mmaArgs r false (r.x.toNat.testBit 1) true))

/-- MMAS (R202). -/
def execMmas (r : RRR) (s : State) : Host.Outcome State Fault Refusal :=
  issue (.mmas r) (.matrix r .block) s (fun env => env.mma (env.mmaArgs r true false false))

/-- MMAS.co (R203). -/
def execMmasCo (r : RRR) (s : State) : Host.Outcome State Fault Refusal :=
  issue (.mmasCo r) (.matrix r .block) s (fun env => env.mma (env.mmaArgs r true false true))

/-- AZERO (R204), in the handle's order. -/
def execAzero (r : RRR) (s : State) : Host.Outcome State Fault Refusal :=
  issueDone (.azero r) .plain s (fun env =>
    let h := r.d.toNat
    if env.ctx.engOps.any (fun o => o.uid = env.w.uid && o.handle = h) then
      ({ env with ctx := { env.ctx with engOps := env.ctx.engOps ++ [env.op h 4] } }).bump
    else { env with w := env.w.setAcc h { env.w.acc h with zero := true, err := false } })

/-- AREL (R204): the handle is empty at once; its slots return when the operations before it have completed. -/
def execArel (r : RRR) (s : State) : Host.Outcome State Fault Refusal :=
  issueDone (.arel r) .plain s (fun env =>
    let h := r.d.toNat
    let a := env.w.acc h
    let w := env.w.setAcc h { a with tile := none, zero := false, err := false }
    if env.ctx.engOps.any (fun o => o.uid = env.w.uid && o.handle = h) then
      let o := { env.op h 5 with zero := a.zero, err := a.err }
      ({ env with w := w, ctx := { env.ctx with engOps := env.ctx.engOps ++ [o] } }).bump
    else
      { env with w := w, ctx := match a.tile with | some t => env.ctx.freeTile env.w.blk t | none => env.ctx })

/-- The bytes of a window's rows at their homes, as first and last keys, page by page. -/
def Window.spans (s : State) (x : Context) (e : Seat) (w : Window) : List (Nat × Nat) :=
  (List.range w.rows).flatMap (fun i =>
    let lo := (w.rowFirst i / 8).toNat
    let hi := (w.rowLast i / 8).toNat
    match w.space with
    | 1 => [(keySram x.id e.core (e.spBase + lo), keySram x.id e.core (e.spBase + hi))]
    | 2 => (x.vaultAt e w.place).toList.map (fun u => (keyVault x.id u lo, keyVault x.id u hi))
    | _ =>
      (List.range (hi / 2 ^ 16 - lo / 2 ^ 16 + 1)).flatMap (fun k =>
        let a := max lo ((lo / 2 ^ 16 + k) * 2 ^ 16)
        match findLeaf s x (tlbCluster e.cl) a true with
        | .leaf pte level _ => [(leafKey s pte level a, leafKey s pte level a + (min hi ((a / 2 ^ 16 + 1) * 2 ^ 16 - 1) - a))]
        | _ => []))

/-- The lines of a window at their homes, as keys divided by 128: behind an ASTO the warp's accesses to them wait (R163, R205). -/
def Window.keyLines (s : State) (x : Context) (e : Seat) (w : Window) : List Nat :=
  (w.spans s x e).flatMap (fun q => (List.range (q.2 / 128 - q.1 / 128 + 1)).map (fun j => q.1 / 128 + j))

/-- The descriptor of ASTO and ALDR: a space outside the three or a block-misaligned window. -/
def Window.formBad (w : Window) : Bool := 2 < w.space || w.misaligned

/-- ASTO's checks (R33, R57). -/
def astoOpts (r : RRR) : Opts := { Opts.descSlots (fun _ => [r.d.toNat]) .scalar with whole := true }

/-- ASTO (R205): the presence bits of its scratchpad lines are cleared as it is accepted. -/
def execAsto (r : RRR) (s : State) : Host.Outcome State Fault Refusal :=
  issue (.asto r) (astoOpts r) s (fun env =>
    let d := env.w.tdesc r.d.toNat
    let w := env.window? d 0
    match (env.w.acc r.a.toNat).tile with
    | none => env.trapAcc .accState r.a
    | some t =>
      if w.rows ≠ t.m || w.cols ≠ t.n || w.formBad then env.trapAcc .accShape r.a
      else if w.placeBad env.ctx env.seat then env.trapDesc .placeRange d
      else if w.outside env.ctx env.seat then env.trapDesc .copyBounds d
      else
        let ls := w.sramLines env.ctx env.seat
        let e := env.postOp { env.op r.a.toNat 3 with
          da := d, fa := smGet 0 env.w.slots (dFmt d), lines := w.keyLines env.dev env.ctx env.seat } t
        .done { e with ctx := e.ctx.clearLines ls })

/-- ALDR's checks (R33, R57). -/
def aldrOpts (r : RRR) : Opts :=
  { Opts.plain with
    whole := true
    slots := fun env => [(r.f.toNat, .scalar), (dFmt (env.w.tdesc r.a.toNat), .scalar)] }

/-- ALDR (R206). -/
def execAldr (r : RRR) (s : State) : Host.Outcome State Fault Refusal :=
  issue (.aldr r) (aldrOpts r) s (fun env =>
    let d := env.w.tdesc r.a.toNat
    let w := env.window? d 0
    let af := smGet 0 env.w.slots r.f.toNat
    let go (t : Tile) (env : Env) : Res :=
      .done (env.postOp { env.op r.d.toNat 2 with da := d, fa := smGet 0 env.w.slots (dFmt d) } t)
    if w.formBad then env.trapAcc .accShape r.d
    else if w.placeBad env.ctx env.seat then env.trapDesc .placeRange d
    else if w.outside env.ctx env.seat then env.trapDesc .copyBounds d
    else match (env.w.acc r.d.toNat).tile with
    | some t => if w.rows ≠ t.m || w.cols ≠ t.n || t.af ≠ af then env.trapAcc .accShape r.d else go t env
    | none =>
      if w.rows % 64 ≠ 0 || w.cols % 64 ≠ 0 || 256 < w.rows || 320 < w.cols || w.rows = 0 || w.cols = 0 then
        env.trapAcc .accShape r.d
      else match env.newTile r.d (w.rows / 64) (w.cols / 64) [env.cl] af r.f.toNat with
      | .inl x => x
      | .inr q => go q.1 q.2)

/-- A read-out element: its code and whether it is invalid (R207). -/
def Context.readOut (x : Context) (t : Tile) (zero : Bool) (f : Fmt) (i c : Nat) : Nat × Bool :=
  let g := Fmt.ofWord t.af
  let code := x.accCode t zero i c
  f.encodeEngine (g.decode code) f.engineRm (g.signBit code)

/-- A handle of the issuing warp is not full (R199): an operation on it, or on its tile, is left. -/
def Env.handleBusy (env : Env) (a : Nat) : Bool :=
  (env.w.acc a).pend ≠ 0 || env.ctx.engOps.any (fun o => o.uid = env.w.uid && o.handle = a)

/-- AMOVV's wait for its handle, whatever its guards (R90, R207). -/
def amovvOpts (r : RRR) : Opts :=
  { Opts.plain with busy := fun env => if env.handleBusy r.a.toNat then some (.retryHandle r.a.toNat) else none }

/-- AMOVV (R207): it tests every element, and holds the warp until AMOVV_READOUT. -/
def execAmovv (r : RRR) (s : State) : Host.Outcome State Fault Refusal :=
  issue (.amovv r) (amovvOpts r) s (fun env =>
    let h := env.w.acc r.a.toNat
    let b := (env.s r.b).toNat
    let k := 2 ^ (r.x.toNat % 4)
    let fw := smGet 0 env.w.slots r.f.toNat
    let f := Fmt.ofWord fw
    let r0 := natBits b 15 0
    let c0 := natBits b 31 16
    let n := f.elems
    if natBits b 63 32 ≠ 0 then env.wordTrap .illegalOperand
    else match h.tile with
    | none => env.trapAcc .accState r.a
    | some t =>
      if t.m ≤ r0 + 31 || t.n < c0 + k * n then env.trapE .accRange (env.s r.b)
      else
        let bad (l : Nat) : Option Nat := (List.range (k * n)).find? (fun i => (env.ctx.readOut t h.zero f (r0 + l) (c0 + i)).2 && f.inv = 0 && f.nan = 0)
        match env.trapLanes .fmtInvalid (fun l => (bad l).isSome) (fun l => BitVec.ofNat 64 ((bad l).getD 0)) with
        | some x => x
        | none =>
          let w := (List.range k).foldl (fun w j =>
            env.p.lanes.foldl (fun w l => w.markV (r.d.toNat + j) l (.empty env.id)) w) env.w
          .done ({ env with w := { w with park := some (.readout r.d r.a.toNat k fw r0 c0 env.p env.id) } }.bump))

/-- AQRY (R208). -/
def execAqry (r : RRR) (s : State) : Host.Outcome State Fault Refusal :=
  issueDone (.aqry r) .plain s (fun env =>
    let h := env.w.acc r.a.toNat
    let bit (b : Bool) (k : Nat) : Nat := if b then 2 ^ k else 0
    let body := match h.tile with
      | none => 0
      | some t => 2 ^ 62 + bit t.co 59 + bit (wideAf t.af) 58 + t.slots.length % 256 * 2 ^ 48 + t.mt % 16 * 2 ^ 44 +
          t.nt % 16 * 2 ^ 40 + t.afn * 2 ^ 36
    env.setS r.d (BitVec.ofNat 64 (bit (h.pend = 0) 63 + bit h.zero 61 + bit h.err 60 + body + min h.pend 0xFFFF)))

/-! ### The engine -/

/-- Where an operation's engine stands. -/
def EngOp.seat (o : EngOp) : Seat := { die := o.cl / 64, cl := o.cl, core := o.core, spBase := o.spBase, spSize := o.spSize }

/-- The codes of a window as rows; an element that cannot be read is a free value (log entry 5). -/
def operand (s : State) (x : Context) (e : Seat) (w : Window) (base : Nat) : List (List (Nat × Word)) × Hit :=
  let cell (i c : Nat) : (Nat × Word) × Hit :=
    let v := w.read s x e i c
    match v.2.2 with
    | .fail _ _ => ((natBits (Config.freeWord (s.freeCount + base + i * w.cols + c)).toNat (w.f.width - 1) 0, v.2.1), .ok 0)
    | h => ((v.1, v.2.1), h)
  let all := (List.range w.rows).map (fun i => (List.range w.cols).map (cell i))
  (all.map (fun r => r.map (fun q => q.1)), firstBad (all.flatMap (fun r => r.map (fun q => q.2))))

/-- The ways in which elements of a window cannot be read, each once. -/
def operandFails (s : State) (x : Context) (e : Seat) (w : Window) : List Hit :=
  ((w.cells.map (fun q => (w.read s x e q.1 q.2).2.2)).filter (fun h => match h with | .fail _ _ => true | _ => false)).eraseDups

/-- Records the errors that an operation's operand meets (R349). -/
def noteOperand (s : State) (x : Context) (o : EngOp) (d : BitVec 256) (w : Window) : State :=
  (operandFails s x { die := o.cl / 64, cl := o.cl, core := o.core, spBase := o.spBase, spSize := o.spSize } w).foldl
    (fun s h => s.noteHit (dHigh d) h) s

/-- One element of a result tile (R75): chunks of K in ascending order. `a` and `b` are the operands' values along K with
the sign bit of a's code: that of a chunk's first product is the sign for a zero sum (R64; log entry 66). -/
def mmaElem (f : Fmt) (chunk : Nat) (prior : Nat) (a : List (Val × Bool)) (b : List Val) : Nat → Nat × Bool
  | 0 => (prior, false)
  | n + 1 =>
    let r := mmaElem f chunk prior a b n
    let aj := (a.drop (n * chunk)).take chunk
    let bj := (b.drop (n * chunk)).take chunk
    let rm := f.engineRm
    let sum := Val.sum (List.zipWith (fun p q => Val.mul p.1 q) aj bj) rm
    let t := f.encodeEngine sum rm ((aj.headD (Val.zero false, false)).2)
    let c := f.encodeEngine (Val.sum [f.decode r.1, f.decode t.1] rm) rm (f.signBit r.1)
    (c.1, r.2 || t.2 || c.2)

/-- The end of a tile task (R202, R203): every element formed, ZERO cleared, ERR where a result was invalid. -/
def EngOp.multiply (s : State) (x : Context) (o : EngOp) (t : Tile) : State :=
  let wa := windowOf o.da o.fa 0
  let wb := windowOf o.db o.fb 0
  let ra := operand s x o.seat wa 0
  let rb := operand s x o.seat wb (wa.rows * wa.cols)
  match firstBad [ra.2, rb.2] with
  | .wait => s
  | _ =>
    let f := Fmt.ofWord t.af
    let k := wa.cols
    let chunk := if max wa.f.width wb.f.width ≤ 4 then 64 else 32
    let row (i : Nat) : List (Val × Bool) := (ra.1.getD i []).map (fun q => (wa.f.valueOf q.2 q.1, wa.f.signBit q.1))
    let col (c : Nat) : List Val :=
      if o.bt || o.op = 1 then (rb.1.getD c []).map (fun q => wb.f.valueOf q.2 q.1)
      else rb.1.map (fun r => (fun (q : Nat × Word) => wb.f.valueOf q.2 q.1) (r.getD c (0, 0)))
    let zero := x.zeroOf o
    let elem (i c : Nat) := mmaElem f chunk (x.accCode t zero i c) (row i) (col c) (k / chunk)
    let bad := (List.range t.m).any (fun i => (List.range t.n).any (fun c => (elem i c).2))
    let y := ((x.setTile t (fun i c => (elem i c).1)).setFlags o false (fun e => e || bad)).endOp o
    let s := touchWindow (touchWindow (noteOperand (noteOperand s x o o.da wa) x o o.db wb) x o.seat wa false) x o.seat wb false
    { s with freeCount := s.freeCount + wa.rows * wa.cols + wb.rows * wb.cols }.setCtx y.flush

/-- MMA_COMPLETE (R188, R199, R202). -/
def execMmaComplete (c id : Nat) (s : State) : Host.Outcome State Fault Refusal :=
  .next (match s.ctx? c with
  | none => s
  | some x =>
    match x.engOps.find? (fun o => o.id = id) with
    | none => s
    | some o =>
      match o.tile with
      | none => s
      | some t => if x.active && !x.isOut o.blk && o.op ≤ 1 && x.headOp o && !x.blocked o.cl o.id (o.regs x) then o.multiply s x t else s)

/-- The warp's accesses issued before an operation are performed (R163, R205). -/
def Context.quietBefore (x : Context) (o : EngOp) : Bool := !x.accesses.any (fun a => a.uid = o.uid && a.id < o.id)

/-- Two lists of byte ranges meet. -/
def spansMeet (ps qs : List (Nat × Nat)) : Bool := ps.any (fun p => qs.any (fun q => p.1 ≤ q.2 && q.1 ≤ p.2))

/-- An earlier ASTO of the warp is still to write one of the bytes of an ASTO's window (R163, R205). -/
def Context.astoFirst (x : Context) (s : State) (o : EngOp) : Bool :=
  x.engOps.any (fun p => p.uid = o.uid && p.op = 3 && p.id < o.id &&
    spansMeet ((windowOf p.da p.fa 0).spans s x p.seat) ((windowOf o.da o.fa 0).spans s x o.seat))

/-- A store that is released for an operation's engine is still to write one of the bytes of a window (R273, R277). -/
def Context.holdsWindow (x : Context) (s : State) (e : Seat) (w : Window) : Bool :=
  (w.spans s x e).any (fun q => s.holdsUp x e [{ pos := q.1 * 8, len := (q.2 + 1 - q.1) * 8, off := 0 }])

/-- ASTO_COMPLETE (R205): every element written, and the presence bits of its lines, behind the warp's earlier stores to its bytes
(R163); a write that faults ends the writing and is told to the driver (log entry 17). -/
def execAstoComplete (c id : Nat) (s : State) : Host.Outcome State Fault Refusal :=
  .next (match s.ctx? c with
  | none => s
  | some x =>
    match x.engOps.find? (fun o => o.id = id) with
    | none => s
    | some o =>
      match o.tile with
      | none => s
      | some t =>
        let w := windowOf o.da o.fa 0
        if !x.active || x.isOut o.blk || o.op ≠ 3 || !x.headOp o || !x.quietBefore o || x.astoFirst s o || x.holdsWindow s o.seat w then s
        else
          let zero := x.zeroOf o
          let out (q : Nat × Nat) := x.readOut t zero w.f q.1 q.2
          let z := engWriteAll s x o.seat w.space w.place
            (w.cells.map (fun q => { pos := w.elem q.1 q.2, len := w.f.width, v := (out q).1 }))
          match z.2.2 with
          | .wait => s
          | h =>
            let s := touchWindow z.1 x o.seat w true
            let s := match h with
              | .fail _ _ => { s with driverLog := s.driverLog ++ [dHigh o.da] }
              | _ => s
            let x := x.setLines (w.sramLines x o.seat)
            s.setCtx ((x.setFlags o zero (fun e => e || w.cells.any (fun q => (out q).2))).endOp o).flush)

/-- ALDR_COMPLETE (R206). -/
def execAldrComplete (c id : Nat) (s : State) : Host.Outcome State Fault Refusal :=
  .next (match s.ctx? c with
  | none => s
  | some x =>
    match x.engOps.find? (fun o => o.id = id) with
    | none => s
    | some o =>
      match o.tile with
      | none => s
      | some t =>
        if !x.active || x.isOut o.blk || o.op ≠ 2 || !x.headOp o || !x.quietBefore o then s
        else
          let w := windowOf o.da o.fa 0
          let f := Fmt.ofWord t.af
          let r := operand s x o.seat w 0
          match r.2 with
          | .wait => s
          | _ =>
            let elem (i c : Nat) : Nat × Bool :=
              let q := (r.1.getD i []).getD c (0, 0)
              f.encodeEngine (w.f.decode q.1) f.engineRm (w.f.signBit q.1)
            let bad := (List.range t.m).any (fun i => (List.range t.n).any (fun c => (elem i c).2))
            let y := ((x.setTile t (fun i c => (elem i c).1)).setFlags o false (fun e => e || bad)).endOp o
            { touchWindow (noteOperand s x o o.da w) x o.seat w false with freeCount := s.freeCount + w.rows * w.cols }.setCtx y.flush)

/-- AMOVV_READOUT (R207). -/
def execAmovvReadout (c u : Nat) (s : State) : Host.Outcome State Fault Refusal :=
  .next (match s.ctx? c with
  | none => s
  | some x =>
    match x.warp? u with
    | none => s
    | some w =>
      match w.park with
      | some (.readout d h k fw r0 c0 p _) =>
        let f := Fmt.ofWord fw
        let n := f.elems
        match (w.acc h).tile with
        | none => s
        | some t =>
          let word (j l : Nat) : Word := packElems f.width ((List.range n).map (fun i =>
            (x.readOut t (w.acc h).zero f (r0 + l) (c0 + j * n + i)).1))
          let w := (List.range k).foldl (fun w j => w.writeLanes (d.toNat + j) p (word j)) w
          if x.active && !x.isOut w.blk then s.setCtx (x.setWarp { w with park := none }) else s
      | _ => s)

end Sys2Proof.Machine
end

