-- ==== Sys2Proof/Machine/Ending.lean ====
section
/-! DEFINITION. The end of threads, warps and blocks, and the withdrawal of receives: EXIT (R28, R112, R213, R298, R331,
R339). -/

namespace Sys2Proof.Machine

/-! ### Receive slots and unexpected queues -/

/-- The payload's bytes (R216). -/
def msgBytes (m : Msg) : Nat := (m.codes.length * m.width + m.heads.length * 64 + 7) / 8
/-- The pieces of a message (R326). -/
def msgPieces (m : Msg) : Nat := max 1 ((msgBytes m + 4095) / 4096)
/-- Pieces that occupy receive slots (R325). -/
def Held.inSlots (h : Held) : Nat := h.arrived - h.landed
/-- The receive slots of a die for a source package, its own being 0xFF (R325). -/
def slotKey (die src : Nat) : Nat := die * 256 + src % 256
/-- The receive slots of a die that a source package has taken. -/
def State.slotsOf (s : State) (die src : Nat) : Nat := smGet 0 s.slotsUsed (slotKey die src)
/-- Takes receive slots of a die (R325). -/
def State.takeSlots (s : State) (die src n : Nat) : State :=
  { s with slotsUsed := smPut 0 s.slotsUsed (slotKey die src) (s.slotsOf die src + n) }
/-- Returns receive slots of a die (R326). -/
def State.returnSlots (s : State) (die src n : Nat) : State :=
  { s with slotsUsed := smPut 0 s.slotsUsed (slotKey die src) (s.slotsOf die src - n) }
/-- A message that stays in its reservation slots for want of a receive and of room (R331). -/
def Held.waiting (h : Held) : Bool := !h.queued && !h.landfault && h.receive.isNone
/-- The context of a receive-context number on a die (R327). -/
def State.rxCtx (s : State) (die rxid : Nat) : Option Context := s.ctxs.find? (fun x => x.p.rxid = rxid && x.p.dies.contains die)
/-- Ranks from k down the tree of R76, of n: all of them are in a list (R332). -/
def treeFull (n : Nat) (l : List Nat) : Nat → Nat → Bool
  | 0, _ => true
  | f + 1, k => n ≤ k || (l.contains k && treeFull n l f (2 * k + 1) && treeFull n l f (2 * k + 2))
/-- The contributions of a .red receive that are staged (R217, R332): those of which a piece has left its slot, and those taken from the
unexpected queue. -/
def State.landedOf (s : State) (r : Receive) : List (Nat × Msg) :=
  r.taken.filter (fun q => !s.held.any (fun h => h.receive = some (r.die, r.entry) && h.msg.src = q.2.src && h.landed = 0))
/-- The bytes of staged values of a .red receive when some contributions have left their slots (R332): a value that its parent has
taken in is staged no longer. -/
def Receive.staged (r : Receive) (landed : List (Nat × Msg)) : Nat :=
  match r.red with
  | none => 0
  | some (_, n) =>
    let l := landed.map (fun q => q.1)
    (landed.filter (fun q => !(if q.1 = 0 then treeFull n l 17 0 else treeFull n l 17 ((q.1 - 1) / 2)))).foldl (fun m q => m + msgBytes q.2) 0
/-- The bytes of the unexpected queue of a receive context that are taken, by messages and by staged values (R328, R332). -/
def State.queueUsed (s : State) (die rxid : Nat) : Nat :=
  (s.held.filter (fun h => h.die = die && h.msg.rxid = rxid && (h.queued || h.landfault))).foldl (fun n h => n + msgBytes h.msg) 0 +
    (s.receives.filter (fun r => r.die = die && r.rxid = rxid && !r.done)).foldl (fun n r => n + r.staged (s.landedOf r)) 0
/-- The queue has room for a whole payload (R331). -/
def State.queueRoom (s : State) (die : Nat) (m : Msg) : Bool :=
  match s.rxCtx die m.rxid with
  | some x => s.queueUsed die m.rxid + msgBytes m ≤ x.p.uqBytes && x.p.uqBytes ≠ 0
  | none => false
/-- Moves a message into the unexpected queue, behind those in it; its slots return (R326, R331). The later pieces of a message of
another package follow it there. -/
def State.enqueue (s : State) (h : Held) : State :=
  let n := if h.msg.srcPkg = 0xFF then h.arrived else h.pieces
  { s with held := s.held.filter (fun (y : Held) => y.id ≠ h.id) ++ [{ h with queued := true, arrived := n, landed := n }] }.returnSlots
    h.die h.msg.srcPkg h.inSlots
/-- Moves the waiting messages of a receive context that now find room, in order of arrival (R331, R337). -/
def State.settleQueue (s : State) (die rxid : Nat) : State :=
  (s.held.filter (fun h => h.die = die && h.msg.rxid = rxid && h.waiting)).foldl
    (fun s h => if s.queueRoom die h.msg then s.enqueue h else s) s

/-- Takes a receive away; what it had taken is discarded, its slots return, waiting messages find the room that it leaves (R331), and the
driver is told (R339). -/
def State.dropReceive (s : State) (r : Receive) : State :=
  let mine (h : Held) : Bool := h.receive = some (r.die, r.entry)
  let gone := s.held.filter mine
  let s : State := { s with
    receives := s.receives.filter (fun y => !(y.die = r.die && y.entry = r.entry))
    held := s.held.filter (fun h => !mine h)
    driverLog := s.driverLog ++ gone.map (fun h => BitVec.ofNat 64 h.id) ++ r.taken.map (fun q => BitVec.ofNat 64 q.1) }
  let s := gone.foldl (fun s h => s.returnSlots h.die h.msg.srcPkg h.inSlots) s
  s.settleQueue r.die r.rxid

/-- Takes away every receive that satisfies a test. -/
def State.dropReceives (s : State) (p : Receive → Bool) : State := (s.receives.filter p).foldl State.dropReceive s

/-! ### Warps and blocks -/

/-- Releases a warp's accumulator handles as AREL does (R204, R298): at once, or behind the operations left on them. -/
def Context.releaseHandles (x : Context) (w : Warp) (id0 : Nat) : Context :=
  w.accs.foldl (fun x q =>
    match q.2.tile with
    | none => x
    | some t =>
      if x.engOps.any (fun o => o.uid = w.uid && o.handle = q.1) then
        let o : EngOp :=
          { id := id0 + q.1, uid := w.uid, cl := widClusterNo w.wid, blk := w.blk, core := widCoreNo w.wid, spBase := 0,
            spSize := 0, handle := q.1, op := 5, bt := false, da := 0, db := 0, fa := 0, fb := 0, tile := some t,
            zero := q.2.zero, err := q.2.err, read0 := 0, read1 := 0 }
        { x with engOps := x.engOps ++ [o] }
      else x.freeTile w.blk t) x

/-- The warps of a block that are live. -/
def Context.warpsOf (x : Context) (b : Nat) : List Warp := x.warps.filter (fun w => w.blk = b)

/-- The key under which a barrier instance that is complete waits for its release, and the identifier it has (R213). -/
def barrKey (id n : Nat) : Nat := 16 * (n + 1) + id

/-- Completes the open instances of a block's barriers that have all their arrivals (R213); `n` is a number of its own. -/
def Context.settleBarrs (x : Context) (b : Block) (cycle n : Nat) : Context :=
  let live := (x.warpsOf b.id).map (fun w => w.uid)
  let full (q : Nat × Barr) : Bool :=
    q.1 < 16 && q.2.arrived ≠ [] && (if q.2.n = 0 then live.all q.2.arrived.contains else q.2.n ≤ q.2.arrived.length)
  let one (m : SMap Barr) (q : Nat × Barr) : SMap Barr :=
    if full q then
      smInsert (smDrop m (fun k => k = q.1)) (barrKey q.1 n) { q.2 with full := some (cycle + Config.barrCycles) }
    else m
  x.setBlock { b with barrs := b.barrs.foldl one b.barrs }

/-- The bytes of a block's scratchpad as keys: first and number (R253). -/
def Block.sram (x : Context) (b : Block) : Nat × Nat := (keySram x.id b.core b.spBase, b.spSize)

/-- The offset in its array at which the scratchpad of a block that is swapped out is kept (R267). -/
def Block.saveBase (b : Block) : Nat := 2 ^ 40 + b.id * 2 ^ 20
/-- Where the scratchpad of a block that is swapped out is kept (R267). -/
def Block.saveKey (x : Context) (b : Block) : Nat := keySram x.id b.core b.saveBase

/-- The cards, chains and engine operations of a block go on with its scratchpad where that stands now: at an offset in its core's
array (R196, R253, R267). -/
def Context.rehome (x : Context) (blk base : Nat) : Context :=
  let card (k : Card) : Card := if k.blk = blk then { k with spBase := base } else k
  { x with
    cards := x.cards.map card
    posted := x.posted.map (fun p => { p with card := card p.card })
    channels := x.channels.map (fun (n : Channel) => if n.chainBlk = blk then { n with chainSp := (base, n.chainSp.2) } else n)
    engOps := x.engOps.map (fun (o : EngOp) => if o.blk = blk then { o with spBase := base } else o) }

/-- The bytes that hold a block's scratchpad now: its allocation, or where they are kept while it is swapped out (R267). -/
def Block.bytes (x : Context) (b : Block) : Nat × Nat := if b.swapped.isSome then (b.saveKey x, b.spSize) else b.sram x

/-- Performs what is left of the scratchpad accesses of a block's warps (R28). -/
def drainScratch (s : State) (c : Nat) (b : Block) : State :=
  match s.ctx? c with
  | none => s
  | some x =>
    let k := b.sram x
    let inside (a : Access) : Bool := a.pieces.any (fun p => k.1 ≤ p.pos / 8 && p.pos / 8 < k.1 + k.2)
    (x.accesses.filter (fun a => b.warps.contains a.uid && inside a)).foldl (fun s a =>
      match s.ctx? c with
      | some x => performAccess s x a false
      | none => s) s

/-- An access that the end of a block on a core must have performed (R28, R278): of the block's warps, those of it that have ended with
them, or released for the core. -/
def Block.owes (b : Block) (a : Access) : Bool := b.warps.contains a.uid || a.releasedFor b.core

/-- Everything that the end of a block must have performed is performed (R28, R278). -/
def Context.quietBlock (x : Context) (b : Block) : Bool :=
  !x.accesses.any b.owes && !x.engOps.any (fun o => b.warps.contains o.uid && o.op = 3)

/-- The end of a block (R28, R253, R298, R339): its accesses are performed, its scratchpad is released and its contents are lost to the
cards that it leaves (log entry 88), and its receives that land there and are not complete are withdrawn. -/
def endBlock (s : State) (c : Nat) (b : Block) : State :=
  let s := goAccesses s c (fun a => b.warps.contains a.uid)
  let s := if b.swapped.isSome then s else drainScratch s c b
  let s := s.dropReceives (fun r => r.ctx = c && r.blk = b.id && dBits r.td 98 96 = 1 && !r.done)
  match s.ctx? c with
  | none => s
  | some x =>
    let k := b.bytes x
    { s with
      mem := zeroBytes s.mem k.1 k.2
      poison := s.poison.filter (fun p => !poisonHits p k.1 k.2) }.setCtx
        { x.rehome b.id (lostBase b.id) with
          blocks := x.blocks.filter (fun y => y.id ≠ b.id)
          absent := x.absent.filter (fun l => !(k.1 ≤ l * 128 && l * 128 < k.1 + k.2)) }

/-- The end of a warp (R213, R298): its handles are released, its registers and solder buffer go with it, a barrier that
waits for every live warp may complete, and its block ends with its last warp. -/
def endWarp (s : State) (c u : Nat) : State :=
  match s.ctx? c with
  | none => s
  | some x =>
    match x.warp? u with
    | none => s
    | some w =>
      let x := (x.releaseHandles w s.nextId).flush
      let x := { x with warps := x.warps.filter (fun y => y.uid ≠ u) }
      let s := { s with nextId := s.nextId + 64 }
      match x.block? w.blk with
      | none => s.setCtx x
      | some b =>
        if (x.warpsOf b.id).isEmpty then endBlock (s.setCtx x) c b
        else s.setCtx (x.settleBarrs b s.cycle (s.nextId - 1))

/-- Ends the issuing warp when it has no live thread left (R112, R298). -/
def State.reap (s : State) : State :=
  match s.cur with
  | none => s
  | some cu =>
    match (s.ctx? cu.1).bind (fun x => x.warp? cu.2) with
    | none => s
    | some w => if w.live = 0 then endWarp s cu.1 cu.2 else s

/-- Members of one level that end together (R28): the scope of the level, the warps that held them and their lanes. -/
structure LevelEnd where
  scope : Nat
  warps : List Nat
  lanes : Mask

/-- An access of a thread of the members that end. -/
def LevelEnd.covers (k : LevelEnd) (b : Access) : Bool := k.warps.contains b.uid && k.lanes.has b.lane

/-- The levels of a launch inside its block (R25, R26): those after the outermost that is bound to core. -/
def Rec.innerLevels (r : Rec) : List (Nat × Nat × Nat) := (r.levels.dropWhile (fun v => v.2.1 ≠ 2)).drop 1

/-- The threads of the same member as a thread, of a lane level whose members hold n threads. -/
def laneMember (n t : Nat) : Mask := Mask.ofPred (fun u => u / n = t / n)

/-- The members, of each of some levels from the outermost in, that end when the threads of P of the issuing entry exit (R28). -/
def Env.levelEnds (env : Env) (b : Block) : List (Nat × Nat × Nat) → List LevelEnd
  | [] => []
  | v :: inner =>
    let left := env.w.live &&& ~~~env.p
    let size (lane : Bool) : Nat := ((inner.filter (fun q => (q.2.1 = 0) == lane)).map (fun q => q.1)).foldl (· * ·) 1
    let mine : LevelEnd :=
      if v.2.1 = 0 then
        { scope := v.2.2, warps := [env.w.uid]
          lanes := ((env.p.lanes.map (laneMember (size true))).filter (fun m => left &&& m = 0)).foldl (· ||| ·) 0 }
      else
        let same (k : Nat) : Bool := k / size false = env.w.wblk / size false
        let gone := left = 0 && !(env.ctx.warpsOf b.id).any (fun w => w.uid ≠ env.w.uid && same w.wblk)
        { scope := v.2.2, warps := if gone then (b.warps.zipIdx.filter (fun q => same q.2)).map (fun q => q.1) else []
          lanes := BitVec.allOnes 32 }
    mine :: env.levelEnds b inner

/-- The release at the scope of a level whose members end (R28): what their threads have written, and with it what is released for
the warp's core (R278); none while something must wait. A scope of thread or warp asks for nothing. -/
def Env.endLevel (env : Env) (k : LevelEnd) : Option Env :=
  if k.scope < 2 || k.warps.isEmpty || k.lanes = 0 then some env
  else if env.ctx.engOps.any (fun o => o.op = 3 && k.warps.contains o.uid) then none
  else env.releaseFor k.scope (fun b => k.covers b || b.releasedFor env.core)

/-- The end of a block with its last thread: all that its warps have issued is performed, and what is released for its core (R28, R278);
none while something must wait. -/
def Env.endBlock (env : Env) (b : Block) : Option Env :=
  if env.dev.foreignDue env.ctx b.core 6 env.id then none else
  let s := goAccesses env.commit env.ctx.id b.owes
  match s.ctx? env.ctx.id with
  | none => none
  | some x =>
    match x.warp? env.w.uid with
    | none => none
    | some w => if x.quietBlock b then some { env with dev := s, ctx := x, w := w } else none

/-- The releases of R28 with the threads that exit: of every member inside the block that ends with them, outermost first, and where
no other thread of the block is left, of the block; none while something must still wait. Only the blocks of the hierarchy have
members (R301). -/
def Env.finish (env : Env) : Option Env :=
  match env.blk with
  | none => some env
  | some b =>
    let levels := match b.kind, env.ctx.launch? env.w.q with
      | .grid, some l => l.rcd.innerLevels
      | _, _ => []
    let gone := env.w.live &&& ~~~env.p = 0 && !(env.ctx.warpsOf b.id).any (fun w => w.uid ≠ env.w.uid)
    ((env.levelEnds b levels).foldl (fun (e : Option Env) k => e.bind (fun e => e.endLevel k)) (some env)).bind
      (fun e => if gone then e.endBlock b else some e)

/-- EXIT (R28, R112): the threads of P are no longer live. With the last of a member of a level, it waits for what the member's threads
have issued (log entry 67). -/
def execExit (r : RRR) (s : State) : Host.Outcome State Fault Refusal :=
  issueThen (.exit r) .resets s (fun env =>
    match env.finish with
    | none => .hold (.retrySources [])
    | some e => .done { e with dead := env.p }) State.reap

end Sys2Proof.Machine
end

