-- ==== Sys2Proof/Machine/Pewter.lean ====
section
/-! DEFINITION. Barriers and broadcasts: opcodes 0xC0 to 0xC3 and their events (R18, R210 to R214, R228, R304). -/

namespace Sys2Proof.Machine

/-- Latency of a pewter signal in cycles (R18). -/
def pewterCycles (pkg : Bool) : Nat := if pkg then 64 else 24

/-- What is left of a barrier's acquire: it waits for the warp's earlier loads as FENCE.acq does (R178, R212). -/
def Context.afterBarrier (x : Context) (uid id : Nat) (r : Option Nat) : Option Park :=
  match r with
  | none => none
  | some sc => if x.acquireReady uid id then none else some (.fence true false false sc 0 id 0 0)

/-- The scope code of a generation of a barrier channel (R211). -/
def barScope (pkg : Bool) : Nat := if pkg then 5 else 4

/-- A wait at a barrier channel in a generation of a scope (R211): one of the other scope on the channel is another generation. -/
def Park.atBsync (ch scope : Nat) (k : Park) : Bool :=
  match k with
  | .bsync n _ sc => n = ch && sc = scope
  | _ => false
/-- A wait at a barrier of a block (R213). -/
def Park.atBarr (blk id : Nat) (k : Park) : Bool :=
  match k with
  | .barr b n => b = blk && n = id
  | _ => false

/-- A warp's wait at the barrier that a test names ends, the one that a handler set aside first; its acquire is made (R211 to R213,
R228). -/
def State.passBarrier (s : State) (c u : Nat) (this : Park → Bool) : State :=
  match s.ctx? c with
  | none => s
  | some x =>
    match x.warp? u with
    | none => s
    | some w =>
      let waits (k : Park) : Option (Option Nat) :=
        if !this k then none
        else match k with
        | .bsync _ acq scope => some (if acq then some scope else none)
        | .barr _ _ => some (some 2)
        | _ => none
      let go (r : Option Nat) (w : Warp) : State :=
        match r with
        | some sc => s.acquireWith (x.setWarp w) (widCoreNo w.wid) sc
        | none => s.setCtx (x.setWarp w)
      match w.saved.bind (fun sv => (sv.park.bind waits).map (fun r => (sv, r))) with
      | some (sv, r) => go r { w with saved := some { sv with park := x.afterBarrier u s.nextId r } }
      | none =>
        match w.park.bind waits with
        | some r => go r { w with park := x.afterBarrier u s.nextId r }
        | none => s

/-! ### BSYNC -/

/-- The open generations of a channel that reach any of some dies (R211). -/
def Context.openGens (x : Context) (ch : Nat) (dies : List Nat) : List BarGen :=
  x.barGens.filter (fun g => g.ch = ch && g.dies.any dies.contains)

/-- The arrival of a warp (R211): it may close the generation. -/
def Context.arrive (x : Context) (ch : Nat) (dies : List Nat) (pkg : Bool) (c : Nat) (who : Nat × Nat) (cycle : Nat) : Context :=
  let g : BarGen := match x.openGens ch dies with
    | g :: _ => { g with arrived := g.arrived ++ [who] }
    | [] => { ch := ch, dies := dies, pkg := pkg, c := c, arrived := [who] }
  let rest := x.barGens.filter (fun y => !(y.ch = ch && y.dies.any dies.contains))
  if g.arrived.length = g.c then
    { x with barGens := rest
             barCount := dies.foldl (fun m d => smPut 0 m (d * 64 + ch) (smGet 0 m (d * 64 + ch) + 1)) x.barCount
             closings := x.closings ++ [{ ch := ch, dies := dies, pkg := pkg, at_ := cycle + pewterCycles pkg
                                          warps := g.arrived.map (fun q => q.1) }] }
  else { x with barGens := rest ++ [g] }

/-- BSYNC (R211, R212). -/
def execBsync (r : RI) (s : State) : Host.Outcome State Fault Refusal :=
  issue (.bsync r) .plain s (fun env =>
    let a := (env.s r.a).toNat
    let c := a % 2 ^ 16
    let ch := natBits r.imm.toNat 5 0
    let pkg := r.imm.toNat.testBit 6
    let die := widDie env.w.wid
    let dies := if pkg then env.ctx.p.dies else [die]
    let scope := barScope pkg
    if a / 2 ^ 16 ≠ 0 || c < 1 || 16384 < c || (pkg && env.ctx.p.dies.length ≤ 1) then env.wordTrap .illegalOperand
    else if env.ctx.p.nb ≤ ch then env.trapE .pewterChan (BitVec.ofNat 64 ch)
    else if (env.ctx.openGens ch dies).any (fun g => g.pkg ≠ pkg || g.c ≠ c) then
      env.trapE .pewterCount (BitVec.ofNat 64 c)
    else
      let go (env : Env) : Res :=
        .done { env.parkOn (.bsync ch (r.x.toNat.testBit 1) scope) with
          ctx := env.ctx.arrive ch dies pkg c (env.w.uid, die) env.dev.cycle }
      if r.x.toNat.testBit 0 then
        match env.releaseAt scope with
        | some env => go env
        | none => .hold (.retrySources [])
      else go env)

/-- BSYNC_RELEASE (R211, R228): once the signal has arrived, every warp that arrived in the generation goes on. -/
def execBsyncRelease (c die ch : Nat) (s : State) : Host.Outcome State Fault Refusal :=
  .next (match s.ctx? c with
  | none => s
  | some x =>
    match x.closings.find? (fun k => k.ch = ch && k.dies.contains die && k.at_ ≤ s.cycle) with
    | none => s
    | some k =>
      if !x.active then s
      else
        k.warps.foldl (fun s u => s.passBarrier c u (Park.atBsync ch (barScope k.pkg))) (s.setCtx { x with closings := x.closings.filter (fun y => y ≠ k) }))

/-! ### BARR -/

/-- The arrival of a warp at a barrier of its block (R213). -/
def Context.arriveBarr (x : Context) (b : Block) (id n uid cycle num : Nat) : Context :=
  let i := smGet ({ n := n, arrived := [], full := none } : Barr) b.barrs id
  let b := { b with barrs := smInsert (smDrop b.barrs (fun k => k = id)) id { i with arrived := i.arrived ++ [uid] } }
  x.settleBarrs b cycle num

/-- The arrival of the issuing warp: its earlier accesses are performed at core scope first (R213). -/
def Env.barr (env : Env) (id n : Nat) : Res :=
  match env.releaseAt 2 with
  | none => .hold (.retrySources [])
  | some env =>
    match env.blk with
    | none => .done env
    | some b =>
      .done ({ env.parkOn (.barr b.id id) with
        ctx := env.ctx.arriveBarr b id n env.w.uid env.dev.cycle env.id }.bump)

/-- The open instance of a barrier has another count (R213). -/
def Block.barrClash (b : Block) (id n : Nat) : Bool :=
  let i := smGet { n := n, arrived := [], full := none } b.barrs id
  i.n ≠ n

/-- BARR (R213). -/
def execBarr (r : RI) (s : State) : Host.Outcome State Fault Refusal :=
  issue (.barr r) .plain s (fun env =>
    let n := natBits r.imm.toNat 5 0
    let id := natBits r.imm.toNat 9 6
    match env.blk with
    | none => .done env
    | some b =>
      if b.nwarps < n then env.wordTrap .illegalOperand
      else if b.barrClash id n then env.trapE .pewterCount (BitVec.ofNat 64 n)
      else env.barr id n)

/-- BARR_RELEASE (R213, R228): the oldest complete instance of a barrier lets its participants go on. -/
def execBarrRelease (c blk id : Nat) (s : State) : Host.Outcome State Fault Refusal :=
  .next (match s.ctx? c with
  | none => s
  | some x =>
    match x.block? blk with
    | none => s
    | some b =>
      match b.barrs.find? (fun q => 16 ≤ q.1 && q.1 % 16 = id) with
      | none => s
      | some q =>
        if !x.active then s
        else
          q.2.arrived.foldl (fun s u => s.passBarrier c u (Park.atBarr blk id))
            (s.setCtx (x.setBlock { b with barrs := b.barrs.filter (fun y => y.1 ≠ q.1) })))

/-! ### Broadcasts -/

/-- BCAST (R214). -/
def execBcast (r : RRR) (s : State) : Host.Outcome State Fault Refusal :=
  issue (.bcast r) .plain s (fun env =>
    let ch := r.x.toNat % 16
    let pkg := r.x.toNat.testBit 4
    let b : Bcast :=
      { id := env.id, wid := env.w.wid, ch := ch, dies := if pkg then env.ctx.p.dies else [widDie env.w.wid]
        at_ := env.dev.cycle + pewterCycles pkg, value := env.s r.a }
    if env.ctx.p.nc ≤ ch then env.trapE .pewterChan (BitVec.ofNat 64 ch)
    else .done ({ env with ctx := { env.ctx with bcasts := env.ctx.bcasts ++ [b] } }.bump))

/-- Fills the oldest receive of a warp that waits for a channel whose generation exceeds the one it has seen (R214). -/
def Context.takeBcast (x : Context) (w : Warp) (ch id : Nat) : Context :=
  let key := widDie w.wid * 16 + ch
  let gen := smGet 0 x.bcGen key
  match w.recvs.find? (fun q => q.1 = ch) with
  | none => x
  | some q =>
    if gen ≤ smGet 0 w.bcSeen ch then x
    else
      (x.setWarp { w with bcSeen := smPut 0 w.bcSeen ch gen, recvs := w.recvs.erase q }).owe id w.uid q.2 (smGet 0 x.bcValue key) none

/-- A broadcast arrives before another of the same channel on a die of its own: earlier, or in the same cycle from the warp that
R130 orders first (R214). -/
def Bcast.before (a b : Bcast) : Bool :=
  a.ch = b.ch && a.dies.any b.dies.contains && (a.at_ < b.at_ || (a.at_ = b.at_ && (a.wid < b.wid || (a.wid = b.wid && a.id < b.id))))

/-- BCAST_ARRIVE (R214): the value reaches the channel's register in every core of its dies, behind those that come before it, and
the receives that wait there take the last of the cycle. -/
def execBcastArrive (c id : Nat) (s : State) : Host.Outcome State Fault Refusal :=
  .next (match s.ctx? c with
  | none => s
  | some x =>
    match x.bcasts.find? (fun b => b.id = id && b.at_ ≤ s.cycle) with
    | none => s
    | some b =>
      if !x.active || x.bcasts.any (fun y => y.before b) then s
      else
        let x := { x with
          bcasts := x.bcasts.filter (fun y => y.id ≠ id)
          bcValue := b.dies.foldl (fun m d => smPut 0 m (d * 16 + b.ch) b.value) x.bcValue
          bcGen := b.dies.foldl (fun m d => smPut 0 m (d * 16 + b.ch) (smGet 0 m (d * 16 + b.ch) + 1)) x.bcGen }
        let more (d : Nat) : Bool := x.bcasts.any (fun y => y.ch = b.ch && y.dies.contains d && y.at_ ≤ s.cycle)
        let us := (x.warps.filter (fun w => b.dies.contains (widDie w.wid) && !more (widDie w.wid))).map (fun w => w.uid)
        let x := us.foldl (fun x u => match x.warp? u with | some w => x.takeBcast w b.ch (s.nextId + u) | none => x) x
        { s with nextId := s.nextId + us.foldl max 0 + 1 }.setCtx x)

/-- BRECV (R214): D is empty until the channel's generation exceeds the last one that the warp received. -/
def execBrecv (r : RRR) (s : State) : Host.Outcome State Fault Refusal :=
  issue (.brecv r) .plain s (fun env =>
    let ch := r.x.toNat % 16
    if env.ctx.p.nc ≤ ch then env.trapE .pewterChan (BitVec.ofNat 64 ch)
    else
      let d := env.destS r.d.toNat
      let w := { env.w.markDest d with recvs := env.w.recvs ++ [(ch, d)] }
      let env := { env with w := w, ctx := env.ctx.setWarp w }
      let x := env.ctx.takeBcast w ch (env.id + 1)
      .done { env with ctx := x, w := (x.warp? w.uid).getD w, dev := { env.dev with nextId := env.dev.nextId + 2 } })

end Sys2Proof.Machine
end

