-- ==== Sys2Proof/Machine/Messages.lean ====
section
/-! DEFINITION. Messages and the receive match engine: opcodes 0xC4 to 0xC9 and the events of messages (R215 to R221, R325 to
R332, R337 to R339). -/

namespace Sys2Proof.Machine

/-! ### Payloads -/

/-- A run of bits as its home holds it: the keys of its bytes, its bits, and how the read ends; a free value where the scratchpad went
with its block. -/
def rawRun (s : State) (x : Context) (e : Seat) (w : Window) (pos : Int) (len : Nat) : List Nat × Nat × Hit :=
  if w.space = 1 && e.lost then ([], engPeek s x e w.space w.place pos len)
  else
    let lo := pos / 8
    let n := ((pos + len - 1) / 8 - lo + 1).toNat
    let homes := (List.range n).map (fun (j : Nat) => engHome s x e w.space w.place false (lo + j))
    let keys := homes.filterMap (fun h => match h with | .ok k => some k | _ => none)
    let raw := keys.foldr (fun k v => (memByte s.mem k).toNat + 256 * v) 0
    (keys, raw / 2 ^ (pos % 8).toNat % 2 ^ len, firstBad homes)

/-- The runs of a window's payload (R215): each element in order with its length; then the block headers in order. Where each stands in the
stream is `runPos`. -/
def Window.payloadRuns (w : Window) : List (Int × Nat) :=
  w.cells.map (fun q => (w.elem q.1 q.2, w.f.width)) ++
    (if w.f.isBlk then
      (List.range w.rows).flatMap (fun i => (List.range (w.cols / 32)).map (fun j => (w.header i (32 * j), 64)))
    else [])

/-- The bytes of a window's payload (R216). -/
def Window.payloadBytes (w : Window) : Nat :=
  (w.rows * w.cols * w.f.width + (if w.f.isBlk then w.rows * (w.cols / 32) * 64 else 0) + 7) / 8

/-- Source rank of the issuing warp (R215): the package number and the block number. -/
def Env.rank (env : Env) (num : Nat) : BitVec 32 := BitVec.ofNat 32 (env.dev.pod.getD 0 * 2 ^ 24 + num % 2 ^ 24)

/-- The number of the issuing block (R132, R215). -/
def Env.blockNum (env : Env) : Nat :=
  match env.blk with
  | some b => b.num
  | none => 0

/-- A destination package as this package names it: its own number is itself (R216, R322). -/
def State.pkgOf (s : State) (p : Nat) : Nat := if s.pod = some p then 0xFF else p

/-- A send leaves the list once every piece is granted, its message needs no match here, and no warp waits for it. -/
def State.tidySends (s : State) : State :=
  { s with sending := s.sending.filter (fun z =>
      z.granted < z.pieces || (z.pkg = 0xFF && !z.matched) ||
        s.ctxs.any (fun x => x.warps.any (fun w =>
          w.park = some (.send z.id) || (match w.saved with | some sv => sv.park = some (.send z.id) | none => false)))) }

/-! ### MSEND -/

/-- The checks of MSEND, which resets WC, and of MPOST (R33, R43, R57). -/
def Opts.message (r : RRR) (reset : Bool) : Opts :=
  { Opts.descSlots (fun _ => [r.a.toNat]) .any with whole := true, reset := reset }

/-- The message of an MSEND from its window (R215, R216); its payload is filled in as it is read. -/
def Env.message (env : Env) (w : Window) (tag mctx : Nat) : Msg :=
  { rxid := env.ctx.p.rxid, src := env.rank env.blockNum, tag := BitVec.ofNat 32 tag, mctx := BitVec.ofNat 16 mctx
    width := w.f.width, blk := w.f.isBlk, codes := List.replicate (w.rows * w.cols) 0
    heads := List.replicate (w.payloadRuns.length - w.rows * w.cols) 0, wslot := env.w.wid, srcPkg := 0xFF, bad := [] }

/-- MSEND (R216, R326): the warp waits until its pieces are read and have their reservations; it issues once its own earlier stores to
the payload are performed and every line of it is present. -/
def execMsend (r : RRR) (s : State) : Host.Outcome State Fault Refusal :=
  issue (.msend r) (.message r true) s (fun env =>
    let d := env.w.tdesc r.a.toNat
    let b := (env.s r.b).toNat
    let c := (env.s r.c).toNat
    let num := env.blockNum
    let w := env.window? d 0
    if natBits b 31 10 ≠ 0 || c / 2 ^ 16 ≠ 0 || (b % 256 ≠ 0xFF && env.dev.pod.isNone) then env.wordTrap .illegalOperand
    else if !env.ctx.p.dies.contains ((widDie env.w.wid + natBits b 9 8) % 4) then
      env.trapE .placeRange (BitVec.ofNat 64 (b / 256 % 4 * 256))
    else match env.checkDesc d [0] with
    | some x => x
    | none =>
      if 2 ^ 24 ≤ num then env.trapE .msgRank (BitVec.ofNat 64 num)
      else if 2 ^ 24 < w.payloadBytes then env.trapE .msgSize (BitVec.ofNat 64 w.payloadBytes)
      else
        let keys := w.payloadRuns.flatMap (fun q => (rawRun env.dev env.ctx env.seat w q.1 q.2).1)
        let gone := (keys.map (fun k => k / 128)).filter env.ctx.absent.contains
        let busy := env.awaits (keys.map (fun k => { pos := k * 8, len := 8, off := 0 })) || env.ctx.astoBefore env.w.uid env.id
        if gone ≠ [] then .hold (.retryLines gone)
        else if busy then .hold (.retrySources [])
        else
          let m := env.message w (b / 2 ^ 32) c
          let z : Sending :=
            { id := env.id, ctx := env.ctx.id, uid := env.w.uid, pkg := env.dev.pkgOf (b % 256)
              die := (widDie env.w.wid + natBits b 9 8) % 4, msg := some m, active := none, pieces := msgPieces m, granted := 0
              matched := false, td := d, slot := smGet 0 env.w.slots (dFmt d), blk := env.w.blk }
          let dev := { touchWindow env.dev env.ctx env.seat w false with sending := env.dev.sending ++ [z] }
          .done ({ env.parkOn (.send env.id) with dev := dev }.bump))

/-- A held MSEND of a warp whose frontier is set aside, or that has halted or lost its units: its pieces go on with the warp (R309);
those of a launch that ends go on at once (R344). -/
def State.setAside (s : State) (z : Sending) : Bool :=
  z.msg.isSome && s.ctxs.any (fun x => x.id = z.ctx && x.warps.any (fun w => w.uid = z.uid &&
    ((match w.saved with | some sv => sv.park = some (.send z.id) | none => false) ||
      (w.park = some (.send z.id) && (w.halted || !x.active))) &&
      (match x.launch? w.q with | some l => l.ended.isNone | none => false)))

/-- Where a sender's payload is read from: its cluster and core, and its block's scratchpad where that stands now. -/
def Sending.seat (z : Sending) (x : Context) (m : Msg) : Seat :=
  let base := match x.block? z.blk with
    | some b => if b.swapped.isSome then b.saveBase else b.spBase
    | none => lostBase z.blk
  { die := widDie m.wslot, cl := widClusterNo m.wslot, core := widCoreNo m.wslot, spBase := base, spSize := 0 }

/-- The bit of the payload's stream at which run i begins, an element or a header behind the last element in `Window.payloadRuns` (R215):
one packed stream, in which each block's header precedes its elements. -/
def runPos (m : Msg) (i : Nat) : Nat :=
  if !m.blk then i * m.width
  else if i < m.codes.length then (i / 32 + 1) * 64 + i * m.width
  else (i - m.codes.length) * (64 + 32 * m.width)

/-- The piece of a message with which a run goes (R326): that in which it begins. -/
def runPiece (m : Msg) (i : Nat) : Nat := runPos m i / (4096 * 8)

/-- What could not be read, recorded (R349). -/
def State.noteFails (s : State) (hs : List Hit) : State :=
  hs.foldl (fun s h => match h with
    | .fail _ ks => s.recordKeys 0x02 ks
    | _ => s) s

/-- The granules in error that bytes lie in, each once. -/
def State.badKeys (s : State) (ks : List Nat) : List Nat := (ks.flatMap (fun k => s.badGranules k 1)).eraseDups

/-- The next piece of a message is read as it is sent (R216, R309; log entry 25): the state and the message with its values, free ones
where they cannot be read; none while a stack, a line or a store released for the warp is still to come. The errors that it meets are
recorded (R349), and its pages marked as read (R262). -/
def State.readPiece (s : State) (x : Context) (z : Sending) (m : Msg) : Option (State × Msg) :=
  let w := windowOf z.td z.slot 0
  let e := z.seat x m
  let n := m.codes.length
  let mine := w.payloadRuns.zipIdx.filter (fun q => runPiece m q.2 = z.granted)
  let reads := mine.map (fun q => (q.2, rawRun s x e w q.1.1 q.1.2))
  let keys := reads.flatMap (fun q => q.2.1)
  let ps : List Piece := keys.map (fun k => { pos := k * 8, len := 8, off := 0 })
  if reads.any (fun q => q.2.2.2 = .wait) || (linesOf ps).any x.absent.contains ||
    (s.flying x).any (fun b => b.shields z.uid e.core 0 false ps) then none
  else
    let fails := ((reads.map (fun q => q.2.2.2)).filter (fun h => match h with | .fail _ _ => true | _ => false)).eraseDups
    let val (q : Nat × Nat) : Nat :=
      match reads.find? (fun r => r.1 = q.2) with
      | none => q.1
      | some r =>
        match r.2.2.2 with
        | .ok _ => r.2.2.1
        | _ => (Config.freeWord (s.freeCount + q.2)).toNat
    let all := (m.codes ++ m.heads.map (fun v => v.toNat)).zipIdx.map val
    let m := { m with
      codes := (all.take n).map (fun v => v % 2 ^ m.width)
      heads := (all.drop n).map (fun v => BitVec.ofNat 64 v)
      bad := m.bad ++ (reads.filter (fun q => s.badKeys q.2.1 ≠ [])).map (fun q => q.1) }
    let t := mine.foldl (fun t q => engTouch t x e w.space false q.1.1 q.1.2) ((s.noteFails fails).recordKeys 0x02 (s.badKeys keys))
    some ({ t with
      freeCount := s.freeCount + all.length
      driverLog := if fails = [] then t.driverLog else t.driverLog ++ [dHigh z.td] }, m)

/-- What is known of a message takes its place wherever the message stands. -/
def State.putMsg (s : State) (id : Nat) (m : Msg) : State :=
  let here (r : Receive) : Bool := s.held.any (fun h => h.id = id && h.receive = some (r.die, r.entry))
  { s with
    sending := s.sending.map (fun (y : Sending) => if y.id = id then { y with msg := some m } else y)
    held := s.held.map (fun (h : Held) => if h.id = id then { h with msg := m } else h)
    receives := s.receives.map (fun (r : Receive) =>
      if here r then { r with taken := r.taken.map (fun q => if q.2.src = m.src then (q.1, m) else q) } else r) }

/-- One more piece of a send has its reservation (R325, R326); in this package it takes a receive slot, but for one that follows its
message into the unexpected queue. -/
def State.grant (s : State) (z : Sending) : State :=
  let s := { s with sending := s.sending.map (fun (y : Sending) => if y.id = z.id then { y with granted := y.granted + 1 } else y) }
  if z.pkg ≠ 0xFF then s.tidySends
  else if !z.matched then s.takeSlots z.die 0xFF 1
  else
    let kept := s.held.any (fun h => h.id = z.id && !h.queued)
    let t : State := { s with held := s.held.map (fun (h : Held) =>
      if h.id = z.id then { h with arrived := h.arrived + 1, landed := if h.queued then h.landed + 1 else h.landed } else h) }
    (if kept then t.takeSlots z.die 0xFF 1 else t).tidySends

/-- A reservation from this package to a die can be had (R321, R325): a live port, or in its own package a free receive slot. -/
def State.grantable (s : State) (pkg die : Nat) : Bool :=
  if pkg ≠ 0xFF then (List.range 16).any s.portLive else s.rdy.getLsbD (32 + die) && s.slotsOf die 0xFF < 16

/-- RESERVATION_GRANT (R325, R326): the oldest request from this package to a die is granted, and the piece of a message is read. -/
def execReservationGrant (pkg die : Nat) (s : State) : Host.Outcome State Fault Refusal :=
  .next (match s.sending.find? (fun z => z.pkg = pkg && z.die = die && z.granted < z.pieces && !s.setAside z) with
  | none => s
  | some z =>
    if !s.grantable pkg die then s
    else match z.msg, s.ctx? z.ctx with
    | some m, some x =>
      match s.readPiece x z m with
      | none => s
      | some (t, m) => (t.putMsg z.id m).grant z
    | _, _ => s.grant z)

/-- Ends the wait of a send, wherever a handler set it aside. -/
def Warp.passSend (w : Warp) (id : Nat) : Warp :=
  if w.park = some (.send id) then { w with park := none }
  else match w.saved with
  | some sv => if sv.park = some (.send id) then { w with saved := some { sv with park := none } } else w
  | none => w

/-- The send for which a warp waits, wherever a handler set the wait aside. -/
def Warp.sendId (w : Warp) : Option Nat :=
  let id (k : Park) : Option Nat := match k with | .send n => some n | _ => none
  (w.park.bind id).or (w.saved.bind (fun sv => sv.park.bind id))

/-- MSEND_COMPLETE (R216): every piece of the send that holds the warp has its reservation. -/
def execMsendComplete (c u : Nat) (s : State) : Host.Outcome State Fault Refusal :=
  .next (match s.ctx? c with
  | none => s
  | some x =>
    match x.warp? u with
    | none => s
    | some w =>
      match s.sending.find? (fun z => w.sendId = some z.id && z.granted = z.pieces) with
      | some z => if x.active then (s.setCtx (x.setWarp (w.passSend z.id))).tidySends else s
      | none => s)

/-! ### Matching -/

/-- The test of a message against a receive, or an MPROBE laid out as one (R218). -/
def Receive.accepts (r : Receive) (m : Msg) : Bool :=
  let tag := BitVec.ofNat 32 (r.mword.toNat / 2 ^ 32)
  let tagMask := BitVec.ofNat 32 (r.mask.toNat / 2 ^ 32)
  let src := BitVec.ofNat 32 r.mword.toNat
  let srcMask := BitVec.ofNat 32 r.mask.toNat
  r.rxid = m.rxid && r.mctx = m.mctx.toNat && (m.tag ^^^ tag) &&& ~~~tagMask = 0 &&
    (match r.red with
    | none => (m.src ^^^ src) &&& ~~~srcMask = 0
    | some (_, n) => src.toNat ≤ m.src.toNat && m.src.toNat < src.toNat + n &&
        !r.taken.any (fun q => q.1 = m.src.toNat - src.toNat))

/-- A receive takes a message (R219, R329). -/
def State.take (s : State) (r : Receive) (h : Held) : State :=
  let first := r.mword.toNat % 2 ^ 32
  let r' : Receive := match r.red with
    | none => { r with open_ := false, msg := some h.id, tag := h.msg.tag }
    | some (_, n) =>
      { r with taken := r.taken ++ [(h.msg.src.toNat - first, h.msg)], open_ := r.taken.length + 1 < n }
  let h' := { h with queued := false, receive := some (r.die, r.entry) }
  { s with
    receives := s.receives.map (fun y => if y.die = r.die && y.entry = r.entry then r' else y)
    held := if s.held.any (fun y => y.id = h.id) then s.held.map (fun y => if y.id = h.id then h' else y) else s.held ++ [h'] }

/-- What the engine does with a message whose first piece has reached it (R218, R331). -/
def State.meet (s : State) (h : Held) : State :=
  match s.receives.find? (fun r => r.open_ && r.die = h.die && r.accepts h.msg) with
  | some r => s.take r h
  | none => if s.queueRoom h.die h.msg then s.enqueue h else { s with held := s.held ++ [h] }

/-- A receive whose window lies in scratchpad lands only while its block is resident in its array (R339). -/
def Receive.mayLand (r : Receive) (x : Context) : Bool :=
  dBits r.td 98 96 ≠ 1 ||
    (x.active && (match x.block? r.blk with | some b => b.swapped.isNone | none => false))

/-- A .red receive has every contribution of its range, each of which has arrived whole (R219, R332). -/
def State.redReady (s : State) (r : Receive) : Bool :=
  match r.red with
  | none => false
  | some (_, n) => !r.done && n ≤ r.taken.length &&
      s.held.all (fun h => h.receive ≠ some (r.die, r.entry) || h.arrived = h.pieces)

/-- A contribution of a .red receive is staged already, or finds staging room for what its landing leaves staged (R332). -/
def State.stageRoom (s : State) (x : Context) (r : Receive) (h : Held) : Bool :=
  let old := s.landedOf r
  let new := old ++ r.taken.filter (fun q => q.2.src = h.msg.src)
  h.landed ≠ 0 || s.queueUsed r.die r.rxid + r.staged new ≤ x.p.uqBytes + r.staged old

/-- A message that a receive has taken waits in its slots: for the block whose scratchpad it lands in (R339), or, a contribution, for
staging room (R332). -/
def State.landingWaits (s : State) (h : Held) : Bool :=
  match h.receive.bind (fun q => s.receives.find? (fun r => r.die = q.1 && r.entry = q.2)) with
  | none => false
  | some r =>
    match s.ctx? r.ctx with
    | none => false
    | some x => !r.mayLand x || (r.red.isSome && !s.redReady r && !s.stageRoom x r h)

/-- An earlier message of a source package waits in its slots, for a receive and room, for a block or for staging room, and those
behind it wait too (R331, R332, R339); not behind one that an MPOST took from the queue, no piece of which stands in a slot. -/
def State.stuck (s : State) (die srcPkg : Nat) : Bool :=
  s.held.any (fun h => h.die = die && h.msg.srcPkg = srcPkg && h.inSlots ≠ 0 &&
    (h.waiting || (!h.queued && !h.landfault && s.landingWaits h)))

/-- The place of a message among those whose first pieces reach an engine in one cycle: source rank, then warp slot (R329). -/
def msgPlace (m : Msg) : Nat := m.src.toNat * 2 ^ 16 + m.wslot % 2 ^ 16

/-- A message may meet the engine in this cycle behind those that have met it (R329). -/
def State.inTurn (s : State) (die : Nat) (m : Msg) : Bool :=
  let last := smGet (0, 0) s.firsts die
  last.1 ≠ s.cycle || last.2 ≤ msgPlace m

/-- Notes that a message has met the engine of a die. -/
def State.metFirst (s : State) (die : Nat) (m : Msg) : State := { s with firsts := smPut (0, 0) s.firsts die (s.cycle, msgPlace m) }

/-- MESSAGE_MATCH (R216, R218, R326, R329): the first piece of a message meets the engine, in the order of R329, and those of one
warp to one die in issue order. A message whose receive context is not on the die is discarded. A message of another package
needs a slot of that package's. -/
def execMessageMatch (die : Nat) (a : Arrival) (s : State) : Host.Outcome State Fault Refusal :=
  .next (if !s.rdy.getLsbD (32 + die) then s
  else match a with
  | .own id =>
    match s.sending.find? (fun z => z.id = id && z.pkg = 0xFF && z.die = die && !z.matched && 1 ≤ z.granted) with
    | none => s
    | some z =>
      match z.msg with
      | none => s
      | some m =>
        let early := s.sending.any (fun y =>
          y.ctx = z.ctx && y.uid = z.uid && y.pkg = 0xFF && y.die = die && y.msg.isSome && !y.matched && y.id < z.id)
        if early || s.stuck die 0xFF || !s.inTurn die m then s
        else
          let put (f : Sending → Sending) : State :=
            { s with sending := s.sending.map (fun (y : Sending) => if y.id = id then f y else y) }.metFirst die m
          if (s.rxCtx die m.rxid).isNone then
            { (put (fun y => { y with matched := true, granted := y.pieces })).returnSlots die 0xFF z.granted with
              driverLog := s.driverLog ++ [BitVec.ofNat 64 id] }.tidySends
          else
            ((put (fun y => { y with matched := true })).meet
              { id := id, die := die, msg := m, pieces := z.pieces, arrived := z.granted, landed := 0, queued := false
                landfault := false, receive := none }).tidySends
  | .remote m =>
    if 0x80 ≤ m.srcPkg || s.pod.isNone || s.stuck die m.srcPkg || 16 ≤ s.slotsOf die m.srcPkg || !s.inTurn die m then s
    else if (s.rxCtx die m.rxid).isNone then
      { s.metFirst die m with driverLog := s.driverLog ++ [BitVec.ofNat 64 m.rxid] }
    else
      ({ s.metFirst die m with nextId := s.nextId + 1 }.takeSlots die m.srcPkg 1).meet
        { id := s.nextId, die := die, msg := m, pieces := msgPieces m, arrived := 1, landed := 0, queued := false
          landfault := false, receive := none })

/-! ### Posting -/

/-- Queued messages of a die in order, then waiting ones (R217, R331). -/
def State.searchList (s : State) (die : Nat) : List Held :=
  s.held.filter (fun h => h.die = die && h.queued) ++ s.held.filter (fun h => h.die = die && h.waiting)

/-- The search of an MPOST for a receive that is posted: it takes the first match, or for .red the oldest from each source
(R217). -/
def State.search (s : State) (die entry : Nat) (hs : List Held) : State :=
  hs.foldl (fun s h =>
    match s.receives.find? (fun r => r.die = die && r.entry = entry) with
    | some r => if r.open_ && r.accepts h.msg then s.take r h else s
    | none => s) s

/-- The lowest receive entry of a die that is free (R217). -/
def State.freeEntry (s : State) (die : Nat) : Option Nat :=
  (List.range 4096).find? (fun k => !s.receives.any (fun r => r.die = die && r.entry = k))

/-- The handle of a receive (R217). -/
def Receive.handle (r : Receive) : Word := BitVec.ofNat 64 (r.entry + r.die * 2 ^ 12 + r.gen % 2 ^ 32 * 2 ^ 16)

/-- MPOST in either form (R217): the search and the posting are one step. -/
def Env.mpost (env : Env) (r : RRR) (red : Option Nat) : Res :=
  let d := env.w.tdesc r.a.toNat
  let match_ := env.s r.b
  let mask := env.s r.c
  let ctl := (env.w.readS (r.c.toNat + 1)).toNat
  let n := natBits ctl 31 16
  let die := widDie env.w.wid
  let bad := ctl / 2 ^ 32 ≠ 0 || (match red with | none => n ≠ 0 | some _ => n = 0 || mask.toNat % 2 ^ 32 ≠ 0)
  if bad then env.wordTrap .illegalOperand
  else match env.checkDesc d [0] with
  | some x => x
  | none =>
    match env.dev.freeEntry die with
    | none => env.trapE .msgPostfull 0
    | some k =>
      let v : Receive :=
        { die := die, entry := k, gen := env.ctx.rxGen, ctx := env.ctx.id, rxid := env.ctx.p.rxid, q := env.w.q, blk := env.w.blk
          cl := env.cl, td := d, slot := smGet 0 env.w.slots (dFmt d), mword := match_, mask := mask, mctx := ctl % 2 ^ 16
          red := red.map (fun op => (op, n)), order := env.dev.rxGen, open_ := true, msg := none, taken := [], landed := 0
          tag := 0, status := 0, done := false }
      let dev := { env.dev with receives := env.dev.receives ++ [v], rxGen := env.dev.rxGen + 1 }
      let dev := (dev.search die k (dev.searchList die)).settleQueue die env.ctx.p.rxid
      .done { env with dev := dev, ctx := { env.ctx with rxGen := env.ctx.rxGen + 1 }, w := env.w.writeS r.d.toNat v.handle }

/-- MPOST (R217). -/
def execMpost (r : RRR) (s : State) : Host.Outcome State Fault Refusal :=
  issue (.mpost r) (.message r false) s (fun env =>
    env.mpost r (if r.x.toNat.testBit 0 then some (r.x.toNat / 2) else none))

/-! ### Landing -/

/-- The seat from which a receive's window is written: its engine's die, the posting cluster, and the scratchpad of its
block. -/
def Receive.seat (r : Receive) (b : Option Block) : Seat :=
  match b with
  | some b => { die := r.die, cl := r.cl, core := b.core, spBase := b.spBase, spSize := b.spSize }
  | none => { die := r.die, cl := r.cl, core := 0, spBase := 0, spSize := 0 }

/-- Marks the granule of n bytes that holds a byte as being in error, unless it lies in one that is (R269). -/
def markGranule (ps : List Nat) (k n : Nat) : List Nat :=
  let g := k / n * n
  if ps.any (fun p => p / 64 ≤ g && g + n ≤ p / 64 + p % 64) then ps
  else ps.filter (fun p => !(g ≤ p / 64 && p / 64 + p % 64 ≤ g + n)) ++ [g * 64 + n]

/-- Marks the granules of bytes as holding an uncorrectable error (R269). -/
def State.poisonKeys (s : State) (ks : List Nat) : State :=
  { s with poison := ks.foldl (fun ps k => markGranule ps k (if keySpace k < 0x100 then 32 else 16)) s.poison }

/-- Where element k of a payload goes in a window, and where header j does (R218). -/
def Window.slotOf (w : Window) (k : Nat) : Int := w.elem (k / w.cols) (k % w.cols)
/-- The place of header j of a payload. -/
def Window.headOf (w : Window) (j : Nat) : Int := w.header (32 * j / w.cols) (32 * j % w.cols)

/-- Writes codes and headers into a window once every page of it translates (R330) and no store that is released for the die is on its way
there (R273): the state, the pieces of each run, and how it ends. -/
def landWindow (s : State) (x : Context) (e : Seat) (w : Window) (codes : List Nat) (heads : List Word) :
    State × List (List Piece) × Hit :=
  let all := w.payloadRuns.map (fun q => engPieces s x e w.space w.place true q.1 q.2)
  match (if s.shielded x 4 (e.die * 128) (all.flatMap (fun q => q.1)) then Hit.wait else firstBad (all.map (fun q => q.2))) with
  | .ok _ =>
    let puts := codes.zipIdx.map (fun q => ({ pos := w.slotOf q.2, len := w.f.width, v := q.1 } : Put)) ++
      heads.zipIdx.map (fun q => ({ pos := w.headOf q.2, len := 64, v := q.1.toNat } : Put))
    let ps := puts.map (fun p => (engPieces s x e w.space w.place true p.pos p.len).1)
    ((engWriteAll (touchWindow s x e w true) x e w.space w.place puts).1, ps, .ok 0)
  | h => (s, [], h)

/-- Sets the outcome of a receive (R218). -/
def State.finishReceive (s : State) (r : Receive) (status landed : Nat) : State :=
  { s with receives := s.receives.map (fun y =>
      if y.die = r.die && y.entry = r.entry then { y with status := status, landed := landed, done := true, open_ := false }
      else y) }

/-- A landing fault (R330): the messages go to the queue, flagged, and the driver is told the faulting address. -/
def State.landfault (s : State) (r : Receive) (hs : List Held) (addr : Int) : State :=
  let s := s.finishReceive r 3 0
  let ids := hs.map (fun h => h.id)
  { s with
    held := s.held.filter (fun h => !ids.contains h.id) ++
              hs.map (fun h => { h with queued := false, landfault := true, receive := none })
    driverLog := s.driverLog ++ [wordInt addr] }

/-- The first byte of a window at which its landing fails (R330). -/
def faultAt (s : State) (x : Context) (e : Seat) (w : Window) : Int :=
  let one (q : Int × Nat) : Option Int :=
    let z := engPieces s x e w.space w.place true q.1 q.2
    match z.2 with
    | .fail _ _ => some (q.1 / 8 + (z.1.length : Int))
    | _ => none
  (w.payloadRuns.findSome? one).getD w.base

/-- Records the errors that landed with a message of another package, one for each granule (R269, R349); those of this package were
recorded as its payload was read. -/
def State.noteLanded (s : State) (keys : List Nat) : State :=
  ((keys.map (fun k => let n := if keySpace k < 0x100 then 32 else 16; k / n * n)).eraseDups).foldl
    (fun (s : State) k => s.record (badRecord 0x02 k).1 (badRecord 0x02 k).2) s

/-- The landing of a whole message in a receive other than .red (R218, R269). -/
def landOne (s : State) (x : Context) (r : Receive) (h : Held) : State :=
  let w := windowOf r.td r.slot 0
  let m := h.msg
  let gone : State := { s with held := s.held.filter (fun y => y.id ≠ h.id) }
  let n := min m.codes.length (w.rows * w.cols)
  if m.width ≠ w.f.width || m.blk ≠ w.f.isBlk then gone.finishReceive r 2 0
  else
    let z := landWindow gone x (r.seat (x.block? r.blk)) w (m.codes.take n) (m.heads.take ((n + 31) / 32))
    match z.2.2 with
    | .wait => s
    | .fail n ks => (s.noteFails [.fail n ks]).landfault r [h] (faultAt gone x (r.seat (x.block? r.blk)) w)
    | .ok _ =>
      let at_ (i : Nat) : Option Nat := if i < m.codes.length then (if i < n then some i else none) else some (i - m.codes.length + n)
      let hit := m.bad.filterMap at_
      let keys := hit.flatMap (fun i => (z.2.1.getD i []).map (fun p => p.pos / 8))
      let status := if hit ≠ [] then 5 else if w.rows * w.cols < m.codes.length then 1 else 0
      let t := z.1.poisonKeys keys
      (if m.srcPkg = 0xFF then t else t.noteLanded keys).finishReceive r status n

/-- Combines two codes of an element of a .red receive (R76, R219): the value, the code and whether it was invalid. The sign
for a zero is that of the left code (R64; log entry 66). -/
def redCombine (f : Fmt) (op : Nat) (header : Word) (a b : Val × Nat × Bool) : Val × Nat × Bool :=
  let v := reduceOp op f.engineRm a.1 b.1
  let v := if f.isBlk then Val.div v (headerScale header) else v
  let c := f.encodeEngine v f.engineRm (f.signBit a.2.1)
  (if f.isBlk then Val.mul (headerScale header) (f.decode c.1) else f.decode c.1, c.1, a.2.2 || b.2.2 || c.2)

/-- The value of a node of the tree of R76 over n ranks, where absent ranks pass on their children's values (R332). -/
def redTree (comb : Val × Nat × Bool → Val × Nat × Bool → Val × Nat × Bool) (leaf : Nat → Option (Val × Nat × Bool)) (n : Nat) :
    Nat → Nat → Option (Val × Nat × Bool)
  | 0, _ => none
  | fuel + 1, k =>
    if n ≤ k then none
    else
      let join (a b : Option (Val × Nat × Bool)) : Option (Val × Nat × Bool) :=
        match a, b with
        | some a, some b => some (comb a b)
        | some a, none => some a
        | none, b => b
      join (join (leaf k) (redTree comb leaf n fuel (2 * k + 1))) (redTree comb leaf n fuel (2 * k + 2))

/-- The end of a .red receive that has every contribution (R218, R219, R332). -/
def landRed (s : State) (x : Context) (r : Receive) (op n : Nat) : State :=
  let w := windowOf r.td r.slot 0
  let f := w.f
  let cells := w.rows * w.cols
  let fits (m : Msg) : Bool := m.codes.length = cells && m.width = f.width && m.blk = f.isBlk
  let part := r.taken.filter (fun q => fits q.2 && q.2.bad.isEmpty)
  let headsOf : List Word :=
    match part.foldl (fun b q => match b with
        | none => some q
        | some y => if q.1 < y.1 then some q else some y) (none : Option (Nat × Msg)) with
    | some q => q.2.heads
    | none => []
  let leaf (i k : Nat) : Option (Val × Nat × Bool) :=
    (part.find? (fun q => q.1 = k)).map (fun q =>
      let c := q.2.codes.getD i 0
      (f.valueOf (q.2.heads.getD (i / 32) 0) c, c, false))
  let elem (i : Nat) := redTree (redCombine f op (headsOf.getD (i / 32) 0)) (leaf i) n 18 0
  let res := (List.range cells).map elem
  let invalid := res.any (fun v => match v with | some v => v.2.2 | none => false)
  let status :=
    if r.taken.any (fun q => !q.2.bad.isEmpty) then 5
    else if r.taken.any (fun q => !fits q.2) then 4 else if invalid then 6 else 0
  let s := (r.taken.filter (fun q => !q.2.bad.isEmpty && q.2.srcPkg ≠ 0xFF)).foldl (fun (s : State) _ =>
    s.record (srcWord 0x02 0x01 (BitVec.ofNat 8 r.die) 0 0) 0) s
  if part.isEmpty then s.finishReceive r status 0
  else
    let z := landWindow s x (r.seat (x.block? r.blk)) w (res.map (fun v => match v with | some v => v.2.1 | none => 0)) headsOf
    match z.2.2 with
    | .wait => s
    | .fail n ks =>
      let s := s.noteFails [.fail n ks]
      let back := r.taken.zipIdx.map (fun q =>
        ({ id := s.nextId + q.2, die := r.die, msg := q.1.2, pieces := msgPieces q.1.2, arrived := msgPieces q.1.2
           landed := msgPieces q.1.2, queued := false, landfault := false, receive := none } : Held))
      { s with nextId := s.nextId + r.taken.length }.landfault r back (faultAt s x (r.seat (x.block? r.blk)) w)
    | .ok _ => z.1.finishReceive r status cells

/-- Completes a .red receive that has every contribution: those still in their slots leave them. A landing that must wait changes
nothing (R330). -/
def State.settleRed (s : State) (x : Context) (r : Receive) : State :=
  match r.red with
  | none => s
  | some (op, n) =>
    let mine (h : Held) : Bool := h.receive = some (r.die, r.entry)
    let t : State := { s with held := s.held.filter (fun h => !mine h) }
    let t := (s.held.filter mine).foldl (fun t h => t.returnSlots h.die h.msg.srcPkg h.inSlots) t
    let t := landRed t x r op n
    if t.receives.any (fun y => y.die = r.die && y.entry = r.entry && y.done) then t.settleQueue r.die r.rxid else s

/-- The next piece of a message of another package reaches its die, once its source has a slot there (R325, R326). -/
def State.nextPiece (s : State) (h : Held) : State :=
  if h.msg.srcPkg = 0xFF || h.pieces ≤ h.arrived || 16 ≤ s.slotsOf h.die h.msg.srcPkg then s
  else { s with held := s.held.map (fun (y : Held) => if y.id = h.id then { y with arrived := y.arrived + 1 } else y) }.takeSlots h.die h.msg.srcPkg 1

/-- PIECE_LAND (R329, R330, R332, R339): one piece leaves its slot; with the last one a message lands, or a contribution
stands ready to be combined. The next piece of a message of another package follows. -/
def execPieceLand (die id : Nat) (s : State) : Host.Outcome State Fault Refusal :=
  .next (match s.held.find? (fun h => h.id = id && h.die = die) with
  | none => s
  | some h =>
    match h.receive.bind (fun q => s.receives.find? (fun r => r.die = q.1 && r.entry = q.2)) with
    | none => s
    | some r =>
      match s.ctx? r.ctx with
      | none => s
      | some x =>
        if !s.rdy.getLsbD (32 + die) || !r.mayLand x then s
        else if s.redReady r then s.settleRed x r
        else if r.red.isSome && !s.stageRoom x r h then s.nextPiece h
        else
          let step := h.landed < h.arrived
          let h' := if step then { h with landed := h.landed + 1 } else h
          let s' := { s with held := s.held.map (fun y => if y.id = id then h' else y) }
          let s' := if step then s'.returnSlots die h.msg.srcPkg 1 else s'
          if h'.landed < h'.pieces then s'.nextPiece h'
          else if r.red.isSome then { s' with held := s'.held.filter (fun y => y.id ≠ id) }.settleQueue r.die r.rxid
          else landOne s' x r h')

/-! ### MTEST, MPROBE, MCANCEL -/

/-- Owes a uniform result to the issuing warp (R89). -/
def Env.oweS (env : Env) (d : BitVec 8) (v : Word) : Env :=
  let t := env.destS d.toNat
  ({ env with w := env.w.markDest t, ctx := env.ctx.owe env.id env.w.uid t v none }.bump)

/-- The receive that a handle names; none where it is malformed, names another die, or is not outstanding (R220). -/
def Env.receive (env : Env) (h : Word) : Option Receive :=
  let n := h.toNat
  if natBits n 63 48 ≠ 0 || natBits n 15 14 ≠ 0 || natBits n 13 12 ≠ widDie env.w.wid then none
  else env.dev.receives.find? (fun r =>
    r.die = natBits n 13 12 && r.entry = natBits n 11 0 && r.gen % 2 ^ 32 = natBits n 47 16 && r.rxid = env.ctx.p.rxid)

/-- Retires a receive. -/
def State.retire (s : State) (r : Receive) : State :=
  { s with receives := s.receives.filter (fun y => !(y.die = r.die && y.entry = r.entry)) }

/-- MTEST (R220): an acquire at package scope, and the end of the receive, where it is done. Before it is done the spec gives
no STATUS, nor a tag before a match: those bits are free values (log entry 5). -/
def execMtest (r : RRR) (s : State) : Host.Outcome State Fault Refusal :=
  issue (.mtest r) .plain s (fun env =>
    match env.receive (env.s r.a) with
    | none => env.trapE .msgHandle (env.s r.a)
    | some v =>
      let free := (Config.freeWord env.dev.freeCount).toNat
      let status := if v.done then v.status else natBits free 62 60
      let tag := if v.red.isSome then 0 else if v.done || v.msg.isSome then v.tag.toNat else natBits free 31 0
      let word := (if v.done then 2 ^ 63 else 0) + status * 2 ^ 60 + v.landed % 2 ^ 28 * 2 ^ 32 + tag
      let env : Env := { env with dev := { env.dev with freeCount := env.dev.freeCount + 1 } }
      let env : Env := if v.done then { env.acquire 5 with dev := (env.acquire 5).dev.retire v } else env
      .done (env.oweS r.d (BitVec.ofNat 64 word)))

/-- MPROBE (R220). -/
def execMprobe (r : RRR) (s : State) : Host.Outcome State Fault Refusal :=
  issue (.mprobe r) .plain s (fun env =>
    let ctl := (env.w.readS (r.c.toNat + 1)).toNat
    let die := widDie env.w.wid
    let like : Receive :=
      { die := die, entry := 0, gen := 0, ctx := env.ctx.id, rxid := env.ctx.p.rxid, q := 0, blk := 0, cl := 0, td := 0, slot := 0
        mword := env.s r.b, mask := env.s r.c, mctx := ctl % 2 ^ 16, red := none, order := 0, open_ := true, msg := none
        taken := [], landed := 0, tag := 0, status := 0, done := false }
    if ctl / 2 ^ 16 ≠ 0 then env.wordTrap .illegalOperand
    else
      let found := (env.dev.held.filter (fun h => h.die = die && h.queued)).find? (fun h => like.accepts h.msg)
      let word := match found with
        | none => 0
        | some h => 2 ^ 63 + h.msg.src.toNat % 2 ^ 24 * 2 ^ 32 + h.msg.tag.toNat
      .done (env.oweS r.d (BitVec.ofNat 64 word)))

/-- MCANCEL (R220). -/
def execMcancel (r : RRR) (s : State) : Host.Outcome State Fault Refusal :=
  issue (.mcancel r) .plain s (fun env =>
    match env.receive (env.s r.a) with
    | none => env.trapE .msgHandle (env.s r.a)
    | some v =>
      let free := v.msg.isNone && v.taken.isEmpty && !v.done
      .done { env with
        dev := if free then env.dev.retire v else env.dev
        w := env.w.setPred r.d.toNat env.e.mask (if free then BitVec.allOnes 32 else 0) })

/-- LANDFAULT_ENTRY_FREE (R330). -/
def execLandfaultEntryFree (die id : Nat) (s : State) : Host.Outcome State Fault Refusal :=
  .next (match s.held.find? (fun h => h.die = die && h.id = id && h.landfault) with
  | none => s
  | some h => { s with held := s.held.filter (fun y => y.id ≠ id) }.settleQueue die h.msg.rxid)

/-! ### ASEND -/

/-- Payload word k of an ASEND is register A + (k mod 4) of lane k / 4 (R221). -/
def asendWord (w : Warp) (a k : Nat) : Word := w.readV (a + k % 4) (k / 4)

/-- ASEND's sources (R90, R221): the words of its payload, whatever their lane's state; word 0 whatever B is. -/
def asendOpts (r : RRR) : Opts :=
  { Opts.resets with
    lanes := fun env f => if f = .A then BitVec.allOnes 32 else env.e.mask
    reads := fun env k t => t * 4 + k ≤ (if env.w.smark r.b.toNat = .full then natBits (env.s r.b).toNat 24 20 else 0) }

/-- ASEND (R221, R326): its registers are read whatever their lane's state, and it holds its warp no longer. -/
def execAsend (r : RRR) (s : State) : Host.Outcome State Fault Refusal :=
  issue (.asend r) (asendOpts r) s (fun env =>
    let b := (env.s r.b).toNat
    let num := env.blockNum
    let pkg := natBits b 15 8
    let die := (widDie env.w.wid + natBits b 17 16) % 4
    let hcnt := match env.ctx.launch? env.w.q with
      | some l => l.handlers.length
      | none => 0
    if env.acquiring then .hold (.retrySources [])
    else if natBits b 63 25 ≠ 0 || natBits b 19 18 ≠ 0 || (pkg ≠ 0xFF && env.dev.pod.isNone) then env.wordTrap .illegalOperand
    else if 2 ^ 24 ≤ num then env.trapE .msgRank (BitVec.ofNat 64 num)
    else if hcnt ≤ b % 256 then env.trapE .msgHandler (env.s r.b)
    else
      let far := env.dev.pkgOf pkg
      let key := far * 4 + die
      let m : ActiveMsg :=
        { ctx := env.ctx.id, q := if far = 0xFF then some env.w.q else none, rxid := env.ctx.p.rxid, src := env.rank num
          wblk := env.w.wblk, sent := smGet 0 env.w.sends key, handler := b % 256
          words := (List.range (natBits b 24 20 + 1)).map (asendWord env.w r.a.toNat) }
      let z : Sending :=
        { id := env.id, ctx := env.ctx.id, uid := env.w.uid, pkg := far, die := die, msg := none, active := some m, pieces := 1
          granted := 0, matched := false }
      .done ({ env with
        dev := { env.dev with sending := env.dev.sending ++ [z] }
        w := { env.w with sends := smPut 0 env.w.sends key (smGet 0 env.w.sends key + 1) } }.bump))

end Sys2Proof.Machine
end

