-- ==== Sys2Proof/Machine/Record.lean ====
section
/-! DEFINITION. The launch record, the hierarchy it declares, and where its blocks go (R20, R25 to R27, R291, R292, R296, R297,
R299, R302). -/

namespace Sys2Proof.Machine

/-! ### The record -/

/-- Word i of a record read as one number (R3, R291). -/
def recWord (r i : Nat) : Nat := natBits r (64 * i + 63) (64 * i)
/-- 32-bit descriptor i of a record: LEVELk is 4 + k, STAGEk is 14 + k (R291). -/
def recHalf (r i : Nat) : Nat := natBits r (32 * i + 31) (32 * i)

/-- The fields that must be zero (R291). -/
def recZeros (r : Nat) : Bool :=
  let z (w hi lo : Nat) : Bool := natBits (recWord r w) hi lo = 0
  z 0 62 57 && z 0 2 0 && z 1 47 45 && z 1 39 38 && z 1 31 28 && z 1 23 22 && z 1 19 19 && z 1 7 4 && z 6 63 50 &&
    z 6 23 17 && z 6 11 9 && z 9 63 57 && z 9 6 0 && z 10 2 0 && z 11 63 57 && z 11 2 0 && z 14 63 0 && z 15 63 0

/-- A level descriptor as count, domain and scope; its codes run from 0 lane or thread to 6 pod (R291). -/
def levelOf (v : Nat) : Nat × Nat × Nat := (natBits v 15 0, natBits v 18 16, natBits v 21 19)

/-- The fields of a record (R291). -/
def recOf (r : Nat) : Rec :=
  let ctrl := recWord r 1
  let res := recWord r 6
  { kind := (recWord r 0).testBit 63, entry := natBits (recWord r 0) 56 0, fmask := natBits ctrl 63 48
    nbc := natBits ctrl 44 40, nbar := natBits ctrl 37 32, tpri := natBits ctrl 27 24, tclass := natBits ctrl 21 20
    nstg := natBits ctrl 18 16, prio := natBits ctrl 15 8
    levels := (List.range (min 8 (natBits ctrl 3 0))).map (fun k => levelOf (recHalf r (4 + k)))
    scr := natBits res 49 32, acc := natBits res 31 24, tdn := natBits res 16 12, regs := natBits res 8 0
    stages := (List.range 4).map (fun k =>
      (natBits (recHalf r (14 + k)) 28 24, signedOf 24 (natBits (recHalf r (14 + k)) 23 0)))
    ftab := natBits (recWord r 9) 56 0, hcnt := natBits (recWord r 10) 63 57, htab := natBits (recWord r 10) 56 0
    cpl := natBits (recWord r 11) 56 0, arg0 := BitVec.ofNat 64 (recWord r 12), arg1 := BitVec.ofNat 64 (recWord r 13) }

/-- The completion word that a record names, when its CPL word keeps its layout and is not 0 (R295). -/
def recCpl (r : Nat) : Option Nat :=
  let v := recWord r 11
  if natBits v 63 57 = 0 && natBits v 2 0 = 0 && v ≠ 0 then some v else none

/-! ### The hierarchy -/

/-- The count of a level (R25). -/
def Rec.count (r : Rec) (k : Nat) : Nat := (r.levels.getD k (1, 0, 0)).1
/-- The domain of a level (R25). -/
def Rec.domain (r : Rec) (k : Nat) : Nat := (r.levels.getD k (1, 0, 0)).2.1
/-- The product of the counts of levels lo up to, and not including, hi. -/
def Rec.span (r : Rec) (lo hi : Nat) : Nat := (List.range hi).foldl (fun n k => if k < lo then n else n * r.count k) 1
/-- The product of the counts of the levels that satisfy a test. -/
def Rec.product (r : Rec) (p : Nat → Bool) : Nat :=
  (List.range r.levels.length).foldl (fun n k => if p k then n * r.count k else n) 1
/-- The first level that satisfies a test of its domain; the number of levels where none does. -/
def Rec.firstLevel (r : Rec) (p : Nat → Bool) : Nat :=
  ((List.range r.levels.length).find? (fun k => p (r.domain k))).getD r.levels.length
/-- The block: the outermost level bound to core (R26). -/
def Rec.block (r : Rec) : Nat := r.firstLevel (fun d => d = 2)
/-- Warps in a block (R26). -/
def Rec.warps (r : Rec) : Nat := r.product (fun k => r.block < k && (r.domain k = 1 || r.domain k = 2))
/-- Live lanes in a warp (R26, R29). -/
def Rec.lanes (r : Rec) : Nat := r.product (fun k => r.domain k = 0)
/-- Blocks inside one member of a level (R25). -/
def Rec.per (r : Rec) (k : Nat) : Nat := r.span (k + 1) (r.block + 1)
/-- The outermost level whose domain is die, cluster or core (R296). -/
def Rec.outer (r : Rec) : Nat := r.firstLevel (fun d => d ≤ 4)
/-- The outermost level bound to cluster, when there is one (R297). -/
def Rec.cluster (r : Rec) : Option Nat := (List.range r.levels.length).find? (fun k => r.domain k = 3)
/-- DEPTH of a stage (R291). -/
def Rec.depth (r : Rec) (k : Nat) : Nat := (r.stages.getD k (0, 0)).1

/-- Points 1 to 5 of R26. -/
def Rec.hierarchyOk (r : Rec) : Bool :=
  let n := r.levels.length
  let has (d : Nat) : Bool := r.levels.any (fun l => l.2.1 = d)
  (List.range n).all (fun k => k = 0 || r.domain k ≤ r.domain (k - 1)) && r.domain (n - 1) = 0 && has 1 && has 2 &&
    r.levels.all (fun l => l.2.1 ≤ l.2.2) && r.lanes ≤ 32 && r.warps ≤ 32

/-- The stage descriptors (R291, R292): a stage beyond NSTG has none. -/
def Rec.stagesOk (r : Rec) : Bool :=
  (r.nstg = 0 || (2 ≤ r.nstg && r.nstg ≤ 4)) &&
    (List.range 4).all (fun k =>
      if 1 ≤ k && k < r.nstg then 4 ≤ r.depth k && r.depth k ≤ 16 && r.warps * r.lanes ≤ 2 ^ r.depth k
      else r.stages.getD k (0, 0) = (0, 0))

/-- A record that R291, R292 and points 1 to 5 of R26 accept. -/
def recOk (v : Nat) : Bool :=
  let r := recOf v
  let nlev := natBits (recWord v 1) 3 0
  recZeros v && 3 ≤ nlev && nlev ≤ 8 && r.nbc ≤ 16 && r.nbar ≤ 64 &&
    (List.range 8).all (fun k =>
      let h := recHalf v (4 + k)
      if k < nlev then natBits h 31 22 = 0 && natBits h 15 0 ≠ 0 && natBits h 18 16 ≠ 7 && natBits h 21 19 ≠ 7
      else h = 0) &&
    (List.range 4).all (fun k => natBits (recHalf v (14 + k)) 31 29 = 0) &&
    r.scr % 128 = 0 && r.scr ≤ 229376 && r.tdn % 4 = 0 && r.tdn ≤ 16 && r.regs % 8 = 0 && 8 ≤ r.regs && r.regs ≤ 256 &&
    r.hierarchyOk && r.stagesOk

/-! ### Dies and cores -/

/-- The clusters of the partition of a die in ascending order, as numbers in the package (R9, R20). -/
def Context.clusters (x : Context) (die : Nat) : List Nat :=
  (List.range (x.p.y1 + 1 - x.p.y0)).flatMap (fun dy =>
    (List.range (x.p.x1 + 1 - x.p.x0)).map (fun dx => die * 64 + 8 * (x.p.y0 + dy) + (x.p.x0 + dx)))
/-- The cores of the partition of a die in cluster-then-core order, as numbers in the package. -/
def Context.cores (x : Context) (die : Nat) : List Nat := (x.clusters die).flatMap (fun c => [2 * c, 2 * c + 1])

/-- The die of a block (R296). -/
def Rec.dieOf (r : Rec) (x : Context) (q b : Nat) : Nat :=
  let n := x.p.dies.length
  x.p.dies.getD ((b / r.per r.outer + q) % n) 0
/-- The blocks of a level-0 member that a die runs, in ascending order (R296). -/
def Rec.share (r : Rec) (x : Context) (q die m : Nat) : List Nat :=
  ((List.range (r.per 0)).map (fun j => m * r.per 0 + j)).filter (fun b => r.dieOf x q b = die)
/-- The shares of a launch, as (die, level-0 member) in the order of R297 on each die. -/
def Rec.shares (r : Rec) (x : Context) (q : Nat) : List (Nat × Nat) :=
  (List.range (r.count 0)).flatMap (fun m =>
    (x.p.dies.filter (fun d => r.share x q d m ≠ [])).map (fun d => (d, m)))

/-- The first assignment of the cores of a die to stages (R302); cores not listed serve stage 0. -/
def Rec.firstStages (r : Rec) (x : Context) : SMap Nat :=
  x.p.dies.foldl (fun m die =>
    let cs := (x.cores die).reverse
    (List.range (r.nstg - 1)).foldl (fun m j => smPut 0 m (cs.getD (r.nstg - 2 - j) 0) (r.nstg - 1 - j)) m) []

/-! ### Room in a core -/

/-- What a core holds: slots taken as partition · 8 + slot, vector registers taken in each partition, scratchpad ranges. -/
structure Room where
  core : Nat
  slots : List Nat
  regs : List Nat
  sp : List (Nat × Nat)
  deriving DecidableEq, Repr

/-- A core that holds nothing. -/
def Room.empty (core : Nat) : Room := { core := core, slots := [], regs := [0, 0, 0, 0], sp := [] }

/-- The vector registers taken in a partition (R46, R267); wid / 8 numbers the partition. -/
def Context.regsUsed (x : Context) (part : Nat) : Nat :=
  (x.warps.filter (fun w => w.wid / 8 = part && !x.isOut w.blk)).foldl (fun n w => n + w.nregs) 0

/-- What a core holds now. -/
def Context.room (x : Context) (core : Nat) : Room :=
  { core := core
    slots := (x.warps.filter (fun w => widCoreNo w.wid = core)).map (fun w => w.wid % 32)
    regs := (List.range 4).map (fun p => x.regsUsed (core * 4 + p))
    sp := (x.blocks.filter (fun b => b.core = core && b.swapped.isNone)).map (fun b => (b.spBase, b.spSize)) }

/-- The lowest free slot of a partition that has room for a warp's registers (R46, R297). -/
def Room.part (r : Room) (regs p : Nat) : Option Nat :=
  if 384 < r.regs.getD p 0 + regs then none
  else ((List.range 8).map (fun k => p * 8 + k)).find? (fun k => !r.slots.contains k)

/-- Places n warps round-robin from a partition on (R297): the room left and their slots. -/
def Room.placeWarps (regs : Nat) : Nat → Nat → Room → Option (Room × List Nat)
  | 0, _, r => some (r, [])
  | n + 1, p, r =>
    match (List.range 4).findSome? (fun j => (r.part regs ((p + j) % 4)).map (fun k => ((p + j) % 4, k))) with
    | none => none
    | some (q, k) =>
      let r' := { r with slots := k :: r.slots, regs := r.regs.set q (r.regs.getD q 0 + regs) }
      (Room.placeWarps regs n (q + 1) r').map (fun z => (z.1, k :: z.2))

/-- The lowest contiguous free range of scratchpad (R253). -/
def Room.scratch (r : Room) (total size : Nat) : Option Nat :=
  let ok (a : Nat) : Bool := a + size ≤ total && r.sp.all (fun q => a + size ≤ q.1 || q.1 + q.2 ≤ a || q.2 = 0)
  let cands := (0 :: r.sp.map (fun q => q.1 + q.2)).filter ok
  cands.foldl (fun b a => match b with | none => some a | some y => some (min a y)) none

/-- A block placed: its number, core, warp slots and scratchpad base. -/
structure Placed where
  num : Nat
  core : Nat
  slots : List Nat
  base : Nat
  deriving DecidableEq, Repr

/-- Places one block in a core (R297). -/
def Rec.placeIn (r : Rec) (x : Context) (num warps scr : Nat) (room : Room) : Option (Room × Placed) :=
  match Room.placeWarps r.regs warps 0 room, room.scratch (x.p.spk * 32768) scr with
  | some z, some a =>
    some ({ z.1 with sp := z.1.sp ++ [(a, scr)] }, { num := num, core := room.core, slots := z.2, base := a })
  | _, _ => none

/-- A placement being made: rooms, the blocks placed, and the cores taken by the blocks of a parent member (R27). -/
structure Trial where
  rooms : List Room
  out : List Placed
  used : List (Nat × Nat)

/-- The member of the level above the block's, which keeps its blocks in distinct cores (R27); none for an ordinary grid. -/
def Rec.parent (r : Rec) (b : Nat) : Option Nat := if r.block = 0 then none else some (b / r.per (r.block - 1))

/-- Places one block of the hierarchy in the first of some cores that may hold it (R297). -/
def Trial.add (t : Trial) (r : Rec) (x : Context) (cores : List Nat) (b : Nat) : Option Trial :=
  let free (core : Nat) : Bool :=
    match r.parent b with
    | some m => !t.used.contains (m, core)
    | none => true
  (t.rooms.filter (fun y => cores.contains y.core && free y.core)).findSome? (fun y =>
    (r.placeIn x b r.warps r.scr y).map (fun z =>
      { rooms := t.rooms.map (fun k => if k.core = y.core then z.1 else k), out := t.out ++ [z.2]
        used := match r.parent b with
          | some m => (m, y.core) :: t.used
          | none => t.used }))

/-- Places blocks in turn. -/
def Trial.addAll (r : Rec) (x : Context) (cores : List Nat) : List Nat → Trial → Option Trial
  | [], t => some t
  | b :: bs, t => (t.add r x cores b).bind (Trial.addAll r x cores bs)

/-- Places cluster members in turn, each whole in the lowest cluster that no other member of its parent holds (R27, R297). -/
def Trial.addClusters (r : Rec) (x : Context) (k : Nat) (clusters blocks : List Nat) :
    List Nat → List (Nat × Nat) → Trial → Option Trial
  | [], _, t => some t
  | m :: ms, held, t =>
    let parent := m / r.count k
    let mine := blocks.filter (fun b => b / r.per k = m)
    let tryIn (c : Nat) : Option (Nat × Trial) :=
      if 1 ≤ k && held.contains (parent, c) then none
      else (Trial.addAll r x [2 * c, 2 * c + 1] mine t).map (fun z => (c, z))
    match clusters.findSome? tryIn with
    | none => none
    | some (c, t') => Trial.addClusters r x k clusters blocks ms ((parent, c) :: held) t'

/-- Places a share of blocks on a die, given what its cores hold (R27, R297). -/
def Rec.place (r : Rec) (x : Context) (die : Nat) (rooms : List Room) (blocks : List Nat) : Option (List Placed) :=
  let t : Trial := { rooms := rooms, out := [], used := [] }
  let done : Option Trial := match r.cluster with
    | some k => Trial.addClusters r x k (x.clusters die) blocks ((blocks.map (fun b => b / r.per k)).eraseDups) [] t
    | none => Trial.addAll r x (rooms.map (fun (y : Room) => y.core)) blocks t
  done.map (fun z => z.out)

/-- The cores of a die that serve a stage of a launch (R302). -/
def Context.coresOf (x : Context) (stageOf : SMap Nat) (die stage : Nat) : List Nat :=
  (x.cores die).filter (fun c => smGet 0 stageOf c = stage)

/-- A share placed in what a die holds now. -/
def Launch.place (l : Launch) (x : Context) (die m : Nat) : Option (List Placed) :=
  l.rcd.place x die ((x.coresOf l.stageOf die 0).map x.room) (l.rcd.share x l.q die m)

/-- Places one block in the first of some cores that has room (R297, R300). -/
def Rec.placeOne (r : Rec) (x : Context) (cores : List Nat) (warps scr : Nat) : Option Placed :=
  cores.findSome? (fun c => (r.placeIn x 0 warps scr (x.room c)).map (fun z => z.2))

/-! ### The fit -/

/-- Point 6 of R26 and the LAUNCH_FIT row of R292, with R296, R299, R304 and R356. Accumulator slots are counted over all clusters of a
member's unit together (log entry 32). -/
def Rec.fits (r : Rec) (s : State) (x : Context) (q : Nat) : Bool :=
  let dies := x.p.dies.length
  let cl := (x.clusters 0).length
  let n := r.levels.length
  let levels (p : Nat → Bool) : Bool := (List.range n).all p
  let unit (d : Nat) : Nat := if d = 3 then 1 else if d = 4 then cl else cl * dies
  let stageOf := r.firstStages x
  let stageCores (d : Nat) : List Room := (x.coresOf stageOf d 0).map Room.empty
  r.nbar ≤ x.p.nb && r.nbc ≤ x.p.nc && x.p.dies.all (fun d => s.rdy.getLsbD (12 + d)) && r.nstg ≤ 2 * cl &&
    r.queueBytes ≤ x.vaultSize (8 * x.p.y0 + x.p.x0) &&
    levels (fun k => k = 0 || r.domain k ≠ 5 || r.domain (k - 1) ≠ 6 || r.count k ≤ 1) &&
    levels (fun k => k = 0 || r.domain k ≠ 4 || r.domain (k - 1) ≤ 4 || r.count k ≤ dies) &&
    levels (fun k => r.domain k < 3 || r.acc * r.per k ≤ 64 * unit (r.domain k)) &&
    (r.placeIn x 0 r.warps r.scr (Room.empty 0)).isSome &&
    x.p.dies.all (fun d => (r.place x d (stageCores d) (r.share x q d 0)).isSome)

end Sys2Proof.Machine
end

