-- ==== Sys2Proof/Machine/Launch.lean ====
section
/-! DEFINITION. Launches from submission to completion: LAUNCH, the sequencer, refusals, dispatch, pipeline stages, handler
blocks and the completion word (R29, R66, R100 to R104, R221, R227, R253, R291 to R302, R333, R343 to R348, R356, R358). -/

namespace Sys2Proof.Machine

/-! ### Submission -/

/-- The launch unit of a context stands with its lowest-numbered die (R293). -/
def Context.launchSeat (x : Context) : Seat :=
  let cl := x.p.dies.headD 0 * 64 + 8 * x.p.y0 + x.p.x0
  { die := x.p.dies.headD 0, cl := cl, core := 2 * cl, spBase := 0, spSize := 0 }

/-- LAUNCH's checks and counts (R33, R43). -/
def Opts.launch : Opts := { Opts.plain with whole := true, reset := true }

/-- LAUNCH (R227): the record's address is checked, the warp's writes are released, and D waits for the answer. -/
def execLaunch (r : RRR) (s : State) : Host.Outcome State Fault Refusal :=
  issue (.launch r) .launch s (fun env =>
    let a := env.s r.a
    let pl : Plan := { space := .global, uniA := a, runs := fun _ => [{ pos := a.toNat * 8, len := 1024 }], base := fun _ => a.toNat
                       align := 128, read := true, write := false, packed := false, off := 0 }
    match env.checkPlan pl with
    | some x => x
    | none =>
      match env.release with
      | none => .hold (.retrySources [])
      | some env =>
        .done ({ env with
          w := env.w.markDest (env.destS r.d.toNat)
          ctx := { env.ctx with submitted := env.ctx.submitted ++ [Submitted.warp env.w.uid a.toNat r.d env.id] } }.bump))

/-- The record in a slot of a context's launch window that is still to be taken. -/
def Context.window (x : Context) (slot : Nat) : Option (List Byte) :=
  x.submitted.findSome? (fun b => match b with | .host k bs => if k = slot then some bs else none | _ => none)

/-- A write of the host to a slot whose record is still to be taken leaves the record undefined (R294): its bytes are free values. -/
def State.overwrite (s : State) (x : Context) (slot : Nat) : State :=
  let free (i : Nat) : Byte := BitVec.ofNat 8 (Config.freeWord (s.freeCount + i)).toNat
  { s with freeCount := s.freeCount + 128 }.setCtx { x with submitted := x.submitted.map (fun (b : Submitted) => match b with
      | .host k bs => if k = slot then Submitted.host k ((List.range 128).map free) else .host k bs
      | b => b) }

/-- A write of the host reaches the package (R287, R334): a byte of device memory takes its place at its home; the driver sets
a multicast group of a context; a slot of the launch window whose record is still to be taken is spoilt (R294). A group number above
63 or a byte that is not there is no write. The recovery loader accepts an image only where it is signed and its security version
is not below FSV, and then runs it (R359; log entry 94). -/
def State.hostWrite (s : State) (c : Nat) (w : HostWrite) : State :=
  match w with
  | .byte k b => if keySpace k < 0x100 && s.reachable k then { s with mem := putByte s.mem k b } else s
  | .image f => if s.loader && !bootLoader f s.fuses then { s with loader := false, fw := f }.copyTable else s
  | .slot k =>
    match s.ctx? c with
    | none => s
    | some x => if x.busy.getLsbD k then s.overwrite x k else s
  | .group g words =>
    match s.ctx? c with
    | none => s
    | some x =>
      if 64 ≤ g then s
      else s.setCtx { x with p := { x.p with groups := x.p.groups.filter (fun (q : Nat × List Word) => q.1 ≠ g) ++ [(g, words)] } }

/-- The host's writes before a doorbell, in order (R287); a granule that they write whole holds no error any more (R269). -/
def State.hostWrites (s : State) (c : Nat) (ws : List HostWrite) : State :=
  let ps : List Piece := ws.filterMap (fun w => match w with | .byte k _ => some { pos := k * 8, len := 8, off := 0 } | _ => none)
  let s := ws.foldl (fun s w => s.hostWrite c w) s
  { s with poison := s.poison.filter (granuleLeft ps) }

/-- A write of the host that must wait for the HBM stack of its byte (R356). -/
def State.hostWaits (s : State) (w : HostWrite) : Bool :=
  match w with
  | .byte k _ => keySpace k = 0 && !s.hbmReady k
  | _ => false

/-- What the host reads of device memory (R287): the bytes at their homes. -/
def State.hostRead (s : State) (k n : Nat) : Nat := readBytes s.mem k n

/-- HOST_DOORBELL (R287, R294): the host's writes before it, then the doorbell; one for a slot whose record is not taken yet is
ignored, but a record that the host has written there meanwhile leaves the one to be taken undefined, and a slot number above 15
rings nothing. Writes to an HBM stack that is not ready wait, and the doorbell behind them (R356). -/
def execHostDoorbell (c slot : Nat) (ring : Doorbell) (s : State) : Host.Outcome State Fault Refusal :=
  let t := s
  let s := s.hostWrites c ring.before
  .next (if ring.before.any t.hostWaits then t else match s.ctx? c with
  | none => s
  | some x =>
    if 16 ≤ slot || ring.record.length ≠ 128 then s
    else if x.busy.getLsbD slot then (if x.window slot = some ring.record then s else s.overwrite x slot)
    else s.setCtx { x with busy := x.busy ||| BitVec.ofNat 16 (2 ^ slot), submitted := x.submitted ++ [.host slot ring.record] })

/-! ### Acceptance -/

/-- n words at a global address as the launch unit reads them, as one number. -/
def unitRead (s : State) (x : Context) (a n : Nat) : Nat × Hit := engRead s x x.launchSeat 0 0 (a * 8) (64 * n)

/-- The number of a new translation (R104): the least that its context has not run under; 0 while it has run under all of them. -/
def CodeObject.nextGen (o : CodeObject) : Nat := (((List.range 127).map (fun k => k + 1)).find? (fun g => !o.used.contains g)).getD 0

/-- A word of an Alavy image that translates (R102, R103): an instruction, not a retired one, with every W bit zero and no
register outside its class (R86, R96). -/
def alavyWord (w : Word) : Bool :=
  match decodeWord w with
  | .error _ => false
  | .ok i =>
    let wBits := match (formOf i).fmt with
      | .rrr => natBits w.toNat 11 9
      | .ri => natBits w.toNat 11 9
      | .mf => natBits w.toNat 11 9
      | _ => 0
    (match i with | .unassignedOpcode _ => false | _ => true) && !retired (natBits w.toNat 63 56) && wBits = 0 &&
      !(formOf i).ops.any (fun o => o.cls.size < o.fld.num i.bodyBits + o.n)

/-- Words one by one as the launch unit reads them, each with how its read ends. -/
def unitWords (s : State) (x : Context) (a n : Nat) : List (Nat × Hit) := (List.range n).map (fun k => unitRead s x (a + 8 * k) 1)

/-- The words of an image. -/
def imageWords (s : State) (x : Context) (o : CodeObject) : List (Nat × Hit) := unitWords s x o.base (o.size / 8)

/-- An image that translates (R103): the launch unit can read every word of it, and each is one that translates. One that it cannot read
does not: the spec does not say what becomes of its launch (the model's choice, log entry 89). -/
def alavyImage (s : State) (x : Context) (o : CodeObject) : Bool :=
  o.alavy && (imageWords s x o).all (fun v =>
    (match v.2 with | .ok _ => true | _ => false) && alavyWord (BitVec.ofNat 64 v.1))

/-- How a record is judged (R292). -/
inductive Verdict where
  | wait
  | refused (c : Cause) (revoked : List Nat)
  | accepted (r : Rec) (slots : SMap Word) (handlers : List Nat)

/-- The images that a record names: its entry's and its handlers' (R347). -/
def State.images (s : State) (c : Nat) (r : Rec) (handlers : List Nat) : List (Option CodeObject) :=
  (r.entry :: handlers).map (s.objectAt c)

/-- The last checks of R292: the fit, the Alavy image, and the security versions of the images and of the entry's translation
(R103, R347, R358). A translation for which no number is left waits for one (the model's choice, log entry 91). -/
def judgeImages (s : State) (x : Context) (r : Rec) (slots : SMap Word) (handlers : List Nat) : Verdict :=
  let images := s.images x.id r handlers
  let bad (o : Option CodeObject) : Bool := match o with
    | some o => !alavyImage s x o
    | none => true
  let revoked := (r.entry :: handlers).filter (fun a => match s.objectAt x.id a with
    | some o => o.secver < s.fsv || (r.kind && a = r.entry && o.transver < s.fsv)
    | none => false)
  let waits (o : Option CodeObject) : Bool := match o with
    | some o => (imageWords s x o).any (fun v => v.2 = .wait)
    | none => false
  let unnumbered (o : Option CodeObject) : Bool := match o with
    | some o => o.gen = 0 && o.nextGen = 0
    | none => false
  if !r.fits s x x.nextQ then .refused .launchFit []
  else if r.kind && s.nfeat.getLsbD 2 && images.any waits then .wait
  else if r.kind && (!s.nfeat.getLsbD 2 || images.any bad) then .refused .alavyInvalid []
  else if revoked ≠ [] then .refused .transRevoked revoked
  else if r.kind && images.any unnumbered then .wait
  else .accepted r slots handlers

/-- The judgement of a record and of the tables that it names (R291, R292). -/
def judge (s : State) (x : Context) (raw : Nat) (hit : Hit) : Verdict :=
  let r := recOf raw
  if 256 ≤ x.launches.length then .refused .launchFull []
  else match hit with
  | .wait => .wait
  | .fail _ _ => .refused .launchRecord []
  | .ok _ =>
    if !recOk raw then .refused .launchRecord []
    else
      let tab := if r.fmask = 0 then (0, Hit.ok 0) else unitRead s x r.ftab 16
      let hnd := if r.hcnt = 0 then (0, Hit.ok 0) else unitRead s x r.htab r.hcnt
      match tab.2, hnd.2 with
      | .ok _, .ok _ =>
        let named := (List.range 16).filter (fun k => r.fmask.testBit k)
        let slot (k : Nat) : Word := BitVec.ofNat 64 (recWord tab.1 k)
        let entries := (List.range r.hcnt).map (recWord hnd.1)
        if named.any (fun k => (slot k).getLsbD 63 && !(Fmt.ofWord (slot k)).accepts) ||
            entries.any (fun v => 2 ^ 57 ≤ v || v % 8 ≠ 0) then .refused .launchRecord []
        else
          judgeImages s x r (named.foldl (fun m k => if (slot k).getLsbD 63 then smPut 0 m k (slot k) else m) []) entries
      | .wait, _ => .wait
      | _, .wait => .wait
      | _, _ => .refused .launchRecord []

/-- A write of a completion word must wait for a stack that is not ready (R356). -/
def unitBusy (s : State) (x : Context) (a : Nat) : Bool := engWaits s x x.launchSeat a

/-- The completion word of a launch (R295). -/
def completionWord (refused ended : Bool) (cause q : Nat) : Nat :=
  2 ^ 63 + (if refused then 2 ^ 62 else 0) + (if ended then 2 ^ 61 else 0) + cause * 2 ^ 48 + q

/-- The record of a submission as read, and how the read ends. -/
def Submitted.record (b : Submitted) (s : State) (x : Context) : Nat × Hit :=
  match b with
  | .host _ bs => (bs.foldr (fun b v => b.toNat + 256 * v) 0, .ok 0)
  | .warp _ a _ _ => unitRead s x a 16

/-- The submission is taken: its window slot is free again, or the answer is owed to its warp (R227, R294). -/
def Context.takeSubmission (x : Context) (b : Submitted) (id : Nat) (answer : Nat) : Context :=
  let x := { x with submitted := x.submitted.drop 1 }
  match b with
  | .host slot _ => { x with busy := x.busy &&& ~~~(BitVec.ofNat 16 (2 ^ slot)), taken := x.taken + 1 }
  | .warp u _ d prod =>
    x.owe id u { uniform := true, reg := d.toNat, lane := 0, prod := prod, allocGen := 0 } (BitVec.ofNat 64 answer) none

/-- What the launch unit's read of n words leaves behind: A on their pages (R262), its requests counted (R264), and the errors that it
met recorded (R349). -/
def unitTouch (s : State) (x : Context) (a n : Nat) : State :=
  let last := a + 8 * n - 1
  let t := (List.range (last / 2 ^ 16 - a / 2 ^ 16 + 1)).foldl (fun s k =>
    let b := if k = 0 then a else (a / 2 ^ 16 + k) * 2 ^ 16
    countLines (touchLeaf s x (tlbCluster x.launchSeat.cl) b false) x x.launchSeat false b (min last (b / 2 ^ 16 * 2 ^ 16 + 2 ^ 16 - 1))) s
  ((unitWords s x a n).map (fun v => v.2)).eraseDups.foldl (fun t h => t.noteHit (BitVec.ofNat 64 a) h) t

/-- What judging a submission has read leaves behind: its record, and the tables and images that the record names. -/
def touchRecord (s : State) (x : Context) (b : Submitted) (raw : Nat) (hit : Hit) : State :=
  let r := recOf raw
  let named := match hit with
    | .ok _ => recOk raw && x.launches.length < 256
    | _ => false
  let t := match b with
    | .host _ _ => s
    | .warp _ a _ _ => unitTouch s x a 16
  if !named then t
  else
    let t := if r.fmask = 0 then t else unitTouch t x r.ftab 16
    let hs := if r.hcnt = 0 then [] else (List.range r.hcnt).map (recWord (unitRead s x r.htab r.hcnt).1)
    let t := if r.hcnt = 0 then t else unitTouch t x r.htab r.hcnt
    if r.kind && s.nfeat.getLsbD 2 && r.fits s x x.nextQ then
      (s.images x.id r hs).foldl (fun t o => match o with | some o => unitTouch t x o.base (o.size / 8) | none => t) t
    else t

/-- Changes the Alavy objects of a context that hold one of some addresses. -/
def State.mapObjects (s : State) (c : Nat) (as : List Nat) (f : CodeObject → CodeObject) : State :=
  { s with objects := s.objects.map (fun o =>
      if o.ctx = c && o.alavy && as.any (fun a => o.base ≤ a && a < o.base + o.size) then f o else o) }

/-- The translations that an accepted launch uses are installed (R104). -/
def State.install (s : State) (c : Nat) (as : List Nat) : State :=
  s.mapObjects c as (fun o => if o.gen = 0 then { o with gen := o.nextGen, used := o.nextGen :: o.used } else o)

/-- The cached translations of revoked images are deleted (R347); the side table of one that launches run under is kept
(R348). -/
def State.revoke (s : State) (c : Nat) (as : List Nat) : State :=
  s.mapObjects c as (fun o => { o with gen := 0, side := if o.gen = 0 then o.side else o.gen :: o.side })

/-- The side tables of a context that no launch needs any more are dropped (R348). -/
def State.dropSides (s : State) (c : Nat) : State :=
  let live (base g : Nat) : Bool := match s.ctx? c with
    | some x => x.launches.any (fun l => smGet 0 l.gens base = g)
    | none => false
  { s with objects := s.objects.map (fun o => if o.ctx = c then { o with side := o.side.filter (live o.base) } else o) }

/-- The generations that a launch of translated code runs under, by the bases of the objects that it names (R104). -/
def State.gensOf (s : State) (c : Nat) (as : List Nat) : SMap Nat :=
  as.foldl (fun m a => match s.objectAt c a with | some o => smPut 0 m o.base o.gen | none => m) []

/-- A refusal (R227, R292, R295): the completion word where the record names one, the answer, and the driver for a record
of the host without a word. -/
def refuse (s : State) (x : Context) (b : Submitted) (cpl : Option Nat) (c : Cause) : State :=
  let x := x.takeSubmission b s.nextId (2 ^ 63 + c.code)
  let s := { s with nextId := s.nextId + 1 }.setCtx x
  match cpl with
  | some a => engStore s x x.launchSeat a 8 (completionWord true false c.code 0)
  | none =>
    match b with
    | .host _ _ => { s with driverLog := s.driverLog ++ [BitVec.ofNat 64 c.code] }
    | .warp _ _ _ _ => s

/-- LAUNCH_ACCEPT (R292 to R295): the sequencer takes the oldest submission of an active context. -/
def execLaunchAccept (c : Nat) (s : State) : Host.Outcome State Fault Refusal :=
  .next (match s.ctx? c with
  | none => s
  | some x =>
    match x.submitted with
    | [] => s
    | b :: _ =>
      if !x.active || !s.rdy.getLsbD (36 + x.p.dies.headD 0) then s
      else
        let v := b.record s x
        let cpl := match v.2 with
          | .ok _ => recCpl v.1
          | _ => none
        match judge s x v.1 v.2 with
        | .wait => s
        | .refused cause revoked =>
          if (match cpl with | some a => unitBusy s x a | none => false) || v.2 = .wait then s
          else
            refuse ((touchRecord s x b v.1 v.2).revoke c revoked) x b cpl cause
        | .accepted r slots handlers =>
          let q := x.nextQ
          let s := touchRecord s x b v.1 v.2
          let s := if r.kind then s.install c (r.entry :: handlers) else s
          let gens := if r.kind then s.gensOf c (r.entry :: handlers) else []
          let l : Launch :=
            { q := q, rcd := r, slots := slots, handlers := handlers, gens := gens, waiting := r.shares x q
              stageOf := r.firstStages x, stageCount := [], msgCount := [], ended := none }
          let x := x.takeSubmission b s.nextId q
          { s with nextId := s.nextId + 1 }.setCtx
            { x with launches := x.launches ++ [l], nextQ := (q + 1) % 2 ^ 32 })

/-! ### Dispatch -/

/-- What the dispatch of a block fixes: its kind, number and place, its entry, the lanes of its warps, which threads are
live, and each thread's linear index, member indices and first two vector registers, by its linear index in the block. -/
structure Start where
  kind : BlockKind
  num : Nat
  core : Nat
  base : Nat
  scr : Nat
  slots : List Nat
  pc : PC
  lanes : Nat
  live : Nat → Bool
  lin : Nat → Nat
  midx : Nat → Nat → Nat
  regs : Nat → List Word

/-- A warp at dispatch (R29, R298). -/
def Launch.warp (l : Launch) (x : Context) (z : Start) (cycle uid blk wblk slot : Nat) : Warp :=
  let wid := z.core * 32 + slot
  let thread (t : Nat) : Nat := wblk * z.lanes + t
  let live := Mask.ofPred (fun t => t < z.lanes && z.live (thread t))
  let per (f : Nat → Nat) : SMap Nat := live.lanes.foldl (fun m t => smPut 0 m t (f t)) []
  let vregs := live.lanes.foldl (fun m t => (z.regs (thread t)).zipIdx.foldl (fun m q => smPut 0 m (vkey q.2 t) q.1) m)
    ([] : SMap Word)
  { uid := uid, wid := wid, q := l.q, blk := blk, wblk := wblk, age := cycle, nregs := l.rcd.regs, allocGen := 0, vregs := vregs
    vmarks := [], sregs := smPut 0 (smPut 0 [] 0 l.rcd.arg0) 1 l.rcd.arg1, smarks := [], preds := [], slots := l.slots
    tdn := l.rcd.tdn, tdescs := [], accs := [], live := live
    frontier := if live = 0 then [] else [⟨BitVec.ofNat 8 l.rcd.prio, z.pc, live, false, 0, false, false⟩]
    issues := 0, fc := 0, wc := 0, grantDue := 0, fcClear := false, wcClear := false, grantClear := false, grantLeft := 0, wjoins := []
    csp := per (fun t => x.p.privBase + (wid * 32 + t + 1) * 2 ^ x.p.wsz)
    rs := live.lanes.foldl (fun m t => smPut 0 m t (rsInit x.rndseed (z.lin (thread t)))) []
    lin := per (fun t => z.lin (thread t))
    midx := (List.range l.rcd.levels.length).foldl (fun m k =>
      live.lanes.foldl (fun m t => smPut 0 m (vkey k t) (z.midx k (thread t))) m) []
    mode := .program, saved := none, signal := false, park := none, refused := [], growRefused := false, halted := false
    region := none, mstat := 0, mtrap := false, remFail := none, bcSeen := [], recvs := [], sends := [], uepc := 0, ucause := 0
    utval := 0, ufmask := 0, uscr := 0, flsel := 0, finsn := 0, flact := 0, fcause := 0, gens := l.gens }

/-- Dispatches a block (R253, R268, R298): its warps that have a live thread, zeroed scratchpad with every line present, an
acquire at package scope, and no instruction line older than it in its core. -/
def startBlock (s : State) (c : Nat) (l : Launch) (z : Start) : State :=
  match s.ctx? c with
  | none => s
  | some x =>
    let id := s.nextId
    let ws := (z.slots.zipIdx.map (fun q => l.warp x z s.cycle (id + 1 + q.2) id q.2 q.1)).filter (fun w => w.live ≠ 0)
    let b : Block :=
      { id := id, q := l.q, num := z.num, kind := z.kind, core := z.core, warps := ws.map (fun w => w.uid)
        nwarps := z.slots.length, spBase := z.base, spSize := z.scr, acc := 0, barrs := [], swapped := none }
    let k := b.sram x
    let s := { s with
      nextId := id + 1 + z.slots.length
      mem := zeroBytes s.mem k.1 k.2
      poison := s.poison.filter (fun p => !poisonHits p k.1 k.2)
      copies := s.copies.filter (fun y => y.at_ ≠ CopyAt.icache z.core) }
    s.acquireWith { x with
      blocks := x.blocks ++ [b], warps := x.warps ++ ws
      absent := x.absent.filter (fun l => !(k.1 ≤ l * 128 && l * 128 < k.1 + k.2)) } z.core 5

/-- A block of the hierarchy (R29, R66, R297, R298). -/
def Launch.startGrid (l : Launch) (p : Placed) : Start :=
  let r := l.rcd
  let n := r.levels.length
  let lin (j : Nat) : Nat := p.num * (r.warps * r.lanes) + j
  { kind := .grid, num := p.num, core := p.core, base := p.base, scr := r.scr, slots := p.slots, pc := BitVec.ofNat 57 r.entry
    lanes := r.lanes, live := fun _ => true, lin := lin, midx := fun k j => lin j / r.span (k + 1) n % r.count k
    regs := fun _ => [] }

/-- The member indices of a thread within its block, 0 down to the block's own level (R301). -/
def Rec.inner (r : Rec) (k j : Nat) : Nat :=
  if k ≤ r.block then 0 else j / r.span (k + 1) r.levels.length % r.count k

/-- A stage block over the items that it takes (R300, R301). -/
def Launch.startStage (l : Launch) (p : Placed) (die k n : Nat) (items : List (Word × Word)) : Start :=
  let r := l.rcd
  { kind := .stage k n, num := k * 2 ^ 40 + die * 2 ^ 32 + n, core := p.core, base := p.base, scr := r.scr, slots := p.slots
    pc := BitVec.ofNat 57 r.entry + BitVec.ofInt 57 (8 * (r.stages.getD k (0, 0)).2), lanes := r.lanes
    live := fun j => j < items.length
    lin := fun j => 2 ^ 62 + k * 2 ^ 60 + die * 2 ^ 58 + n % 2 ^ 48 * 2 ^ 10 + j, midx := r.inner
    regs := fun j => [(items.getD j (0, 0)).1, (items.getD j (0, 0)).2] }

/-- A handler block of an active message (R221, R301). -/
def Launch.startHandler (l : Launch) (p : Placed) (die m : Nat) (a : ActiveMsg) : Start :=
  { kind := .message m, num := 2 ^ 42 + die * 2 ^ 32 + m % 2 ^ 32, core := p.core, base := 0, scr := 0, slots := p.slots
    pc := BitVec.ofNat 57 (l.handlers.getD a.handler 0), lanes := 32, live := fun _ => true
    lin := fun j => 2 ^ 63 + a.src.toNat * 2 ^ 31 + a.wblk * 2 ^ 26 + a.sent % 2 ^ 21 * 2 ^ 5 + j, midx := fun _ _ => 0
    regs := fun j => ((a.words.drop (4 * j)).take 4) }

/-- Active messages of a context that stand at a die ahead of its blocks (R297). -/
def State.activeDue (s : State) (c die : Nat) : Bool :=
  s.sending.any (fun z => z.ctx = c && z.pkg = 0xFF && z.die = die && z.active.isSome && !z.matched && 1 ≤ z.granted) ||
    s.actives.any (fun h => h.die = die && (match s.rxCtx die h.msg.rxid with | some x => x.id = c | none => false))

/-- The launch whose share a die admits next (R297): higher TPRI first, then the order of acceptance. -/
def Context.nextLaunch (x : Context) (die : Nat) : Option Launch :=
  (x.launches.filter (fun l => l.ended.isNone && l.waiting.any (fun q => q.1 = die))).foldl
    (fun b l => match b with
      | none => some l
      | some y => if y.rcd.tpri < l.rcd.tpri then some l else some y) none

/-- BLOCK_ADMIT (R297, R311): the next share of a die is admitted whole, once it fits. -/
def execBlockAdmit (c die : Nat) (s : State) : Host.Outcome State Fault Refusal :=
  .next (match s.ctx? c with
  | none => s
  | some x =>
    if x.state ≠ .running || !s.rdy.getLsbD (36 + die) || s.activeDue c die then s
    else match x.nextLaunch die with
    | none => s
    | some l =>
      match l.waiting.find? (fun q => q.1 = die) with
      | none => s
      | some q =>
        match l.place x die q.2 with
        | none => s
        | some ps =>
          ps.foldl (fun s p => startBlock s c l (l.startGrid p))
            (s.setCtx (x.setLaunch { l with waiting := l.waiting.erase q })))

/-! ### Stages -/

/-- The stage of a block, 0 for one of the hierarchy (R299). -/
def Block.stage (b : Block) : Option Nat :=
  match b.kind with
  | .grid => some 0
  | .stage k _ => some k
  | .message _ => none

/-- Every block of the stages before k on a die has ended (R300). -/
def Context.drained (x : Context) (l : Launch) (die k : Nat) : Bool :=
  !l.waiting.any (fun q => q.1 = die) &&
    !x.blocks.any (fun b => b.q = l.q && b.core / 128 = die && (match b.stage with | some j => j < k | none => false))

/-- STAGE_BLOCK_DISPATCH (R300): a block of stage k over the items at the head of its queue. -/
def execStageBlockDispatch (c die stage : Nat) (s : State) : Host.Outcome State Fault Refusal :=
  .next (match s.ctx? c with
  | none => s
  | some x =>
    if x.state ≠ .running || !s.rdy.getLsbD (36 + die) || s.activeDue c die then s
    else
      let can (l : Launch) : Option (Launch × Placed) :=
        let n := (x.queue l.q die stage).length
        if l.ended.isSome || stage = 0 || l.stages ≤ stage || !x.p.dies.contains die then none
        else if l.rcd.warps * l.rcd.lanes ≤ n || (1 ≤ n && x.drained l die stage) then
          (l.rcd.placeOne x (x.coresOf l.stageOf die stage) l.rcd.warps l.rcd.scr).map (fun p => (l, p))
        else none
      match x.launches.findSome? can with
      | none => s
      | some (l, p) =>
        let q := x.queue l.q die stage
        let t := l.rcd.warps * l.rcd.lanes
        let n := smGet 0 l.stageCount (die * 4 + stage)
        let x := x.setLaunch { l with stageCount := smPut 0 l.stageCount (die * 4 + stage) (n + 1) }
        startBlock (s.setCtx (x.setQueue l.q die stage 0 (q.drop t))) c l (l.startStage p die stage n (q.take t)))

/-- The stage with the fullest queue among some, the higher on a tie (R302). -/
def Launch.fullest (l : Launch) (x : Context) (die : Nat) (ks : List Nat) : Option Nat :=
  let items (k : Nat) : Nat := (x.queue l.q die k).length
  ks.foldl (fun b k => match b with
    | none => some k
    | some j => if items j * l.depth k ≤ items k * l.depth j then some k else some j) none

/-- The stage of a core that holds no block of a launch, by the first rule of R302 that applies. -/
def Launch.newStage (l : Launch) (x : Context) (core : Nat) : Nat :=
  let die := core / 128
  let old := smGet 0 l.stageOf core
  let ks := (List.range l.stages).drop 1
  let items (k : Nat) : Nat := (x.queue l.q die k).length
  if (x.coresOf l.stageOf die old).length ≤ 1 then old
  else match l.fullest x die (ks.filter (fun k => l.depth k ≤ 2 * items k)) with
  | some k => k
  | none =>
    if l.waiting.any (fun q => q.1 = die) then 0
    else match l.fullest x die (ks.filter (fun k => items k ≠ 0)) with
    | some k => k
    | none => old

/-- CORE_REASSIGN (R302). -/
def execCoreReassign (c core : Nat) (s : State) : Host.Outcome State Fault Refusal :=
  .next (match s.ctx? c with
  | none => s
  | some x =>
    if x.state ≠ .running || !(x.cores (core / 128)).contains core || !x.p.dies.contains (core / 128) then s
    else
      s.setCtx { x with launches := x.launches.map (fun l =>
        if l.stages = 0 || l.ended.isSome || x.blocks.any (fun b => b.q = l.q && b.core = core) then l
        else { l with stageOf := smPut 0 l.stageOf core (l.newStage x core) }) })

/-! ### Handler blocks -/

/-- The launch that an active message reaches at a die (R333): the sender's own, or for a message of another package the
oldest of its receive context that has a block resident or waiting there. -/
def activeTarget (a : ActiveMsg) (x : Context) (die : Nat) : Option Launch :=
  let fits (l : Launch) : Bool := x.p.dies.contains die && l.ended.isNone && a.handler < l.handlers.length
  match a.q with
  | some q => (x.launch? q).bind (fun l => if fits l then some l else none)
  | none =>
    match x.launches.find? (fun l =>
        l.waiting.any (fun w => w.1 = die) || x.blocks.any (fun b => b.q = l.q && b.core / 128 = die)) with
    | some l => if fits l then some l else none
    | none => none

/-- Spawns the handler block of an active message (R221, R297, R333), or discards the message and tells the driver; none
where it must wait. -/
def State.deliverActive (s : State) (die : Nat) (a : ActiveMsg) : Option State :=
  let ctx := match a.q with
    | some _ => s.ctx? a.ctx
    | none => s.rxCtx die a.rxid
  let gone : State := { s with driverLog := s.driverLog ++ [BitVec.ofNat 64 a.src.toNat] }
  match ctx with
  | none => some gone
  | some x =>
    match activeTarget a x die with
    | none => if a.q.isSome || x.state = .running then some gone else none
    | some l =>
      if x.state ≠ .running then none
      else match l.rcd.placeOne x (x.cores die) 1 0 with
      | none => none
      | some p =>
        let m := smGet 0 l.msgCount die
        some (startBlock (s.setCtx (x.setLaunch { l with msgCount := smPut 0 l.msgCount die (m + 1) })) x.id l
          (l.startHandler p die m a))

/-- The package that an active message comes from (R215, R333). -/
def activePkg (a : ActiveMsg) : Nat := a.src.toNat / 2 ^ 24

/-- An active message of another package delivered; one that must wait keeps its slot (R325, R333), and later ones of its warp wait
behind it. -/
def State.arriveActive (s : State) (die : Nat) (a : ActiveMsg) : State :=
  let behind := s.actives.any (fun h => h.die = die && h.msg.src = a.src && h.msg.wblk = a.wblk)
  match (if behind then none else s.deliverActive die a) with
  | some t => t
  | none =>
    let h : HeldActive := { id := s.nextId, die := die, msg := a }
    { s with nextId := s.nextId + 1, actives := s.actives ++ [h] }.takeSlots die (activePkg a) 1

/-- An active message of another package that waits is tried again, behind the earlier ones of its warp (R333). -/
def State.retryActive (s : State) (h : HeldActive) : State :=
  if s.actives.any (fun y => y.die = h.die && y.msg.src = h.msg.src && y.msg.wblk = h.msg.wblk && y.id < h.id) then s
  else match s.deliverActive h.die h.msg with
  | none => s
  | some t => { t with actives := t.actives.filter (fun (y : HeldActive) => y.id ≠ h.id) }.returnSlots h.die (activePkg h.msg) 1

/-- ACTIVE_MESSAGE_DELIVER (R221, R325, R326, R333): the messages of one warp to one die in the order sent; one of another package
arrives in a receive slot of that package's. -/
def execActiveMessageDeliver (die : Nat) (m : ActiveArrival) (s : State) : Host.Outcome State Fault Refusal :=
  .next (if !s.rdy.getLsbD (36 + die) then s
  else match m with
  | .own id =>
    match s.sending.find? (fun z => z.id = id && z.pkg = 0xFF && z.die = die && !z.matched && 1 ≤ z.granted) with
    | none =>
      match s.actives.find? (fun h => h.id = id && h.die = die) with
      | some h => s.retryActive h
      | none => s
    | some z =>
      match z.active with
      | none => s
      | some a =>
        let early := s.sending.any (fun y =>
          y.ctx = z.ctx && y.uid = z.uid && y.pkg = 0xFF && y.die = die && y.active.isSome && !y.matched && y.id < z.id)
        if early then s
        else match s.deliverActive die a with
        | none => s
        | some s' =>
          ({ s' with sending := s'.sending.map (fun (y : Sending) => if y.id = id then { y with matched := true } else y) }.returnSlots
            die 0xFF z.granted).tidySends
  | .remote a =>
    if a.q.isSome || s.pod.isNone || a.words.length = 0 || 32 < a.words.length || 0x80 ≤ activePkg a ||
        16 ≤ s.slotsOf die (activePkg a) then s
    else s.arriveActive die a)

/-! ### Completion -/

/-- A warp of a number is gone. -/
def Context.goneWarp (x : Context) (u : Nat) : Bool := (x.warp? u).isNone

/-- Performs what is left of the accesses of warps that have ended (R28, R295). -/
def drainGone (s : State) (x : Context) : State :=
  (x.accesses.filter (fun a => x.goneWarp a.uid)).foldl (fun s a => goAccess s x.id a.id false) s

/-- Accesses and ASTOs of warps that have ended are still to be performed. -/
def Context.residue (x : Context) : Bool :=
  x.accesses.any (fun a => x.goneWarp a.uid) || x.engOps.any (fun o => o.op = 3 && x.goneWarp o.uid)

/-- A receive of a launch has a landing in progress that can go on (R339, R344). -/
def State.landing (s : State) (x : Context) (q : Nat) : Bool :=
  s.receives.any (fun r => r.ctx = x.id && r.q = q && r.msg.isSome && !r.done && r.mayLand x)

/-- Steps 1 to 3 of R344: the warps have halted, their accesses are performed, cards that have not started complete with 0101, those
posted and not accepted yet with them (log entry 90), and nothing more is followed in a chain. A card whose words must wait (R356)
ends later, in its CARD_COMPLETE. -/
def stopUnits (s : State) (c q : Nat) : State :=
  let s := goAccesses s c (fun a => match (s.ctx? c).bind (fun x => x.warp? a.uid) with | some w => w.q = q | none => false)
  match s.ctx? c with
  | none => s
  | some x =>
    let taken := (x.posted.filter (fun p => p.card.q = q)).zipIdx.map (fun p => { p.1.card with id := s.nextId + p.2 })
    let cards := x.cards ++ taken
    let s := { s with nextId := s.nextId + taken.length }.setCtx { x with
      posted := x.posted.filter (fun p => p.card.q ≠ q)
      cards := cards
      channels := x.channels.map (fun (n : Channel) => if n.walking.isSome && n.chainQ = q then { n with walking := none } else n)
      launches := x.launches.map (fun (l : Launch) => if l.q = q then { l with waiting := [] } else l) }
    (cards.filter (fun k => k.q = q && !k.started && k.status = 0)).foldl (fun s k =>
      match s.ctx? c with
      | some x => (match x.card? k.id with | some k => if k.endWaits s x then s else k.finish s x 5 | none => s)
      | none => s) s

/-- Steps 1 to 5 of R344: after the units, once no landing and no ASTO is in progress, the receives are withdrawn, the warps and their blocks
end, and stage items are discarded. -/
def stopLaunch (s : State) (c q : Nat) : State :=
  let s := stopUnits s c q
  match s.ctx? c with
  | none => s
  | some x =>
    let mine (u : Nat) : Bool := match x.warp? u with | some w => w.q = q | none => false
    if s.landing x q || x.engOps.any (fun o => o.op = 3 && mine o.uid) then s
    else
      let s := s.dropReceives (fun r => r.ctx = c && r.q = q && !r.done)
      match s.ctx? c with
      | none => s
      | some x =>
        let s := s.setCtx { x with queues := x.queues.filter (fun k => k.q ≠ q) }
        (x.warps.filter (fun w => w.q = q)).foldl (fun s w => endWarp s c w.uid) s

/-- Every write of a launch's cards has been made (R287, R295, R344): no card of it is left, nor one that is still to be taken. -/
def Launch.quiet (l : Launch) (x : Context) : Bool :=
  !x.cards.any (fun k => k.q = l.q) && !x.posted.any (fun p => p.card.q = l.q) &&
    !x.channels.any (fun n => n.walking.isSome && n.chainQ = l.q)

/-- Everything of a launch has ended (R287, R295, R300), or what R344 lets run has. -/
def Launch.over (l : Launch) (s : State) (x : Context) : Bool :=
  l.waiting.isEmpty && !x.blocks.any (fun b => b.q = l.q) && !x.queues.any (fun k => k.q = l.q && k.items ≠ []) && l.quiet x &&
    (l.ended.isNone || !s.landing x l.q)

/-- LAUNCH_COMPLETE (R28, R295, R343, R344): the release, and the completion word. -/
def execLaunchComplete (c q : Nat) (s : State) : Host.Outcome State Fault Refusal :=
  .next (match (s.ctx? c).bind (fun x => x.launch? q) with
  | none => s
  | some l =>
    let s := if l.ended.isSome then stopLaunch s c q else s
    match s.ctx? c with
    | none => s
    | some x =>
      match x.launch? q with
      | none => s
      | some l =>
        if !l.over s x then s
        else
          let s := drainGone s x
          match s.ctx? c with
          | none => s
          | some x =>
            if x.residue || (l.rcd.cpl ≠ 0 && unitBusy s x l.rcd.cpl) then s
            else
              let s := if l.ended.isSome then s.dropReceives (fun r => r.ctx = c && r.q = q) else s
              let word := completionWord false l.ended.isSome (l.ended.getD 0) q
              let s := if l.rcd.cpl = 0 then s else engStore s x x.launchSeat l.rcd.cpl 8 word
              (s.setCtx { x with
                launches := x.launches.filter (fun y => y.q ≠ q), queues := x.queues.filter (fun k => k.q ≠ q) }).dropSides c)

/-- LAUNCH_KILL (R345). -/
def execLaunchKill (c q : Nat) (s : State) : Host.Outcome State Fault Refusal :=
  .next (match s.ctx? c with
  | none => s
  | some x => s.setCtx (x.endLaunch q .killed))

end Sys2Proof.Machine
end

