-- ==== Sys2Proof/Machine/Retired.lean ====
section
/-! DEFINITION. The retired opcodes 0xF0 to 0xF7 as their emulation leaves them, and the opcodes that have no instruction (R94,
R96, R99 to R101). -/

namespace Sys2Proof.Machine

/-- The binary16 of the T5 (R100): subnormals kept, infinities, the quiet NaN 0x7E00. -/
def Fmt.half : Fmt :=
  { val := true, sgn := 1, ew := 5, mw := 10, bias := 15, sub := 0, inf := 1, nan := 1, rnd := 0, sat := false, inv := 0, blk := 0
    low := 0 }
/-- The layout of the BH forms (R100): subnormals flushed in and out, infinities, the quiet NaN 0x7FC0. -/
def Fmt.brain : Fmt :=
  { val := true, sgn := 1, ew := 8, mw := 7, bias := 127, sub := 2, inf := 1, nan := 1, rnd := 0, sat := false, inv := 0, blk := 0
    low := 0 }

/-- Whether a T5 body is illegal under T5 rules (R100): a field that must be zero, or a register outside the allocation. -/
def Env.t5Bad (env : Env) (r : RRR) (named : List Opnd) : Bool :=
  let unnamed (f : Fld) : Bool := !named.any (fun o => o.fld = f) && env.num f ≠ 0
  r.f ≠ 0 || r.wa || r.wb || r.wc || r.x ≠ 0 || [Fld.A, Fld.B, Fld.C, Fld.D].any unnamed ||
    named.any (fun o => o.cls.size < env.num o.fld + 1 || env.unalloc o)

/-- What stands before the emulated operation (R101): the T5 body, then the sources of every active thread, which an
uncorrectable or remote error traps and an empty register delays. -/
def Env.t5Check (env : Env) (r : RRR) (named : List Opnd) : Option Res :=
  let srcs := named.filter (fun o => o.src)
  if env.t5Bad r named then some (env.wordTrap .illegalOpc)
  else match env.poisonTrap .plain srcs with
  | some t => some (.trap t)
  | none =>
    if srcs.any (fun o => env.marked .plain o Mark.isEmpty ≠ 0) then
      some (.hold (.retrySources (srcs.map (fun o => env.num o.fld))))
    else none

/-- A retired opcode stops in firmware mode, for the emulation handler's own instructions, where this cycle's choice says so (log entry
45); the handler's registers then name the top entry (R131). -/
def Env.staysInFirmware (env : Env) : Bool := env.dev.pick 6 && env.top && !env.w.firmware && !env.spin

/-- The warp in firmware mode on behalf of the mode it was in (R101, R131). -/
def Warp.inFirmware (w : Warp) : Warp :=
  match w.mode with
  | .program => { w with mode := .firmware false false }
  | .handler pre => { w with mode := .firmware true pre }
  | .firmware _ _ => w

/-- A retired instruction carried out whole (R101): it enters firmware mode with its cause, whose work makes one issue, its threads at
PC + 8. -/
def Env.emulate (env0 : Env) (c : Cause) (r : RRR) (opts : Opts) (named : List Opnd) (body : Env → Res) : State :=
  let env := { env0 with w := env0.w.asBase }.enterFirmware c
  settle opts env (match env.t5Check r named with
    | some x => x
    | none => if env.p = 0 then .done env else body env)

/-- One retired instruction, executed once to the program (R101): carried out whole, at once or from the firmware mode in which it
stopped, whose end lets a signal in (R309). -/
def retiredIssue (c : Cause) (i : Instr) (r : RRR) (opts : Opts) (named : List Opnd) (s : State) (body : Env → Res) :
    Host.Outcome State Fault Refusal :=
  match openIssue i (wordOf i) s with
  | none => .fault .noIssuer
  | some env =>
    if env.staysInFirmware then .next { env with w := (env.enterFirmware c).w.inFirmware }.commit
    else if env.w.firmware then .next ((env.emulate c r opts named body).takeSignal env.ctx.id env.w.uid)
    else .next (env.emulate c r opts named body)

/-- D, A and B as vector registers. -/
def t5Binary : List Opnd := [dst .D .vec, src .A .vec, src .B .vec]
/-- D, A, B and C as vector registers. -/
def t5Ternary : List Opnd := [dst .D .vec, src .A .vec, src .B .vec, src .C .vec]

/-- A retired arithmetic form on four 16-bit elements, rounded with RNE (R100). -/
def retiredArith (c : Cause) (i : Instr) (r : RRR) (named : List Opnd) (f : Fmt) (op : Val → Val → Val → Val) (s : State) :
    Host.Outcome State Fault Refusal :=
  retiredIssue c i r .plain named s (fun env =>
    .done (env.setV r.d (fun t => packElems 16 ((List.range 4).map (fun k =>
      (f.encode (op (f.val' (env.v r.a t) k) (f.val' (env.v r.b t) k) (f.val' (env.v r.c t) k)) .rne false 0).getD 0)))))

/-- HADD (R100). -/
def execHadd (r : RRR) (s : State) : Host.Outcome State Fault Refusal :=
  retiredArith .retiredHadd (.hadd r) r t5Binary .half (fun a b _ => Val.sum [a, b] .rne) s
/-- HMUL (R100). -/
def execHmul (r : RRR) (s : State) : Host.Outcome State Fault Refusal :=
  retiredArith .retiredHmul (.hmul r) r t5Binary .half (fun a b _ => Val.mul a b) s
/-- HFMA (R100). -/
def execHfma (r : RRR) (s : State) : Host.Outcome State Fault Refusal :=
  retiredArith .retiredHfma (.hfma r) r t5Ternary .half (fmaVal false false .rne) s
/-- BHADD (R100). -/
def execBhadd (r : RRR) (s : State) : Host.Outcome State Fault Refusal :=
  retiredArith .retiredBhadd (.bhadd r) r t5Binary .brain (fun a b _ => Val.sum [a, b] .rne) s
/-- BHMUL (R100). -/
def execBhmul (r : RRR) (s : State) : Host.Outcome State Fault Refusal :=
  retiredArith .retiredBhmul (.bhmul r) r t5Binary .brain (fun a b _ => Val.mul a b) s
/-- BHFMA (R100). -/
def execBhfma (r : RRR) (s : State) : Host.Outcome State Fault Refusal :=
  retiredArith .retiredBhfma (.bhfma r) r t5Ternary .brain (fmaVal false false .rne) s

/-- BARW (R100, R101, R213): the checks of ST.d and its store, then the arrival at barrier 15 with n = 0, whose trap leaves no
store (R7). -/
def execBarw (r : RRR) (s : State) : Host.Outcome State Fault Refusal :=
  retiredIssue .retiredBarw (.barw r) r .resets [src .D .vec, src .A .vec] s (fun env =>
    let pl : Plan := { space := .global, uniA := 0, runs := fun t => [{ pos := (env.v r.a t).toNat * 8, len := 64 }]
                       base := fun t => (env.v r.a t).toNat, align := 8, read := false, write := true, packed := false, off := 0 }
    match env.makeAccess .plain pl env.p.lanes (fun _ t => .store (env.v r.d t).toNat) with
    | .done e =>
      if (match env.blk with | some b => b.barrClash 15 0 | none => false) then env.trapE .pewterCount 0 else e.barr 15 0
    | x => x)

/-- LDTEX (R100): the header, then the clamped texel of each thread. The header's address must be a multiple of 8 (log entry
30). -/
def execLdtex (r : RRR) (s : State) : Host.Outcome State Fault Refusal :=
  retiredIssue .retiredLdtex (.ldtex r) r .plain [dst .D .vec, src .A .vec, src .B .uni] s (fun env =>
    let at_ := (env.s r.b).toNat
    let head : Plan := { space := .global, uniA := env.s r.b, runs := fun _ => [{ pos := at_ * 8, len := 128 }], base := fun _ => at_
                         align := 8, read := true, write := false, packed := false, off := 0 }
    match env.checkPlan head with
    | some x => x
    | none =>
      match env.readNow head with
      | some x => x
      | none =>
        let h := env.popped head env.p.low
        let base := natBits h 63 0
        let w := natBits h 95 64
        let n := natBits h 127 96
        if w = 0 || n = 0 || base % 4 ≠ 0 then env.wordTrap .illegalOpc
        else
          let env := (env.touchPlan head).keepRead head
          let x (t : Nat) : Nat := min (natBits (env.v r.a t).toNat 31 0) (w - 1)
          let y (t : Nat) : Nat := min (natBits (env.v r.a t).toNat 63 32) (n - 1)
          let ea (t : Nat) : Nat := (base + 4 * (y t * w + x t)) % 2 ^ 64
          let texel : Plan := { space := .global, uniA := 0, runs := fun t => [{ pos := ea t * 8, len := 32 }]
                                base := fun t => ea t, align := 4, read := true, write := false, packed := false, off := 0 }
          match env.checkPlan texel with
          | some x => x
          | none =>
            match env.readNow texel with
            | some x => x
            | none =>
              let env := (env.touchPlan texel).keepRead texel
              .done (env.setV r.d (fun t => BitVec.ofNat 64 (env.popped texel t))))

/-- The cause with which a retired opcode enters firmware mode (R99). -/
def retiredCause (opc : Nat) : Option Cause :=
  match opc with
  | 0xF0 => some .retiredHadd
  | 0xF1 => some .retiredHmul
  | 0xF2 => some .retiredHfma
  | 0xF3 => some .retiredBhadd
  | 0xF4 => some .retiredBhmul
  | 0xF5 => some .retiredBhfma
  | 0xF6 => some .retiredBarw
  | 0xF7 => some .retiredLdtex
  | _ => none

/-- A word whose opcode is unassigned or reserved (R96): ILLEGAL_OPC, whatever its guard. So ends a retired opcode whose header
bits 50:48 are not zero, but in firmware mode, which it enters before any other check (R97, R100, R101). -/
def execUnassignedOpcode (w : Word) (s : State) : Host.Outcome State Fault Refusal :=
  match openIssue (.unassignedOpcode w) w s with
  | none => .fault .noIssuer
  | some env =>
    let env := { env with w := env.w.asBase }
    let env := match retiredCause (natBits w.toNat 63 56) with
      | some c => env.enterFirmware c
      | none => env
    .next (settle .plain env (env.wordTrap .illegalOpc))

end Sys2Proof.Machine
end

