-- ==== Sys2Proof/Machine/Happenings.lean ====
section
/-! DEFINITION. Events of warps and of accesses: grants, the watchdog, waits that end, register grants, results, and accesses that
are performed or fail (R40 to R48, R91, R116, R159, R274, R324, R335). -/

namespace Sys2Proof.Machine

/-- What an event does to one warp of a context; nothing where there is none. -/
def State.onWarp (s : State) (c u : Nat) (f : Context → Warp → State) : State :=
  match s.ctx? c with
  | none => s
  | some x =>
    match x.warp? u with
    | none => s
    | some w => f x w

/-- FAIRNESS_GRANT (R40, R41): the grant that FC has earned starts, and FC returns to 0. -/
def execFairnessGrant (c w : Nat) (s : State) : Host.Outcome State Fault Refusal :=
  .next (s.onWarp c w (fun x w =>
    if x.prog && w.grantDue ≠ 0 && w.mode = .program then
      s.setCtx (x.setWarp { w with grantLeft := w.grantDue, grantDue := 0, fc := 0 })
    else s))

/-- GRANT_END (R41): with its count at zero a grant is over and strict frontier order resumes. -/
def execGrantEnd (c w : Nat) (s : State) : Host.Outcome State Fault Refusal :=
  .next (s.onWarp c w (fun x w =>
    if w.grantLeft = 0 && w.grantDue = 0 && w.mode = .program && w.frontier.any (fun e => e.granted) then
      s.setCtx (x.setWarp { w with frontier := w.frontier.map (fun e => { e with granted := false }) })
    else s))

/-- SPIN_WATCHDOG (R43): the issuing warp's next issue would bring WC to the limit, so that it traps in place of
executing. -/
def execSpinWatchdog (s : State) : Host.Outcome State Fault Refusal :=
  .next (match openIssue .spinWatchdog 0 s with
  | none => s
  | some env => if env.spin then takeTrap env env.spinTrap else s)

/-- WJOIN_EXPIRE (R44): the wait at an address is over, and its threads go on with predicate 0. -/
def execWjoinExpire (c w : Nat) (pc : PC) (s : State) : Host.Outcome State Fault Refusal :=
  .next (s.onWarp c w (fun x w =>
    match w.wjoins.find? (fun j => j.pc = pc && j.here w && j.left = 0) with
    | some j => if x.runs w then s.setCtx (x.setWarp (w.releaseJoin j false)) else s
    | none => s))

/-- NAP_END (R116). -/
def execNapEnd (c w : Nat) (s : State) : Host.Outcome State Fault Refusal :=
  .next (s.onWarp c w (fun x w =>
    if x.runs w && w.park = some (.nap 0) then s.setCtx (x.setWarp { w with park := none }) else s))

/-! ### Register grants -/

/-- The end of an RGROW that waits (R47, R48). -/
def Warp.endGrow (w : Warp) (granted : Bool) : Warp :=
  match w.park with
  | some (.rgrow d m act) =>
    { w.setPred d.toNat act (if granted then BitVec.allOnes 32 else 0) with
      park := none, nregs := if granted then m else w.nregs }
  | _ => w

/-- The registers that a waiting RGROW asks for. -/
def Warp.asks (w : Warp) : Option Nat :=
  match w.park with
  | some (.rgrow _ m _) => some m
  | _ => none

/-- A warp was dispatched earlier, or in the same cycle into a lower slot (R47, R303). -/
def Warp.older (a b : Warp) : Bool := a.age < b.age || (a.age = b.age && a.wid < b.wid)

/-- The oldest of some warps. -/
def oldestWarp (ws : List Warp) : Option Warp :=
  ws.foldl (fun b w => match b with | none => some w | some y => if w.older y then some w else some y) none

/-- The warps of a partition that are resident. -/
def Context.inPart (x : Context) (part : Nat) : List Warp := x.warps.filter (fun w => w.wid / 8 = part && !x.isOut w.blk)

/-- RGROW_GRANT (R47): the oldest request of a partition, once its share has the registers. -/
def execRgrowGrant (c part : Nat) (s : State) : Host.Outcome State Fault Refusal :=
  .next (match s.ctx? c with
  | none => s
  | some x =>
    match oldestWarp ((x.inPart part).filter (fun w => w.asks.isSome)) with
    | none => s
    | some w =>
      let m := w.asks.getD 0
      if x.runs w && x.regsUsed part + m ≤ 384 + w.nregs then s.setCtx (x.setWarp (w.endGrow true)) else s)

/-- The refusal of R48: with every resident warp of a partition in RGROW, every request but the oldest. -/
def Context.refuseGrows (x : Context) (part : Nat) : Context :=
  let ws := x.inPart part
  match oldestWarp ws with
  | none => x
  | some o =>
    if 1 < ws.length && ws.all (fun w => w.asks.isSome) then
      ws.foldl (fun x w => if w.uid = o.uid then x else x.setWarp (w.endGrow false)) x
    else x

/-! ### Results and accesses -/

/-- RESULT_RETURN (R91). -/
def execResultReturn (c id : Nat) (s : State) : Host.Outcome State Fault Refusal :=
  .next (match s.ctx? c with
  | none => s
  | some x =>
    match x.owed.find? (fun o => o.id = id) with
    | none => s
    | some o => returnResult s x o)

/-- ACCESS_PERFORM (R274): an access of a warp takes its place in the order of each of its bytes, or its read is served from
a copy where it may be. -/
def execAccessPerform (c id : Nat) (fromCopy : Bool) (s : State) : Host.Outcome State Fault Refusal :=
  .next (goAccess s c id fromCopy)

/-- REMOTE_ACCESS_FAIL (R324): an access to another target that is in flight fails there or on its path. -/
def execRemoteAccessFail (c id : Nat) (s : State) : Host.Outcome State Fault Refusal :=
  .next (match s.ctx? c with
  | none => s
  | some x =>
    match x.accesses.find? (fun a => a.id = id) with
    | none => s
    | some a => if (a.remote || a.kind.home.isSome) && x.inOrder a then failAccess s x a else s)

/-- MCAST_MEMBER_TIMEOUT (R335): a silent member is queried once; one that reports the write performed counts as healthy, and
one that does not answer as failed, its bytes unchanged. -/
def execMcastMemberTimeout (c id member : Nat) (answered : Bool) (s : State) : Host.Outcome State Fault Refusal :=
  .next (match s.ctx? c with
  | none => s
  | some x =>
    match x.accesses.find? (fun a => a.id = id) with
    | none => s
    | some a =>
      match a.kind with
      | .member m _ _ _ _ => if m ≠ member || !x.inOrder a then s else if answered then goAccess s c id false else failAccess s x a
      | _ => s)

end Sys2Proof.Machine
end

