-- ==== Sys2Proof/Machine/Contexts.lean ====
section
/-! DEFINITION. Contexts: creation and end, time slices, pre-emption, exchange and rotation (R20, R104, R255 to R259, R286, R304,
R306 to R314, R327, R328). -/

namespace Sys2Proof.Machine

/-! ### Slices and the signal -/

/-- A launch waits for a share to be admitted (R306). -/
def Launch.waits (l : Launch) : Bool := l.ended.isNone && !l.waiting.isEmpty
/-- The context has work: a resident block, a launch that is not complete, or a record to take (R306). -/
def Context.hasWork (x : Context) : Bool := !x.blocks.isEmpty || !x.launches.isEmpty || !x.submitted.isEmpty
/-- Nothing that a warp has submitted or posted is still to be taken: an exchange delivers every answer (R312). -/
def Context.answered (x : Context) : Bool :=
  x.posted.isEmpty && x.submitted.all (fun b => match b with | .host _ _ => true | .warp _ _ _ _ => false)
/-- Idle: no resident block and no launch that waits, a warp's LAUNCH that is still to be taken among them (R306). A record that the host
has posted waits for the context to run again (R314). -/
def Context.idle (x : Context) : Bool := x.blocks.isEmpty && !x.launches.any Launch.waits && x.answered

/-- The class of the slice that begins (R307): that of the oldest launch with a resident block, else of the first waiting
launch in the admission order, else class 0. -/
def Context.sliceClass (x : Context) : Nat :=
  match x.launches.find? (fun l => x.blocks.any (fun b => b.q = l.q)) with
  | some l => l.rcd.tclass
  | none =>
    match (x.launches.filter Launch.waits).foldl (fun b l => match b with
        | none => some l
        | some y => if y.rcd.tpri < l.rcd.tpri then some l else some y) (none : Option Launch) with
    | some l => l.rcd.tclass
    | none => 0

/-- The wall time of a new slice (R307). -/
def Context.newSlice (x : Context) : Nat := Config.wallPerNs * x.p.slices.getD x.sliceClass Config.class0Slice

/-- SLICE_EXPIRE (R308): with a resident block the context drains and the signal is sent; without one a new slice begins. -/
def execSliceExpire (c : Nat) (s : State) : Host.Outcome State Fault Refusal :=
  .next (match s.ctx? c with
  | none => s
  | some x =>
    if x.state ≠ .running || x.sliceLeft ≠ 0 then s
    else if x.blocks.isEmpty then s.setCtx { x with sliceLeft := x.newSlice }
    else
      s.setCtx { x with
        state := .draining, signalAt := some (s.cycle + pewterCycles (1 < x.p.dies.length)), forceAt := none
        unsignalled := (x.warps.filter (fun w => !x.isOut w.blk)).map (fun w => w.uid) })

/-- The signal at one warp (R48, R309): an RGROW that waits is refused, a warp in program mode enters the handler, and one in
another mode takes the signal later. -/
def Warp.takePreempt (w : Warp) (vector : PC) : Warp :=
  if w.mode = .program then (w.endGrow false).enterPreempt vector else { w.endGrow false with signal := true }

/-- PREEMPT_SIGNAL (R308, R309). An AMOVV whose elements are not all formed holds the warp's next issue, the handler's too (R207). -/
def execPreemptSignal (c w : Nat) (s : State) : Host.Outcome State Fault Refusal :=
  .next (s.onWarp c w (fun x w =>
    let due := match x.signalAt with
      | some t => t ≤ s.cycle
      | none => false
    let reading := match w.park with
      | some (.readout _ _ _ _ _ _ _ _) => true
      | _ => false
    if x.state ≠ .draining || !due || !x.unsignalled.contains w.uid || w.halted || reading then s
    else
      s.setCtx ({ x with unsignalled := x.unsignalled.filter (fun u => u ≠ w.uid) }.setWarp (w.takePreempt x.vector))))

/-- FORCED_STOP (R311): a warp that has not executed PDONE halts where it stands. -/
def execForcedStop (c w : Nat) (s : State) : Host.Outcome State Fault Refusal :=
  .next (s.onWarp c w (fun x w =>
    let due := match x.forceAt with
      | some t => t ≤ s.wall
      | none => false
    if x.state = .draining && due && !w.halted then s.setCtx (x.setWarp { w with halted := true }) else s))

/-! ### Exchange -/

/-- Two contexts hold the same spatial partitions (R20, R306). -/
def Context.samePart (x y : Context) : Bool :=
  x.p.dies = y.p.dies && x.p.x0 = y.p.x0 && x.p.y0 = y.p.y0 && x.p.x1 = y.p.x1 && x.p.y1 = y.p.y1
/-- The other contexts of a context's partitions. -/
def State.peers (s : State) (x : Context) : List Context := s.ctxs.filter (fun y => y.id ≠ x.id && y.samePart x)
/-- The context holds the units of its partitions, or is giving them up. -/
def Context.holds (x : Context) : Bool := x.active || x.state = .exchanging
/-- The standby context of a partition that has work (R306). -/
def State.successor (s : State) (x : Context) : Option Context := (s.peers x).find? (fun y => y.state = .standby && y.hasWork)

/-- CONTEXT_IDLE_EXCHANGE (R306). -/
def execContextIdleExchange (c : Nat) (s : State) : Host.Outcome State Fault Refusal :=
  .next (match s.ctx? c with
  | none => s
  | some x =>
    if x.state = .running && x.idle && (s.successor x).isSome then s.setCtx { x with state := .exchanging } else s)

/-- Every core of the context has halted, with nothing left to accept for its warps (R311, R312). -/
def Context.stopped (x : Context) : Bool := x.warps.all (fun w => w.halted || x.isOut w.blk) && x.answered

/-- Everything that the halted warps issued is performed and every result is delivered (R286, R312). -/
def settleWarps (s : State) (c : Nat) : State :=
  match s.ctx? c with
  | none => s
  | some x =>
    let s := (x.accesses.map (fun a => a.id)).foldl (fun s id => goAccess s c id false) s
    match s.ctx? c with
    | none => s
    | some x =>
      (x.owed.map (fun o => o.id)).foldl (fun s id =>
        match s.ctx? c with
        | none => s
        | some x =>
          match x.owed.find? (fun o => o.id = id) with
          | some o => returnResult s x o
          | none => s) s

/-- A core's or die's copies of the partitions of a context. -/
def CopyAt.inPart (k : CopyAt) (x : Context) : Bool :=
  match k with
  | .l1 c => (x.cores (c / 128)).contains c && x.p.dies.contains (c / 128)
  | .ahead c => (x.cores (c / 128)).contains c && x.p.dies.contains (c / 128)
  | .remote d _ => x.p.dies.contains d
  | .icache _ => false

/-- A warp of translated code goes on under the generations that are installed now, at the same addresses (R104; log entry 7); a
translation that was deleted keeps its own (R348). -/
def Warp.remap (w : Warp) (s : State) (c : Nat) : Warp :=
  { w with gens := w.gens.map (fun q =>
      match s.objects.find? (fun o => o.ctx = c && o.base = q.1) with
      | some o => if o.gen = 0 then q else (q.1, o.gen)
      | none => q) }

/-- The incoming context resumes (R307, R312, R313): its warps go on from where they stopped after an acquire at package
scope, but for those of a launch that is ending. -/
def resumeContext (s : State) (c : Nat) : State :=
  match s.ctx? c with
  | none => s
  | some x =>
    let live (w : Warp) : Bool := match x.launch? w.q with
      | some l => l.ended.isNone
      | none => true
    let x := { x with
      state := .running, signalAt := none, forceAt := none, unsignalled := [], sliceLeft := x.newSlice
      warps := x.warps.map (fun w => (if live w then { w with halted := false } else w).remap s c) }
    { s with copies := s.copies.filter (fun y => !y.at_.inPart x) }.setCtx x

/-- CONTEXT_EXCHANGE (R306, R312, R313): the outgoing context goes to Standby and its successor, or itself where no other has
work, runs; a standby context whose partitions nothing holds runs. -/
def execContextExchange (c : Nat) (s : State) : Host.Outcome State Fault Refusal :=
  .next (match s.ctx? c with
  | none => s
  | some x =>
    if x.state = .standby then
      if x.hasWork && !(s.peers x).any Context.holds then resumeContext s c else s
    else if !x.stopped || !(x.state = .exchanging || x.state = .draining) then s
    else
      let s := settleWarps s c
      match s.ctx? c with
      | none => s
      | some x =>
        if !x.accesses.isEmpty || !x.owed.isEmpty then s
        else
          let s := s.setCtx { x with state := .standby, signalAt := none, forceAt := none, unsignalled := [] }
          resumeContext s (match s.successor x with | some y => y.id | none => c))

/-! ### Creation, rotation and end -/

/-- The ways that a partition's contexts take when one more is held in L2 (R255). -/
def waysFit (x : Context) (ys : List Context) : Bool :=
  let held := ys.filter (fun y => y.state ≠ .inHbm)
  held.foldl (fun n y => n + y.p.vaultw) (x.p.l2rmt + x.p.vaultw) ≤ 12

/-- Rectangles that meet. -/
def paramsMeet (p q : CtxParams) : Bool :=
  p.dies.any q.dies.contains && p.x0 ≤ q.x1 && q.x0 ≤ p.x1 && p.y0 ≤ q.y1 && q.y0 ≤ p.y1

/-- A list of numbers that rise. -/
def rising (l : List Nat) : Bool := (List.range (l.length - 1)).all (fun k => l.getD k 0 < l.getD (k + 1) 0)

/-- What the rules ask of a context's parameters alone (R9, R12, R13, R20, R252, R255, R259, R304, R307, R327; log entry 70). -/
def paramsOk (p : CtxParams) : Bool :=
  p.dies ≠ [] && rising p.dies && p.dies.all (fun d => d < 4) && p.x0 ≤ p.x1 && p.x1 < 8 && p.y0 ≤ p.y1 && p.y1 < 8 &&
    p.spk ≤ 7 && p.l2rmt ≤ 8 && p.vaultw ≤ 8 && p.l2rmt + p.vaultw ≤ 12 && p.hw % 65536 = 0 && 16 ≤ p.wsz && p.wsz ≤ 24 && p.hw ≤ 2 ^ p.wsz && p.bb + p.nb ≤ 64 &&
    p.bc + p.nc ≤ 16 && p.rxid < 2 ^ 16 && p.root % 4096 = 0 && p.root + 4096 ≤ Config.hbmBytes && p.slices.length ≤ 4 &&
    p.slices.all (fun n => Config.leastSlice ≤ n) && p.groups.all (fun g => g.1 < 64)

/-- What they ask beside the contexts that exist (R20, R252, R255, R304, R306, R327, R356). Contexts share a partition only where they
span the same dies (log entry 70). -/
def paramsFit (p : CtxParams) (s : State) : Bool :=
  let same (y : Context) : Bool := y.p.dies = p.dies && y.p.x0 = p.x0 && y.p.y0 = p.y0 && y.p.x1 = p.x1 && y.p.y1 = p.y1
  let apart (a n b m : Nat) : Bool := a + n ≤ b || b + m ≤ a || n = 0 || m = 0
  let shapes (d : Nat) : List (Nat × Nat × Nat × Nat) :=
    ((s.ctxs.filter (fun y => y.p.dies.contains d && !same y)).map (fun y => (y.p.x0, y.p.y0, y.p.x1, y.p.y1))).eraseDups
  p.dies.all (fun d => s.rdy.getLsbD (8 + d) && (shapes d).length < 8) &&
    s.ctxs.all (fun y =>
      y.p.rxid ≠ p.rxid &&
        (if same y then y.p.spk = p.spk && y.p.l2rmt = p.l2rmt
         else !paramsMeet y.p p &&
          (!y.p.dies.any p.dies.contains || (apart y.p.bb y.p.nb p.bb p.nb && apart y.p.bc y.p.nc p.bc p.nc))))

/-- A context as it is created (R38, R129, R130, R256, R304). -/
def newContext (s : State) (p : CtxParams) (st : CtxState) : Context :=
  { id := s.nextCtx, born := s.cycle, p := p, state := st, hw := p.hw, ctx := 1, fairt := 0x1000, fairq := 0x100, wdog := 0x100000, rndseed := 0
    gencfg := 0x1004, wawdrop := 0, gtdrop := 0, utvec := 0, sliceLeft := 0, signalAt := none, forceAt := none, unsignalled := []
    busy := 0, taken := 0, submitted := [], nextQ := 1, launches := [], blocks := [], warps := [], queues := [], barGens := []
    barCount := [], closings := [], bcValue := [], bcGen := [], bcasts := [], rxGen := 0, channels := [], posted := [], cards := []
    engOps := [], accMem := [], accTaken := [], accesses := [], owed := [], absent := [] }

/-- The creation of a context (R304): it runs where its partitions are free and the driver starts it, stands by where no other
does and its ways fit, and otherwise waits in HBM (R255, R306). -/
def State.create (s : State) (p : CtxParams) : State :=
  (if !paramsOk p || !paramsFit p s then s
  else
    let x := newContext s p .inHbm
    let ys := s.peers x
    let st : CtxState :=
      if !waysFit x ys then .inHbm
      else if p.running && !ys.any Context.holds then .running
      else if !ys.any (fun y => y.state = .standby) then .standby else .inHbm
    { s with
      nextCtx := s.nextCtx + 1
      ctxs := s.ctxs ++ [{ x with state := st, sliceLeft := x.newSlice }]
      objects := s.objects ++ p.objects.map (fun o =>
        { ctx := s.nextCtx, base := o.1, size := o.2.1, alavy := o.2.2.1, secver := o.2.2.2.1, transver := o.2.2.2.2
          gen := 0, used := [], side := [] }) })

/-- CONTEXT_CREATE (R304). -/
def execContextCreate (p : CtxParams) (s : State) : Host.Outcome State Fault Refusal := .next (s.create p)

/-- TENANT_ROTATION (R256, R306): the driver takes a standby context out to HBM, or brings one in as standby. -/
def execTenantRotation (c : Nat) (inward : Bool) (s : State) : Host.Outcome State Fault Refusal :=
  .next (match s.ctx? c with
  | none => s
  | some x =>
    let ys := s.peers x
    if inward then
      if x.state = .inHbm && !ys.any (fun y => y.state = .standby) && waysFit x ys then
        s.setCtx { x with state := .standby }
      else s
    else if x.state = .standby then s.setCtx { x with state := .inHbm } else s)

/-- A key of a context's vaults, SRAM arrays or saved scratchpads. -/
def keyOfCtx (c k : Nat) : Bool := 0x100 + c * 0x1000 ≤ keySpace k && keySpace k < 0x100 + (c + 1) * 0x1000

/-- Drops the messages of a receive context on some dies: in the queue, flagged, matched or waiting (R217, R328). -/
def State.dropHeld (s : State) (rxid : Nat) (dies : List Nat) : State :=
  let mine (h : Held) : Bool := h.msg.rxid = rxid && dies.contains h.die
  (s.held.filter mine).foldl (fun s h => s.returnSlots h.die h.msg.srcPkg (if h.queued || h.landfault then 0 else h.inSlots))
    { s with held := s.held.filter (fun h => !mine h)
             driverLog := s.driverLog ++ ((s.held.filter mine).map (fun h => BitVec.ofNat 64 h.id)) }

/-- CONTEXT_END (R217, R256, R328): a context without launches ends; its vaults, receives, queued messages, signed objects and
translations go with it. -/
def execContextEnd (c : Nat) (s : State) : Host.Outcome State Fault Refusal :=
  .next (match s.ctx? c with
  | none => s
  | some x =>
    if x.hasWork then s
    else
      let s := (s.dropReceives (fun r => r.ctx = c)).dropHeld x.p.rxid x.p.dies
      { s with
        ctxs := s.ctxs.filter (fun y => y.id ≠ c)
        mem := s.mem.filter (fun q => !keyOfCtx c q.1)
        poison := s.poison.filter (fun g => !keyOfCtx c (g / 64))
        objects := s.objects.filter (fun o => o.ctx ≠ c)
        tlb := s.tlb.filter (fun t => t.ctx ≠ some c)
        copies := s.copies.filter (fun y => match y.at_ with | .remote _ k => k ≠ c | _ => true)
        migs := s.migs.filter (fun m => m.ctx ≠ some c) })

end Sys2Proof.Machine
end

