-- ==== Sys2Proof/Machine/Fetch.lean ====
section
/-! DEFINITION. Fetching an instruction, the faults that the driver answers, and the moves of pages and blocks (R104, R260, R262 to
R269, R356). -/

namespace Sys2Proof.Machine

/-! ### Fetch -/

/-- How a fetch ends (R265, R267, R269): with the word, with a trap and what it consumes and tells, at a missing page, or not
yet. -/
inductive Fetched where
  | word (w : Word)
  | trap (c : Cause) (recs : List (Word × Word)) (told : List Word)
  | missing
  | wait
  deriving DecidableEq, Repr

/-- The trap of a fetch that meets an error in a granule (R269, R324, R349). -/
def badFetch (va : Nat) (keys : List Nat) : Fetched :=
  .trap .dataError (keys.map (badRecord 0x02)) (if keys.any (fun k => keySpace k ≠ 0) then [BitVec.ofNat 64 va] else [])

/-- The word at a key through a core's instruction cache (R268): a line that it holds when this cycle's choice takes it,
otherwise the bytes in memory, which fill the line; that request is counted for a MODE 11 page (R264). -/
def fetchWord (s : State) (c core k : Nat) (p : Piece) : State × Fetched :=
  let va := p.va
  match (if s.pick 1 then s.copies.find? (fun y => y.line = k / 128 && y.at_ = .icache core) else none) with
  | some y =>
    match y.bad.filter (fun p => poisonHits p k 8) with
    | [] => (s, .word (BitVec.ofNat 64 (y.bytes k 8)))
    | ps => (s, badFetch va (ps.map (fun p => p / 64)))
  | none =>
    if !s.reachable k then (s, .trap .remoteError [] [BitVec.ofNat 64 va])
    else if keySpace k = 0 && !s.hbmReady k then (s, .wait)
    else match s.badGranules k 8 with
    | [] => ((s.countMiss c core [p]).fillCopy (2 ^ 32) (.icache core) (k / 128), .word (BitVec.ofNat 64 (readBytes s.mem k 8)))
    | ks => (s, badFetch va ks)

/-- Fetches the instruction of an entry (R265, R267): PTE_INVALID, a missing page, then PERM_EXEC. -/
def fetch (s : State) (x : Context) (w : Warp) (e : Entry) : State × Fetched :=
  let va := e.pc.toNat
  let unit := tlbCore (widCoreNo w.wid)
  match findLeaf s x unit va false with
  | .invalid => (s, .trap .pteInvalid [] [])
  | .missing => (s, .missing)
  | .poisoned a => (s, .trap .dataError [badRecord 0x02 (keyHbm a)] [])
  | .busy => (s, .wait)
  | .leaf pte level _ =>
    if !pte.testBit 60 then (s, .trap .permExec [] [])
    else
      let k := leafKey s pte level va
      fetchWord (touchLeaf s x unit va false) x.id (widCoreNo w.wid) k (leafPiece pte level va (k * 8) 64 0)

/-- The word as the machine executes it: translated code has every W bit set (R103), which `Env.waits` reads from the
generation; how it is decoded, with the trap where it is no instruction (R96). -/
def decodeFetched (w : Word) : Except Cause Instr :=
  match decodeWord w with
  | .ok i => .ok i
  | .error .rsvdBits => .error .rsvdBits
  | .error .illegalX => .error .illegalX

/-! ### Swapped blocks -/

/-- Moves bytes with their marks and presence bits from one range of keys to another. -/
def moveBytes (s : State) (c a b n : Nat) : State :=
  let inside (k : Nat) : Bool := a ≤ k && k < a + n
  let s := { s with
    mem := (s.mem.filter (fun (q : Nat × Byte) => inside q.1)).foldl (fun (m : Memory) (q : Nat × Byte) => putByte m (q.1 - a + b) q.2) (s.mem.filter (fun (q : Nat × Byte) => !inside q.1))
    poison := s.poison.map (fun g => if inside (g / 64) then (g / 64 - a + b) * 64 + g % 64 else g) }
  match s.ctx? c with
  | none => s
  | some x => s.setCtx { x with absent := x.absent.map (fun l => if inside (l * 128) then (l * 128 - a + b) / 128 else l) }

/-- Accesses of a block to its scratchpad, or engine operations of it, are still to be performed. -/
def Context.scratchBusy (x : Context) (b : Block) : Bool :=
  let k := b.sram x
  x.accesses.any (fun a => b.warps.contains a.uid && a.pieces.any (fun p => k.1 ≤ p.pos / 8 && p.pos / 8 < k.1 + k.2)) ||
    x.engOps.any (fun o => b.warps.contains o.uid)

/-- The whole block of a warp is saved and swapped out (R267), once what it has issued to its scratchpad is performed; its cards go on in
what is saved. -/
def swapOut (s : State) (c : Nat) (b : Block) (u : Nat) : State :=
  let s := b.warps.foldl (fun s v => drainWarp s c v) s
  match s.ctx? c with
  | none => s
  | some x =>
    if x.scratchBusy b then s
    else moveBytes (s.setCtx ((x.setBlock { b with swapped := some u }).rehome b.id b.saveBase)) c (b.sram x).1 (b.saveKey x) b.spSize

/-- FETCH_FAULT_SWAP (R267): the next instruction of a warp lies on a page that is not mapped. -/
def execFetchFaultSwap (c w : Nat) (s : State) : Host.Outcome State Fault Refusal :=
  .next (s.onWarp c w (fun x w =>
    let ready := match w.park with
      | none => true
      | some k => !x.parked k
    match selectEntry x.prog (w.opened x.prog), x.block? w.blk with
    | some e, some b =>
      if x.runs w && ready && (fetch s x w e).2 = .missing then swapOut s c b w.uid else s
    | _, _ => s))

/-- The driver writes page-table entries (R260, R265). -/
def State.writePtes (s : State) (ptes : List (Nat × Word)) : State :=
  { s with mem := ptes.foldl (fun (m : Memory) (q : Nat × Word) => writeBytes m (keyHbm q.1) 8 q.2.toNat) s.mem }

/-- Every page-table entry that the driver writes lies in a stack that is ready (R356). -/
def State.ptesReady (s : State) (ptes : List (Nat × Word)) : Bool := ptes.all (fun q => s.hbmReady q.1)
/-- What a reply of the driver writes lies in stacks that are ready (R356). -/
def State.replyReady (s : State) (r : DriverReply) : Bool :=
  match r with
  | .mapped ptes _ => s.ptesReady ptes
  | .refused => true

/-- The registers and the scratchpad of a swapped block can be had again in the same places (R267). -/
def Context.canReturn (x : Context) (b : Block) : Bool :=
  let mine (part : Nat) : Nat := (x.warps.filter (fun w => w.blk = b.id && w.wid / 8 = part)).foldl (fun n w => n + w.nregs) 0
  (List.range 4).all (fun p => x.regsUsed (b.core * 4 + p) + mine (b.core * 4 + p) ≤ 384) &&
    x.blocks.all (fun y => y.core ≠ b.core || y.swapped.isSome || y.spSize = 0 || b.spSize = 0 ||
      y.spBase + y.spSize ≤ b.spBase || b.spBase + b.spSize ≤ y.spBase)

/-- The trap of an entry that could not be fetched, with its address (R265, R267). -/
def fetchTrap (s : State) (c u : Nat) (cause : Cause) (recs : List (Word × Word)) (told : List Word) : State :=
  match openIssue (.nop ⟨15, false, 0, 0, 0, 0, 0, false, false, false, 0⟩) 0 { s with cur := some (c, u) } with
  | none => s
  | some env =>
    { settle .plain env (.trap { cause := cause, tval := env.e.pc.setWidth 64, mask := env.e.mask, recs := recs, told := told }) with
      cur := s.cur }

/-- BLOCK_SWAP_IN (R267): the block returns to its slots; where the driver refused the page, the entry traps with
PAGE_FAULT. A write of the driver to a stack that is not ready waits (R356). -/
def execBlockSwapIn (c blk : Nat) (r : DriverReply) (s : State) : Host.Outcome State Fault Refusal :=
  .next (match s.ctx? c with
  | none => s
  | some x =>
    match x.block? blk with
    | none => s
    | some b =>
      match b.swapped with
      | none => s
      | some u =>
        if x.state ≠ .running || !x.canReturn b || !s.replyReady r then s
        else
          let s := moveBytes (s.setCtx ((x.setBlock { b with swapped := none }).rehome b.id b.spBase)) c (b.saveKey x) (b.sram x).1 b.spSize
          match r with
          | .mapped ptes _ => s.writePtes ptes
          | .refused => fetchTrap s c u .pageFault [] [])

/-- DEMAND_PAGING (R259, R260, R265): the driver maps pages and may raise HW, by whole pages, and the instruction issues again; or it refuses, and the
instruction traps at its next issue. A write of the driver to a stack that is not ready waits (R356). -/
def execDemandPaging (c w : Nat) (r : DriverReply) (s : State) : Host.Outcome State Fault Refusal :=
  .next (s.onWarp c w (fun x w =>
    if !s.replyReady r then s else match w.park with
    | some (.driver va priv) =>
      let pws := 2 ^ x.p.wsz
      match r with
      | .mapped ptes hw =>
        let up := match hw with
          | some n => if priv then min pws (max x.hw (n / 65536 * 65536)) else x.hw
          | none => x.hw
        (s.writePtes ptes).setCtx ({ x with hw := up }.setWarp { w with park := none })
      | .refused =>
        let growth := priv && (va - x.p.privBase) % pws < pws - x.hw
        s.setCtx (x.setWarp { w with
          park := none, growRefused := w.growRefused || growth
          refused := if growth then w.refused else va / 2 ^ 16 :: w.refused })
    | _ => s))

/-! ### Pages -/

/-- A TLB entry holds the translation of an address in a context (R266). -/
def TlbEntry.covers (t : TlbEntry) (c va : Nat) : Bool := (t.ctx = none || t.ctx = some c) && t.va = va / 2 ^ t.bits

/-- Some access in flight touches keys of a range. -/
def State.touched (s : State) (k n : Nat) : Bool :=
  s.ctxs.any (fun x => x.accesses.any (fun a => a.pieces.any (fun p =>
    p.pos / 8 < k + n && k ≤ (p.pos + p.len - 1) / 8)))

/-- Copies the bytes of a page, with their marks, over those of another. -/
def copyBytes (s : State) (a b n : Nat) : State :=
  let moved (k : Nat) : Bool := a ≤ k && k < a + n
  let dest (k : Nat) : Bool := b ≤ k && k < b + n
  { s with
    mem := (s.mem.filter (fun (q : Nat × Byte) => moved q.1)).foldl (fun (m : Memory) (q : Nat × Byte) => putByte m (q.1 - a + b) q.2) (s.mem.filter (fun (q : Nat × Byte) => !dest q.1))
    poison := s.poison.filter (fun g => !dest (g / 64)) ++
      (s.poison.filter (fun g => moved (g / 64))).map (fun g => (g / 64 - a + b) * 64 + g % 64) }

/-- Every stack of a range of local memory is ready (R356). -/
def State.rangeReady (s : State) (a n : Nat) : Bool := (List.range ((n + 127) / 128)).all (fun j => s.hbmReady (a + 128 * j))

/-- No TLB and no walk cache holds the translation of an address any more (R266). -/
def State.dropTranslation (s : State) (c va : Nat) : State := { s with tlb := s.tlb.filter (fun t => !t.covers c va), wcache := [] }

/-- PAGE_MIGRATION (R264, R336, R356): a MODE 11 page whose count has reached its threshold moves to local memory, once no access
that passed its checks is left on it and the stacks that take it are ready; a migration that cannot be completed, or meets a
remote error or a page-table entry in error (R349), starts the count again. -/
def execPageMigration (die c va pfn : Nat) (ok : Bool) (s : State) : Host.Outcome State Fault Refusal :=
  .next (match s.ctx? c with
  | none => s
  | some x =>
    match walkFrom s va 5 x.p.root with
    | .leaf e level (some at_) =>
      let n := 2 ^ pageBits level
      let pageCtx := if e.testBit 3 then none else some c
      let mine (m : MigCount) : Bool := m.die = die && m.ctx = pageCtx && m.va / n = va / n
      let count := (s.migs.filter mine).foldl (fun k m => k + m.count) 0
      let src := leafKey s e level (va / n * n)
      let dst := pfn * 2 ^ 16
      let again (s : State) : State := { s with migs := s.migs.filter (fun (m : MigCount) => !mine m) }
      let bad := s.badGranules src n
      if natBits e 59 58 ≠ 3 || count < 2 ^ (4 + natBits e 57 55) || s.touched src n then s
      else if !ok || !s.reachable src || dst % n ≠ 0 || Config.hbmBytes < dst + n then again s
      else if bad ≠ [] then
        again { bad.foldl (fun (s : State) k => s.record (badRecord 0x02 k).1 (badRecord 0x02 k).2) s with
          driverLog := s.driverLog ++ [BitVec.ofNat 64 va] }
      else if !s.rangeReady dst n then s
      else
        let e' := spliceBits (spliceBits (spliceBits (spliceBits e 58 2 0) 55 3 0) 47 8 0xFF) 12 35 pfn
        let s := (copyBytes s src (keyHbm dst) n).dropTranslation c va
        { s with
          mem := writeBytes s.mem (keyHbm at_) 8 e'
          copies := s.copies.filter (fun y => !(keyHbm dst ≤ y.line * 128 && y.line * 128 < keyHbm dst + n))
          migs := s.migs.filter (fun m => !(m.ctx = pageCtx && m.va / n = va / n)) }
    | .poisoned a =>
      let mine (m : MigCount) : Bool := m.die = die && (m.ctx = none || m.ctx = some c) && m.va / 2 ^ 16 = va / 2 ^ 16
      if s.migs.any (fun m => mine m && 16 ≤ m.count) then
        { s.recordKeys 0x02 [keyHbm a] with migs := s.migs.filter (fun (m : MigCount) => !mine m) }
      else s
    | _ => s)

/-- An access in flight of some context lies on the page of an address (R266): a page of any of the three sizes. -/
def State.pageInUse (s : State) (va : Nat) : Bool :=
  let base (b : Nat) : Nat := va / 2 ^ b * 2 ^ b
  s.ctxs.any (fun x => x.accesses.any (fun a => a.pieces.any (fun p =>
    keySpace (p.pos / 8) < 0x100 && [16, 21, 30].any (fun b => p.page = base b))))

/-- TLB_SHOOTDOWN (R266): it completes once the accesses that passed their checks on the page are performed, those of other
contexts too, since the old translation may have been a global one (log entry 37). -/
def execTlbShootdown (c va : Nat) (s : State) : Host.Outcome State Fault Refusal :=
  .next (if s.pageInUse va then s else s.dropTranslation c va)

end Sys2Proof.Machine
end

