-- ==== Sys2Proof/Machine/Generators.lean ====
section
/-! DEFINITION. Generator regions: opcodes 0xCA to 0xCE (R222 to R226, R316). -/

namespace Sys2Proof.Machine

/-- The region of the issuing warp in producer mode; none in the other mode, outside a region, or in a handler (R223). -/
def Env.producing (env : Env) : Option Region :=
  match env.w.region with
  | some g => if env.w.mode = .program && g.drain.isNone then some g else none
  | none => none

/-- The region of the issuing warp in consumer mode with the frame being drained (R223). -/
def Env.consuming (env : Env) : Option (Region × List (Word × Nat)) :=
  match env.w.region with
  | some g => if env.w.mode = .program then g.drain.map (fun k => (g, g.frame k)) else none
  | none => none

/-- Sets the region of the issuing warp. -/
def Env.setRegion (env : Env) (g : Region) : Env := { env with w := { env.w with region := some g } }

/-- GEN (R222): the threads of P become producers; the other live threads wait at the consumer body. -/
def execGen (r : BF) (s : State) : Host.Outcome State Fault Refusal :=
  issue (.gen r) .plain s (fun env =>
    if env.e.mask ≠ env.w.live || env.w.region.isSome || env.w.mode ≠ .program then env.wordTrap .genState
    else
      let g : Region :=
        { producers := env.p, saved := [], frame0 := [], frame1 := [], filling := 0, drain := none, arrived := 0
          cons := env.target r.off, tpri := r.tpri, next := [], due := false }
      .done { env.setRegion g with out := env.e.mask &&& ~~~env.p })

/-- Appends entries to the filling frame, and those beyond its 32 to the paired frame (R223). -/
def Region.append (g : Region) (es : List (Word × Nat)) : Region :=
  let room := 32 - g.fill.length
  let g := { g.setFrame g.filling (g.fill ++ es.take room) with filling := g.filling }
  if es.length ≤ room then g else g.setFrame (1 - g.filling) (es.drop room)

/-- YLD (R223). -/
def execYld (r : RRR) (s : State) : Host.Outcome State Fault Refusal :=
  issue (.yld r) .plain s (fun env =>
    match env.producing with
    | none => env.wordTrap .genState
    | some g => .done (env.setRegion (g.append (env.p.lanes.map (fun t => (env.v r.a t, t))))))

/-- GDONE (R223): the producers in P retire to the consumer body's wait. -/
def execGdone (r : RRR) (s : State) : Host.Outcome State Fault Refusal :=
  issue (.gdone r) .plain s (fun env =>
    match env.producing with
    | none => env.wordTrap .genState
    | some g => .done { env.setRegion { g with producers := g.producers &&& ~~~env.p } with out := env.p })

/-- GTAKE in either form (R223, R316): thread t takes position t of the frame being drained. -/
def Env.gtake (env : Env) (r : RRR) (f : Word × Nat → Word) : Res :=
  match env.consuming with
  | none => env.wordTrap .genState
  | some (_, es) =>
    let one (e : Env) (t : Nat) : Env :=
      let d := e.destV r.d.toNat t
      let v := match es[t]? with
        | some q => f q
        | none => 0
      ({ e with w := e.w.markDest d, ctx := e.ctx.owe e.id e.w.uid d v none }.bump)
    .done ((env.p.lanes.foldl one env).setP r.b (fun t => t < es.length))

/-- GTAKE (R223). -/
def execGtake (r : RRR) (s : State) : Host.Outcome State Fault Refusal :=
  issue (.gtake r) .plain s (fun env => env.gtake r (fun q => q.1))

/-- GTAKE.ln (R223). -/
def execGtakeLn (r : RRR) (s : State) : Host.Outcome State Fault Refusal :=
  issue (.gtakeLn r) .plain s (fun env => env.gtake r (fun q => BitVec.ofNat 64 q.2))

/-- GNEXT (R223, R225): the threads of P have arrived; the last arrival ends the pass after the issue. -/
def execGnext (r : RRR) (s : State) : Host.Outcome State Fault Refusal :=
  issue (.gnext r) .plain s (fun env =>
    match env.consuming with
    | none => env.wordTrap .genState
    | some (g, _) =>
      .done { env.setRegion { g with
        arrived := g.arrived ||| env.p, next := env.p.lanes.foldl (fun m t => smPut 0 m t env.next) g.next } with out := env.p })

end Sys2Proof.Machine
end

