-- ==== Sys2Proof/Machine/Integer.lean ====
section
/-! DEFINITION. The vector integer instructions (R138 to R145). -/

namespace Sys2Proof.Machine

/-- Element-wise over A and B, modulo 2^ew (R139). -/
def intBinary (i : Instr) (r : RRR) (s : State) (f : Int → Int → Int) : Host.Outcome State Fault Refusal :=
  let ty := r.x.toNat
  issueDone i .plain s (fun env => env.setV r.d (fun t =>
    packInts ty (fun k => f (elemInt ty (env.v r.a t) k) (elemInt ty (env.v r.b t) k))))

/-- Whole words of A and B (R139). -/
def wordBinary (i : Instr) (r : RRR) (s : State) (f : Word → Word → Word) : Host.Outcome State Fault Refusal :=
  issueDone i .plain s (fun env => env.setV r.d (fun t => f (env.v r.a t) (env.v r.b t)))

/-- Element-wise over A and an amount, both unsigned (R139, R144). -/
def unsignedElem (ty : Nat) (x : Word) (k : Nat) : Nat := elemOf (ewOf ty) x k

/-- Arithmetic shift right of an element, as an integer. -/
def sraInt (ty : Nat) (x : Word) (k n : Nat) : Int := signedOf (ewOf ty) (unsignedElem ty x k) / 2 ^ n

/-- IADD (R139). -/
def execIadd (r : RRR) (s : State) : Host.Outcome State Fault Refusal :=
  intBinary (.iadd r) r s (fun a b => satInt r.x.toNat (a + b))
/-- ISUB (R139). -/
def execIsub (r : RRR) (s : State) : Host.Outcome State Fault Refusal :=
  intBinary (.isub r) r s (fun a b => satInt r.x.toNat (a - b))
/-- IMUL (R139). -/
def execImul (r : RRR) (s : State) : Host.Outcome State Fault Refusal :=
  intBinary (.imul r) r s (fun a b => satInt r.x.toNat (a * b))
/-- IMULH (R139): bits [2ew − 1 : ew] of the exact product. -/
def execImulh (r : RRR) (s : State) : Host.Outcome State Fault Refusal :=
  intBinary (.imulh r) r s (fun a b => a * b / 2 ^ ewOf r.x.toNat)
/-- IMAD (R139): formed exactly, then wrapped or clamped once. -/
def execImad (r : RRR) (s : State) : Host.Outcome State Fault Refusal :=
  let ty := r.x.toNat
  issueDone (.imad r) .plain s (fun env => env.setV r.d (fun t => packInts ty (fun k =>
    satInt ty (elemInt ty (env.v r.a t) k * elemInt ty (env.v r.b t) k + elemInt ty (env.v r.c t) k))))
/-- IAND (R139). -/
def execIand (r : RRR) (s : State) : Host.Outcome State Fault Refusal := wordBinary (.iand r) r s (fun a b => a &&& b)
/-- IOR (R139). -/
def execIor (r : RRR) (s : State) : Host.Outcome State Fault Refusal := wordBinary (.ior r) r s (fun a b => a ||| b)
/-- IXOR (R139). -/
def execIxor (r : RRR) (s : State) : Host.Outcome State Fault Refusal := wordBinary (.ixor r) r s (fun a b => a ^^^ b)

/-- Element-wise shifts by B_i mod ew, B read unsigned (R139). -/
def intShift (i : Instr) (r : RRR) (s : State) (f : Word → Nat → Nat → Int) : Host.Outcome State Fault Refusal :=
  let ty := r.x.toNat
  issueDone i .plain s (fun env => env.setV r.d (fun t => packInts ty (fun k =>
    f (env.v r.a t) k (unsignedElem ty (env.v r.b t) k % ewOf ty))))

/-- ISHL (R139). -/
def execIshl (r : RRR) (s : State) : Host.Outcome State Fault Refusal :=
  intShift (.ishl r) r s (fun a k n => ((unsignedElem r.x.toNat a k * 2 ^ n : Nat) : Int))
/-- ISHR (R139). -/
def execIshr (r : RRR) (s : State) : Host.Outcome State Fault Refusal :=
  intShift (.ishr r) r s (fun a k n => ((unsignedElem r.x.toNat a k / 2 ^ n : Nat) : Int))
/-- ISRA (R139). -/
def execIsra (r : RRR) (s : State) : Host.Outcome State Fault Refusal :=
  intShift (.isra r) r s (fun a k n => sraInt r.x.toNat a k n)
/-- IMIN (R139). -/
def execImin (r : RRR) (s : State) : Host.Outcome State Fault Refusal :=
  intBinary (.imin r) r s (fun a b => if a ≤ b then a else b)
/-- IMAX (R139). -/
def execImax (r : RRR) (s : State) : Host.Outcome State Fault Refusal :=
  intBinary (.imax r) r s (fun a b => if a ≤ b then b else a)

/-- The predicate of a comparison over elements (R140). -/
def intPred (i : Instr) (x : Nat) (d a : BitVec 8) (s : State) (rhs : Env → Nat → Nat → Int) :
    Host.Outcome State Fault Refusal :=
  issueDone i .plain s (fun env => env.setP d (fun t =>
    overElems (x / 16 % 4) (64 / ewOf x) (fun k => intCc (x / 64) (elemInt x (env.v a t) k) (rhs env t k))))

/-- ICMP (R140). -/
def execIcmp (r : RRR) (s : State) : Host.Outcome State Fault Refusal :=
  intPred (.icmp r) r.x.toNat r.d r.a s (fun env t k => elemInt r.x.toNat (env.v r.b t) k)
/-- ICMPI (R140, R144). -/
def execIcmpi (r : RI) (s : State) : Host.Outcome State Fault Refusal :=
  intPred (.icmpi r) r.x.toNat r.d r.a s (fun _ _ _ => logicImm r.x.toNat r.imm.toNat)
/-- ICMPM (R140): all ones or zero per element. -/
def execIcmpm (r : RRR) (s : State) : Host.Outcome State Fault Refusal :=
  intBinary (.icmpm r) r s (fun a b => if intCc (r.x.toNat / 64) a b then -1 else 0)
/-- ISEL (R141). -/
def execIsel (r : RRR) (s : State) : Host.Outcome State Fault Refusal :=
  issueDone (.isel r) .plain s (fun env => env.setV r.d (fun t =>
    if (env.pr r.c).has t then env.v r.a t else env.v r.b t))
/-- ISEL.m (R141). -/
def execIselM (r : RRR) (s : State) : Host.Outcome State Fault Refusal :=
  let ty := r.x.toNat
  issueDone (.iselM r) .plain s (fun env => env.setV r.d (fun t => packInts ty (fun k =>
    if unsignedElem ty (env.v r.c t) k ≠ 0 then (unsignedElem ty (env.v r.a t) k : Int)
    else unsignedElem ty (env.v r.b t) k)))

/-- The number of one bits among the low w bits. -/
def popNat (w n : Nat) : Nat := ((List.range w).filter (fun k => n.testBit k)).length
/-- The number of leading zeros of w bits; w for zero. -/
def clzNat (w n : Nat) : Nat := if n = 0 then w else w - 1 - n.log2

/-- Element-wise over A, unsigned (R139). -/
def intUnary (i : Instr) (r : RRR) (s : State) (f : Nat → Nat) : Host.Outcome State Fault Refusal :=
  let ty := r.x.toNat
  issueDone i .plain s (fun env => env.setV r.d (fun t => packInts ty (fun k => f (unsignedElem ty (env.v r.a t) k))))

/-- IPOPC (R139). -/
def execIpopc (r : RRR) (s : State) : Host.Outcome State Fault Refusal :=
  intUnary (.ipopc r) r s (popNat (ewOf r.x.toNat))
/-- ICLZ (R139). -/
def execIclz (r : RRR) (s : State) : Host.Outcome State Fault Refusal :=
  intUnary (.iclz r) r s (clzNat (ewOf r.x.toNat))

/-- One element of IBFE (R142). -/
def bfeElem (ty a b c : Nat) : Int :=
  let ew := ewOf ty
  let pos := b % 64
  let len := c % 128
  if len = 0 || ew ≤ pos then 0
  else
    let l := min len (ew - pos)
    let fld := a / 2 ^ pos % 2 ^ l
    if sgnOf ty then signedOf l fld else fld

/-- One element of IBFI (R142). -/
def bfiElem (ty d a b c : Nat) : Nat :=
  let ew := ewOf ty
  let pos := b % 64
  let len := c % 128
  if len = 0 || ew ≤ pos then d else spliceBits d pos (min len (ew - pos)) a

/-- IBFE (R142). -/
def execIbfe (r : RRR) (s : State) : Host.Outcome State Fault Refusal :=
  let ty := r.x.toNat
  issueDone (.ibfe r) .plain s (fun env => env.setV r.d (fun t => packInts ty (fun k =>
    bfeElem ty (unsignedElem ty (env.v r.a t) k) (unsignedElem ty (env.v r.b t) k) (unsignedElem ty (env.v r.c t) k))))
/-- IBFI (R142). -/
def execIbfi (r : RRR) (s : State) : Host.Outcome State Fault Refusal :=
  let ty := r.x.toNat
  issueDone (.ibfi r) .plain s (fun env => env.setV r.d (fun t => packInts ty (fun k =>
    bfiElem ty (unsignedElem ty (env.v r.d t) k) (unsignedElem ty (env.v r.a t) k)
      (unsignedElem ty (env.v r.b t) k) (unsignedElem ty (env.v r.c t) k))))
/-- LEA (R143). -/
def execLea (r : RRR) (s : State) : Host.Outcome State Fault Refusal :=
  let ty := r.x.toNat
  issueDone (.lea r) .plain s (fun env => env.setV r.d (fun t =>
    env.v r.a t + wordInt (elemInt ty (env.v r.b t) 0 * 2 ^ (ty / 8))))

/-- Element-wise over A and an immediate (R144). -/
def intImm (i : Instr) (r : RI) (s : State) (f : Nat → Int) : Host.Outcome State Fault Refusal :=
  let ty := r.x.toNat
  issueDone i .plain s (fun env => env.setV r.d (fun t => packInts ty (fun k => f (unsignedElem ty (env.v r.a t) k))))

/-- An element as the type reads it. -/
def readTy (ty n : Nat) : Int := if sgnOf ty then signedOf (ewOf ty) n else n

/-- IADDI (R144). -/
def execIaddi (r : RI) (s : State) : Host.Outcome State Fault Refusal :=
  let ty := r.x.toNat
  intImm (.iaddi r) r s (fun n => satInt ty (readTy ty n + addImm ty r.imm.toNat))
/-- IANDI (R144). -/
def execIandi (r : RI) (s : State) : Host.Outcome State Fault Refusal :=
  let ty := r.x.toNat
  intImm (.iandi r) r s (fun n => ((n &&& wrapNat (ewOf ty) (logicImm ty r.imm.toNat) : Nat) : Int))
/-- IORI (R144). -/
def execIori (r : RI) (s : State) : Host.Outcome State Fault Refusal :=
  let ty := r.x.toNat
  intImm (.iori r) r s (fun n => ((n ||| wrapNat (ewOf ty) (logicImm ty r.imm.toNat) : Nat) : Int))
/-- IXORI (R144). -/
def execIxori (r : RI) (s : State) : Host.Outcome State Fault Refusal :=
  let ty := r.x.toNat
  intImm (.ixori r) r s (fun n => ((n ^^^ wrapNat (ewOf ty) (logicImm ty r.imm.toNat) : Nat) : Int))
/-- ISHLI (R144). -/
def execIshli (r : RI) (s : State) : Host.Outcome State Fault Refusal :=
  let ty := r.x.toNat
  let n := r.imm.toNat % 64
  intImm (.ishli r) r s (fun a => if ewOf ty ≤ n then 0 else ((a * 2 ^ n : Nat) : Int))
/-- ISHRI (R144): arithmetic when X[2] = 1. -/
def execIshri (r : RI) (s : State) : Host.Outcome State Fault Refusal :=
  let ty := r.x.toNat
  let n := r.imm.toNat % 64
  intImm (.ishri r) r s (fun a => readTy ty a / 2 ^ n)
/-- MOV (R145). -/
def execMov (r : RRR) (s : State) : Host.Outcome State Fault Refusal :=
  issueDone (.mov r) .plain s (fun env => env.setV r.d (fun t => env.v r.a t))
/-- MOVI (R145). -/
def execMovi (r : I32) (s : State) : Host.Outcome State Fault Refusal :=
  let ty := r.x.toNat
  issueDone (.movi r) .plain s (fun env => env.setV r.d (fun _ =>
    if ty % 4 = 3 then (if sgnOf ty then r.imm.signExtend 64 else r.imm.zeroExtend 64)
    else packInts ty (fun _ => (r.imm.toNat : Int))))
/-- MOVI.hi (R145). -/
def execMoviHi (r : I32) (s : State) : Host.Outcome State Fault Refusal :=
  issueDone (.moviHi r) .plain s (fun env => env.setV r.d (fun t => r.imm ++ (env.v r.d t).extractLsb' 0 32))

end Sys2Proof.Machine
end

