-- ==== Sys2Proof/Machine/Service.lean ====
section
/-! DEFINITION. Errors and the journal, readiness, features, ports, recovery, the fuse counter, reset and power (R269, R321 to R324,
R345, R349 to R353, R355 to R362). -/

namespace Sys2Proof.Machine

/-! ### Errors -/

/-- The source word of an error's record (R350). -/
def errorSrc (typ : BitVec 8) (e : ErrorEvent) : Word := srcWord typ e.unit e.die e.cluster e.idx

/-- The units that an error record names (R350). -/
def errorUnit (u : BitVec 8) : Bool := 1 ≤ u.toNat && u.toNat ≤ 7

/-- ERROR_CORRECTED (R269, R349): the record; the data are what they were. -/
def execErrorCorrected (e : ErrorEvent) (s : State) : Host.Outcome State Fault Refusal :=
  .next (if errorUnit e.unit then s.record (errorSrc 0x01 e) e.loc else s)

/-- Marks the 16 bytes of a byte in the copies at a place (R269). -/
def State.spoilCopy (s : State) (at_ : CopyAt) (k : Nat) : State :=
  { s with copies := s.copies.map (fun c => if c.at_ = at_ && c.line = k / 128 then { c with bad := markGranule c.bad k 16 } else c) }

/-- Marks what an uncorrectable error spoils (R269): the granule of a byte, or a register that holds a value. -/
def State.spoil (s : State) (site : ErrorSite) : State :=
  match site with
  | .granule k => s.poisonKeys [k]
  | .l2 k => { s with poison := markGranule s.poison k 16 }
  | .l1 core k => s.spoilCopy (.l1 core) k
  | .remoteWays die c k => s.spoilCopy (.remote die c) k
  | .vreg c w r t => s.onWarp c w (fun x w => if w.vmark r t = .full then s.setCtx (x.setWarp (w.markV r t .regError)) else s)
  | .sreg c w r => s.onWarp c w (fun x w => if w.smark r = .full then s.setCtx (x.setWarp (w.markS r .regError)) else s)
  | .reg c w cls n => s.onWarp c w (fun x w =>
      let k := faultKey cls n
      if cls < 2 || 5 < cls || w.faults.contains k then s else s.setCtx (x.setWarp { w with faults := w.faults ++ [k] }))
  | .none => s

/-- UNCORRECTABLE_ERROR (R269, R346, R349). -/
def execUncorrectableError (e : ErrorEvent) (s : State) : Host.Outcome State Fault Refusal :=
  .next (if errorUnit e.unit then (s.record (errorSrc (if e.consumed then 0x02 else 0x03) e) e.loc).spoil e.site else s)

/-- JAP_WRITE (R352, R355): a write below the pointer or above JWP is ignored. The records of the cycle, and the count of dropped
ones, are appended after it (log entry 64). -/
def execJapWrite (v : Nat) (s : State) : Host.Outcome State Fault Refusal :=
  .next (if s.jap ≤ v && v ≤ s.jwp then { s with jap := v } else s)

/-- ATTESTATION_REQUEST (R359): the index rises before the report is signed; an exhausted key signs nothing. -/
def execAttestationRequest (nonce : Word) (s : State) : Host.Outcome State Fault Refusal :=
  .next (if s.sigIndex < 2 ^ 40 then
      { s with sigIndex := s.sigIndex + 1, reports := s.reports ++ [Config.attest s.sigIndex nonce] }
    else s)

/-! ### Features and readiness -/

/-- NFEAT_WRITE (R358): ignored while a context exists that was not created in the same cycle; a feature that is not offered stays
0. In a pod the package has its number (log entry 9); outside one no port is live (R321). -/
def execNfeatWrite (v : Word) (s : State) : Host.Outcome State Fault Refusal :=
  .next (if s.ctxs.all (fun x => x.born = s.cycle) then
      let n := v &&& Config.featOffered &&& 0xF
      if n.getLsbD 1 then { s with nfeat := n, pod := some (Config.podNumber % 128) }
      else { s with nfeat := n, pod := none, rdy := s.rdy &&& ~~~0xFFFF0000 }
    else s)

/-- FUNCTION_READY (R321, R356, R358): a port trains only in a pod with NFEAT.POD, and a dead one only by retraining. -/
def execFunctionReady (bit : Nat) (s : State) : Host.Outcome State Fault Refusal :=
  .next (
    let port := 16 ≤ bit && bit < 32
    if 41 ≤ bit || (port && (!s.nfeat.getLsbD 1 || s.pod.isNone || s.dead.getLsbD (bit - 16))) then s
    else { s with rdy := s.rdy ||| BitVec.ofNat 64 (2 ^ bit) })

/-! ### Ports -/

/-- The port that the path of an access to a key starts from (R321, R323); none where no port is live. -/
def State.portOf (s : State) (k : Nat) : Option Nat :=
  let t := keySpace k
  if t = 0 || 0x100 ≤ t then none
  else if 0x81 ≤ t then (if s.portLive (t - 0x81) then some (t - 0x81) else none)
  else ((List.range 16).map (fun i => (natBits k 10 7 + i) % 16)).find? s.portLive

/-- The path of an access starts from a port: for a multicast's members, that of the group's home (R323, R337). -/
def State.through (s : State) (k : Nat) (a : Access) : Bool :=
  match a.kind.home with
  | some h => h = 0x80 + k
  | none => a.pieces.any (fun p => s.portOf (p.pos / 8) = some k)

/-- Fails the accesses in flight whose path is a port, each when those before it have gone (R324). -/
def State.failPort (s : State) (k : Nat) : State :=
  s.ctxs.foldl (fun s0 x =>
    (x.accesses.filter (s.through k)).foldl (fun s0 a =>
      match s0.ctx? x.id with
      | some y => if y.inOrder a then failAccess s0 y a else s0
      | none => s0) s0) s

/-- PORT_DEAD (R321, R324, R349, R356). -/
def execPortDead (k : Nat) (s : State) : Host.Outcome State Fault Refusal :=
  .next (if 16 ≤ k || !s.portLive k then s
  else
    let s := (s.record (srcWord 0x04 0x07 (BitVec.ofNat 8 (k / 4)) 0 (BitVec.ofNat 32 k)) 0).failPort k
    { s with rdy := s.rdy &&& ~~~(BitVec.ofNat 64 (2 ^ (16 + k))), dead := s.dead ||| BitVec.ofNat 16 (2 ^ k) })

/-- PORT_RETRAIN (R321, R356). -/
def execPortRetrain (k : Nat) (s : State) : Host.Outcome State Fault Refusal :=
  .next (if 16 ≤ k || !s.dead.getLsbD k || !s.nfeat.getLsbD 1 then s
  else { s with rdy := s.rdy ||| BitVec.ofNat 64 (2 ^ (16 + k)), dead := s.dead &&& ~~~(BitVec.ofNat 16 (2 ^ k)) })

/-! ### Recovery -/

/-- A context that holds no units loses its saved image (R355); its launches stay, to end. -/
def Context.discard (x : Context) : Context :=
  if x.active then x
  else
    { x with
      blocks := [], warps := [], queues := [], barGens := [], barCount := [], closings := [], bcValue := [], bcGen := [], bcasts := []
      channels := [], posted := [], cards := [], engOps := [], accMem := [], accTaken := [], accesses := [], owed := [], absent := [] }

/-- Step 1 of R353: every launch of the job ends with RECOVERY, its records that were not taken are dropped, and a standby image is
discarded (R355). -/
def State.endJob (s : State) (r : RecoveryPlan) : State :=
  { s with ctxs := s.ctxs.map (fun x =>
      if r.job.contains x.id then
        (x.launches.foldl (fun (x : Context) l => x.endLaunch l.q .recovery) { x with submitted := [], busy := 0 }).discard
      else x) }

/-- A record posted again through the launch window; one for which there is no free slot yet waits (R294, R353). -/
def State.repost (s : State) (q : Nat × List Byte) : State :=
  match s.ctx? q.1 with
  | none => s
  | some x =>
    match (List.range 16).find? (fun k => !x.busy.getLsbD k) with
    | none => { s with reposts := s.reposts ++ [q] }
    | some k => s.setCtx { x with busy := x.busy ||| BitVec.ofNat 16 (2 ^ k), submitted := x.submitted ++ [.host k q.2] }

/-- Step 4 of R353 as far as the windows have room, and step 5, the record of the end, once all is posted. -/
def State.postAll (s : State) : State :=
  let t := s.reposts.foldl State.repost { s with reposts := [] }
  if t.reposts = [] then { t.record (srcWord 0x08 0x00 0 0 0) 0 with recovering := false } else t

/-- Step 2 of R353: the failed package's number, its contexts with their receive-context numbers and multicast groups, and the pages
that are remapped. -/
def State.takeOver (s : State) (r : RecoveryPlan) : State :=
  let s := match r.takesNumber with
    | some n => if s.nfeat.getLsbD 1 then { s with pod := some (n % 128) } else s
    | none => s
  let s := r.contexts.foldl State.create s
  let s := r.groups.foldl (fun s g => s.hostWrite g.1 (.group g.2.1 g.2.2)) s
  if r.remap = [] then s else { s.writePtes r.remap with tlb := [], wcache := [] }

/-- A copy channel as a checkpoint holds it (R353, R354): no card is linked and no chain is walked. -/
def ChannelSeed.channel (h : ChannelSeed) : Channel :=
  { cl := h.cl, ch := h.ch, ring := h.ring, k := h.k, nextSlot := h.nextSlot, last := none, cw := h.cw, nextSeq := h.nextSeq
    done := h.done, err := h.err, ahead := [], walking := none, chainSlots := [], chainQ := 0, chainBlk := 0, chainCore := 0
    chainSp := (0, 0) }

/-- A context as the checkpoint holds it, with no work (R353, R354): its registers, PRIVHW in whole steps of 64 KiB of its window (R259), the
next sequence number, on which the placement of blocks depends (R296), its receive generation, and its channels. -/
def Context.goBack (x : Context) (q : ContextSeed) : Context :=
  { x with
    ctx := q.csr &&& 1, hw := min (q.hw / 65536 * 65536) (2 ^ x.p.wsz), rndseed := q.rndseed, nextQ := q.nextQ, rxGen := q.rxGen
    fairt := q.fairt, fairq := q.fairq, wdog := q.wdog, gencfg := q.gencfg
    utvec := q.utvec, wawdrop := q.wawdrop, gtdrop := q.gtdrop, barGens := [], barCount := [], closings := [], bcasts := []
    bcValue := q.bcast.foldl (fun (m : SMap Word) e => smPut 0 m e.1 e.2.1) []
    bcGen := q.bcast.foldl (fun (m : SMap Nat) e => smPut 0 m e.1 e.2.2) []
    channels := q.channels.map ChannelSeed.channel }

/-- The writes of a plan's steps 2 and 3 lie in HBM stacks that are ready (R356). -/
def State.planReady (s : State) (r : RecoveryPlan) : Bool :=
  s.ptesReady r.remap && r.restore.all (fun q => keySpace q.1 ≠ 0 || s.hbmReady q.1)

/-- Drops the messages that a context has sent or received since the checkpoint (R354): they are sent again. Their slots return. -/
def State.forgetMessages (s : State) (x : Context) (stamp : Nat) : State :=
  let late (die rxid id : Nat) : Bool := rxid = x.p.rxid && x.p.dies.contains die && stamp ≤ id
  let lateHeld (h : Held) : Bool := late h.die h.msg.rxid h.id
  let lateActive (h : HeldActive) : Bool := late h.die h.msg.rxid h.id
  let mine (z : Sending) : Bool := z.ctx = x.id && stamp ≤ z.id
  let s := (s.held.filter lateHeld).foldl (fun s h => s.returnSlots h.die h.msg.srcPkg (if h.queued || h.landfault then 0 else h.inSlots)) s
  let s := (s.actives.filter lateActive).foldl (fun s h => s.returnSlots h.die (activePkg h.msg) 1) s
  let s := (s.sending.filter mine).foldl (fun s z => if z.pkg = 0xFF && !z.matched then s.returnSlots z.die 0xFF z.granted else s) s
  { s with
    held := s.held.filter (fun h => !lateHeld h)
    actives := s.actives.filter (fun h => !lateActive h)
    sending := s.sending.filter (fun z => !mine z) }

/-- What a context has posted, sent and received since the checkpoint goes, before its launches run again (R354): the receives posted
since, and the messages; an older receive that has not completed is open again, unless a message of before the checkpoint is still
landing in it (log entry 105). -/
def State.forget (s : State) (q : ContextSeed) : State :=
  match s.ctx? q.ctx with
  | none => s
  | some x =>
    let s := (s.dropReceives (fun r => r.ctx = x.id && q.rxGen ≤ r.gen)).forgetMessages x q.stamp
    { s with receives := s.receives.map (fun r =>
        if r.ctx = x.id && !r.done && !s.held.any (fun h => h.receive = some (r.die, r.entry)) then { r with open_ := true, msg := none, taken := [] }
        else r) }

/-- Step 3 of R353, and what step 4 asks of each context that posts again: the checkpoint's bytes, and what the context goes back
to. -/
def State.restore (s : State) (r : RecoveryPlan) : State :=
  { r.seeds.foldl State.forget s with
    mem := r.restore.foldl (fun (m : Memory) (q : Nat × Byte) => putByte m q.1 q.2) s.mem
    poison := s.poison.filter (granuleLeft (r.restore.map (fun q => { pos := q.1 * 8, len := 8, off := 0 })))
    ctxs := s.ctxs.map (fun x => match r.seeds.find? (fun q => q.ctx = x.id) with
      | some q => x.goBack q
      | none => x) }

/-- FATAL_FAULT_RECOVERY (R353 to R355): a fatal fault, the first or a later one, ends the job's launches, with the record of the
start; once none is left, the driver's next step carries out the rest, when the HBM stacks that it writes are ready (R356). -/
def execFatalFaultRecovery (r : RecoveryPlan) (s : State) : Host.Outcome State Fault Refusal :=
  .next (
    let left := s.ctxs.any (fun x => r.job.contains x.id && !x.launches.isEmpty)
    if r.fault || !s.recovering then { (s.record (srcWord 0x07 0x00 0 0 0) 0).endJob r with recovering := true, reposts := [] }
    else if left then s.endJob r
    else if s.reposts ≠ [] || !s.planReady r then s
    else { (s.takeOver r).restore r with reposts := r.repost }.postAll)

/-! ### Fuses, reset and power -/

/-- FSV_RAISE (R360): the running firmware, a verified image of a security version above FSV, directs the counter to rise, to at most
128; it never falls. The recovery loader directs no rise (R359). -/
def execFsvRaise (v : Nat) (s : State) : Host.Outcome State Fault Refusal :=
  .next (if s.fsv < v && s.fsvGoal < v && v ≤ 128 && !s.loader && s.fw.verified && s.fsv < s.fw.security.toNat then { s with fsvGoal := v } else s)

/-- The fuses of a rise, at the end of a cycle (R360): each is blown and read back, one in the cycle where its choice says so, else
all that are left; the new value takes effect with the last, for what is accepted after this cycle. -/
def State.blowFuses (s : State) : State :=
  if s.fuses < s.fsvGoal then
    let n := if s.pick 5 then s.fuses + 1 else s.fsvGoal
    { s with fuses := n, fsv := if n = s.fsvGoal then n else s.fsv }
  else s

/-- The state at power-on with what the package keeps (R352, R359, R360, R362), the records of the cycle with it; the inputs still to
come stay. -/
def State.kept (s : State) : State :=
  let s := s.flushRecords
  { State.reset with
    fsv := s.fuses, fuses := s.fuses, journal := s.journal, jwp := s.jwp, jap := s.jap, chain := s.chain, seals := s.seals
    sigIndex := s.sigIndex, reports := s.reports, freeCount := s.freeCount, oracle := s.oracle, agenda := s.agenda }

/-- A reset (R356, R357, R359): everything is at its reset value but what is kept; the boot ROM checks the firmware, and the
capability table is copied to local HBM of die 0. -/
def State.restart (s : State) : State := { s.kept with loader := bootLoader bootImage s.fuses }.copyTable

/-- RESET (R356, R357, R359). -/
def execReset (s : State) : Host.Outcome State Fault Refusal := .next s.restart

/-- POWER_LOSS (R362): only the fuses, the journal's state and the signature index persist; power comes back with a reset. -/
def execPowerLoss (s : State) : Host.Outcome State Fault Refusal := .next s.restart

/-- The stretched cycles of the last microsecond, 1,100 cycles (R361). -/
def State.recentDroops (s : State) : List (Nat × Nat) := s.droops.filter (fun q => s.cycle < q.1 + 1100)

/-- SUPPLY_DROOP (R5, R361): a cycle of a die is stretched, by at most a nominal period, and the cycles of any microsecond by at most
3 % of it together; dies that stretch in one cycle stretch together. Wall time passes, which slices count, and no count of
cycles changes. -/
def execSupplyDroop (die extra : Nat) (s : State) : Host.Outcome State Fault Refusal :=
  .next (
    let old := s.recentDroops
    let now := (old.filter (fun q => q.1 = s.cycle)).foldl (fun n q => n + q.2) 0
    let add := extra - now
    if 4 ≤ die || 10 < extra || 330 < old.foldl (fun n q => n + q.2) add then s
    else
      { s with
        wall := s.wall + add
        droops := if add = 0 then old else old ++ [(s.cycle, add)]
        ctxs := s.ctxs.map (fun x => if x.state = .running then { x with sliceLeft := x.sliceLeft - add } else x) })

end Sys2Proof.Machine
end

