-- ==== Sys2Proof/Machine/Uniform.lean ====
section
/-! DEFINITION. The uniform instructions and the uniform-vector moves (R118, R119). -/

namespace Sys2Proof.Machine

/-- A uniform instruction of two sources: D := f(A, B) (R118). -/
def uniBinary (i : Instr) (r : RRR) (s : State) (f : Word → Word → Word) : Host.Outcome State Fault Refusal :=
  issueDone i .plain s (fun env => env.setS r.d (f (env.s r.a) (env.s r.b)))

/-- The high half of a product of two integers. -/
def highHalf (p : Int) : Word := wordInt (p / 2 ^ 64)

/-- SADD (R118). -/
def execSadd (r : RRR) (s : State) : Host.Outcome State Fault Refusal := uniBinary (.sadd r) r s (fun a b => a + b)
/-- SSUB (R118). -/
def execSsub (r : RRR) (s : State) : Host.Outcome State Fault Refusal := uniBinary (.ssub r) r s (fun a b => a - b)
/-- SMUL (R118). -/
def execSmul (r : RRR) (s : State) : Host.Outcome State Fault Refusal := uniBinary (.smul r) r s (fun a b => a * b)
/-- SMULH (R118): unsigned for X = 0, signed for X = 1. -/
def execSmulh (r : RRR) (s : State) : Host.Outcome State Fault Refusal :=
  uniBinary (.smulh r) r s (fun a b =>
    if r.x = 0 then highHalf ((a.toNat : Int) * b.toNat) else highHalf (a.toInt * b.toInt))
/-- SAND (R118). -/
def execSand (r : RRR) (s : State) : Host.Outcome State Fault Refusal := uniBinary (.sand r) r s (fun a b => a &&& b)
/-- SOR (R118). -/
def execSor (r : RRR) (s : State) : Host.Outcome State Fault Refusal := uniBinary (.sor r) r s (fun a b => a ||| b)
/-- SXOR (R118). -/
def execSxor (r : RRR) (s : State) : Host.Outcome State Fault Refusal := uniBinary (.sxor r) r s (fun a b => a ^^^ b)
/-- SSHL by B[5:0] (R118). -/
def execSshl (r : RRR) (s : State) : Host.Outcome State Fault Refusal :=
  uniBinary (.sshl r) r s (fun a b => a <<< (b.toNat % 64))
/-- SSHR by B[5:0] (R118). -/
def execSshr (r : RRR) (s : State) : Host.Outcome State Fault Refusal :=
  uniBinary (.sshr r) r s (fun a b => a >>> (b.toNat % 64))
/-- SSRA by B[5:0] (R118). -/
def execSsra (r : RRR) (s : State) : Host.Outcome State Fault Refusal :=
  uniBinary (.ssra r) r s (fun a b => a.sshiftRight (b.toNat % 64))
/-- SMIN (R118): unsigned for X = 0, signed for X = 2. -/
def execSmin (r : RRR) (s : State) : Host.Outcome State Fault Refusal :=
  uniBinary (.smin r) r s (fun a b =>
    if r.x = 0 then (if a.toNat ≤ b.toNat then a else b) else (if a.toInt ≤ b.toInt then a else b))
/-- SMAX (R118): unsigned for X = 1, signed for X = 3. -/
def execSmax (r : RRR) (s : State) : Host.Outcome State Fault Refusal :=
  uniBinary (.smax r) r s (fun a b =>
    if r.x = 1 then (if a.toNat ≤ b.toNat then b else a) else (if a.toInt ≤ b.toInt then b else a))
/-- SADDI (R118). -/
def execSaddi (r : RI) (s : State) : Host.Outcome State Fault Refusal :=
  issueDone (.saddi r) .plain s (fun env => env.setS r.d (env.s r.a + r.imm.signExtend 64))
/-- SLDI (R118): sign-extends for X = 0, zero-extends for X = 1. -/
def execSldi (r : I32) (s : State) : Host.Outcome State Fault Refusal :=
  issueDone (.sldi r) .plain s (fun env =>
    env.setS r.d (if r.x = 0 then r.imm.signExtend 64 else r.imm.zeroExtend 64))
/-- SLDHI (R118): the high half; the low half is kept. -/
def execSldhi (r : I32) (s : State) : Host.Outcome State Fault Refusal :=
  issueDone (.sldhi r) .plain s (fun env => env.setS r.d (r.imm ++ (env.s r.d).extractLsb' 0 32))
/-- SCMP (R118). -/
def execScmp (r : RRR) (s : State) : Host.Outcome State Fault Refusal :=
  uniBinary (.scmp r) r s (fun a b => if scmpCc r.x.toNat a b then 1 else 0)
/-- SSEL (R118). -/
def execSsel (r : RRR) (s : State) : Host.Outcome State Fault Refusal :=
  issueDone (.ssel r) .plain s (fun env => env.setS r.d (if env.s r.c ≠ 0 then env.s r.a else env.s r.b))

/-- The lane that SGET names, once B is readable (R119). -/
def sgetLane (r : RRR) (env : Env) : Nat := (env.s r.b).toNat % 32

/-- SGET's sources (R119): A in the named lane alone, once B is readable. -/
def sgetOpts (r : RRR) : Opts :=
  { Opts.plain with lanes := fun env f =>
      if f = .A then (if env.w.smark r.b.toNat ≠ .full then 0 else BitVec.ofNat 32 (2 ^ sgetLane r env)) else env.e.mask }

/-- SGET (R119): lane ReadS(B)[4:0], whatever that lane's state; the W bit of A applies to that lane alone. -/
def execSget (r : RRR) (s : State) : Host.Outcome State Fault Refusal :=
  issueDone (.sget r) (sgetOpts r) s (fun env => env.setS r.d (env.v r.a (sgetLane r env)))

/-- SGET.first's sources (R119): A in the lowest lane of P alone. -/
def sgetFirstOpts : Opts :=
  { Opts.plain with lanes := fun env f =>
      if f = .A then (if env.p = 0 then 0 else BitVec.ofNat 32 (2 ^ env.p.low)) else env.e.mask }

/-- SGET.first (R119): the lowest lane of P. -/
def execSgetFirst (r : RRR) (s : State) : Host.Outcome State Fault Refusal :=
  issueDone (.sgetFirst r) sgetFirstOpts s (fun env => env.setS r.d (env.v r.a env.p.low))
/-- VBC (R119). -/
def execVbc (r : RRR) (s : State) : Host.Outcome State Fault Refusal :=
  issueDone (.vbc r) .plain s (fun env => env.setV r.d (fun _ => env.s r.a))

end Sys2Proof.Machine
end

