-- ==== Sys2Proof/Machine/Dispatch.lean ====
section
/-! DEFINITION. The meaning of every instruction and event, one arm for each constructor. -/

namespace Sys2Proof.Machine

def exec (i : Instr) (s : State) : Host.Outcome State Fault Refusal :=
  match i with
  | .nop r => Sys2Proof.Machine.execNop r s
  | .bra r => Sys2Proof.Machine.execBra r s
  | .bruAny r => Sys2Proof.Machine.execBruAny r s
  | .bruAll r => Sys2Proof.Machine.execBruAll r s
  | .brx r => Sys2Proof.Machine.execBrx r s
  | .call r => Sys2Proof.Machine.execCall r s
  | .callx r => Sys2Proof.Machine.execCallx r s
  | .ret r => Sys2Proof.Machine.execRet r s
  | .exit r => Sys2Proof.Machine.execExit r s
  | .wjoin r => Sys2Proof.Machine.execWjoin r s
  | .yield r => Sys2Proof.Machine.execYield r s
  | .prioImm r => Sys2Proof.Machine.execPrioImm r s
  | .prioReg r => Sys2Proof.Machine.execPrioReg r s
  | .trap r => Sys2Proof.Machine.execTrap r s
  | .bkpt r => Sys2Proof.Machine.execBkpt r s
  | .napImm r => Sys2Proof.Machine.execNapImm r s
  | .napReg r => Sys2Proof.Machine.execNapReg r s
  | .sadd r => Sys2Proof.Machine.execSadd r s
  | .ssub r => Sys2Proof.Machine.execSsub r s
  | .smul r => Sys2Proof.Machine.execSmul r s
  | .smulh r => Sys2Proof.Machine.execSmulh r s
  | .sand r => Sys2Proof.Machine.execSand r s
  | .sor r => Sys2Proof.Machine.execSor r s
  | .sxor r => Sys2Proof.Machine.execSxor r s
  | .sshl r => Sys2Proof.Machine.execSshl r s
  | .sshr r => Sys2Proof.Machine.execSshr r s
  | .ssra r => Sys2Proof.Machine.execSsra r s
  | .smin r => Sys2Proof.Machine.execSmin r s
  | .smax r => Sys2Proof.Machine.execSmax r s
  | .saddi r => Sys2Proof.Machine.execSaddi r s
  | .sldi r => Sys2Proof.Machine.execSldi r s
  | .sldhi r => Sys2Proof.Machine.execSldhi r s
  | .scmp r => Sys2Proof.Machine.execScmp r s
  | .ssel r => Sys2Proof.Machine.execSsel r s
  | .sget r => Sys2Proof.Machine.execSget r s
  | .sgetFirst r => Sys2Proof.Machine.execSgetFirst r s
  | .vbc r => Sys2Proof.Machine.execVbc r s
  | .iadd r => Sys2Proof.Machine.execIadd r s
  | .isub r => Sys2Proof.Machine.execIsub r s
  | .imul r => Sys2Proof.Machine.execImul r s
  | .imulh r => Sys2Proof.Machine.execImulh r s
  | .imad r => Sys2Proof.Machine.execImad r s
  | .iand r => Sys2Proof.Machine.execIand r s
  | .ior r => Sys2Proof.Machine.execIor r s
  | .ixor r => Sys2Proof.Machine.execIxor r s
  | .ishl r => Sys2Proof.Machine.execIshl r s
  | .ishr r => Sys2Proof.Machine.execIshr r s
  | .isra r => Sys2Proof.Machine.execIsra r s
  | .imin r => Sys2Proof.Machine.execImin r s
  | .imax r => Sys2Proof.Machine.execImax r s
  | .icmp r => Sys2Proof.Machine.execIcmp r s
  | .isel r => Sys2Proof.Machine.execIsel r s
  | .iselM r => Sys2Proof.Machine.execIselM r s
  | .ipopc r => Sys2Proof.Machine.execIpopc r s
  | .iclz r => Sys2Proof.Machine.execIclz r s
  | .ibfe r => Sys2Proof.Machine.execIbfe r s
  | .ibfi r => Sys2Proof.Machine.execIbfi r s
  | .lea r => Sys2Proof.Machine.execLea r s
  | .iaddi r => Sys2Proof.Machine.execIaddi r s
  | .iandi r => Sys2Proof.Machine.execIandi r s
  | .iori r => Sys2Proof.Machine.execIori r s
  | .ixori r => Sys2Proof.Machine.execIxori r s
  | .ishli r => Sys2Proof.Machine.execIshli r s
  | .ishri r => Sys2Proof.Machine.execIshri r s
  | .icmpi r => Sys2Proof.Machine.execIcmpi r s
  | .icmpm r => Sys2Proof.Machine.execIcmpm r s
  | .mov r => Sys2Proof.Machine.execMov r s
  | .movi r => Sys2Proof.Machine.execMovi r s
  | .moviHi r => Sys2Proof.Machine.execMoviHi r s
  | .fadd r => Sys2Proof.Machine.execFadd r s
  | .fsub r => Sys2Proof.Machine.execFsub r s
  | .fmul r => Sys2Proof.Machine.execFmul r s
  | .ffma r => Sys2Proof.Machine.execFfma r s
  | .fmin r => Sys2Proof.Machine.execFmin r s
  | .fmax r => Sys2Proof.Machine.execFmax r s
  | .fabsn r => Sys2Proof.Machine.execFabsn r s
  | .fcmp r => Sys2Proof.Machine.execFcmp r s
  | .fclass r => Sys2Proof.Machine.execFclass r s
  | .fdiv r => Sys2Proof.Machine.execFdiv r s
  | .fsqrt r => Sys2Proof.Machine.execFsqrt r s
  | .frcp r => Sys2Proof.Machine.execFrcp r s
  | .frsq r => Sys2Proof.Machine.execFrsq r s
  | .fexp2 r => Sys2Proof.Machine.execFexp2 r s
  | .flog2 r => Sys2Proof.Machine.execFlog2 r s
  | .fsum r => Sys2Proof.Machine.execFsum r s
  | .faddi r => Sys2Proof.Machine.execFaddi r s
  | .fmuli r => Sys2Proof.Machine.execFmuli r s
  | .ffmai r => Sys2Proof.Machine.execFfmai r s
  | .fcvt r => Sys2Proof.Machine.execFcvt r s
  | .ftoi r => Sys2Proof.Machine.execFtoi r s
  | .itof r => Sys2Proof.Machine.execItof r s
  | .fpack r => Sys2Proof.Machine.execFpack r s
  | .fbscl r => Sys2Proof.Machine.execFbscl r s
  | .fdot r => Sys2Proof.Machine.execFdot r s
  | .frnd r => Sys2Proof.Machine.execFrnd r s
  | .fscale r => Sys2Proof.Machine.execFscale r s
  | .shfl r => Sys2Proof.Machine.execShfl r s
  | .shflx r => Sys2Proof.Machine.execShflx r s
  | .shflud r => Sys2Proof.Machine.execShflud r s
  | .vote r => Sys2Proof.Machine.execVote r s
  | .matchEq r => Sys2Proof.Machine.execMatchEq r s
  | .mrank r => Sys2Proof.Machine.execMrank r s
  | .mlead r => Sys2Proof.Machine.execMlead r s
  | .elect r => Sys2Proof.Machine.execElect r s
  | .plog r => Sys2Proof.Machine.execPlog r s
  | .pmov r => Sys2Proof.Machine.execPmov r s
  | .pmovSet r => Sys2Proof.Machine.execPmovSet r s
  | .pbal r => Sys2Proof.Machine.execPbal r s
  | .redux r => Sys2Proof.Machine.execRedux r s
  | .fredx r => Sys2Proof.Machine.execFredx r s
  | .scan r => Sys2Proof.Machine.execScan r s
  | .scanFadd r => Sys2Proof.Machine.execScanFadd r s
  | .ld r => Sys2Proof.Machine.execLd r s
  | .ld2 r => Sys2Proof.Machine.execLd2 r s
  | .ldp r => Sys2Proof.Machine.execLdp r s
  | .lds r => Sys2Proof.Machine.execLds r s
  | .ldv r => Sys2Proof.Machine.execLdv r s
  | .ldu r => Sys2Proof.Machine.execLdu r s
  | .ldacq r => Sys2Proof.Machine.execLdacq r s
  | .ldpv r => Sys2Proof.Machine.execLdpv r s
  | .pfetch r => Sys2Proof.Machine.execPfetch r s
  | .ldg r => Sys2Proof.Machine.execLdg r s
  | .st r => Sys2Proof.Machine.execSt r s
  | .st2 r => Sys2Proof.Machine.execSt2 r s
  | .stp r => Sys2Proof.Machine.execStp r s
  | .sts r => Sys2Proof.Machine.execSts r s
  | .stv r => Sys2Proof.Machine.execStv r s
  | .stu r => Sys2Proof.Machine.execStu r s
  | .strel r => Sys2Proof.Machine.execStrel r s
  | .stpv r => Sys2Proof.Machine.execStpv r s
  | .mst r => Sys2Proof.Machine.execMst r s
  | .msto r => Sys2Proof.Machine.execMsto r s
  | .stsc r => Sys2Proof.Machine.execStsc r s
  | .atom r => Sys2Proof.Machine.execAtom r s
  | .acas r => Sys2Proof.Machine.execAcas r s
  | .atoms r => Sys2Proof.Machine.execAtoms r s
  | .fatom r => Sys2Proof.Machine.execFatom r s
  | .fence r => Sys2Proof.Machine.execFence r s
  | .atomv r => Sys2Proof.Machine.execAtomv r s
  | .jpost r => Sys2Proof.Machine.execJpost r s
  | .chsetRing r => Sys2Proof.Machine.execChsetRing r s
  | .chsetChain r => Sys2Proof.Machine.execChsetChain r s
  | .twait r => Sys2Proof.Machine.execTwait r s
  | .sqwait r => Sys2Proof.Machine.execSqwait r s
  | .presq r => Sys2Proof.Machine.execPresq r s
  | .sinv r => Sys2Proof.Machine.execSinv r s
  | .sinvSet r => Sys2Proof.Machine.execSinvSet r s
  | .tdesc r => Sys2Proof.Machine.execTdesc r s
  | .tmod r => Sys2Proof.Machine.execTmod r s
  | .jcancel r => Sys2Proof.Machine.execJcancel r s
  | .qpush r => Sys2Proof.Machine.execQpush r s
  | .mma r => Sys2Proof.Machine.execMma r s
  | .mmaCo r => Sys2Proof.Machine.execMmaCo r s
  | .mmas r => Sys2Proof.Machine.execMmas r s
  | .mmasCo r => Sys2Proof.Machine.execMmasCo r s
  | .azero r => Sys2Proof.Machine.execAzero r s
  | .arel r => Sys2Proof.Machine.execArel r s
  | .asto r => Sys2Proof.Machine.execAsto r s
  | .aldr r => Sys2Proof.Machine.execAldr r s
  | .amovv r => Sys2Proof.Machine.execAmovv r s
  | .aqry r => Sys2Proof.Machine.execAqry r s
  | .bsync r => Sys2Proof.Machine.execBsync r s
  | .barr r => Sys2Proof.Machine.execBarr r s
  | .bcast r => Sys2Proof.Machine.execBcast r s
  | .brecv r => Sys2Proof.Machine.execBrecv r s
  | .msend r => Sys2Proof.Machine.execMsend r s
  | .mpost r => Sys2Proof.Machine.execMpost r s
  | .mtest r => Sys2Proof.Machine.execMtest r s
  | .mprobe r => Sys2Proof.Machine.execMprobe r s
  | .mcancel r => Sys2Proof.Machine.execMcancel r s
  | .asend r => Sys2Proof.Machine.execAsend r s
  | .gen r => Sys2Proof.Machine.execGen r s
  | .yld r => Sys2Proof.Machine.execYld r s
  | .gdone r => Sys2Proof.Machine.execGdone r s
  | .gtake r => Sys2Proof.Machine.execGtake r s
  | .gtakeLn r => Sys2Proof.Machine.execGtakeLn r s
  | .gnext r => Sys2Proof.Machine.execGnext r s
  | .launch r => Sys2Proof.Machine.execLaunch r s
  | .fdrw r => Sys2Proof.Machine.execFdrw r s
  | .fdrr r => Sys2Proof.Machine.execFdrr r s
  | .csrr r => Sys2Proof.Machine.execCsrr r s
  | .csrw r => Sys2Proof.Machine.execCsrw r s
  | .csrwCtx r => Sys2Proof.Machine.execCsrwCtx r s
  | .csrwFairt r => Sys2Proof.Machine.execCsrwFairt r s
  | .csrwFairq r => Sys2Proof.Machine.execCsrwFairq r s
  | .csrwWdog r => Sys2Proof.Machine.execCsrwWdog r s
  | .csrwGencfg r => Sys2Proof.Machine.execCsrwGencfg r s
  | .csrwFres r => Sys2Proof.Machine.execCsrwFres r s
  | .sreg r => Sys2Proof.Machine.execSreg r s
  | .rgrow r => Sys2Proof.Machine.execRgrow r s
  | .rshrk r => Sys2Proof.Machine.execRshrk r s
  | .pdone r => Sys2Proof.Machine.execPdone r s
  | .eret r => Sys2Proof.Machine.execEret r s
  | .eretNext r => Sys2Proof.Machine.execEretNext r s
  | .fwcallVersion r => Sys2Proof.Machine.execFwcallVersion r s
  | .fwcallCapability r => Sys2Proof.Machine.execFwcallCapability r s
  | .fwcallJournal r => Sys2Proof.Machine.execFwcallJournal r s
  | .hadd r => Sys2Proof.Machine.execHadd r s
  | .hmul r => Sys2Proof.Machine.execHmul r s
  | .hfma r => Sys2Proof.Machine.execHfma r s
  | .bhadd r => Sys2Proof.Machine.execBhadd r s
  | .bhmul r => Sys2Proof.Machine.execBhmul r s
  | .bhfma r => Sys2Proof.Machine.execBhfma r s
  | .barw r => Sys2Proof.Machine.execBarw r s
  | .ldtex r => Sys2Proof.Machine.execLdtex r s
  | .unassignedOpcode w => Sys2Proof.Machine.execUnassignedOpcode w s
  | .fairnessGrant c w => Sys2Proof.Machine.execFairnessGrant c w s
  | .grantEnd c w => Sys2Proof.Machine.execGrantEnd c w s
  | .spinWatchdog => Sys2Proof.Machine.execSpinWatchdog s
  | .wjoinExpire c w pc => Sys2Proof.Machine.execWjoinExpire c w pc s
  | .rgrowGrant c part => Sys2Proof.Machine.execRgrowGrant c part s
  | .napEnd c w => Sys2Proof.Machine.execNapEnd c w s
  | .resultReturn c id => Sys2Proof.Machine.execResultReturn c id s
  | .waitConditionMet c w => Sys2Proof.Machine.execWaitConditionMet c w s
  | .waitExpire c w => Sys2Proof.Machine.execWaitExpire c w s
  | .accessPerform c id fromCopy => Sys2Proof.Machine.execAccessPerform c id fromCopy s
  | .fenceComplete c w => Sys2Proof.Machine.execFenceComplete c w s
  | .remoteAccessFail c id => Sys2Proof.Machine.execRemoteAccessFail c id s
  | .jpostAccept c cl ch => Sys2Proof.Machine.execJpostAccept c cl ch s
  | .chainCardAccept c cl ch => Sys2Proof.Machine.execChainCardAccept c cl ch s
  | .cardStart c id => Sys2Proof.Machine.execCardStart c id s
  | .loopIterationStart c id => Sys2Proof.Machine.execLoopIterationStart c id s
  | .cardLineWritten c id line => Sys2Proof.Machine.execCardLineWritten c id line s
  | .cardChunkDone c id k => Sys2Proof.Machine.execCardChunkDone c id k s
  | .cardComplete c id => Sys2Proof.Machine.execCardComplete c id s
  | .mmaComplete c id => Sys2Proof.Machine.execMmaComplete c id s
  | .astoComplete c id => Sys2Proof.Machine.execAstoComplete c id s
  | .aldrComplete c id => Sys2Proof.Machine.execAldrComplete c id s
  | .amovvReadout c w => Sys2Proof.Machine.execAmovvReadout c w s
  | .bsyncRelease c die ch => Sys2Proof.Machine.execBsyncRelease c die ch s
  | .barrRelease c blk id => Sys2Proof.Machine.execBarrRelease c blk id s
  | .bcastArrive c id => Sys2Proof.Machine.execBcastArrive c id s
  | .reservationGrant pkg die => Sys2Proof.Machine.execReservationGrant pkg die s
  | .msendComplete c w => Sys2Proof.Machine.execMsendComplete c w s
  | .messageMatch die m => Sys2Proof.Machine.execMessageMatch die m s
  | .pieceLand die id => Sys2Proof.Machine.execPieceLand die id s
  | .activeMessageDeliver die m => Sys2Proof.Machine.execActiveMessageDeliver die m s
  | .mcastMemberTimeout c id member answered => Sys2Proof.Machine.execMcastMemberTimeout c id member answered s
  | .hostDoorbell c slot ring => Sys2Proof.Machine.execHostDoorbell c slot ring s
  | .launchAccept c => Sys2Proof.Machine.execLaunchAccept c s
  | .blockAdmit c die => Sys2Proof.Machine.execBlockAdmit c die s
  | .stageBlockDispatch c die stage => Sys2Proof.Machine.execStageBlockDispatch c die stage s
  | .coreReassign c core => Sys2Proof.Machine.execCoreReassign c core s
  | .launchComplete c q => Sys2Proof.Machine.execLaunchComplete c q s
  | .launchKill c q => Sys2Proof.Machine.execLaunchKill c q s
  | .sliceExpire c => Sys2Proof.Machine.execSliceExpire c s
  | .preemptSignal c w => Sys2Proof.Machine.execPreemptSignal c w s
  | .forcedStop c w => Sys2Proof.Machine.execForcedStop c w s
  | .contextIdleExchange c => Sys2Proof.Machine.execContextIdleExchange c s
  | .contextExchange c => Sys2Proof.Machine.execContextExchange c s
  | .contextCreate p => Sys2Proof.Machine.execContextCreate p s
  | .fetchFaultSwap c w => Sys2Proof.Machine.execFetchFaultSwap c w s
  | .blockSwapIn c blk r => Sys2Proof.Machine.execBlockSwapIn c blk r s
  | .pageMigration die c va pfn ok => Sys2Proof.Machine.execPageMigration die c va pfn ok s
  | .tlbShootdown c va => Sys2Proof.Machine.execTlbShootdown c va s
  | .errorCorrected e => Sys2Proof.Machine.execErrorCorrected e s
  | .japWrite v => Sys2Proof.Machine.execJapWrite v s
  | .nfeatWrite v => Sys2Proof.Machine.execNfeatWrite v s
  | .functionReady bit => Sys2Proof.Machine.execFunctionReady bit s
  | .portDead k => Sys2Proof.Machine.execPortDead k s
  | .portRetrain k => Sys2Proof.Machine.execPortRetrain k s
  | .fatalFaultRecovery r => Sys2Proof.Machine.execFatalFaultRecovery r s
  | .fsvRaise v => Sys2Proof.Machine.execFsvRaise v s
  | .reset => Sys2Proof.Machine.execReset s
  | .powerLoss => Sys2Proof.Machine.execPowerLoss s
  | .supplyDroop die extra => Sys2Proof.Machine.execSupplyDroop die extra s
  | .contextEnd c => Sys2Proof.Machine.execContextEnd c s
  | .tenantRotation c inward => Sys2Proof.Machine.execTenantRotation c inward s
  | .demandPaging c w r => Sys2Proof.Machine.execDemandPaging c w r s
  | .uncorrectableError e => Sys2Proof.Machine.execUncorrectableError e s
  | .attestationRequest nonce => Sys2Proof.Machine.execAttestationRequest nonce s
  | .landfaultEntryFree die id => Sys2Proof.Machine.execLandfaultEntryFree die id s

end Sys2Proof.Machine
end

