-- ==== Sys2Proof/Machine/Cycle.lean ====
section
/-! DEFINITION. One cycle of the package: which warp an issue partition issues (R303), the issue of the instruction at its entry, and
what happens of itself at the end of a cycle (log entry 3). -/

namespace Sys2Proof.Machine

/-- The instruction is an event of an agent and not a word that a warp issues. -/
def isEvent (i : Instr) : Bool :=
  match i with
  | .unassignedOpcode _ => false
  | i => (opcodeOf i).isNone

/-! ### The choice of a warp -/

/-- A warp that an issue partition may choose (R32, R303): it runs, nothing but a hold that is tried again stands against it, and it
has an entry to issue. -/
def Context.mayIssue (x : Context) (w : Warp) : Bool :=
  x.runs w && (match w.park with | none => true | some k => !x.parked k) && (selectEntry x.prog (w.opened x.prog)).isSome

/-- The back-pressure of a warp (R303): the items in the queue that its stage feeds, and the size of the queue. -/
def Context.pressure (x : Context) (w : Warp) : Nat × Nat :=
  match (x.launch? w.q).bind (fun l => (x.block? w.blk).bind (fun b => (l.feeds b).map (fun k => (l, k)))) with
  | some (l, k) => ((x.queue w.q (widDie w.wid) k).length, l.depth k)
  | none => (0, 1)

/-- The order of R303: a granted entry first, then the higher back-pressure, then the older warp. -/
def chosenBefore (x y : Context) (v w : Warp) : Bool :=
  let gv := (grantEntry x.prog (v.opened x.prog)).isSome
  let gw := (grantEntry y.prog (w.opened y.prog)).isSome
  let pv := x.pressure v
  let pw := y.pressure w
  if gv != gw then gv
  else if !gv && pv.1 * pw.2 ≠ pw.1 * pv.2 then pw.1 * pv.2 < pv.1 * pw.2
  else v.older w

/-- Inserts a warp in the order of R303. -/
def insertWarp (q : Context × Warp) : List (Context × Warp) → List (Context × Warp)
  | [] => [q]
  | r :: rs => if chosenBefore q.1 r.1 q.2 r.2 then q :: r :: rs else r :: insertWarp q rs

/-- The warps that may issue, with their contexts. -/
def State.issuers (s : State) : List (Context × Warp) :=
  s.ctxs.flatMap (fun x => (x.warps.filter x.mayIssue).map (fun w => (x, w)))

/-- The warps that a partition may choose from, the first choice first, as context and warp numbers (R303). -/
def State.candidates (s : State) (part : Nat) : List (Nat × Nat) :=
  ((s.issuers.filter (fun q => q.2.wid / 8 = part)).foldl (fun l q => insertWarp q l) []).map (fun q => (q.1.id, q.2.uid))

/-- The next partition of the cycle that has a warp which may issue. -/
def State.nextPart (s : State) : Option Nat :=
  (s.issuers.map (fun q => q.2.wid / 8)).foldl (fun b p =>
    if p < s.turn then b else match b with | none => some p | some m => some (min m p)) none

/-! ### The issue -/

/-- The trap of a word that is no instruction (R96, R97): the spare bits of a slot immediate (position 2) come before an illegal
X. -/
def execBadWord (v : Word) (c : Cause) (s : State) : State :=
  match openIssue (.unassignedOpcode v) v s with
  | none => s
  | some env =>
    let imm := 0x50 ≤ field v.toNat 63 56 && field v.toNat 63 56 ≤ 0x52
    let spare := imm && immSpare (env.w.slot (field v.toNat 15 12)) (field v.toNat 31 16)
    settle .plain env (env.wordTrap (if spare then .rsvdBits else c))

/-- A word runs: the instruction that it decodes to, or its trap (R96). -/
def runWord (v : Word) (s : State) : Host.Outcome State Fault Refusal :=
  match decodeFetched v with
  | .ok i => exec i s
  | .error c => .next (execBadWord v c s)

/-- A warp that is still in firmware mode keeps what it had of its frontier, its threads, its waits and its counts: the instruction that
entered firmware mode has not ended (R101). -/
def Warp.keepEntry (w old : Warp) : Warp :=
  if w.firmware then
    { w with frontier := old.frontier, live := old.live, wjoins := old.wjoins, issues := old.issues, fc := old.fc, wc := old.wc
             grantLeft := old.grantLeft, grantDue := old.grantDue }
  else w

/-- An instruction of the emulation handler, whose code is the firmware's (R101, R131, R135; log entry 45). -/
def runFirmware (i : Instr) (q : Nat × Nat) (s : State) : Host.Outcome State Fault Refusal :=
  match exec i { s with cur := some q } with
  | .next t =>
    .next (match (s.ctx? q.1).bind (fun x => x.warp? q.2) with
      | some old => t.onWarp q.1 q.2 (fun x w => t.setCtx (x.setWarp (w.keepEntry old)))
      | none => t)
  | o => o

/-- A warp waits to issue its instruction again. -/
def State.waitsAgain (s : State) (q : Nat × Nat) : Bool :=
  (((s.ctx? q.1).bind (fun x => x.warp? q.2)).bind (fun w => w.park)).any Park.isRetry

/-- The issue of a warp in firmware mode: the instruction that heads the agenda, which stays there while it must wait, or all that is
left of the emulation of the word that entered it (R101; log entry 45). -/
def issueFirmware (v : Word) (q : Nat × Nat) (s : State) : Host.Outcome State Fault Refusal :=
  match s.agenda with
  | [] => runWord v { s with cur := some q }
  | i :: r =>
    match runFirmware i q { s with agenda := r } with
    | .next t => .next (if t.waitsAgain q then { t with agenda := i :: r } else t)
    | o => o

/-- One attempt of a warp to issue the instruction at its entry (R33, R265, R267, R356); in firmware mode, one of the handler's
(R101). -/
def issueAt (s : State) (q : Nat × Nat) : Host.Outcome State Fault Refusal :=
  match s.ctx? q.1 with
  | none => .next s
  | some x =>
    match x.warp? q.2 with
    | none => .next s
    | some w =>
      match selectEntry x.prog (w.opened x.prog) with
      | none => .next s
      | some e =>
        if w.firmware then issueFirmware w.finsn q s
        else match fetch s x w e with
        | (t, .word v) => runWord v { t with cur := some q }
        | (_, .trap c recs told) => .next (fetchTrap s q.1 q.2 c recs told)
        | (_, .missing) => execFetchFaultSwap q.1 q.2 s
        | (_, .wait) => .next s

/-- What tells that a warp has used its partition's issue (R10): the count of its issues and its mode, none where it is gone, and the
instructions of an emulation handler still to come. -/
def State.issuesOf (s : State) (q : Nat × Nat) : Option (Nat × Mode) × Nat :=
  (((s.ctx? q.1).bind (fun x => x.warp? q.2)).map (fun w => (w.issues, w.mode)), s.agenda.length)

/-- The first of some warps that issues has the partition's issue of the cycle; a warp that must wait has not issued (R32, R303). -/
def issueFirst (part : Nat) : List (Nat × Nat) → State → Host.Outcome State Fault Refusal
  | [], s => .next { s with turn := part + 1 }
  | q :: r, s =>
    match issueAt s q with
    | .next t => if t.issuesOf q = s.issuesOf q then issueFirst part r t else .next { t with turn := part + 1 }
    | o => o

/-! ### What happens of itself -/

/-- An event takes place. -/
def State.happen (s : State) (i : Instr) : State :=
  match exec i s with
  | .next t => t
  | .fault _ => s
  | .refused _ => s

/-- Events take place, one after the other. -/
def State.happenAll (s : State) (is : List Instr) : State := is.foldl State.happen s

/-- What the memory system and the engines have left to do for a context, the oldest first. -/
def Context.unitWork (x : Context) (fromCopy : Bool) : List Instr :=
  x.owed.map (fun o => Instr.resultReturn x.id o.id) ++
  x.accesses.map (fun a => Instr.accessPerform x.id a.id fromCopy) ++
  x.posted.map (fun p => Instr.jpostAccept x.id p.card.cl p.card.ch) ++
  (x.channels.filter (fun n => n.walking.isSome)).map (fun n => Instr.chainCardAccept x.id n.cl n.ch) ++
  x.cards.flatMap (fun k => [Instr.cardStart x.id k.id, .loopIterationStart x.id k.id, .cardComplete x.id k.id]) ++
  x.engOps.map (fun o =>
    if o.op = 2 then Instr.aldrComplete x.id o.id else if o.op = 3 then .astoComplete x.id o.id else .mmaComplete x.id o.id) ++
  x.warps.filterMap (fun w =>
    match w.park with
    | some (.readout _ _ _ _ _ _ _ _) => some (Instr.amovvReadout x.id w.uid)
    | some (.fence _ _ _ _ _ _ _ _) => some (.fenceComplete x.id w.uid)
    | some (.send _) => some (.msendComplete x.id w.uid)
    | _ => none)

/-- What the sequencer and the schedulers have left to do for a context. -/
def Context.launchWork (x : Context) : List Instr :=
  let staged := x.launches.any (fun l => l.stages ≠ 0)
  (if x.submitted.isEmpty then [] else [Instr.launchAccept x.id]) ++
  x.p.dies.flatMap (fun d =>
    (if x.launches.any (fun l => l.waiting.any (fun q => q.1 = d)) then [Instr.blockAdmit x.id d] else []) ++
    (if staged then [1, 2, 3].map (fun k => Instr.stageBlockDispatch x.id d k) ++
      (x.cores d).map (fun n => Instr.coreReassign x.id n) else [])) ++
  x.launches.map (fun l => Instr.launchComplete x.id l.q)

/-- The place of a message on its way among those of a cycle (R329). -/
def Sending.place (z : Sending) : Nat := z.msg.elim 0 msgPlace

/-- Inserts a message on its way behind those of no greater place. -/
def insertSending (z : Sending) : List Sending → List Sending
  | [] => [z]
  | y :: r => if z.place < y.place then z :: y :: r else y :: insertSending z r

/-- What the fabric and the receive engines have left to do: grants, active messages, then messages in the order of R329, and the
pieces that land. -/
def State.messageWork (s : State) : List Instr :=
  let open_ := s.sending.filter (fun z => z.pkg = 0xFF && !z.matched)
  (s.sending.filter (fun z => z.granted < z.pieces)).map (fun z => Instr.reservationGrant z.pkg z.die) ++
  s.actives.map (fun h => Instr.activeMessageDeliver h.die (.own h.id)) ++
  (open_.filter (fun z => z.active.isSome)).map (fun z => Instr.activeMessageDeliver z.die (.own z.id)) ++
  ((open_.filter (fun z => z.active.isNone)).foldl (fun l z => insertSending z l) []).map (fun z => Instr.messageMatch z.die (.own z.id)) ++
  (s.held.filter (fun h => h.receive.isSome)).map (fun h => Instr.pieceLand h.die h.id)

/-- All that is left to do. -/
def State.work (s : State) : List Instr :=
  s.ctxs.flatMap (fun x => x.unitWork (s.pick 2) ++ x.launchWork) ++ s.messageWork

/-- The partitions of a context in which an RGROW waits. -/
def Context.askingParts (x : Context) : List Nat := ((x.warps.filter (fun w => w.asks.isSome)).map (fun w => w.wid / 8)).eraseDups

/-- The bounds that are reached at the end of a cycle (R44, R47, R116, R193): a condition met in the cycle wins over a bound, and a
grant of registers comes before the refusal of R48. -/
def Context.bounds (x : Context) : List Instr :=
  x.warps.flatMap (fun w =>
    (w.wjoins.filter (fun j => j.left = 0 && j.here w)).map (fun j => Instr.wjoinExpire x.id w.uid j.pc) ++
    (match w.park with
     | some (.nap 0) => [Instr.napEnd x.id w.uid]
     | some (.twait _ _ _ _ 0 _) => [.waitExpire x.id w.uid]
     | some (.sqwait _ _ _ _ _ 0 _) => [.waitExpire x.id w.uid]
     | _ => [])) ++
  x.askingParts.map (fun p => Instr.rgrowGrant x.id p)

/-- The refusal of R48 in every partition where requests wait. -/
def State.refuseAll (s : State) : State :=
  { s with ctxs := s.ctxs.map (fun x => if x.active then x.askingParts.foldl Context.refuseGrows x else x) }

/-- Inserts a broadcast behind those that come before it (R214). -/
def insertBcast (b : Bcast) : List Bcast → List Bcast
  | [] => [b]
  | y :: r => if b.before y then b :: y :: r else y :: insertBcast b r

/-- What is due as a cycle begins: grants, conditions that hold, signals that have arrived, slices and exchanges (R40, R41, R193, R211,
R213, R214, R306 to R312). -/
def Context.due (x : Context) (cycle wall : Nat) : List Instr :=
  x.warps.flatMap (fun w =>
    (if w.grantDue ≠ 0 then [Instr.fairnessGrant x.id w.uid] else []) ++
    (if w.grantLeft = 0 && w.grantDue = 0 && w.frontier.any (fun e => e.granted) then [Instr.grantEnd x.id w.uid] else []) ++
    (match w.park with
     | some (.twait _ _ _ _ _ _) => [Instr.waitConditionMet x.id w.uid]
     | some (.sqwait _ _ _ _ _ _ _) => [.waitConditionMet x.id w.uid]
     | _ => [])) ++
  (x.closings.filter (fun k => k.at_ ≤ cycle)).map (fun k => Instr.bsyncRelease x.id (k.dies.headD 0) k.ch) ++
  x.blocks.flatMap (fun b => (b.barrs.filter (fun q => match q.2.full with | some t => t ≤ cycle | none => false)).map
    (fun q => Instr.barrRelease x.id b.id (q.1 % 16))) ++
  ((x.bcasts.filter (fun b => b.at_ ≤ cycle)).foldl (fun l b => insertBcast b l) []).map (fun b => Instr.bcastArrive x.id b.id) ++
  (if x.state = .running && x.sliceLeft = 0 then [Instr.sliceExpire x.id] else []) ++
  (if x.signalAt.any (fun t => t ≤ cycle) then x.unsignalled.map (fun u => Instr.preemptSignal x.id u) else []) ++
  (if x.forceAt.any (fun t => t ≤ wall) then x.warps.map (fun w => Instr.forcedStop x.id w.uid) else []) ++
  (match x.state with
   | .running => if x.idle then [Instr.contextIdleExchange x.id] else []
   | .draining => [.contextExchange x.id]
   | .exchanging => [.contextExchange x.id]
   | .standby => if x.hasWork then [.contextExchange x.id] else []
   | .inHbm => [])

/-- A timed park one cycle on. -/
def Park.tick : Park → Park
  | .nap n => .nap (n - 1)
  | .twait d k m sc n a => .twait d k m sc (n - 1) a
  | .sqwait d cl ch t sc n a => .sqwait d cl ch t sc (n - 1) a
  | k => k

/-- The resident cycles of a warp's waits (R44, R116, R193): those set aside by a handler do not run. -/
def Warp.tick (w : Warp) : Warp :=
  { w with park := w.park.map Park.tick
           wjoins := w.wjoins.map (fun j => if j.here w then { j with left := j.left - 1 } else j) }

/-- A context one cycle on: its slice, its warps' waits, and the budget that starts as the signal arrives (R307, R311). -/
def Context.tick (x : Context) (cycle wall : Nat) : Context :=
  { x with
    sliceLeft := if x.state = .running then x.sliceLeft - 10 else x.sliceLeft
    forceAt := if x.signalAt = some cycle && x.forceAt.isNone then some (wall + Config.wallPerNs * Config.forceNs) else x.forceAt
    warps := x.warps.map (fun w => if x.runs w then w.tick else w) }

/-- Refreshes the copies of a line that a core's accesses may meet in any context. -/
def State.refreshNear (s : State) (core line : Nat) : State :=
  { s with copies := s.copies.map (fun c => if c.line = line && c.at_.written core then s.lineAt c.at_ line else c) }

/-- Counts a core's request for a line that its die maps as MODE 11, as a TLB entry of the die has it (R264, R266). -/
def State.countAhead (s : State) (core line : Nat) : State :=
  let maps (t : TlbEntry) : Bool :=
    let page := t.va * 2 ^ t.bits
    let first := leafKey s t.leaf.toNat ((t.bits - 16) / 5) page
    t.unit / 256 = core / 128 && natBits t.leaf.toNat 59 58 = 3 && first ≤ line * 128 && line * 128 < first + 2 ^ t.bits
  match s.tlb.find? maps with
  | none => s
  | some t => if s.copies.any (fun y => y.line = line && y.at_.remoteOf (core / 128)) then s else s.countPage t.ctx (core / 128) (t.va * 2 ^ t.bits) 1

/-- The line that a core reads ahead of its program order in this cycle, when the choice names one (R270, R275; log entry 63); no copy
that it may meet stays older (R274), and none is kept behind which a released store is still to come (R273). -/
def State.readAhead (s : State) : State :=
  let n := s.oracle.headD 0 / 2 ^ 32
  let k := n / 512 * 128
  if n ≠ 0 && !keyIsSram k && s.reachable k && (keySpace k ≠ 0 || s.hbmReady k) && !s.unsettled (n % 512) (n / 512) then
    ((s.refreshNear (n % 512) (n / 512)).countAhead (n % 512) (n / 512)).fillCopy 1024 (.ahead (n % 512)) (n / 512)
  else s

/-- With the first cycle after power-on the capability table stands in HBM (R357; log entry 93). -/
def State.bringTable (s : State) : State := if s.capDone then s else s.copyTable

/-- Time goes on by a cycle (R5): the fuses of a rise are blown, the records of the cycle are appended (R349), and the next choice is
taken. -/
def State.tick (s0 : State) : State :=
  let s := s0.bringTable.readAhead.blowFuses.flushRecords
  { s with cycle := s.cycle + 1, wall := s.wall + 10, turn := 0, oracle := s.oracle.drop 1
           ctxs := s.ctxs.map (fun x => x.tick (s.cycle + 1) (s.wall + 10)) }

/-- The end of a cycle (log entry 3): what is left to do, unless this cycle's choice puts it off; bounds; the next cycle; what is due in
it. -/
def State.endCycle (s : State) : State :=
  let s := if s.pick 3 then s else s.happenAll s.work
  let s := if s.reposts = [] then s else s.postAll
  let s := (s.happenAll (s.ctxs.flatMap Context.bounds)).refuseAll.tick
  s.happenAll (s.ctxs.flatMap (fun x => x.due s.cycle s.wall))

/-- The machine's own step: the issue of the next partition, or the end of the cycle. -/
def runMachine (s : State) : Host.Outcome State Fault Refusal :=
  match s.nextPart with
  | some p => issueFirst p (s.candidates p) s
  | none => .next s.endCycle

/-- A warp in firmware mode may issue. -/
def State.inFirmware (s : State) : Bool := s.issuers.any (fun q => q.2.firmware)

/-- A step (log entry 3): the first event of the agenda, or the machine's own step, in which a warp in firmware mode takes the
instruction that heads the agenda once its partition issues for it (R10); where no such warp is, that instruction stands for the step. -/
def runStep (s : State) : Host.Outcome State Fault Refusal :=
  match s.agenda with
  | [] => runMachine s
  | i :: r =>
    if isEvent i then exec i { s with agenda := r }
    else if s.inFirmware then runMachine s
    else runMachine { s with agenda := r }

/-! ### Placing an instruction -/

/-- The key of the bytes that the next issue fetches, when a warp may issue and its code is at hand. -/
def State.fetchKey (s : State) : Option Nat :=
  match s.nextPart.bind (fun p => (s.candidates p).head?) with
  | none => none
  | some q =>
    match s.ctx? q.1 with
    | none => none
    | some x =>
      match x.warp? q.2 with
      | none => none
      | some w =>
        match selectEntry x.prog (w.opened x.prog) with
        | none => none
        | some e =>
          match findLeaf s x (tlbCore (widCoreNo w.wid)) e.pc.toNat false with
          | .leaf pte level _ =>
            let k := leafKey s pte level e.pc.toNat
            if !w.firmware && pte.testBit 60 && s.reachable k && (keySpace k ≠ 0 || s.hbmReady k) then some k else none
          | _ => none

/-- The parameters of the context that a placed instruction runs in: die 0, cluster 0, tables at address 0 (log entry 18). -/
def bootParams : CtxParams :=
  { rxid := 0, dies := [0], x0 := 0, y0 := 0, x1 := 0, y1 := 0, spk := 0, l2rmt := 0, vaultw := 0, wsz := 16, hw := 0, privBase := 0
    root := 0, bb := 0, nb := 0, bc := 0, nc := 0, uqBytes := 0, uqVault := false, slices := [], groups := [], objects := []
    running := true }

/-- The tables of that context: the first GiB of addresses is that of local HBM, readable, writable and executable (R261, R262). -/
def bootTables : List (Nat × Word) :=
  [(0, BitVec.ofNat 64 (2 ^ 63 + 4096 + 0xE00)), (4096, BitVec.ofNat 64 (2 ^ 63 + 8192 + 0xE00)),
   (8192, BitVec.ofNat 64 (2 ^ 63 + 2 ^ 62 + 2 ^ 61 + 2 ^ 60 + 0xFF * 2 ^ 47 + 0x406))]

/-- The launch of that context: one warp of 32 lanes, every register, an entry at 0x10000 (log entry 18). -/
def bootLaunch : Launch :=
  { q := 1
    rcd :=
      { kind := false, entry := 0x10000, fmask := 0, nbc := 0, nbar := 0, tpri := 0, tclass := 0, nstg := 0, prio := 0
        levels := [(1, 2, 2), (32, 0, 0)], scr := 0, acc := 0, tdn := 16, regs := 256, stages := [(0, 0), (0, 0), (0, 0), (0, 0)]
        ftab := 0, hcnt := 0, htab := 0, cpl := 0, arg0 := 0, arg1 := 0 }
    slots := [], handlers := [], gens := [], waiting := [], stageOf := [], stageCount := [], msgCount := [], ended := none }

/-- A package whose one context has a warp that issues next, its code at 0x10000 (log entry 18). -/
def State.boot (s : State) : State :=
  let x := newContext s bootParams .running
  let s := { s with
    agenda := [], turn := 0, oracle := [], rdy := s.rdy ||| 0x1000001FF, poison := [], copies := [], tlb := [], wcache := []
    nextCtx := s.nextCtx + 1, ctxs := [{ x with sliceLeft := x.newSlice, launches := [bootLaunch], nextQ := 2 }] }
  (startBlock s x.id bootLaunch (bootLaunch.startGrid { num := 0, core := 0, base := 0, slots := [0] })).writePtes bootTables

/-- Puts an instruction's word where the next issue fetches. -/
def State.placeWord (s : State) (k : Nat) (w : Nat) : State :=
  { s with
    agenda := [], mem := writeBytes s.mem k 8 w
    poison := s.poison.filter (fun p => !poisonHits p k 8)
    copies := s.copies.filter (fun y => y.line ≠ k / 128) }

/-- The state whose next step fetches and runs a word: where a warp issues next, at its address; otherwise in a context made for it (log
entry 18). -/
def placeFetch (s : State) (w : Nat) : State :=
  match s.fetchKey with
  | some k => s.placeWord k w
  | none => s.boot.placeWord 0x10000 w

end Sys2Proof.Machine
end

