-- ==== Sys2Proof/Machine/Step.lean ====
section
/-! DEFINITION. The step of the package, and the placing of an instruction where it fetches next. -/

namespace Sys2Proof.Machine

/-- One step: an event of the agenda, the issue of one warp, or the end of a cycle (log entry 3). -/
def step (s : State) : Host.Outcome State Fault Refusal := runStep s

/-- The state whose next step fetches and runs the instruction whose bits are w; its words are one word of 8 bytes (R81; log entry
18). -/
def State.withFetchWord (s : State) (_nbits w : Nat) : State := placeFetch s w

end Sys2Proof.Machine
end

