-- ==== Sys2Proof/Safety.lean ====
section
/-! DEFINITION. The terms that claims use: a step that gives a next state, what an issue leaves of its warp, and the forms in which an
issue ends. -/

namespace Sys2Proof.Machine

/-- The step gives a next state. -/
def State.steps (s : State) : Prop := ∃ t, step s = .next t

/-- Two warps hold the same but for what every issue counts (R34 to R44): the frontier, the live threads, the counters of issues, fairness
and the watchdog, the WJOIN waits, the generator region and the driver's last refusals. -/
structure Same (v w : Warp) : Prop where
  uid : w.uid = v.uid
  wid : w.wid = v.wid
  q : w.q = v.q
  blk : w.blk = v.blk
  wblk : w.wblk = v.wblk
  age : w.age = v.age
  nregs : w.nregs = v.nregs
  allocGen : w.allocGen = v.allocGen
  vregs : w.vregs = v.vregs
  vmarks : w.vmarks = v.vmarks
  sregs : w.sregs = v.sregs
  smarks : w.smarks = v.smarks
  slots : w.slots = v.slots
  tdn : w.tdn = v.tdn
  tdescs : w.tdescs = v.tdescs
  accs : w.accs = v.accs
  fcClear : w.fcClear = v.fcClear
  wcClear : w.wcClear = v.wcClear
  grantClear : w.grantClear = v.grantClear
  csp : w.csp = v.csp
  rs : w.rs = v.rs
  lin : w.lin = v.lin
  midx : w.midx = v.midx
  mode : w.mode = v.mode
  saved : w.saved = v.saved
  signal : w.signal = v.signal
  park : w.park = v.park
  halted : w.halted = v.halted
  mstat : w.mstat = v.mstat
  mtrap : w.mtrap = v.mtrap
  remFail : w.remFail = v.remFail
  bcSeen : w.bcSeen = v.bcSeen
  recvs : w.recvs = v.recvs
  sends : w.sends = v.sends
  uepc : w.uepc = v.uepc
  ucause : w.ucause = v.ucause
  utval : w.utval = v.utval
  ufmask : w.ufmask = v.ufmask
  uscr : w.uscr = v.uscr
  flsel : w.flsel = v.flsel
  finsn : w.finsn = v.finsn
  flact : w.flact = v.flact
  fcause : w.fcause = v.fcause
  gens : w.gens = v.gens

/-- The issue of an instruction opens (R31 to R33), passes checks 2 and 4 to 8 of R97, is not the one that SPIN_WATCHDOG takes (R43), and
its guard is true for some thread (R82). -/
structure Admitted (i : Instr) (opts : Opts) (s : State) (env : Env) : Prop where
  opened : openIssue i (wordOf i) s = some env
  passed : precheck opts env = none
  quiet : env.spin = false
  some_thread : env.p ≠ 0

/-- A thread stands in a frontier at a priority and a PC, parked or not (R30). -/
def Holds (fr : List Entry) (t : Nat) (q : BitVec 8 × PC × Bool) : Prop :=
  ∃ e ∈ fr, e.mask.has t = true ∧ (e.pri, e.pc, e.parked) = q

/-- No other entry has an entry's pair and parked state, or one of its threads (R30). -/
def Apart (e : Entry) (fr : List Entry) : Prop := ∀ y ∈ fr, y = e ∨ (y.same e = false ∧ ∀ t, y.mask.has t = true → e.mask.has t = false)

/-- Where every thread stands after an issue outside a generator region: those of the issuing entry where they go, the others where they
were. -/
def Env.Moved (env : Env) (w : Warp) : Prop :=
  env.w.region = none → env.e ∈ env.w.frontier → Apart env.e env.w.frontier →
    ∀ t q, Holds w.frontier t q ↔ (if env.e.mask.has t then q = env.dest t else Holds env.w.frontier t q)

/-- An issue that resets WC (R43): one of the forms that R43 names with a thread in P, or a transfer that leaves a thread at a higher
address than its own. -/
def Env.Progresses (opts : Opts) (env : Env) : Prop :=
  (opts.reset = true ∧ env.p ≠ 0) ∨
    (opts.branch = true ∧ ∃ t, env.remains t = true ∧ env.e.pc < (env.stands t).2.1)

/-- How an issue counts (R39, R40, R43): it is one more issue of the warp; WC is 0 after one that progresses and one more after any other; FC
is one more after an issue of the top entry in program mode with PROG = 1, another entry not parked and no grant that runs, held in a
handler, and 0 otherwise. Where that reaches FAIRT.LIMIT, FC stays there till FAIRNESS_GRANT, before the next issue of the warp, sets it to
0, where R40 does so in the issue that earns the grant: a reading (log entry 19). -/
structure Counted (opts : Opts) (env : Env) (w : Warp) : Prop where
  issues : w.issues = env.w.issues + 1
  reset : env.Progresses opts → w.wc = 0
  goesOn : ¬env.Progresses opts → w.wc = env.w.wc + 1
  held : env.w.mode ≠ .program → w.fc = env.w.fc
  fair : env.w.mode = .program → w.fc =
    if (grantEntry env.before.prog env.w).isNone && env.before.prog && env.top && env.more then env.w.fc + 1 else 0

/-- An entry of the frontier before the issue, other than the issuing one. -/
def Env.other (env : Env) (z : Entry) : Prop := z ∈ env.w.frontier ∧ z.same env.e = false

/-- The wait stamps and demotion marks after an issue outside a generator region (R39, R42, R114). An entry has the count of this issue,
or the least stamp of what it comes from. One is demoted only where the issuing entry was or yields, where no other entry has merged
with it, and where it is not the only one that is not parked. -/
def Env.Marked (env : Env) (w : Warp) : Prop :=
  env.w.region = none → env.e ∈ env.w.frontier → Apart env.e env.w.frontier → ∀ y ∈ w.frontier,
    (y.stamp = env.w.issues + 1 ∨ ∃ z, env.other z ∧ z.same y = true ∧ z.stamp = y.stamp) ∧
    ((∃ t, y.mask.has t = true ∧ env.e.mask.has t = true) → y.stamp ≤ env.w.issues + 1) ∧
    (∀ z, env.other z → z.same y = true → y.stamp ≤ z.stamp) ∧
    (y.demoted = true ↔ (env.e.demoted = true ∨ (env.yielded = true ∧ env.more = true)) ∧ (∀ z, env.other z → z.same y = false) ∧
      (y.parked = true ∨ ∃ x ∈ w.frontier, x.parked = false ∧ x.same y = false))

/-- An issue has its effect and no other: the package is as `env` has it, the issuing warp holds what `env` gives it, with its predicates,
live threads and WJOIN waits, its threads stand where they go, and beside the counts (whose FC at the issue that earns a grant is log
entry 19), the stamps and the marks of the issue only a generator pass differs. -/
def Closes (opts : Opts) (o : Host.Outcome State Fault Refusal) (env : Env) : Prop :=
  ∃ w, o = .next (env.dev.setCtx (env.ctx.setWarp w)) ∧ Same env.w w ∧ w.preds = env.w.preds ∧ w.faults = env.w.faults ∧ w.live = env.w.live ∧
    w.wjoins = env.w.wjoins ∧ Counted opts env w ∧ env.Moved w ∧ env.Marked w

/-- Every live thread stands parked at the address of a WJOIN once the threads of P have arrived (R44): all of the issuing entry are in P,
every other entry is parked there, and in program mode they are all the live threads of the warp; in a handler those outside it do not
count. -/
def Env.AllArrive (env : Env) : Prop :=
  env.p = env.e.mask ∧ (∀ y, env.other y → y.parked = true ∧ y.pc = env.e.pc) ∧
    (env.w.mode = .program → ∀ t, env.w.live.has t = true ↔ ∃ y ∈ env.w.frontier, y.mask.has t = true)

/-- As `Closes`, where threads may leave the frontier: the end of a WJOIN wait may also write its predicate (R44), whose error a write of
every lane clears (R269), and threads that exit are no longer live. -/
def ClosesJoin (opts : Opts) (o : Host.Outcome State Fault Refusal) (env : Env) : Prop :=
  ∃ w, o = .next (env.dev.setCtx (env.ctx.setWarp w)) ∧ Same env.w w ∧ w.live = env.w.live &&& ~~~env.dead ∧
    Counted opts env w ∧ (∀ k ∈ w.faults, k ∈ env.w.faults) ∧
    (∀ k ∈ env.w.faults, (∀ p, k ≠ faultKey 2 p) → k ∈ w.faults) ∧
    ∀ p, (∀ j ∈ env.w.wjoins, j.d.toNat ≠ p) → (∀ j, env.join = some j → j.2.2.toNat ≠ p) → w.pred p = env.w.pred p

/-- An instruction whose issue opens and passes its checks always has the effect `eff`. -/
def Completes (i : Instr) (opts : Opts) (eff : Env → Env) : Prop :=
  ∀ s env, Admitted i opts s env → Closes opts (exec i s) (eff env)

/-- As `Completes`, where the effect meets a condition on the state and the operands. -/
def CompletesIf (i : Instr) (opts : Opts) (cond : Env → Prop) (eff : Env → Env) : Prop :=
  ∀ s env, Admitted i opts s env → cond env → Closes opts (exec i s) (eff env)

/-- An instruction takes a trap in place of its effect where a condition holds. -/
def Traps (i : Instr) (opts : Opts) (cond : Env → Prop) (t : Env → TrapInfo) : Prop :=
  ∀ s env, Admitted i opts s env → cond env → exec i s = .next (takeTrap env (t env))

/-- An instruction over slot elements (R146): where every element of every thread of P encodes, D and the states of the generators are as
`Env.encoded` has them; where one is Invalid under the trap policy, the instruction takes FMT_INVALID with the threads that fail and the
element of the lowest, and has no other effect (R98, R342). -/
def Encodes (i : Instr) (opts : Opts) (d : BitVec 8) (rm : Env → Rm) (base : Env → Nat) (elems : Env → Nat → List (Nat → Option Nat))
    (place : Env → Nat → List Nat → Word) : Prop :=
  CompletesIf i opts (fun env => ∀ t, env.p.has t = true → env.badElem (rm env) (elems env) t = none)
      (fun env => env.encoded (rm env) d (elems env) (place env)) ∧
    Traps i opts (fun env => ∃ t, t < 32 ∧ env.p.has t = true ∧ env.badElem (rm env) (elems env) t ≠ none) (fun env =>
      let m := Mask.ofPred (fun t => env.p.has t && (env.badElem (rm env) (elems env) t).isSome)
      { cause := .fmtInvalid, tval := BitVec.ofNat 64 (base env + (env.badElem (rm env) (elems env) m.low).getD 0), mask := m })

/-- The slot that F names, the value and the sign bit of an element of a vector register in it. -/
def Env.slot (env : Env) (f : BitVec 4) : Fmt := env.w.slot f.toNat
/-- The value of an element of a thread's vector register in a slot. -/
def Env.val (env : Env) (f : BitVec 4) (a : BitVec 8) (t k : Nat) : Val := (env.slot f).val' (env.v a t) k

/-- As `Encodes`, for the ordinary element form of R146: each element rounded once from its exact value. -/
def SlotResult (i : Instr) (opts : Opts) (f : BitVec 4) (rmCode : Nat) (d a : BitVec 8) (op : Env → Rm → Nat → Nat → Val) : Prop :=
  Encodes i opts d (fun env => rmOf rmCode (env.slot f)) (fun _ => 0)
    (fun env t => (List.range (env.slot f).elems).map (fun k u =>
      (env.slot f).encode (op env (rmOf rmCode (env.slot f)) t k) (rmOf rmCode (env.slot f)) ((env.slot f).sign (env.v a t) k) u))
    (fun env _ cs => packElems (env.slot f).width cs)

/-- A memory instruction under a condition of its own (R159, R265, R342): where every check of the bytes that it touches passes, the A and D
bits of their pages are set (R262) and one access for each lane is in flight, its destinations empty; where a cause is found, it takes
that trap; where a page is not present, or a line of scratchpad is absent, its warp waits and the instruction has not issued. -/
def AccessesIf (i : Instr) (opts : Opts) (cond : Env → Prop) (o : AccOpts) (pl : Env → Plan) (lanes : Env → List Nat)
    (kind : Env → Env → Nat → AccKind) : Prop :=
  CompletesIf i opts (fun env => cond env ∧ env.checkPlan (pl env) = none ∧ env.absentLines (pl env) = [])
      (fun env => (env.touchPlan (pl env)).addLanes o (pl env) (lanes env) (kind env)) ∧
    (∀ s env t, Admitted i opts s env → cond env → env.checkPlan (pl env) = some (.trap t) → exec i s = .next (takeTrap env t)) ∧
    (∀ s env k, Admitted i opts s env → cond env → env.checkPlan (pl env) = some (.hold k) → exec i s = .next (holdIssue env k)) ∧
    (∀ s env, Admitted i opts s env → cond env → env.checkPlan (pl env) = none → env.absentLines (pl env) ≠ [] →
      exec i s = .next (holdIssue env (.retryLines (env.absentLines (pl env)))))

/-- A memory instruction. -/
def Accesses (i : Instr) (opts : Opts) (o : AccOpts) (pl : Env → Plan) (lanes : Env → List Nat) (kind : Env → Env → Nat → AccKind) : Prop :=
  AccessesIf i opts (fun _ => True) o pl lanes kind

/-- The access that a lane makes (R159, R163). -/
def Env.accessOf (env : Env) (o : AccOpts) (pl : Plan) (t id : Nat) (kind : AccKind) : Access :=
  { id := id, uid := env.w.uid, ins := env.w.issues, core := widCoreNo env.w.wid, lane := t, addr := wordInt (pl.base t)
    cached := o.cached, acq := o.acq, rel := o.rel, relAt := 0, kind := kind
    pieces := env.pieces pl t (pl.runs t) pl.off }

/-- Bytes of memory that lie in none of some pieces. -/
def Outside (ps : List Piece) (k : Nat) : Prop := ∀ p ∈ ps, k < p.pos / 8 ∨ (p.pos + p.len + 7) / 8 ≤ k

/-- An instruction whose release comes before its effect (R276): where a condition holds and what its release covers can be
performed, it has the effect on what the release left. -/
def CompletesAfterRelease (i : Instr) (opts : Opts) (cond : Env → Prop) (rel : Env → Option Env) (eff : Env → Env → Env) : Prop :=
  ∀ s env e, Admitted i opts s env → cond env → rel env = some e → Closes opts (exec i s) (eff env e)

/-- A matrix instruction (R200 to R203): where its shape passes, with the tile that its handle holds or a new one within the quota, it
posts one operation on the handle after its release. -/
def PostsTask (i : Instr) (opts : Opts) (g : Env → MmaArgs) (engines : Env → Option (List Nat)) : Prop :=
  ∀ s env env1 e t es, Admitted i opts s env → (if (g env).co then (g env).c.toNat < 2 ^ 8 else True) → engines env = some es →
    (g env).shapeBad env = none →
    (let a := env.window? (g env).a 0
     let b := env.window? (g env).b 0
     let mt := a.rows / 64
     let nt := (if (g env).bt || (g env).scaled then b.rows else b.cols) / 64
     let af := smGet 0 env.w.slots (g env).f
     ((env.w.acc (g env).d.toNat).tile = some t ∧ env1 = env ∧ (t.mt, t.nt, t.af, t.co, t.engines) = (mt, nt, af, (g env).co, es)) ∨
       ((env.w.acc (g env).d.toNat).tile = none ∧ env.newTile (g env).d mt nt es af (g env).f = .inr (t, env1))) →
    env1.releaseIn ((g env).foot env1) = some e →
    Closes opts (exec i s) (e.postOp { e.op (g env).d.toNat (if (g env).scaled then 1 else 0) with
      bt := (g env).bt, da := (g env).a, db := (g env).b, fa := smGet 0 e.w.slots (dFmt (g env).a), fb := smGet 0 e.w.slots (dFmt (g env).b)
      read0 := (env.window? (g env).a 0).regionWord, read1 := (env.window? (g env).b 0).regionWord } t)

/-- An issue outside a handler that opens, passes its checks and has its effect, where threads may enter or leave a generator region. -/
def Settles (i : Instr) (opts : Opts) (cond : Env → Prop) (eff : Env → Env) : Prop :=
  ∀ s env, Admitted i opts s env → cond env → exec i s = .next (closeIssue opts (eff env))

/-- A retired instruction (R100, R101): where its body is legal and its sources are full, it enters firmware mode with its cause, which
leaves FINSN and FLACT, and has its effect as one issue; or, where the cycle's choice says so, the warp stops in firmware mode, for the
handler's own instructions (the model's choice, log entry 45). -/
def Emulates (i : Instr) (c : Cause) (r : RRR) (opts : Opts) (named : List Opnd) (cond : Env → Prop) (eff : Env → Env) : Prop :=
  (∀ s env, openIssue i (wordOf i) s = some env → env.staysInFirmware = false → env.w.firmware = false → env.t5Check r named = none →
    env.spin = false → env.p ≠ 0 → cond env → Closes opts (exec i s) (eff (env.enterFirmware c))) ∧
  (∀ s env, openIssue i (wordOf i) s = some env → env.staysInFirmware = true →
    exec i s = .next ({ env with w := (env.enterFirmware c).w.inFirmware } : Env).commit)

/-- An event of a context: where its test holds, the machine goes to the state given. -/
def OnCtx (i : Instr) (c : Nat) (can : State → Context → Prop) (eff : State → Context → State) : Prop :=
  ∀ s x, s.ctx? c = some x → can s x → exec i s = .next (eff s x)

/-- An event of a warp: where its test holds, the machine goes to the state given. -/
def OnWarp (i : Instr) (c u : Nat) (can : State → Context → Warp → Prop) (eff : State → Context → Warp → State) : Prop :=
  ∀ s x w, s.ctx? c = some x → x.warp? u = some w → can s x w → exec i s = .next (eff s x w)

/-- Memory has its canonical form. -/
def State.memWf (s : State) : Prop := s.mem.wf = true

end Sys2Proof.Machine
end

