-- ==== Sys2Proof/Certificates/Slice0/Obligations.lean ====
section
/-! DEFINITION. The statements for the provers: what decoding, issues, instructions, traps, events and steps do, from the numbered rules of
the spec. -/

open Sys2Proof Sys2Proof.Machine

/-- For every instruction that the encoding tables allow, with every operand at every value they allow, and for every word of an
unassigned opcode, decoding the encoded word gives that instruction. (R81, R83, R85, R94, R95.) -/
def Obligations.EveryInstructionRoundTrips : Prop :=
  ∀ i : Instr, (i.wellFormed = true ∨ ∃ w, i = .unassignedOpcode w ∧ members (field w.toNat 63 56) w.toNat = none) →
    decodeWord (wordOf i) = .ok i

/-- The worked encodings of the spec, and words composed from its tables, decode to the instructions that the spec gives them. (R81,
R83, R94, R95.) -/
def Obligations.SpecWordsDecode : Prop :=
  decodeWord 0x4020050607001C00 = .ok (.fadd ⟨2, false, 5, 6, 7, 0, 1, true, true, false, 0⟩) ∧
    decodeWord 0x0230FFFFFFFDC801 = .ok (.bruAll ⟨3, false, 0xFFFFFFFD, 200, 1⟩) ∧
    decodeWord 0x01F0000000056400 = .ok (.bra ⟨15, false, 5, 100, 0⟩) ∧
    decodeWord 0x50F0020201F03800 = .ok (.faddi ⟨15, false, 2, 2, 0x1F0, 3, true, 0⟩) ∧
    decodeWord 0xC0F0000400070803 = .ok (.bsync ⟨15, false, 0, 4, 7, 0, true, 3⟩) ∧
    decodeWord 0x76F0010400000852 = .ok (.ldacq ⟨15, false, 1, 4, 0, 0, 0, true, false, false, 0x52⟩) ∧
    decodeWord 0xD3F0000400050800 = .ok (.csrwGencfg ⟨15, false, 0, 4, 5, 0, true, 0⟩) ∧
    decodeWord 0xC4F000000D070600 = .ok (.msend ⟨15, false, 0, 0, 0x0D, 7, 0, false, true, true, 0⟩) ∧
    decodeWord 0xB6F00A001D002400 = .ok (.amovv ⟨15, false, 0x0A, 0, 0x1D, 0, 2, false, true, false, 0⟩)

/-- For every word whose header bits 50:48 are not zero and whose opcode has members, decoding refuses it with RSVD_BITS. (R81, R96,
R97.) -/
def Obligations.HeaderBitsReserved : Prop :=
  ∀ w : Word, field w.toNat 50 48 ≠ 0 → members (field w.toNat 63 56) w.toNat ≠ none → retired (field w.toNat 63 56) = false →
    decodeWord w = .error .rsvdBits

/-- For every word that decodes to an instruction, encoding the instruction gives the word back, so that no bit of a legal word is
without meaning. (R81, R83, R85, R94.) -/
def Obligations.DecodedWordEncodesBack : Prop :=
  ∀ (w : Word) (i : Instr), decodeWord w = .ok i → wordOf i = w

/-- An issue that passes its checks with P empty has no further effect: every register, predicate, slot, descriptor, handle and byte
of memory stays, and its threads go to PC + 8 at their priority. The statement is about the shared issue of all instructions,
whatever the effect of the instruction. (R7, R34, R82.) -/
def Obligations.GuardFalseIssueHasNoEffect : Prop :=
  ∀ (i : Instr) (opts : Opts) (s : State) (env : Env) (body : Env → Res), openIssue i (wordOf i) s = some env → precheck opts env = none →
    env.spin = false → env.p = 0 → env.e.mask ≠ 0 → Closes opts (issue i opts s body) env

/-- Each uniform instruction and uniform-vector move, for every operand, writes D with the value that its table row gives, and
nothing else changes but the count of the issue; its threads go to PC + 8. (R34, R87, R106, R118, R119.) -/
def Obligations.UniformResults : Prop :=
  (∀ r, Completes (.sadd r) .plain (fun env => env.setS r.d (env.s r.a + env.s r.b))) ∧
  (∀ r, Completes (.ssub r) .plain (fun env => env.setS r.d (env.s r.a - env.s r.b))) ∧
  (∀ r, Completes (.smul r) .plain (fun env => env.setS r.d (env.s r.a * env.s r.b))) ∧
  (∀ r, Completes (.smulh r) .plain (fun env => env.setS r.d
    (if r.x = 0 then BitVec.ofNat 64 ((env.s r.a).toNat * (env.s r.b).toNat / 2 ^ 64)
     else BitVec.ofInt 64 ((env.s r.a).toInt * (env.s r.b).toInt / 2 ^ 64)))) ∧
  (∀ r, Completes (.sand r) .plain (fun env => env.setS r.d (env.s r.a &&& env.s r.b))) ∧
  (∀ r, Completes (.sor r) .plain (fun env => env.setS r.d (env.s r.a ||| env.s r.b))) ∧
  (∀ r, Completes (.sxor r) .plain (fun env => env.setS r.d (env.s r.a ^^^ env.s r.b))) ∧
  (∀ r, Completes (.sshl r) .plain (fun env => env.setS r.d (env.s r.a <<< ((env.s r.b).toNat % 64)))) ∧
  (∀ r, Completes (.sshr r) .plain (fun env => env.setS r.d (env.s r.a >>> ((env.s r.b).toNat % 64)))) ∧
  (∀ r, Completes (.ssra r) .plain (fun env => env.setS r.d ((env.s r.a).sshiftRight ((env.s r.b).toNat % 64)))) ∧
  (∀ r, Completes (.smin r) .plain (fun env => env.setS r.d
    (if r.x = 0 then (if (env.s r.a).ule (env.s r.b) then env.s r.a else env.s r.b)
     else if (env.s r.a).sle (env.s r.b) then env.s r.a else env.s r.b))) ∧
  (∀ r, Completes (.smax r) .plain (fun env => env.setS r.d
    (if r.x = 1 then (if (env.s r.a).ule (env.s r.b) then env.s r.b else env.s r.a)
     else if (env.s r.a).sle (env.s r.b) then env.s r.b else env.s r.a))) ∧
  (∀ r, Completes (.saddi r) .plain (fun env => env.setS r.d (env.s r.a + r.imm.signExtend 64))) ∧
  (∀ r, Completes (.sldi r) .plain (fun env => env.setS r.d (if r.x = 0 then r.imm.signExtend 64 else r.imm.zeroExtend 64))) ∧
  (∀ r, Completes (.sldhi r) .plain (fun env => env.setS r.d (r.imm ++ (env.s r.d).extractLsb' 0 32))) ∧
  (∀ r, Completes (.scmp r) .plain (fun env => env.setS r.d (if scmpCc r.x.toNat (env.s r.a) (env.s r.b) then 1 else 0))) ∧
  (∀ r, Completes (.ssel r) .plain (fun env => env.setS r.d (if env.s r.c ≠ 0 then env.s r.a else env.s r.b))) ∧
  (∀ r, Completes (.sget r) (sgetOpts r) (fun env => env.setS r.d (env.v r.a ((env.s r.b).toNat % 32)))) ∧
  (∀ r, Completes (.sgetFirst r) sgetFirstOpts (fun env => env.setS r.d (env.v r.a env.p.low))) ∧
  (∀ r, Completes (.vbc r) .plain (fun env => env.setV r.d (fun _ => env.s r.a)))

/-- Each element-wise integer instruction, for every type and operand, writes in each thread of P the elements that its table row
gives, modulo 2^ew or clamped under .sat; the logical forms work on whole words. Nothing else changes but the count of the
issue. (R34, R87, R138, R139.) -/
def Obligations.IntegerElementResults : Prop :=
  (∀ r, Completes (.iadd r) .plain (fun env => env.setV r.d (fun t => packInts r.x.toNat (fun k =>
    satInt r.x.toNat (elemInt r.x.toNat (env.v r.a t) k + elemInt r.x.toNat (env.v r.b t) k))))) ∧
  (∀ r, Completes (.isub r) .plain (fun env => env.setV r.d (fun t => packInts r.x.toNat (fun k =>
    satInt r.x.toNat (elemInt r.x.toNat (env.v r.a t) k - elemInt r.x.toNat (env.v r.b t) k))))) ∧
  (∀ r, Completes (.imul r) .plain (fun env => env.setV r.d (fun t => packInts r.x.toNat (fun k =>
    satInt r.x.toNat (elemInt r.x.toNat (env.v r.a t) k * elemInt r.x.toNat (env.v r.b t) k))))) ∧
  (∀ r, Completes (.imulh r) .plain (fun env => env.setV r.d (fun t => packInts r.x.toNat (fun k =>
    elemInt r.x.toNat (env.v r.a t) k * elemInt r.x.toNat (env.v r.b t) k / 2 ^ ewOf r.x.toNat)))) ∧
  (∀ r, Completes (.imad r) .plain (fun env => env.setV r.d (fun t => packInts r.x.toNat (fun k =>
    satInt r.x.toNat (elemInt r.x.toNat (env.v r.a t) k * elemInt r.x.toNat (env.v r.b t) k + elemInt r.x.toNat (env.v r.c t) k))))) ∧
  (∀ r, Completes (.iand r) .plain (fun env => env.setV r.d (fun t => env.v r.a t &&& env.v r.b t))) ∧
  (∀ r, Completes (.ior r) .plain (fun env => env.setV r.d (fun t => env.v r.a t ||| env.v r.b t))) ∧
  (∀ r, Completes (.ixor r) .plain (fun env => env.setV r.d (fun t => env.v r.a t ^^^ env.v r.b t))) ∧
  (∀ r, Completes (.ishl r) .plain (fun env => env.setV r.d (fun t => packInts r.x.toNat (fun k =>
    ((elemOf (ewOf r.x.toNat) (env.v r.a t) k * 2 ^ (elemOf (ewOf r.x.toNat) (env.v r.b t) k % ewOf r.x.toNat) : Nat) : Int))))) ∧
  (∀ r, Completes (.ishr r) .plain (fun env => env.setV r.d (fun t => packInts r.x.toNat (fun k =>
    ((elemOf (ewOf r.x.toNat) (env.v r.a t) k / 2 ^ (elemOf (ewOf r.x.toNat) (env.v r.b t) k % ewOf r.x.toNat) : Nat) : Int))))) ∧
  (∀ r, Completes (.isra r) .plain (fun env => env.setV r.d (fun t => packInts r.x.toNat (fun k =>
    signedOf (ewOf r.x.toNat) (elemOf (ewOf r.x.toNat) (env.v r.a t) k) / 2 ^ (elemOf (ewOf r.x.toNat) (env.v r.b t) k % ewOf r.x.toNat))))) ∧
  (∀ r, Completes (.imin r) .plain (fun env => env.setV r.d (fun t => packInts r.x.toNat (fun k =>
    min (elemInt r.x.toNat (env.v r.a t) k) (elemInt r.x.toNat (env.v r.b t) k))))) ∧
  (∀ r, Completes (.imax r) .plain (fun env => env.setV r.d (fun t => packInts r.x.toNat (fun k =>
    max (elemInt r.x.toNat (env.v r.a t) k) (elemInt r.x.toNat (env.v r.b t) k))))) ∧
  (∀ r, Completes (.ipopc r) .plain (fun env => env.setV r.d (fun t => packInts r.x.toNat (fun k =>
    popNat (ewOf r.x.toNat) (elemOf (ewOf r.x.toNat) (env.v r.a t) k))))) ∧
  (∀ r, Completes (.iclz r) .plain (fun env => env.setV r.d (fun t => packInts r.x.toNat (fun k =>
    clzNat (ewOf r.x.toNat) (elemOf (ewOf r.x.toNat) (env.v r.a t) k)))))

/-- ICMP and ICMPI write the predicate of their condition over the elements; ICMPM writes a mask per element; ISEL and ISEL.m
choose; IBFE and IBFI extract and insert; LEA adds the scaled index. IADDI, IANDI, IORI, IXORI, ISHLI and ISHRI compute every
element with the immediate that R144 gives their type; MOV, MOVI and MOVI.hi move. Nothing else changes but the count of the
issue. (R34, R87, R140, R141, R142, R143, R144, R145.) -/
def Obligations.IntegerSelectsAndImmediates : Prop :=
  (∀ r, Completes (.icmp r) .plain (fun env => env.setP r.d (fun t => overElems (r.x.toNat / 16 % 4) (64 / ewOf r.x.toNat) (fun k =>
    intCc (r.x.toNat / 64) (elemInt r.x.toNat (env.v r.a t) k) (elemInt r.x.toNat (env.v r.b t) k))))) ∧
  (∀ r, Completes (.icmpi r) .plain (fun env => env.setP r.d (fun t => overElems (r.x.toNat / 16 % 4) (64 / ewOf r.x.toNat) (fun k =>
    intCc (r.x.toNat / 64) (elemInt r.x.toNat (env.v r.a t) k) (logicImm r.x.toNat r.imm.toNat))))) ∧
  (∀ r, Completes (.icmpm r) .plain (fun env => env.setV r.d (fun t => packInts r.x.toNat (fun k =>
    if intCc (r.x.toNat / 64) (elemInt r.x.toNat (env.v r.a t) k) (elemInt r.x.toNat (env.v r.b t) k) then -1 else 0)))) ∧
  (∀ r, Completes (.isel r) .plain (fun env => env.setV r.d (fun t => if (env.pr r.c).has t then env.v r.a t else env.v r.b t))) ∧
  (∀ r, Completes (.iselM r) .plain (fun env => env.setV r.d (fun t => packInts r.x.toNat (fun k =>
    if elemOf (ewOf r.x.toNat) (env.v r.c t) k ≠ 0 then (elemOf (ewOf r.x.toNat) (env.v r.a t) k : Int) else (elemOf (ewOf r.x.toNat) (env.v r.b t) k : Int))))) ∧
  (∀ r, Completes (.ibfe r) .plain (fun env => env.setV r.d (fun t => packInts r.x.toNat (fun k =>
    bfeElem r.x.toNat (elemOf (ewOf r.x.toNat) (env.v r.a t) k) (elemOf (ewOf r.x.toNat) (env.v r.b t) k) (elemOf (ewOf r.x.toNat) (env.v r.c t) k))))) ∧
  (∀ r, Completes (.ibfi r) .plain (fun env => env.setV r.d (fun t => packInts r.x.toNat (fun k =>
    (bfiElem r.x.toNat (elemOf (ewOf r.x.toNat) (env.v r.d t) k) (elemOf (ewOf r.x.toNat) (env.v r.a t) k) (elemOf (ewOf r.x.toNat) (env.v r.b t) k) (elemOf (ewOf r.x.toNat) (env.v r.c t) k) : Int))))) ∧
  (∀ r, Completes (.lea r) .plain (fun env => env.setV r.d (fun t => env.v r.a t + BitVec.ofInt 64 (elemInt r.x.toNat (env.v r.b t) 0 * 2 ^ (r.x.toNat / 8))))) ∧
  (∀ r, Completes (.iaddi r) .plain (fun env => env.setV r.d (fun t => packInts r.x.toNat (fun k =>
    satInt r.x.toNat (elemInt r.x.toNat (env.v r.a t) k + addImm r.x.toNat r.imm.toNat))))) ∧
  (∀ r, Completes (.iandi r) .plain (fun env => env.setV r.d (fun t => packInts r.x.toNat (fun k =>
    ((elemOf (ewOf r.x.toNat) (env.v r.a t) k &&& wrapNat (ewOf r.x.toNat) (logicImm r.x.toNat r.imm.toNat) : Nat) : Int))))) ∧
  (∀ r, Completes (.iori r) .plain (fun env => env.setV r.d (fun t => packInts r.x.toNat (fun k =>
    ((elemOf (ewOf r.x.toNat) (env.v r.a t) k ||| wrapNat (ewOf r.x.toNat) (logicImm r.x.toNat r.imm.toNat) : Nat) : Int))))) ∧
  (∀ r, Completes (.ixori r) .plain (fun env => env.setV r.d (fun t => packInts r.x.toNat (fun k =>
    ((elemOf (ewOf r.x.toNat) (env.v r.a t) k ^^^ wrapNat (ewOf r.x.toNat) (logicImm r.x.toNat r.imm.toNat) : Nat) : Int))))) ∧
  (∀ r, Completes (.ishli r) .plain (fun env => env.setV r.d (fun t => packInts r.x.toNat (fun k =>
    if ewOf r.x.toNat ≤ r.imm.toNat % 64 then 0 else ((elemOf (ewOf r.x.toNat) (env.v r.a t) k * 2 ^ (r.imm.toNat % 64) : Nat) : Int))))) ∧
  (∀ r, Completes (.ishri r) .plain (fun env => env.setV r.d (fun t => packInts r.x.toNat (fun k =>
    elemInt r.x.toNat (env.v r.a t) k / 2 ^ (r.imm.toNat % 64))))) ∧
  (∀ r, Completes (.mov r) .plain (fun env => env.setV r.d (fun t => env.v r.a t))) ∧
  (∀ r, Completes (.movi r) .plain (fun env => env.setV r.d (fun _ =>
    if r.x.toNat % 4 = 3 then (if sgnOf r.x.toNat then r.imm.signExtend 64 else r.imm.zeroExtend 64)
    else packInts r.x.toNat (fun _ => (r.imm.toNat : Int))))) ∧
  (∀ r, Completes (.moviHi r) .plain (fun env => env.setV r.d (fun t => r.imm ++ (env.v r.d t).extractLsb' 0 32)))

/-- Element k of a word packed from integers is integer k modulo 2^ew, and element k of a word packed from codes of width w is code
k modulo 2^w, with every bit above the last element zero. (R59, R138, R139.) -/
def Obligations.ElementsArePacked : Prop :=
  (∀ ty f k, k < 64 / ewOf ty → elemOf (ewOf ty) (packInts ty f) k = wrapNat (ewOf ty) (f k)) ∧
  (∀ w (cs : List Nat) k, 0 < w → cs.length * w ≤ 64 → k < cs.length → elemOf w (packElems w cs) k = cs.getD k 0 % 2 ^ w) ∧
  (∀ w (cs : List Nat), 0 < w → cs.length * w ≤ 64 → (packElems w cs).toNat < 2 ^ (cs.length * w))

/-- FADD, FSUB, FMUL, FDIV, FFMA, FSQRT, the approximations and FSCALE write, in each thread of P, each element of the slot rounded
once from its exact result under the rounding mode of X, with one draw per element under stochastic rounding; an Invalid element
under the trap policy is FMT_INVALID over the threads that fail, with the element of the lowest as UTVAL, and no effect. That +0
+ +0 under RDN is −0 is a reading of R69 (log entry 53). Nothing else changes but the count of the issue. (R34, R64, R67, R69,
R146, R147, R153.) -/
def Obligations.SlotArithmeticResults : Prop :=
  (∀ r, SlotResult (.fadd r) .plain r.f (r.x.toNat / 8 % 8) r.d r.a (fun env rm t k => Val.sum [(env.val r.f r.a t k), (env.val r.f r.b t k)] rm)) ∧
  (∀ r, SlotResult (.fsub r) .plain r.f (r.x.toNat / 8 % 8) r.d r.a (fun env rm t k => Val.sum [(env.val r.f r.a t k), (env.val r.f r.b t k).flip true] rm)) ∧
  (∀ r, SlotResult (.fmul r) .plain r.f (r.x.toNat / 8 % 8) r.d r.a (fun env _ t k => Val.mul (env.val r.f r.a t k) (env.val r.f r.b t k))) ∧
  (∀ r, SlotResult (.fdiv r) .plain r.f (r.x.toNat / 8 % 8) r.d r.a (fun env _ t k => Val.div (env.val r.f r.a t k) (env.val r.f r.b t k))) ∧
  (∀ r, SlotResult (.ffma r) .plain r.f (r.x.toNat / 8 % 8) r.d r.a (fun env rm t k =>
    if Val.mulInvalid (env.val r.f r.a t k) (env.val r.f r.b t k) then .nan
    else Val.sum [(Val.mul (env.val r.f r.a t k) (env.val r.f r.b t k)).flip (r.x.getLsbD 1), (env.val r.f r.c t k).flip (r.x.getLsbD 0)] rm)) ∧
  (∀ r, SlotResult (.fsqrt r) .plain r.f (r.x.toNat / 8 % 8) r.d r.a (fun env _ t k => Val.sqrt (env.val r.f r.a t k))) ∧
  (∀ r, SlotResult (.frcp r) .plain r.f (r.x.toNat / 8 % 8) r.d r.a (fun env _ t k => Val.rcp (env.val r.f r.a t k))) ∧
  (∀ r, SlotResult (.frsq r) .plain r.f (r.x.toNat / 8 % 8) r.d r.a (fun env _ t k => Val.rsq (env.val r.f r.a t k))) ∧
  (∀ r, SlotResult (.fexp2 r) .plain r.f (r.x.toNat / 8 % 8) r.d r.a (fun env _ t k => Val.exp2 (env.val r.f r.a t k))) ∧
  (∀ r, SlotResult (.flog2 r) .plain r.f (r.x.toNat / 8 % 8) r.d r.a (fun env _ t k => Val.log2v (env.val r.f r.a t k))) ∧
  (∀ r, SlotResult (.fscale r) .plain r.f (r.x.toNat / 8 % 8) r.d r.a (fun env _ t k => (env.val r.f r.a t k).scale2 (signedOf 32 ((env.v r.b t).toNat % 2 ^ 32))))

/-- FADDI, FMULI and FFMAI compute with the value of the immediate's code for each element, FFMAI with D as the addend, rounded once
as the other slot instructions are, or take FMT_INVALID. That +0 + +0 under RDN is −0 is a reading of R69 (log entry 53).
Nothing else changes but the count of the issue. (R67, R69, R92, R146, R147.) -/
def Obligations.SlotImmediateResults : Prop :=
  (∀ r, SlotResult (.faddi r) .slotImm r.f (r.x.toNat / 8 % 8) r.d r.a (fun env rm t k =>
    Val.sum [env.val r.f r.a t k, (env.slot r.f).decode (immCode (env.slot r.f) r.imm.toNat k)] rm)) ∧
  (∀ r, SlotResult (.fmuli r) .slotImm r.f (r.x.toNat / 8 % 8) r.d r.a (fun env _ t k =>
    Val.mul (env.val r.f r.a t k) ((env.slot r.f).decode (immCode (env.slot r.f) r.imm.toNat k)))) ∧
  (∀ r, SlotResult (.ffmai r) .slotImm r.f (r.x.toNat / 8 % 8) r.d r.a (fun env rm t k =>
    fmaVal (r.x.getLsbD 1) (r.x.getLsbD 0) rm (env.val r.f r.a t k) ((env.slot r.f).decode (immCode (env.slot r.f) r.imm.toNat k))
      (env.val r.f r.d t k)))

/-- FSUM and FDOT round one exact sum per thread into element 0; SCAN.fadd rounds each prefix sum over the lower lanes of P once, an
empty prefix being +0; FREDX writes a uniform word from the exact sum, minimum or maximum over P, drawing from the lowest
thread, or takes FMT_INVALID. That an Invalid result of FSUM and FDOT takes the sign of element 0 of A is the model's choice
(log entry 66): R64 leaves the element open. That +0 + +0 under RDN is −0 is a reading of R69 (log entry 53), and that FREDX.min
and FREDX.max draw nothing under RSTO one of R67 and R127 (log entry 99). Nothing else changes but the count of the issue. (R64,
R67, R69, R74, R127, R146, R152.) -/
def Obligations.SlotSumAndScanResults : Prop :=
  (∀ r, Encodes (.fsum r) .plain r.d (fun env => rmOf (r.x.toNat / 8 % 8) (env.slot r.f)) (fun _ => 0)
    (fun env t => [fun u => (env.slot r.f).encode (Val.sum ((List.range (env.slot r.f).elems).map (env.val r.f r.a t) ++
        (if r.x.getLsbD 0 then [env.val r.f r.b t 0] else [])) (rmOf (r.x.toNat / 8 % 8) (env.slot r.f)))
      (rmOf (r.x.toNat / 8 % 8) (env.slot r.f)) ((env.slot r.f).sign (env.v r.a t) 0) u]) (fun env _ cs => packElems (env.slot r.f).width cs)) ∧
  (∀ r, Encodes (.fdot r) .plain r.d (fun env => rmOf (r.x.toNat / 8 % 8) (env.slot r.f)) (fun _ => 0)
    (fun env t => [fun u => (env.slot r.f).encode (Val.sum ((List.range (env.slot r.f).elems).map (fun k =>
        Val.mul (env.val r.f r.a t k) (env.val r.f r.b t k)) ++ (if r.x.getLsbD 0 then [env.val r.f r.c t 0] else []))
      (rmOf (r.x.toNat / 8 % 8) (env.slot r.f)))
      (rmOf (r.x.toNat / 8 % 8) (env.slot r.f)) ((env.slot r.f).sign (env.v r.a t) 0) u]) (fun env _ cs => packElems (env.slot r.f).width cs)) ∧
  (∀ r, Encodes (.scanFadd r) .plain r.d (fun env => (env.slot r.f).rm) (fun _ => 0)
    (fun env t => (List.range (env.slot r.f).elems).map (fun k u =>
      if scanLanes env.p (r.x.getLsbD 6) t = [] then some 0
      else (env.slot r.f).encode (Val.sum ((scanLanes env.p (r.x.getLsbD 6) t).map (fun v => env.val r.f r.a v k)) (env.slot r.f).rm)
        (env.slot r.f).rm ((env.slot r.f).sign (env.v r.a env.p.low) k) u)) (fun env _ cs => packElems (env.slot r.f).width cs)) ∧
  (∀ r, CompletesIf (.fredx r) .plain (fun env => (fredxRun env r (env.slot r.f)).2.all Option.isSome = true)
    (fun env => { env with w := { env.w.writeS r.d.toNat (packElems (env.slot r.f).width
        ((fredxRun env r (env.slot r.f)).2.map (fun c => c.getD 0))) with
      rs := smPut 0 env.w.rs env.p.low (fredxRun env r (env.slot r.f)).1 } })) ∧
  (∀ r, Traps (.fredx r) .plain (fun env => (fredxRun env r (env.slot r.f)).2.all Option.isSome = false)
    (fun env => { cause := .fmtInvalid, mask := env.p
                  tval := BitVec.ofNat 64 (((fredxRun env r (env.slot r.f)).2.findIdx? (fun c => c.isNone)).getD 0) }))

/-- Where the starts lie below the element counts, each of FCVT, FBSCL, FTOI and ITOF writes the run of destination elements and
keeps the other elements of D, or, where an element of the run is Invalid under the trap policy, takes FMT_INVALID with the
threads that fail and the destination element of the lowest (FTOI has no such element); where a start lies at or beyond its
count each takes ILLEGAL_OPERAND. That UTVAL names the destination element, not the source element, is the model's choice (log
entry 83). FRND and FABSN write every element or take FMT_INVALID. Nothing else changes but the count of the issue. (R67, R71,
R72, R146, R147, R149, R155.) -/
def Obligations.ConversionResults : Prop :=
  (∀ r, let rm := fun env : Env => rmOf (r.x.toNat / 4 % 8) (env.w.slot (r.x.toNat / 32))
    let elems := fun (env : Env) t => (List.range (min ((env.slot r.f).elems - r.b.toNat) ((env.w.slot (r.x.toNat / 32)).elems - r.c.toNat))).map (fun j u =>
      (env.w.slot (r.x.toNat / 32)).encode (env.val r.f r.a t (r.b.toNat + j)) (rm env) ((env.slot r.f).sign (env.v r.a t) (r.b.toNat + j)) u)
    CompletesIf (.fcvt r) (fcvtOpts r) (fun env => r.b.toNat < (env.slot r.f).elems ∧ r.c.toNat < (env.w.slot (r.x.toNat / 32)).elems ∧ ∀ t, env.p.has t = true → env.badElem (rm env) (elems env) t = none)
      (fun env => env.encoded (rm env) r.d (elems env) (fun t cs => mergeRun ((env.w.slot (r.x.toNat / 32)).width) ((env.w.slot (r.x.toNat / 32)).elems) (env.v r.d t) r.c.toNat cs)) ∧
    Traps (.fcvt r) (fcvtOpts r) (fun env => (r.b.toNat < (env.slot r.f).elems ∧ r.c.toNat < (env.w.slot (r.x.toNat / 32)).elems) ∧ ∃ t, t < 32 ∧ env.p.has t = true ∧ env.badElem (rm env) (elems env) t ≠ none) (fun env =>
      let m := Mask.ofPred (fun t => env.p.has t && (env.badElem (rm env) (elems env) t).isSome)
      { cause := .fmtInvalid, tval := BitVec.ofNat 64 (r.c.toNat + (env.badElem (rm env) (elems env) m.low).getD 0), mask := m }) ∧
    Traps (.fcvt r) (fcvtOpts r) (fun env => (env.slot r.f).elems ≤ r.b.toNat ∨ (env.w.slot (r.x.toNat / 32)).elems ≤ r.c.toNat)
      (fun env => { cause := .illegalOperand, tval := env.word, mask := env.e.mask })) ∧
  (∀ r, let rm := fun env : Env => rmOf (r.x.toNat / 4 % 8) (env.w.slot (r.x.toNat / 32))
    let elems := fun (env : Env) t => (List.range (min ((env.slot r.f).elems - r.c.toNat) ((env.w.slot (r.x.toNat / 32)).elems - 0))).map (fun j u =>
      (env.w.slot (r.x.toNat / 32)).encode ((env.slot r.f).blockValue (env.v r.b t) ((env.slot r.f).code (env.v r.a t) (r.c.toNat + j))) (rm env)
        ((env.slot r.f).sign (env.v r.a t) (r.c.toNat + j)) u)
    CompletesIf (.fbscl r) (fbsclOpts r) (fun env => r.c.toNat < (env.slot r.f).elems ∧ 0 < (env.w.slot (r.x.toNat / 32)).elems ∧ ∀ t, env.p.has t = true → env.badElem (rm env) (elems env) t = none)
      (fun env => env.encoded (rm env) r.d (elems env) (fun t cs => mergeRun ((env.w.slot (r.x.toNat / 32)).width) ((env.w.slot (r.x.toNat / 32)).elems) (env.v r.d t) 0 cs)) ∧
    Traps (.fbscl r) (fbsclOpts r) (fun env => (r.c.toNat < (env.slot r.f).elems ∧ 0 < (env.w.slot (r.x.toNat / 32)).elems) ∧ ∃ t, t < 32 ∧ env.p.has t = true ∧ env.badElem (rm env) (elems env) t ≠ none) (fun env =>
      let m := Mask.ofPred (fun t => env.p.has t && (env.badElem (rm env) (elems env) t).isSome)
      { cause := .fmtInvalid, tval := BitVec.ofNat 64 (0 + (env.badElem (rm env) (elems env) m.low).getD 0), mask := m }) ∧
    Traps (.fbscl r) (fbsclOpts r) (fun env => (env.slot r.f).elems ≤ r.c.toNat ∨ (env.w.slot (r.x.toNat / 32)).elems ≤ 0)
      (fun env => { cause := .illegalOperand, tval := env.word, mask := env.e.mask })) ∧
  (∀ r, let rm := fun env : Env => rmOf (r.x.toNat / 8 % 8) (env.slot r.f)
    let elems := fun (env : Env) t => (List.range (min ((env.slot r.f).elems - r.b.toNat) (64 / ewOf (r.x.toNat % 8) - r.c.toNat))).map (fun j u =>
      some (wrapNat (ewOf (r.x.toNat % 8)) (valToInt (r.x.toNat % 8) (env.val r.f r.a t (r.b.toNat + j)) (rm env) u)))
    CompletesIf (.ftoi r) (ftoiOpts r) (fun env => r.b.toNat < (env.slot r.f).elems ∧ r.c.toNat < 64 / ewOf (r.x.toNat % 8) ∧ ∀ t, env.p.has t = true → env.badElem (rm env) (elems env) t = none)
      (fun env => env.encoded (rm env) r.d (elems env) (fun t cs => mergeRun (ewOf (r.x.toNat % 8)) (64 / ewOf (r.x.toNat % 8)) (env.v r.d t) r.c.toNat cs)) ∧
    Traps (.ftoi r) (ftoiOpts r) (fun env => (r.b.toNat < (env.slot r.f).elems ∧ r.c.toNat < 64 / ewOf (r.x.toNat % 8)) ∧ ∃ t, t < 32 ∧ env.p.has t = true ∧ env.badElem (rm env) (elems env) t ≠ none) (fun env =>
      let m := Mask.ofPred (fun t => env.p.has t && (env.badElem (rm env) (elems env) t).isSome)
      { cause := .fmtInvalid, tval := BitVec.ofNat 64 (r.c.toNat + (env.badElem (rm env) (elems env) m.low).getD 0), mask := m }) ∧
    Traps (.ftoi r) (ftoiOpts r) (fun env => (env.slot r.f).elems ≤ r.b.toNat ∨ 64 / ewOf (r.x.toNat % 8) ≤ r.c.toNat)
      (fun env => { cause := .illegalOperand, tval := env.word, mask := env.e.mask })) ∧
  (∀ r, let rm := fun env : Env => rmOf (r.x.toNat / 8 % 8) (env.slot r.f)
    let elems := fun (env : Env) t => (List.range (min (64 / ewOf (r.x.toNat % 8) - r.b.toNat) ((env.slot r.f).elems - r.c.toNat))).map (fun j u =>
      (env.slot r.f).encode (Val.ofInt (elemInt (r.x.toNat % 8) (env.v r.a t) (r.b.toNat + j))) (rm env)
        (decide (2 ^ (ewOf (r.x.toNat % 8) - 1) ≤ elemOf (ewOf (r.x.toNat % 8)) (env.v r.a t) (r.b.toNat + j))) u)
    CompletesIf (.itof r) (itofOpts r) (fun env => r.b.toNat < 64 / ewOf (r.x.toNat % 8) ∧ r.c.toNat < (env.slot r.f).elems ∧ ∀ t, env.p.has t = true → env.badElem (rm env) (elems env) t = none)
      (fun env => env.encoded (rm env) r.d (elems env) (fun t cs => mergeRun ((env.slot r.f).width) ((env.slot r.f).elems) (env.v r.d t) r.c.toNat cs)) ∧
    Traps (.itof r) (itofOpts r) (fun env => (r.b.toNat < 64 / ewOf (r.x.toNat % 8) ∧ r.c.toNat < (env.slot r.f).elems) ∧ ∃ t, t < 32 ∧ env.p.has t = true ∧ env.badElem (rm env) (elems env) t ≠ none) (fun env =>
      let m := Mask.ofPred (fun t => env.p.has t && (env.badElem (rm env) (elems env) t).isSome)
      { cause := .fmtInvalid, tval := BitVec.ofNat 64 (r.c.toNat + (env.badElem (rm env) (elems env) m.low).getD 0), mask := m }) ∧
    Traps (.itof r) (itofOpts r) (fun env => 64 / ewOf (r.x.toNat % 8) ≤ r.b.toNat ∨ (env.slot r.f).elems ≤ r.c.toNat)
      (fun env => { cause := .illegalOperand, tval := env.word, mask := env.e.mask })) ∧
  (∀ r, Encodes (.frnd r) .plain r.d (fun env => rmOf (r.x.toNat / 8 % 8) (env.slot r.f)) (fun _ => 0)
    (fun env t => (List.range (env.slot r.f).elems).map (fun k u => (env.slot r.f).encode
      ((env.val r.f r.a t k).roundInt (rmOf (r.x.toNat / 8 % 8) (env.slot r.f)) u) .rne ((env.slot r.f).sign (env.v r.a t) k) u))
    (fun env _ cs => packElems (env.slot r.f).width cs)) ∧
  (∀ r, Encodes (.fabsn r) .plain r.d (fun _ => .rne) (fun _ => 0)
    (fun env t => (List.range (env.slot r.f).elems).map (fun k => fabsnElem r.x.toNat (env.slot r.f)
      ((env.slot r.f).code (env.v r.a t) k) ((env.slot r.f).code (env.v r.b t) k)))
    (fun env _ cs => packElems (env.slot r.f).width cs))

/-- FMIN and FMAX choose per element, FCMP and FCLASS write a mask or a predicate, FPACK arranges codes; none of them takes
FMT_INVALID or draws. Nothing else changes but the count of the issue. (R34, R148, R150, R151, R156.) -/
def Obligations.SlotComparesAndMoves : Prop :=
  (∀ r, Completes (.fmin r) .plain (fun env => env.setV r.d (fun t => packElems (env.slot r.f).width ((List.range (env.slot r.f).elems).map
    (fun k => minmaxCode (env.slot r.f) Val.min ((env.slot r.f).code (env.v r.a t) k) ((env.slot r.f).code (env.v r.b t) k)))))) ∧
  (∀ r, Completes (.fmax r) .plain (fun env => env.setV r.d (fun t => packElems (env.slot r.f).width ((List.range (env.slot r.f).elems).map
    (fun k => minmaxCode (env.slot r.f) Val.max ((env.slot r.f).code (env.v r.a t) k) ((env.slot r.f).code (env.v r.b t) k)))))) ∧
  (∀ r, Completes (.fcmp r) .plain (fun env =>
    if r.x.toNat / 64 % 4 = 0 then env.setV r.d (fun t => packElems (env.slot r.f).width ((List.range (env.slot r.f).elems).map (fun k =>
      if fcmpCc (r.x.toNat % 8) (env.val r.f r.a t k) (env.val r.f r.b t k) then 2 ^ (env.slot r.f).width - 1 else 0)))
    else env.setP r.d (fun t => overElems (r.x.toNat / 64 % 4 - 1) (env.slot r.f).elems
      (fun k => fcmpCc (r.x.toNat % 8) (env.val r.f r.a t k) (env.val r.f r.b t k))))) ∧
  (∀ r, Completes (.fclass r) .plain (fun env => env.setV r.d (fun t => packElems (env.slot r.f).width
    ((List.range (env.slot r.f).elems).map (fun k =>
      if r.x.getLsbD ((env.slot r.f).classBit ((env.slot r.f).code (env.v r.a t) k)) then 2 ^ (env.slot r.f).width - 1 else 0))))) ∧
  (∀ r, Completes (.fpack r) .plain (fun env => env.setV r.d (fun t => packElems (env.slot r.f).width
    ((List.range (env.slot r.f).elems).map (fpackElem r.x.toNat (env.slot r.f).elems ((env.slot r.f).code (env.v r.a t))
      ((env.slot r.f).code (env.v r.b t)))))))

/-- SHFL, SHFLUD, VOTE, MATCH, MRANK, MLEAD, ELECT, PLOG, PMOV, PMOV.set and PBAL write their destination from the lanes of P as
their rules give it. Nothing else changes but the count of the issue. (R34, R120, R122, R123, R124, R125.) -/
def Obligations.LaneResults : Prop :=
  (∀ r, Completes (.shfl r) (shflOpts r) (fun env => env.setV r.d (fun t => env.v r.a ((env.v r.b t).toNat % 32)))) ∧
  (∀ r, Completes (.shflud r) (shfludOpts r) (fun env => env.setV r.d (fun t => env.v r.a (shfludLane r.x.toNat ((env.s r.b).toNat % 32) t)))) ∧
  (∀ r, Completes (.vote r) .plain (fun env => env.setP r.d (fun _ => voteCc r.x.toNat (env.p &&& env.pr r.a).count env.p.count))) ∧
  (∀ r, Completes (.matchEq r) .plain (fun env => env.setV r.d (fun t => (env.equalSet r t).zeroExtend 64))) ∧
  (∀ r, Completes (.mrank r) .plain (fun env => env.setV r.d (fun t => BitVec.ofNat 64 ((env.equalSet r t).lanes.filter (fun u => u < t)).length))) ∧
  (∀ r, Completes (.mlead r) .plain (fun env => env.setP r.d (fun t => (env.equalSet r t).low = t))) ∧
  (∀ r, Completes (.elect r) .plain (fun env => env.setP r.d (fun t => t = if r.x = 0 then env.p.low else env.p.lanes.getLastD 0))) ∧
  (∀ r, Completes (.plog r) .plain (fun env => env.setP r.d (fun t => plogBit r.x.toNat ((env.pr r.a).has t) ((env.pr r.b).has t) ((env.pr r.c).has t)))) ∧
  (∀ r, Completes (.pmov r) .plain (fun env => env.setV r.d (fun t => BitVec.ofNat 64 ((List.range 16).foldl (fun acc i => acc + (if (env.w.pred i).has t then 2 ^ i else 0)) 0)))) ∧
  (∀ r, Completes (.pmovSet r) .plain (fun env => ({ env with w := (List.range 15).foldl (fun w i =>
    w.setPred i env.p (Mask.ofPred (fun t => (env.v r.a t).getLsbD i))) env.w } : Env))) ∧
  (∀ r, Completes (.pbal r) .plain (fun env => env.setS r.d (if r.x = 0 then (env.p &&& env.pr r.a).zeroExtend 64 else BitVec.ofNat 64 (env.p &&& env.pr r.a).count)))

/-- REDUX writes to a uniform register the combination of each element over P, and SCAN to each thread of P that over the lower
lanes of P, its own included unless X[6] is set; an empty scan gives the identity. Nothing else changes but the count of the
issue. (R34, R126.) -/
def Obligations.LaneReductions : Prop :=
  (∀ r, Completes (.redux r) .plain (fun env => env.setS r.d (packInts (r.x.toNat % 8) (fun k =>
    reduceList (r.x.toNat / 8 % 8) (r.x.toNat % 8) 0 (env.p.lanes.map (fun t => elemInt (r.x.toNat % 8) (env.v r.a t) k)))))) ∧
  (∀ r, Completes (.scan r) .plain (fun env => env.setV r.d (fun t => packInts (r.x.toNat % 8) (fun k =>
    reduceList (r.x.toNat / 8 % 8) (r.x.toNat % 8) (scanIdentity (r.x.toNat / 8 % 8) (r.x.toNat % 8))
      ((env.p.lanes.filter (fun u => if r.x.getLsbD 6 then u < t else u ≤ t)).map (fun u => elemInt (r.x.toNat % 8) (env.v r.a u) k)))))) ∧
  (∀ ty a b, laneReduce 0 ty a b = a + b ∧ laneReduce 1 ty a b = min a b ∧ laneReduce 2 ty a b = max a b) ∧
  (∀ ty d x xs, reduceList 0 ty d (x :: xs) = (x :: xs).foldl (· + ·) 0)

/-- YIELD leaves every thread at PC + 8, and where another entry is not parked the issuing entry stands demoted after the issue,
unless it merges with one; with no such entry it has no effect but that of NOP. BRX goes to register targets or takes
TARGET_INVALID; PRIO changes the priority; NAP parks the warp for N cycles. That its threads stand at PC + 8 from the parking
issue on, where R116 sends them there as the nap ends, is a reading (log entry 54). Nothing else changes but the count of the
issue. (R34, R42, R109, R114, R115, R116.) -/
def Obligations.TransfersOfControl : Prop :=
  (∀ r, Completes (.yield r) .plain (fun env => { env with yielded := true })) ∧
  (∀ r s env, Admitted (.yield r) .plain s env → env.w.region = none → env.e ∈ env.w.frontier → Apart env.e env.w.frontier →
    env.more = true → (∀ z, env.other z → (z.pri, z.pc, z.parked) ≠ (env.e.pri, env.e.pc + 8, false)) →
    ∃ w, exec (.yield r) s = .next (s.setCtx (env.ctx.setWarp w)) ∧ ∀ t, env.e.mask.has t = true →
      ∃ y ∈ w.frontier, y.mask.has t = true ∧ (y.pri, y.pc, y.parked) = (env.e.pri, env.e.pc + 8, false) ∧ y.demoted = true) ∧
  (∀ r s env, Admitted (.yield r) .plain s env → env.more = false → Closes .plain (exec (.yield r) s) env) ∧
  (∀ r, CompletesIf (.brx r) .jump (fun env => ∀ t, env.p.has t = true → (env.v r.a t).toNat < 2 ^ 57 ∧ (env.v r.a t).toNat % 8 = 0)
    (fun env => env.send env.p (fun t => (env.v r.a t).setWidth 57) (r.imm.setWidth 8))) ∧
  (∀ r, Traps (.brx r) .jump (fun env => ∃ t, t < 32 ∧ env.p.has t = true ∧ ¬((env.v r.a t).toNat < 2 ^ 57 ∧ (env.v r.a t).toNat % 8 = 0))
    (fun env => let m := Mask.ofPred (fun t => env.p.has t && targetBad (env.v r.a t))
      { cause := .targetInvalid, tval := env.v r.a m.low, mask := m })) ∧
  (∀ r, Completes (.prioImm r) .plain (fun env => env.send env.p (fun _ => env.e.pc + 8) (r.imm.setWidth 8))) ∧
  (∀ r, Completes (.prioReg r) .plain (fun env =>
    { env with moves := env.p.lanes.map (fun t => (t, env.e.pc + 8, (env.v r.a t).setWidth 8)) })) ∧
  (∀ r, Completes (.napImm r) .resets (fun env => if r.imm = 0 then env else env.parkOn (.nap r.imm.toNat))) ∧
  (∀ r, Completes (.napReg r) .resets (fun env =>
    if (env.s r.a).toNat % 2 ^ 32 = 0 then env else env.parkOn (.nap ((env.s r.a).toNat % 2 ^ 32))))

/-- Where the 16 bytes below each CSP pass their checks, CALL and CALLX store there the return record, lower CSP by 16 and send the
threads of P to the callee at TPRI. RET reads the record, raises CSP by 16 and sends each thread to its return PC at its own
saved priority. The causes, in this order: TARGET_INVALID of CALLX; for RET CALL_UNDERFLOW where any thread of P has an empty
stack; a check of the 16 bytes that fails; a record in error or out of reach; TARGET_INVALID of a popped PC (CALL_UNDERFLOW
first is the model's reading, log entry 98); each names the threads that fail. A page that the driver must map, or an access in
flight before the read, holds the issue. The record holds the generation of the code that holds the return PC. A stale RET
enters firmware with TRANS_STALE, which completes it within the issue at the popped return PC under the installed generation:
the model's choice (log entries 7 and 45). Nothing else changes but the count of the issue and A and D bits. (R34, R35, R84,
R104, R109, R110, R111, R137, R159, R269.) -/
def Obligations.CallsAndReturns : Prop :=
  (∀ r, CompletesIf (.call r) .plain (fun env => env.checkPlan (env.recordPlan (-16) true) = none)
    (fun env =>
      let e : Env := (env.touchPlan (env.recordPlan (-16) true)).addLanes .plain (env.recordPlan (-16) true) env.p.lanes
        (fun _ _ => .store (env.genAt (env.e.pc + 8) * 2 ^ 57 + (env.e.pc + 8).toNat + env.e.pri.toNat * 2 ^ 64))
      Env.send { e with w := { e.w with csp := env.p.lanes.foldl (fun m t => smPut 0 m t (smGet 0 m t - 16)) env.w.csp } } env.p
        (fun _ => env.e.pc + BitVec.ofInt 57 (8 * r.off.toInt)) r.tpri)) ∧
  (∀ r, CompletesIf (.callx r) .plain (fun env => env.checkPlan (env.recordPlan (-16) true) = none ∧
      ∀ t, env.p.has t = true → (env.v r.a t).toNat < 2 ^ 57 ∧ (env.v r.a t).toNat % 8 = 0)
    (fun env =>
      let e : Env := (env.touchPlan (env.recordPlan (-16) true)).addLanes .plain (env.recordPlan (-16) true) env.p.lanes
        (fun _ _ => .store (env.genAt (env.e.pc + 8) * 2 ^ 57 + (env.e.pc + 8).toNat + env.e.pri.toNat * 2 ^ 64))
      Env.send { e with w := { e.w with csp := env.p.lanes.foldl (fun m t => smPut 0 m t (smGet 0 m t - 16)) env.w.csp } } env.p
        (fun t => (env.v r.a t).setWidth 57) (r.imm.setWidth 8))) ∧
  (∀ r, CompletesIf (.ret r) .plain (fun env => (∀ t, env.p.has t = true → env.stackOff t < env.pws) ∧
      env.checkPlan (env.recordPlan 0 false) = none ∧ env.readNow (env.recordPlan 0 false) = none ∧
      ∀ t, env.p.has t = true → (BitVec.ofNat 57 (env.popped (env.recordPlan 0 false) t)).toNat % 8 = 0)
    (fun env0 =>
      let pop := env0.popped (env0.recordPlan 0 false)
      let env1 := (env0.touchPlan (env0.recordPlan 0 false)).keepRead (env0.recordPlan 0 false)
      let old := env0.p.lanes.filter (fun t => env0.dev.stale env0.ctx.id (natBits (pop t) 63 57) (BitVec.ofNat 57 (pop t)))
      let env := if old = [] then env1 else (old.map (fun t => BitVec.ofNat 57 (pop t))).foldl Env.refreshGen (env1.enterFirmware .transStale)
      { env with
        w := { env.w with csp := env.p.lanes.foldl (fun m t => smPut 0 m t (smGet 0 m t + 16)) env.w.csp }
        moves := env.p.lanes.map (fun t => (t, BitVec.ofNat 57 (pop t), BitVec.ofNat 8 (pop t / 2 ^ 64))) })) ∧
  (∀ r, Traps (.ret r) .plain (fun env => ∃ t, t < 32 ∧ env.p.has t = true ∧ (env.pws : Int) ≤ env.stackOff t)
    (fun env => { cause := .callUnderflow, tval := 0
                  mask := Mask.ofPred (fun t => env.p.has t && decide ((env.pws : Int) ≤ env.stackOff t)) })) ∧
  (∀ r t, Traps (.ret r) .plain (fun env => (∀ t, env.p.has t = true → env.stackOff t < env.pws) ∧
      (env.checkPlan (env.recordPlan 0 false) = some (.trap t) ∨
        (env.checkPlan (env.recordPlan 0 false) = none ∧ env.readNow (env.recordPlan 0 false) = some (.trap t)))) (fun _ => t)) ∧
  (∀ r s env k, Admitted (.ret r) .plain s env → (∀ t, env.p.has t = true → env.stackOff t < env.pws) →
    (env.checkPlan (env.recordPlan 0 false) = some (.hold k) ∨
      (env.checkPlan (env.recordPlan 0 false) = none ∧ env.readNow (env.recordPlan 0 false) = some (.hold k))) →
    exec (.ret r) s = .next (holdIssue env k)) ∧
  (∀ r, Traps (.ret r) .plain (fun env => (∀ t, env.p.has t = true → env.stackOff t < env.pws) ∧
      env.checkPlan (env.recordPlan 0 false) = none ∧ env.readNow (env.recordPlan 0 false) = none ∧
      ∃ t, t < 32 ∧ env.p.has t = true ∧ (BitVec.ofNat 57 (env.popped (env.recordPlan 0 false) t)).toNat % 8 ≠ 0)
    (fun env =>
      let rpc (t : Nat) : PC := BitVec.ofNat 57 (env.popped (env.recordPlan 0 false) t)
      let m := Mask.ofPred (fun t => env.p.has t && decide ((rpc t).toNat % 8 ≠ 0))
      { cause := .targetInvalid, tval := (rpc m.low).setWidth 64, mask := m })) ∧
  (∀ (env : Env) pl, (env.awaits (env.planPieces pl) = true ∨ (env.planPieces pl).all env.dev.pieceReady = false) →
    env.readNow pl = some (.hold (.retrySources []))) ∧
  (∀ (env : Env) pl t, env.readNow pl = some (.trap t) → (t.cause = .remoteError ∨ t.cause = .dataError) ∧ t.mask ≠ 0 ∧
    t.tval = wordInt (pl.base t.mask.low) ∧ ∀ l, t.mask.has l = true → env.p.has l = true ∧
      (env.dev.badPieces (env.pieces pl l (pl.runs l) 0) ≠ [] ∨ ∃ p ∈ env.pieces pl l (pl.runs l) 0, env.dev.reachable (p.pos / 8) = false)) ∧
  (∀ r t, Traps (.call r) .plain (fun env => env.checkPlan (env.recordPlan (-16) true) = some (.trap t)) (fun _ => t)) ∧
  (∀ r s env k, Admitted (.call r) .plain s env → env.checkPlan (env.recordPlan (-16) true) = some (.hold k) →
    exec (.call r) s = .next (holdIssue env k)) ∧
  (∀ r, Traps (.callx r) .plain (fun env => ∃ t, t < 32 ∧ env.p.has t = true ∧ ¬((env.v r.a t).toNat < 2 ^ 57 ∧ (env.v r.a t).toNat % 8 = 0))
    (fun env => let m := Mask.ofPred (fun t => env.p.has t && targetBad (env.v r.a t))
      { cause := .targetInvalid, tval := env.v r.a m.low, mask := m })) ∧
  (∀ r t, Traps (.callx r) .plain (fun env => (∀ t, env.p.has t = true → (env.v r.a t).toNat < 2 ^ 57 ∧ (env.v r.a t).toNat % 8 = 0) ∧
    env.checkPlan (env.recordPlan (-16) true) = some (.trap t)) (fun _ => t)) ∧
  (∀ r s env k, Admitted (.callx r) .plain s env → (∀ t, env.p.has t = true → (env.v r.a t).toNat < 2 ^ 57 ∧ (env.v r.a t).toNat % 8 = 0) →
    env.checkPlan (env.recordPlan (-16) true) = some (.hold k) → exec (.callx r) s = .next (holdIssue env k))

/-- After WJOIN the threads of P stand parked at its address, with a wait of 16 × IMM16 cycles there unless one stands already; but
where every live thread now stands parked there, all of them go on at PC + 8 at their own priorities with the predicate of the
wait set, and the wait is over. In a handler the threads of the handler count. After EXIT no thread of P is live or stands in
the frontier, and a rejoin may be complete. Where members of levels of scope core or wider, or the block, end with the threads
of P, EXIT first makes their releases and holds while one must wait: R28 speaks of the completion of a member, so that EXIT
itself waits is a reading (log entry 67). The last thread of a warp ends the warp. (R28, R34, R40, R44, R112, R113, R298.) -/
def Obligations.ThreadsJoinAndExit : Prop :=
  (∀ r s env, Admitted (.wjoin r) .resets s env → env.w.region = none → env.e ∈ env.w.frontier → Apart env.e env.w.frontier →
    let here : WJoin → Bool := fun j => j.pc = env.e.pc && j.handler == (env.w.mode ≠ .program)
    let d := match env.w.wjoins.find? here with | some j => j.d | none => r.d
    ∃ w, exec (.wjoin r) s = .next (s.setCtx (env.ctx.setWarp w)) ∧ Same env.w w ∧ w.live = env.w.live ∧ Counted .resets env w ∧
      (env.AllArrive →
        (∀ t q, Holds w.frontier t q ↔ (env.e.mask.has t = true ∧ q = (env.e.pri, env.e.pc + 8, false)) ∨
          ∃ y, env.other y ∧ y.mask.has t = true ∧ q = (y.pri, env.e.pc + 8, false)) ∧
        (∀ y ∈ env.w.frontier, ∀ t, y.mask.has t = true → (w.pred d.toNat).has t = true) ∧
        (∀ p, p ≠ d.toNat → w.pred p = env.w.pred p) ∧ w.wjoins = env.w.wjoins.filter (fun j => !here j)) ∧
      (¬env.AllArrive →
        (∀ t q, Holds w.frontier t q ↔ if env.e.mask.has t then q = (if env.p.has t then (env.e.pri, env.e.pc, true)
          else (env.e.pri, env.e.pc + 8, false)) else Holds env.w.frontier t q) ∧
        w.preds = env.w.preds ∧ w.wjoins = (if env.w.wjoins.any here then env.w.wjoins else
          env.w.wjoins ++ [{ pc := env.e.pc, left := 16 * r.imm.toNat, d := r.d, handler := decide (env.w.mode ≠ .program) }]))) ∧
  (∀ r s env, Admitted (.exit r) .resets s env → env.w.live &&& ~~~env.p ≠ 0 →
    (∀ l, env.ctx.launch? env.w.q = some l → ∀ v ∈ l.rcd.innerLevels, v.2.2 < 2) →
    ClosesJoin .resets (exec (.exit r) s) { env with dead := env.p }) ∧
  (∀ r s env e, Admitted (.exit r) .resets s env → env.finish = some e →
    exec (.exit r) s = .next (State.reap (closeIssue .resets { e with dead := env.p }))) ∧
  (∀ r s env, Admitted (.exit r) .resets s env → env.finish = none →
    exec (.exit r) s = .next (State.reap (holdIssue env (.retrySources [])))) ∧
  (∀ env : Env, env.w.region = none → env.e ∈ env.w.frontier → Apart env.e env.w.frontier → env.join = none →
    env.dead &&& env.e.mask = env.dead → (env.closed .resets).live = env.w.live &&& ~~~env.dead ∧
    ∀ t q, env.dead.has t = true → ¬Holds (env.closed .resets).frontier t q) ∧
  (∀ (s : State) c u x w, s.cur = some (c, u) → s.ctx? c = some x → x.warp? u = some w →
    s.reap = if w.live = 0 then endWarp s c u else s)

/-- TRAP and BKPT take USER_TRAP and BREAKPOINT with their immediate and P. A word whose opcode is unassigned takes ILLEGAL_OPC, and
so does one of a retired opcode whose header bits are not zero, which first enters firmware mode with the cause of its opcode (a
reading of R97 and R101, log entry 11); a word whose decoding is refused takes RSVD_BITS or ILLEGAL_X as decoding says, whatever
its guard, with its word as UTVAL and every thread of the entry. Where a slot immediate has spare bits that are not zero,
RSVD_BITS comes before ILLEGAL_X, which is a reading (log entry 47). Each is an issue, which counts for FC and WC. (R92, R96,
R97, R98, R99, R101, R117, R345.) -/
def Obligations.TrapInstructions : Prop :=
  (∀ r, Traps (.trap r) .plain (fun _ => True) (fun env => { cause := .userTrap, tval := r.imm.setWidth 64, mask := env.p })) ∧
  (∀ r, Traps (.bkpt r) .plain (fun _ => True) (fun env => { cause := .breakpoint, tval := r.imm.setWidth 64, mask := env.p })) ∧
  (∀ w s env, openIssue (.unassignedOpcode w) w s = some env → env.spin = false → retiredCause (natBits w.toNat 63 56) = none →
    exec (.unassignedOpcode w) s = .next (takeTrap env { cause := .illegalOpc, tval := w, mask := env.e.mask })) ∧
  (∀ w c s env, openIssue (.unassignedOpcode w) w s = some env → env.spin = false → retiredCause (natBits w.toNat 63 56) = some c →
    exec (.unassignedOpcode w) s = .next (takeTrap ({ env with w := env.w.asBase }.enterFirmware c)
      { cause := .illegalOpc, tval := w, mask := env.e.mask })) ∧
  (∀ v s, decodeWord v = .error .rsvdBits → runWord v s = .next (execBadWord v .rsvdBits s)) ∧
  (∀ v s, decodeWord v = .error .illegalX → runWord v s = .next (execBadWord v .illegalX s)) ∧
  (∀ v c s env, openIssue (.unassignedOpcode v) v s = some env → env.spin = false →
    (field v.toNat 63 56 < 0x50 ∨ 0x52 < field v.toNat 63 56) →
    execBadWord v c s = takeTrap env { cause := c, tval := v, mask := env.e.mask }) ∧
  (∀ v c s env, openIssue (.unassignedOpcode v) v s = some env → env.spin = false →
    0x50 ≤ field v.toNat 63 56 → field v.toNat 63 56 ≤ 0x52 →
    execBadWord v c s = takeTrap env
      { cause := (if immSpare (env.w.slot (field v.toNat 15 12)) (field v.toNat 31 16) then .rsvdBits else c), tval := v, mask := env.e.mask })

/-- Where the launch can handle a trap, UCAUSE receives the cause code, UEPC the PC, UTVAL and UFMASK what the cause gives; every
thread of the issuing entry stands at (255, UTVEC.ADDR × 8) in user-handler mode, alone in the frontier; its priority is saved;
the other entries are held; the issue is one more of the warp, and one more without progress; every register, predicate, slot,
descriptor, handle and byte of memory stays. (R340, R341.) -/
def Obligations.TrapEntry : Prop :=
  ∀ env t, env.canHandle t = true → ∃ w sv, takeTrap env t = (env.dev.noteTrap t).setCtx (env.ctx.setWarp w) ∧
    ((env.dev.noteTrap t).mem, (env.dev.noteTrap t).ctxs) = (env.dev.mem, env.dev.ctxs) ∧
    w.ucause = BitVec.ofNat 9 t.cause.code ∧ w.uepc = env.e.pc ∧ w.utval = t.tval ∧ w.ufmask = t.mask ∧
    w.mode = .handler false ∧ w.saved = some sv ∧
    (∃ e, w.frontier = [e] ∧ e.pri = 255 ∧ e.pc = BitVec.ofNat 57 (natBits env.ctx.utvec.toNat 56 3 * 8) ∧ e.mask = env.e.mask ∧
      e.parked = false) ∧
    sv.entered = env.e.mask ∧ (∀ l, l < 32 → env.e.mask.has l = true → smGet 0 sv.pris l = env.e.pri) ∧
    (∀ l q, Holds sv.frontier l q ↔ ∃ y ∈ env.w.frontier, y.same env.e = false ∧ y.mask.has l = true ∧ (y.pri, y.pc, y.parked) = q) ∧
    (w.vregs, w.vmarks, w.sregs, w.smarks) = (env.w.vregs, env.w.vmarks, env.w.sregs, env.w.smarks) ∧
    (w.preds, w.slots, w.tdescs, w.accs) = (env.w.preds, env.w.slots, env.w.tdescs, env.w.accs) ∧
    (w.live, w.csp, w.rs, w.uscr, w.mstat) = (env.w.live, env.w.csp, env.w.rs, env.w.uscr, env.w.mstat) ∧
    w.issues = env.w.issues + 1 ∧ (t.cause ≠ .spinWatchdog → w.wc = env.w.wc + 1)

/-- Where UTVEC.ADDR is 0, the warp is not in program mode (in firmware mode, the mode that it was entered from, R101), or a PDONE
raises ILLEGAL_MODE, the trap marks the launch as ended with its code, halts every warp of the launch and gives the driver the
report; every other warp and all of memory stay. That the trap itself ends the launch and halts its warps at once is a reading
of R343 and R344 (log entry 22); the words that the driver gets are the model's (log entry 80). (R343, R344.) -/
def Obligations.TrapEndsLaunch : Prop :=
  ∀ env t, ({ env with w := env.w.asBase } : Env).canHandle t = false → ∃ x w, takeTrap env t =
      { (env.dev.noteTrap t) with driverLog := (env.dev.noteTrap t).driverLog ++ [BitVec.ofNat 64 w.wid, BitVec.ofNat 64 w.q, BitVec.ofNat 64 t.cause.code,
          BitVec.ofNat 64 env.e.pc.toNat, t.tval, BitVec.ofNat 64 (t.mask.low * 2 ^ 32 + t.mask.toNat)] }.setCtx x ∧
    (w.uid, w.wid, w.q) = (env.w.uid, env.w.wid, env.w.q) ∧ w.ucause = BitVec.ofNat 9 t.cause.code ∧ w.uepc = env.e.pc ∧
    w.utval = t.tval ∧ w.ufmask = t.mask ∧ (w.vregs, w.sregs, w.preds) = (env.w.vregs, env.w.sregs, env.w.preds) ∧
    x.warps = (env.ctx.setWarp w).warps.map (fun v => if v.q = w.q then { v with halted := true } else v) ∧
    x.launches = env.ctx.launches.map (fun l =>
      if l.q = w.q && l.ended.isNone then { l with ended := some t.cause.code } else l)

/-- In a handler that a trap entered, ERET and ERET.next leave user-handler mode: each live thread that entered stands at UEPC, or
UEPC + 8, at the priority that it saved, not parked, the held entries are in the frontier again and what was set aside
continues. (Outside a generator region; a switch that is due follows the return, log entry 57.) In the pre-emption handler both
restore the saved frontier, but for threads that have exited, with its park, grant and WC. Where a pre-emption signal is
pending, the return is followed at once by the entry into the pre-emption handler. In firmware mode ERET.next takes ILLEGAL_OPC
with the word of the instruction that entered. In program mode both take ILLEGAL_MODE. (R30, R52, R101, R135, R309, R310, R340.) -/
def Obligations.HandlerReturns : Prop :=
  (∀ r s env sv, Admitted (.eret r) .plain s env → env.w.mode = .handler false → env.w.saved = some sv → env.w.signal = false →
    exec (.eret r) s = .next (s.setCtx (env.ctx.setWarp (({ env.w with
      wjoins := env.w.wjoins.filter (fun j => !j.handler), wc := env.w.wc + 1 }.returnTo sv env.w.uepc (env.w.issues + 1)).joinStep)))) ∧
  (∀ r s env sv, Admitted (.eretNext r) .plain s env → env.w.mode = .handler false → env.w.saved = some sv → env.w.signal = false →
    exec (.eretNext r) s = .next (s.setCtx (env.ctx.setWarp (({ env.w with
      wjoins := env.w.wjoins.filter (fun j => !j.handler), wc := env.w.wc + 1 }.returnTo sv (env.w.uepc + 8) (env.w.issues + 1)).joinStep)))) ∧
  (∀ (w : Warp) sv pc n, w.region = none → (w.returnTo sv pc n).mode = .program ∧ (w.returnTo sv pc n).saved = none ∧
    (w.returnTo sv pc n).park = sv.park ∧ (w.returnTo sv pc n).grantLeft = sv.grantLeft ∧
    (∀ t q, Holds (w.returnTo sv pc n).frontier t q ↔
      Holds sv.frontier t q ∨ (t < 32 ∧ (sv.entered &&& w.live).has t = true ∧ q = (smGet 0 sv.pris t, pc, false)))) ∧
  (∀ r s env sv, Admitted (.eret r) .plain s env → env.w.mode = .handler true → env.w.saved = some sv → env.w.signal = false →
    exec (.eret r) s = .next (s.setCtx (env.ctx.setWarp (({ env.w with
      wjoins := env.w.wjoins.filter (fun j => !j.handler), issues := env.w.issues + 1, wc := env.w.wc + 1 }.leavePreempt sv).joinStep)))) ∧
  (∀ r s env sv, Admitted (.eretNext r) .plain s env → env.w.mode = .handler true → env.w.saved = some sv → env.w.signal = false →
    exec (.eretNext r) s = .next (s.setCtx (env.ctx.setWarp (({ env.w with
      wjoins := env.w.wjoins.filter (fun j => !j.handler), issues := env.w.issues + 1, wc := env.w.wc + 1 }.leavePreempt sv).joinStep)))) ∧
  (∀ (w : Warp) sv, (w.leavePreempt sv).mode = .program ∧ (w.leavePreempt sv).saved = none ∧ (w.leavePreempt sv).park = sv.park ∧
    (w.leavePreempt sv).grantLeft = sv.grantLeft ∧ (w.leavePreempt sv).wc = sv.wc ∧
    (∀ t q, Holds (w.leavePreempt sv).frontier t q ↔ Holds sv.frontier t q ∧ w.live.has t = true)) ∧
  (∀ r s env sv, Admitted (.eret r) .plain s env → env.w.mode = .handler false → env.w.saved = some sv → env.w.signal = true →
    exec (.eret r) s = .next (s.setCtx (env.ctx.setWarp (({ env.w with
      wjoins := env.w.wjoins.filter (fun j => !j.handler), wc := env.w.wc + 1 }.returnTo sv env.w.uepc
        (env.w.issues + 1)).enterPreempt env.ctx.vector)))) ∧
  (∀ r s env h p, Admitted (.eretNext r) .plain s env → env.w.mode = .firmware h p →
    exec (.eretNext r) s = .next (takeTrap { env with w := { env.w with mode := if h then .handler p else .program } }
      { cause := .illegalOpc, tval := env.w.finsn, mask := env.e.mask })) ∧
  (∀ r, Traps (.eret r) .plain (fun env => env.w.mode = .program) (fun env =>
    { cause := .illegalMode, tval := env.word, mask := env.e.mask })) ∧
  (∀ r, Traps (.eretNext r) .plain (fun env => env.w.mode = .program) (fun env =>
    { cause := .illegalMode, tval := env.word, mask := env.e.mask }))

/-- Where the issue brings WC to WDOG.LIMIT, an instruction that would have its effect or trap takes SPIN_WATCHDOG with the limit as
UTVAL and every thread of the entry instead, and WC is 0 as the handler starts. (R43, R342.) -/
def Obligations.WatchdogTrap : Prop :=
  (∀ (i : Instr) opts s env (body : Env → Res) r, openIssue i (wordOf i) s = some env → env.spin = true →
      attempt opts env body = r → (∀ k, r ≠ .hold k) →
    issue i opts s body = .next (takeTrap env { cause := .spinWatchdog, tval := BitVec.ofNat 64 (natBits env.ctx.wdog.toNat 31 0)
                                                mask := env.e.mask })) ∧
  (∀ env t, t.cause = .spinWatchdog → env.canHandle t = true →
    ∃ w, takeTrap env t = (env.dev.noteTrap t).setCtx (env.ctx.setWarp w) ∧ w.wc = 0)

/-- LD, LD2, LDS, LDV, LDPV, LDACQ and LDP, for every space, address mode, size and order, touch the pages and put one access per
thread of P in flight, LDU one for the warp, with the destinations empty; a failed check is its trap, and a page that is not
present or an absent line makes the warp wait. (R34, R161, R162, R163, R164, R165, R166, R167, R168, R169.) -/
def Obligations.LoadsMakeAccesses : Prop :=
  (∀ r, Accesses (.ld r) .plain (.ofOrd (r.x.toNat / 16 % 8)) (fun env => env.sized r .global (r.x.toNat / 128) (2 ^ (r.x.toNat % 8)) (2 ^ (r.x.toNat % 8)) true false) (fun env => env.p.lanes)
    (fun _ e t => .load (e.destV r.d.toNat t) none (2 ^ (r.x.toNat % 8)) (r.x.toNat.testBit 3) 0)) ∧
  (∀ r, Accesses (.ld2 r) .plain (.ofOrd (r.x.toNat / 16 % 8)) (fun env => env.sized r .global (r.x.toNat / 128) 16 16 true false) (fun env => env.p.lanes)
    (fun _ e t => .load (e.destV r.d.toNat t) (some (e.destV (r.d.toNat + 1) t)) 16 false 0)) ∧
  (∀ r, Accesses (.lds r) .plain .plain (fun env => env.sized r .scratch (r.x.toNat / 128) (2 ^ (r.x.toNat % 8)) (2 ^ (r.x.toNat % 8)) true false) (fun env => env.p.lanes)
    (fun _ e t => .load (e.destV r.d.toNat t) none (2 ^ (r.x.toNat % 8)) (r.x.toNat.testBit 3) 0)) ∧
  (∀ r, Accesses (.ldv r) .plain .plain (fun env => env.sized r .vault (r.x.toNat / 128) (2 ^ (r.x.toNat % 8)) (2 ^ (r.x.toNat % 8)) true false) (fun env => env.p.lanes)
    (fun _ e t => .load (e.destV r.d.toNat t) none (2 ^ (r.x.toNat % 8)) (r.x.toNat.testBit 3) 0)) ∧
  (∀ r, Accesses (.ldu r) .plain (.ofOrd (r.x.toNat / 16 % 8)) (fun env => env.sized r .global 0 1 (2 ^ (r.x.toNat % 8)) true false) (fun env => [env.p.low])
    (fun _ e _ => .load (e.destS r.d.toNat) none (2 ^ (r.x.toNat % 8)) (r.x.toNat.testBit 3) 0)) ∧
  (∀ r, Accesses (.ldacq r) .plain { AccOpts.plain with acq := some (r.x.toNat / 16 % 8) } (fun env => env.sized r .global (r.x.toNat / 128) (2 ^ (r.x.toNat % 8)) (2 ^ (r.x.toNat % 8)) true false) (fun env => env.p.lanes)
    (fun _ e t => .load (e.destV r.d.toNat t) none (2 ^ (r.x.toNat % 8)) (r.x.toNat.testBit 3) 0)) ∧
  (∀ r, Accesses (.ldpv r) .plain .plain (fun env => env.sized r .priv (r.x.toNat / 128) (2 ^ (r.x.toNat % 8)) (2 ^ (r.x.toNat % 8)) true false) (fun env => env.p.lanes)
    (fun _ e t => .load (e.destV r.d.toNat t) none (2 ^ (r.x.toNat % 8)) (r.x.toNat.testBit 3) 0)) ∧
  (∀ r, Accesses (.ldp r) .anySlot .plain (fun env => env.packed r (env.slot r.f) (spaceOf (r.x.toNat / 16 % 8)) (r.x.toNat / 128) (env.firstElem r) (env.slot r.f).elems 0 true false) (fun env => env.p.lanes)
    (fun _ e t => .load (e.destV r.d.toNat t) none 8 false 0))

/-- ST, ST2, STS, STV, STPV and STP put one access per thread of P in flight with the low bytes of D, STU one for the warp with a
uniform register, and STREL one per thread of P with its release at the scope of ORD, which takes effect as the access is
performed (log entry 16); a failed check is its trap, and a page that is not present or an absent line makes the warp wait. No
register changes. (R34, R161, R162, R163, R164, R165, R166, R167, R168, R169.) -/
def Obligations.StoresMakeAccesses : Prop :=
  (∀ r, Accesses (.st r) .resets (.ofOrd (r.x.toNat / 16 % 8)) (fun env => env.sized r .global (r.x.toNat / 128) (2 ^ (r.x.toNat % 8)) (2 ^ (r.x.toNat % 8)) false true) (fun env => env.p.lanes)
    (fun env _ t => .store ((env.v r.d t).toNat % 2 ^ (8 * 2 ^ (r.x.toNat % 8))))) ∧
  (∀ r, Accesses (.st2 r) .resets (.ofOrd (r.x.toNat / 16 % 8)) (fun env => env.sized r .global (r.x.toNat / 128) 16 16 false true) (fun env => env.p.lanes)
    (fun env _ t => .store ((env.v r.d t).toNat + (env.w.readV (r.d.toNat + 1) t).toNat * 2 ^ 64))) ∧
  (∀ r, Accesses (.sts r) .resets .plain (fun env => env.sized r .scratch (r.x.toNat / 128) (2 ^ (r.x.toNat % 8)) (2 ^ (r.x.toNat % 8)) false true) (fun env => env.p.lanes)
    (fun env _ t => .store ((env.v r.d t).toNat % 2 ^ (8 * 2 ^ (r.x.toNat % 8))))) ∧
  (∀ r, Accesses (.stv r) .resets .plain (fun env => env.sized r .vault (r.x.toNat / 128) (2 ^ (r.x.toNat % 8)) (2 ^ (r.x.toNat % 8)) false true) (fun env => env.p.lanes)
    (fun env _ t => .store ((env.v r.d t).toNat % 2 ^ (8 * 2 ^ (r.x.toNat % 8))))) ∧
  (∀ r, Accesses (.stu r) .resets (.ofOrd (r.x.toNat / 16 % 8)) (fun env => env.sized r .global 0 1 (2 ^ (r.x.toNat % 8)) false true) (fun env => [env.p.low])
    (fun env _ _ => .store ((env.s r.d).toNat % 2 ^ (8 * 2 ^ (r.x.toNat % 8))))) ∧
  (∀ r, Accesses (.strel r) .resets { AccOpts.plain with rel := some (r.x.toNat / 16 % 8) } (fun env => env.sized r .global (r.x.toNat / 128) (2 ^ (r.x.toNat % 8)) (2 ^ (r.x.toNat % 8)) false true) (fun env => env.p.lanes)
    (fun env _ t => .store ((env.v r.d t).toNat % 2 ^ (8 * 2 ^ (r.x.toNat % 8))))) ∧
  (∀ r, Accesses (.stpv r) .resets .plain (fun env => env.sized r .priv (r.x.toNat / 128) (2 ^ (r.x.toNat % 8)) (2 ^ (r.x.toNat % 8)) false true) (fun env => env.p.lanes)
    (fun env _ t => .store ((env.v r.d t).toNat % 2 ^ (8 * 2 ^ (r.x.toNat % 8))))) ∧
  (∀ r, Accesses (.stp r) .packedStore .plain (fun env => env.packed r (env.slot r.f) (spaceOf (r.x.toNat / 16 % 8)) (r.x.toNat / 128) (env.firstElem r) (env.slot r.f).elems 0 false true) (fun env => env.p.lanes)
    (fun env _ t => .store (env.v r.d t).toNat))

/-- ATOM, ATOMS, ATOMV, ACAS, and FATOM where its slot has a NaN code or does not trap, put one atomic access per thread of P in
flight, with the destination empty where the old value returns. FATOM of a slot that could trap is ATOM_SLOT. (R34, R176, R177,
R197.) -/
def Obligations.AtomicsMakeAccesses : Prop :=
  (∀ r, Accesses (.atom r) .resets .plain (fun env => env.sized r .global 1 (2 ^ (r.x.toNat % 8)) (2 ^ (r.x.toNat % 8)) true true) (fun env => env.p.lanes)
    (fun env e t => .atomic (r.x.toNat / 32) (r.x.toNat.testBit 3) (2 ^ (r.x.toNat % 8)) ((env.v r.d t).toNat % 2 ^ (8 * 2 ^ (r.x.toNat % 8)))
      (if r.x.toNat.testBit 4 then some (e.destV r.d.toNat t) else none))) ∧
  (∀ r, Accesses (.atoms r) .resets .plain (fun env => env.sized r .scratch 1 (2 ^ (r.x.toNat % 8)) (2 ^ (r.x.toNat % 8)) true true) (fun env => env.p.lanes)
    (fun env e t => .atomic (r.x.toNat / 32) (r.x.toNat.testBit 3) (2 ^ (r.x.toNat % 8)) ((env.v r.d t).toNat % 2 ^ (8 * 2 ^ (r.x.toNat % 8)))
      (if r.x.toNat.testBit 4 then some (e.destV r.d.toNat t) else none))) ∧
  (∀ r, Accesses (.atomv r) .resets .plain (fun env => env.sized r .vault 2 (2 ^ (r.x.toNat % 8)) (2 ^ (r.x.toNat % 8)) true true) (fun env => env.p.lanes)
    (fun env e t => .atomic (r.x.toNat / 32) (r.x.toNat.testBit 3) (2 ^ (r.x.toNat % 8)) ((env.v r.d t).toNat % 2 ^ (8 * 2 ^ (r.x.toNat % 8)))
      (if r.x.toNat.testBit 4 then some (e.destV r.d.toNat t) else none))) ∧
  (∀ r, Accesses (.acas r) .resets .plain (fun env => env.sized r .global 1 (2 ^ (r.x.toNat % 8)) (2 ^ (r.x.toNat % 8)) true true) (fun env => env.p.lanes)
    (fun env e t => .acas (2 ^ (r.x.toNat % 8)) ((env.v r.d t).toNat % 2 ^ (8 * 2 ^ (r.x.toNat % 8)))
      ((env.v r.b t).toNat % 2 ^ (8 * 2 ^ (r.x.toNat % 8))) (e.destV r.d.toNat t))) ∧
  (∀ r, CompletesIf (.fatom r) .resets (fun env => env.checkPlan (env.sized r .global 1 8 8 true true) = none ∧
      ((env.slot r.f).nan ≠ 0 ∨ (env.slot r.f).inv ≠ 0))
    (fun env => (env.touchPlan (env.sized r .global 1 8 8 true true)).addLanes .plain (env.sized r .global 1 8 8 true true) env.p.lanes
      (fun e t => .fatom (r.x.toNat / 32) (smGet 0 env.w.slots r.f.toNat) (env.v r.d t)
        (if r.x.toNat.testBit 4 then some (e.destV r.d.toNat t) else none)))) ∧
  (∀ r, Traps (.fatom r) .resets (fun env => env.checkShape (env.sized r .global 1 8 8 true true) = none ∧
      (env.slot r.f).nan = 0 ∧ (env.slot r.f).inv = 0)
    (fun env => { cause := .atomSlot, tval := BitVec.ofNat 64 r.f.toNat, mask := env.p }))

/-- Where the position is below the element count, LDG loads one element into its position of D, the other elements kept, and STSC
stores one, as the other loads and stores do: a failed check is its trap, and a page that is not present or an absent line makes
the warp wait. A position at or above the count is ILLEGAL_OPERAND. PFETCH never faults and changes nothing but the A bits, the
TLB and the walk cache of pages whose translations it uses (R262, R266), the copies that a core may keep and the counts of their
misses. (R34, R37, R165, R171, R173, R262.) -/
def Obligations.GatherAndScatter : Prop :=
  (∀ r, AccessesIf (.ldg r) .anySlot (fun env => r.x.toNat / 8 < (env.slot r.f).elems) .plain (fun env => env.packed r (env.slot r.f) (spaceOf (r.x.toNat % 8)) 0 (fun t => (env.v r.b t).toInt) 1 (r.x.toNat / 8 * (env.slot r.f).width) true false) (fun env => env.p.lanes)
    (fun env e t => .load (e.destV r.d.toNat t) none 8 false (packElems (env.slot r.f).width ((List.range (env.slot r.f).elems).map (fun i =>
      if i = r.x.toNat / 8 then 0 else (env.slot r.f).code (env.v r.d t) i))))) ∧
  (∀ r, AccessesIf (.stsc r) .packedStore (fun env => r.x.toNat / 8 < (env.slot r.f).elems) .plain (fun env => env.packed r (env.slot r.f) (spaceOf (r.x.toNat % 8)) 0 (fun t => (env.v r.b t).toInt) 1 (r.x.toNat / 8 * (env.slot r.f).width) false true) (fun env => env.p.lanes)
    (fun env _ t => .store (env.v r.d t).toNat)) ∧
  (∀ r, Traps (.ldg r) .anySlot (fun env => (env.slot r.f).elems ≤ r.x.toNat / 8)
    (fun env => { cause := .illegalOperand, tval := env.word, mask := env.e.mask })) ∧
  (∀ r, Traps (.stsc r) .packedStore (fun env => (env.slot r.f).elems ≤ r.x.toNat / 8)
    (fun env => { cause := .illegalOperand, tval := env.word, mask := env.e.mask })) ∧
  (∀ r s env, Admitted (.pfetch r) .plain s env →
    ∃ (vas : List Nat) (cs : List Copy) (ms : List MigCount), (∀ va ∈ vas, ∃ t ∈ env.p.lanes, va = (env.ea r (r.x.toNat / 128) 1 t).toNat) ∧
      Closes .plain (exec (.pfetch r) s) { env with dev :=
        { (vas.foldl (fun s va => touchLeaf s env.ctx (tlbCore env.core) va false) env.dev) with copies := cs, migs := ms } })

/-- The accesses that a memory instruction adds are one per lane, in the order of the lanes and with rising numbers, each at the
pieces of memory of its lane; no byte of memory, no register value and nothing else of the warp changes but the full/empty state
of the destinations. (R89, R159, R163.) -/
def Obligations.AccessesOfAnIssue : Prop :=
  ∀ (env : Env) (o : AccOpts) (pl : Plan) (kind : Env → Nat → AccKind),
    ((env.addLanes o pl env.p.lanes kind).ctx.accesses = env.ctx.accesses ++
      env.p.lanes.zipIdx.map (fun (q : Nat × Nat) => env.accessOf o pl q.1 (env.dev.nextId + q.2)
        (kind (env.addLanes o pl (env.p.lanes.take q.2) kind) q.1))) ∧
    (env.addLanes o pl env.p.lanes kind).dev = { env.dev with nextId := env.dev.nextId + env.p.lanes.length } ∧
    (∃ as, (env.addLanes o pl env.p.lanes kind).ctx = { env.ctx with accesses := as }) ∧
    ∃ vm sm, (env.addLanes o pl env.p.lanes kind).w = { env.w with vmarks := vm, smarks := sm }

/-- Setting A and D for one page changes only the eight bytes of its leaf entry, where the low byte gains bit 1 and, for a write, 2.
For a plan of the global or private space the pages of its threads are touched one after the other, so that a byte that lies in
no leaf entry of any page that is touched, as the tables then stand, keeps its value; a plan of the scratchpad or the vault
touches none. Nothing of the warp and no other part of the package changes but memory, the TLB and the walk cache, which keep
the translations used (R266). (R262, R265, R266.) -/
def Obligations.PageBitsOnly : Prop :=
  (∀ (s : State) (x : Context) (u va : Nat) (wr : Bool) (k : Nat), (∀ e level a, findLeaf s x u va wr = .leaf e level (some a) →
      k < keyHbm a ∨ keyHbm a + 8 ≤ k) → memByte (touchLeaf s x u va wr).mem k = memByte s.mem k) ∧
  (∀ (s : State) (x : Context) (u va : Nat) (wr : Bool) (e level a : Nat), findLeaf s x u va wr = .leaf e level (some a) →
      readBytes (touchLeaf s x u va wr).mem (keyHbm a) 8 = (e ||| 2 ||| (if wr then 4 else 0)) % 2 ^ 64) ∧
  (∀ (s : State) (x : Context) (u va : Nat) (wr : Bool), s.mem.wf = true → (touchLeaf s x u va wr).mem.wf = true) ∧
  (∀ (env : Env) (pl : Plan), pl.space = .scratch ∨ pl.space = .vault → env.touchPlan pl = env) ∧
  (∀ (env : Env) (pl : Plan), pl.space = .global ∨ pl.space = .priv → env.touchPlan pl = { env with
      dev := (env.p.lanes.flatMap (fun t => env.pagesOf pl.space t (pl.runs t))).foldl
        (fun s va => touchLeaf s env.ctx (tlbCore env.core) va pl.write) env.dev }) ∧
  (∀ (vas : List Nat) (s : State) (x : Context) (u : Nat) (wr : Bool),
    let touch := fun (s : State) (va : Nat) => touchLeaf s x u va wr
    (∃ m ts ws, vas.foldl touch s = { s with mem := m, tlb := ts, wcache := ws }) ∧
    (s.mem.wf = true → (vas.foldl touch s).mem.wf = true) ∧
    ∀ k, (∀ pre va post, vas = pre ++ va :: post → ∀ e level a, findLeaf (pre.foldl touch s) x u va wr = .leaf e level (some a) →
      k < keyHbm a ∨ keyHbm a + 8 ≤ k) → memByte (vas.foldl touch s).mem k = memByte s.mem k)

/-- ACCESS_PERFORM of a store that may go, with the lanes of its instruction whose lines join it, leaves every byte outside their
pieces as it was, takes them from the list, with the marks of its release where it has one (log entry 16), and changes no
register; that of a load or of a read of another warp changes no byte of memory and owes the value to its destination: what the
home holds, or a copy that the core may read. One that is not there any more does nothing. (R121, R159, R163, R165, R172.) -/
def Obligations.AccessesArePerformed : Prop :=
  (∀ (c id : Nat) (fc : Bool) (s : State) (x : Context) (a : Access) data, s.ctx? c = some x → x.accesses.find? (fun b => b.id = id) = some a → (a :: storeGroup s x a).all (canPerform s x) = true →
      a.kind = .store data →
    let g := storeGroup s x a
    let y := x.releaseOf a
    (∀ b ∈ g, b.uid = a.uid ∧ b.ins = a.ins ∧ b.kind.isStore = true) ∧ a ∈ g ∧
    ∃ t, exec (.accessPerform c id fc) s = .next t ∧
      t.mem = g.foldl (fun m b => match b.kind with
        | .store v => b.pieces.foldl (fun m p => writeBits m p.pos p.len (v / 2 ^ p.off)) m
        | _ => m) s.mem ∧
      t.ctx? c = some { y with accesses := y.accesses.filter (fun b => !g.any (fun y => y.id = b.id)) } ∧
      (∀ k, (∀ b ∈ g, Outside b.pieces k) → memByte t.mem k = memByte s.mem k)) ∧
  (∀ (c id : Nat) (fc : Bool) (s : State) (x : Context) (a : Access) d hi n sx keep, s.ctx? c = some x → x.accesses.find? (fun b => b.id = id) = some a → canPerform s x a = true →
    a.kind = .load d hi n sx keep → hi = none →
    let y := x.releaseOf a
    ∃ t o, exec (.accessPerform c id fc) s = .next t ∧ t.mem = s.mem ∧
      t.ctx? c = some { y with accesses := y.accesses.filter (fun b => b.id ≠ a.id), owed := y.owed ++ [o] } ∧ o.uid = a.uid ∧ o.dest = d ∧
      o.value = loadValue (min n 8) sx keep (s.getData x.id a.core (fc && a.pieces.all (fun p => p.mode ≠ 1)) a.pieces % 2 ^ 64)) ∧
  (∀ (c id : Nat) (fc : Bool) (s : State) (x : Context) (a : Access) u reg lane d w, s.ctx? c = some x → x.accesses.find? (fun b => b.id = id) = some a → canPerform s x a = true →
    a.kind = .peek u reg lane d → x.warp? u = some w → reg < w.nregs →
    let y := x.releaseOf a
    ∃ t o, exec (.accessPerform c id fc) s = .next t ∧ t.mem = s.mem ∧
      t.ctx? c = some { y with accesses := y.accesses.filter (fun b => b.id ≠ a.id), owed := y.owed ++ [o] } ∧ o.uid = a.uid ∧ o.dest = d ∧
      o.value = w.readV reg lane) ∧
  (∀ (c id : Nat) (fc : Bool) (s : State) (x : Context), s.ctx? c = some x → x.accesses.find? (fun b => b.id = id) = none →
    exec (.accessPerform c id fc) s = .next s)

/-- ACCESS_PERFORM of an integer atomic or a compare-and-swap without an error writes the new value of its operation over the bytes
of its piece, leaves every other byte, and owes the old value where one is wanted, with the marks of its release where it has
one (log entry 16); the compare-and-swap writes only where the old value is the one compared. (R159, R176.) -/
def Obligations.AtomicsArePerformed : Prop :=
  (∀ (c id : Nat) (fc : Bool) (s : State) (x : Context) (a : Access) op sg n data d p, s.ctx? c = some x → x.accesses.find? (fun b => b.id = id) = some a → canPerform s x a = true →
    a.kind = .atomic op sg n data (some d) → a.pieces = [p] → s.badPieces a.pieces = [] →
    let y := x.releaseOf a
    ∃ t o, exec (.accessPerform c id fc) s = .next t ∧ o.dest = d ∧ o.uid = a.uid ∧
      o.value = BitVec.ofNat 64 (readBits s.mem p.pos (8 * n)) ∧
      t.mem = writeBits s.mem p.pos p.len (atomicOp op sg (8 * n) (readBits s.mem p.pos (8 * n)) data / 2 ^ p.off) ∧
      t.ctx? c = some { y with accesses := y.accesses.filter (fun b => b.id ≠ a.id), owed := y.owed ++ [o] }) ∧
  (∀ (c id : Nat) (fc : Bool) (s : State) (x : Context) (a : Access) n cmp new d p, s.ctx? c = some x → x.accesses.find? (fun b => b.id = id) = some a → canPerform s x a = true →
    a.kind = .acas n cmp new d → a.pieces = [p] → s.badPieces a.pieces = [] →
    let y := x.releaseOf a
    ∃ t o, exec (.accessPerform c id fc) s = .next t ∧ o.dest = d ∧ o.uid = a.uid ∧
      o.value = BitVec.ofNat 64 (readBits s.mem p.pos (8 * n)) ∧
      t.mem = (if readBits s.mem p.pos (8 * n) = cmp then writeBits s.mem p.pos p.len (new / 2 ^ p.off) else s.mem) ∧
      t.ctx? c = some { y with accesses := y.accesses.filter (fun b => b.id ≠ a.id), owed := y.owed ++ [o] }) ∧
  (∀ w old v : Nat, old < 2 ^ w → v < 2 ^ w → atomicOp 0 false w old v = (old + v) % 2 ^ w ∧ atomicOp 2 false w old v = min old v ∧
    atomicOp 3 false w old v = max old v ∧ atomicOp 7 false w old v = v)

/-- RESULT_RETURN writes the value of a result without an error and makes the register full, vector or uniform, where the register
is empty with that producer; where a later producer took the register it only adds one to WAWDROP; where the warp is gone, and,
of a vector register, where the thread has exited, the register lies outside the allocation or the allocation has changed since,
it only adds one to GTDROP. (R89, R91, R130.) -/
def Obligations.ResultsReturn : Prop :=
  (∀ (c id : Nat) (s : State) (x : Context) (o : Owed) (w : Warp), s.ctx? c = some x → x.owed.find? (fun y => y.id = id) = some o →
    x.warp? o.uid = some w → o.bad = none → o.dest.uniform = false → w.live.has o.dest.lane = true → o.dest.reg < w.nregs →
    o.dest.allocGen = w.allocGen → w.vmark o.dest.reg o.dest.lane = .empty o.dest.prod →
    exec (.resultReturn c id) s = .next (s.setCtx ({ x with owed := x.owed.filter (fun y => y.id ≠ o.id) }.setWarp
      (w.writeV o.dest.reg o.dest.lane o.value)))) ∧
  (∀ (c id : Nat) (s : State) (x : Context) (o : Owed) (w : Warp), s.ctx? c = some x → x.owed.find? (fun y => y.id = id) = some o →
    x.warp? o.uid = some w → o.bad = none → o.dest.uniform = true → w.smark o.dest.reg = .empty o.dest.prod →
    exec (.resultReturn c id) s = .next (s.setCtx ({ x with owed := x.owed.filter (fun y => y.id ≠ o.id) }.setWarp
      (w.writeS o.dest.reg o.value)))) ∧
  (∀ (c id : Nat) (s : State) (x : Context) (o : Owed) (w : Warp), s.ctx? c = some x → x.owed.find? (fun y => y.id = id) = some o →
    x.warp? o.uid = some w → o.bad = none →
    ((o.dest.uniform = false ∧ w.live.has o.dest.lane = true ∧ o.dest.reg < w.nregs ∧ o.dest.allocGen = w.allocGen ∧
        w.vmark o.dest.reg o.dest.lane ≠ .empty o.dest.prod) ∨ (o.dest.uniform = true ∧ w.smark o.dest.reg ≠ .empty o.dest.prod)) →
    exec (.resultReturn c id) s = .next (s.setCtx { x with owed := x.owed.filter (fun y => y.id ≠ o.id), wawdrop := x.wawdrop + 1 })) ∧
  (∀ (c id : Nat) (s : State) (x : Context) (o : Owed), s.ctx? c = some x → x.owed.find? (fun y => y.id = id) = some o → o.bad = none →
    (x.warp? o.uid = none ∨ ∃ w, x.warp? o.uid = some w ∧ o.dest.uniform = false ∧
      (w.live.has o.dest.lane = false ∨ w.nregs ≤ o.dest.reg ∨ o.dest.allocGen ≠ w.allocGen)) →
    exec (.resultReturn c id) s = .next (s.setCtx { x with owed := x.owed.filter (fun y => y.id ≠ o.id), gtdrop := x.gtdrop + 1 }))

/-- FDRW writes a definition that its constraints accept, or zeros, else SLOT_DEF; FDRR reads it; CSRR reads every register of the
map, those of the firmware range in firmware mode alone, of which the write-only FRES reads as none (log entry 92), waits for an
empty register that FOPA to FOPC would give and traps one in error, and takes CSR_ACCESS for another number; each CSRW writes
its register with a value of its layout, else takes CSR_VALUE, and takes CSR_ACCESS for a register that it may not write.
Nothing else changes but the count of the issue and the resets of R130. (R34, R38, R56, R128, R129, R130, R131.) -/
def Obligations.SlotAndControlRegisters : Prop :=
  (∀ r, CompletesIf (.fdrw r) .plain (fun env => (env.s r.a).getLsbD 63 = true → (Fmt.ofWord (env.s r.a)).accepts = true)
    (fun env => { env with w := env.w.setSlot r.d.toNat (if (env.s r.a).getLsbD 63 then env.s r.a else 0) })) ∧
  (∀ r, Traps (.fdrw r) .plain (fun env => (env.s r.a).getLsbD 63 = true ∧ (Fmt.ofWord (env.s r.a)).accepts = false)
    (fun env => { cause := .slotDef, tval := env.s r.a, mask := env.e.mask })) ∧
  (∀ r, Completes (.fdrr r) .plain (fun env => env.setS r.d (smGet 0 env.w.slots r.a.toNat))) ∧
  (∀ r v, CompletesIf (.csrr r) .plain (fun env => env.fopCheck r.imm.toNat = none ∧ env.csr r.imm.toNat = some v) (fun env => env.setS r.d v)) ∧
  (∀ r t, Traps (.csrr r) .plain (fun env => env.fopCheck r.imm.toNat = some (.trap t)) (fun _ => t)) ∧
  (∀ r s env k, Admitted (.csrr r) .plain s env → env.fopCheck r.imm.toNat = some (.hold k) → exec (.csrr r) s = .next (holdIssue env k)) ∧
  (∀ (env : Env) n, let q := natBits (env.w.finsn.toNat / 2 ^ (8 * (0x0104 - n))) 23 16
    env.w.firmware = true → 0x0102 ≤ n → n ≤ 0x0104 →
    (env.w.vmark q env.w.flsel.toNat = .full → env.fopCheck n = none) ∧
    (∀ id, env.w.vmark q env.w.flsel.toNat = .empty id → env.fopCheck n = some (.hold (.retrySources [q]))) ∧
    (∀ a, env.w.vmark q env.w.flsel.toNat = .poison a true →
      env.fopCheck n = some (.trap { cause := .remoteError, tval := a, mask := BitVec.ofNat 32 (2 ^ env.w.flsel.toNat) }))) ∧
  (∀ r, Traps (.csrr r) .plain (fun env => env.csr r.imm.toNat = none)
    (fun env => { cause := .csrAccess, tval := r.imm.setWidth 64, mask := env.e.mask })) ∧
  (∀ env : Env, [0, 1, 2, 3, 4, 5, 6, 7, 0x10, 0x11, 0x12, 0x13, 0x14, 0x15, 0x20, 0x21, 0x22, 0x23, 0x24].map env.csr =
    [env.ctx.ctx, env.ctx.fairt, env.ctx.fairq, env.ctx.wdog, env.ctx.rndseed, env.ctx.gencfg, env.ctx.wawdrop, env.ctx.gtdrop, env.ctx.utvec,
      env.w.uepc.setWidth 64, env.w.ucause.setWidth 64, env.w.utval, BitVec.ofNat 64 (env.w.ufmask.low * 2 ^ 32 + env.w.ufmask.toNat), env.w.uscr,
      BitVec.ofNat 64 env.ctx.p.l2rmt, BitVec.ofNat 64 env.ctx.p.vaultw, BitVec.ofNat 64 env.ctx.p.spk,
      BitVec.ofNat 64 (env.ctx.p.wsz * 2 ^ 32 + env.ctx.hw), BitVec.ofNat 64 (env.ctx.p.nc * 2 ^ 8 + env.ctx.p.nb)].map some) ∧
  (∀ env : Env, [0x100, 0x101, 0x102, 0x103, 0x104, 0x106].map env.csr = if env.w.firmware then
      [env.w.flsel.setWidth 64, env.w.finsn, env.w.readV (natBits env.w.finsn.toNat 39 32) env.w.flsel.toNat,
        env.w.readV (natBits env.w.finsn.toNat 31 24) env.w.flsel.toNat, env.w.readV (natBits env.w.finsn.toNat 23 16) env.w.flsel.toNat,
        env.w.flact.setWidth 64].map some
    else List.replicate 6 none) ∧
  (∀ (env : Env) (n : Nat), n ∉ [0, 1, 2, 3, 4, 5, 6, 7, 0x10, 0x11, 0x12, 0x13, 0x14, 0x15, 0x20, 0x21, 0x22, 0x23, 0x24, 0x100, 0x101, 0x102,
    0x103, 0x104, 0x106] → env.csr n = none) ∧
  (∀ r, CompletesIf (.csrwCtx r) .plain (fun env => (env.s r.a).toNat < 2)
    (fun env => let e := env.everyWarp (fun w => w.progChange env.ctx.prog ((env.s r.a).getLsbD 0)); { e with ctx := { e.ctx with ctx := env.s r.a } })) ∧
  (∀ r, CompletesIf (.csrwGencfg r) .plain (fun env => (env.s r.a).toNat < 2 ^ 14 ∧ natBits (env.s r.a).toNat 7 5 = 0 ∧ natBits (env.s r.a).toNat 13 8 ≤ 32)
    (fun env => { env with ctx := { env.ctx with gencfg := env.s r.a } })) ∧
  (∀ r, CompletesIf (.csrwFairt r) .plain (fun env => (env.s r.a).toNat < 2 ^ 16 ∧ env.s r.a ≠ 0)
    (fun env => let e := env.everyWarp (fun w => { w with fcClear := true }); { e with ctx := { e.ctx with fairt := env.s r.a } })) ∧
  (∀ r, CompletesIf (.csrwFairq r) .plain (fun env => (env.s r.a).toNat < 2 ^ 16 ∧ env.s r.a ≠ 0)
    (fun env => let e := env.everyWarp (fun w => { w with fcClear := true }); { e with ctx := { e.ctx with fairq := env.s r.a } })) ∧
  (∀ r, CompletesIf (.csrwWdog r) .plain (fun env => (env.s r.a).toNat < 2 ^ 32)
    (fun env => let e := env.everyWarp (fun w => { w with wcClear := true }); { e with ctx := { e.ctx with wdog := env.s r.a } })) ∧
  (∀ r, CompletesIf (.csrw r) .plain (fun _ => r.imm = 0x0004)
    (fun env => { env with ctx := { env.ctx with rndseed := env.s r.a } })) ∧
  (∀ r, CompletesIf (.csrw r) .plain (fun _ => r.imm = 0x0006)
    (fun env => { env with ctx := { env.ctx with wawdrop := env.s r.a } })) ∧
  (∀ r, CompletesIf (.csrw r) .plain (fun _ => r.imm = 0x0007)
    (fun env => { env with ctx := { env.ctx with gtdrop := env.s r.a } })) ∧
  (∀ r, CompletesIf (.csrw r) .plain (fun env => r.imm = 0x0010 ∧ (env.s r.a).toNat < 2 ^ 57 ∧ (env.s r.a).toNat % 8 = 0)
    (fun env => { env with ctx := { env.ctx with utvec := env.s r.a } })) ∧
  (∀ r, CompletesIf (.csrw r) .plain (fun _ => r.imm = 0x0015)
    (fun env => { env with w := { env.w with uscr := env.s r.a } })) ∧
  (∀ r, CompletesIf (.csrw r) .plain (fun env => r.imm = 0x0011 ∧ (env.s r.a).toNat < 2 ^ 57 ∧ (env.s r.a).toNat % 8 = 0)
    (fun env => { env with w := { env.w with uepc := (env.s r.a).setWidth 57 } })) ∧
  (∀ r, CompletesIf (.csrw r) .plain (fun env => r.imm = 0x0100 ∧ env.w.firmware = true ∧ (env.s r.a).toNat < 32)
    (fun env => { env with w := { env.w with flsel := (env.s r.a).setWidth 5 } })) ∧
  (∀ r, CompletesIf (.csrwFres r) .plain (fun env => env.w.firmware = true)
    (fun env => { env with w := env.w.writeV (natBits env.w.finsn.toNat 47 40) env.w.flsel.toNat (env.s r.a) })) ∧
  (∀ (w : Warp) (old new : Bool), w.progChange old new = if old = new then w else { w with fcClear := true, grantClear := w.grantClear || old }) ∧
  (∀ r, Traps (.csrwCtx r) .plain (fun env => 2 ≤ (env.s r.a).toNat)
    (fun env => { cause := .csrValue, tval := env.s r.a, mask := env.e.mask })) ∧
  (∀ r, Traps (.csrwFairt r) .plain (fun env => 2 ^ 16 ≤ (env.s r.a).toNat ∨ env.s r.a = 0)
    (fun env => { cause := .csrValue, tval := env.s r.a, mask := env.e.mask })) ∧
  (∀ r, Traps (.csrwFairq r) .plain (fun env => 2 ^ 16 ≤ (env.s r.a).toNat ∨ env.s r.a = 0)
    (fun env => { cause := .csrValue, tval := env.s r.a, mask := env.e.mask })) ∧
  (∀ r, Traps (.csrwWdog r) .plain (fun env => 2 ^ 32 ≤ (env.s r.a).toNat)
    (fun env => { cause := .csrValue, tval := env.s r.a, mask := env.e.mask })) ∧
  (∀ r, Traps (.csrwGencfg r) .plain (fun env => 2 ^ 14 ≤ (env.s r.a).toNat ∨ natBits (env.s r.a).toNat 7 5 ≠ 0 ∨ 32 < natBits (env.s r.a).toNat 13 8)
    (fun env => { cause := .csrValue, tval := env.s r.a, mask := env.e.mask })) ∧
  (∀ r, Traps (.csrw r) .plain (fun env => (r.imm = 0x0010 ∨ r.imm = 0x0011) ∧ (2 ^ 57 ≤ (env.s r.a).toNat ∨ (env.s r.a).toNat % 8 ≠ 0))
    (fun env => { cause := .csrValue, tval := env.s r.a, mask := env.e.mask })) ∧
  (∀ r, Traps (.csrw r) .plain (fun env => r.imm = 0x0100 ∧ env.w.firmware = true ∧ 32 ≤ (env.s r.a).toNat)
    (fun env => { cause := .csrValue, tval := env.s r.a, mask := env.e.mask })) ∧
  (∀ r, Traps (.csrw r) .plain (fun env => r.imm.toNat ∉ [4, 6, 7, 0x10, 0x11, 0x15, 0x100] ∨ (r.imm = 0x0100 ∧ env.w.firmware = false))
    (fun env => { cause := .csrAccess, tval := r.imm.setWidth 64, mask := env.e.mask })) ∧
  (∀ r, Traps (.csrwFres r) .plain (fun env => env.w.firmware = false)
    (fun env => { cause := .csrAccess, tval := r.imm.setWidth 64, mask := env.e.mask }))

/-- SREG writes the special value to a uniform or vector register: the lane, the linear index and the member indices of each thread,
the counts of the levels and their number, the place where the warp runs, the cycle, the launch and the block. RGROW keeps or
asks for registers, RSHRK gives them up with their marks and makes results owed to them stale, those owed to registers kept
staying good (log entry 84), PDONE halts the warp in the pre-emption handler and is ILLEGAL_MODE elsewhere, and the firmware
services write their registers, with FINSN and FLACT left as they enter firmware mode. Nothing else changes but the count of the
issue. (R34, R47, R49, R50, R131, R132, R133, R134, R136.) -/
def Obligations.SpecialValuesAndAllocation : Prop :=
  (∀ r, CompletesIf (.sreg r) .plain (fun _ => sregClass r.imm.toNat = some .vec)
    (fun env => env.setV r.d (env.specialV r.imm.toNat))) ∧
  (∀ r, CompletesIf (.sreg r) .plain (fun _ => sregClass r.imm.toNat = some .uni)
    (fun env => env.setS r.d (env.special r.imm.toNat))) ∧
  (∀ (env : Env) (t : Nat), env.specialV 0 t = BitVec.ofNat 64 t ∧ env.specialV 1 t = BitVec.ofNat 64 (smGet 0 env.w.lin t) ∧
    ∀ k, env.specialV (0x10 + k) t = BitVec.ofNat 64 (smGet 0 env.w.midx (vkey k t))) ∧
  (∀ (env : Env) (l : Launch), env.ctx.launch? env.w.q = some l → env.special 0x28 = BitVec.ofNat 64 l.rcd.levels.length ∧
    ∀ k, k < 8 → env.special (0x20 + k) = BitVec.ofNat 64 ((l.rcd.levels[k]?).elim 0 (fun v => v.1))) ∧
  (∀ env : Env, [0x30, 0x31, 0x32, 0x33, 0x34, 0x35, 0x36, 0x37, 0x40, 0x41].map env.special =
    [env.w.wblk, env.w.wid % 8, env.w.wid / 8 % 4, env.w.wid / 32 % 2, env.w.wid / 64 % 64, env.w.wid / 4096, env.dev.pod.getD 0,
      env.ctx.p.x0 + env.ctx.p.y0 * 8 + env.ctx.p.x1 * 64 + env.ctx.p.y1 * 512, env.dev.cycle, env.w.q].map (BitVec.ofNat 64)) ∧
  (∀ (env : Env) (b : Block), env.blk = some b → env.special 0x42 = BitVec.ofNat 64 b.num) ∧
  (∀ r, Traps (.sreg r) .plain (fun _ => sregClass r.imm.toNat = none)
    (fun env => { cause := .illegalOperand, tval := r.imm.setWidth 64, mask := env.e.mask })) ∧
  (∀ r, CompletesIf (.rgrow r) .plain (fun _ => r.imm.toNat % 8 = 0 ∧ 8 ≤ r.imm.toNat ∧ r.imm.toNat ≤ 256)
    (fun env => if r.imm.toNat ≤ env.w.nregs then { env with w := env.w.setPred r.d.toNat env.e.mask (BitVec.allOnes 32) }
      else env.parkOn (.rgrow r.d r.imm.toNat env.e.mask))) ∧
  (∀ r, Traps (.rgrow r) .plain (fun _ => r.imm.toNat % 8 ≠ 0 ∨ r.imm.toNat < 8 ∨ 256 < r.imm.toNat)
    (fun env => { cause := .illegalOperand, tval := r.imm.setWidth 64, mask := env.e.mask })) ∧
  (∀ r, Traps (.rshrk r) .plain (fun env => r.imm.toNat % 8 ≠ 0 ∨ r.imm.toNat < 8 ∨ env.w.nregs < r.imm.toNat)
    (fun env => { cause := .illegalOperand, tval := r.imm.setWidth 64, mask := env.e.mask })) ∧
  (∀ r, CompletesIf (.rshrk r) .plain (fun env => r.imm.toNat % 8 = 0 ∧ 8 ≤ r.imm.toNat ∧ r.imm.toNat ≤ env.w.nregs)
    (fun env => 
      let f := fun (u : Nat) (d : Dest) => if u = env.w.uid then d.retag r.imm.toNat (env.w.allocGen + 1) else d
      { env with
        w := { env.w with nregs := r.imm.toNat, allocGen := env.w.allocGen + 1, vregs := smDrop env.w.vregs (fun k => r.imm.toNat * 32 ≤ k)
                          vmarks := smDrop env.w.vmarks (fun k => r.imm.toNat * 32 ≤ k) }
        ctx := { env.ctx with accesses := env.ctx.accesses.map (fun a => { a with kind := a.kind.mapDest (f a.uid) })
                              owed := env.ctx.owed.map (fun o => { o with dest := f o.uid o.dest }) } })) ∧
  (∀ r, CompletesIf (.pdone r) .plain (fun env => env.w.mode = .handler true)
    (fun env => { env with w := { env.w with halted := true } })) ∧
  (∀ r, Traps (.pdone r) .plain (fun env => env.w.mode ≠ .handler true)
    (fun env => { cause := .illegalMode, tval := env.word, mask := env.e.mask })) ∧
  (∀ r, CompletesIf (.fwcallVersion r) .plain (fun _ => r.imm = 0)
    (fun env => let w := { env.w with finsn := env.word, flact := env.e.mask }; { env with w := (w.writeS 0 env.dev.imageVersion.1).writeS 1 env.dev.imageVersion.2 })) ∧
  (∀ r, Traps (.fwcallVersion r) .plain (fun _ => r.imm ≠ 0)
    (fun env => { cause := .fwcallSvc, tval := r.imm.setWidth 64, mask := env.e.mask })) ∧
  (∀ r, Completes (.fwcallCapability r) .plain (fun env => let w := { env.w with finsn := env.word, flact := env.e.mask }; { env with w := (w.writeS 0 (BitVec.ofNat 64 capPlace)).writeS 1 (BitVec.ofNat 64 (capTable env.dev.loader).length) })) ∧
  (∀ r, Completes (.fwcallJournal r) .plain (fun env => let w := { env.w with finsn := env.word, flact := env.e.mask }; { env with w := w.writeS 0 (BitVec.ofNat 64 env.dev.jwp) }))

/-- SHFLX of the issuing warp reads its lanes at issue and owes them to D, which is empty until each returns; of another warp of the
block it puts one read per thread of P in flight, with D empty until each returns; a warp number that the block does not have is
SHFL_RANGE; a far register that is poisoned or in error at the issue traps, DATA_ERROR before REMOTE_ERROR, as R137, R160 and
R269 have it for any reader; one that is so only when it is read poisons D instead (log entry 96). (R34, R89, R121, R137, R160,
R269.) -/
def Obligations.ShuffleAcrossWarps : Prop :=
  (∀ r b, CompletesIf (.shflx r) (shflxOpts r) (fun env => env.blk = some b ∧ (env.s r.c).toNat % 32 < b.nwarps ∧
      (env.s r.c).toNat % 32 = env.w.wblk) (fun env => env.p.lanes.foldl (fun e t =>
        { e with w := e.w.markDest (e.destV r.d.toNat t), dev := { e.dev with nextId := e.dev.nextId + 2 }
                 ctx := e.ctx.owe (e.id + 1) e.w.uid (e.destV r.d.toNat t) (env.v r.a ((env.v r.b t).toNat % 32)) none }) env)) ∧
  (∀ r b, CompletesIf (.shflx r) (shflxOpts r) (fun env => env.blk = some b ∧ (env.s r.c).toNat % 32 < b.nwarps ∧
      (env.s r.c).toNat % 32 ≠ env.w.wblk ∧
      ∀ w, env.ctx.warps.find? (fun w => w.blk = b.id && w.wblk = (env.s r.c).toNat % 32) = some w → env.farTrap r w = none)
    (fun env => env.p.lanes.foldl (fun e t => e.addAccess .plain t 0 []
      (.peek (((env.ctx.warps.find? (fun w => w.blk = b.id && w.wblk = (env.s r.c).toNat % 32)).map (fun w => w.uid)).getD 0) r.a.toNat
        ((env.v r.b t).toNat % 32) (e.destV r.d.toNat t))) env)) ∧
  (∀ r b w t, Traps (.shflx r) (shflxOpts r) (fun env => env.blk = some b ∧ (env.s r.c).toNat % 32 < b.nwarps ∧
      (env.s r.c).toNat % 32 ≠ env.w.wblk ∧ env.ctx.warps.find? (fun w => w.blk = b.id && w.wblk = (env.s r.c).toNat % 32) = some w ∧
      env.farTrap r w = some (.trap t)) (fun _ => t)) ∧
  (∀ (env : Env) (r : RRR) (w : Warp), let mark := fun t => w.vmark r.a.toNat ((env.v r.b t).toNat % 32)
    (w.nregs ≤ r.a.toNat → env.farTrap r w = none) ∧
    (r.a.toNat < w.nregs → (∀ t, env.p.has t = true → (mark t).isBad = false ∧ (mark t).isRemote = false) → env.farTrap r w = none) ∧
    (∀ u, r.a.toNat < w.nregs → u < 32 → env.p.has u = true → (mark u).isBad = true → ∃ t, env.farTrap r w = some (.trap t) ∧
      t.cause = .dataError ∧ (∀ l, l < 32 → (t.mask.has l = true ↔ env.p.has l = true ∧ (mark l).isBad = true)) ∧
      t.tval = (mark t.mask.low).report r.a.toNat) ∧
    (∀ u, r.a.toNat < w.nregs → u < 32 → env.p.has u = true → (mark u).isRemote = true → (∀ t, env.p.has t = true → (mark t).isBad = false) →
      ∃ t, env.farTrap r w = some (.trap t) ∧ t.cause = .remoteError ∧
        ∀ l, l < 32 → (t.mask.has l = true ↔ env.p.has l = true ∧ (mark l).isRemote = true))) ∧
  (∀ r b, Traps (.shflx r) (shflxOpts r) (fun env => env.blk = some b ∧ b.nwarps ≤ (env.s r.c).toNat % 32)
    (fun env => { cause := .shflRange, tval := env.s r.c, mask := env.e.mask }))

/-- Where the group is defined and the offsets lie in it, MST and MSTO put one store for each thread of P and each member in flight
once fewer than 16 multicasts to the home are (that a multicast holds one of the 16 reservations of R325 is log entry 68), or,
with the port to the home dead, count every member as failed; a group that is not defined is MCAST_GROUP. FENCE parks the warp
at its own address until FENCE_COMPLETE (log entry 54), and its release takes effect only then (log entry 16). (R34, R174, R175,
R178, R334, R335.) -/
def Obligations.MulticastStoresAndFences : Prop :=
  (∀ r h ms, CompletesIf (.mst r) .resets (fun env => env.ctx.group (env.s r.b) = some (h, ms) ∧ env.dev.portLive (natBits h.toNat 55 48 - 0x80) = true ∧
      env.dev.ctxs.foldl (fun n x => n + x.multicasts (natBits h.toNat 55 48)) 0 < 16 ∧
      ∀ t, env.p.has t = true → (env.mcOff r (2 ^ (r.x.toNat % 8)) t).toInt % (2 ^ (r.x.toNat % 8) : Nat) = 0 ∧
        0 ≤ (env.mcOff r (2 ^ (r.x.toNat % 8)) t).toInt ∧
        (env.mcOff r (2 ^ (r.x.toNat % 8)) t).toNat + 2 ^ (r.x.toNat % 8) ≤ natBits h.toNat 39 0)
    (fun env => env.p.lanes.foldl (fun e t => (List.range ms.length).foldl (fun e m =>
      e.toMember r false (r.x.toNat.testBit 8) (natBits h.toNat 55 48) (2 ^ (r.x.toNat % 8)) env t m (ms.getD m 0)) e) env)) ∧
  (∀ r h ms, CompletesIf (.mst r) .resets (fun env => env.ctx.group (env.s r.b) = some (h, ms) ∧ env.dev.portLive (natBits h.toNat 55 48 - 0x80) = false ∧
      ∀ t, env.p.has t = true → (env.mcOff r (2 ^ (r.x.toNat % 8)) t).toInt % (2 ^ (r.x.toNat % 8) : Nat) = 0 ∧
        0 ≤ (env.mcOff r (2 ^ (r.x.toNat % 8)) t).toInt ∧
        (env.mcOff r (2 ^ (r.x.toNat % 8)) t).toNat + 2 ^ (r.x.toNat % 8) ≤ natBits h.toNat 39 0)
    (fun env => { env with
      w := { env.w with mstat := env.w.mstat ||| BitVec.ofNat 64 (2 ^ ms.length - 1), mtrap := env.w.mtrap || r.x.toNat.testBit 8 }
      dev := { env.dev with driverLog := env.dev.driverLog ++ [env.mcOff r (2 ^ (r.x.toNat % 8)) env.p.low] } })) ∧
  (∀ r h ms s env, Admitted (.mst r) .resets s env → env.ctx.group (env.s r.b) = some (h, ms) ∧ env.dev.portLive (natBits h.toNat 55 48 - 0x80) = true ∧
      env.dev.ctxs.foldl (fun n x => n + x.multicasts (natBits h.toNat 55 48)) 0 ≥ 16 ∧
      ∀ t, env.p.has t = true → (env.mcOff r (2 ^ (r.x.toNat % 8)) t).toInt % (2 ^ (r.x.toNat % 8) : Nat) = 0 ∧
        0 ≤ (env.mcOff r (2 ^ (r.x.toNat % 8)) t).toInt ∧
        (env.mcOff r (2 ^ (r.x.toNat % 8)) t).toNat + 2 ^ (r.x.toNat % 8) ≤ natBits h.toNat 39 0 →
    exec (.mst r) s = .next (holdIssue env (.retrySources []))) ∧
  (∀ r, Traps (.mst r) .resets (fun env => env.ctx.group (env.s r.b) = none)
    (fun env => { cause := .mcastGroup, tval := env.s r.b, mask := env.p })) ∧
  (∀ r h ms, CompletesIf (.msto r) .resets (fun env => env.ctx.group (env.s r.b) = some (h, ms) ∧ env.dev.portLive (natBits h.toNat 55 48 - 0x80) = true ∧
      env.dev.ctxs.foldl (fun n x => n + x.multicasts (natBits h.toNat 55 48)) 0 < 16 ∧
      ∀ t, env.p.has t = true → (env.mcOff r (2 ^ (r.x.toNat % 8)) t).toInt % (2 ^ (r.x.toNat % 8) : Nat) = 0 ∧
        0 ≤ (env.mcOff r (2 ^ (r.x.toNat % 8)) t).toInt ∧
        (env.mcOff r (2 ^ (r.x.toNat % 8)) t).toNat + 2 ^ (r.x.toNat % 8) ≤ natBits h.toNat 39 0)
    (fun env => env.p.lanes.foldl (fun e t => (List.range ms.length).foldl (fun e m =>
      e.toMember r true (r.x.toNat.testBit 8) (natBits h.toNat 55 48) (2 ^ (r.x.toNat % 8)) env t m (ms.getD m 0)) e) env)) ∧
  (∀ r h ms, CompletesIf (.msto r) .resets (fun env => env.ctx.group (env.s r.b) = some (h, ms) ∧ env.dev.portLive (natBits h.toNat 55 48 - 0x80) = false ∧
      ∀ t, env.p.has t = true → (env.mcOff r (2 ^ (r.x.toNat % 8)) t).toInt % (2 ^ (r.x.toNat % 8) : Nat) = 0 ∧
        0 ≤ (env.mcOff r (2 ^ (r.x.toNat % 8)) t).toInt ∧
        (env.mcOff r (2 ^ (r.x.toNat % 8)) t).toNat + 2 ^ (r.x.toNat % 8) ≤ natBits h.toNat 39 0)
    (fun env => { env with
      w := { env.w with mstat := env.w.mstat ||| BitVec.ofNat 64 (2 ^ ms.length - 1), mtrap := env.w.mtrap || r.x.toNat.testBit 8 }
      dev := { env.dev with driverLog := env.dev.driverLog ++ [env.mcOff r (2 ^ (r.x.toNat % 8)) env.p.low] } })) ∧
  (∀ r h ms s env, Admitted (.msto r) .resets s env → env.ctx.group (env.s r.b) = some (h, ms) ∧ env.dev.portLive (natBits h.toNat 55 48 - 0x80) = true ∧
      env.dev.ctxs.foldl (fun n x => n + x.multicasts (natBits h.toNat 55 48)) 0 ≥ 16 ∧
      ∀ t, env.p.has t = true → (env.mcOff r (2 ^ (r.x.toNat % 8)) t).toInt % (2 ^ (r.x.toNat % 8) : Nat) = 0 ∧
        0 ≤ (env.mcOff r (2 ^ (r.x.toNat % 8)) t).toInt ∧
        (env.mcOff r (2 ^ (r.x.toNat % 8)) t).toNat + 2 ^ (r.x.toNat % 8) ≤ natBits h.toNat 39 0 →
    exec (.msto r) s = .next (holdIssue env (.retrySources []))) ∧
  (∀ r, Traps (.msto r) .resets (fun env => env.ctx.group (env.s r.b) = none)
    (fun env => { cause := .mcastGroup, tval := env.s r.b, mask := env.p })) ∧
  (∀ r, Completes (.fence r) .plain (fun env => let e := env.send env.e.mask (fun _ => env.e.pc) env.e.pri
      e.parkOn (.fence (r.x.toNat.testBit 4) (r.x.toNat.testBit 5) (r.x.toNat.testBit 3) (r.x.toNat % 8) r.d env.id env.e.pc env.e.mask)))

/-- TDESC builds a descriptor from three words that keep their layout; TMOD replaces or adds to one field modulo its width;
CHSET.ring gives a channel that is idle a ring and a completion word of zero, once the HBM stack of that word is ready, after
the release of the accesses of the warp to the line of that word (R185 and R277 give CHSET no release: log entry 16);
CHSET.chain starts the walk of a program chain, held while an acquire of the warp is in flight. Each names the trap of an
operand that fails; that a card posted and not accepted, or a walk with none left, is CHAN_STATE for a chain, and that a ring
ends such a walk, are choices (log entry 85). Nothing else changes but the count of the issue. (R34, R179, R180, R184, R185,
R197.) -/
def Obligations.DescriptorsAndChannels : Prop :=
  (∀ r, CompletesIf (.tdesc r) .plain (fun env => (env.s r.a).toNat < 2 ^ 57 ∧ (env.s r.b).toNat < 2 ^ 50 ∧ (env.s r.b).getLsbD 35 = false ∧
      natBits (env.s r.b).toNat 34 32 ≤ 2 ∧ (env.s r.c).toNat < 2 ^ 40)
    (fun env => { env with w := env.w.setTdesc r.d.toNat (BitVec.ofNat 256 ((env.s r.a).toNat + (env.s r.b).toNat * 2 ^ 64 + (env.s r.c).toNat * 2 ^ 128)) })) ∧
  (∀ r, Traps (.tdesc r) .plain (fun env => 2 ^ 57 ≤ (env.s r.a).toNat)
    (fun env => { cause := .descInvalid, tval := env.s r.a, mask := env.e.mask })) ∧
  (∀ r, Traps (.tdesc r) .plain (fun env => (env.s r.a).toNat < 2 ^ 57 ∧ (2 ^ 50 ≤ (env.s r.b).toNat ∨ (env.s r.b).getLsbD 35 = true ∨ 2 < natBits (env.s r.b).toNat 34 32))
    (fun env => { cause := .descInvalid, tval := env.s r.b, mask := env.e.mask })) ∧
  (∀ r, Traps (.tdesc r) .plain (fun env => (env.s r.a).toNat < 2 ^ 57 ∧ (env.s r.b).toNat < 2 ^ 50 ∧ (env.s r.b).getLsbD 35 = false ∧
      natBits (env.s r.b).toNat 34 32 ≤ 2 ∧ 2 ^ 40 ≤ (env.s r.c).toNat)
    (fun env => { cause := .descInvalid, tval := env.s r.c, mask := env.e.mask })) ∧
  (∀ r, Traps (.tmod r) .plain (fun env => r.x.toNat.testBit 3 = false ∧ 2 ^ (tmodField (r.x.toNat % 8)).2 ≤ (env.s r.b).toNat)
    (fun env => { cause := .descInvalid, tval := env.s r.b, mask := env.e.mask })) ∧
  (∀ r, CompletesIf (.tmod r) .plain (fun env => r.x.toNat.testBit 3 = true ∨ (env.s r.b).toNat < 2 ^ (tmodField (r.x.toNat % 8)).2)
    (fun env => 
      let q := tmodField (r.x.toNat % 8)
      let old := (env.w.tdesc r.a.toNat).toNat
      { env with w := env.w.setTdesc r.d.toNat (BitVec.ofNat 256 (spliceBits old q.1 q.2
        (if r.x.toNat.testBit 3 then natBits old (q.1 + q.2 - 1) q.1 + (env.s r.b).toNat else (env.s r.b).toNat))) })) ∧
  (∀ r, CompletesAfterRelease (.chsetRing r) .resets (fun env => (env.s r.b).toNat < 2 ^ 12 ∧ natBits (env.s r.b).toNat 7 6 = 0 ∧ 1 ≤ natBits (env.s r.b).toNat 11 8 ∧
      natBits (env.s r.b).toNat 11 8 ≤ 12 ∧ env.checkAddrs [(env.s r.a, 128), (env.s r.c, 8)] = none ∧
      env.ctx.chanBusy env.cl ((env.s r.b).toNat % 64) = false ∧ engWaits env.dev env.ctx env.seat (env.s r.c).toNat = false)
    (fun env => env.releaseIn [⟨0, 0, (env.s r.c).toNat / 128, (env.s r.c).toNat / 128, true⟩])
    (fun env e => { e with
      dev := engStore e.dev e.ctx e.seat (e.s r.c).toNat 8 0
      ctx := e.ctx.setChan { cl := e.cl, ch := (env.s r.b).toNat % 64, ring := (e.s r.a).toNat, k := natBits (env.s r.b).toNat 11 8
                             nextSlot := 0, last := none, cw := (e.s r.c).toNat, nextSeq := 1, done := 0, err := false, ahead := []
                             walking := none, chainSlots := [], chainQ := 0, chainBlk := 0, chainCore := 0, chainSp := (0, 0) } })) ∧
  (∀ r c, CompletesIf (.chsetChain r) .resets (fun env => (env.s r.b).toNat < 64 ∧ env.checkAddrs [(env.s r.a, 128)] = none ∧
      env.ctx.chan? env.cl (env.s r.b).toNat = some c ∧ env.ctx.chanBusy env.cl (env.s r.b).toNat = false ∧ c.walking = none ∧ env.acquiring = false)
    (fun env => { env with ctx := env.ctx.setChan { c with
      walking := some (env.s r.a).toNat, chainQ := env.w.q, chainBlk := env.w.blk, chainCore := env.core, chainSp := (env.spBase, env.spSize)
      chainSlots := (List.range 16).map (fun f => smGet 0 env.w.slots f) } })) ∧
  (∀ r c s env, Admitted (.chsetChain r) .resets s env → (env.s r.b).toNat < 64 → env.checkAddrs [(env.s r.a, 128)] = none →
    env.ctx.chan? env.cl (env.s r.b).toNat = some c → env.ctx.chanBusy env.cl (env.s r.b).toNat = false → c.walking = none →
    env.acquiring = true → exec (.chsetChain r) s = .next (holdIssue env (.retrySources []))) ∧
  (∀ r, Traps (.chsetRing r) .resets (fun env => 2 ^ 12 ≤ (env.s r.b).toNat ∨ natBits (env.s r.b).toNat 7 6 ≠ 0 ∨ natBits (env.s r.b).toNat 11 8 < 1 ∨ 12 < natBits (env.s r.b).toNat 11 8)
    (fun env => { cause := .illegalOperand, tval := env.word, mask := env.e.mask })) ∧
  (∀ r, Traps (.chsetRing r) .resets (fun env => (env.s r.b).toNat < 2 ^ 12 ∧ natBits (env.s r.b).toNat 7 6 = 0 ∧ 1 ≤ natBits (env.s r.b).toNat 11 8 ∧
      natBits (env.s r.b).toNat 11 8 ≤ 12 ∧ (2 ^ 57 ≤ (env.s r.a).toNat ∨ 2 ^ 57 ≤ (env.s r.c).toNat))
    (fun env => { cause := .memRange, tval := if 2 ^ 57 ≤ (env.s r.a).toNat then env.s r.a else env.s r.c, mask := env.e.mask })) ∧
  (∀ r, Traps (.chsetRing r) .resets (fun env => (env.s r.b).toNat < 2 ^ 12 ∧ natBits (env.s r.b).toNat 7 6 = 0 ∧ 1 ≤ natBits (env.s r.b).toNat 11 8 ∧
      natBits (env.s r.b).toNat 11 8 ≤ 12 ∧ (env.s r.a).toNat < 2 ^ 57 ∧ (env.s r.c).toNat < 2 ^ 57 ∧
      ((env.s r.a).toNat % 128 ≠ 0 ∨ (env.s r.c).toNat % 8 ≠ 0))
    (fun env => { cause := .memAlign, tval := if (env.s r.a).toNat % 128 ≠ 0 then env.s r.a else env.s r.c, mask := env.e.mask })) ∧
  (∀ r, Traps (.chsetRing r) .resets (fun env => (env.s r.b).toNat < 2 ^ 12 ∧ natBits (env.s r.b).toNat 7 6 = 0 ∧ 1 ≤ natBits (env.s r.b).toNat 11 8 ∧
      natBits (env.s r.b).toNat 11 8 ≤ 12 ∧ env.checkAddrs [(env.s r.a, 128), (env.s r.c, 8)] = none ∧
      env.ctx.chanBusy env.cl ((env.s r.b).toNat % 64) = true)
    (fun env => { cause := .chanState, tval := BitVec.ofNat 64 ((env.s r.b).toNat % 64), mask := env.e.mask })) ∧
  (∀ r, Traps (.chsetChain r) .resets (fun env => (env.s r.b).toNat < 64 ∧ 2 ^ 57 ≤ (env.s r.a).toNat)
    (fun env => { cause := .memRange, tval := env.s r.a, mask := env.e.mask })) ∧
  (∀ r, Traps (.chsetChain r) .resets (fun env => (env.s r.b).toNat < 64 ∧ (env.s r.a).toNat < 2 ^ 57 ∧ (env.s r.a).toNat % 128 ≠ 0)
    (fun env => { cause := .memAlign, tval := env.s r.a, mask := env.e.mask })) ∧
  (∀ r, Traps (.chsetChain r) .resets (fun env => (env.s r.b).toNat < 64 ∧ env.checkAddrs [(env.s r.a, 128)] = none ∧
      (∀ c, env.ctx.chan? env.cl (env.s r.b).toNat = some c → env.ctx.chanBusy env.cl (env.s r.b).toNat = true ∨ c.walking.isSome = true))
    (fun env => { cause := .chanState, tval := env.s r.b, mask := env.e.mask })) ∧
  (∀ r, Traps (.chsetChain r) .resets (fun env => 64 ≤ (env.s r.b).toNat)
    (fun env => { cause := .illegalOperand, tval := env.word, mask := env.e.mask }))

/-- Where every check of R186 passes and the next slot is free, JPOST writes its card with its control words, descriptors and the
slots sampled, links it, clears its bitmap and presence bits, moves the channel on and posts the card, and D waits for the
sequence number, after the release of the accesses of the warp to its footprint (log entry 16); while the slot is owned or a
chain of the channel is walked, or what it releases cannot be performed yet, or the HBM stack of a word that it writes is not
ready, the warp waits at the JPOST. JCANCEL completes a card that has not started with status 5, or withdraws the iterations of
a running loop that have not started, and writes D = 1 for every thread of the entry; for any other card, or none, D = 0 and
nothing changes. (R33, R34, R186, R187, R191, R192, R356.) -/
def Obligations.CardsArePostedAndCancelled : Prop :=
  (∀ (r : RRR) (s : State) (env e : Env) (c : Channel),
    let p : Post :=
      { typ := r.x.toNat, ctl := env.w.readS r.c.toNat, bmap := env.w.readS (r.c.toNat + 1)
        aux0 := if r.x = 2 then env.w.readS (r.c.toNat + 2) else 0, aux1 := if r.x = 2 then env.w.readS (r.c.toNat + 3) else 0
        ds := env.w.tdesc r.a.toNat, dd := env.w.tdesc r.b.toNat }
    Admitted (.jpost r) (jpostOpts r) s env → env.checkPost p = none → env.ctx.chan? env.cl (p.ctl.toNat % 64) = some c →
    env.ctx.ringFree c = true → (env.postCard p c).placeWaits env.dev env.ctx c = false →
    env.releaseIn ((env.postCard p c).hulls env.ctx 0) = some e →
    let z := (env.postCard p c).place e.dev e.ctx c p.aux0 p.aux1
    Closes (jpostOpts r) (exec (.jpost r) s) (({ e with
      dev := z.1, w := e.w.markS r.d.toNat (.empty e.id)
      ctx := { z.2 with posted := z.2.posted ++ [{ uid := e.w.uid, card := env.postCard p c, d := r.d, prod := e.id }] } } : Env).bump)) ∧
  (∀ (r : RRR) (s : State) (env : Env) (c : Channel),
    let p : Post :=
      { typ := r.x.toNat, ctl := env.w.readS r.c.toNat, bmap := env.w.readS (r.c.toNat + 1)
        aux0 := if r.x = 2 then env.w.readS (r.c.toNat + 2) else 0, aux1 := if r.x = 2 then env.w.readS (r.c.toNat + 3) else 0
        ds := env.w.tdesc r.a.toNat, dd := env.w.tdesc r.b.toNat }
    Admitted (.jpost r) (jpostOpts r) s env → env.checkPost p = none → env.ctx.chan? env.cl (p.ctl.toNat % 64) = some c →
    (env.ctx.ringFree c = false → exec (.jpost r) s = .next (holdIssue env (.retryRing env.cl (p.ctl.toNat % 64)))) ∧
    (env.ctx.ringFree c = true →
      (env.postCard p c).placeWaits env.dev env.ctx c = true ∨ env.releaseIn ((env.postCard p c).hulls env.ctx 0) = none →
      exec (.jpost r) s = .next (holdIssue env (.retrySources [])))) ∧
  (∀ (x : Context) (c : Channel), x.ringFree c = true ↔
    c.walking = none ∧ (∀ k ∈ x.cards, k.cl = c.cl → k.ch = c.ch → k.addr ≠ c.ring + c.nextSlot * 128) ∧
      ∀ p ∈ x.posted, p.card.cl = c.cl → p.card.ch = c.ch → p.card.addr ≠ c.ring + c.nextSlot * 128) ∧
  (∀ (k : Card) (s : State) (x : Context) (c : Channel) (u v : Word), ∃ y, (k.place s x c u v).2 = y.setChan { c with
    last := some k.addr, nextSlot := (c.nextSlot + 1) % 2 ^ c.k, nextSeq := (c.nextSeq + 1) % 2 ^ 32 } ∧
    y = x.clearLines (k.sramLines x)) ∧
  (∀ r k, CompletesIf (.jcancel r) .plain (fun env => natBits (env.s r.a).toNat 31 6 = 0 ∧
      env.ctx.cards.find? (fun k => k.cl = env.cl && k.ch = (env.s r.a).toNat % 64 && k.seq = (env.s r.a).toNat / 2 ^ 32) = some k ∧
      k.started = false ∧ k.status = 0)
    (fun env => { env with w := env.w.setPred r.d.toNat env.e.mask (BitVec.allOnes 32), ctx := env.ctx.setCard { k with status := 5 } })) ∧
  (∀ r k, CompletesIf (.jcancel r) .plain (fun env => natBits (env.s r.a).toNat 31 6 = 0 ∧
      env.ctx.cards.find? (fun k => k.cl = env.cl && k.ch = (env.s r.a).toNat % 64 && k.seq = (env.s r.a).toNat / 2 ^ 32) = some k ∧
      k.started = true ∧ k.going = true ∧ k.cancelled = false ∧ k.iter < k.iters)
    (fun env => { env with w := env.w.setPred r.d.toNat env.e.mask (BitVec.allOnes 32), ctx := env.ctx.setCard { k with cancelled := true } })) ∧
  (∀ r k, CompletesIf (.jcancel r) .plain (fun env => natBits (env.s r.a).toNat 31 6 = 0 ∧
      env.ctx.cards.find? (fun k => k.cl = env.cl && k.ch = (env.s r.a).toNat % 64 && k.seq = (env.s r.a).toNat / 2 ^ 32) = some k ∧
      (k.started = false → k.status ≠ 0) ∧ (k.started = true → k.going = true → k.cancelled = false → k.iters ≤ k.iter))
    (fun env => { env with w := env.w.setPred r.d.toNat env.e.mask 0 })) ∧
  (∀ r, CompletesIf (.jcancel r) .plain (fun env => natBits (env.s r.a).toNat 31 6 = 0 ∧
      env.ctx.cards.find? (fun k => k.cl = env.cl && k.ch = (env.s r.a).toNat % 64 && k.seq = (env.s r.a).toNat / 2 ^ 32) = none)
    (fun env => { env with w := env.w.setPred r.d.toNat env.e.mask 0 })) ∧
  (∀ r, Traps (.jcancel r) .plain (fun env => natBits (env.s r.a).toNat 31 6 ≠ 0)
    (fun env => { cause := .illegalOperand, tval := env.word, mask := env.e.mask }))

/-- TWAIT and SQWAIT whose condition holds set D for the entry and acquire, once every earlier load and result of the warp has
returned; with N = 0 they clear D; otherwise the warp parks for 64·N cycles, a TWAIT with its address. A scope of 7 and a
malformed operand are ILLEGAL_OPERAND, a channel that no ring was given is CHAN_STATE. PRESQ writes whether the line of each
thread is present, and SINV and SINV.set clear or set the presence bits of n lines; a base that is not a multiple of 128 is
MEM_ALIGN and a byte outside the allocation SP_RANGE. Nothing else changes but the count of the issue. (R34, R184, R193, R194.) -/
def Obligations.WaitsAndPresence : Prop :=
  (∀ (r : RI) (s : State) (env : Env), let pl : Plan :=
      { space := .global, uniA := env.s r.a, runs := fun _ => [{ pos := (env.s r.a).toNat * 8, len := 64 }]
        base := fun _ => (env.s r.a).toNat, align := 8, read := true, write := false, packed := false, off := 0 }
    let key := ((env.pieces pl env.p.low (pl.runs env.p.low) 0).headD { pos := 0, len := 0, off := 0 }).pos / 8
    let m := env.w.readS (r.a.toNat + 1)
    let e := (env.touchPlan pl).keepRead pl
    let met := BitVec.ofNat 64 (readBytes e.dev.mem key 8) &&& m = m
    Admitted (.twait r) .resets s env → r.imm.toNat % 8 ≠ 7 → env.checkPlan pl = none → env.readNow pl = none →
    (met → e.ctx.acquireReady e.w.uid e.id = true → Closes .resets (exec (.twait r) s) { e with
      w := e.w.setPred r.d.toNat e.e.mask (BitVec.allOnes 32), dev := e.dev.acquire e.core (r.imm.toNat % 8)
      ctx := e.ctx.raise e.core (r.imm.toNat % 8) }) ∧
    (met → e.ctx.acquireReady e.w.uid e.id = false → exec (.twait r) s = .next (holdIssue env (.retrySources []))) ∧
    (¬met → Closes .resets (exec (.twait r) s) (if r.imm.toNat / 16 = 0 then { e with w := e.w.setPred r.d.toNat e.e.mask 0 }
      else e.parkOn (.twait r.d (env.s r.a).toNat m (r.imm.toNat % 8) (64 * (r.imm.toNat / 16)) env.e.mask)))) ∧
  (∀ r c, CompletesIf (.sqwait r) .resets (fun env => r.imm.toNat % 8 ≠ 7 ∧ natBits (env.s r.a).toNat 31 6 = 0 ∧
      env.ctx.chan? env.cl ((env.s r.a).toNat % 64) = some c ∧ env.acquiring = false ∧
      (reached c.done ((env.s r.a).toNat / 2 ^ 32) = true → env.ctx.acquireReady env.w.uid env.id = true))
    (fun env => if reached c.done ((env.s r.a).toNat / 2 ^ 32) then { env with
        w := env.w.setPred r.d.toNat env.e.mask (BitVec.allOnes 32), dev := env.dev.acquire env.core (r.imm.toNat % 8)
        ctx := env.ctx.raise env.core (r.imm.toNat % 8) }
      else if r.imm.toNat / 16 = 0 then { env with w := env.w.setPred r.d.toNat env.e.mask 0 }
      else env.parkOn (.sqwait r.d env.cl ((env.s r.a).toNat % 64) ((env.s r.a).toNat / 2 ^ 32) (r.imm.toNat % 8)
        (64 * (r.imm.toNat / 16)) env.e.mask))) ∧
  (∀ r c s env, Admitted (.sqwait r) .resets s env → r.imm.toNat % 8 ≠ 7 → natBits (env.s r.a).toNat 31 6 = 0 →
    env.ctx.chan? env.cl ((env.s r.a).toNat % 64) = some c → (env.acquiring = true ∨
      (reached c.done ((env.s r.a).toNat / 2 ^ 32) = true ∧ env.ctx.acquireReady env.w.uid env.id = false)) →
    exec (.sqwait r) s = .next (holdIssue env (.retrySources []))) ∧
  (∀ r, Traps (.twait r) .resets (fun _ => r.imm.toNat % 8 = 7)
    (fun env => { cause := .illegalOperand, tval := env.word, mask := env.e.mask })) ∧
  (∀ r, Traps (.sqwait r) .resets (fun env => r.imm.toNat % 8 = 7 ∨ natBits (env.s r.a).toNat 31 6 ≠ 0)
    (fun env => { cause := .illegalOperand, tval := env.word, mask := env.e.mask })) ∧
  (∀ r, Traps (.sqwait r) .resets (fun env => r.imm.toNat % 8 ≠ 7 ∧ natBits (env.s r.a).toNat 31 6 = 0 ∧ env.ctx.chan? env.cl ((env.s r.a).toNat % 64) = none)
    (fun env => { cause := .chanState, tval := env.s r.a, mask := env.e.mask })) ∧
  (∀ r, CompletesIf (.presq r) .plain (fun env => ∀ t, env.p.has t = true → 0 ≤ (env.ea r (mfAm r) 1 t).toInt ∧ (env.ea r (mfAm r) 1 t).toInt < env.spSize)
    (fun env => env.setP r.d (fun t => !env.ctx.absent.contains (env.lineOf (env.ea r (mfAm r) 1 t).toNat)))) ∧
  (∀ r, let bad := fun (env : Env) t => decide ((env.ea r (mfAm r) 1 t).toInt < 0) || decide ((env.spSize : Int) ≤ (env.ea r (mfAm r) 1 t).toInt)
    Traps (.presq r) .plain (fun env => ∃ t, t < 32 ∧ env.p.has t = true ∧ bad env t = true) (fun env =>
      let m := Mask.ofPred (fun t => env.p.has t && bad env t)
      { cause := .spRange, tval := env.ea r (mfAm r) 1 m.low, mask := m })) ∧
  (∀ r, let ea := fun env : Env => BitVec.ofInt 64 ((env.s r.a).toNat + 8 * signedOf 8 r.off.toNat)
    let lines := fun env : Env => (List.range (env.s r.b).toNat).map (fun k => env.lineOf ((ea env).toNat + 128 * k))
    CompletesIf (.sinv r) .plain (fun env => (ea env).toNat % 128 = 0 ∧ 0 ≤ (ea env).toInt ∧
      (ea env).toInt + 128 * (env.s r.b).toNat ≤ env.spSize ∧ env.s r.b ≠ 0)
    (fun env => { env with ctx := env.ctx.clearLines (lines env) }) ∧
    CompletesIf (.sinv r) .plain (fun env => (ea env).toNat % 128 = 0 ∧ env.s r.b = 0) (fun env => env) ∧
    Traps (.sinv r) .plain (fun env => (ea env).toNat % 128 ≠ 0) (fun env => { cause := .memAlign, tval := ea env, mask := env.e.mask }) ∧
    Traps (.sinv r) .plain (fun env => (ea env).toNat % 128 = 0 ∧ env.s r.b ≠ 0 ∧
        ((ea env).toInt < 0 ∨ (env.spSize : Int) < (ea env).toInt + 128 * (env.s r.b).toNat))
      (fun env => { cause := .spRange, tval := ea env, mask := env.e.mask })) ∧
  (∀ r, let ea := fun env : Env => BitVec.ofInt 64 ((env.s r.a).toNat + 8 * signedOf 8 r.off.toNat)
    let lines := fun env : Env => (List.range (env.s r.b).toNat).map (fun k => env.lineOf ((ea env).toNat + 128 * k))
    CompletesIf (.sinvSet r) .plain (fun env => (ea env).toNat % 128 = 0 ∧ 0 ≤ (ea env).toInt ∧
      (ea env).toInt + 128 * (env.s r.b).toNat ≤ env.spSize ∧ env.s r.b ≠ 0)
    (fun env => { env with ctx := env.ctx.setLines (lines env) }) ∧
    CompletesIf (.sinvSet r) .plain (fun env => (ea env).toNat % 128 = 0 ∧ env.s r.b = 0) (fun env => env) ∧
    Traps (.sinvSet r) .plain (fun env => (ea env).toNat % 128 ≠ 0) (fun env => { cause := .memAlign, tval := ea env, mask := env.e.mask }) ∧
    Traps (.sinvSet r) .plain (fun env => (ea env).toNat % 128 = 0 ∧ env.s r.b ≠ 0 ∧
        ((ea env).toInt < 0 ∨ (env.spSize : Int) < (ea env).toInt + 128 * (env.s r.b).toNat))
      (fun env => { cause := .spRange, tval := ea env, mask := env.e.mask })) ∧
  (∀ done target, reached done target = true ↔ (done + 2 ^ 32 - target % 2 ^ 32) % 2 ^ 32 < 2 ^ 31)

/-- Where the block feeds a stage and its queue has room, QPUSH appends one item per thread of P in ascending order after a release
at die scope, each written to its place in the vault of the partition's origin cluster (which place is log entry 65), and waits
while there is no room; a block that feeds none is QUEUE_NONE. LAUNCH checks its record's address, releases at pod scope, where
R227 and R277 ask for package scope (log entry 16), and submits it, with D empty until the launch is answered. (R33, R34, R195,
R227, R299.) -/
def Obligations.QueuesAndLaunches : Prop :=
  (∀ (r : RRR) (s : State) (env e : Env) (l : Launch) (b : Block) (k : Nat), Admitted (.qpush r) .resets s env →
    env.ctx.launch? env.w.q = some l → env.blk = some b → l.feeds b = some k →
    (env.ctx.queue env.w.q (widDie env.w.wid) k).length + env.p.count ≤ l.depth k → env.releaseAt 4 = some e →
    Closes .resets (exec (.qpush r) s) (
      let items := env.p.lanes.map (fun t => (env.v r.a t, if r.x = 1 then env.w.readV (r.a.toNat + 1) t else 0))
      { e with
        ctx := e.ctx.setQueue env.w.q (widDie env.w.wid) k items.length (env.ctx.queue env.w.q (widDie env.w.wid) k ++ items)
        dev := e.dev.putItems e.ctx env.w.q (widDie env.w.wid) k (l.depth k) (e.ctx.pushedTo env.w.q (widDie env.w.wid) k) items })) ∧
  (∀ (s : State) (x : Context) (q die k depth n : Nat) (i : Word × Word) (l : List (Word × Word)),
    let at_ := keyVault x.id (die * 64 + 8 * x.p.y0 + x.p.x0) (x.queueBase q k + 16 * (n % depth))
    s.putItems x q die k depth n [] = s ∧ s.putItems x q die k depth n (i :: l) =
      ({ s with mem := writeBytes s.mem at_ 16 (i.1.toNat + i.2.toNat * 2 ^ 64) } : State).putItems x q die k depth (n + 1) l) ∧
  (∀ (r : RRR) (s : State) (env : Env) (l : Launch) (b : Block) (k : Nat), Admitted (.qpush r) .resets s env →
    env.ctx.launch? env.w.q = some l → env.blk = some b → l.feeds b = some k →
    l.depth k < (env.ctx.queue env.w.q (widDie env.w.wid) k).length + env.p.count →
    exec (.qpush r) s = .next (holdIssue env (.retryQueue env.p.count))) ∧
  (∀ r l b, Traps (.qpush r) .resets (fun env => env.ctx.launch? env.w.q = some l ∧ env.blk = some b ∧ l.feeds b = none)
    (fun env => { cause := .queueNone, tval := 0, mask := env.e.mask })) ∧
  (∀ (r : RRR) (s : State) (env e : Env), Admitted (.launch r) .launch s env →
    env.checkPlan { space := .global, uniA := env.s r.a, runs := fun _ => [{ pos := (env.s r.a).toNat * 8, len := 1024 }]
                    base := fun _ => (env.s r.a).toNat, align := 128, read := true, write := false, packed := false, off := 0 } = none →
    env.release = some e →
    Closes .launch (exec (.launch r) s) (({ e with
      w := e.w.markDest (e.destS r.d.toNat)
      ctx := { e.ctx with submitted := e.ctx.submitted ++ [.warp e.w.uid (env.s r.a).toNat r.d e.id] } } : Env).bump))

/-- MMA, MMA.co, MMAS and MMAS.co post one task on the tile that the handle holds or on a new one within the quota; ASTO and ALDR
post theirs; each raises PEND. AZERO and AREL act in the handle's order; AMOVV waits for the handle whatever its guard, takes
FMT_INVALID where an element that it reads is invalid under the trap policy, with the threads that fail and the first such
element of the lowest, and else parks its warp for the read-out; AQRY reads the handle's word. (R33, R34, R199, R200, R201,
R202, R203, R204, R205, R206, R207, R208.) -/
def Obligations.MatrixInstructions : Prop :=
  (∀ r, PostsTask (.mma r) (.matrix r .scalar) (fun env => env.mmaArgs r false (r.x.toNat.testBit 1) false) (fun env => some [env.cl])) ∧
  (∀ r, PostsTask (.mmaCo r) (.matrix r .scalar) (fun env => env.mmaArgs r false (r.x.toNat.testBit 1) true)
    (fun env => env.rectangle ((env.s r.c).toNat % 2 ^ 10))) ∧
  (∀ r, PostsTask (.mmas r) (.matrix r .block) (fun env => env.mmaArgs r true false false) (fun env => some [env.cl])) ∧
  (∀ r, PostsTask (.mmasCo r) (.matrix r .block) (fun env => env.mmaArgs r true false true)
    (fun env => env.rectangle ((env.s r.c).toNat % 2 ^ 10))) ∧
  (∀ r, CompletesIf (.azero r) .plain (fun env => ∀ o ∈ env.ctx.engOps, o.uid = env.w.uid → o.handle ≠ r.d.toNat)
    (fun env => { env with w := env.w.setAcc r.d.toNat { env.w.acc r.d.toNat with zero := true, err := false } })) ∧
  (∀ r, CompletesIf (.azero r) .plain (fun env => ∃ o ∈ env.ctx.engOps, o.uid = env.w.uid ∧ o.handle = r.d.toNat)
    (fun env => ({ env with ctx := { env.ctx with engOps := env.ctx.engOps ++ [env.op r.d.toNat 4] } } : Env).bump)) ∧
  (∀ r t, CompletesIf (.arel r) .plain (fun env => (env.w.acc r.d.toNat).tile = some t ∧ ∀ o ∈ env.ctx.engOps, o.uid = env.w.uid → o.handle ≠ r.d.toNat)
    (fun env => { env with w := env.w.setAcc r.d.toNat { env.w.acc r.d.toNat with tile := none, zero := false, err := false }
                           ctx := env.ctx.freeTile env.w.blk t })) ∧
  (∀ r, CompletesIf (.arel r) .plain (fun env => ∃ o ∈ env.ctx.engOps, o.uid = env.w.uid ∧ o.handle = r.d.toNat)
    (fun env => ({ env with
      w := env.w.setAcc r.d.toNat { env.w.acc r.d.toNat with tile := none, zero := false, err := false }
      ctx := { env.ctx with engOps := env.ctx.engOps ++ [{ env.op r.d.toNat 5 with
        zero := (env.w.acc r.d.toNat).zero, err := (env.w.acc r.d.toNat).err }] } } : Env).bump)) ∧
  (∀ r t, let d := fun env : Env => env.w.tdesc r.d.toNat
    let w := fun env : Env => env.window? (d env) 0
    CompletesIf (.asto r) (astoOpts r) (fun env => (env.w.acc r.a.toNat).tile = some t ∧ (w env).rows = t.m ∧ (w env).cols = t.n ∧
      (w env).formBad = false ∧ (w env).placeBad env.ctx env.seat = false ∧ (w env).outside env.ctx env.seat = false)
    (fun env => let e := env.postOp { env.op r.a.toNat 3 with da := d env, fa := smGet 0 env.w.slots (dFmt (d env)), lines := (w env).keyLines env.dev env.ctx env.seat } t
      { e with ctx := e.ctx.clearLines ((w env).sramLines env.ctx env.seat) })) ∧
  (∀ r t, let d := fun env : Env => env.w.tdesc r.a.toNat
    let w := fun env : Env => env.window? (d env) 0
    CompletesIf (.aldr r) (aldrOpts r) (fun env => (env.w.acc r.d.toNat).tile = some t ∧ (w env).rows = t.m ∧ (w env).cols = t.n ∧
      t.af = smGet 0 env.w.slots r.f.toNat ∧ (w env).formBad = false ∧ (w env).placeBad env.ctx env.seat = false ∧
      (w env).outside env.ctx env.seat = false)
    (fun env => env.postOp { env.op r.d.toNat 2 with da := d env, fa := smGet 0 env.w.slots (dFmt (d env)) } t)) ∧
  (∀ r s env env1 t, let d := env.w.tdesc r.a.toNat
    let w := env.window? d 0
    Admitted (.aldr r) (aldrOpts r) s env → (env.w.acc r.d.toNat).tile = none → w.formBad = false → w.placeBad env.ctx env.seat = false →
      w.outside env.ctx env.seat = false → w.rows % 64 = 0 → w.cols % 64 = 0 → 1 ≤ w.rows → w.rows ≤ 256 → 1 ≤ w.cols → w.cols ≤ 320 →
      env.newTile r.d (w.rows / 64) (w.cols / 64) [env.cl] (smGet 0 env.w.slots r.f.toNat) r.f.toNat = .inr (t, env1) →
      Closes (aldrOpts r) (exec (.aldr r) s) (env1.postOp { env1.op r.d.toNat 2 with da := d, fa := smGet 0 env1.w.slots (dFmt d) } t)) ∧
  (∀ r, Traps (.asto r) (astoOpts r) (fun env => (env.w.acc r.a.toNat).tile = none)
    (fun env => { cause := .accState, tval := r.a.setWidth 64, mask := env.e.mask })) ∧
  (∀ r s env, openIssue (.amovv r) (wordOf (.amovv r)) s = some env → precheck .plain env = none → env.spin = false →
    ((env.w.acc r.a.toNat).pend ≠ 0 ∨ ∃ o ∈ env.ctx.engOps, o.uid = env.w.uid ∧ o.handle = r.a.toNat) →
    exec (.amovv r) s = .next (holdIssue env (.retryHandle r.a.toNat))) ∧
  (∀ r t, let f := fun env : Env => env.slot r.f
    let k := 2 ^ (r.x.toNat % 4)
    let r0 := fun env : Env => natBits (env.s r.b).toNat 15 0
    let c0 := fun env : Env => natBits (env.s r.b).toNat 31 16
    let ok := fun env : Env => (env.s r.b).toNat < 2 ^ 32 ∧ (env.w.acc r.a.toNat).tile = some t ∧ r0 env + 31 < t.m ∧ c0 env + k * (f env).elems ≤ t.n
    let bad := fun (env : Env) (l i : Nat) => (env.ctx.readOut t (env.w.acc r.a.toNat).zero (f env) (r0 env + l) (c0 env + i)).2 = true ∧
      (f env).inv = 0 ∧ (f env).nan = 0
    CompletesIf (.amovv r) (amovvOpts r) (fun env => ok env ∧ ∀ l i, env.p.has l = true → i < k * (f env).elems → ¬bad env l i)
    (fun env => ({ env with w := { ((List.range k).foldl (fun w j => env.p.lanes.foldl (fun w l =>
        w.markV (r.d.toNat + j) l (.empty env.id)) w) env.w) with
      park := some (.readout r.d r.a.toNat k (smGet 0 env.w.slots r.f.toNat) (r0 env) (c0 env) env.p env.id) } } : Env).bump) ∧
    (∀ s env m l i, Admitted (.amovv r) (amovvOpts r) s env → ok env →
      (∀ j, m.has j = true ↔ env.p.has j = true ∧ ∃ i, i < k * (f env).elems ∧ bad env j i) →
      m.has l = true → (∀ j, m.has j = true → l ≤ j) → bad env l i → (∀ j, j < i → ¬bad env l j) → i < k * (f env).elems →
      exec (.amovv r) s = .next (takeTrap env { cause := .fmtInvalid, tval := BitVec.ofNat 64 i, mask := m }))) ∧
  (∀ r, Completes (.aqry r) .plain (fun env => let h := env.w.acc r.a.toNat
    let bit := fun (b : Bool) (k : Nat) => if b then 2 ^ k else 0
    let body := match h.tile with
      | none => 0
      | some t => 2 ^ 62 + bit t.co 59 + bit (wideAf t.af) 58 + t.slots.length % 256 * 2 ^ 48 + t.mt % 16 * 2 ^ 44 +
          t.nt % 16 * 2 ^ 40 + t.afn * 2 ^ 36
    env.setS r.d (BitVec.ofNat 64 (bit (h.pend = 0) 63 + bit h.zero 61 + bit h.err 60 + body + min h.pend 0xFFFF))))

/-- Where the count, the channel and the open generation agree, BSYNC arrives and parks, after a release in its release form; BARR
releases at core scope, arrives and parks; BCAST sends its value after 24 or 64 cycles; BRECV is owed a value newer than the
last at once, which the warp has then seen, or leaves D empty until one arrives. While a release cannot be made the warp waits
at the instruction, which has not issued (log entry 16). A malformed count is ILLEGAL_OPERAND, a channel beyond the launch's
PEWTER_CHAN, a clash of counts PEWTER_COUNT. Nothing else changes but the count of the issue. (R18, R34, R211, R212, R213,
R214.) -/
def Obligations.BarriersAndBroadcasts : Prop :=
  (∀ (r : RI) (s : State) (env e : Env), let a := (env.s r.a).toNat
    let ch := r.imm.toNat % 64
    let pkg := r.imm.toNat.testBit 6
    let dies := if pkg then env.ctx.p.dies else [widDie env.w.wid]
    Admitted (.bsync r) .plain s env → 1 ≤ a → a ≤ 16384 → (pkg = true → 2 ≤ env.ctx.p.dies.length) → ch < env.ctx.p.nb →
    (∀ g ∈ env.ctx.openGens ch dies, g.pkg = pkg ∧ g.c = a) →
    (if r.x.toNat.testBit 0 then env.releaseAt (if pkg then 5 else 4) = some e else e = env) →
    Closes .plain (exec (.bsync r) s) { e.parkOn (.bsync ch (r.x.toNat.testBit 1) (if pkg then 5 else 4)) with
      ctx := e.ctx.arrive ch dies pkg a (e.w.uid, widDie env.w.wid) e.dev.cycle }) ∧
  (∀ (r : RI) (s : State) (env : Env), let a := (env.s r.a).toNat
    let dies := if r.imm.toNat.testBit 6 then env.ctx.p.dies else [widDie env.w.wid]
    Admitted (.bsync r) .plain s env → 1 ≤ a → a ≤ 16384 → (r.imm.toNat.testBit 6 = true → 2 ≤ env.ctx.p.dies.length) →
    r.imm.toNat % 64 < env.ctx.p.nb → (∀ g ∈ env.ctx.openGens (r.imm.toNat % 64) dies, g.pkg = r.imm.toNat.testBit 6 ∧ g.c = a) →
    r.x.toNat.testBit 0 = true →
    env.releaseAt (if r.imm.toNat.testBit 6 then 5 else 4) = none → exec (.bsync r) s = .next (holdIssue env (.retrySources []))) ∧
  (∀ r, Traps (.bsync r) .plain (fun env => (env.s r.a).toNat < 1 ∨ 16384 < (env.s r.a).toNat ∨
      (r.imm.toNat.testBit 6 = true ∧ env.ctx.p.dies.length ≤ 1))
    (fun env => { cause := .illegalOperand, tval := env.word, mask := env.e.mask })) ∧
  (∀ r, Traps (.bsync r) .plain (fun env => 1 ≤ (env.s r.a).toNat ∧ (env.s r.a).toNat ≤ 16384 ∧
      (r.imm.toNat.testBit 6 = true → 2 ≤ env.ctx.p.dies.length) ∧ r.imm.toNat % 64 < env.ctx.p.nb ∧
      ∃ g ∈ env.ctx.openGens (r.imm.toNat % 64) (if r.imm.toNat.testBit 6 then env.ctx.p.dies else [widDie env.w.wid]),
        g.pkg ≠ r.imm.toNat.testBit 6 ∨ g.c ≠ (env.s r.a).toNat)
    (fun env => { cause := .pewterCount, tval := env.s r.a, mask := env.e.mask })) ∧
  (∀ r, Traps (.bsync r) .plain (fun env => 1 ≤ (env.s r.a).toNat ∧ (env.s r.a).toNat ≤ 16384 ∧
      (r.imm.toNat.testBit 6 = true → 2 ≤ env.ctx.p.dies.length) ∧ env.ctx.p.nb ≤ r.imm.toNat % 64)
    (fun env => { cause := .pewterChan, tval := BitVec.ofNat 64 (r.imm.toNat % 64), mask := env.e.mask })) ∧
  (∀ (r : RI) (s : State) (env e : Env) (b b' : Block), let n := r.imm.toNat % 64
    let id := r.imm.toNat / 64 % 16
    Admitted (.barr r) .plain s env → env.blk = some b → n ≤ b.nwarps → b.barrClash id n = false → env.releaseAt 2 = some e → e.blk = some b' →
    Closes .plain (exec (.barr r) s) (({ e.parkOn (.barr b'.id id) with ctx := e.ctx.arriveBarr b' id n e.w.uid e.dev.cycle e.id } : Env).bump)) ∧
  (∀ (r : RI) (s : State) (env : Env) (b : Block), Admitted (.barr r) .plain s env → env.blk = some b → r.imm.toNat % 64 ≤ b.nwarps →
    b.barrClash (r.imm.toNat / 64 % 16) (r.imm.toNat % 64) = false → env.releaseAt 2 = none →
    exec (.barr r) s = .next (holdIssue env (.retrySources []))) ∧
  (∀ r b, Traps (.barr r) .plain (fun env => env.blk = some b ∧ b.nwarps < r.imm.toNat % 64)
    (fun env => { cause := .illegalOperand, tval := env.word, mask := env.e.mask })) ∧
  (∀ r b, Traps (.barr r) .plain (fun env => env.blk = some b ∧ r.imm.toNat % 64 ≤ b.nwarps ∧
      b.barrClash (r.imm.toNat / 64 % 16) (r.imm.toNat % 64) = true)
    (fun env => { cause := .pewterCount, tval := BitVec.ofNat 64 (r.imm.toNat % 64), mask := env.e.mask })) ∧
  (∀ r, let pkg := r.x.toNat.testBit 4
    CompletesIf (.bcast r) .plain (fun env => r.x.toNat % 16 < env.ctx.p.nc)
    (fun env => ({ env with ctx := { env.ctx with bcasts := env.ctx.bcasts ++
      [{ id := env.id, wid := env.w.wid, ch := r.x.toNat % 16, dies := if pkg then env.ctx.p.dies else [widDie env.w.wid]
         at_ := env.dev.cycle + (if pkg then 64 else 24), value := env.s r.a }] } } : Env).bump)) ∧
  (∀ r, Traps (.bcast r) .plain (fun env => env.ctx.p.nc ≤ r.x.toNat % 16)
    (fun env => { cause := .pewterChan, tval := BitVec.ofNat 64 (r.x.toNat % 16), mask := env.e.mask })) ∧
  (∀ r, let ch := r.x.toNat % 16
    let w := fun env : Env => { env.w.markDest (env.destS r.d.toNat) with recvs := env.w.recvs ++ [(ch, env.destS r.d.toNat)] }
    CompletesIf (.brecv r) .plain (fun env => ch < env.ctx.p.nc ∧
        smGet 0 env.ctx.bcGen (widDie env.w.wid * 16 + ch) ≤ smGet 0 env.w.bcSeen ch)
      (fun env => { env with ctx := env.ctx.setWarp (w env), w := w env, dev := { env.dev with nextId := env.dev.nextId + 2 } })) ∧
  (∀ r, let ch := r.x.toNat % 16
    let key := fun env : Env => widDie env.w.wid * 16 + ch
    let w := fun env : Env => { env.w.markDest (env.destS r.d.toNat) with bcSeen := smPut 0 env.w.bcSeen ch (smGet 0 env.ctx.bcGen (key env)) }
    CompletesIf (.brecv r) .plain (fun env => ch < env.ctx.p.nc ∧ (∀ q ∈ env.w.recvs, q.1 ≠ ch) ∧
        smGet 0 env.w.bcSeen ch < smGet 0 env.ctx.bcGen (key env))
      (fun env => { env with
        ctx := (env.ctx.setWarp (w env)).owe (env.id + 1) env.w.uid (env.destS r.d.toNat) (smGet 0 env.ctx.bcValue (key env)) none
        w := w env, dev := { env.dev with nextId := env.dev.nextId + 2 } })) ∧
  (∀ r, Traps (.brecv r) .plain (fun env => env.ctx.p.nc ≤ r.x.toNat % 16)
    (fun env => { cause := .pewterChan, tval := BitVec.ofNat 64 (r.x.toNat % 16), mask := env.e.mask }))

/-- MSEND, whose die offset leaves the launch's dies for no package (PLACE_RANGE), enters its message with its window and parks
until every piece is read and granted (log entry 25); ASEND hands over its words and goes on; MPOST enters a receive under the
lowest free entry, which takes the first message that it accepts among those queued and then waiting, in order (log entry 25),
and writes its handle with the generation of its context (log entry 26); MTEST owes the word of a receive, whose undefined bits
are a free value before it is done (log entry 5), and retires one that is done; MPROBE owes what the queue holds; MCANCEL
withdraws a receive with nothing matched. (R33, R34, R93, R215, R216, R217, R220, R221.) -/
def Obligations.MessageInstructions : Prop :=
  (∀ (r : RRR) (s : State) (env : Env), let d := env.w.tdesc r.a.toNat
    let w := env.window? d 0
    let b := (env.s r.b).toNat
    let keys := w.payloadRuns.flatMap (fun q => (rawRun env.dev env.ctx env.seat w q.1 q.2).1)
    let m : Msg :=
      { rxid := env.ctx.p.rxid, src := env.rank env.blockNum, tag := BitVec.ofNat 32 (b / 2 ^ 32), mctx := BitVec.ofNat 16 (env.s r.c).toNat
        width := w.f.width, blk := w.f.isBlk, codes := List.replicate (w.rows * w.cols) 0
        heads := List.replicate (w.payloadRuns.length - w.rows * w.cols) 0, wslot := env.w.wid, srcPkg := 0xFF, bad := [] }
    let z : Sending :=
      { id := env.id, ctx := env.ctx.id, uid := env.w.uid, pkg := env.dev.pkgOf (b % 256), die := (widDie env.w.wid + natBits b 9 8) % 4, msg := some m
        active := none, pieces := msgPieces m, granted := 0, matched := false, td := d, slot := smGet 0 env.w.slots (dFmt d), blk := env.w.blk }
    Admitted (.msend r) (.message r true) s env → natBits b 31 10 = 0 → (env.s r.c).toNat < 2 ^ 16 → (b % 256 = 0xFF ∨ env.dev.pod ≠ none) →
    env.ctx.p.dies.contains ((widDie env.w.wid + natBits b 9 8) % 4) = true → env.checkDesc d [0] = none → env.blockNum < 2 ^ 24 → w.payloadBytes ≤ 2 ^ 24 →
    (∀ k ∈ keys, env.ctx.absent.contains (k / 128) = false) → env.awaits (keys.map (fun k => { pos := k * 8, len := 8, off := 0 })) = false →
    env.ctx.astoBefore env.w.uid env.id = false →
    Closes (.message r true) (exec (.msend r) s) (({ env.parkOn (.send env.id) with
      dev := { touchWindow env.dev env.ctx env.seat w false with sending := env.dev.sending ++ [z] } } : Env).bump)) ∧
  (∀ r, Traps (.msend r) (.message r true) (fun env => natBits (env.s r.b).toNat 31 10 = 0 ∧ (env.s r.c).toNat < 2 ^ 16 ∧ ((env.s r.b).toNat % 256 = 0xFF ∨ env.dev.pod ≠ none) ∧
      env.ctx.p.dies.contains ((widDie env.w.wid + natBits (env.s r.b).toNat 9 8) % 4) = false)
    (fun env => { cause := .placeRange, tval := BitVec.ofNat 64 (natBits (env.s r.b).toNat 9 8 * 256), mask := env.e.mask })) ∧
  (∀ r v, CompletesIf (.mtest r) .plain (fun env => env.receive (env.s r.a) = some v ∧ v.done = true)
    (fun env => ({ env with dev := (({ env.dev with freeCount := env.dev.freeCount + 1 } : State).acquire env.core 5).retire v, ctx := env.ctx.raise env.core 5 } : Env).oweS r.d
      (BitVec.ofNat 64 (2 ^ 63 + v.status * 2 ^ 60 + v.landed % 2 ^ 28 * 2 ^ 32 + if v.red.isSome then 0 else v.tag.toNat)))) ∧
  (∀ r v, CompletesIf (.mtest r) .plain (fun env => env.receive (env.s r.a) = some v ∧ v.done = false)
    (fun env => let free := (Config.freeWord env.dev.freeCount).toNat
      ({ env with dev := { env.dev with freeCount := env.dev.freeCount + 1 } } : Env).oweS r.d (BitVec.ofNat 64
        (natBits free 62 60 * 2 ^ 60 + v.landed % 2 ^ 28 * 2 ^ 32 +
          if v.red.isSome then 0 else if v.msg.isSome then v.tag.toNat else natBits free 31 0)))) ∧
  (∀ r, Traps (.mtest r) .plain (fun env => env.receive (env.s r.a) = none)
    (fun env => { cause := .msgHandle, tval := env.s r.a, mask := env.e.mask })) ∧
  (∀ r, CompletesIf (.mprobe r) .plain (fun env => (env.w.readS (r.c.toNat + 1)).toNat < 2 ^ 16 ∧
      ∀ h ∈ env.dev.held, h.die = widDie env.w.wid → h.queued = false) (fun env => env.oweS r.d 0)) ∧
  (∀ r h (v : Receive), CompletesIf (.mprobe r) .plain (fun env => (env.w.readS (r.c.toNat + 1)).toNat < 2 ^ 16 ∧
      (env.dev.held.filter (fun h => h.die = widDie env.w.wid && h.queued)).find? (fun h => v.accepts h.msg) = some h ∧
      v.rxid = env.ctx.p.rxid ∧ v.mword = env.s r.b ∧ v.mask = env.s r.c ∧ v.mctx = (env.w.readS (r.c.toNat + 1)).toNat ∧ v.red = none)
    (fun env => env.oweS r.d (BitVec.ofNat 64 (2 ^ 63 + h.msg.src.toNat % 2 ^ 24 * 2 ^ 32 + h.msg.tag.toNat)))) ∧
  (∀ r v, CompletesIf (.mcancel r) .plain (fun env => env.receive (env.s r.a) = some v ∧ v.msg = none ∧ v.taken = [] ∧ v.done = false)
    (fun env => { env with dev := env.dev.retire v, w := env.w.setPred r.d.toNat env.e.mask (BitVec.allOnes 32) })) ∧
  (∀ r v, CompletesIf (.mcancel r) .plain (fun env => env.receive (env.s r.a) = some v ∧ (v.msg ≠ none ∨ v.taken ≠ [] ∨ v.done = true))
    (fun env => { env with w := env.w.setPred r.d.toNat env.e.mask 0 })) ∧
  (∀ (r : RRR) (s : State) (env : Env) (k : Nat), let ctl := (env.w.readS (r.c.toNat + 1)).toNat
    let die := widDie env.w.wid
    let red := if r.x.toNat.testBit 0 then some (r.x.toNat / 2, natBits ctl 31 16) else none
    Admitted (.mpost r) (.message r false) s env → ctl < 2 ^ 32 → (red = none → ctl < 2 ^ 16) →
    (red ≠ none → natBits ctl 31 16 ≠ 0 ∧ (env.s r.c).toNat % 2 ^ 32 = 0) → env.checkDesc (env.w.tdesc r.a.toNat) [0] = none →
    env.dev.freeEntry die = some k →
    ∃ v : Receive, v.handle = BitVec.ofNat 64 (k + die * 2 ^ 12 + env.ctx.rxGen % 2 ^ 32 * 2 ^ 16) ∧
      v.entry = k ∧ v.die = die ∧ v.gen = env.ctx.rxGen ∧ v.order = s.rxGen ∧ v.ctx = env.ctx.id ∧ v.rxid = env.ctx.p.rxid ∧ v.blk = env.w.blk ∧ v.cl = env.cl ∧
      v.td = env.w.tdesc r.a.toNat ∧ v.slot = smGet 0 env.w.slots (dFmt v.td) ∧ v.mword = env.s r.b ∧ v.mask = env.s r.c ∧ v.mctx = ctl % 2 ^ 16 ∧
      v.open_ = true ∧ v.red = red ∧ v.msg = none ∧ v.taken = [] ∧ v.done = false ∧
      (let t : State := { s with receives := s.receives ++ [v], rxGen := s.rxGen + 1 }
       let end_ := fun t : State => Closes (.message r false) (exec (.mpost r) s)
         { env with dev := t.settleQueue die env.ctx.p.rxid, ctx := { env.ctx with rxGen := env.ctx.rxGen + 1 }, w := env.w.writeS r.d.toNat v.handle }
       ((∀ h ∈ s.searchList die, v.accepts h.msg = false) → end_ t) ∧
       (∀ h, red = none → (s.searchList die).find? (fun h => v.accepts h.msg) = some h → end_ (t.take v h)) ∧
       (red ≠ none → end_ (t.search die k (s.searchList die))))) ∧
  (∀ (s : State) (die k : Nat) (h : Held) (hs : List Held), s.search die k [] = s ∧ s.search die k (h :: hs) =
    (match s.receives.find? (fun (r : Receive) => r.die = die && r.entry = k) with
      | some r => if r.open_ = true ∧ r.accepts h.msg = true then s.take r h else s
      | none => s).search die k hs) ∧
  (∀ (r : RRR) (s : State) (env : Env) (l : Launch), let b := (env.s r.b).toNat
    Admitted (.asend r) (asendOpts r) s env → b < 2 ^ 25 → natBits b 19 18 = 0 → natBits b 15 8 = 0xFF → env.blockNum < 2 ^ 24 →
    env.ctx.launch? env.w.q = some l → b % 256 < l.handlers.length →
    env.acquiring = false → ∃ e z m, Closes (asendOpts r) (exec (.asend r) s) e ∧ e.dev.sending = s.sending ++ [z] ∧ z.active = some m ∧ z.pkg = 0xFF ∧
      z.die = (widDie env.w.wid + natBits b 17 16) % 4 ∧ m.handler = b % 256 ∧
      m.words = (List.range (natBits b 24 20 + 1)).map (fun k => env.w.readV (r.a.toNat + k % 4) (k / 4)) ∧
      e.w.park = none ∧ e.w.vregs = env.w.vregs) ∧
  (∀ (r : RRR) (s : State) (env : Env), Admitted (.asend r) (asendOpts r) s env → env.acquiring = true →
    exec (.asend r) s = .next (holdIssue env (.retrySources [])))

/-- GEN makes the threads of P producers and the others wait at the consumer body; YLD appends the values of P to the filling frame;
GDONE retires its producers; GTAKE and GTAKE.ln owe each thread its entry of the frame and write whether it has one; GNEXT
counts arrivals. In the wrong mode of a region, outside one, or in a handler, each is GEN_STATE. (R34, R222, R223, R226, R316.) -/
def Obligations.GeneratorInstructions : Prop :=
  (∀ r, Settles (.gen r) .plain (fun env => env.e.mask = env.w.live ∧ env.w.region = none ∧ env.w.mode = .program)
    (fun env => { env.setRegion { producers := env.p, saved := [], frame0 := [], frame1 := [], filling := 0, drain := none, arrived := 0,
                                  cons := env.e.pc + BitVec.ofInt 57 (8 * r.off.toInt), tpri := r.tpri, next := [], due := false } with
      out := env.e.mask &&& ~~~env.p })) ∧
  (∀ r g, Settles (.yld r) .plain (fun env => env.w.region = some g ∧ env.w.mode = .program ∧ g.drain = none)
    (fun env => env.setRegion (g.append (env.p.lanes.map (fun t => (env.v r.a t, t)))))) ∧
  (∀ r g, Settles (.gdone r) .plain (fun env => env.w.region = some g ∧ env.w.mode = .program ∧ g.drain = none)
    (fun env => { env.setRegion { g with producers := g.producers &&& ~~~env.p } with out := env.p })) ∧
  (∀ r g k, Settles (.gtake r) .plain (fun env => env.w.region = some g ∧ env.w.mode = .program ∧ g.drain = some k)
    (fun env => (env.p.lanes.foldl (fun (e : Env) t => ({ e with
        w := e.w.markDest (e.destV r.d.toNat t)
        ctx := e.ctx.owe e.id e.w.uid (e.destV r.d.toNat t) (((g.frame k)[t]?.map (fun q => q.1)).getD 0) none } : Env).bump) env).setP r.b
      (fun t => t < (g.frame k).length))) ∧
  (∀ r g k, Settles (.gtakeLn r) .plain (fun env => env.w.region = some g ∧ env.w.mode = .program ∧ g.drain = some k)
    (fun env => (env.p.lanes.foldl (fun (e : Env) t => ({ e with
        w := e.w.markDest (e.destV r.d.toNat t)
        ctx := e.ctx.owe e.id e.w.uid (e.destV r.d.toNat t) (((g.frame k)[t]?.map (fun q => BitVec.ofNat 64 q.2)).getD 0) none } : Env).bump)
      env).setP r.b (fun t => t < (g.frame k).length))) ∧
  (∀ r g k, Settles (.gnext r) .plain (fun env => env.w.region = some g ∧ env.w.mode = .program ∧ g.drain = some k)
    (fun env => { env.setRegion { g with arrived := g.arrived ||| env.p, next := env.p.lanes.foldl (fun m t => smPut 0 m t (env.e.pc + 8)) g.next } with out := env.p })) ∧
  (∀ r, Traps (.yld r) .plain (fun env => env.w.region = none ∨ env.w.mode ≠ .program ∨ ∃ g, env.w.region = some g ∧ g.drain ≠ none)
    (fun env => { cause := .genState, tval := env.word, mask := env.e.mask })) ∧
  (∀ r, Traps (.gdone r) .plain (fun env => env.w.region = none ∨ env.w.mode ≠ .program ∨ ∃ g, env.w.region = some g ∧ g.drain ≠ none)
    (fun env => { cause := .genState, tval := env.word, mask := env.e.mask })) ∧
  (∀ r, Traps (.gtake r) .plain (fun env => env.w.region = none ∨ env.w.mode ≠ .program ∨ ∃ g, env.w.region = some g ∧ g.drain = none)
    (fun env => { cause := .genState, tval := env.word, mask := env.e.mask })) ∧
  (∀ r, Traps (.gtakeLn r) .plain (fun env => env.w.region = none ∨ env.w.mode ≠ .program ∨ ∃ g, env.w.region = some g ∧ g.drain = none)
    (fun env => { cause := .genState, tval := env.word, mask := env.e.mask })) ∧
  (∀ r, Traps (.gnext r) .plain (fun env => env.w.region = none ∨ env.w.mode ≠ .program ∨ ∃ g, env.w.region = some g ∧ g.drain = none)
    (fun env => { cause := .genState, tval := env.word, mask := env.e.mask })) ∧
  (∀ r, Traps (.gen r) .plain (fun env => env.w.region ≠ none ∨ env.e.mask ≠ env.w.live ∨ env.w.mode ≠ .program)
    (fun env => { cause := .genState, tval := env.word, mask := env.e.mask }))

/-- HADD, HMUL, HFMA, BHADD, BHMUL and BHFMA compute four 16-bit elements with round to nearest even; BARW stores its words and
arrives at barrier 15; LDTEX loads the clamped texel of each thread. A body that its old rules forbid is ILLEGAL_OPC for each of
the eight; BARW whose barrier has another count open is PEWTER_COUNT and leaves no store. That firmware enters, works and leaves
within the issue, or that the warp stops in firmware mode for the instructions of the handler, is log entry 45. The order of
causes and that leaving of no store are log entry 29, the alignment of LDTEX's header at 8 is log entry 30, and that +0 + +0
under RDN is −0 is log entry 53, a reading of R69. (R34, R69, R99, R100, R101.) -/
def Obligations.RetiredInstructions : Prop :=
  (∀ r, Emulates (.hadd r) .retiredHadd r .plain t5Binary (fun _ => True) (fun env => env.setV r.d (fun t => packElems 16 ((List.range 4).map (fun k =>
    (Fmt.encode .half (Val.sum [(Fmt.val' .half (env.v r.a t) k), (Fmt.val' .half (env.v r.b t) k)] .rne) .rne false 0).getD 0))))) ∧
  (∀ r, Emulates (.hmul r) .retiredHmul r .plain t5Binary (fun _ => True) (fun env => env.setV r.d (fun t => packElems 16 ((List.range 4).map (fun k =>
    (Fmt.encode .half (Val.mul (Fmt.val' .half (env.v r.a t) k) (Fmt.val' .half (env.v r.b t) k)) .rne false 0).getD 0))))) ∧
  (∀ r, Emulates (.hfma r) .retiredHfma r .plain t5Ternary (fun _ => True) (fun env => env.setV r.d (fun t => packElems 16 ((List.range 4).map (fun k =>
    (Fmt.encode .half (fmaVal false false .rne (Fmt.val' .half (env.v r.a t) k) (Fmt.val' .half (env.v r.b t) k) (Fmt.val' .half (env.v r.c t) k)) .rne false 0).getD 0))))) ∧
  (∀ r, Emulates (.bhadd r) .retiredBhadd r .plain t5Binary (fun _ => True) (fun env => env.setV r.d (fun t => packElems 16 ((List.range 4).map (fun k =>
    (Fmt.encode .brain (Val.sum [(Fmt.val' .brain (env.v r.a t) k), (Fmt.val' .brain (env.v r.b t) k)] .rne) .rne false 0).getD 0))))) ∧
  (∀ r, Emulates (.bhmul r) .retiredBhmul r .plain t5Binary (fun _ => True) (fun env => env.setV r.d (fun t => packElems 16 ((List.range 4).map (fun k =>
    (Fmt.encode .brain (Val.mul (Fmt.val' .brain (env.v r.a t) k) (Fmt.val' .brain (env.v r.b t) k)) .rne false 0).getD 0))))) ∧
  (∀ r, Emulates (.bhfma r) .retiredBhfma r .plain t5Ternary (fun _ => True) (fun env => env.setV r.d (fun t => packElems 16 ((List.range 4).map (fun k =>
    (Fmt.encode .brain (fmaVal false false .rne (Fmt.val' .brain (env.v r.a t) k) (Fmt.val' .brain (env.v r.b t) k) (Fmt.val' .brain (env.v r.c t) k)) .rne false 0).getD 0))))) ∧
  (∀ (r : RRR) (s : State) (env e : Env) (b b' : Block), let pl : Plan :=
      { space := .global, uniA := 0, runs := fun t => [{ pos := (env.v r.a t).toNat * 8, len := 64 }]
        base := fun t => (env.v r.a t).toNat, align := 8, read := false, write := true, packed := false, off := 0 }
    openIssue (.barw r) (wordOf (.barw r)) s = some env → env.staysInFirmware = false → env.w.firmware = false →
    env.t5Check r [src .D .vec, src .A .vec] = none → env.spin = false → env.p ≠ 0 →
    env.checkPlan pl = none → env.absentLines pl = [] →
    env.blk = some b → b.barrClash 15 0 = false →
    (((env.enterFirmware .retiredBarw).touchPlan pl).addLanes .plain pl env.p.lanes (fun _ t => .store (env.v r.d t).toNat)).releaseAt 2 = some e → e.blk = some b' →
    Closes .resets (exec (.barw r) s) (({ e.parkOn (.barr b'.id 15) with ctx := e.ctx.arriveBarr b' 15 0 e.w.uid e.dev.cycle e.id } : Env).bump)) ∧
  (∀ (r : RRR) (s : State) (env : Env), let head : Plan :=
      { space := .global, uniA := env.s r.b, runs := fun _ => [{ pos := (env.s r.b).toNat * 8, len := 128 }], base := fun _ => (env.s r.b).toNat
        align := 8, read := true, write := false, packed := false, off := 0 }
    let h := env.popped head env.p.low
    let texel : Env → Plan := fun e =>
      { space := .global, uniA := 0, base := fun t => ((natBits h 63 0 + 4 * (min (natBits (e.v r.a t).toNat 63 32) (natBits h 127 96 - 1) *
          natBits h 95 64 + min (natBits (e.v r.a t).toNat 31 0) (natBits h 95 64 - 1))) % 2 ^ 64 : Nat)
        runs := fun t => [{ pos := (((natBits h 63 0 + 4 * (min (natBits (e.v r.a t).toNat 63 32) (natBits h 127 96 - 1) *
          natBits h 95 64 + min (natBits (e.v r.a t).toNat 31 0) (natBits h 95 64 - 1))) % 2 ^ 64 : Nat) : Int) * 8, len := 32 }]
        align := 4, read := true, write := false, packed := false, off := 0 }
    let e := ((env.enterFirmware .retiredLdtex).touchPlan head).keepRead head
    let e' := (e.touchPlan (texel e)).keepRead (texel e)
    openIssue (.ldtex r) (wordOf (.ldtex r)) s = some env → env.staysInFirmware = false → env.w.firmware = false →
    env.t5Check r [dst .D .vec, src .A .vec, src .B .uni] = none → env.spin = false →
    env.p ≠ 0 → env.checkPlan head = none → env.readNow head = none → natBits h 95 64 ≠ 0 → natBits h 127 96 ≠ 0 → natBits h 63 0 % 4 = 0 →
    e.checkPlan (texel e) = none → e.readNow (texel e) = none →
    Closes .plain (exec (.ldtex r) s) (e'.setV r.d (fun t => BitVec.ofNat 64 (e'.popped (texel e) t)))) ∧
  (∀ (r : RRR) (s : State) (env : Env), (openIssue (.barw r) (wordOf (.barw r)) s = some env → env.staysInFirmware = true →
      exec (.barw r) s = .next ({ env with w := (env.enterFirmware .retiredBarw).w.inFirmware } : Env).commit) ∧
    (openIssue (.ldtex r) (wordOf (.ldtex r)) s = some env → env.staysInFirmware = true →
      exec (.ldtex r) s = .next ({ env with w := (env.enterFirmware .retiredLdtex).w.inFirmware } : Env).commit)) ∧
  (∀ (r : RRR) (s : State) (env : Env), openIssue (.hadd r) (wordOf (.hadd r)) s = some env → env.staysInFirmware = false → env.w.firmware = false →
    env.spin = false → env.t5Bad r t5Binary = true →
    exec (.hadd r) s = .next (takeTrap (env.enterFirmware .retiredHadd) { cause := .illegalOpc, tval := env.word, mask := env.e.mask })) ∧
  (∀ (r : RRR) (s : State) (env : Env), openIssue (.hmul r) (wordOf (.hmul r)) s = some env → env.staysInFirmware = false → env.w.firmware = false →
    env.spin = false → env.t5Bad r t5Binary = true →
    exec (.hmul r) s = .next (takeTrap (env.enterFirmware .retiredHmul) { cause := .illegalOpc, tval := env.word, mask := env.e.mask })) ∧
  (∀ (r : RRR) (s : State) (env : Env), openIssue (.hfma r) (wordOf (.hfma r)) s = some env → env.staysInFirmware = false → env.w.firmware = false →
    env.spin = false → env.t5Bad r t5Ternary = true →
    exec (.hfma r) s = .next (takeTrap (env.enterFirmware .retiredHfma) { cause := .illegalOpc, tval := env.word, mask := env.e.mask })) ∧
  (∀ (r : RRR) (s : State) (env : Env), openIssue (.bhadd r) (wordOf (.bhadd r)) s = some env → env.staysInFirmware = false → env.w.firmware = false →
    env.spin = false → env.t5Bad r t5Binary = true →
    exec (.bhadd r) s = .next (takeTrap (env.enterFirmware .retiredBhadd) { cause := .illegalOpc, tval := env.word, mask := env.e.mask })) ∧
  (∀ (r : RRR) (s : State) (env : Env), openIssue (.bhmul r) (wordOf (.bhmul r)) s = some env → env.staysInFirmware = false → env.w.firmware = false →
    env.spin = false → env.t5Bad r t5Binary = true →
    exec (.bhmul r) s = .next (takeTrap (env.enterFirmware .retiredBhmul) { cause := .illegalOpc, tval := env.word, mask := env.e.mask })) ∧
  (∀ (r : RRR) (s : State) (env : Env), openIssue (.bhfma r) (wordOf (.bhfma r)) s = some env → env.staysInFirmware = false → env.w.firmware = false →
    env.spin = false → env.t5Bad r t5Ternary = true →
    exec (.bhfma r) s = .next (takeTrap (env.enterFirmware .retiredBhfma) { cause := .illegalOpc, tval := env.word, mask := env.e.mask })) ∧
  (∀ (r : RRR) (s : State) (env : Env), openIssue (.barw r) (wordOf (.barw r)) s = some env → env.staysInFirmware = false → env.w.firmware = false →
    env.spin = false → env.t5Bad r [src .D .vec, src .A .vec] = true →
    exec (.barw r) s = .next (takeTrap (env.enterFirmware .retiredBarw) { cause := .illegalOpc, tval := env.word, mask := env.e.mask })) ∧
  (∀ (r : RRR) (s : State) (env : Env), openIssue (.ldtex r) (wordOf (.ldtex r)) s = some env → env.staysInFirmware = false → env.w.firmware = false →
    env.spin = false → env.t5Bad r [dst .D .vec, src .A .vec, src .B .uni] = true →
    exec (.ldtex r) s = .next (takeTrap (env.enterFirmware .retiredLdtex) { cause := .illegalOpc, tval := env.word, mask := env.e.mask })) ∧
  (∀ (r : RRR) (s : State) (env : Env) (b : Block), let pl : Plan :=
      { space := .global, uniA := 0, runs := fun t => [{ pos := (env.v r.a t).toNat * 8, len := 64 }]
        base := fun t => (env.v r.a t).toNat, align := 8, read := false, write := true, packed := false, off := 0 }
    openIssue (.barw r) (wordOf (.barw r)) s = some env → env.staysInFirmware = false → env.w.firmware = false →
    env.t5Check r [src .D .vec, src .A .vec] = none → env.spin = false → env.p ≠ 0 →
    env.checkPlan pl = none → env.absentLines pl = [] → env.blk = some b → b.barrClash 15 0 = true →
    exec (.barw r) s = .next (takeTrap (env.enterFirmware .retiredBarw) { cause := .pewterCount, tval := 0, mask := env.e.mask }))

/-- FAIRNESS_GRANT starts the grant earned and clears FC, where R40 does both in the issue that earns it (log entry 19); GRANT_END
drops the marks; SPIN_WATCHDOG traps in place of the issue; WJOIN_EXPIRE releases its threads with 0; NAP_END frees its warp;
RGROW_GRANT grants the oldest request that fits; a TWAIT or SQWAIT ends with ones and an acquire where its condition holds and
every earlier load and result has returned, and with zeros where its bound is over; FENCE_COMPLETE passes the threads that stood
at it to PC + 8, where NAP_END moves none (log entry 54), with its acquire, the marks of its release (log entry 16), its status,
or its trap. A TWAIT tests its word where its address stands then (log entry 97). (R40, R41, R43, R44, R47, R116, R175, R178,
R193, R324.) -/
def Obligations.EventsOfWarps : Prop :=
  (∀ c u, OnWarp (.fairnessGrant c u) c u (fun _ x w => x.prog = true ∧ w.grantDue ≠ 0 ∧ w.mode = .program)
    (fun s x w => s.setCtx (x.setWarp { w with grantLeft := w.grantDue, grantDue := 0, fc := 0 }))) ∧
  (∀ c u, OnWarp (.grantEnd c u) c u (fun _ _ w => w.grantLeft = 0 ∧ w.grantDue = 0 ∧ w.mode = .program ∧ ∃ e ∈ w.frontier, e.granted = true)
    (fun s x w => s.setCtx (x.setWarp { w with frontier := w.frontier.map (fun e => { e with granted := false }) }))) ∧
  (∀ s env, openIssue .spinWatchdog 0 s = some env → env.spin = true →
    exec .spinWatchdog s = .next (takeTrap env env.spinTrap) ∧ env.spinTrap.cause = .spinWatchdog) ∧
  (∀ c u pc j, OnWarp (.wjoinExpire c u pc) c u (fun _ x w => x.runs w = true ∧
      w.wjoins.find? (fun j => j.pc = pc && j.here w && j.left = 0) = some j)
    (fun s x w => s.setCtx (x.setWarp (w.releaseJoin j false)))) ∧
  (∀ c u, OnWarp (.napEnd c u) c u (fun _ x w => x.runs w = true ∧ w.park = some (.nap 0))
    (fun s x w => s.setCtx (x.setWarp { w with park := none }))) ∧
  (∀ c part d m act w, OnCtx (.rgrowGrant c part) c (fun _ x =>
      oldestWarp ((x.inPart part).filter (fun w => w.asks.isSome)) = some w ∧ w.park = some (.rgrow d m act) ∧ x.runs w = true ∧
      x.regsUsed part + m ≤ 384 + w.nregs)
    (fun s x => s.setCtx (x.setWarp { w.setPred d.toNat act (BitVec.allOnes 32) with park := none, nregs := m }))) ∧
  (∀ c u d va m scope n act p, OnWarp (.waitConditionMet c u) c u (fun s x w => x.runs w = true ∧
      w.park = some (.twait d va m scope n act) ∧ x.waitWord s w va = some p ∧ s.bad (p.pos / 8) 8 = false ∧
      BitVec.ofNat 64 (readBytes s.mem (p.pos / 8) 8) &&& m = m ∧ x.acquireReady u s.nextId = true ∧
      (∀ b ∈ s.flying x, b.shields w.uid (widCoreNo w.wid) s.nextId false [p] = false))
    (fun s x w => (s.sawWord x w va).acquireWith (x.setWarp
      { w.setPred d.toNat act (BitVec.allOnes 32) with park := none }) (widCoreNo w.wid) scope)) ∧
  (∀ c u d cl ch t scope n act k, OnWarp (.waitConditionMet c u) c u (fun s x w => x.runs w = true ∧
      w.park = some (.sqwait d cl ch t scope n act) ∧ x.chan? cl ch = some k ∧ reached k.done t = true ∧
      x.acquireReady u s.nextId = true)
    (fun s x w => s.acquireWith (x.setWarp { w.setPred d.toNat act (BitVec.allOnes 32) with park := none }) (widCoreNo w.wid) scope)) ∧
  (∀ c u d va m scope act, OnWarp (.waitExpire c u) c u (fun s x w => x.runs w = true ∧
      w.park = some (.twait d va m scope 0 act) ∧
      (∀ p, x.waitWord s w va = some p → s.bad (p.pos / 8) 8 = true ∨ BitVec.ofNat 64 (readBytes s.mem (p.pos / 8) 8) &&& m ≠ m))
    (fun s x w => (s.sawWord x w va).setCtx (x.setWarp { w.setPred d.toNat act 0 with park := none }))) ∧
  (∀ c u d cl ch t scope act k, OnWarp (.waitExpire c u) c u (fun _ x w => x.runs w = true ∧
      w.park = some (.sqwait d cl ch t scope 0 act) ∧ x.chan? cl ch = some k ∧ reached k.done t = false)
    (fun s x w => s.setCtx (x.setWarp { w.setPred d.toNat act 0 with park := none }))) ∧
  (∀ c u acq rel ms scope d upTo pc act, OnWarp (.fenceComplete c u) c u (fun s x w =>
      w.park = some (.fence acq rel ms scope d upTo pc act) ∧ x.runs w = true ∧ x.fenceReady w acq rel scope upTo = true ∧
      (rel = true → s.foreignDue x (widCoreNo w.wid) scope upTo = false) ∧
      (w.mtrap = true → ¬(rel = true ∧ 6 ≤ scope)) ∧ (w.remFail ≠ none → ¬(rel = true ∧ 5 ≤ scope)))
    (fun s x w =>
      let v := w.passFence pc act
      let y := if rel then x.markReleased w.uid (widCoreNo w.wid) scope upTo else x
      let y := if acq then y.raise (widCoreNo w.wid) scope else y
      (if acq then s.acquire (widCoreNo w.wid) scope else s).setCtx (y.setWarp
        (if ms then { v.writeS d.toNat w.mstat with mstat := 0 } else v)))) ∧
  (∀ c u acq ms scope d upTo pc act, OnWarp (.fenceComplete c u) c u (fun s x w =>
      w.park = some (.fence acq true ms scope d upTo pc act) ∧ x.runs w = true ∧ x.fenceReady w acq true scope upTo = true ∧
      s.foreignDue x (widCoreNo w.wid) scope upTo = false ∧
      w.mtrap = true ∧ 6 ≤ scope)
    (fun s x w =>
      let y := x.markReleased w.uid (widCoreNo w.wid) scope upTo
      (if acq then s.acquire (widCoreNo w.wid) scope else s).fenceTrap (if acq then y.raise (widCoreNo w.wid) scope else y) { w with mtrap := false } pc act .mcastFail w.mstat)) ∧
  (∀ c u acq ms scope d upTo pc act a, OnWarp (.fenceComplete c u) c u (fun s x w =>
      w.park = some (.fence acq true ms scope d upTo pc act) ∧ x.runs w = true ∧ x.fenceReady w acq true scope upTo = true ∧
      s.foreignDue x (widCoreNo w.wid) scope upTo = false ∧
      (w.mtrap = true → scope < 6) ∧ w.remFail = some a ∧ 5 ≤ scope)
    (fun s x w =>
      let y := x.markReleased w.uid (widCoreNo w.wid) scope upTo
      (if acq then s.acquire (widCoreNo w.wid) scope else s).fenceTrap (if acq then y.raise (widCoreNo w.wid) scope else y) { w with remFail := none } pc act .remoteError
      (BitVec.ofNat 64 a)))

/-- A failed remote access leaves the list and reports to the driver: a multicast member sets its MSTAT bit, a store marks the warp,
and a read owes a result in error; an acquire is made all the same (R290). A member that answers is performed. BSYNC_RELEASE and
BARR_RELEASE let every participant go on once the signal is there, whose wait at that barrier a handler may have set aside, an
acquire first waiting for its earlier loads and results; BCAST_ARRIVE writes the value and raises the generation in every die,
behind those that arrive before it, and the receives that wait take the last value of the cycle. (R211, R212, R213, R214, R228,
R290, R324, R335.) -/
def Obligations.EventsOfAccessesAndPewter : Prop :=
  (∀ c id a m home tr od data, OnCtx (.remoteAccessFail c id) c (fun _ x => x.accesses.find? (fun b => b.id = id) = some a ∧
      x.inOrder a = true ∧ a.kind = .member m home tr od data)
    (fun s x =>
      let z := a.acquired { s with driverLog := s.driverLog ++ [a.addr] } { x.releaseOf a with accesses := (x.releaseOf a).accesses.filter (fun b => b.id ≠ a.id) }
      z.1.setCtx { z.2 with warps := z.2.warps.map (fun (w : Warp) => if w.uid = a.uid then
        { w with mstat := w.mstat ||| BitVec.ofNat 64 (2 ^ m), mtrap := w.mtrap || tr } else w) })) ∧
  (∀ c id a data, OnCtx (.remoteAccessFail c id) c (fun _ x => x.accesses.find? (fun b => b.id = id) = some a ∧
      x.inOrder a = true ∧ a.remote = true ∧ a.kind = .store data)
    (fun s x =>
      let z := a.acquired { s with driverLog := s.driverLog ++ [a.addr] } { x.releaseOf a with accesses := (x.releaseOf a).accesses.filter (fun b => b.id ≠ a.id) }
      z.1.setCtx { z.2 with warps := z.2.warps.map (fun (w : Warp) => if w.uid = a.uid && w.remFail.isNone then { w with remFail := some a.addr.toNat } else w) })) ∧
  (∀ c id a d bytes sx keep, OnCtx (.remoteAccessFail c id) c (fun _ x => x.accesses.find? (fun b => b.id = id) = some a ∧
      x.inOrder a = true ∧ a.remote = true ∧ a.kind = .load d none bytes sx keep)
    (fun s x =>
      let z := a.acquired { s with driverLog := s.driverLog ++ [a.addr] } { x.releaseOf a with accesses := (x.releaseOf a).accesses.filter (fun b => b.id ≠ a.id) }
      { z.1 with nextId := z.1.nextId + 512 }.setCtx (z.2.owe (z.1.nextId + d.reg) a.uid d 0
        (some { addr := a.addr, remote := true, keys := [] })))) ∧
  (∀ c id a m home tr od data, OnCtx (.mcastMemberTimeout c id m true) c (fun _ x => x.accesses.find? (fun b => b.id = id) = some a ∧
      x.inOrder a = true ∧ a.kind = .member m home tr od data) (fun s _ => goAccess s c id false)) ∧
  (∀ c id a m home tr od data, OnCtx (.mcastMemberTimeout c id m false) c (fun _ x => x.accesses.find? (fun b => b.id = id) = some a ∧
      x.inOrder a = true ∧ a.kind = .member m home tr od data)
    (fun s x =>
      let z := a.acquired { s with driverLog := s.driverLog ++ [a.addr] } { x.releaseOf a with accesses := (x.releaseOf a).accesses.filter (fun b => b.id ≠ a.id) }
      z.1.setCtx { z.2 with warps := z.2.warps.map (fun (w : Warp) => if w.uid = a.uid then
        { w with mstat := w.mstat ||| BitVec.ofNat 64 (2 ^ m), mtrap := w.mtrap || tr } else w) })) ∧
  (∀ c die ch k, OnCtx (.bsyncRelease c die ch) c (fun s x => x.active = true ∧
      x.closings.find? (fun k => k.ch = ch && k.dies.contains die && k.at_ ≤ s.cycle) = some k)
    (fun s x => k.warps.foldl (fun s u => s.passBarrier c u (Park.atBsync ch (barScope k.pkg))) (s.setCtx { x with closings := x.closings.filter (fun y => y ≠ k) }))) ∧
  (∀ c blk id b q, OnCtx (.barrRelease c blk id) c (fun _ x => x.active = true ∧ x.block? blk = some b ∧
      b.barrs.find? (fun q => 16 ≤ q.1 && q.1 % 16 = id) = some q)
    (fun s x => q.2.arrived.foldl (fun s u => s.passBarrier c u (Park.atBarr blk id))
      (s.setCtx (x.setBlock { b with barrs := b.barrs.filter (fun y => y.1 ≠ q.1) })))) ∧
  (∀ (s : State) c u (x : Context) (w : Warp) ch, s.ctx? c = some x → x.warp? u = some w →
    let after := fun (acq : Bool) (sc : Nat) => if acq = true ∧ x.acquireReady u s.nextId = false
      then some (Park.fence true false false sc 0 s.nextId 0 0) else none
    let t := fun (acq : Bool) (sc : Nat) (v : Warp) => if acq then s.acquireWith (x.setWarp v) (widCoreNo w.wid) sc else s.setCtx (x.setWarp v)
    (∀ acq sc, (∀ v k, w.saved = some v → v.park = some k → k.atBsync ch sc = false) → w.park = some (.bsync ch acq sc) →
      s.passBarrier c u (Park.atBsync ch sc) = t acq sc { w with park := after acq sc }) ∧
    (∀ acq sc v, w.saved = some v → v.park = some (.bsync ch acq sc) →
      s.passBarrier c u (Park.atBsync ch sc) = t acq sc { w with saved := some { v with park := after acq sc } }) ∧
    (∀ blk id, (∀ v k, w.saved = some v → v.park = some k → k.atBarr blk id = false) → w.park = some (.barr blk id) →
      s.passBarrier c u (Park.atBarr blk id) = t true 2 { w with park := after true 2 }) ∧
    (∀ blk id v, w.saved = some v → v.park = some (.barr blk id) →
      s.passBarrier c u (Park.atBarr blk id) = t true 2 { w with saved := some { v with park := after true 2 } }) ∧
    (∀ n acq sc m, n ≠ ch ∨ sc ≠ m → w.saved = none → w.park = some (.bsync n acq sc) → s.passBarrier c u (Park.atBsync ch m) = s)) ∧
  (∀ c id b, OnCtx (.bcastArrive c id) c (fun s x => x.bcasts.find? (fun b => b.id = id && b.at_ ≤ s.cycle) = some b ∧ x.active = true ∧
      ∀ y ∈ x.bcasts, y.before b = false)
    (fun s x =>
      let y := { x with
        bcasts := x.bcasts.filter (fun y => y.id ≠ id)
        bcValue := b.dies.foldl (fun m d => smPut 0 m (d * 16 + b.ch) b.value) x.bcValue
        bcGen := b.dies.foldl (fun m d => smPut 0 m (d * 16 + b.ch) (smGet 0 m (d * 16 + b.ch) + 1)) x.bcGen }
      let more := fun d : Nat => y.bcasts.any (fun z => z.ch = b.ch && z.dies.contains d && z.at_ ≤ s.cycle)
      let us := (y.warps.filter (fun w => b.dies.contains (widDie w.wid) && !more (widDie w.wid))).map (fun w => w.uid)
      { s with nextId := s.nextId + us.foldl max 0 + 1 }.setCtx (us.foldl (fun x u => match x.warp? u with
        | some w => x.takeBcast w b.ch (s.nextId + u)
        | none => x) y))) ∧
  (∀ (x : Context) (w : Warp) ch d r id, w.recvs = (ch, d) :: r → smGet 0 w.bcSeen ch < smGet 0 x.bcGen (widDie w.wid * 16 + ch) →
    x.takeBcast w ch id = (x.setWarp { w with bcSeen := smPut 0 w.bcSeen ch (smGet 0 x.bcGen (widDie w.wid * 16 + ch)), recvs := r }).owe id
      w.uid d (smGet 0 x.bcValue (widDie w.wid * 16 + ch)) none)

/-- JPOST_ACCEPT hands the posted card on and owes its sequence number; CHAIN_CARD_ACCEPT takes the next owned card and writes its
SEQ, or ends the walk; CARD_START and LOOP_ITERATION_START start an iteration, each source word of which is read once, then or
as its elements are carried out; CARD_LINE_WRITTEN, CARD_CHUNK_DONE and CARD_COMPLETE carry out items, the last two once the HBM
stacks of the words that they write are ready; one whose iteration fails its tests first carries out the iterations before it
and ends with 6; a card ends with its STATUS, and one of an ended launch with 5. What a chain card may not hold (log entry 87),
the order of the elements of one event (log entry 95) and when a source word is read (log entry 3) are the model's. MMA_COMPLETE
forms every element chunk by chunk from the operands and the tile, clears ZERO and ends the operation; ASTO_COMPLETE writes
every element rounded into the window's format; ALDR_COMPLETE fills the tile from the window; AMOVV_READOUT packs the elements
of each lane's row into D and frees the warp. The sign of a chunk and of a sum is log entry 66, and an operand that cannot be
read is a free value (log entries 5, 17); +0 + +0 under RDN is −0 by a reading of R69 (log entry 53). (R69, R75, R182, R187,
R188, R189, R190, R202, R203, R205, R206, R207.) -/
def Obligations.EventsOfCardsAndTheMatrixEngine : Prop :=
  (∀ c cl ch p, OnCtx (.jpostAccept c cl ch) c (fun _ x => x.posted.find? (fun p => p.card.cl = cl && p.card.ch = ch) = some p ∧ x.active = true)
    (fun s x => { s with nextId := s.nextId + 2 }.setCtx ({ x with
      posted := x.posted.filter (fun y => y.prod ≠ p.prod), cards := x.cards ++ [{ p.card with id := s.nextId }] }.owe (s.nextId + 1) p.uid
        { uniform := true, reg := p.d.toNat, lane := 0, prod := p.prod, allocGen := 0 } (BitVec.ofNat 64 p.card.seq) none))) ∧
  (∀ (env : Env) (p : Post) (n : Channel), (env.postCard p n).seq = n.nextSeq ∧ (env.postCard p n).addr = n.ring + n.nextSlot * 128 ∧
    (env.postCard p n).bmap = p.bmap.toNat ∧ (env.postCard p n).status = 0 ∧ (env.postCard p n).started = false) ∧
  (∀ c cl ch (n : Channel) a (s : State) (x : Context), s.ctx? c = some x → x.chan? cl ch = some n → n.walking = some a → x.active = true →
    let e : Seat := { die := cl / 64, cl := cl, core := n.chainCore, spBase := n.chainSp.1, spSize := n.chainSp.2 }
    (∃ v, (engRead s x e 0 0 (a * 8) 1024).2 = .ok v) →
    let t := touchLeaf s x (tlbCluster cl) a false
    ((cardWord t x e a 0).testBit 63 = false → exec (.chainCardAccept c cl ch) s = .next (t.setCtx (x.setChan { n with walking := none }))) ∧
    ((cardWord t x e a 0).testBit 63 = true →
      let k := chainCard t x n e a s.nextId
      let k := if chainWordsOk t x e a k then k else { k with status := 6 }
      let nx := natBits (cardWord t x e a 0) 56 7 * 128
      let y := (x.clearLines (k.sramLines x)).setChan { n with
        walking := if nx = 0 then none else some nx, nextSeq := (n.nextSeq + 1) % 2 ^ 32 }
      exec (.chainCardAccept c cl ch) s = .next ({ engStore t x e (a + 12) 4 n.nextSeq with nextId := s.nextId + 1 }.setCtx
        { y with cards := y.cards ++ [k] }))) ∧
  (∀ c id k l, OnCtx (.cardStart c id) c (fun _ x => x.card? id = some k ∧ x.active = true ∧ k.started = false ∧ k.status = 0 ∧
      x.blocked k.cl k.id (k.hulls x 0) = false ∧ x.launch? k.q = some l ∧ l.ended ≠ none)
    (fun s x => s.setCtx (x.setCard { k with status := 5 }))) ∧
  (∀ c id k, OnCtx (.cardStart c id) c (fun _ x => x.card? id = some k ∧ x.active = true ∧ k.started = false ∧ k.status = 0 ∧
      x.blocked k.cl k.id (k.hulls x 0) = false ∧ (∀ l, x.launch? k.q = some l → l.ended = none) ∧ k.fits x 0 = false)
    (fun s x => s.setCtx (x.setCard { k with status := 6 }))) ∧
  (∀ c id k v, OnCtx (.cardStart c id) c (fun s x => x.card? id = some k ∧ x.active = true ∧ k.started = false ∧ k.status = 0 ∧
      x.blocked k.cl k.id (k.hulls x 0) = false ∧ (∀ l, x.launch? k.q = some l → l.ended = none) ∧ k.fits x 0 = true ∧
      (k.readAhead s x 0).2 = .ok v)
    (fun s x => (countWindow (touchWindow s x k.seat (k.src 0) false) x k.seat (k.dst 0) true).setCtx (x.setCard
      { (k.readAhead s x 0).1 with started := true, iter := 1, items := k.items ++ k.itemsOf 0 }))) ∧
  (∀ c id k v, OnCtx (.loopIterationStart c id) c (fun s x => x.card? id = some k ∧ x.active = true ∧ k.started = true ∧
      k.cancelled = false ∧ k.going = true ∧ k.iter < k.iters ∧ k.outstanding.length < k.perm ∧
      (∀ j ∈ k.outstanding, ∀ a ∈ k.regs x j, ∀ b ∈ k.regs x k.iter, a.conflicts b = false) ∧ k.fits x k.iter = true ∧
      (k.readAhead s x k.iter).2 = .ok v)
    (fun s x => (countWindow (touchWindow s x k.seat (k.src k.iter) false) x k.seat (k.dst k.iter) true).setCtx (x.setCard
      { (k.readAhead s x k.iter).1 with started := true, iter := k.iter + 1, items := k.items ++ k.itemsOf k.iter }))) ∧
  (∀ (s : State) (x : Context) (k : Card) j n, k.word s x j n = match k.seen.find? (fun w => w.1 = j && w.2.1 = n) with
    | some w => (k, w.2.2, .ok 0)
    | none => let r := engRead s x k.seat (k.src j).space (k.src j).place (n * 64) 64
      match r.2 with
      | .ok _ => ({ k with seen := (j, n, r.1) :: k.seen }, r.1, .ok 0)
      | h => (k, 0, h)) ∧
  (∀ c id line k v, OnCtx (.cardLineWritten c id line) c (fun s x => x.card? id = some k ∧ x.active = true ∧ k.started = true ∧
      k.going = true ∧ (k.dst 0).space = 1 ∧ keySram x.id k.core k.spBase / 128 + line ∈ k.sramLines x ∧
      (k.runRange s x (line * 128) (line * 128 + 127)).hit = .ok v)
    (fun s x => let z := k.runRange s x (line * 128) (line * 128 + 127)
      let y := z.ctx.setCard z.card
      z.dev.setCtx (if k.mayWrite (line * 128) (line * 128 + 127) then y else y.setLines [keySram x.id k.core k.spBase / 128 + line]))) ∧
  (∀ c id line k, OnCtx (.cardLineWritten c id line) c (fun _ x => x.card? id = some k ∧ ¬keySram x.id k.core k.spBase / 128 + line ∈ k.sramLines x)
    (fun s _ => s)) ∧
  (∀ c id n k v, OnCtx (.cardChunkDone c id n) c (fun s x => x.card? id = some k ∧ x.active = true ∧ k.started = true ∧
      (k.bmap = 0 ∨ engWaits s x k.seat (k.bitmapAt n) = false) ∧
      k.going = true ∧ (k.runRange s x (k.chunkAt n) (k.chunkAt n + 511)).hit = .ok v ∧
      k.mayWrite (k.chunkAt n) (k.chunkAt n + 511) = false)
    (fun s x => let z := k.runRange s x (k.chunkAt n) (k.chunkAt n + 511)
      let q := z.card.endChunk z.dev z.ctx n
      q.1.setCtx (z.ctx.setCard q.2))) ∧
  (∀ c id k, OnCtx (.cardComplete c id) c (fun s x => x.card? id = some k ∧ x.active = true ∧ k.endWaits s x = false ∧ k.going = false ∧ k.status ≠ 6)
    (fun s x => k.finish s x k.status)) ∧
  (∀ c id k, OnCtx (.cardComplete c id) c (fun s x => x.card? id = some k ∧ x.active = true ∧ k.endWaits s x = false ∧ k.status = 6 ∧ (k.run s x (fun _ => true)).hit ≠ .wait)
    (fun s x => let z := k.run s x (fun _ => true)
      z.card.finish z.dev z.ctx 6)) ∧
  (∀ c id k j r, OnCtx (.cardComplete c id) c (fun s x => x.card? id = some k ∧ x.active = true ∧ k.endWaits s x = false ∧ k.going = true ∧ k.started = true ∧
      k.iter < k.iters ∧ k.cancelled = false ∧ k.outstanding = j :: r)
    (fun s x => let z := k.run s x (fun i => i.iter = j)
      z.dev.setCtx (z.ctx.setCard z.card))) ∧
  (∀ c id k v, OnCtx (.cardComplete c id) c (fun s x => x.card? id = some k ∧ x.active = true ∧ k.endWaits s x = false ∧ k.going = true ∧ k.started = true ∧
      (k.iters ≤ k.iter ∨ k.cancelled = true) ∧ (k.run s x (fun _ => true)).hit = .ok v)
    (fun s x => let z := k.run s x (fun _ => true)
      z.card.finish z.dev z.ctx (if z.card.cancelled then 5 else if z.card.status = 7 then 7 else 1))) ∧
  (∀ c id o t, OnCtx (.mmaComplete c id) c (fun s x => x.engOps.find? (fun o => o.id = id) = some o ∧ o.tile = some t ∧ x.active = true ∧
      x.isOut o.blk = false ∧ o.op ≤ 1 ∧ x.headOp o = true ∧ x.blocked o.cl o.id (o.regs x) = false ∧
      (∀ v ∈ [(operand s x o.seat (windowOf o.da o.fa 0) 0).2, (operand s x o.seat (windowOf o.db o.fb 0)
        ((windowOf o.da o.fa 0).rows * (windowOf o.da o.fa 0).cols)).2], v ≠ .wait))
    (fun s x =>
      let wa := windowOf o.da o.fa 0
      let wb := windowOf o.db o.fb 0
      let ra := operand s x o.seat wa 0
      let rb := operand s x o.seat wb (wa.rows * wa.cols)
      let chunk := if max wa.f.width wb.f.width ≤ 4 then 64 else 32
      let row : Nat → List (Val × Bool) := fun i => (ra.1.getD i []).map (fun q => (wa.f.valueOf q.2 q.1, wa.f.signBit q.1))
      let col : Nat → List Val := fun c => if o.bt || o.op = 1 then (rb.1.getD c []).map (fun q => wb.f.valueOf q.2 q.1)
        else rb.1.map (fun r => wb.f.valueOf (r.getD c (0, 0)).2 (r.getD c (0, 0)).1)
      let elem := fun i c => mmaElem (Fmt.ofWord t.af) chunk (x.accCode t (x.zeroOf o) i c) (row i) (col c) (wa.cols / chunk)
      let bad := (List.range t.m).any (fun i => (List.range t.n).any (fun c => (elem i c).2))
      let y := ((x.setTile t (fun i c => (elem i c).1)).setFlags o false (fun e => e || bad)).endOp o
      { touchWindow (touchWindow (noteOperand (noteOperand s x o o.da wa) x o o.db wb) x o.seat wa false) x o.seat wb false with
        freeCount := s.freeCount + wa.rows * wa.cols + wb.rows * wb.cols }.setCtx y.flush)) ∧
  (∀ f chunk prior a b, mmaElem f chunk prior a b 0 = (prior, false)) ∧
  (∀ f chunk prior a b n, let r := mmaElem f chunk prior a b n
    let t := f.encodeEngine (Val.sum (List.zipWith (fun p q => Val.mul p.1 q) ((a.drop (n * chunk)).take chunk) ((b.drop (n * chunk)).take chunk))
      f.engineRm) f.engineRm ((((a.drop (n * chunk)).take chunk).headD (Val.zero false, false)).2)
    (mmaElem f chunk prior a b (n + 1)).1 = (f.encodeEngine (Val.sum [f.decode r.1, f.decode t.1] f.engineRm) f.engineRm (f.signBit r.1)).1) ∧
  (∀ c id o t v, OnCtx (.astoComplete c id) c (fun s x => x.engOps.find? (fun o => o.id = id) = some o ∧ o.tile = some t ∧ x.active = true ∧
      x.isOut o.blk = false ∧ o.op = 3 ∧ x.headOp o = true ∧ x.quietBefore o = true ∧ x.astoFirst s o = false ∧
      x.holdsWindow s o.seat (windowOf o.da o.fa 0) = false ∧
      (let w := windowOf o.da o.fa 0
       (engWriteAll s x o.seat w.space w.place (w.cells.map (fun q =>
        { pos := w.elem q.1 q.2, len := w.f.width, v := (x.readOut t (x.zeroOf o) w.f q.1 q.2).1 }))).2.2 = .ok v))
    (fun s x =>
      let w := windowOf o.da o.fa 0
      let z := engWriteAll s x o.seat w.space w.place (w.cells.map (fun q =>
        { pos := w.elem q.1 q.2, len := w.f.width, v := (x.readOut t (x.zeroOf o) w.f q.1 q.2).1 }))
      let y := x.setLines (w.sramLines x o.seat)
      (touchWindow z.1 x o.seat w true).setCtx ((y.setFlags o (x.zeroOf o) (fun e => e || w.cells.any (fun q =>
        (x.readOut t (x.zeroOf o) w.f q.1 q.2).2))).endOp o).flush)) ∧
  (∀ c id o t v, OnCtx (.aldrComplete c id) c (fun s x => x.engOps.find? (fun o => o.id = id) = some o ∧ o.tile = some t ∧ x.active = true ∧
      x.isOut o.blk = false ∧ o.op = 2 ∧ x.headOp o = true ∧ x.quietBefore o = true ∧
      (operand s x o.seat (windowOf o.da o.fa 0) 0).2 = .ok v)
    (fun s x =>
      let w := windowOf o.da o.fa 0
      let f := Fmt.ofWord t.af
      let r := operand s x o.seat w 0
      let elem := fun i c => f.encodeEngine (w.f.decode ((r.1.getD i []).getD c (0, 0)).1) f.engineRm
        (w.f.signBit ((r.1.getD i []).getD c (0, 0)).1)
      let bad := (List.range t.m).any (fun i => (List.range t.n).any (fun c => (elem i c).2))
      { touchWindow (noteOperand s x o o.da w) x o.seat w false with freeCount := s.freeCount + w.rows * w.cols }.setCtx
        (((x.setTile t (fun i c => (elem i c).1)).setFlags o false (fun e => e || bad)).endOp o).flush)) ∧
  (∀ c u d h k fw r0 c0 p id t, OnWarp (.amovvReadout c u) c u (fun _ x w => w.park = some (.readout d h k fw r0 c0 p id) ∧
      (w.acc h).tile = some t ∧ x.active = true ∧ x.isOut w.blk = false)
    (fun s x w => s.setCtx (x.setWarp { ((List.range k).foldl (fun v j => v.writeLanes (d.toNat + j) p (fun l =>
      packElems (Fmt.ofWord fw).width ((List.range (Fmt.ofWord fw).elems).map (fun i =>
        (x.readOut t (w.acc h).zero (Fmt.ofWord fw) (r0 + l) (c0 + j * (Fmt.ofWord fw).elems + i)).1)))) w) with park := none }))) ∧
  (∀ x t zero f i c, Context.readOut x t zero f i c = f.encodeEngine ((Fmt.ofWord t.af).decode (x.accCode t zero i c)) f.engineRm
    ((Fmt.ofWord t.af).signBit (x.accCode t zero i c)))

/-- RESERVATION_GRANT gives the oldest request one reservation, and reads the piece of a message that it sends; MSEND_COMPLETE frees
the warp; MESSAGE_MATCH gives a message to the oldest receive that accepts it, to the queue, or to its slots, and discards one
of an absent receive context, which the driver is told (log entry 25); PIECE_LAND takes a piece from its slot, which returns to
its source, and lands a message with the last; a contribution without staging room waits; ACTIVE_MESSAGE_DELIVER starts the
handler block, discards a message without a target, or leaves one that must wait; LANDFAULT_ENTRY_FREE frees the entry. (R216,
R218, R221, R309, R325, R326, R329, R330, R331, R332, R333.) -/
def Obligations.EventsOfMessages : Prop :=
  (∀ (s : State) (z : Sending),
    let up : State := { s with sending := s.sending.map (fun (y : Sending) => if y.id = z.id then { y with granted := y.granted + 1 } else y) }
    let t : State := { up with held := s.held.map (fun (h : Held) =>
      if h.id = z.id then { h with arrived := h.arrived + 1, landed := if h.queued then h.landed + 1 else h.landed } else h) }
    (z.pkg ≠ 0xFF → s.grant z = up.tidySends) ∧ (z.pkg = 0xFF → z.matched = false → s.grant z = up.takeSlots z.die 0xFF 1) ∧
    (z.pkg = 0xFF → z.matched = true → s.grant z =
      (if s.held.any (fun h => h.id = z.id && !h.queued) then t.takeSlots z.die 0xFF 1 else t).tidySends)) ∧
  (∀ (s : State) pkg die (z : Sending), s.grantable pkg die = true →
    s.sending.find? (fun z => z.pkg = pkg && z.die = die && z.granted < z.pieces && !s.setAside z) = some z →
    (z.msg = none → exec (.reservationGrant pkg die) s = .next (s.grant z)) ∧
    (∀ m x t m', z.msg = some m → s.ctx? z.ctx = some x → s.readPiece x z m = some (t, m') →
      exec (.reservationGrant pkg die) s = .next ((t.putMsg z.id m').grant z)) ∧
    (∀ m x, z.msg = some m → s.ctx? z.ctx = some x → s.readPiece x z m = none → exec (.reservationGrant pkg die) s = .next s)) ∧
  (∀ (s : State) pkg die, s.grantable pkg die = false → exec (.reservationGrant pkg die) s = .next s) ∧
  (∀ (s : State) die, s.grantable 0xFF die = true ↔ s.rdy.getLsbD (32 + die) = true ∧ s.slotsOf die 0xFF < 16) ∧
  (∀ (s : State) (x : Context) (z : Sending) (m : Msg) (t : State) (m' : Msg) i, s.readPiece x z m = some (t, m') →
    let w := windowOf z.td z.slot 0
    let q := w.payloadRuns.getD i (0, 0)
    let r := rawRun s x (z.seat x m) w q.1 q.2
    m.codes.length = w.rows * w.cols → m.codes.length + m.heads.length = w.payloadRuns.length → i < m.codes.length →
    (w.space ≠ 0 → t.mem = s.mem) ∧ (runPiece m i ≠ z.granted → m'.codes.getD i 0 = m.codes.getD i 0 % 2 ^ m.width) ∧
      (runPiece m i = z.granted → ∀ v, r.2.2 = .ok v → m'.codes.getD i 0 = r.2.1 % 2 ^ m.width)) ∧
  (∀ (m : Msg) i, i < m.codes.length → runPiece m i = (if m.blk then (i / 32 + 1) * 64 + i * m.width else i * m.width) / 32768) ∧
  (∀ (s : State) die src n, (s.takeSlots die src n).slotsUsed = smPut 0 s.slotsUsed (die * 256 + src % 256) (s.slotsOf die src + n) ∧
    (s.returnSlots die src n).slotsUsed = smPut 0 s.slotsUsed (die * 256 + src % 256) (s.slotsOf die src - n)) ∧
  (∀ c u z, OnWarp (.msendComplete c u) c u (fun s x w => x.active = true ∧ w.park = some (.send z.id) ∧
      s.sending.find? (fun y => z.id = y.id && y.granted = y.pieces) = some z)
    (fun s x w => (s.setCtx (x.setWarp { w with park := none })).tidySends)) ∧
  (∀ (s : State) die id (z : Sending) m x, s.rdy.getLsbD (32 + die) = true →
    s.sending.find? (fun z => z.id = id && z.pkg = 0xFF && z.die = die && !z.matched && 1 ≤ z.granted) = some z → z.msg = some m →
    (∀ y ∈ s.sending, y.ctx = z.ctx → y.uid = z.uid → y.pkg = 0xFF → y.die = die → y.msg ≠ none → y.matched = false → z.id ≤ y.id) →
    s.stuck die 0xFF = false → s.inTurn die m = true → s.rxCtx die m.rxid = some x →
    exec (.messageMatch die (.own id)) s = .next
      (({ s with sending := s.sending.map (fun (y : Sending) => if y.id = id then { y with matched := true } else y) }.metFirst die m).meet
        { id := id, die := die, msg := m, pieces := z.pieces, arrived := z.granted, landed := 0, queued := false
          landfault := false, receive := none }).tidySends) ∧
  (∀ (s : State) die id (z : Sending) m, s.rdy.getLsbD (32 + die) = true →
    s.sending.find? (fun z => z.id = id && z.pkg = 0xFF && z.die = die && !z.matched && 1 ≤ z.granted) = some z → z.msg = some m →
    (∀ y ∈ s.sending, y.ctx = z.ctx → y.uid = z.uid → y.pkg = 0xFF → y.die = die → y.msg ≠ none → y.matched = false → z.id ≤ y.id) →
    s.stuck die 0xFF = false → s.inTurn die m = true → s.rxCtx die m.rxid = none →
    exec (.messageMatch die (.own id)) s = .next { (({ s with
      sending := s.sending.map (fun (y : Sending) => if y.id = id then { y with matched := true, granted := y.pieces } else y) }.metFirst
        die m).returnSlots die 0xFF z.granted) with driverLog := s.driverLog ++ [BitVec.ofNat 64 id] }.tidySends) ∧
  (∀ (s : State) die m x, s.rdy.getLsbD (32 + die) = true → m.srcPkg < 0x80 → s.pod ≠ none → s.stuck die m.srcPkg = false →
    s.slotsOf die m.srcPkg < 16 → s.inTurn die m = true → s.rxCtx die m.rxid = some x →
    exec (.messageMatch die (.remote m)) s = .next (({ (s.metFirst die m) with nextId := s.nextId + 1 }.takeSlots die m.srcPkg 1).meet
      { id := s.nextId, die := die, msg := m, pieces := msgPieces m, arrived := 1, landed := 0, queued := false
        landfault := false, receive := none })) ∧
  (∀ (s : State) (h : Held) (r : Receive), s.receives.find? (fun r => r.open_ && r.die = h.die && r.accepts h.msg) = some r →
    s.meet h = s.take r h) ∧
  (∀ (s : State) (h : Held), (∀ r ∈ s.receives, r.open_ = true → r.die = h.die → r.accepts h.msg = false) →
    s.meet h = if s.queueRoom h.die h.msg then s.enqueue h else { s with held := s.held ++ [h] }) ∧
  (∀ (s : State) die id (h : Held) q (r : Receive) x, s.held.find? (fun h => h.id = id && h.die = die) = some h → h.receive = some q →
    s.receives.find? (fun r => r.die = q.1 && r.entry = q.2) = some r → s.ctx? r.ctx = some x → s.rdy.getLsbD (32 + die) = true →
    r.mayLand x = true → r.red = none → h.landed < h.arrived →
    let h' := { h with landed := h.landed + 1 }
    let t := { s with held := s.held.map (fun (y : Held) => if y.id = id then h' else y) }.returnSlots die h.msg.srcPkg 1
    exec (.pieceLand die id) s = .next (if h.landed + 1 < h.pieces then t.nextPiece h' else landOne t x r h')) ∧
  (∀ (s : State) die id (h : Held) q (r : Receive) x, s.held.find? (fun h => h.id = id && h.die = die) = some h → h.receive = some q →
    s.receives.find? (fun r => r.die = q.1 && r.entry = q.2) = some r → s.ctx? r.ctx = some x → s.rdy.getLsbD (32 + die) = true →
    r.mayLand x = true → s.redReady r = false → r.red ≠ none → s.stageRoom x r h = false → exec (.pieceLand die id) s = .next (s.nextPiece h)) ∧
  (∀ (s : State) (h : Held), s.nextPiece h = if h.msg.srcPkg = 0xFF ∨ h.pieces ≤ h.arrived ∨ 16 ≤ s.slotsOf h.die h.msg.srcPkg then s
    else { s with held := s.held.map (fun (y : Held) => if y.id = h.id then { y with arrived := y.arrived + 1 } else y) }.takeSlots h.die
      h.msg.srcPkg 1) ∧
  (∀ (s : State) die id (z : Sending) a, s.rdy.getLsbD (36 + die) = true →
    s.sending.find? (fun z => z.id = id && z.pkg = 0xFF && z.die = die && !z.matched && 1 ≤ z.granted) = some z → z.active = some a →
    (∀ y ∈ s.sending, y.ctx = z.ctx → y.uid = z.uid → y.pkg = 0xFF → y.die = die → y.active ≠ none → y.matched = false → z.id ≤ y.id) →
    (∀ t, s.deliverActive die a = some t →
      exec (.activeMessageDeliver die (.own id)) s = .next ({ t with sending := t.sending.map (fun (y : Sending) =>
        if y.id = id then { y with matched := true } else y) }.returnSlots die 0xFF z.granted).tidySends) ∧
    (s.deliverActive die a = none → exec (.activeMessageDeliver die (.own id)) s = .next s)) ∧
  (∀ (s : State) die a q x l p, a.q = some q → s.ctx? a.ctx = some x → activeTarget a x die = some l → x.state = .running →
    l.rcd.placeOne x (x.cores die) 1 0 = some p →
    s.deliverActive die a = some (startBlock (s.setCtx (x.setLaunch { l with msgCount := smPut 0 l.msgCount die (smGet 0 l.msgCount die + 1) }))
      x.id l (l.startHandler p die (smGet 0 l.msgCount die) a))) ∧
  (∀ (s : State) die a q, a.q = some q → (∀ x, s.ctx? a.ctx = some x → activeTarget a x die = none) →
    s.deliverActive die a = some { s with driverLog := s.driverLog ++ [BitVec.ofNat 64 a.src.toNat] }) ∧
  (∀ (s : State) die id (h : Held), s.held.find? (fun h => h.die = die && h.id = id && h.landfault) = some h →
    exec (.landfaultEntryFree die id) s = .next ({ s with held := s.held.filter (fun y => y.id ≠ id) }.settleQueue die h.msg.rxid))

/-- HOST_DOORBELL makes the host's writes before the doorbell (log entry 74), all of it once the stacks that they go to are ready,
submits a record of a free slot and ignores a doorbell of a busy slot, whose record is undefined, its bytes free values, where
the host has written another there before it is taken (log entry 35); LAUNCH_ACCEPT accepts the oldest record or refuses it with
its cause, a word and an answer; BLOCK_ADMIT admits the next share whole; STAGE_BLOCK_DISPATCH takes the items at the head of a
queue; CORE_REASSIGN moves a core by R302; LAUNCH_KILL ends a launch with cause KILLED and halts its warps at once (log entry
22); LAUNCH_COMPLETE writes the completion word once no block, item or card of the launch is left: R295 speaks of its last
block, so that the cards are waited for is a reading (log entry 73). (R227, R287, R292, R293, R294, R295, R297, R300, R302,
R344, R345, R356.) -/
def Obligations.EventsOfLaunches : Prop :=
  (∀ c slot bs, OnCtx (.hostDoorbell c slot ⟨bs, []⟩) c (fun _ x => slot < 16 ∧ bs.length = 128 ∧ x.busy.getLsbD slot = false)
    (fun s x => s.setCtx { x with busy := x.busy ||| BitVec.ofNat 16 (2 ^ slot), submitted := x.submitted ++ [.host slot bs] })) ∧
  (∀ c slot bs, OnCtx (.hostDoorbell c slot ⟨bs, []⟩) c (fun _ x => x.busy.getLsbD slot = true ∧ x.window slot = some bs) (fun s _ => s)) ∧
  (∀ c slot bs, OnCtx (.hostDoorbell c slot ⟨bs, []⟩) c (fun _ x => slot < 16 ∧ bs.length = 128 ∧ x.busy.getLsbD slot = true ∧
    x.window slot ≠ some bs) (fun s x => s.overwrite x slot)) ∧
  (∀ (s : State) c x k, s.ctx? c = some x → s.hostWrite c (.slot k) = if x.busy.getLsbD k then s.overwrite x k else s) ∧
  (∀ (s : State) c x k, s.ctx? c = some x → ∃ y, (s.overwrite x k).ctx? c = some y ∧ y.busy = x.busy ∧ y.submitted.length = x.submitted.length ∧
    (∀ b ∈ x.submitted, (∀ bs, b ≠ .host k bs) → b ∈ y.submitted) ∧
    (∀ bs, (.host k bs : Submitted) ∈ y.submitted → bs = (List.range 128).map (fun i => BitVec.ofNat 8 (Config.freeWord (s.freeCount + i)).toNat)) ∧
    (s.overwrite x k).freeCount = s.freeCount + 128 ∧ (s.overwrite x k).mem = s.mem) ∧
  (∀ c slot bs ws (s : State), exec (.hostDoorbell c slot ⟨bs, ws⟩) s =
    if ws.any s.hostWaits then .next s else exec (.hostDoorbell c slot ⟨bs, []⟩) (s.hostWrites c ws)) ∧
  (∀ c k b (s : State), keySpace k < 0x100 → s.reachable k = true → (s.hostWrites c [.byte k b]).mem = putByte s.mem k b) ∧
  (∀ c b bs r slots hs, OnCtx (.launchAccept c) c (fun s x => x.submitted = b :: bs ∧ x.active = true ∧
      s.rdy.getLsbD (36 + x.p.dies.headD 0) = true ∧ judge s x (b.record s x).1 (b.record s x).2 = .accepted r slots hs ∧ r.kind = false)
    (fun s x =>
      let t := touchRecord s x b (b.record s x).1 (b.record s x).2
      let y : Context := x.takeSubmission b t.nextId x.nextQ
      { t with nextId := t.nextId + 1 }.setCtx { y with
        launches := y.launches ++ [({ q := x.nextQ, rcd := r, slots := slots, handlers := hs, gens := [], waiting := r.shares x x.nextQ
                                      stageOf := r.firstStages x, stageCount := [], msgCount := [], ended := none } : Launch)]
        nextQ := (x.nextQ + 1) % 2 ^ 32 })) ∧
  (∀ c b bs k rv, OnCtx (.launchAccept c) c (fun s x => x.submitted = b :: bs ∧ x.active = true ∧
      s.rdy.getLsbD (36 + x.p.dies.headD 0) = true ∧ judge s x (b.record s x).1 (b.record s x).2 = .refused k rv ∧
      (b.record s x).2 ≠ .wait ∧
      ∀ a, (match (b.record s x).2 with | .ok _ => recCpl (b.record s x).1 | _ => none) = some a → unitBusy s x a = false)
    (fun s x => refuse ((touchRecord s x b (b.record s x).1 (b.record s x).2).revoke c rv) x b (match (b.record s x).2 with | .ok _ => recCpl (b.record s x).1 | _ => none) k)) ∧
  (∀ (s : State) (x : Context) raw hit, 256 ≤ x.launches.length → judge s x raw hit = .refused .launchFull []) ∧
  (∀ (s : State) (x : Context) raw v, x.launches.length < 256 → recOk raw = false → judge s x raw (.ok v) = .refused .launchRecord []) ∧
  (∀ c die l q ps, OnCtx (.blockAdmit c die) c (fun s x => x.state = .running ∧ s.rdy.getLsbD (36 + die) = true ∧ s.activeDue c die = false ∧
      x.nextLaunch die = some l ∧ l.waiting.find? (fun q => q.1 = die) = some q ∧ l.place x die q.2 = some ps)
    (fun s x => ps.foldl (fun s p => startBlock s c l (l.startGrid p)) (s.setCtx (x.setLaunch ({ l with waiting := l.waiting.erase q } : Launch))))) ∧
  (∀ c die k l p, OnCtx (.stageBlockDispatch c die k) c (fun s x => x.state = .running ∧ s.rdy.getLsbD (36 + die) = true ∧
      s.activeDue c die = false ∧ x.launches = [l] ∧ l.ended = none ∧ 0 < k ∧ k < l.stages ∧ die ∈ x.p.dies ∧
      (l.rcd.warps * l.rcd.lanes ≤ (x.queue l.q die k).length ∨ (1 ≤ (x.queue l.q die k).length ∧ x.drained l die k = true)) ∧
      l.rcd.placeOne x (x.coresOf l.stageOf die k) l.rcd.warps l.rcd.scr = some p)
    (fun s x =>
      let q := x.queue l.q die k
      let t := l.rcd.warps * l.rcd.lanes
      let n := smGet 0 l.stageCount (die * 4 + k)
      startBlock (s.setCtx ((x.setLaunch { l with stageCount := smPut 0 l.stageCount (die * 4 + k) (n + 1) }).setQueue l.q die k 0 (q.drop t)))
        c l (l.startStage p die k n (q.take t)))) ∧
  (∀ c core, OnCtx (.coreReassign c core) c (fun _ x => x.state = .running ∧ core ∈ x.cores (core / 128) ∧ core / 128 ∈ x.p.dies)
    (fun s x => s.setCtx { x with launches := x.launches.map (fun (l : Launch) =>
      if l.stages = 0 || l.ended.isSome || x.blocks.any (fun b => b.q = l.q && b.core = core) then l
      else { l with stageOf := smPut 0 l.stageOf core (l.newStage x core) }) })) ∧
  (∀ c q l, OnCtx (.launchComplete c q) c (fun s x => x.launch? q = some l ∧ l.ended = none ∧ l.over s x = true ∧ x.residue = false ∧
      x.accesses = [] ∧ l.rcd.cpl ≠ 0 ∧ unitBusy s x l.rcd.cpl = false)
    (fun s x => ((engStore s x x.launchSeat l.rcd.cpl 8 (completionWord false false 0 q)).setCtx { x with
      launches := x.launches.filter (fun y => y.q ≠ q), queues := x.queues.filter (fun k => k.q ≠ q) }).dropSides c)) ∧
  (∀ (l : Launch) (s : State) (x : Context), l.ended = none → (l.over s x = true ↔ l.waiting = [] ∧ (∀ b ∈ x.blocks, b.q ≠ l.q) ∧
    (∀ k ∈ x.queues, k.q = l.q → k.items = []) ∧ (∀ k ∈ x.cards, k.q ≠ l.q) ∧ (∀ p ∈ x.posted, p.card.q ≠ l.q) ∧
    ∀ n ∈ x.channels, n.walking ≠ none → n.chainQ ≠ l.q)) ∧
  (∀ c q, OnCtx (.launchKill c q) c (fun _ _ => True) (fun s x => s.setCtx (x.endLaunch q .killed)))

/-- A slice that expires with a resident block drains the context and dates the signal; PREEMPT_SIGNAL enters the handler;
FORCED_STOP halts a warp; the exchanges and rotations change the states of contexts; CONTEXT_CREATE adds a context and its
objects; DEMAND_PAGING writes the entries, once their stacks are ready, or marks the refusal; FETCH_FAULT_SWAP swaps the block
out, BLOCK_SWAP_IN back; a migration moves the page, or starts the count again where it meets an error (log entry 38);
TLB_SHOOTDOWN drops the entries once no access of any context is left on the page (log entry 37). What a refusal marks is log
entry 23, when a block swaps out and returns is 34. (R256, R264, R265, R266, R267, R304, R306, R308, R311, R312, R336, R356.) -/
def Obligations.EventsOfContextsAndPages : Prop :=
  (∀ c, OnCtx (.sliceExpire c) c (fun _ x => x.state = .running ∧ x.sliceLeft = 0 ∧ x.blocks ≠ [])
    (fun s x => s.setCtx { x with state := CtxState.draining, signalAt := some (s.cycle + pewterCycles (1 < x.p.dies.length)), forceAt := none
                                  unsignalled := (x.warps.filter (fun w => !x.isOut w.blk)).map (fun w => w.uid) })) ∧
  (∀ c, OnCtx (.sliceExpire c) c (fun _ x => x.state = .running ∧ x.sliceLeft = 0 ∧ x.blocks = [])
    (fun s x => s.setCtx { x with sliceLeft := x.newSlice })) ∧
  (∀ c u t, OnWarp (.preemptSignal c u) c u (fun s x w => x.state = .draining ∧ x.signalAt = some t ∧ t ≤ s.cycle ∧ w.uid ∈ x.unsignalled ∧
      w.halted = false ∧ ∀ d h k fw r0 c0 m id, w.park ≠ some (.readout d h k fw r0 c0 m id))
    (fun s x w => s.setCtx ({ x with unsignalled := x.unsignalled.filter (fun u => u ≠ w.uid) }.setWarp
      (if w.mode = Mode.program then (w.endGrow false).enterPreempt x.vector else { w.endGrow false with signal := true })))) ∧
  (∀ c u d h k fw r0 c0 m id, OnWarp (.preemptSignal c u) c u (fun _ _ w => w.park = some (.readout d h k fw r0 c0 m id)) (fun s _ _ => s)) ∧
  (∀ c u t, OnWarp (.forcedStop c u) c u (fun s x w => x.state = .draining ∧ x.forceAt = some t ∧ t ≤ s.wall ∧ w.halted = false)
    (fun s x w => s.setCtx (x.setWarp { w with halted := true }))) ∧
  (∀ c y, OnCtx (.contextIdleExchange c) c (fun s x => x.state = .running ∧ x.idle = true ∧ s.successor x = some y)
    (fun s x => s.setCtx { x with state := .exchanging })) ∧
  (∀ c, OnCtx (.contextExchange c) c (fun s x => x.state = .standby ∧ x.hasWork = true ∧ ∀ y ∈ s.peers x, y.holds = false)
    (fun s _ => resumeContext s c)) ∧
  (∀ c y, OnCtx (.contextExchange c) c (fun s x => (x.state = .draining ∨ x.state = .exchanging) ∧ x.stopped = true ∧ x.accesses = [] ∧
      x.owed = [] ∧ s.successor x = some y)
    (fun s x => resumeContext (s.setCtx { x with state := .standby, signalAt := none, forceAt := none, unsignalled := [] }) y.id)) ∧
  (∀ c, OnCtx (.contextExchange c) c (fun s x => (x.state = .draining ∨ x.state = .exchanging) ∧ x.stopped = true ∧ x.accesses = [] ∧
      x.owed = [] ∧ s.successor x = none)
    (fun s x => resumeContext (s.setCtx { x with state := .standby, signalAt := none, forceAt := none, unsignalled := [] }) c)) ∧
  (∀ (s : State) c x y, s.ctx? c = some x → (x.state = .draining ∨ x.state = .exchanging) → x.stopped = true → x.accesses = [] → x.owed = [] →
    s.successor x = some y → s.ctx? y.id = some y → ∃ t z, exec (.contextExchange c) s = .next t ∧ t.mem = s.mem ∧ y.id ≠ c ∧
      t.ctx? c = some { x with state := .standby, signalAt := none, forceAt := none, unsignalled := [] } ∧ t.ctx? y.id = some z ∧
      z = { y with state := .running, signalAt := none, forceAt := none, unsignalled := [], sliceLeft := y.newSlice, warps := z.warps } ∧
      z.warps.map (fun w => { w with gens := [], halted := false }) = y.warps.map (fun w => { w with gens := [], halted := false }) ∧
      (∀ w ∈ z.warps, (y.launch? w.q).all (fun l => l.ended.isNone) = true → w.halted = false) ∧
      ∀ d, d ≠ c → d ≠ y.id → t.ctx? d = s.ctx? d) ∧
  (∀ c, OnCtx (.contextExchange c) c (fun _ x => (x.state = .draining ∨ x.state = .exchanging) ∧ x.stopped = false) (fun s _ => s)) ∧
  (∀ (s : State) c x, s.ctx? c = some x → ∃ y, (resumeContext s c).ctx? c = some y ∧ y.state = .running ∧ y.sliceLeft = x.newSlice ∧
    y.signalAt = none ∧ y.launches = x.launches) ∧
  (∀ (s : State) p, paramsOk p = true → paramsFit p s = true → ∃ t x, exec (.contextCreate p) s = .next t ∧ t.ctxs = s.ctxs ++ [x] ∧
    t.nextCtx = s.nextCtx + 1 ∧ x.id = s.nextCtx ∧ x.p = p ∧ x.hw = p.hw ∧ x.ctx = 1 ∧ x.fairt = 0x1000 ∧ x.fairq = 0x100 ∧ x.nextQ = 1 ∧
    x.warps = [] ∧ x.launches = [] ∧ x.accesses = [] ∧ t.mem = s.mem) ∧
  (∀ (s : State) p, paramsOk p = false → exec (.contextCreate p) s = .next s) ∧
  (∀ c, OnCtx (.tenantRotation c true) c (fun s x => x.state = .inHbm ∧ (∀ y ∈ s.peers x, y.state ≠ .standby) ∧ waysFit x (s.peers x) = true)
    (fun s x => s.setCtx { x with state := .standby })) ∧
  (∀ c, OnCtx (.tenantRotation c false) c (fun _ x => x.state = .standby) (fun s x => s.setCtx { x with state := .inHbm })) ∧
  (∀ (s : State) c x, s.ctx? c = some x → x.hasWork = false → ∃ t, exec (.contextEnd c) s = .next t ∧ t.ctxs = s.ctxs.filter (fun y => y.id ≠ c) ∧
    t.mem = s.mem.filter (fun q => !keyOfCtx c q.1) ∧ t.objects = s.objects.filter (fun o => o.ctx ≠ c)) ∧
  (∀ c u va priv ptes, OnWarp (.demandPaging c u (.mapped ptes none)) c u (fun s _ w => w.park = some (.driver va priv) ∧ s.ptesReady ptes = true)
    (fun s x w => { s with mem := ptes.foldl (fun (m : Memory) (q : Nat × Word) => writeBytes m (keyHbm q.1) 8 q.2.toNat) s.mem }.setCtx
      (x.setWarp { w with park := none }))) ∧
  (∀ c u va priv ptes n, OnWarp (.demandPaging c u (.mapped ptes (some n))) c u (fun s _ w => w.park = some (.driver va priv) ∧ s.ptesReady ptes = true)
    (fun s x w => { s with mem := ptes.foldl (fun (m : Memory) (q : Nat × Word) => writeBytes m (keyHbm q.1) 8 q.2.toNat) s.mem }.setCtx
      ({ x with hw := if priv then min (2 ^ x.p.wsz) (max x.hw (n / 65536 * 65536)) else x.hw }.setWarp { w with park := none }))) ∧
  (∀ c u va, OnWarp (.demandPaging c u .refused) c u (fun _ _ w => w.park = some (.driver va false))
    (fun s x w => s.setCtx (x.setWarp { w with park := none, refused := va / 2 ^ 16 :: w.refused }))) ∧
  (∀ c u e b, OnWarp (.fetchFaultSwap c u) c u (fun s x w => selectEntry x.prog (w.opened x.prog) = some e ∧ x.block? w.blk = some b ∧
      x.runs w = true ∧ w.park = none ∧ (fetch s x w e).2 = .missing) (fun s _ w => swapOut s c b w.uid)) ∧
  (∀ c blk b u ptes hw, OnCtx (.blockSwapIn c blk (.mapped ptes hw)) c (fun s x => x.block? blk = some b ∧ b.swapped = some u ∧
      x.state = .running ∧ x.canReturn b = true ∧ s.ptesReady ptes = true)
    (fun s x => (moveBytes (s.setCtx ((x.setBlock { b with swapped := none }).rehome b.id b.spBase)) c (b.saveKey x) (b.sram x).1 b.spSize).writePtes ptes)) ∧
  (∀ c blk b u, OnCtx (.blockSwapIn c blk .refused) c (fun _ x => x.block? blk = some b ∧ b.swapped = some u ∧
      x.state = .running ∧ x.canReturn b = true)
    (fun s x => fetchTrap (moveBytes (s.setCtx ((x.setBlock { b with swapped := none }).rehome b.id b.spBase)) c (b.saveKey x) (b.sram x).1 b.spSize) c u .pageFault [] [])) ∧
  (∀ (s : State) die c va pfn x e level at_, s.ctx? c = some x → walkFrom s va 5 x.p.root = .leaf e level (some at_) →
    natBits e 59 58 = 3 → s.touched (leafKey s e level (va / 2 ^ pageBits level * 2 ^ pageBits level)) (2 ^ pageBits level) = false →
    2 ^ (4 + natBits e 57 55) ≤ (s.migs.filter (fun m => m.die = die && m.ctx = (if e.testBit 3 then none else some c) &&
      m.va / 2 ^ pageBits level = va / 2 ^ pageBits level)).foldl (fun k m => k + m.count) 0 →
    s.reachable (leafKey s e level (va / 2 ^ pageBits level * 2 ^ pageBits level)) = true → pfn * 2 ^ 16 % 2 ^ pageBits level = 0 →
    pfn * 2 ^ 16 + 2 ^ pageBits level ≤ Config.hbmBytes →
    s.badGranules (leafKey s e level (va / 2 ^ pageBits level * 2 ^ pageBits level)) (2 ^ pageBits level) = [] →
    s.rangeReady (pfn * 2 ^ 16) (2 ^ pageBits level) = true →
    ∃ t, exec (.pageMigration die c va pfn true) s = .next t ∧ t.tlb = s.tlb.filter (fun t => !t.covers c va) ∧ t.wcache = [] ∧
      t.mem = writeBytes (copyBytes s (leafKey s e level (va / 2 ^ pageBits level * 2 ^ pageBits level)) (keyHbm (pfn * 2 ^ 16))
          (2 ^ pageBits level)).mem (keyHbm at_) 8
        (spliceBits (spliceBits (spliceBits (spliceBits e 58 2 0) 55 3 0) 47 8 0xFF) 12 35 pfn)) ∧
  (∀ (s : State) die c va pfn x e level at_, s.ctx? c = some x → walkFrom s va 5 x.p.root = .leaf e level (some at_) →
    natBits e 59 58 = 3 → s.touched (leafKey s e level (va / 2 ^ pageBits level * 2 ^ pageBits level)) (2 ^ pageBits level) = false →
    2 ^ (4 + natBits e 57 55) ≤ (s.migs.filter (fun m => m.die = die && m.ctx = (if e.testBit 3 then none else some c) &&
      m.va / 2 ^ pageBits level = va / 2 ^ pageBits level)).foldl (fun k m => k + m.count) 0 →
    s.reachable (leafKey s e level (va / 2 ^ pageBits level * 2 ^ pageBits level)) = true → pfn * 2 ^ 16 % 2 ^ pageBits level = 0 →
    pfn * 2 ^ 16 + 2 ^ pageBits level ≤ Config.hbmBytes →
    s.badGranules (leafKey s e level (va / 2 ^ pageBits level * 2 ^ pageBits level)) (2 ^ pageBits level) ≠ [] →
    ∃ t, exec (.pageMigration die c va pfn true) s = .next t ∧ t.tlb = s.tlb ∧ t.mem = s.mem ∧
      t.driverLog = s.driverLog ++ [BitVec.ofNat 64 va] ∧ ∀ m ∈ t.migs, m.die = die → m.ctx = (if e.testBit 3 then none else some c) →
        m.va / 2 ^ pageBits level ≠ va / 2 ^ pageBits level) ∧
  (∀ (s : State) c va, s.pageInUse va = false →
    exec (.tlbShootdown c va) s = .next { s with tlb := s.tlb.filter (fun t => !t.covers c va), wcache := [] }) ∧
  (∀ (s : State) c va, s.pageInUse va = true → exec (.tlbShootdown c va) s = .next s)

/-- An error leaves its record to be appended at the end of the cycle (log entry 64; none while JRNL is 0, log entry 48; the chain
is SHA-256, log entry 12), and an uncorrectable one marks its register or granule; JAP rises only within the journal; a report
raises the index first; NFEAT is written only without an older context; ports train, die, which fails the accesses in flight
whose path they are and leaves memory and messages, and retrain; a recovery ends the job, restores, forgets the messages since
the checkpoint (log entry 105) and posts again, in steps of the driver (log entry 39), its records carrying zeros (log entry
76), and a later fault restarts it; a rise of FSV, directed by verified firmware of a version above it, takes effect with its
last fuse (log entry 72); RESET and POWER_LOSS keep the fuses, the journal and the index, check the firmware and copy the
capability table into memory that is else empty (log entry 41); the recovery loader accepts only a signed image (log entry 94);
a droop within its bounds stretches wall time, in tenths of a nanosecond (log entry 43), but counts no cycle. (R269, R321, R350,
R352, R353, R356, R357, R358, R359, R360, R361, R362.) -/
def Obligations.EventsOfThePackage : Prop :=
  (∀ (s : State) e, 1 ≤ e.unit.toNat → e.unit.toNat ≤ 7 →
    exec (.errorCorrected e) s = .next (s.record (srcWord 0x01 e.unit e.die e.cluster e.idx) e.loc)) ∧
  (∀ (s : State) e c w r, 1 ≤ e.unit.toNat → e.unit.toNat ≤ 7 → e.site = .sreg c w r →
    let t := s.record (srcWord (if e.consumed then 0x02 else 0x03) e.unit e.die e.cluster e.idx) e.loc
    exec (.uncorrectableError e) s = .next (t.onWarp c w (fun x w => if w.smark r = .full then t.setCtx (x.setWarp (w.markS r .regError)) else t))) ∧
  (∀ (s : State) e c w r l, 1 ≤ e.unit.toNat → e.unit.toNat ≤ 7 → e.site = .vreg c w r l →
    let t := s.record (srcWord (if e.consumed then 0x02 else 0x03) e.unit e.die e.cluster e.idx) e.loc
    exec (.uncorrectableError e) s = .next (t.onWarp c w (fun x w => if w.vmark r l = .full then t.setCtx (x.setWarp (w.markV r l .regError)) else t))) ∧
  (∀ (s : State) e c w k n, 1 ≤ e.unit.toNat → e.unit.toNat ≤ 7 → e.site = .reg c w k n → 2 ≤ k → k ≤ 5 →
    let t := s.record (srcWord (if e.consumed then 0x02 else 0x03) e.unit e.die e.cluster e.idx) e.loc
    exec (.uncorrectableError e) s = .next (t.onWarp c w (fun x w => if faultKey k n ∈ w.faults then t
      else t.setCtx (x.setWarp { w with faults := w.faults ++ [faultKey k n] })))) ∧
  (∀ (s : State) e k, 1 ≤ e.unit.toNat → e.unit.toNat ≤ 7 → e.site = .granule k → ∃ t, exec (.uncorrectableError e) s = .next t ∧
    t.mem = s.mem ∧ k / (if keySpace k < 0x100 then 32 else 16) * (if keySpace k < 0x100 then 32 else 16) * 64 +
      (if keySpace k < 0x100 then 32 else 16) ∈ t.poison) ∧
  (∀ (s : State) src loc, s.record src loc = if s.rdy.getLsbD 40 then { s with recBuf := s.recBuf ++ [(src, loc)] } else s) ∧
  (∀ (s : State) src loc, s.journalRoom = true → (s.jwp + 1) % 1024 ≠ 0 →
    let r : JRec := { seq := s.jwp, time := s.wall / 11, src := src, loc := loc, chain := [] }
    s.append src loc = { s with jwp := s.jwp + 1, chain := sha256 (s.lastChain ++ r.head)
                                journal := s.journal.filter (fun y => y.seq % 2 ^ 20 ≠ s.jwp % 2 ^ 20) ++
                                  [{ r with chain := sha256 (s.lastChain ++ r.head) }] }) ∧
  (∀ (s : State) src loc, s.journalRoom = false → s.append src loc = { s with jdrop := min (s.jdrop + 1) (2 ^ 32 - 1) }) ∧
  (∀ (s : State) v, s.jap ≤ v → v ≤ s.jwp → exec (.japWrite v) s = .next { s with jap := v }) ∧
  (∀ (s : State) v, v < s.jap ∨ s.jwp < v → exec (.japWrite v) s = .next s) ∧
  (∀ (s : State) n, s.sigIndex < 2 ^ 40 → exec (.attestationRequest n) s = .next
    { s with sigIndex := s.sigIndex + 1, reports := s.reports ++ [Config.attest s.sigIndex n] }) ∧
  (∀ (s : State) n, 2 ^ 40 ≤ s.sigIndex → exec (.attestationRequest n) s = .next s) ∧
  (∀ (s : State) v, (∀ x ∈ s.ctxs, x.born = s.cycle) → (v &&& Config.featOffered &&& 0xF).getLsbD 1 = true →
    exec (.nfeatWrite v) s = .next { s with nfeat := v &&& Config.featOffered &&& 0xF, pod := some (Config.podNumber % 128) }) ∧
  (∀ (s : State) v, (∀ x ∈ s.ctxs, x.born = s.cycle) → (v &&& Config.featOffered &&& 0xF).getLsbD 1 = false →
    ∃ t, exec (.nfeatWrite v) s = .next t ∧ t.nfeat = v &&& Config.featOffered &&& 0xF ∧ t.pod = none ∧ ∀ k < 16, t.portLive k = false) ∧
  (∀ (s : State) v x, x ∈ s.ctxs → x.born ≠ s.cycle → exec (.nfeatWrite v) s = .next s) ∧
  (∀ (s : State) k, k < 41 → k < 16 ∨ 32 ≤ k → exec (.functionReady k) s = .next { s with rdy := s.rdy ||| BitVec.ofNat 64 (2 ^ k) }) ∧
  (∀ (s : State) k, k < 16 → s.nfeat.getLsbD 1 = true → s.pod ≠ none → s.dead.getLsbD k = false →
    ∃ t, exec (.functionReady (16 + k)) s = .next t ∧ t = { s with rdy := s.rdy ||| BitVec.ofNat 64 (2 ^ (16 + k)) } ∧ t.portLive k = true) ∧
  (∀ (s : State) k, k < 16 → s.dead.getLsbD k = true → exec (.functionReady (16 + k)) s = .next s) ∧
  (∀ (s : State) k, k < 16 → s.nfeat.getLsbD 1 = false → exec (.functionReady (16 + k)) s = .next s) ∧
  (∀ (s : State) k, k < 16 → s.portLive k = true →
    exec (.portDead k) s = .next (let t := (s.record (srcWord 0x04 0x07 (BitVec.ofNat 8 (k / 4)) 0 (BitVec.ofNat 32 k)) 0).failPort k
      { t with rdy := t.rdy &&& ~~~(BitVec.ofNat 64 (2 ^ (16 + k))), dead := t.dead ||| BitVec.ofNat 16 (2 ^ k) })) ∧
  (∀ (s : State) k, (∀ x ∈ s.ctxs, ∀ a ∈ x.accesses, s.through k a = false) → s.failPort k = s) ∧
  (∀ (s : State) k x a, s.ctxs = [x] → x.accesses.filter (s.through k) = [a] → s.failPort k = if x.inOrder a then failAccess s x a else s) ∧
  (∀ (s : State) k, ((s.failPort k).mem, (s.failPort k).sending, (s.failPort k).held, (s.failPort k).actives, (s.failPort k).receives) =
    (s.mem, s.sending, s.held, s.actives, s.receives)) ∧
  (∀ (s : State) k a, s.through k a = true ↔ (match a.kind.home with
    | some h => h = 0x80 + k
    | none => ∃ p ∈ a.pieces, s.portOf (p.pos / 8) = some k)) ∧
  (∀ (s : State) n k, 0x81 ≤ keySpace n → keySpace n < 0x100 → (s.portOf n = some k ↔ k + 0x81 = keySpace n ∧ s.portLive k = true)) ∧
  (∀ (s : State) n k, 0 < keySpace n → keySpace n < 0x81 → s.portOf n = some k → s.portLive k = true) ∧
  (∀ (s : State) k, k < 16 → s.dead.getLsbD k = true → s.nfeat.getLsbD 1 = true → exec (.portRetrain k) s = .next
    { s with rdy := s.rdy ||| BitVec.ofNat 64 (2 ^ (16 + k)), dead := s.dead &&& ~~~(BitVec.ofNat 16 (2 ^ k)) }) ∧
  (∀ (s : State) r, r.fault = true ∨ s.recovering = false → exec (.fatalFaultRecovery r) s = .next
    { (s.record (srcWord 0x07 0x00 0 0 0) 0).endJob r with recovering := true, reposts := [] }) ∧
  (∀ (s : State) r x, r.fault = false → s.recovering = true → x ∈ s.ctxs → r.job.contains x.id = true → x.launches ≠ [] →
    exec (.fatalFaultRecovery r) s = .next (s.endJob r)) ∧
  (∀ (s : State) r, r.fault = false → s.recovering = true → (∀ x ∈ s.ctxs, r.job.contains x.id = true → x.launches = []) → s.reposts = [] → s.planReady r = true →
    exec (.fatalFaultRecovery r) s = .next { (s.takeOver r).restore r with reposts := r.repost }.postAll) ∧
  (∀ (s : State), s.reposts = [] → s.postAll = { s.record (srcWord 0x08 0x00 0 0 0) 0 with recovering := false }) ∧
  (∀ (s : State) r x, x ∈ s.ctxs → r.job.contains x.id = true → ∃ y ∈ (s.endJob r).ctxs, y.id = x.id ∧ y.submitted = [] ∧ y.busy = 0 ∧
    ∀ l ∈ y.launches, l.ended ≠ none) ∧
  (∀ (s : State) r, r.fault = false → s.recovering = true → (∀ x ∈ s.ctxs, r.job.contains x.id = true → x.launches = []) → s.planReady r = false →
    exec (.fatalFaultRecovery r) s = .next s) ∧
  (∀ (s : State) r (x : Context) (q : ContextSeed), x ∈ s.ctxs → r.seeds.find? (fun q => q.ctx = x.id) = some q → ∃ y ∈ (s.restore r).ctxs,
    y = { x with
      ctx := q.csr &&& 1, hw := min (q.hw / 65536 * 65536) (2 ^ x.p.wsz), rndseed := q.rndseed, nextQ := q.nextQ, rxGen := q.rxGen, fairt := q.fairt, fairq := q.fairq, wdog := q.wdog, gencfg := q.gencfg
      utvec := q.utvec, wawdrop := q.wawdrop, gtdrop := q.gtdrop, barGens := [], barCount := [], closings := [], bcasts := []
      bcValue := y.bcValue, bcGen := y.bcGen, channels := q.channels.map ChannelSeed.channel }) ∧
  (∀ (s : State) r (x : Context) (q : ContextSeed), s.ctx? q.ctx = some x → q ∈ r.seeds →
    (∀ z ∈ (s.restore r).sending, z.ctx = x.id → z.id < q.stamp) ∧
    (∀ h ∈ (s.restore r).held, h.msg.rxid = x.p.rxid → h.die ∈ x.p.dies → h.id < q.stamp) ∧
    (∀ v ∈ (s.restore r).receives, v.ctx = x.id → v.gen < q.rxGen)) ∧
  (∀ (s : State) v, s.fsv < v → s.fsvGoal < v → v ≤ 128 → s.loader = false → s.fw.verified = true → s.fsv < s.fw.security.toNat → exec (.fsvRaise v) s = .next { s with fsvGoal := v }) ∧
  (∀ (s : State) v, v ≤ s.fsv ∨ v ≤ s.fsvGoal ∨ 128 < v ∨ s.loader = true ∨ s.fw.verified = false ∨ s.fw.security.toNat ≤ s.fsv → exec (.fsvRaise v) s = .next s) ∧
  (∀ (s : State), s.fuses < s.fsvGoal → s.fuses < s.blowFuses.fuses ∧ s.blowFuses.fuses ≤ s.fsvGoal ∧
    s.blowFuses.fsv = if s.blowFuses.fuses = s.fsvGoal then s.fsvGoal else s.fsv) ∧
  (∀ i ∈ [Instr.reset, .powerLoss], ∀ (s : State), ∃ t, exec i s = .next t ∧ t.fsv = s.fuses ∧ t.fuses = s.fuses ∧
    t.journal = s.flushRecords.journal ∧ t.jwp = s.flushRecords.jwp ∧ t.jap = s.flushRecords.jap ∧ t.chain = s.flushRecords.chain ∧
    t.seals = s.flushRecords.seals ∧ t.sigIndex = s.flushRecords.sigIndex ∧ t.ctxs = [] ∧ t.rdy = 0 ∧ t.nfeat = State.reset.nfeat ∧
    t.jdrop = 0 ∧ t.tlb = [] ∧ t.loader = bootLoader bootImage s.fuses ∧ t.fw = bootImage ∧ t.capDone = true ∧
    t.mem = putBytes [] capPlace (capTable t.loader)) ∧
  (∀ (f : Firmware) (v : Nat), bootLoader f v = true ↔ f.verified = false ∨ f.security.toNat < v) ∧
  (∀ (s : State) c (f : Firmware), (s.loader = true → f.verified = true → s.fuses ≤ f.security.toNat →
      (s.hostWrite c (.image f)).loader = false ∧ (s.hostWrite c (.image f)).fw = f) ∧
    (s.loader = false ∨ f.verified = false ∨ f.security.toNat < s.fuses → s.hostWrite c (.image f) = s)) ∧
  (∀ (s : State) die n, die < 4 → n ≤ 10 →
    let old := s.droops.filter (fun q => s.cycle < q.1 + 1100)
    let add := n - (old.filter (fun q => q.1 = s.cycle)).foldl (fun n q => n + q.2) 0
    old.foldl (fun n q => n + q.2) add ≤ 330 → ∃ t, exec (.supplyDroop die n) s = .next t ∧ t.cycle = s.cycle ∧ t.wall = s.wall + add ∧
      t.mem = s.mem ∧ t.ctxs = s.ctxs.map (fun (x : Context) => if x.state = .running then { x with sliceLeft := x.sliceLeft - add } else x)) ∧
  (∀ (s : State) die n, 4 ≤ die ∨ 10 < n → exec (.supplyDroop die n) s = .next s)

/-- NOP has no effect and its threads go to PC + 8. BRA sends each thread in P to PC + 8 times the sign-extended offset at TPRI, and
the others to PC + 8. BRU.any branches where the guard of some active thread is true, BRU.all where that of every one is; then
every active thread goes to the target at TPRI, else to PC + 8: its threads always go to one place. With P empty each has no
effect. (R107, R108.) -/
def Obligations.NopAndBranchesSendTheirThreads : Prop :=
  (∀ r, Completes (.nop r) .plain id) ∧
  (∀ r, Completes (.bra r) .jump (fun env => env.send env.p (fun _ => env.e.pc + BitVec.ofInt 57 (8 * r.off.toInt)) r.tpri)) ∧
  (∀ r, Completes (.bruAny r) .jump (fun env => env.send env.e.mask (fun _ => env.e.pc + BitVec.ofInt 57 (8 * r.off.toInt)) r.tpri)) ∧
  (∀ r, Completes (.bruAll r) .jump (fun env =>
    if env.p = env.e.mask then env.send env.e.mask (fun _ => env.e.pc + BitVec.ofInt 57 (8 * r.off.toInt)) r.tpri else env)) ∧
  (∀ i opts s env, ((∃ r, i = .nop r ∧ opts = .plain) ∨ (∃ r, i = .bra r ∧ opts = .jump) ∨ (∃ r, i = .bruAny r ∧ opts = .jump) ∨
      (∃ r, i = .bruAll r ∧ opts = .jump)) → openIssue i (wordOf i) s = some env → precheck opts env = none → env.spin = false → env.p = 0 →
    env.e.mask ≠ 0 → Closes opts (exec i s) env) ∧
  (∀ (env : Env) pc pri t, t < 32 → (env.send env.e.mask (fun _ => pc) pri).moves = env.e.mask.lanes.map (fun t => (t, pc, pri)) ∧
    (env.moves = [] → env.dest t = (env.e.pri, env.next, false)) ∧
    (env.e.mask.has t = true → (env.send env.e.mask (fun _ => pc) pri).dest t = (pri, pc, false)))

/-- Entries merged into a frontier are ranked by priority, the higher first, and then by PC, the lower first. The top entry is the
first in that order that is neither parked nor demoted; where every entry that is not parked is demoted, it is the first of
those; there is none exactly where every entry is parked. (R31.) -/
def Obligations.FrontierOrder : Prop :=
  ∀ es : List Entry, let f := mergeEntries es
  f.Pairwise (fun a b => b.pri < a.pri ∨ (a.pri = b.pri ∧ a.pc ≤ b.pc)) ∧
  (∀ e, topEntry f = some e → ∃ l r, f = l ++ e :: r ∧ e.parked = false ∧
    ((e.demoted = false ∧ ∀ y ∈ l, y.parked = true ∨ y.demoted = true) ∨
     ((∀ y ∈ f, y.parked = false → y.demoted = true) ∧ ∀ y ∈ l, y.parked = true))) ∧
  (topEntry f = none ↔ ∀ y ∈ f, y.parked = true)

/-- Byte j of a value written at a is the value divided by 256 to the j; a value read at a has the byte at a + j in that place; bit
k of a packed stream from a bit position is bit (p mod 8) of byte (p div 8) for p the position plus k, both read and written.
(R3.) -/
def Obligations.MemoryIsLittleEndian : Prop :=
  (∀ m a n v j, j < n → memByte (writeBytes m a n v) (a + j) = BitVec.ofNat 8 (v / 256 ^ j)) ∧
  (∀ m a n j, j < n → readBytes m a n / 256 ^ j % 256 = (memByte m (a + j)).toNat) ∧
  (∀ m a n, readBytes m a n < 256 ^ n) ∧
  (∀ m pos len k, k < len → (readBits m pos len).testBit k = (memByte m ((pos + k) / 8)).getLsbD ((pos + k) % 8)) ∧
  (∀ m pos len v k, k < len → (memByte (writeBits m pos len v) ((pos + k) / 8)).getLsbD ((pos + k) % 8) = v.testBit k)

/-- With an empty agenda the first warp of the next partition, in ascending number within a cycle (log entry 1), fetches the word at
its entry, or in firmware mode ends the instruction that entered it (log entry 45); where it decodes to i and the warp issues,
the step is exec of i with that warp named, and the turn goes on; a word that is refused takes its trap as an issue; where the
warp only waits, the next candidate is tried. A fetch that traps delivers its cause. With no partition left the cycle ends; an
event at the head of the agenda is executed, and an instruction there is carried out in the place of a warp in firmware mode as
its partition issues for it, which takes the partition's issue of the cycle unless the warp must wait again (log entry 45), or,
where no such warp may issue, stands for the machine's own step (log entry 3). (R10, R32, R33, R96, R98, R265, R267, R268,
R303.) -/
def Obligations.StepRunsDecodedInstruction : Prop :=
  (∀ (s : State) p q r x w e t v i u, s.agenda = [] → s.nextPart = some p → s.candidates p = q :: r → s.ctx? q.1 = some x → x.warp? q.2 = some w →
    selectEntry x.prog (w.opened x.prog) = some e → w.firmware = false → fetch s x w e = (t, .word v) → decodeWord v = .ok i →
    exec i { t with cur := some q } = .next u → u.issuesOf q ≠ s.issuesOf q → step s = .next { u with turn := p + 1 }) ∧
  (∀ (s : State) p q r x w e t v i u, s.agenda = [] → s.nextPart = some p → s.candidates p = q :: r → s.ctx? q.1 = some x → x.warp? q.2 = some w →
    selectEntry x.prog (w.opened x.prog) = some e → w.firmware = false → fetch s x w e = (t, .word v) → decodeWord v = .ok i →
    exec i { t with cur := some q } = .next u → u.issuesOf q = s.issuesOf q → step s = issueFirst p r u) ∧
  (∀ (s : State) p q r x w e t v c, s.agenda = [] → s.nextPart = some p → s.candidates p = q :: r → s.ctx? q.1 = some x → x.warp? q.2 = some w →
    selectEntry x.prog (w.opened x.prog) = some e → w.firmware = false → fetch s x w e = (t, .word v) → decodeFetched v = .error c →
    (execBadWord v c { t with cur := some q }).issuesOf q ≠ s.issuesOf q →
    step s = .next { execBadWord v c { t with cur := some q } with turn := p + 1 }) ∧
  (∀ (s : State) q x w e t c recs told, s.ctx? q.1 = some x → x.warp? q.2 = some w → selectEntry x.prog (w.opened x.prog) = some e →
    w.firmware = false → fetch s x w e = (t, .trap c recs told) → issueAt s q = .next (fetchTrap s q.1 q.2 c recs told)) ∧
  (∀ (s : State) (x : Context) w e pte level at_, findLeaf s x (tlbCore (widCoreNo w.wid)) e.pc.toNat false = .leaf pte level at_ →
    pte.testBit 60 = true → s.pick 1 = false →
    let t := touchLeaf s x (tlbCore (widCoreNo w.wid)) e.pc.toNat false
    let k := leafKey s pte level e.pc.toNat
    t.reachable k = true → (keySpace k = 0 → t.hbmReady k = true) → t.badGranules k 8 = [] →
    fetch s x w e = ((t.countMiss x.id (widCoreNo w.wid) [leafPiece pte level e.pc.toNat (k * 8) 64 0]).fillCopy (2 ^ 32) (.icache (widCoreNo w.wid)) (k / 128), .word (BitVec.ofNat 64 (readBytes t.mem k 8)))) ∧
  (∀ (s : State) (x : Context) w e pte level at_, findLeaf s x (tlbCore (widCoreNo w.wid)) e.pc.toNat false = .leaf pte level at_ →
    pte.testBit 60 = false → fetch s x w e = (s, .trap .permExec [] [])) ∧
  (∀ (s : State), s.agenda = [] → s.nextPart = none → step s = .next s.endCycle) ∧
  (∀ (s : State) i r, s.agenda = i :: r → isEvent i = true → step s = exec i { s with agenda := r }) ∧
  (∀ (s : State) i r, s.agenda = i :: r → isEvent i = false →
    (s.inFirmware = true → step s = runMachine s) ∧ (s.inFirmware = false → step s = runMachine { s with agenda := r })) ∧
  (∀ (s : State) p q r x w e i rest u, s.agenda = i :: rest → isEvent i = false → s.inFirmware = true → s.nextPart = some p →
    s.candidates p = q :: r → s.ctx? q.1 = some x → x.warp? q.2 = some w → selectEntry x.prog (w.opened x.prog) = some e → w.firmware = true →
    exec i { s with agenda := rest, cur := some q } = .next u → u.agenda = rest →
    (u.onWarp q.1 q.2 (fun y v => u.setCtx (y.setWarp (v.keepEntry w)))).waitsAgain q = false →
    step s = .next { u.onWarp q.1 q.2 (fun y v => u.setCtx (y.setWarp (v.keepEntry w))) with turn := p + 1 }) ∧
  (∀ (s : State) p q r x w e i u, s.agenda = [] → s.nextPart = some p → s.candidates p = q :: r → s.ctx? q.1 = some x → x.warp? q.2 = some w →
    selectEntry x.prog (w.opened x.prog) = some e → w.firmware = true → decodeWord w.finsn = .ok i →
    exec i { s with cur := some q } = .next u → u.issuesOf q ≠ s.issuesOf q → step s = .next { u with turn := p + 1 })

/-- Whatever instruction or event a step carries out, the list of bytes stays in rising order of its keys with no entry that equals
what an unlisted byte reads as, so that equal memories are equal data. (R3, R251.) -/
def Obligations.MemoryKeepsItsForm : Prop :=
  ∀ s t : State, s.memWf → step s = .next t → t.memWf

/-- Of a state in which FSV is at most the fuses that are blown, and these and the goal of a rise at most 128: in every step, a
reset and a power loss among them, the next state meets the same bounds, its FSV, blown fuses, one-time-key index, JWP and JAP
are at least those of the state before, the index stays at most 2^40, and JAP at most JWP. (R352, R359, R360, R362.) -/
def Obligations.CountersNeverFall : Prop :=
  ∀ s t : State, s.fsv ≤ s.fuses → s.fuses ≤ 128 → s.fsvGoal ≤ 128 → step s = .next t →
    (t.fsv ≤ t.fuses ∧ t.fuses ≤ 128 ∧ t.fsvGoal ≤ 128) ∧
    (s.fsv ≤ t.fsv ∧ s.fuses ≤ t.fuses ∧ s.sigIndex ≤ t.sigIndex ∧ s.jwp ≤ t.jwp ∧ s.jap ≤ t.jap) ∧
    (s.sigIndex ≤ 2 ^ 40 → t.sigIndex ≤ 2 ^ 40) ∧ (s.jap ≤ s.jwp → t.jap ≤ t.jwp)

/-- At State.reset RDY and JDROP are 0 and NFEAT is 1, no context exists, memory lists nothing and has its canonical form, and the
counters meet their bounds (memory that nothing has written reads 0, log entry 2; what is kept across reset starts from the
values of log entry 10; the image is that of log entry 9; the capability table is copied with the first cycle, log entry 93).
The event RESET keeps the fuses and with them FSV, the journal with its pointers, chain and seals, the records of the cycle in
it (log entry 64), and the signature index, makes the boot ROM's check and puts every byte of the capability table of what runs
at its place, in stacks 0 and 1, in memory of canonical form. (R352, R356, R357, R358, R359, R360.) -/
def Obligations.ResetState : Prop :=
  (State.reset.rdy = 0 ∧ State.reset.nfeat = 1 ∧ State.reset.jdrop = 0 ∧ State.reset.ctxs = [] ∧ State.reset.mem = [] ∧
    State.reset.memWf ∧ State.reset.fsv ≤ State.reset.fuses ∧ State.reset.fuses ≤ 128 ∧ State.reset.fsvGoal ≤ 128 ∧
    State.reset.sigIndex ≤ 2 ^ 40 ∧ State.reset.jap ≤ State.reset.jwp ∧ State.reset.loader = !Config.fwVerified ∧ State.reset.capDone = false) ∧
  (∀ s, ∃ t, exec .reset s = .next t ∧ t.memWf ∧ (t.rdy, t.nfeat, t.jdrop, t.ctxs) = (0, 1, 0, []) ∧
    (t.fsv, t.fuses, t.journal, t.jwp, t.jap, t.chain, t.seals, t.sigIndex) =
      (let k := s.flushRecords; (k.fuses, k.fuses, k.journal, k.jwp, k.jap, k.chain, k.seals, k.sigIndex)) ∧
    (t.loader = true ↔ Config.fwVerified = false ∨ Config.fwSecurity.toNat < s.fuses) ∧
    (∀ i, i < (capTable false).length → stackOf ((capPlace + i) / 128) < 2) ∧
    ∀ i, i < (capTable t.loader).length → memByte t.mem (keyHbm (capPlace + i)) = (capTable t.loader).getD i 0)
end

