-- ==== Sys2Proof/Laws/Memory.lean ====
section
/-! SUPPORT. Sparse maps and memory: a read after a write, a write leaves every other place alone, every memory operation keeps the
canonical form, and what a run of bytes and a run of bits become. -/

namespace Sys2Proof.Laws

open Sys2Proof Machine

/-! ### Sparse maps -/

theorem smGet_filter {α : Type} (d : α) (m : SMap α) (i : Nat) (p : Nat × α → Bool) (h : ∀ v, p (i, v) = true) :
    smGet d (m.filter p) i = smGet d m i := by
  induction m with
  | nil => rfl
  | cons c r ih =>
    obtain ⟨j, v⟩ := c
    by_cases hj : j = i
    · subst hj; simp [h, smGet]
    · cases hp : p (j, v) <;> simp [hp, smGet, hj, ih]

theorem smGet_filter_gone {α : Type} (d : α) (m : SMap α) (i : Nat) (p : Nat × α → Bool) (h : ∀ v, p (i, v) = false) :
    smGet d (m.filter p) i = d := by
  induction m with
  | nil => rfl
  | cons c r ih =>
    obtain ⟨j, v⟩ := c
    by_cases hj : j = i
    · subst hj; simp [h, ih]
    · cases hp : p (j, v) <;> simp [hp, smGet, hj, ih]

theorem smGet_insert_same {α : Type} (d : α) (m : SMap α) (i : Nat) (v : α) (h : ∀ c ∈ m, c.1 ≠ i) :
    smGet d (smInsert m i v) i = v := by
  induction m with
  | nil => simp [smInsert, smGet]
  | cons c r ih =>
    have hc := h c (by simp)
    have hr := ih (fun x hx => h x (by simp [hx]))
    by_cases hl : i < c.1 <;> simp [smInsert, hl, smGet, hc, hr]

theorem smGet_insert_other {α : Type} (d : α) (m : SMap α) (i j : Nat) (v : α) (h : j ≠ i) :
    smGet d (smInsert m i v) j = smGet d m j := by
  induction m with
  | nil => simp [smInsert, smGet, Ne.symm h]
  | cons c r ih =>
    by_cases hl : i < c.1
    · simp [smInsert, hl, smGet, Ne.symm h]
    · rw [smInsert, if_neg hl, smGet, smGet, ih]

/-- A read of a key after a write of it. -/
@[simp] theorem smGet_put_same {α : Type} [DecidableEq α] (d : α) (m : SMap α) (i : Nat) (v : α) :
    smGet d (smPut d m i v) i = v := by
  unfold smPut
  split
  · subst v; exact smGet_filter_gone _ _ _ _ (by simp)
  · exact smGet_insert_same _ _ _ _ (by simp)

/-- A write of a key leaves every other key alone. -/
theorem smGet_put_other {α : Type} [DecidableEq α] (d : α) (m : SMap α) (i j : Nat) (v : α) (h : j ≠ i) :
    smGet d (smPut d m i v) j = smGet d m j := by
  unfold smPut
  split
  · exact smGet_filter _ _ _ _ (by simp [h])
  · rw [smGet_insert_other _ _ _ _ _ h]; exact smGet_filter _ _ _ _ (by simp [h])

theorem smGet_put {α : Type} [DecidableEq α] (d : α) (m : SMap α) (i j : Nat) (v : α) :
    smGet d (smPut d m i v) j = if j = i then v else smGet d m j := by
  split
  · subst j; simp
  · exact smGet_put_other _ _ _ _ _ ‹_›

/-- What is left after keys are removed. -/
theorem smGet_drop {α : Type} (d : α) (m : SMap α) (p : Nat → Bool) (j : Nat) :
    smGet d (smDrop m p) j = if p j then d else smGet d m j := by
  unfold smDrop
  cases h : p j
  · simpa [h] using smGet_filter d m j (fun c => !p c.1) (by simp [h])
  · simpa [h] using smGet_filter_gone d m j (fun c => !p c.1) (by simp [h])

/-- A bound that a rising map starts above. -/
def above (lo : Option Nat) (i : Nat) : Prop := ∀ b, lo = some b → b < i

theorem rising_cons {α : Type} (lo : Option Nat) (c : Nat × α) (r : SMap α) :
    smRising lo (c :: r) = true ↔ above lo c.1 ∧ smRising (some c.1) r = true := by
  cases lo <;> simp [smRising, above]

theorem rising_weaken {α : Type} {lo lo' : Option Nat} {m : SMap α} (h : smRising lo m = true)
    (hl : ∀ i, above lo i → above lo' i) : smRising lo' m = true := by
  cases m with
  | nil => rfl
  | cons c r => rw [rising_cons] at h ⊢; exact ⟨hl _ h.1, h.2⟩

theorem rising_filter {α : Type} {lo : Option Nat} {m : SMap α} (p : Nat × α → Bool) (h : smRising lo m = true) :
    smRising lo (m.filter p) = true := by
  induction m generalizing lo with
  | nil => rfl
  | cons c r ih =>
    rw [rising_cons] at h
    rw [List.filter_cons]
    split
    · rw [rising_cons]; exact ⟨h.1, ih h.2⟩
    · refine ih (rising_weaken h.2 (fun i hi b hb => ?_))
      exact Nat.lt_trans (h.1 b hb) (hi c.1 rfl)

theorem rising_insert {α : Type} {lo : Option Nat} {m : SMap α} (i : Nat) (v : α) (h : smRising lo m = true)
    (hi : above lo i) (hn : ∀ c ∈ m, c.1 ≠ i) : smRising lo (smInsert m i v) = true := by
  induction m generalizing lo with
  | nil => rw [smInsert, rising_cons]; exact ⟨hi, rfl⟩
  | cons c r ih =>
    rw [rising_cons] at h
    unfold smInsert
    split
    · rename_i hl
      rw [rising_cons]; refine ⟨hi, ?_⟩
      rw [rising_cons]; exact ⟨fun b hb => by cases hb; exact hl, h.2⟩
    · rename_i hl
      have hc := hn c (by simp)
      rw [rising_cons]
      refine ⟨h.1, ih h.2 (fun b hb => ?_) (fun x hx => hn x (by simp [hx]))⟩
      cases hb; omega

theorem insert_all {α : Type} (m : SMap α) (i : Nat) (v : α) (p : Nat × α → Bool) :
    (smInsert m i v).all p = (p (i, v) && m.all p) := by
  induction m with
  | nil => simp [smInsert]
  | cons c r ih =>
    unfold smInsert
    split
    · simp
    · simp [ih, Bool.and_left_comm]

/-- A write keeps the canonical form. -/
theorem wf_put {α : Type} [DecidableEq α] {d : α} {m : SMap α} (i : Nat) (v : α) (h : smWf d m = true) :
    smWf d (smPut d m i v) = true := by
  simp only [smWf, Bool.and_eq_true] at h ⊢
  have h1 := rising_filter (fun c => c.1 ≠ i) h.1
  have h2 : (m.filter (fun c => c.1 ≠ i)).all (fun c => c.2 ≠ d) = true := by
    rw [List.all_eq_true] at h ⊢
    exact fun x hx => h.2 x ((List.mem_filter.mp hx).1)
  unfold smPut
  split
  · exact ⟨h1, h2⟩
  · rename_i hv
    refine ⟨rising_insert i v h1 (by simp [above]) (by simp), ?_⟩
    rw [insert_all, h2]; simp [hv]

/-- A removal of keys keeps the canonical form. -/
theorem wf_filter {α : Type} [DecidableEq α] {d : α} {m : SMap α} (p : Nat × α → Bool) (h : smWf d m = true) :
    smWf d (m.filter p) = true := by
  simp only [smWf, Bool.and_eq_true] at h ⊢
  refine ⟨rising_filter p h.1, ?_⟩
  rw [List.all_eq_true] at h ⊢
  exact fun x hx => h.2 x ((List.mem_filter.mp hx).1)

theorem smGet_above {α : Type} (d : α) (m : SMap α) (b i : Nat) (h : smRising (some b) m = true) (hi : i ≤ b) :
    smGet d m i = d := by
  induction m generalizing b with
  | nil => rfl
  | cons c r ih =>
    rw [rising_cons] at h
    have hb := h.1 b rfl
    have hc : c.1 ≠ i := by omega
    simp only [smGet, hc, if_false]
    exact ih c.1 h.2 (by omega)

/-! ### Memory -/

/-- A byte reads as what was written last. -/
theorem memByte_put (m : Memory) (k j : Nat) (b : Byte) : memByte (putByte m k b) j = if j = k then b else memByte m j :=
  smGet_put _ _ _ _ _

/-- Writing a byte keeps the canonical form. -/
theorem wf_putByte {m : Memory} (k : Nat) (b : Byte) (h : m.wf = true) : (putByte m k b).wf = true := wf_put k b h

/-- Writing bytes keeps the canonical form. -/
theorem wf_writeBytes {m : Memory} (k n v : Nat) (h : m.wf = true) : (writeBytes m k n v).wf = true := by
  induction n generalizing m k v with
  | zero => exact h
  | succ n ih => exact ih (k + 1) (v / 256) (wf_putByte k _ h)

/-- Writing bits keeps the canonical form. -/
theorem wf_writeBits {m : Memory} (pos len v : Nat) (h : m.wf = true) : (writeBits m pos len v).wf = true := by
  unfold writeBits
  simp only
  split
  · exact h
  · exact wf_writeBytes _ _ _ h

/-- Zeroing bytes keeps the canonical form. -/
theorem wf_zeroBytes {m : Memory} (k n : Nat) (h : m.wf = true) : (zeroBytes m k n).wf = true := wf_filter _ h

/-- A byte after a run of bytes is written. -/
theorem memByte_writeBytes (m : Memory) (k n v j : Nat) :
    memByte (writeBytes m k n v) j =
      if k ≤ j ∧ j < k + n then BitVec.ofNat 8 (v / 256 ^ (j - k)) else memByte m j := by
  induction n generalizing m k v with
  | zero => rw [if_neg (by omega)]; rfl
  | succ n ih =>
    rw [writeBytes, ih, memByte_put]
    by_cases h0 : j = k
    · subst h0
      have : ¬ (j + 1 ≤ j ∧ j < j + 1 + n) := by omega
      simp [this]
    · by_cases h1 : k + 1 ≤ j ∧ j < k + 1 + n
      · have h2 : k ≤ j ∧ j < k + (n + 1) := by omega
        have h3 : j - k = (j - (k + 1)) + 1 := by omega
        rw [if_pos h1, if_pos h2, h3, Nat.pow_succ, Nat.div_div_eq_div_mul, Nat.mul_comm]
      · have h2 : ¬ (k ≤ j ∧ j < k + (n + 1)) := by omega
        rw [if_neg h1, if_neg h2, if_neg h0]

/-- A byte outside a run of bits that is written reads as before. -/
theorem memByte_writeBits_other (m : Memory) (pos len v j : Nat) (h : j < pos / 8 ∨ (pos + len + 7) / 8 ≤ j) :
    memByte (writeBits m pos len v) j = memByte m j := by
  unfold writeBits
  simp only
  split
  · rfl
  · rw [memByte_writeBytes, if_neg]
    omega

/-- A byte after a run of bytes is zeroed. -/
theorem memByte_zeroBytes (m : Memory) (k n j : Nat) :
    memByte (zeroBytes m k n) j = if k ≤ j ∧ j < k + n then 0 else memByte m j := by
  have := smGet_drop (0 : Byte) m (fun i => decide (k ≤ i) && decide (i < k + n)) j
  simpa [smDrop, zeroBytes, memByte] using this

/-- Bytes read back as they were written. -/
theorem readBytes_lt (m : Memory) (k n : Nat) : readBytes m k n < 256 ^ n := by
  induction n generalizing k with
  | zero => simp [readBytes]
  | succ n ih =>
    have h1 := (memByte m k).isLt
    have h2 := ih (k + 1)
    rw [readBytes, Nat.pow_succ]; omega

theorem readBytes_congr (m m' : Memory) (k n : Nat) (h : ∀ j, k ≤ j → j < k + n → memByte m j = memByte m' j) :
    readBytes m k n = readBytes m' k n := by
  induction n generalizing k with
  | zero => rfl
  | succ n ih =>
    rw [readBytes, readBytes, h k (by omega) (by omega), ih (k + 1) (fun j h1 h2 => h j (by omega) (by omega))]

/-- Bytes read back as they were written. -/
theorem readBytes_writeBytes (m : Memory) (k n v : Nat) : readBytes (writeBytes m k n v) k n = v % 256 ^ n := by
  induction n generalizing m k v with
  | zero => simp [readBytes, Nat.mod_one]
  | succ n ih =>
    have h0 : memByte (writeBytes m k (n + 1) v) k = BitVec.ofNat 8 v := by
      rw [memByte_writeBytes, if_pos (by omega)]; simp
    rw [readBytes, h0, writeBytes, ih, Nat.pow_succ, Nat.mul_comm (256 ^ n) 256, Nat.mod_mul]
    simp

end Sys2Proof.Laws
end

