-- ==== Sys2Proof/Laws/Frontier.lean ====
section
/-! SUPPORT. The order of a frontier, and what a merge of entries gives: one entry for each pair and parked state, with the least stamp,
demoted only where all that it comes from are (R30, R31, R39, R42). -/

namespace Sys2Proof.Laws

open Sys2Proof Machine

/-! ### The order -/

theorem same_iff (a b : Entry) : a.same b = true ↔ a.pri = b.pri ∧ a.pc = b.pc ∧ a.parked = b.parked := by
  simp [Entry.same, and_assoc]

theorem same_refl (a : Entry) : a.same a = true := by simp [Entry.same]

theorem same_comm {a b : Entry} (h : a.same b = true) : b.same a = true := by
  rw [same_iff] at h ⊢; exact ⟨h.1.symm, h.2.1.symm, h.2.2.symm⟩

theorem same_trans {a b c : Entry} (h : a.same b = true) (k : b.same c = true) : a.same c = true := by
  rw [same_iff] at h k ⊢; exact ⟨h.1.trans k.1, h.2.1.trans k.2.1, h.2.2.trans k.2.2⟩

theorem before_iff (a b : Entry) : a.before b = true ↔
    b.pri.toNat < a.pri.toNat ∨ (a.pri.toNat = b.pri.toNat ∧ (a.pc.toNat < b.pc.toNat ∨
      (a.pc.toNat = b.pc.toNat ∧ a.parked = false ∧ b.parked = true))) := by
  simp [Entry.before, BitVec.lt_def, ← BitVec.toNat_inj, and_assoc]

theorem before_same {a b : Entry} (h : a.before b = true) : a.same b = false := by
  rw [before_iff] at h
  rw [Bool.eq_false_iff]
  intro hs
  rw [same_iff] at hs
  rw [hs.1, hs.2.1, hs.2.2] at h
  rcases h with h | ⟨_, h | ⟨_, h, k⟩⟩
  · omega
  · omega
  · rw [h] at k; simp at k

theorem before_trans {a b c : Entry} (h : a.before b = true) (k : b.before c = true) : a.before c = true := by
  rw [before_iff] at h k ⊢
  rcases h with h | ⟨h1, h | ⟨h2, h3, h4⟩⟩ <;> rcases k with k | ⟨k1, k | ⟨k2, k3, k4⟩⟩
  · exact .inl (by omega)
  · exact .inl (by omega)
  · exact .inl (by omega)
  · exact .inl (by omega)
  · exact .inr ⟨by omega, .inl (by omega)⟩
  · exact .inr ⟨by omega, .inl (by omega)⟩
  · exact .inl (by omega)
  · exact .inr ⟨by omega, .inl (by omega)⟩
  · rw [h4] at k3; simp at k3

theorem before_total (a b : Entry) (hs : a.same b = false) (hb : a.before b = false) : b.before a = true := by
  rw [before_iff]
  have hn : ¬(a.same b = true) := by rw [hs]; simp
  have hm : ¬(a.before b = true) := by rw [hb]; simp
  rw [before_iff] at hm
  rw [same_iff] at hn
  by_cases h1 : a.pri.toNat < b.pri.toNat
  · exact .inl h1
  · have h2 : a.pri.toNat = b.pri.toNat := by
      rcases Nat.lt_or_ge b.pri.toNat a.pri.toNat with h | h
      · exact absurd (Or.inl h) hm
      · omega
    refine .inr ⟨h2.symm, ?_⟩
    rcases Nat.lt_trichotomy a.pc.toNat b.pc.toNat with h | h | h
    · exact absurd (Or.inr ⟨h2, .inl h⟩) hm
    · refine .inr ⟨h.symm, ?_⟩
      have hp : a.parked ≠ b.parked := fun e => hn ⟨BitVec.eq_of_toNat_eq h2, BitVec.eq_of_toNat_eq h, e⟩
      cases ha : a.parked <;> cases hc : b.parked
      · rw [ha, hc] at hp; exact absurd rfl hp
      · exact absurd (Or.inr ⟨h2, .inr ⟨h, ha, hc⟩⟩) hm
      · exact ⟨rfl, rfl⟩
      · rw [ha, hc] at hp; exact absurd rfl hp
    · exact .inl h

theorem before_congr {a b c : Entry} (h : a.same b = true) (k : b.before c = true) : a.before c = true := by
  rw [same_iff] at h
  rw [before_iff] at k ⊢
  rw [h.1, h.2.1, h.2.2]; exact k

theorem before_congr' {a b c : Entry} (h : a.before b = true) (k : b.same c = true) : a.before c = true := by
  rw [same_iff] at k
  rw [before_iff] at h ⊢
  rw [← k.1, ← k.2.1, ← k.2.2]; exact h

/-! ### Insertion -/

/-- A frontier in its order. -/
abbrev Sorted (es : List Entry) : Prop := es.Pairwise (fun a b => a.before b = true)

theorem join_same (x e : Entry) : (x.join e).same x = true := by simp [Entry.same, Entry.join]

/-- Where an entry goes: into the one of its kind, or beside the others. -/
theorem insert_form (e : Entry) (es : List Entry) (h : Sorted es) :
    (∃ l x r, es = l ++ x :: r ∧ e.same x = true ∧ insertEntry e es = l ++ x.join e :: r) ∨
    ((∀ x ∈ es, e.same x = false) ∧ ∃ l r, es = l ++ r ∧ insertEntry e es = l ++ e :: r ∧ (∀ x ∈ l, x.before e = true) ∧
      ∀ x ∈ r, e.before x = true) := by
  induction es with
  | nil => exact .inr ⟨by simp, [], [], rfl, rfl, by simp, by simp⟩
  | cons x r ih =>
    have hx : ∀ {y}, y ∈ r → x.before y = true := fun hy => List.rel_of_pairwise_cons h hy
    unfold insertEntry
    split
    · rename_i hs
      exact .inl ⟨[], x, r, rfl, hs, rfl⟩
    · rename_i hs
      rw [Bool.not_eq_true] at hs
      split
      · rename_i hb
        refine .inr ⟨?_, [], x :: r, rfl, rfl, by simp, ?_⟩
        · intro y hy
          rcases List.mem_cons.mp hy with rfl | hy
          · exact hs
          · exact before_same (before_trans hb (hx hy))
        · intro y hy
          rcases List.mem_cons.mp hy with rfl | hy
          · exact hb
          · exact before_trans hb (hx hy)
      · rename_i hb
        rw [Bool.not_eq_true] at hb
        rcases ih (List.Pairwise.of_cons h) with ⟨l, y, t, hl, hsy, hi⟩ | ⟨hn, l, t, hl, hi, hL, hR⟩
        · exact .inl ⟨x :: l, y, t, by rw [hl]; rfl, hsy, by rw [hi]; rfl⟩
        · refine .inr ⟨?_, x :: l, t, by rw [hl]; rfl, by rw [hi]; rfl, ?_, hR⟩
          · intro y hy
            rcases List.mem_cons.mp hy with rfl | hy
            · exact hs
            · exact hn y hy
          · intro y hy
            rcases List.mem_cons.mp hy with rfl | hy
            · exact before_total e y hs hb
            · exact hL y hy

theorem sorted_insert (e : Entry) (es : List Entry) (h : Sorted es) : Sorted (insertEntry e es) := by
  rcases insert_form e es h with ⟨l, x, r, rfl, hs, hi⟩ | ⟨_, l, r, rfl, hi, hL, hR⟩
  · rw [hi]
    unfold Sorted at h ⊢
    rw [List.pairwise_append] at h ⊢
    obtain ⟨h1, h2, h3⟩ := h
    rw [List.pairwise_cons] at h2 ⊢
    refine ⟨h1, ⟨fun y hy => before_congr (join_same x e) (h2.1 y hy), h2.2⟩, ?_⟩
    intro a ha b hb
    rcases List.mem_cons.mp hb with rfl | hb
    · exact before_congr' (h3 a ha x (by simp)) (same_comm (join_same x e))
    · exact h3 a ha b (by simp [hb])
  · rw [hi]
    unfold Sorted at h ⊢
    rw [List.pairwise_append] at h ⊢
    obtain ⟨h1, h2, h3⟩ := h
    rw [List.pairwise_cons]
    refine ⟨h1, ⟨hR, h2⟩, ?_⟩
    intro a ha b hb
    rcases List.mem_cons.mp hb with rfl | hb
    · exact hL a ha
    · exact h3 a ha b hb

/-- Two entries of a sorted frontier of one kind are one. -/
theorem sorted_unique {es : List Entry} (h : Sorted es) {a b : Entry} (ha : a ∈ es) (hb : b ∈ es) (hs : a.same b = true) : a = b := by
  induction es with
  | nil => simp at ha
  | cons x r ih =>
    have hx : ∀ {y}, y ∈ r → x.before y = true := fun hy => List.rel_of_pairwise_cons h hy
    rcases List.mem_cons.mp ha with ka | ka <;> rcases List.mem_cons.mp hb with kb | kb
    · rw [ka, kb]
    · rw [ka, before_same (hx kb)] at hs; simp at hs
    · have := before_same (hx ka); rw [kb] at hs; rw [same_comm hs] at this; simp at this
    · exact ih (List.Pairwise.of_cons h) ka kb

/-! ### What a merge stands for -/

/-- A frontier stands for a list of entries: one for each kind, of the least stamp, demoted where all of its kind are. -/
structure Merged (es acc : List Entry) : Prop where
  sorted : Sorted acc
  covers : ∀ z ∈ es, ∃ y ∈ acc, z.same y = true
  stamp : ∀ y ∈ acc, ∃ z ∈ es, z.same y = true ∧ z.stamp = y.stamp
  least : ∀ y ∈ acc, ∀ z ∈ es, z.same y = true → y.stamp ≤ z.stamp
  demoted : ∀ y ∈ acc, (y.demoted = true ↔ ∀ z ∈ es, z.same y = true → z.demoted = true)

theorem merged_insert (es acc : List Entry) (e : Entry) (h : Merged es acc) : Merged (es ++ [e]) (insertEntry e acc) := by
  have hso := sorted_insert e acc h.sorted
  rcases insert_form e acc h.sorted with ⟨l, x, r, hl, hs, hi⟩ | ⟨hn, l, r, hl, hi, _, _⟩
  · have hx : x ∈ acc := by rw [hl]; simp
    have old : ∀ y ∈ insertEntry e acc, y = x.join e ∨ (y ∈ acc ∧ e.same y = false) := by
      intro y hy
      have hd : y ∈ acc → y ≠ x → e.same y = false := by
        intro hm hne
        rw [Bool.eq_false_iff]; intro hsy
        exact hne (sorted_unique h.sorted hm hx (same_trans (same_comm hsy) hs))
      have hnot : ∀ y, y ∈ l ∨ y ∈ r → y ≠ x := by
        rintro y hm rfl
        have hp := h.sorted
        rw [hl] at hp
        rw [Sorted, List.pairwise_append, List.pairwise_cons] at hp
        rcases hm with hm | hm
        · have := before_same (hp.2.2 y hm y (by simp)); rw [same_refl] at this; simp at this
        · have := before_same (hp.2.1.1 y hm); rw [same_refl] at this; simp at this
      rw [hi] at hy
      rcases List.mem_append.mp hy with hy | hy
      · exact .inr ⟨by rw [hl]; simp [hy], hd (by rw [hl]; simp [hy]) (hnot y (.inl hy))⟩
      · rcases List.mem_cons.mp hy with rfl | hy
        · exact .inl rfl
        · exact .inr ⟨by rw [hl]; simp [hy], hd (by rw [hl]; simp [hy]) (hnot y (.inr hy))⟩
    have hj : x.join e ∈ insertEntry e acc := by rw [hi]; simp
    have hsj : ∀ z : Entry, z.same (x.join e) = true ↔ z.same x = true :=
      fun z => ⟨fun k => same_trans k (join_same x e), fun k => same_trans k (same_comm (join_same x e))⟩
    refine ⟨hso, ?_, ?_, ?_, ?_⟩
    · intro z hz
      rcases List.mem_append.mp hz with hz | hz
      · obtain ⟨y, hy, hsy⟩ := h.covers z hz
        by_cases hyx : y = x
        · subst hyx; exact ⟨_, hj, (hsj z).mpr hsy⟩
        · refine ⟨y, ?_, hsy⟩
          rw [hl] at hy
          rw [hi]
          rcases List.mem_append.mp hy with hy | hy
          · simp [hy]
          · rcases List.mem_cons.mp hy with hy | hy
            · exact absurd hy hyx
            · simp [hy]
      · rw [List.mem_singleton.mp hz]
        exact ⟨_, hj, (hsj e).mpr hs⟩
    · intro y hy
      rcases old y hy with rfl | ⟨hm, hno⟩
      · obtain ⟨z, hz, hsz, hst⟩ := h.stamp x hx
        rcases Nat.le_total x.stamp e.stamp with hle | hle
        · exact ⟨z, by simp [hz], (hsj z).mpr hsz, by show z.stamp = min x.stamp e.stamp; omega⟩
        · exact ⟨e, by simp, (hsj e).mpr hs, by show e.stamp = min x.stamp e.stamp; omega⟩
      · obtain ⟨z, hz, hsz, hst⟩ := h.stamp y hm
        exact ⟨z, by simp [hz], hsz, hst⟩
    · intro y hy z hz hsz
      rcases old y hy with rfl | ⟨hm, hno⟩
      · show min x.stamp e.stamp ≤ _
        rcases List.mem_append.mp hz with hz | hz
        · have := h.least x hx z hz ((hsj z).mp hsz); omega
        · rw [List.mem_singleton.mp hz]; omega
      · rcases List.mem_append.mp hz with hz | hz
        · exact h.least y hm z hz hsz
        · rw [List.mem_singleton.mp hz, hno] at hsz; simp at hsz
    · intro y hy
      rcases old y hy with rfl | ⟨hm, hno⟩
      · show (x.demoted && e.demoted) = true ↔ _
        rw [Bool.and_eq_true, h.demoted x hx]
        constructor
        · rintro ⟨k, ke⟩ z hz hsz
          rcases List.mem_append.mp hz with hz | hz
          · exact k z hz ((hsj z).mp hsz)
          · rw [List.mem_singleton.mp hz]; exact ke
        · intro k
          exact ⟨fun z hz hsz => k z (by simp [hz]) ((hsj z).mpr hsz), k e (by simp) ((hsj e).mpr hs)⟩
      · rw [h.demoted y hm]
        constructor
        · intro k z hz hsz
          rcases List.mem_append.mp hz with hz | hz
          · exact k z hz hsz
          · rw [List.mem_singleton.mp hz, hno] at hsz; simp at hsz
        · exact fun k z hz hsz => k z (by simp [hz]) hsz
  · have mem : ∀ y, y ∈ insertEntry e acc ↔ y = e ∨ y ∈ acc := by
      intro y
      rw [hi, hl]
      simp only [List.mem_append, List.mem_cons]
      constructor
      · rintro (h | h | h)
        · exact .inr (.inl h)
        · exact .inl h
        · exact .inr (.inr h)
      · rintro (h | h | h)
        · exact .inr (.inl h)
        · exact .inl h
        · exact .inr (.inr h)
    have noOld : ∀ z ∈ es, z.same e = false := by
      intro z hz
      rw [Bool.eq_false_iff]; intro hsz
      obtain ⟨y, hy, hsy⟩ := h.covers z hz
      have := hn y hy
      rw [same_trans (same_comm hsz) hsy] at this; simp at this
    refine ⟨hso, ?_, ?_, ?_, ?_⟩
    · intro z hz
      rcases List.mem_append.mp hz with hz | hz
      · obtain ⟨y, hy, hsy⟩ := h.covers z hz
        exact ⟨y, (mem y).mpr (.inr hy), hsy⟩
      · rw [List.mem_singleton.mp hz]
        exact ⟨e, (mem e).mpr (.inl rfl), same_refl e⟩
    · intro y hy
      rcases (mem y).mp hy with rfl | hy
      · exact ⟨y, by simp, same_refl y, rfl⟩
      · obtain ⟨z, hz, hsz, hst⟩ := h.stamp y hy
        exact ⟨z, by simp [hz], hsz, hst⟩
    · intro y hy z hz hsz
      rcases (mem y).mp hy with rfl | hy
      · rcases List.mem_append.mp hz with hz | hz
        · exact absurd (hsz.symm.trans (noOld z hz)) (by simp)
        · obtain rfl := List.mem_singleton.mp hz; exact Nat.le_refl _
      · rcases List.mem_append.mp hz with hz | hz
        · exact h.least y hy z hz hsz
        · rw [List.mem_singleton.mp hz, hn y hy] at hsz; simp at hsz
    · intro y hy
      rcases (mem y).mp hy with rfl | hy
      · constructor
        · intro k z hz hsz
          rcases List.mem_append.mp hz with hz | hz
          · exact absurd (hsz.symm.trans (noOld z hz)) (by simp)
          · rw [List.mem_singleton.mp hz]; exact k
        · exact fun k => k y (by simp) (same_refl y)
      · rw [h.demoted y hy]
        constructor
        · intro k z hz hsz
          rcases List.mem_append.mp hz with hz | hz
          · exact k z hz hsz
          · rw [List.mem_singleton.mp hz, hn y hy] at hsz; simp at hsz
        · exact fun k z hz hsz => k z (by simp [hz]) hsz

theorem merged_foldl (es pre acc : List Entry) (h : Merged pre acc) :
    Merged (pre ++ es) (es.foldl (fun acc e => insertEntry e acc) acc) := by
  induction es generalizing pre acc with
  | nil => simpa using h
  | cons e r ih =>
    have := ih (pre ++ [e]) (insertEntry e acc) (merged_insert pre acc e h)
    simpa using this

/-- What a merge gives (R30, R39, R42). -/
theorem merged_merge (es : List Entry) : Merged es (mergeEntries es) := by
  have := merged_foldl es [] [] ⟨List.Pairwise.nil, by simp, by simp, by simp, by simp⟩
  simpa [mergeEntries] using this

end Sys2Proof.Laws
end

