-- ==== Sys2Proof/Laws/State.lean ====
section
/-! SUPPORT. One lemma for each field and each update of the package, a context and a warp, and what is found after something is put
back. -/

set_option Elab.async false

namespace Sys2Proof.Laws

open Sys2Proof Machine

/-! ### A context put back -/

@[simp] theorem setCtx_cycle (s : State) (x : Context) : (s.setCtx x).cycle = s.cycle := rfl
@[simp] theorem setCtx_wall (s : State) (x : Context) : (s.setCtx x).wall = s.wall := rfl
@[simp] theorem setCtx_mem (s : State) (x : Context) : (s.setCtx x).mem = s.mem := rfl
@[simp] theorem setCtx_poison (s : State) (x : Context) : (s.setCtx x).poison = s.poison := rfl
@[simp] theorem setCtx_copies (s : State) (x : Context) : (s.setCtx x).copies = s.copies := rfl
@[simp] theorem setCtx_tlb (s : State) (x : Context) : (s.setCtx x).tlb = s.tlb := rfl
@[simp] theorem setCtx_wcache (s : State) (x : Context) : (s.setCtx x).wcache = s.wcache := rfl
@[simp] theorem setCtx_migs (s : State) (x : Context) : (s.setCtx x).migs = s.migs := rfl
@[simp] theorem setCtx_nextCtx (s : State) (x : Context) : (s.setCtx x).nextCtx = s.nextCtx := rfl
@[simp] theorem setCtx_receives (s : State) (x : Context) : (s.setCtx x).receives = s.receives := rfl
@[simp] theorem setCtx_rxGen (s : State) (x : Context) : (s.setCtx x).rxGen = s.rxGen := rfl
@[simp] theorem setCtx_held (s : State) (x : Context) : (s.setCtx x).held = s.held := rfl
@[simp] theorem setCtx_actives (s : State) (x : Context) : (s.setCtx x).actives = s.actives := rfl
@[simp] theorem setCtx_firsts (s : State) (x : Context) : (s.setCtx x).firsts = s.firsts := rfl
@[simp] theorem setCtx_sending (s : State) (x : Context) : (s.setCtx x).sending = s.sending := rfl
@[simp] theorem setCtx_slotsUsed (s : State) (x : Context) : (s.setCtx x).slotsUsed = s.slotsUsed := rfl
@[simp] theorem setCtx_pod (s : State) (x : Context) : (s.setCtx x).pod = s.pod := rfl
@[simp] theorem setCtx_rdy (s : State) (x : Context) : (s.setCtx x).rdy = s.rdy := rfl
@[simp] theorem setCtx_dead (s : State) (x : Context) : (s.setCtx x).dead = s.dead := rfl
@[simp] theorem setCtx_nfeat (s : State) (x : Context) : (s.setCtx x).nfeat = s.nfeat := rfl
@[simp] theorem setCtx_fsv (s : State) (x : Context) : (s.setCtx x).fsv = s.fsv := rfl
@[simp] theorem setCtx_fuses (s : State) (x : Context) : (s.setCtx x).fuses = s.fuses := rfl
@[simp] theorem setCtx_fsvGoal (s : State) (x : Context) : (s.setCtx x).fsvGoal = s.fsvGoal := rfl
@[simp] theorem setCtx_loader (s : State) (x : Context) : (s.setCtx x).loader = s.loader := rfl
@[simp] theorem setCtx_fw (s : State) (x : Context) : (s.setCtx x).fw = s.fw := rfl
@[simp] theorem setCtx_capDone (s : State) (x : Context) : (s.setCtx x).capDone = s.capDone := rfl
@[simp] theorem setCtx_objects (s : State) (x : Context) : (s.setCtx x).objects = s.objects := rfl
@[simp] theorem setCtx_recBuf (s : State) (x : Context) : (s.setCtx x).recBuf = s.recBuf := rfl
@[simp] theorem setCtx_journal (s : State) (x : Context) : (s.setCtx x).journal = s.journal := rfl
@[simp] theorem setCtx_jwp (s : State) (x : Context) : (s.setCtx x).jwp = s.jwp := rfl
@[simp] theorem setCtx_jap (s : State) (x : Context) : (s.setCtx x).jap = s.jap := rfl
@[simp] theorem setCtx_jdrop (s : State) (x : Context) : (s.setCtx x).jdrop = s.jdrop := rfl
@[simp] theorem setCtx_chain (s : State) (x : Context) : (s.setCtx x).chain = s.chain := rfl
@[simp] theorem setCtx_seals (s : State) (x : Context) : (s.setCtx x).seals = s.seals := rfl
@[simp] theorem setCtx_sigIndex (s : State) (x : Context) : (s.setCtx x).sigIndex = s.sigIndex := rfl
@[simp] theorem setCtx_reports (s : State) (x : Context) : (s.setCtx x).reports = s.reports := rfl
@[simp] theorem setCtx_driverLog (s : State) (x : Context) : (s.setCtx x).driverLog = s.driverLog := rfl
@[simp] theorem setCtx_recovering (s : State) (x : Context) : (s.setCtx x).recovering = s.recovering := rfl
@[simp] theorem setCtx_reposts (s : State) (x : Context) : (s.setCtx x).reposts = s.reposts := rfl
@[simp] theorem setCtx_droops (s : State) (x : Context) : (s.setCtx x).droops = s.droops := rfl
@[simp] theorem setCtx_cur (s : State) (x : Context) : (s.setCtx x).cur = s.cur := rfl
@[simp] theorem setCtx_turn (s : State) (x : Context) : (s.setCtx x).turn = s.turn := rfl
@[simp] theorem setCtx_nextId (s : State) (x : Context) : (s.setCtx x).nextId = s.nextId := rfl
@[simp] theorem setCtx_freeCount (s : State) (x : Context) : (s.setCtx x).freeCount = s.freeCount := rfl
@[simp] theorem setCtx_oracle (s : State) (x : Context) : (s.setCtx x).oracle = s.oracle := rfl
@[simp] theorem setCtx_agenda (s : State) (x : Context) : (s.setCtx x).agenda = s.agenda := rfl

/-! ### A warp put back -/

@[simp] theorem setWarp_id (x : Context) (w : Warp) : (x.setWarp w).id = x.id := rfl
@[simp] theorem setWarp_born (x : Context) (w : Warp) : (x.setWarp w).born = x.born := rfl
@[simp] theorem setWarp_p (x : Context) (w : Warp) : (x.setWarp w).p = x.p := rfl
@[simp] theorem setWarp_state (x : Context) (w : Warp) : (x.setWarp w).state = x.state := rfl
@[simp] theorem setWarp_hw (x : Context) (w : Warp) : (x.setWarp w).hw = x.hw := rfl
@[simp] theorem setWarp_ctx (x : Context) (w : Warp) : (x.setWarp w).ctx = x.ctx := rfl
@[simp] theorem setWarp_fairt (x : Context) (w : Warp) : (x.setWarp w).fairt = x.fairt := rfl
@[simp] theorem setWarp_fairq (x : Context) (w : Warp) : (x.setWarp w).fairq = x.fairq := rfl
@[simp] theorem setWarp_wdog (x : Context) (w : Warp) : (x.setWarp w).wdog = x.wdog := rfl
@[simp] theorem setWarp_rndseed (x : Context) (w : Warp) : (x.setWarp w).rndseed = x.rndseed := rfl
@[simp] theorem setWarp_gencfg (x : Context) (w : Warp) : (x.setWarp w).gencfg = x.gencfg := rfl
@[simp] theorem setWarp_wawdrop (x : Context) (w : Warp) : (x.setWarp w).wawdrop = x.wawdrop := rfl
@[simp] theorem setWarp_gtdrop (x : Context) (w : Warp) : (x.setWarp w).gtdrop = x.gtdrop := rfl
@[simp] theorem setWarp_utvec (x : Context) (w : Warp) : (x.setWarp w).utvec = x.utvec := rfl
@[simp] theorem setWarp_sliceLeft (x : Context) (w : Warp) : (x.setWarp w).sliceLeft = x.sliceLeft := rfl
@[simp] theorem setWarp_signalAt (x : Context) (w : Warp) : (x.setWarp w).signalAt = x.signalAt := rfl
@[simp] theorem setWarp_forceAt (x : Context) (w : Warp) : (x.setWarp w).forceAt = x.forceAt := rfl
@[simp] theorem setWarp_unsignalled (x : Context) (w : Warp) : (x.setWarp w).unsignalled = x.unsignalled := rfl
@[simp] theorem setWarp_busy (x : Context) (w : Warp) : (x.setWarp w).busy = x.busy := rfl
@[simp] theorem setWarp_taken (x : Context) (w : Warp) : (x.setWarp w).taken = x.taken := rfl
@[simp] theorem setWarp_submitted (x : Context) (w : Warp) : (x.setWarp w).submitted = x.submitted := rfl
@[simp] theorem setWarp_nextQ (x : Context) (w : Warp) : (x.setWarp w).nextQ = x.nextQ := rfl
@[simp] theorem setWarp_launches (x : Context) (w : Warp) : (x.setWarp w).launches = x.launches := rfl
@[simp] theorem setWarp_blocks (x : Context) (w : Warp) : (x.setWarp w).blocks = x.blocks := rfl
@[simp] theorem setWarp_queues (x : Context) (w : Warp) : (x.setWarp w).queues = x.queues := rfl
@[simp] theorem setWarp_barGens (x : Context) (w : Warp) : (x.setWarp w).barGens = x.barGens := rfl
@[simp] theorem setWarp_barCount (x : Context) (w : Warp) : (x.setWarp w).barCount = x.barCount := rfl
@[simp] theorem setWarp_closings (x : Context) (w : Warp) : (x.setWarp w).closings = x.closings := rfl
@[simp] theorem setWarp_bcValue (x : Context) (w : Warp) : (x.setWarp w).bcValue = x.bcValue := rfl
@[simp] theorem setWarp_bcGen (x : Context) (w : Warp) : (x.setWarp w).bcGen = x.bcGen := rfl
@[simp] theorem setWarp_bcasts (x : Context) (w : Warp) : (x.setWarp w).bcasts = x.bcasts := rfl
@[simp] theorem setWarp_rxGen (x : Context) (w : Warp) : (x.setWarp w).rxGen = x.rxGen := rfl
@[simp] theorem setWarp_channels (x : Context) (w : Warp) : (x.setWarp w).channels = x.channels := rfl
@[simp] theorem setWarp_posted (x : Context) (w : Warp) : (x.setWarp w).posted = x.posted := rfl
@[simp] theorem setWarp_cards (x : Context) (w : Warp) : (x.setWarp w).cards = x.cards := rfl
@[simp] theorem setWarp_engOps (x : Context) (w : Warp) : (x.setWarp w).engOps = x.engOps := rfl
@[simp] theorem setWarp_accMem (x : Context) (w : Warp) : (x.setWarp w).accMem = x.accMem := rfl
@[simp] theorem setWarp_accTaken (x : Context) (w : Warp) : (x.setWarp w).accTaken = x.accTaken := rfl
@[simp] theorem setWarp_accesses (x : Context) (w : Warp) : (x.setWarp w).accesses = x.accesses := rfl
@[simp] theorem setWarp_owed (x : Context) (w : Warp) : (x.setWarp w).owed = x.owed := rfl
@[simp] theorem setWarp_absent (x : Context) (w : Warp) : (x.setWarp w).absent = x.absent := rfl

/-! ### A launch put back -/

@[simp] theorem setLaunch_id (x : Context) (l : Launch) : (x.setLaunch l).id = x.id := rfl
@[simp] theorem setLaunch_born (x : Context) (l : Launch) : (x.setLaunch l).born = x.born := rfl
@[simp] theorem setLaunch_p (x : Context) (l : Launch) : (x.setLaunch l).p = x.p := rfl
@[simp] theorem setLaunch_state (x : Context) (l : Launch) : (x.setLaunch l).state = x.state := rfl
@[simp] theorem setLaunch_hw (x : Context) (l : Launch) : (x.setLaunch l).hw = x.hw := rfl
@[simp] theorem setLaunch_ctx (x : Context) (l : Launch) : (x.setLaunch l).ctx = x.ctx := rfl
@[simp] theorem setLaunch_fairt (x : Context) (l : Launch) : (x.setLaunch l).fairt = x.fairt := rfl
@[simp] theorem setLaunch_fairq (x : Context) (l : Launch) : (x.setLaunch l).fairq = x.fairq := rfl
@[simp] theorem setLaunch_wdog (x : Context) (l : Launch) : (x.setLaunch l).wdog = x.wdog := rfl
@[simp] theorem setLaunch_rndseed (x : Context) (l : Launch) : (x.setLaunch l).rndseed = x.rndseed := rfl
@[simp] theorem setLaunch_gencfg (x : Context) (l : Launch) : (x.setLaunch l).gencfg = x.gencfg := rfl
@[simp] theorem setLaunch_wawdrop (x : Context) (l : Launch) : (x.setLaunch l).wawdrop = x.wawdrop := rfl
@[simp] theorem setLaunch_gtdrop (x : Context) (l : Launch) : (x.setLaunch l).gtdrop = x.gtdrop := rfl
@[simp] theorem setLaunch_utvec (x : Context) (l : Launch) : (x.setLaunch l).utvec = x.utvec := rfl
@[simp] theorem setLaunch_sliceLeft (x : Context) (l : Launch) : (x.setLaunch l).sliceLeft = x.sliceLeft := rfl
@[simp] theorem setLaunch_signalAt (x : Context) (l : Launch) : (x.setLaunch l).signalAt = x.signalAt := rfl
@[simp] theorem setLaunch_forceAt (x : Context) (l : Launch) : (x.setLaunch l).forceAt = x.forceAt := rfl
@[simp] theorem setLaunch_unsignalled (x : Context) (l : Launch) : (x.setLaunch l).unsignalled = x.unsignalled := rfl
@[simp] theorem setLaunch_busy (x : Context) (l : Launch) : (x.setLaunch l).busy = x.busy := rfl
@[simp] theorem setLaunch_taken (x : Context) (l : Launch) : (x.setLaunch l).taken = x.taken := rfl
@[simp] theorem setLaunch_submitted (x : Context) (l : Launch) : (x.setLaunch l).submitted = x.submitted := rfl
@[simp] theorem setLaunch_nextQ (x : Context) (l : Launch) : (x.setLaunch l).nextQ = x.nextQ := rfl
@[simp] theorem setLaunch_blocks (x : Context) (l : Launch) : (x.setLaunch l).blocks = x.blocks := rfl
@[simp] theorem setLaunch_warps (x : Context) (l : Launch) : (x.setLaunch l).warps = x.warps := rfl
@[simp] theorem setLaunch_queues (x : Context) (l : Launch) : (x.setLaunch l).queues = x.queues := rfl
@[simp] theorem setLaunch_barGens (x : Context) (l : Launch) : (x.setLaunch l).barGens = x.barGens := rfl
@[simp] theorem setLaunch_barCount (x : Context) (l : Launch) : (x.setLaunch l).barCount = x.barCount := rfl
@[simp] theorem setLaunch_closings (x : Context) (l : Launch) : (x.setLaunch l).closings = x.closings := rfl
@[simp] theorem setLaunch_bcValue (x : Context) (l : Launch) : (x.setLaunch l).bcValue = x.bcValue := rfl
@[simp] theorem setLaunch_bcGen (x : Context) (l : Launch) : (x.setLaunch l).bcGen = x.bcGen := rfl
@[simp] theorem setLaunch_bcasts (x : Context) (l : Launch) : (x.setLaunch l).bcasts = x.bcasts := rfl
@[simp] theorem setLaunch_channels (x : Context) (l : Launch) : (x.setLaunch l).channels = x.channels := rfl
@[simp] theorem setLaunch_posted (x : Context) (l : Launch) : (x.setLaunch l).posted = x.posted := rfl
@[simp] theorem setLaunch_cards (x : Context) (l : Launch) : (x.setLaunch l).cards = x.cards := rfl
@[simp] theorem setLaunch_engOps (x : Context) (l : Launch) : (x.setLaunch l).engOps = x.engOps := rfl
@[simp] theorem setLaunch_accMem (x : Context) (l : Launch) : (x.setLaunch l).accMem = x.accMem := rfl
@[simp] theorem setLaunch_accTaken (x : Context) (l : Launch) : (x.setLaunch l).accTaken = x.accTaken := rfl
@[simp] theorem setLaunch_accesses (x : Context) (l : Launch) : (x.setLaunch l).accesses = x.accesses := rfl
@[simp] theorem setLaunch_owed (x : Context) (l : Launch) : (x.setLaunch l).owed = x.owed := rfl
@[simp] theorem setLaunch_absent (x : Context) (l : Launch) : (x.setLaunch l).absent = x.absent := rfl

/-! ### A block put back -/

@[simp] theorem setBlock_id (x : Context) (b : Block) : (x.setBlock b).id = x.id := rfl
@[simp] theorem setBlock_born (x : Context) (b : Block) : (x.setBlock b).born = x.born := rfl
@[simp] theorem setBlock_p (x : Context) (b : Block) : (x.setBlock b).p = x.p := rfl
@[simp] theorem setBlock_state (x : Context) (b : Block) : (x.setBlock b).state = x.state := rfl
@[simp] theorem setBlock_hw (x : Context) (b : Block) : (x.setBlock b).hw = x.hw := rfl
@[simp] theorem setBlock_ctx (x : Context) (b : Block) : (x.setBlock b).ctx = x.ctx := rfl
@[simp] theorem setBlock_fairt (x : Context) (b : Block) : (x.setBlock b).fairt = x.fairt := rfl
@[simp] theorem setBlock_fairq (x : Context) (b : Block) : (x.setBlock b).fairq = x.fairq := rfl
@[simp] theorem setBlock_wdog (x : Context) (b : Block) : (x.setBlock b).wdog = x.wdog := rfl
@[simp] theorem setBlock_rndseed (x : Context) (b : Block) : (x.setBlock b).rndseed = x.rndseed := rfl
@[simp] theorem setBlock_gencfg (x : Context) (b : Block) : (x.setBlock b).gencfg = x.gencfg := rfl
@[simp] theorem setBlock_wawdrop (x : Context) (b : Block) : (x.setBlock b).wawdrop = x.wawdrop := rfl
@[simp] theorem setBlock_gtdrop (x : Context) (b : Block) : (x.setBlock b).gtdrop = x.gtdrop := rfl
@[simp] theorem setBlock_utvec (x : Context) (b : Block) : (x.setBlock b).utvec = x.utvec := rfl
@[simp] theorem setBlock_sliceLeft (x : Context) (b : Block) : (x.setBlock b).sliceLeft = x.sliceLeft := rfl
@[simp] theorem setBlock_signalAt (x : Context) (b : Block) : (x.setBlock b).signalAt = x.signalAt := rfl
@[simp] theorem setBlock_forceAt (x : Context) (b : Block) : (x.setBlock b).forceAt = x.forceAt := rfl
@[simp] theorem setBlock_unsignalled (x : Context) (b : Block) : (x.setBlock b).unsignalled = x.unsignalled := rfl
@[simp] theorem setBlock_busy (x : Context) (b : Block) : (x.setBlock b).busy = x.busy := rfl
@[simp] theorem setBlock_taken (x : Context) (b : Block) : (x.setBlock b).taken = x.taken := rfl
@[simp] theorem setBlock_submitted (x : Context) (b : Block) : (x.setBlock b).submitted = x.submitted := rfl
@[simp] theorem setBlock_nextQ (x : Context) (b : Block) : (x.setBlock b).nextQ = x.nextQ := rfl
@[simp] theorem setBlock_launches (x : Context) (b : Block) : (x.setBlock b).launches = x.launches := rfl
@[simp] theorem setBlock_warps (x : Context) (b : Block) : (x.setBlock b).warps = x.warps := rfl
@[simp] theorem setBlock_queues (x : Context) (b : Block) : (x.setBlock b).queues = x.queues := rfl
@[simp] theorem setBlock_barGens (x : Context) (b : Block) : (x.setBlock b).barGens = x.barGens := rfl
@[simp] theorem setBlock_barCount (x : Context) (b : Block) : (x.setBlock b).barCount = x.barCount := rfl
@[simp] theorem setBlock_closings (x : Context) (b : Block) : (x.setBlock b).closings = x.closings := rfl
@[simp] theorem setBlock_bcValue (x : Context) (b : Block) : (x.setBlock b).bcValue = x.bcValue := rfl
@[simp] theorem setBlock_bcGen (x : Context) (b : Block) : (x.setBlock b).bcGen = x.bcGen := rfl
@[simp] theorem setBlock_bcasts (x : Context) (b : Block) : (x.setBlock b).bcasts = x.bcasts := rfl
@[simp] theorem setBlock_channels (x : Context) (b : Block) : (x.setBlock b).channels = x.channels := rfl
@[simp] theorem setBlock_posted (x : Context) (b : Block) : (x.setBlock b).posted = x.posted := rfl
@[simp] theorem setBlock_cards (x : Context) (b : Block) : (x.setBlock b).cards = x.cards := rfl
@[simp] theorem setBlock_engOps (x : Context) (b : Block) : (x.setBlock b).engOps = x.engOps := rfl
@[simp] theorem setBlock_accMem (x : Context) (b : Block) : (x.setBlock b).accMem = x.accMem := rfl
@[simp] theorem setBlock_accTaken (x : Context) (b : Block) : (x.setBlock b).accTaken = x.accTaken := rfl
@[simp] theorem setBlock_accesses (x : Context) (b : Block) : (x.setBlock b).accesses = x.accesses := rfl
@[simp] theorem setBlock_owed (x : Context) (b : Block) : (x.setBlock b).owed = x.owed := rfl
@[simp] theorem setBlock_absent (x : Context) (b : Block) : (x.setBlock b).absent = x.absent := rfl

/-! ### A vector register written -/

@[simp] theorem writeV_uid (w : Warp) (r t : Nat) (v : Word) : (w.writeV r t v).uid = w.uid := rfl
@[simp] theorem writeV_wid (w : Warp) (r t : Nat) (v : Word) : (w.writeV r t v).wid = w.wid := rfl
@[simp] theorem writeV_q (w : Warp) (r t : Nat) (v : Word) : (w.writeV r t v).q = w.q := rfl
@[simp] theorem writeV_blk (w : Warp) (r t : Nat) (v : Word) : (w.writeV r t v).blk = w.blk := rfl
@[simp] theorem writeV_wblk (w : Warp) (r t : Nat) (v : Word) : (w.writeV r t v).wblk = w.wblk := rfl
@[simp] theorem writeV_age (w : Warp) (r t : Nat) (v : Word) : (w.writeV r t v).age = w.age := rfl
@[simp] theorem writeV_nregs (w : Warp) (r t : Nat) (v : Word) : (w.writeV r t v).nregs = w.nregs := rfl
@[simp] theorem writeV_allocGen (w : Warp) (r t : Nat) (v : Word) : (w.writeV r t v).allocGen = w.allocGen := rfl
@[simp] theorem writeV_sregs (w : Warp) (r t : Nat) (v : Word) : (w.writeV r t v).sregs = w.sregs := rfl
@[simp] theorem writeV_smarks (w : Warp) (r t : Nat) (v : Word) : (w.writeV r t v).smarks = w.smarks := rfl
@[simp] theorem writeV_preds (w : Warp) (r t : Nat) (v : Word) : (w.writeV r t v).preds = w.preds := rfl
@[simp] theorem writeV_slots (w : Warp) (r t : Nat) (v : Word) : (w.writeV r t v).slots = w.slots := rfl
@[simp] theorem writeV_tdn (w : Warp) (r t : Nat) (v : Word) : (w.writeV r t v).tdn = w.tdn := rfl
@[simp] theorem writeV_tdescs (w : Warp) (r t : Nat) (v : Word) : (w.writeV r t v).tdescs = w.tdescs := rfl
@[simp] theorem writeV_accs (w : Warp) (r t : Nat) (v : Word) : (w.writeV r t v).accs = w.accs := rfl
@[simp] theorem writeV_live (w : Warp) (r t : Nat) (v : Word) : (w.writeV r t v).live = w.live := rfl
@[simp] theorem writeV_frontier (w : Warp) (r t : Nat) (v : Word) : (w.writeV r t v).frontier = w.frontier := rfl
@[simp] theorem writeV_issues (w : Warp) (r t : Nat) (v : Word) : (w.writeV r t v).issues = w.issues := rfl
@[simp] theorem writeV_fc (w : Warp) (r t : Nat) (v : Word) : (w.writeV r t v).fc = w.fc := rfl
@[simp] theorem writeV_wc (w : Warp) (r t : Nat) (v : Word) : (w.writeV r t v).wc = w.wc := rfl
@[simp] theorem writeV_grantDue (w : Warp) (r t : Nat) (v : Word) : (w.writeV r t v).grantDue = w.grantDue := rfl
@[simp] theorem writeV_fcClear (w : Warp) (r t : Nat) (v : Word) : (w.writeV r t v).fcClear = w.fcClear := rfl
@[simp] theorem writeV_wcClear (w : Warp) (r t : Nat) (v : Word) : (w.writeV r t v).wcClear = w.wcClear := rfl
@[simp] theorem writeV_grantClear (w : Warp) (r t : Nat) (v : Word) : (w.writeV r t v).grantClear = w.grantClear := rfl
@[simp] theorem writeV_grantLeft (w : Warp) (r t : Nat) (v : Word) : (w.writeV r t v).grantLeft = w.grantLeft := rfl
@[simp] theorem writeV_wjoins (w : Warp) (r t : Nat) (v : Word) : (w.writeV r t v).wjoins = w.wjoins := rfl
@[simp] theorem writeV_csp (w : Warp) (r t : Nat) (v : Word) : (w.writeV r t v).csp = w.csp := rfl
@[simp] theorem writeV_rs (w : Warp) (r t : Nat) (v : Word) : (w.writeV r t v).rs = w.rs := rfl
@[simp] theorem writeV_lin (w : Warp) (r t : Nat) (v : Word) : (w.writeV r t v).lin = w.lin := rfl
@[simp] theorem writeV_midx (w : Warp) (r t : Nat) (v : Word) : (w.writeV r t v).midx = w.midx := rfl
@[simp] theorem writeV_mode (w : Warp) (r t : Nat) (v : Word) : (w.writeV r t v).mode = w.mode := rfl
@[simp] theorem writeV_saved (w : Warp) (r t : Nat) (v : Word) : (w.writeV r t v).saved = w.saved := rfl
@[simp] theorem writeV_signal (w : Warp) (r t : Nat) (v : Word) : (w.writeV r t v).signal = w.signal := rfl
@[simp] theorem writeV_park (w : Warp) (r t : Nat) (v : Word) : (w.writeV r t v).park = w.park := rfl
@[simp] theorem writeV_refused (w : Warp) (r t : Nat) (v : Word) : (w.writeV r t v).refused = w.refused := rfl
@[simp] theorem writeV_growRefused (w : Warp) (r t : Nat) (v : Word) : (w.writeV r t v).growRefused = w.growRefused := rfl
@[simp] theorem writeV_halted (w : Warp) (r t : Nat) (v : Word) : (w.writeV r t v).halted = w.halted := rfl
@[simp] theorem writeV_region (w : Warp) (r t : Nat) (v : Word) : (w.writeV r t v).region = w.region := rfl
@[simp] theorem writeV_mstat (w : Warp) (r t : Nat) (v : Word) : (w.writeV r t v).mstat = w.mstat := rfl
@[simp] theorem writeV_mtrap (w : Warp) (r t : Nat) (v : Word) : (w.writeV r t v).mtrap = w.mtrap := rfl
@[simp] theorem writeV_remFail (w : Warp) (r t : Nat) (v : Word) : (w.writeV r t v).remFail = w.remFail := rfl
@[simp] theorem writeV_bcSeen (w : Warp) (r t : Nat) (v : Word) : (w.writeV r t v).bcSeen = w.bcSeen := rfl
@[simp] theorem writeV_recvs (w : Warp) (r t : Nat) (v : Word) : (w.writeV r t v).recvs = w.recvs := rfl
@[simp] theorem writeV_sends (w : Warp) (r t : Nat) (v : Word) : (w.writeV r t v).sends = w.sends := rfl
@[simp] theorem writeV_uepc (w : Warp) (r t : Nat) (v : Word) : (w.writeV r t v).uepc = w.uepc := rfl
@[simp] theorem writeV_ucause (w : Warp) (r t : Nat) (v : Word) : (w.writeV r t v).ucause = w.ucause := rfl
@[simp] theorem writeV_utval (w : Warp) (r t : Nat) (v : Word) : (w.writeV r t v).utval = w.utval := rfl
@[simp] theorem writeV_ufmask (w : Warp) (r t : Nat) (v : Word) : (w.writeV r t v).ufmask = w.ufmask := rfl
@[simp] theorem writeV_uscr (w : Warp) (r t : Nat) (v : Word) : (w.writeV r t v).uscr = w.uscr := rfl
@[simp] theorem writeV_flsel (w : Warp) (r t : Nat) (v : Word) : (w.writeV r t v).flsel = w.flsel := rfl
@[simp] theorem writeV_finsn (w : Warp) (r t : Nat) (v : Word) : (w.writeV r t v).finsn = w.finsn := rfl
@[simp] theorem writeV_flact (w : Warp) (r t : Nat) (v : Word) : (w.writeV r t v).flact = w.flact := rfl
@[simp] theorem writeV_fcause (w : Warp) (r t : Nat) (v : Word) : (w.writeV r t v).fcause = w.fcause := rfl
@[simp] theorem writeV_gens (w : Warp) (r t : Nat) (v : Word) : (w.writeV r t v).gens = w.gens := rfl
@[simp] theorem writeV_faults (w : Warp) (r t : Nat) (v : Word) : (w.writeV r t v).faults = w.faults := rfl

/-! ### A uniform register written -/

@[simp] theorem writeS_uid (w : Warp) (r : Nat) (v : Word) : (w.writeS r v).uid = w.uid := rfl
@[simp] theorem writeS_wid (w : Warp) (r : Nat) (v : Word) : (w.writeS r v).wid = w.wid := rfl
@[simp] theorem writeS_q (w : Warp) (r : Nat) (v : Word) : (w.writeS r v).q = w.q := rfl
@[simp] theorem writeS_blk (w : Warp) (r : Nat) (v : Word) : (w.writeS r v).blk = w.blk := rfl
@[simp] theorem writeS_wblk (w : Warp) (r : Nat) (v : Word) : (w.writeS r v).wblk = w.wblk := rfl
@[simp] theorem writeS_age (w : Warp) (r : Nat) (v : Word) : (w.writeS r v).age = w.age := rfl
@[simp] theorem writeS_nregs (w : Warp) (r : Nat) (v : Word) : (w.writeS r v).nregs = w.nregs := rfl
@[simp] theorem writeS_allocGen (w : Warp) (r : Nat) (v : Word) : (w.writeS r v).allocGen = w.allocGen := rfl
@[simp] theorem writeS_vregs (w : Warp) (r : Nat) (v : Word) : (w.writeS r v).vregs = w.vregs := rfl
@[simp] theorem writeS_vmarks (w : Warp) (r : Nat) (v : Word) : (w.writeS r v).vmarks = w.vmarks := rfl
@[simp] theorem writeS_preds (w : Warp) (r : Nat) (v : Word) : (w.writeS r v).preds = w.preds := rfl
@[simp] theorem writeS_slots (w : Warp) (r : Nat) (v : Word) : (w.writeS r v).slots = w.slots := rfl
@[simp] theorem writeS_tdn (w : Warp) (r : Nat) (v : Word) : (w.writeS r v).tdn = w.tdn := rfl
@[simp] theorem writeS_tdescs (w : Warp) (r : Nat) (v : Word) : (w.writeS r v).tdescs = w.tdescs := rfl
@[simp] theorem writeS_accs (w : Warp) (r : Nat) (v : Word) : (w.writeS r v).accs = w.accs := rfl
@[simp] theorem writeS_live (w : Warp) (r : Nat) (v : Word) : (w.writeS r v).live = w.live := rfl
@[simp] theorem writeS_frontier (w : Warp) (r : Nat) (v : Word) : (w.writeS r v).frontier = w.frontier := rfl
@[simp] theorem writeS_issues (w : Warp) (r : Nat) (v : Word) : (w.writeS r v).issues = w.issues := rfl
@[simp] theorem writeS_fc (w : Warp) (r : Nat) (v : Word) : (w.writeS r v).fc = w.fc := rfl
@[simp] theorem writeS_wc (w : Warp) (r : Nat) (v : Word) : (w.writeS r v).wc = w.wc := rfl
@[simp] theorem writeS_grantDue (w : Warp) (r : Nat) (v : Word) : (w.writeS r v).grantDue = w.grantDue := rfl
@[simp] theorem writeS_fcClear (w : Warp) (r : Nat) (v : Word) : (w.writeS r v).fcClear = w.fcClear := rfl
@[simp] theorem writeS_wcClear (w : Warp) (r : Nat) (v : Word) : (w.writeS r v).wcClear = w.wcClear := rfl
@[simp] theorem writeS_grantClear (w : Warp) (r : Nat) (v : Word) : (w.writeS r v).grantClear = w.grantClear := rfl
@[simp] theorem writeS_grantLeft (w : Warp) (r : Nat) (v : Word) : (w.writeS r v).grantLeft = w.grantLeft := rfl
@[simp] theorem writeS_wjoins (w : Warp) (r : Nat) (v : Word) : (w.writeS r v).wjoins = w.wjoins := rfl
@[simp] theorem writeS_csp (w : Warp) (r : Nat) (v : Word) : (w.writeS r v).csp = w.csp := rfl
@[simp] theorem writeS_rs (w : Warp) (r : Nat) (v : Word) : (w.writeS r v).rs = w.rs := rfl
@[simp] theorem writeS_lin (w : Warp) (r : Nat) (v : Word) : (w.writeS r v).lin = w.lin := rfl
@[simp] theorem writeS_midx (w : Warp) (r : Nat) (v : Word) : (w.writeS r v).midx = w.midx := rfl
@[simp] theorem writeS_mode (w : Warp) (r : Nat) (v : Word) : (w.writeS r v).mode = w.mode := rfl
@[simp] theorem writeS_saved (w : Warp) (r : Nat) (v : Word) : (w.writeS r v).saved = w.saved := rfl
@[simp] theorem writeS_signal (w : Warp) (r : Nat) (v : Word) : (w.writeS r v).signal = w.signal := rfl
@[simp] theorem writeS_park (w : Warp) (r : Nat) (v : Word) : (w.writeS r v).park = w.park := rfl
@[simp] theorem writeS_refused (w : Warp) (r : Nat) (v : Word) : (w.writeS r v).refused = w.refused := rfl
@[simp] theorem writeS_growRefused (w : Warp) (r : Nat) (v : Word) : (w.writeS r v).growRefused = w.growRefused := rfl
@[simp] theorem writeS_halted (w : Warp) (r : Nat) (v : Word) : (w.writeS r v).halted = w.halted := rfl
@[simp] theorem writeS_region (w : Warp) (r : Nat) (v : Word) : (w.writeS r v).region = w.region := rfl
@[simp] theorem writeS_mstat (w : Warp) (r : Nat) (v : Word) : (w.writeS r v).mstat = w.mstat := rfl
@[simp] theorem writeS_mtrap (w : Warp) (r : Nat) (v : Word) : (w.writeS r v).mtrap = w.mtrap := rfl
@[simp] theorem writeS_remFail (w : Warp) (r : Nat) (v : Word) : (w.writeS r v).remFail = w.remFail := rfl
@[simp] theorem writeS_bcSeen (w : Warp) (r : Nat) (v : Word) : (w.writeS r v).bcSeen = w.bcSeen := rfl
@[simp] theorem writeS_recvs (w : Warp) (r : Nat) (v : Word) : (w.writeS r v).recvs = w.recvs := rfl
@[simp] theorem writeS_sends (w : Warp) (r : Nat) (v : Word) : (w.writeS r v).sends = w.sends := rfl
@[simp] theorem writeS_uepc (w : Warp) (r : Nat) (v : Word) : (w.writeS r v).uepc = w.uepc := rfl
@[simp] theorem writeS_ucause (w : Warp) (r : Nat) (v : Word) : (w.writeS r v).ucause = w.ucause := rfl
@[simp] theorem writeS_utval (w : Warp) (r : Nat) (v : Word) : (w.writeS r v).utval = w.utval := rfl
@[simp] theorem writeS_ufmask (w : Warp) (r : Nat) (v : Word) : (w.writeS r v).ufmask = w.ufmask := rfl
@[simp] theorem writeS_uscr (w : Warp) (r : Nat) (v : Word) : (w.writeS r v).uscr = w.uscr := rfl
@[simp] theorem writeS_flsel (w : Warp) (r : Nat) (v : Word) : (w.writeS r v).flsel = w.flsel := rfl
@[simp] theorem writeS_finsn (w : Warp) (r : Nat) (v : Word) : (w.writeS r v).finsn = w.finsn := rfl
@[simp] theorem writeS_flact (w : Warp) (r : Nat) (v : Word) : (w.writeS r v).flact = w.flact := rfl
@[simp] theorem writeS_fcause (w : Warp) (r : Nat) (v : Word) : (w.writeS r v).fcause = w.fcause := rfl
@[simp] theorem writeS_gens (w : Warp) (r : Nat) (v : Word) : (w.writeS r v).gens = w.gens := rfl
@[simp] theorem writeS_faults (w : Warp) (r : Nat) (v : Word) : (w.writeS r v).faults = w.faults := rfl

/-! ### A vector register marked -/

@[simp] theorem markV_uid (w : Warp) (r t : Nat) (m : Mark) : (w.markV r t m).uid = w.uid := rfl
@[simp] theorem markV_wid (w : Warp) (r t : Nat) (m : Mark) : (w.markV r t m).wid = w.wid := rfl
@[simp] theorem markV_q (w : Warp) (r t : Nat) (m : Mark) : (w.markV r t m).q = w.q := rfl
@[simp] theorem markV_blk (w : Warp) (r t : Nat) (m : Mark) : (w.markV r t m).blk = w.blk := rfl
@[simp] theorem markV_wblk (w : Warp) (r t : Nat) (m : Mark) : (w.markV r t m).wblk = w.wblk := rfl
@[simp] theorem markV_age (w : Warp) (r t : Nat) (m : Mark) : (w.markV r t m).age = w.age := rfl
@[simp] theorem markV_nregs (w : Warp) (r t : Nat) (m : Mark) : (w.markV r t m).nregs = w.nregs := rfl
@[simp] theorem markV_allocGen (w : Warp) (r t : Nat) (m : Mark) : (w.markV r t m).allocGen = w.allocGen := rfl
@[simp] theorem markV_vregs (w : Warp) (r t : Nat) (m : Mark) : (w.markV r t m).vregs = w.vregs := rfl
@[simp] theorem markV_sregs (w : Warp) (r t : Nat) (m : Mark) : (w.markV r t m).sregs = w.sregs := rfl
@[simp] theorem markV_smarks (w : Warp) (r t : Nat) (m : Mark) : (w.markV r t m).smarks = w.smarks := rfl
@[simp] theorem markV_preds (w : Warp) (r t : Nat) (m : Mark) : (w.markV r t m).preds = w.preds := rfl
@[simp] theorem markV_slots (w : Warp) (r t : Nat) (m : Mark) : (w.markV r t m).slots = w.slots := rfl
@[simp] theorem markV_tdn (w : Warp) (r t : Nat) (m : Mark) : (w.markV r t m).tdn = w.tdn := rfl
@[simp] theorem markV_tdescs (w : Warp) (r t : Nat) (m : Mark) : (w.markV r t m).tdescs = w.tdescs := rfl
@[simp] theorem markV_accs (w : Warp) (r t : Nat) (m : Mark) : (w.markV r t m).accs = w.accs := rfl
@[simp] theorem markV_live (w : Warp) (r t : Nat) (m : Mark) : (w.markV r t m).live = w.live := rfl
@[simp] theorem markV_frontier (w : Warp) (r t : Nat) (m : Mark) : (w.markV r t m).frontier = w.frontier := rfl
@[simp] theorem markV_issues (w : Warp) (r t : Nat) (m : Mark) : (w.markV r t m).issues = w.issues := rfl
@[simp] theorem markV_fc (w : Warp) (r t : Nat) (m : Mark) : (w.markV r t m).fc = w.fc := rfl
@[simp] theorem markV_wc (w : Warp) (r t : Nat) (m : Mark) : (w.markV r t m).wc = w.wc := rfl
@[simp] theorem markV_grantDue (w : Warp) (r t : Nat) (m : Mark) : (w.markV r t m).grantDue = w.grantDue := rfl
@[simp] theorem markV_fcClear (w : Warp) (r t : Nat) (m : Mark) : (w.markV r t m).fcClear = w.fcClear := rfl
@[simp] theorem markV_wcClear (w : Warp) (r t : Nat) (m : Mark) : (w.markV r t m).wcClear = w.wcClear := rfl
@[simp] theorem markV_grantClear (w : Warp) (r t : Nat) (m : Mark) : (w.markV r t m).grantClear = w.grantClear := rfl
@[simp] theorem markV_grantLeft (w : Warp) (r t : Nat) (m : Mark) : (w.markV r t m).grantLeft = w.grantLeft := rfl
@[simp] theorem markV_wjoins (w : Warp) (r t : Nat) (m : Mark) : (w.markV r t m).wjoins = w.wjoins := rfl
@[simp] theorem markV_csp (w : Warp) (r t : Nat) (m : Mark) : (w.markV r t m).csp = w.csp := rfl
@[simp] theorem markV_rs (w : Warp) (r t : Nat) (m : Mark) : (w.markV r t m).rs = w.rs := rfl
@[simp] theorem markV_lin (w : Warp) (r t : Nat) (m : Mark) : (w.markV r t m).lin = w.lin := rfl
@[simp] theorem markV_midx (w : Warp) (r t : Nat) (m : Mark) : (w.markV r t m).midx = w.midx := rfl
@[simp] theorem markV_mode (w : Warp) (r t : Nat) (m : Mark) : (w.markV r t m).mode = w.mode := rfl
@[simp] theorem markV_saved (w : Warp) (r t : Nat) (m : Mark) : (w.markV r t m).saved = w.saved := rfl
@[simp] theorem markV_signal (w : Warp) (r t : Nat) (m : Mark) : (w.markV r t m).signal = w.signal := rfl
@[simp] theorem markV_park (w : Warp) (r t : Nat) (m : Mark) : (w.markV r t m).park = w.park := rfl
@[simp] theorem markV_refused (w : Warp) (r t : Nat) (m : Mark) : (w.markV r t m).refused = w.refused := rfl
@[simp] theorem markV_growRefused (w : Warp) (r t : Nat) (m : Mark) : (w.markV r t m).growRefused = w.growRefused := rfl
@[simp] theorem markV_halted (w : Warp) (r t : Nat) (m : Mark) : (w.markV r t m).halted = w.halted := rfl
@[simp] theorem markV_region (w : Warp) (r t : Nat) (m : Mark) : (w.markV r t m).region = w.region := rfl
@[simp] theorem markV_mstat (w : Warp) (r t : Nat) (m : Mark) : (w.markV r t m).mstat = w.mstat := rfl
@[simp] theorem markV_mtrap (w : Warp) (r t : Nat) (m : Mark) : (w.markV r t m).mtrap = w.mtrap := rfl
@[simp] theorem markV_remFail (w : Warp) (r t : Nat) (m : Mark) : (w.markV r t m).remFail = w.remFail := rfl
@[simp] theorem markV_bcSeen (w : Warp) (r t : Nat) (m : Mark) : (w.markV r t m).bcSeen = w.bcSeen := rfl
@[simp] theorem markV_recvs (w : Warp) (r t : Nat) (m : Mark) : (w.markV r t m).recvs = w.recvs := rfl
@[simp] theorem markV_sends (w : Warp) (r t : Nat) (m : Mark) : (w.markV r t m).sends = w.sends := rfl
@[simp] theorem markV_uepc (w : Warp) (r t : Nat) (m : Mark) : (w.markV r t m).uepc = w.uepc := rfl
@[simp] theorem markV_ucause (w : Warp) (r t : Nat) (m : Mark) : (w.markV r t m).ucause = w.ucause := rfl
@[simp] theorem markV_utval (w : Warp) (r t : Nat) (m : Mark) : (w.markV r t m).utval = w.utval := rfl
@[simp] theorem markV_ufmask (w : Warp) (r t : Nat) (m : Mark) : (w.markV r t m).ufmask = w.ufmask := rfl
@[simp] theorem markV_uscr (w : Warp) (r t : Nat) (m : Mark) : (w.markV r t m).uscr = w.uscr := rfl
@[simp] theorem markV_flsel (w : Warp) (r t : Nat) (m : Mark) : (w.markV r t m).flsel = w.flsel := rfl
@[simp] theorem markV_finsn (w : Warp) (r t : Nat) (m : Mark) : (w.markV r t m).finsn = w.finsn := rfl
@[simp] theorem markV_flact (w : Warp) (r t : Nat) (m : Mark) : (w.markV r t m).flact = w.flact := rfl
@[simp] theorem markV_fcause (w : Warp) (r t : Nat) (m : Mark) : (w.markV r t m).fcause = w.fcause := rfl
@[simp] theorem markV_gens (w : Warp) (r t : Nat) (m : Mark) : (w.markV r t m).gens = w.gens := rfl
@[simp] theorem markV_faults (w : Warp) (r t : Nat) (m : Mark) : (w.markV r t m).faults = w.faults := rfl

/-! ### A uniform register marked -/

@[simp] theorem markS_uid (w : Warp) (r : Nat) (m : Mark) : (w.markS r m).uid = w.uid := rfl
@[simp] theorem markS_wid (w : Warp) (r : Nat) (m : Mark) : (w.markS r m).wid = w.wid := rfl
@[simp] theorem markS_q (w : Warp) (r : Nat) (m : Mark) : (w.markS r m).q = w.q := rfl
@[simp] theorem markS_blk (w : Warp) (r : Nat) (m : Mark) : (w.markS r m).blk = w.blk := rfl
@[simp] theorem markS_wblk (w : Warp) (r : Nat) (m : Mark) : (w.markS r m).wblk = w.wblk := rfl
@[simp] theorem markS_age (w : Warp) (r : Nat) (m : Mark) : (w.markS r m).age = w.age := rfl
@[simp] theorem markS_nregs (w : Warp) (r : Nat) (m : Mark) : (w.markS r m).nregs = w.nregs := rfl
@[simp] theorem markS_allocGen (w : Warp) (r : Nat) (m : Mark) : (w.markS r m).allocGen = w.allocGen := rfl
@[simp] theorem markS_vregs (w : Warp) (r : Nat) (m : Mark) : (w.markS r m).vregs = w.vregs := rfl
@[simp] theorem markS_vmarks (w : Warp) (r : Nat) (m : Mark) : (w.markS r m).vmarks = w.vmarks := rfl
@[simp] theorem markS_sregs (w : Warp) (r : Nat) (m : Mark) : (w.markS r m).sregs = w.sregs := rfl
@[simp] theorem markS_preds (w : Warp) (r : Nat) (m : Mark) : (w.markS r m).preds = w.preds := rfl
@[simp] theorem markS_slots (w : Warp) (r : Nat) (m : Mark) : (w.markS r m).slots = w.slots := rfl
@[simp] theorem markS_tdn (w : Warp) (r : Nat) (m : Mark) : (w.markS r m).tdn = w.tdn := rfl
@[simp] theorem markS_tdescs (w : Warp) (r : Nat) (m : Mark) : (w.markS r m).tdescs = w.tdescs := rfl
@[simp] theorem markS_accs (w : Warp) (r : Nat) (m : Mark) : (w.markS r m).accs = w.accs := rfl
@[simp] theorem markS_live (w : Warp) (r : Nat) (m : Mark) : (w.markS r m).live = w.live := rfl
@[simp] theorem markS_frontier (w : Warp) (r : Nat) (m : Mark) : (w.markS r m).frontier = w.frontier := rfl
@[simp] theorem markS_issues (w : Warp) (r : Nat) (m : Mark) : (w.markS r m).issues = w.issues := rfl
@[simp] theorem markS_fc (w : Warp) (r : Nat) (m : Mark) : (w.markS r m).fc = w.fc := rfl
@[simp] theorem markS_wc (w : Warp) (r : Nat) (m : Mark) : (w.markS r m).wc = w.wc := rfl
@[simp] theorem markS_grantDue (w : Warp) (r : Nat) (m : Mark) : (w.markS r m).grantDue = w.grantDue := rfl
@[simp] theorem markS_fcClear (w : Warp) (r : Nat) (m : Mark) : (w.markS r m).fcClear = w.fcClear := rfl
@[simp] theorem markS_wcClear (w : Warp) (r : Nat) (m : Mark) : (w.markS r m).wcClear = w.wcClear := rfl
@[simp] theorem markS_grantClear (w : Warp) (r : Nat) (m : Mark) : (w.markS r m).grantClear = w.grantClear := rfl
@[simp] theorem markS_grantLeft (w : Warp) (r : Nat) (m : Mark) : (w.markS r m).grantLeft = w.grantLeft := rfl
@[simp] theorem markS_wjoins (w : Warp) (r : Nat) (m : Mark) : (w.markS r m).wjoins = w.wjoins := rfl
@[simp] theorem markS_csp (w : Warp) (r : Nat) (m : Mark) : (w.markS r m).csp = w.csp := rfl
@[simp] theorem markS_rs (w : Warp) (r : Nat) (m : Mark) : (w.markS r m).rs = w.rs := rfl
@[simp] theorem markS_lin (w : Warp) (r : Nat) (m : Mark) : (w.markS r m).lin = w.lin := rfl
@[simp] theorem markS_midx (w : Warp) (r : Nat) (m : Mark) : (w.markS r m).midx = w.midx := rfl
@[simp] theorem markS_mode (w : Warp) (r : Nat) (m : Mark) : (w.markS r m).mode = w.mode := rfl
@[simp] theorem markS_saved (w : Warp) (r : Nat) (m : Mark) : (w.markS r m).saved = w.saved := rfl
@[simp] theorem markS_signal (w : Warp) (r : Nat) (m : Mark) : (w.markS r m).signal = w.signal := rfl
@[simp] theorem markS_park (w : Warp) (r : Nat) (m : Mark) : (w.markS r m).park = w.park := rfl
@[simp] theorem markS_refused (w : Warp) (r : Nat) (m : Mark) : (w.markS r m).refused = w.refused := rfl
@[simp] theorem markS_growRefused (w : Warp) (r : Nat) (m : Mark) : (w.markS r m).growRefused = w.growRefused := rfl
@[simp] theorem markS_halted (w : Warp) (r : Nat) (m : Mark) : (w.markS r m).halted = w.halted := rfl
@[simp] theorem markS_region (w : Warp) (r : Nat) (m : Mark) : (w.markS r m).region = w.region := rfl
@[simp] theorem markS_mstat (w : Warp) (r : Nat) (m : Mark) : (w.markS r m).mstat = w.mstat := rfl
@[simp] theorem markS_mtrap (w : Warp) (r : Nat) (m : Mark) : (w.markS r m).mtrap = w.mtrap := rfl
@[simp] theorem markS_remFail (w : Warp) (r : Nat) (m : Mark) : (w.markS r m).remFail = w.remFail := rfl
@[simp] theorem markS_bcSeen (w : Warp) (r : Nat) (m : Mark) : (w.markS r m).bcSeen = w.bcSeen := rfl
@[simp] theorem markS_recvs (w : Warp) (r : Nat) (m : Mark) : (w.markS r m).recvs = w.recvs := rfl
@[simp] theorem markS_sends (w : Warp) (r : Nat) (m : Mark) : (w.markS r m).sends = w.sends := rfl
@[simp] theorem markS_uepc (w : Warp) (r : Nat) (m : Mark) : (w.markS r m).uepc = w.uepc := rfl
@[simp] theorem markS_ucause (w : Warp) (r : Nat) (m : Mark) : (w.markS r m).ucause = w.ucause := rfl
@[simp] theorem markS_utval (w : Warp) (r : Nat) (m : Mark) : (w.markS r m).utval = w.utval := rfl
@[simp] theorem markS_ufmask (w : Warp) (r : Nat) (m : Mark) : (w.markS r m).ufmask = w.ufmask := rfl
@[simp] theorem markS_uscr (w : Warp) (r : Nat) (m : Mark) : (w.markS r m).uscr = w.uscr := rfl
@[simp] theorem markS_flsel (w : Warp) (r : Nat) (m : Mark) : (w.markS r m).flsel = w.flsel := rfl
@[simp] theorem markS_finsn (w : Warp) (r : Nat) (m : Mark) : (w.markS r m).finsn = w.finsn := rfl
@[simp] theorem markS_flact (w : Warp) (r : Nat) (m : Mark) : (w.markS r m).flact = w.flact := rfl
@[simp] theorem markS_fcause (w : Warp) (r : Nat) (m : Mark) : (w.markS r m).fcause = w.fcause := rfl
@[simp] theorem markS_gens (w : Warp) (r : Nat) (m : Mark) : (w.markS r m).gens = w.gens := rfl
@[simp] theorem markS_faults (w : Warp) (r : Nat) (m : Mark) : (w.markS r m).faults = w.faults := rfl

/-! ### An accumulator handle set -/

@[simp] theorem setAcc_uid (w : Warp) (a : Nat) (v : Acc) : (w.setAcc a v).uid = w.uid := rfl
@[simp] theorem setAcc_wid (w : Warp) (a : Nat) (v : Acc) : (w.setAcc a v).wid = w.wid := rfl
@[simp] theorem setAcc_q (w : Warp) (a : Nat) (v : Acc) : (w.setAcc a v).q = w.q := rfl
@[simp] theorem setAcc_blk (w : Warp) (a : Nat) (v : Acc) : (w.setAcc a v).blk = w.blk := rfl
@[simp] theorem setAcc_wblk (w : Warp) (a : Nat) (v : Acc) : (w.setAcc a v).wblk = w.wblk := rfl
@[simp] theorem setAcc_age (w : Warp) (a : Nat) (v : Acc) : (w.setAcc a v).age = w.age := rfl
@[simp] theorem setAcc_nregs (w : Warp) (a : Nat) (v : Acc) : (w.setAcc a v).nregs = w.nregs := rfl
@[simp] theorem setAcc_allocGen (w : Warp) (a : Nat) (v : Acc) : (w.setAcc a v).allocGen = w.allocGen := rfl
@[simp] theorem setAcc_vregs (w : Warp) (a : Nat) (v : Acc) : (w.setAcc a v).vregs = w.vregs := rfl
@[simp] theorem setAcc_vmarks (w : Warp) (a : Nat) (v : Acc) : (w.setAcc a v).vmarks = w.vmarks := rfl
@[simp] theorem setAcc_sregs (w : Warp) (a : Nat) (v : Acc) : (w.setAcc a v).sregs = w.sregs := rfl
@[simp] theorem setAcc_smarks (w : Warp) (a : Nat) (v : Acc) : (w.setAcc a v).smarks = w.smarks := rfl
@[simp] theorem setAcc_preds (w : Warp) (a : Nat) (v : Acc) : (w.setAcc a v).preds = w.preds := rfl
@[simp] theorem setAcc_slots (w : Warp) (a : Nat) (v : Acc) : (w.setAcc a v).slots = w.slots := rfl
@[simp] theorem setAcc_tdn (w : Warp) (a : Nat) (v : Acc) : (w.setAcc a v).tdn = w.tdn := rfl
@[simp] theorem setAcc_tdescs (w : Warp) (a : Nat) (v : Acc) : (w.setAcc a v).tdescs = w.tdescs := rfl
@[simp] theorem setAcc_live (w : Warp) (a : Nat) (v : Acc) : (w.setAcc a v).live = w.live := rfl
@[simp] theorem setAcc_frontier (w : Warp) (a : Nat) (v : Acc) : (w.setAcc a v).frontier = w.frontier := rfl
@[simp] theorem setAcc_issues (w : Warp) (a : Nat) (v : Acc) : (w.setAcc a v).issues = w.issues := rfl
@[simp] theorem setAcc_fc (w : Warp) (a : Nat) (v : Acc) : (w.setAcc a v).fc = w.fc := rfl
@[simp] theorem setAcc_wc (w : Warp) (a : Nat) (v : Acc) : (w.setAcc a v).wc = w.wc := rfl
@[simp] theorem setAcc_grantDue (w : Warp) (a : Nat) (v : Acc) : (w.setAcc a v).grantDue = w.grantDue := rfl
@[simp] theorem setAcc_fcClear (w : Warp) (a : Nat) (v : Acc) : (w.setAcc a v).fcClear = w.fcClear := rfl
@[simp] theorem setAcc_wcClear (w : Warp) (a : Nat) (v : Acc) : (w.setAcc a v).wcClear = w.wcClear := rfl
@[simp] theorem setAcc_grantClear (w : Warp) (a : Nat) (v : Acc) : (w.setAcc a v).grantClear = w.grantClear := rfl
@[simp] theorem setAcc_grantLeft (w : Warp) (a : Nat) (v : Acc) : (w.setAcc a v).grantLeft = w.grantLeft := rfl
@[simp] theorem setAcc_wjoins (w : Warp) (a : Nat) (v : Acc) : (w.setAcc a v).wjoins = w.wjoins := rfl
@[simp] theorem setAcc_csp (w : Warp) (a : Nat) (v : Acc) : (w.setAcc a v).csp = w.csp := rfl
@[simp] theorem setAcc_rs (w : Warp) (a : Nat) (v : Acc) : (w.setAcc a v).rs = w.rs := rfl
@[simp] theorem setAcc_lin (w : Warp) (a : Nat) (v : Acc) : (w.setAcc a v).lin = w.lin := rfl
@[simp] theorem setAcc_midx (w : Warp) (a : Nat) (v : Acc) : (w.setAcc a v).midx = w.midx := rfl
@[simp] theorem setAcc_mode (w : Warp) (a : Nat) (v : Acc) : (w.setAcc a v).mode = w.mode := rfl
@[simp] theorem setAcc_saved (w : Warp) (a : Nat) (v : Acc) : (w.setAcc a v).saved = w.saved := rfl
@[simp] theorem setAcc_signal (w : Warp) (a : Nat) (v : Acc) : (w.setAcc a v).signal = w.signal := rfl
@[simp] theorem setAcc_park (w : Warp) (a : Nat) (v : Acc) : (w.setAcc a v).park = w.park := rfl
@[simp] theorem setAcc_refused (w : Warp) (a : Nat) (v : Acc) : (w.setAcc a v).refused = w.refused := rfl
@[simp] theorem setAcc_growRefused (w : Warp) (a : Nat) (v : Acc) : (w.setAcc a v).growRefused = w.growRefused := rfl
@[simp] theorem setAcc_halted (w : Warp) (a : Nat) (v : Acc) : (w.setAcc a v).halted = w.halted := rfl
@[simp] theorem setAcc_region (w : Warp) (a : Nat) (v : Acc) : (w.setAcc a v).region = w.region := rfl
@[simp] theorem setAcc_mstat (w : Warp) (a : Nat) (v : Acc) : (w.setAcc a v).mstat = w.mstat := rfl
@[simp] theorem setAcc_mtrap (w : Warp) (a : Nat) (v : Acc) : (w.setAcc a v).mtrap = w.mtrap := rfl
@[simp] theorem setAcc_remFail (w : Warp) (a : Nat) (v : Acc) : (w.setAcc a v).remFail = w.remFail := rfl
@[simp] theorem setAcc_bcSeen (w : Warp) (a : Nat) (v : Acc) : (w.setAcc a v).bcSeen = w.bcSeen := rfl
@[simp] theorem setAcc_recvs (w : Warp) (a : Nat) (v : Acc) : (w.setAcc a v).recvs = w.recvs := rfl
@[simp] theorem setAcc_sends (w : Warp) (a : Nat) (v : Acc) : (w.setAcc a v).sends = w.sends := rfl
@[simp] theorem setAcc_uepc (w : Warp) (a : Nat) (v : Acc) : (w.setAcc a v).uepc = w.uepc := rfl
@[simp] theorem setAcc_ucause (w : Warp) (a : Nat) (v : Acc) : (w.setAcc a v).ucause = w.ucause := rfl
@[simp] theorem setAcc_utval (w : Warp) (a : Nat) (v : Acc) : (w.setAcc a v).utval = w.utval := rfl
@[simp] theorem setAcc_ufmask (w : Warp) (a : Nat) (v : Acc) : (w.setAcc a v).ufmask = w.ufmask := rfl
@[simp] theorem setAcc_uscr (w : Warp) (a : Nat) (v : Acc) : (w.setAcc a v).uscr = w.uscr := rfl
@[simp] theorem setAcc_flsel (w : Warp) (a : Nat) (v : Acc) : (w.setAcc a v).flsel = w.flsel := rfl
@[simp] theorem setAcc_finsn (w : Warp) (a : Nat) (v : Acc) : (w.setAcc a v).finsn = w.finsn := rfl
@[simp] theorem setAcc_flact (w : Warp) (a : Nat) (v : Acc) : (w.setAcc a v).flact = w.flact := rfl
@[simp] theorem setAcc_fcause (w : Warp) (a : Nat) (v : Acc) : (w.setAcc a v).fcause = w.fcause := rfl
@[simp] theorem setAcc_gens (w : Warp) (a : Nat) (v : Acc) : (w.setAcc a v).gens = w.gens := rfl

/-! ### The flags of an accumulator handle -/

@[simp] theorem markAcc_uid (w : Warp) (a : Nat) (v : Acc) : (w.markAcc a v).uid = w.uid := rfl
@[simp] theorem markAcc_wid (w : Warp) (a : Nat) (v : Acc) : (w.markAcc a v).wid = w.wid := rfl
@[simp] theorem markAcc_q (w : Warp) (a : Nat) (v : Acc) : (w.markAcc a v).q = w.q := rfl
@[simp] theorem markAcc_blk (w : Warp) (a : Nat) (v : Acc) : (w.markAcc a v).blk = w.blk := rfl
@[simp] theorem markAcc_wblk (w : Warp) (a : Nat) (v : Acc) : (w.markAcc a v).wblk = w.wblk := rfl
@[simp] theorem markAcc_age (w : Warp) (a : Nat) (v : Acc) : (w.markAcc a v).age = w.age := rfl
@[simp] theorem markAcc_nregs (w : Warp) (a : Nat) (v : Acc) : (w.markAcc a v).nregs = w.nregs := rfl
@[simp] theorem markAcc_allocGen (w : Warp) (a : Nat) (v : Acc) : (w.markAcc a v).allocGen = w.allocGen := rfl
@[simp] theorem markAcc_vregs (w : Warp) (a : Nat) (v : Acc) : (w.markAcc a v).vregs = w.vregs := rfl
@[simp] theorem markAcc_vmarks (w : Warp) (a : Nat) (v : Acc) : (w.markAcc a v).vmarks = w.vmarks := rfl
@[simp] theorem markAcc_sregs (w : Warp) (a : Nat) (v : Acc) : (w.markAcc a v).sregs = w.sregs := rfl
@[simp] theorem markAcc_smarks (w : Warp) (a : Nat) (v : Acc) : (w.markAcc a v).smarks = w.smarks := rfl
@[simp] theorem markAcc_preds (w : Warp) (a : Nat) (v : Acc) : (w.markAcc a v).preds = w.preds := rfl
@[simp] theorem markAcc_slots (w : Warp) (a : Nat) (v : Acc) : (w.markAcc a v).slots = w.slots := rfl
@[simp] theorem markAcc_tdn (w : Warp) (a : Nat) (v : Acc) : (w.markAcc a v).tdn = w.tdn := rfl
@[simp] theorem markAcc_tdescs (w : Warp) (a : Nat) (v : Acc) : (w.markAcc a v).tdescs = w.tdescs := rfl
@[simp] theorem markAcc_live (w : Warp) (a : Nat) (v : Acc) : (w.markAcc a v).live = w.live := rfl
@[simp] theorem markAcc_frontier (w : Warp) (a : Nat) (v : Acc) : (w.markAcc a v).frontier = w.frontier := rfl
@[simp] theorem markAcc_issues (w : Warp) (a : Nat) (v : Acc) : (w.markAcc a v).issues = w.issues := rfl
@[simp] theorem markAcc_fc (w : Warp) (a : Nat) (v : Acc) : (w.markAcc a v).fc = w.fc := rfl
@[simp] theorem markAcc_wc (w : Warp) (a : Nat) (v : Acc) : (w.markAcc a v).wc = w.wc := rfl
@[simp] theorem markAcc_grantDue (w : Warp) (a : Nat) (v : Acc) : (w.markAcc a v).grantDue = w.grantDue := rfl
@[simp] theorem markAcc_fcClear (w : Warp) (a : Nat) (v : Acc) : (w.markAcc a v).fcClear = w.fcClear := rfl
@[simp] theorem markAcc_wcClear (w : Warp) (a : Nat) (v : Acc) : (w.markAcc a v).wcClear = w.wcClear := rfl
@[simp] theorem markAcc_grantClear (w : Warp) (a : Nat) (v : Acc) : (w.markAcc a v).grantClear = w.grantClear := rfl
@[simp] theorem markAcc_grantLeft (w : Warp) (a : Nat) (v : Acc) : (w.markAcc a v).grantLeft = w.grantLeft := rfl
@[simp] theorem markAcc_wjoins (w : Warp) (a : Nat) (v : Acc) : (w.markAcc a v).wjoins = w.wjoins := rfl
@[simp] theorem markAcc_csp (w : Warp) (a : Nat) (v : Acc) : (w.markAcc a v).csp = w.csp := rfl
@[simp] theorem markAcc_rs (w : Warp) (a : Nat) (v : Acc) : (w.markAcc a v).rs = w.rs := rfl
@[simp] theorem markAcc_lin (w : Warp) (a : Nat) (v : Acc) : (w.markAcc a v).lin = w.lin := rfl
@[simp] theorem markAcc_midx (w : Warp) (a : Nat) (v : Acc) : (w.markAcc a v).midx = w.midx := rfl
@[simp] theorem markAcc_mode (w : Warp) (a : Nat) (v : Acc) : (w.markAcc a v).mode = w.mode := rfl
@[simp] theorem markAcc_saved (w : Warp) (a : Nat) (v : Acc) : (w.markAcc a v).saved = w.saved := rfl
@[simp] theorem markAcc_signal (w : Warp) (a : Nat) (v : Acc) : (w.markAcc a v).signal = w.signal := rfl
@[simp] theorem markAcc_park (w : Warp) (a : Nat) (v : Acc) : (w.markAcc a v).park = w.park := rfl
@[simp] theorem markAcc_refused (w : Warp) (a : Nat) (v : Acc) : (w.markAcc a v).refused = w.refused := rfl
@[simp] theorem markAcc_growRefused (w : Warp) (a : Nat) (v : Acc) : (w.markAcc a v).growRefused = w.growRefused := rfl
@[simp] theorem markAcc_halted (w : Warp) (a : Nat) (v : Acc) : (w.markAcc a v).halted = w.halted := rfl
@[simp] theorem markAcc_region (w : Warp) (a : Nat) (v : Acc) : (w.markAcc a v).region = w.region := rfl
@[simp] theorem markAcc_mstat (w : Warp) (a : Nat) (v : Acc) : (w.markAcc a v).mstat = w.mstat := rfl
@[simp] theorem markAcc_mtrap (w : Warp) (a : Nat) (v : Acc) : (w.markAcc a v).mtrap = w.mtrap := rfl
@[simp] theorem markAcc_remFail (w : Warp) (a : Nat) (v : Acc) : (w.markAcc a v).remFail = w.remFail := rfl
@[simp] theorem markAcc_bcSeen (w : Warp) (a : Nat) (v : Acc) : (w.markAcc a v).bcSeen = w.bcSeen := rfl
@[simp] theorem markAcc_recvs (w : Warp) (a : Nat) (v : Acc) : (w.markAcc a v).recvs = w.recvs := rfl
@[simp] theorem markAcc_sends (w : Warp) (a : Nat) (v : Acc) : (w.markAcc a v).sends = w.sends := rfl
@[simp] theorem markAcc_uepc (w : Warp) (a : Nat) (v : Acc) : (w.markAcc a v).uepc = w.uepc := rfl
@[simp] theorem markAcc_ucause (w : Warp) (a : Nat) (v : Acc) : (w.markAcc a v).ucause = w.ucause := rfl
@[simp] theorem markAcc_utval (w : Warp) (a : Nat) (v : Acc) : (w.markAcc a v).utval = w.utval := rfl
@[simp] theorem markAcc_ufmask (w : Warp) (a : Nat) (v : Acc) : (w.markAcc a v).ufmask = w.ufmask := rfl
@[simp] theorem markAcc_uscr (w : Warp) (a : Nat) (v : Acc) : (w.markAcc a v).uscr = w.uscr := rfl
@[simp] theorem markAcc_flsel (w : Warp) (a : Nat) (v : Acc) : (w.markAcc a v).flsel = w.flsel := rfl
@[simp] theorem markAcc_finsn (w : Warp) (a : Nat) (v : Acc) : (w.markAcc a v).finsn = w.finsn := rfl
@[simp] theorem markAcc_flact (w : Warp) (a : Nat) (v : Acc) : (w.markAcc a v).flact = w.flact := rfl
@[simp] theorem markAcc_fcause (w : Warp) (a : Nat) (v : Acc) : (w.markAcc a v).fcause = w.fcause := rfl
@[simp] theorem markAcc_gens (w : Warp) (a : Nat) (v : Acc) : (w.markAcc a v).gens = w.gens := rfl
@[simp] theorem markAcc_faults (w : Warp) (a : Nat) (v : Acc) : (w.markAcc a v).faults = w.faults := rfl

/-! ### A predicate written -/

@[simp] theorem setPred_uid (w : Warp) (p : Nat) (l v : Mask) : (w.setPred p l v).uid = w.uid := by
  unfold Warp.setPred; split <;> rfl
@[simp] theorem setPred_wid (w : Warp) (p : Nat) (l v : Mask) : (w.setPred p l v).wid = w.wid := by
  unfold Warp.setPred; split <;> rfl
@[simp] theorem setPred_q (w : Warp) (p : Nat) (l v : Mask) : (w.setPred p l v).q = w.q := by
  unfold Warp.setPred; split <;> rfl
@[simp] theorem setPred_blk (w : Warp) (p : Nat) (l v : Mask) : (w.setPred p l v).blk = w.blk := by
  unfold Warp.setPred; split <;> rfl
@[simp] theorem setPred_wblk (w : Warp) (p : Nat) (l v : Mask) : (w.setPred p l v).wblk = w.wblk := by
  unfold Warp.setPred; split <;> rfl
@[simp] theorem setPred_age (w : Warp) (p : Nat) (l v : Mask) : (w.setPred p l v).age = w.age := by
  unfold Warp.setPred; split <;> rfl
@[simp] theorem setPred_nregs (w : Warp) (p : Nat) (l v : Mask) : (w.setPred p l v).nregs = w.nregs := by
  unfold Warp.setPred; split <;> rfl
@[simp] theorem setPred_allocGen (w : Warp) (p : Nat) (l v : Mask) : (w.setPred p l v).allocGen = w.allocGen := by
  unfold Warp.setPred; split <;> rfl
@[simp] theorem setPred_vregs (w : Warp) (p : Nat) (l v : Mask) : (w.setPred p l v).vregs = w.vregs := by
  unfold Warp.setPred; split <;> rfl
@[simp] theorem setPred_vmarks (w : Warp) (p : Nat) (l v : Mask) : (w.setPred p l v).vmarks = w.vmarks := by
  unfold Warp.setPred; split <;> rfl
@[simp] theorem setPred_sregs (w : Warp) (p : Nat) (l v : Mask) : (w.setPred p l v).sregs = w.sregs := by
  unfold Warp.setPred; split <;> rfl
@[simp] theorem setPred_smarks (w : Warp) (p : Nat) (l v : Mask) : (w.setPred p l v).smarks = w.smarks := by
  unfold Warp.setPred; split <;> rfl
@[simp] theorem setPred_slots (w : Warp) (p : Nat) (l v : Mask) : (w.setPred p l v).slots = w.slots := by
  unfold Warp.setPred; split <;> rfl
@[simp] theorem setPred_tdn (w : Warp) (p : Nat) (l v : Mask) : (w.setPred p l v).tdn = w.tdn := by
  unfold Warp.setPred; split <;> rfl
@[simp] theorem setPred_tdescs (w : Warp) (p : Nat) (l v : Mask) : (w.setPred p l v).tdescs = w.tdescs := by
  unfold Warp.setPred; split <;> rfl
@[simp] theorem setPred_accs (w : Warp) (p : Nat) (l v : Mask) : (w.setPred p l v).accs = w.accs := by
  unfold Warp.setPred; split <;> rfl
@[simp] theorem setPred_live (w : Warp) (p : Nat) (l v : Mask) : (w.setPred p l v).live = w.live := by
  unfold Warp.setPred; split <;> rfl
@[simp] theorem setPred_frontier (w : Warp) (p : Nat) (l v : Mask) : (w.setPred p l v).frontier = w.frontier := by
  unfold Warp.setPred; split <;> rfl
@[simp] theorem setPred_issues (w : Warp) (p : Nat) (l v : Mask) : (w.setPred p l v).issues = w.issues := by
  unfold Warp.setPred; split <;> rfl
@[simp] theorem setPred_fc (w : Warp) (p : Nat) (l v : Mask) : (w.setPred p l v).fc = w.fc := by
  unfold Warp.setPred; split <;> rfl
@[simp] theorem setPred_wc (w : Warp) (p : Nat) (l v : Mask) : (w.setPred p l v).wc = w.wc := by
  unfold Warp.setPred; split <;> rfl
@[simp] theorem setPred_grantDue (w : Warp) (p : Nat) (l v : Mask) : (w.setPred p l v).grantDue = w.grantDue := by
  unfold Warp.setPred; split <;> rfl
@[simp] theorem setPred_fcClear (w : Warp) (p : Nat) (l v : Mask) : (w.setPred p l v).fcClear = w.fcClear := by
  unfold Warp.setPred; split <;> rfl
@[simp] theorem setPred_wcClear (w : Warp) (p : Nat) (l v : Mask) : (w.setPred p l v).wcClear = w.wcClear := by
  unfold Warp.setPred; split <;> rfl
@[simp] theorem setPred_grantClear (w : Warp) (p : Nat) (l v : Mask) : (w.setPred p l v).grantClear = w.grantClear := by
  unfold Warp.setPred; split <;> rfl
@[simp] theorem setPred_grantLeft (w : Warp) (p : Nat) (l v : Mask) : (w.setPred p l v).grantLeft = w.grantLeft := by
  unfold Warp.setPred; split <;> rfl
@[simp] theorem setPred_wjoins (w : Warp) (p : Nat) (l v : Mask) : (w.setPred p l v).wjoins = w.wjoins := by
  unfold Warp.setPred; split <;> rfl
@[simp] theorem setPred_csp (w : Warp) (p : Nat) (l v : Mask) : (w.setPred p l v).csp = w.csp := by
  unfold Warp.setPred; split <;> rfl
@[simp] theorem setPred_rs (w : Warp) (p : Nat) (l v : Mask) : (w.setPred p l v).rs = w.rs := by
  unfold Warp.setPred; split <;> rfl
@[simp] theorem setPred_lin (w : Warp) (p : Nat) (l v : Mask) : (w.setPred p l v).lin = w.lin := by
  unfold Warp.setPred; split <;> rfl
@[simp] theorem setPred_midx (w : Warp) (p : Nat) (l v : Mask) : (w.setPred p l v).midx = w.midx := by
  unfold Warp.setPred; split <;> rfl
@[simp] theorem setPred_mode (w : Warp) (p : Nat) (l v : Mask) : (w.setPred p l v).mode = w.mode := by
  unfold Warp.setPred; split <;> rfl
@[simp] theorem setPred_saved (w : Warp) (p : Nat) (l v : Mask) : (w.setPred p l v).saved = w.saved := by
  unfold Warp.setPred; split <;> rfl
@[simp] theorem setPred_signal (w : Warp) (p : Nat) (l v : Mask) : (w.setPred p l v).signal = w.signal := by
  unfold Warp.setPred; split <;> rfl
@[simp] theorem setPred_park (w : Warp) (p : Nat) (l v : Mask) : (w.setPred p l v).park = w.park := by
  unfold Warp.setPred; split <;> rfl
@[simp] theorem setPred_refused (w : Warp) (p : Nat) (l v : Mask) : (w.setPred p l v).refused = w.refused := by
  unfold Warp.setPred; split <;> rfl
@[simp] theorem setPred_growRefused (w : Warp) (p : Nat) (l v : Mask) : (w.setPred p l v).growRefused = w.growRefused := by
  unfold Warp.setPred; split <;> rfl
@[simp] theorem setPred_halted (w : Warp) (p : Nat) (l v : Mask) : (w.setPred p l v).halted = w.halted := by
  unfold Warp.setPred; split <;> rfl
@[simp] theorem setPred_region (w : Warp) (p : Nat) (l v : Mask) : (w.setPred p l v).region = w.region := by
  unfold Warp.setPred; split <;> rfl
@[simp] theorem setPred_mstat (w : Warp) (p : Nat) (l v : Mask) : (w.setPred p l v).mstat = w.mstat := by
  unfold Warp.setPred; split <;> rfl
@[simp] theorem setPred_mtrap (w : Warp) (p : Nat) (l v : Mask) : (w.setPred p l v).mtrap = w.mtrap := by
  unfold Warp.setPred; split <;> rfl
@[simp] theorem setPred_remFail (w : Warp) (p : Nat) (l v : Mask) : (w.setPred p l v).remFail = w.remFail := by
  unfold Warp.setPred; split <;> rfl
@[simp] theorem setPred_bcSeen (w : Warp) (p : Nat) (l v : Mask) : (w.setPred p l v).bcSeen = w.bcSeen := by
  unfold Warp.setPred; split <;> rfl
@[simp] theorem setPred_recvs (w : Warp) (p : Nat) (l v : Mask) : (w.setPred p l v).recvs = w.recvs := by
  unfold Warp.setPred; split <;> rfl
@[simp] theorem setPred_sends (w : Warp) (p : Nat) (l v : Mask) : (w.setPred p l v).sends = w.sends := by
  unfold Warp.setPred; split <;> rfl
@[simp] theorem setPred_uepc (w : Warp) (p : Nat) (l v : Mask) : (w.setPred p l v).uepc = w.uepc := by
  unfold Warp.setPred; split <;> rfl
@[simp] theorem setPred_ucause (w : Warp) (p : Nat) (l v : Mask) : (w.setPred p l v).ucause = w.ucause := by
  unfold Warp.setPred; split <;> rfl
@[simp] theorem setPred_utval (w : Warp) (p : Nat) (l v : Mask) : (w.setPred p l v).utval = w.utval := by
  unfold Warp.setPred; split <;> rfl
@[simp] theorem setPred_ufmask (w : Warp) (p : Nat) (l v : Mask) : (w.setPred p l v).ufmask = w.ufmask := by
  unfold Warp.setPred; split <;> rfl
@[simp] theorem setPred_uscr (w : Warp) (p : Nat) (l v : Mask) : (w.setPred p l v).uscr = w.uscr := by
  unfold Warp.setPred; split <;> rfl
@[simp] theorem setPred_flsel (w : Warp) (p : Nat) (l v : Mask) : (w.setPred p l v).flsel = w.flsel := by
  unfold Warp.setPred; split <;> rfl
@[simp] theorem setPred_finsn (w : Warp) (p : Nat) (l v : Mask) : (w.setPred p l v).finsn = w.finsn := by
  unfold Warp.setPred; split <;> rfl
@[simp] theorem setPred_flact (w : Warp) (p : Nat) (l v : Mask) : (w.setPred p l v).flact = w.flact := by
  unfold Warp.setPred; split <;> rfl
@[simp] theorem setPred_fcause (w : Warp) (p : Nat) (l v : Mask) : (w.setPred p l v).fcause = w.fcause := by
  unfold Warp.setPred; split <;> rfl
@[simp] theorem setPred_gens (w : Warp) (p : Nat) (l v : Mask) : (w.setPred p l v).gens = w.gens := by
  unfold Warp.setPred; split <;> rfl

/-! ### A register whose error a write clears (R269) -/

@[simp] theorem mend_uid (w : Warp) (c n : Nat) : (w.mend c n).uid = w.uid := rfl
@[simp] theorem mend_wid (w : Warp) (c n : Nat) : (w.mend c n).wid = w.wid := rfl
@[simp] theorem mend_q (w : Warp) (c n : Nat) : (w.mend c n).q = w.q := rfl
@[simp] theorem mend_blk (w : Warp) (c n : Nat) : (w.mend c n).blk = w.blk := rfl
@[simp] theorem mend_wblk (w : Warp) (c n : Nat) : (w.mend c n).wblk = w.wblk := rfl
@[simp] theorem mend_age (w : Warp) (c n : Nat) : (w.mend c n).age = w.age := rfl
@[simp] theorem mend_nregs (w : Warp) (c n : Nat) : (w.mend c n).nregs = w.nregs := rfl
@[simp] theorem mend_allocGen (w : Warp) (c n : Nat) : (w.mend c n).allocGen = w.allocGen := rfl
@[simp] theorem mend_vregs (w : Warp) (c n : Nat) : (w.mend c n).vregs = w.vregs := rfl
@[simp] theorem mend_vmarks (w : Warp) (c n : Nat) : (w.mend c n).vmarks = w.vmarks := rfl
@[simp] theorem mend_sregs (w : Warp) (c n : Nat) : (w.mend c n).sregs = w.sregs := rfl
@[simp] theorem mend_smarks (w : Warp) (c n : Nat) : (w.mend c n).smarks = w.smarks := rfl
@[simp] theorem mend_preds (w : Warp) (c n : Nat) : (w.mend c n).preds = w.preds := rfl
@[simp] theorem mend_slots (w : Warp) (c n : Nat) : (w.mend c n).slots = w.slots := rfl
@[simp] theorem mend_tdn (w : Warp) (c n : Nat) : (w.mend c n).tdn = w.tdn := rfl
@[simp] theorem mend_tdescs (w : Warp) (c n : Nat) : (w.mend c n).tdescs = w.tdescs := rfl
@[simp] theorem mend_accs (w : Warp) (c n : Nat) : (w.mend c n).accs = w.accs := rfl
@[simp] theorem mend_live (w : Warp) (c n : Nat) : (w.mend c n).live = w.live := rfl
@[simp] theorem mend_frontier (w : Warp) (c n : Nat) : (w.mend c n).frontier = w.frontier := rfl
@[simp] theorem mend_issues (w : Warp) (c n : Nat) : (w.mend c n).issues = w.issues := rfl
@[simp] theorem mend_fc (w : Warp) (c n : Nat) : (w.mend c n).fc = w.fc := rfl
@[simp] theorem mend_wc (w : Warp) (c n : Nat) : (w.mend c n).wc = w.wc := rfl
@[simp] theorem mend_grantDue (w : Warp) (c n : Nat) : (w.mend c n).grantDue = w.grantDue := rfl
@[simp] theorem mend_fcClear (w : Warp) (c n : Nat) : (w.mend c n).fcClear = w.fcClear := rfl
@[simp] theorem mend_wcClear (w : Warp) (c n : Nat) : (w.mend c n).wcClear = w.wcClear := rfl
@[simp] theorem mend_grantClear (w : Warp) (c n : Nat) : (w.mend c n).grantClear = w.grantClear := rfl
@[simp] theorem mend_grantLeft (w : Warp) (c n : Nat) : (w.mend c n).grantLeft = w.grantLeft := rfl
@[simp] theorem mend_wjoins (w : Warp) (c n : Nat) : (w.mend c n).wjoins = w.wjoins := rfl
@[simp] theorem mend_csp (w : Warp) (c n : Nat) : (w.mend c n).csp = w.csp := rfl
@[simp] theorem mend_rs (w : Warp) (c n : Nat) : (w.mend c n).rs = w.rs := rfl
@[simp] theorem mend_lin (w : Warp) (c n : Nat) : (w.mend c n).lin = w.lin := rfl
@[simp] theorem mend_midx (w : Warp) (c n : Nat) : (w.mend c n).midx = w.midx := rfl
@[simp] theorem mend_mode (w : Warp) (c n : Nat) : (w.mend c n).mode = w.mode := rfl
@[simp] theorem mend_saved (w : Warp) (c n : Nat) : (w.mend c n).saved = w.saved := rfl
@[simp] theorem mend_signal (w : Warp) (c n : Nat) : (w.mend c n).signal = w.signal := rfl
@[simp] theorem mend_park (w : Warp) (c n : Nat) : (w.mend c n).park = w.park := rfl
@[simp] theorem mend_refused (w : Warp) (c n : Nat) : (w.mend c n).refused = w.refused := rfl
@[simp] theorem mend_growRefused (w : Warp) (c n : Nat) : (w.mend c n).growRefused = w.growRefused := rfl
@[simp] theorem mend_halted (w : Warp) (c n : Nat) : (w.mend c n).halted = w.halted := rfl
@[simp] theorem mend_region (w : Warp) (c n : Nat) : (w.mend c n).region = w.region := rfl
@[simp] theorem mend_mstat (w : Warp) (c n : Nat) : (w.mend c n).mstat = w.mstat := rfl
@[simp] theorem mend_mtrap (w : Warp) (c n : Nat) : (w.mend c n).mtrap = w.mtrap := rfl
@[simp] theorem mend_remFail (w : Warp) (c n : Nat) : (w.mend c n).remFail = w.remFail := rfl
@[simp] theorem mend_bcSeen (w : Warp) (c n : Nat) : (w.mend c n).bcSeen = w.bcSeen := rfl
@[simp] theorem mend_recvs (w : Warp) (c n : Nat) : (w.mend c n).recvs = w.recvs := rfl
@[simp] theorem mend_sends (w : Warp) (c n : Nat) : (w.mend c n).sends = w.sends := rfl
@[simp] theorem mend_uepc (w : Warp) (c n : Nat) : (w.mend c n).uepc = w.uepc := rfl
@[simp] theorem mend_ucause (w : Warp) (c n : Nat) : (w.mend c n).ucause = w.ucause := rfl
@[simp] theorem mend_utval (w : Warp) (c n : Nat) : (w.mend c n).utval = w.utval := rfl
@[simp] theorem mend_ufmask (w : Warp) (c n : Nat) : (w.mend c n).ufmask = w.ufmask := rfl
@[simp] theorem mend_uscr (w : Warp) (c n : Nat) : (w.mend c n).uscr = w.uscr := rfl
@[simp] theorem mend_flsel (w : Warp) (c n : Nat) : (w.mend c n).flsel = w.flsel := rfl
@[simp] theorem mend_finsn (w : Warp) (c n : Nat) : (w.mend c n).finsn = w.finsn := rfl
@[simp] theorem mend_flact (w : Warp) (c n : Nat) : (w.mend c n).flact = w.flact := rfl
@[simp] theorem mend_fcause (w : Warp) (c n : Nat) : (w.mend c n).fcause = w.fcause := rfl
@[simp] theorem mend_gens (w : Warp) (c n : Nat) : (w.mend c n).gens = w.gens := rfl

/-! ### A slot written -/

@[simp] theorem setSlot_uid (w : Warp) (f : Nat) (x : Word) : (w.setSlot f x).uid = w.uid := rfl
@[simp] theorem setSlot_wid (w : Warp) (f : Nat) (x : Word) : (w.setSlot f x).wid = w.wid := rfl
@[simp] theorem setSlot_q (w : Warp) (f : Nat) (x : Word) : (w.setSlot f x).q = w.q := rfl
@[simp] theorem setSlot_blk (w : Warp) (f : Nat) (x : Word) : (w.setSlot f x).blk = w.blk := rfl
@[simp] theorem setSlot_wblk (w : Warp) (f : Nat) (x : Word) : (w.setSlot f x).wblk = w.wblk := rfl
@[simp] theorem setSlot_age (w : Warp) (f : Nat) (x : Word) : (w.setSlot f x).age = w.age := rfl
@[simp] theorem setSlot_nregs (w : Warp) (f : Nat) (x : Word) : (w.setSlot f x).nregs = w.nregs := rfl
@[simp] theorem setSlot_allocGen (w : Warp) (f : Nat) (x : Word) : (w.setSlot f x).allocGen = w.allocGen := rfl
@[simp] theorem setSlot_vregs (w : Warp) (f : Nat) (x : Word) : (w.setSlot f x).vregs = w.vregs := rfl
@[simp] theorem setSlot_vmarks (w : Warp) (f : Nat) (x : Word) : (w.setSlot f x).vmarks = w.vmarks := rfl
@[simp] theorem setSlot_sregs (w : Warp) (f : Nat) (x : Word) : (w.setSlot f x).sregs = w.sregs := rfl
@[simp] theorem setSlot_smarks (w : Warp) (f : Nat) (x : Word) : (w.setSlot f x).smarks = w.smarks := rfl
@[simp] theorem setSlot_preds (w : Warp) (f : Nat) (x : Word) : (w.setSlot f x).preds = w.preds := rfl
@[simp] theorem setSlot_tdn (w : Warp) (f : Nat) (x : Word) : (w.setSlot f x).tdn = w.tdn := rfl
@[simp] theorem setSlot_tdescs (w : Warp) (f : Nat) (x : Word) : (w.setSlot f x).tdescs = w.tdescs := rfl
@[simp] theorem setSlot_accs (w : Warp) (f : Nat) (x : Word) : (w.setSlot f x).accs = w.accs := rfl
@[simp] theorem setSlot_live (w : Warp) (f : Nat) (x : Word) : (w.setSlot f x).live = w.live := rfl
@[simp] theorem setSlot_frontier (w : Warp) (f : Nat) (x : Word) : (w.setSlot f x).frontier = w.frontier := rfl
@[simp] theorem setSlot_issues (w : Warp) (f : Nat) (x : Word) : (w.setSlot f x).issues = w.issues := rfl
@[simp] theorem setSlot_fc (w : Warp) (f : Nat) (x : Word) : (w.setSlot f x).fc = w.fc := rfl
@[simp] theorem setSlot_wc (w : Warp) (f : Nat) (x : Word) : (w.setSlot f x).wc = w.wc := rfl
@[simp] theorem setSlot_grantDue (w : Warp) (f : Nat) (x : Word) : (w.setSlot f x).grantDue = w.grantDue := rfl
@[simp] theorem setSlot_fcClear (w : Warp) (f : Nat) (x : Word) : (w.setSlot f x).fcClear = w.fcClear := rfl
@[simp] theorem setSlot_wcClear (w : Warp) (f : Nat) (x : Word) : (w.setSlot f x).wcClear = w.wcClear := rfl
@[simp] theorem setSlot_grantClear (w : Warp) (f : Nat) (x : Word) : (w.setSlot f x).grantClear = w.grantClear := rfl
@[simp] theorem setSlot_grantLeft (w : Warp) (f : Nat) (x : Word) : (w.setSlot f x).grantLeft = w.grantLeft := rfl
@[simp] theorem setSlot_wjoins (w : Warp) (f : Nat) (x : Word) : (w.setSlot f x).wjoins = w.wjoins := rfl
@[simp] theorem setSlot_csp (w : Warp) (f : Nat) (x : Word) : (w.setSlot f x).csp = w.csp := rfl
@[simp] theorem setSlot_rs (w : Warp) (f : Nat) (x : Word) : (w.setSlot f x).rs = w.rs := rfl
@[simp] theorem setSlot_lin (w : Warp) (f : Nat) (x : Word) : (w.setSlot f x).lin = w.lin := rfl
@[simp] theorem setSlot_midx (w : Warp) (f : Nat) (x : Word) : (w.setSlot f x).midx = w.midx := rfl
@[simp] theorem setSlot_mode (w : Warp) (f : Nat) (x : Word) : (w.setSlot f x).mode = w.mode := rfl
@[simp] theorem setSlot_saved (w : Warp) (f : Nat) (x : Word) : (w.setSlot f x).saved = w.saved := rfl
@[simp] theorem setSlot_signal (w : Warp) (f : Nat) (x : Word) : (w.setSlot f x).signal = w.signal := rfl
@[simp] theorem setSlot_park (w : Warp) (f : Nat) (x : Word) : (w.setSlot f x).park = w.park := rfl
@[simp] theorem setSlot_refused (w : Warp) (f : Nat) (x : Word) : (w.setSlot f x).refused = w.refused := rfl
@[simp] theorem setSlot_growRefused (w : Warp) (f : Nat) (x : Word) : (w.setSlot f x).growRefused = w.growRefused := rfl
@[simp] theorem setSlot_halted (w : Warp) (f : Nat) (x : Word) : (w.setSlot f x).halted = w.halted := rfl
@[simp] theorem setSlot_region (w : Warp) (f : Nat) (x : Word) : (w.setSlot f x).region = w.region := rfl
@[simp] theorem setSlot_mstat (w : Warp) (f : Nat) (x : Word) : (w.setSlot f x).mstat = w.mstat := rfl
@[simp] theorem setSlot_mtrap (w : Warp) (f : Nat) (x : Word) : (w.setSlot f x).mtrap = w.mtrap := rfl
@[simp] theorem setSlot_remFail (w : Warp) (f : Nat) (x : Word) : (w.setSlot f x).remFail = w.remFail := rfl
@[simp] theorem setSlot_bcSeen (w : Warp) (f : Nat) (x : Word) : (w.setSlot f x).bcSeen = w.bcSeen := rfl
@[simp] theorem setSlot_recvs (w : Warp) (f : Nat) (x : Word) : (w.setSlot f x).recvs = w.recvs := rfl
@[simp] theorem setSlot_sends (w : Warp) (f : Nat) (x : Word) : (w.setSlot f x).sends = w.sends := rfl
@[simp] theorem setSlot_uepc (w : Warp) (f : Nat) (x : Word) : (w.setSlot f x).uepc = w.uepc := rfl
@[simp] theorem setSlot_ucause (w : Warp) (f : Nat) (x : Word) : (w.setSlot f x).ucause = w.ucause := rfl
@[simp] theorem setSlot_utval (w : Warp) (f : Nat) (x : Word) : (w.setSlot f x).utval = w.utval := rfl
@[simp] theorem setSlot_ufmask (w : Warp) (f : Nat) (x : Word) : (w.setSlot f x).ufmask = w.ufmask := rfl
@[simp] theorem setSlot_uscr (w : Warp) (f : Nat) (x : Word) : (w.setSlot f x).uscr = w.uscr := rfl
@[simp] theorem setSlot_flsel (w : Warp) (f : Nat) (x : Word) : (w.setSlot f x).flsel = w.flsel := rfl
@[simp] theorem setSlot_finsn (w : Warp) (f : Nat) (x : Word) : (w.setSlot f x).finsn = w.finsn := rfl
@[simp] theorem setSlot_flact (w : Warp) (f : Nat) (x : Word) : (w.setSlot f x).flact = w.flact := rfl
@[simp] theorem setSlot_fcause (w : Warp) (f : Nat) (x : Word) : (w.setSlot f x).fcause = w.fcause := rfl
@[simp] theorem setSlot_gens (w : Warp) (f : Nat) (x : Word) : (w.setSlot f x).gens = w.gens := rfl

/-! ### A descriptor written -/

@[simp] theorem setTdesc_uid (w : Warp) (t : Nat) (d : BitVec 256) : (w.setTdesc t d).uid = w.uid := rfl
@[simp] theorem setTdesc_wid (w : Warp) (t : Nat) (d : BitVec 256) : (w.setTdesc t d).wid = w.wid := rfl
@[simp] theorem setTdesc_q (w : Warp) (t : Nat) (d : BitVec 256) : (w.setTdesc t d).q = w.q := rfl
@[simp] theorem setTdesc_blk (w : Warp) (t : Nat) (d : BitVec 256) : (w.setTdesc t d).blk = w.blk := rfl
@[simp] theorem setTdesc_wblk (w : Warp) (t : Nat) (d : BitVec 256) : (w.setTdesc t d).wblk = w.wblk := rfl
@[simp] theorem setTdesc_age (w : Warp) (t : Nat) (d : BitVec 256) : (w.setTdesc t d).age = w.age := rfl
@[simp] theorem setTdesc_nregs (w : Warp) (t : Nat) (d : BitVec 256) : (w.setTdesc t d).nregs = w.nregs := rfl
@[simp] theorem setTdesc_allocGen (w : Warp) (t : Nat) (d : BitVec 256) : (w.setTdesc t d).allocGen = w.allocGen := rfl
@[simp] theorem setTdesc_vregs (w : Warp) (t : Nat) (d : BitVec 256) : (w.setTdesc t d).vregs = w.vregs := rfl
@[simp] theorem setTdesc_vmarks (w : Warp) (t : Nat) (d : BitVec 256) : (w.setTdesc t d).vmarks = w.vmarks := rfl
@[simp] theorem setTdesc_sregs (w : Warp) (t : Nat) (d : BitVec 256) : (w.setTdesc t d).sregs = w.sregs := rfl
@[simp] theorem setTdesc_smarks (w : Warp) (t : Nat) (d : BitVec 256) : (w.setTdesc t d).smarks = w.smarks := rfl
@[simp] theorem setTdesc_preds (w : Warp) (t : Nat) (d : BitVec 256) : (w.setTdesc t d).preds = w.preds := rfl
@[simp] theorem setTdesc_slots (w : Warp) (t : Nat) (d : BitVec 256) : (w.setTdesc t d).slots = w.slots := rfl
@[simp] theorem setTdesc_tdn (w : Warp) (t : Nat) (d : BitVec 256) : (w.setTdesc t d).tdn = w.tdn := rfl
@[simp] theorem setTdesc_accs (w : Warp) (t : Nat) (d : BitVec 256) : (w.setTdesc t d).accs = w.accs := rfl
@[simp] theorem setTdesc_live (w : Warp) (t : Nat) (d : BitVec 256) : (w.setTdesc t d).live = w.live := rfl
@[simp] theorem setTdesc_frontier (w : Warp) (t : Nat) (d : BitVec 256) : (w.setTdesc t d).frontier = w.frontier := rfl
@[simp] theorem setTdesc_issues (w : Warp) (t : Nat) (d : BitVec 256) : (w.setTdesc t d).issues = w.issues := rfl
@[simp] theorem setTdesc_fc (w : Warp) (t : Nat) (d : BitVec 256) : (w.setTdesc t d).fc = w.fc := rfl
@[simp] theorem setTdesc_wc (w : Warp) (t : Nat) (d : BitVec 256) : (w.setTdesc t d).wc = w.wc := rfl
@[simp] theorem setTdesc_grantDue (w : Warp) (t : Nat) (d : BitVec 256) : (w.setTdesc t d).grantDue = w.grantDue := rfl
@[simp] theorem setTdesc_fcClear (w : Warp) (t : Nat) (d : BitVec 256) : (w.setTdesc t d).fcClear = w.fcClear := rfl
@[simp] theorem setTdesc_wcClear (w : Warp) (t : Nat) (d : BitVec 256) : (w.setTdesc t d).wcClear = w.wcClear := rfl
@[simp] theorem setTdesc_grantClear (w : Warp) (t : Nat) (d : BitVec 256) : (w.setTdesc t d).grantClear = w.grantClear := rfl
@[simp] theorem setTdesc_grantLeft (w : Warp) (t : Nat) (d : BitVec 256) : (w.setTdesc t d).grantLeft = w.grantLeft := rfl
@[simp] theorem setTdesc_wjoins (w : Warp) (t : Nat) (d : BitVec 256) : (w.setTdesc t d).wjoins = w.wjoins := rfl
@[simp] theorem setTdesc_csp (w : Warp) (t : Nat) (d : BitVec 256) : (w.setTdesc t d).csp = w.csp := rfl
@[simp] theorem setTdesc_rs (w : Warp) (t : Nat) (d : BitVec 256) : (w.setTdesc t d).rs = w.rs := rfl
@[simp] theorem setTdesc_lin (w : Warp) (t : Nat) (d : BitVec 256) : (w.setTdesc t d).lin = w.lin := rfl
@[simp] theorem setTdesc_midx (w : Warp) (t : Nat) (d : BitVec 256) : (w.setTdesc t d).midx = w.midx := rfl
@[simp] theorem setTdesc_mode (w : Warp) (t : Nat) (d : BitVec 256) : (w.setTdesc t d).mode = w.mode := rfl
@[simp] theorem setTdesc_saved (w : Warp) (t : Nat) (d : BitVec 256) : (w.setTdesc t d).saved = w.saved := rfl
@[simp] theorem setTdesc_signal (w : Warp) (t : Nat) (d : BitVec 256) : (w.setTdesc t d).signal = w.signal := rfl
@[simp] theorem setTdesc_park (w : Warp) (t : Nat) (d : BitVec 256) : (w.setTdesc t d).park = w.park := rfl
@[simp] theorem setTdesc_refused (w : Warp) (t : Nat) (d : BitVec 256) : (w.setTdesc t d).refused = w.refused := rfl
@[simp] theorem setTdesc_growRefused (w : Warp) (t : Nat) (d : BitVec 256) : (w.setTdesc t d).growRefused = w.growRefused := rfl
@[simp] theorem setTdesc_halted (w : Warp) (t : Nat) (d : BitVec 256) : (w.setTdesc t d).halted = w.halted := rfl
@[simp] theorem setTdesc_region (w : Warp) (t : Nat) (d : BitVec 256) : (w.setTdesc t d).region = w.region := rfl
@[simp] theorem setTdesc_mstat (w : Warp) (t : Nat) (d : BitVec 256) : (w.setTdesc t d).mstat = w.mstat := rfl
@[simp] theorem setTdesc_mtrap (w : Warp) (t : Nat) (d : BitVec 256) : (w.setTdesc t d).mtrap = w.mtrap := rfl
@[simp] theorem setTdesc_remFail (w : Warp) (t : Nat) (d : BitVec 256) : (w.setTdesc t d).remFail = w.remFail := rfl
@[simp] theorem setTdesc_bcSeen (w : Warp) (t : Nat) (d : BitVec 256) : (w.setTdesc t d).bcSeen = w.bcSeen := rfl
@[simp] theorem setTdesc_recvs (w : Warp) (t : Nat) (d : BitVec 256) : (w.setTdesc t d).recvs = w.recvs := rfl
@[simp] theorem setTdesc_sends (w : Warp) (t : Nat) (d : BitVec 256) : (w.setTdesc t d).sends = w.sends := rfl
@[simp] theorem setTdesc_uepc (w : Warp) (t : Nat) (d : BitVec 256) : (w.setTdesc t d).uepc = w.uepc := rfl
@[simp] theorem setTdesc_ucause (w : Warp) (t : Nat) (d : BitVec 256) : (w.setTdesc t d).ucause = w.ucause := rfl
@[simp] theorem setTdesc_utval (w : Warp) (t : Nat) (d : BitVec 256) : (w.setTdesc t d).utval = w.utval := rfl
@[simp] theorem setTdesc_ufmask (w : Warp) (t : Nat) (d : BitVec 256) : (w.setTdesc t d).ufmask = w.ufmask := rfl
@[simp] theorem setTdesc_uscr (w : Warp) (t : Nat) (d : BitVec 256) : (w.setTdesc t d).uscr = w.uscr := rfl
@[simp] theorem setTdesc_flsel (w : Warp) (t : Nat) (d : BitVec 256) : (w.setTdesc t d).flsel = w.flsel := rfl
@[simp] theorem setTdesc_finsn (w : Warp) (t : Nat) (d : BitVec 256) : (w.setTdesc t d).finsn = w.finsn := rfl
@[simp] theorem setTdesc_flact (w : Warp) (t : Nat) (d : BitVec 256) : (w.setTdesc t d).flact = w.flact := rfl
@[simp] theorem setTdesc_fcause (w : Warp) (t : Nat) (d : BitVec 256) : (w.setTdesc t d).fcause = w.fcause := rfl
@[simp] theorem setTdesc_gens (w : Warp) (t : Nat) (d : BitVec 256) : (w.setTdesc t d).gens = w.gens := rfl

/-! ### Lanes of a vector register written -/

theorem writeLanes_induct (w : Warp) (r : Nat) (m : Mask) (f : Nat → Word) (P : Warp → Prop) (h : P w)
    (hs : ∀ v t, P v → P (v.writeV r t (f t))) : P (w.writeLanes r m f) := by
  unfold Warp.writeLanes
  generalize m.lanes = l
  induction l generalizing w with
  | nil => exact h
  | cons t ts ih => exact ih (w.writeV r t (f t)) (hs w t h)

@[simp] theorem writeLanes_uid (w : Warp) (r : Nat) (m : Mask) (f : Nat → Word) : (w.writeLanes r m f).uid = w.uid :=
  writeLanes_induct w r m f (fun v => v.uid = w.uid) rfl (fun _ _ h => h)
@[simp] theorem writeLanes_wid (w : Warp) (r : Nat) (m : Mask) (f : Nat → Word) : (w.writeLanes r m f).wid = w.wid :=
  writeLanes_induct w r m f (fun v => v.wid = w.wid) rfl (fun _ _ h => h)
@[simp] theorem writeLanes_q (w : Warp) (r : Nat) (m : Mask) (f : Nat → Word) : (w.writeLanes r m f).q = w.q :=
  writeLanes_induct w r m f (fun v => v.q = w.q) rfl (fun _ _ h => h)
@[simp] theorem writeLanes_blk (w : Warp) (r : Nat) (m : Mask) (f : Nat → Word) : (w.writeLanes r m f).blk = w.blk :=
  writeLanes_induct w r m f (fun v => v.blk = w.blk) rfl (fun _ _ h => h)
@[simp] theorem writeLanes_wblk (w : Warp) (r : Nat) (m : Mask) (f : Nat → Word) : (w.writeLanes r m f).wblk = w.wblk :=
  writeLanes_induct w r m f (fun v => v.wblk = w.wblk) rfl (fun _ _ h => h)
@[simp] theorem writeLanes_age (w : Warp) (r : Nat) (m : Mask) (f : Nat → Word) : (w.writeLanes r m f).age = w.age :=
  writeLanes_induct w r m f (fun v => v.age = w.age) rfl (fun _ _ h => h)
@[simp] theorem writeLanes_nregs (w : Warp) (r : Nat) (m : Mask) (f : Nat → Word) : (w.writeLanes r m f).nregs = w.nregs :=
  writeLanes_induct w r m f (fun v => v.nregs = w.nregs) rfl (fun _ _ h => h)
@[simp] theorem writeLanes_allocGen (w : Warp) (r : Nat) (m : Mask) (f : Nat → Word) : (w.writeLanes r m f).allocGen = w.allocGen :=
  writeLanes_induct w r m f (fun v => v.allocGen = w.allocGen) rfl (fun _ _ h => h)
@[simp] theorem writeLanes_sregs (w : Warp) (r : Nat) (m : Mask) (f : Nat → Word) : (w.writeLanes r m f).sregs = w.sregs :=
  writeLanes_induct w r m f (fun v => v.sregs = w.sregs) rfl (fun _ _ h => h)
@[simp] theorem writeLanes_smarks (w : Warp) (r : Nat) (m : Mask) (f : Nat → Word) : (w.writeLanes r m f).smarks = w.smarks :=
  writeLanes_induct w r m f (fun v => v.smarks = w.smarks) rfl (fun _ _ h => h)
@[simp] theorem writeLanes_preds (w : Warp) (r : Nat) (m : Mask) (f : Nat → Word) : (w.writeLanes r m f).preds = w.preds :=
  writeLanes_induct w r m f (fun v => v.preds = w.preds) rfl (fun _ _ h => h)
@[simp] theorem writeLanes_slots (w : Warp) (r : Nat) (m : Mask) (f : Nat → Word) : (w.writeLanes r m f).slots = w.slots :=
  writeLanes_induct w r m f (fun v => v.slots = w.slots) rfl (fun _ _ h => h)
@[simp] theorem writeLanes_tdn (w : Warp) (r : Nat) (m : Mask) (f : Nat → Word) : (w.writeLanes r m f).tdn = w.tdn :=
  writeLanes_induct w r m f (fun v => v.tdn = w.tdn) rfl (fun _ _ h => h)
@[simp] theorem writeLanes_tdescs (w : Warp) (r : Nat) (m : Mask) (f : Nat → Word) : (w.writeLanes r m f).tdescs = w.tdescs :=
  writeLanes_induct w r m f (fun v => v.tdescs = w.tdescs) rfl (fun _ _ h => h)
@[simp] theorem writeLanes_accs (w : Warp) (r : Nat) (m : Mask) (f : Nat → Word) : (w.writeLanes r m f).accs = w.accs :=
  writeLanes_induct w r m f (fun v => v.accs = w.accs) rfl (fun _ _ h => h)
@[simp] theorem writeLanes_live (w : Warp) (r : Nat) (m : Mask) (f : Nat → Word) : (w.writeLanes r m f).live = w.live :=
  writeLanes_induct w r m f (fun v => v.live = w.live) rfl (fun _ _ h => h)
@[simp] theorem writeLanes_frontier (w : Warp) (r : Nat) (m : Mask) (f : Nat → Word) : (w.writeLanes r m f).frontier = w.frontier :=
  writeLanes_induct w r m f (fun v => v.frontier = w.frontier) rfl (fun _ _ h => h)
@[simp] theorem writeLanes_issues (w : Warp) (r : Nat) (m : Mask) (f : Nat → Word) : (w.writeLanes r m f).issues = w.issues :=
  writeLanes_induct w r m f (fun v => v.issues = w.issues) rfl (fun _ _ h => h)
@[simp] theorem writeLanes_fc (w : Warp) (r : Nat) (m : Mask) (f : Nat → Word) : (w.writeLanes r m f).fc = w.fc :=
  writeLanes_induct w r m f (fun v => v.fc = w.fc) rfl (fun _ _ h => h)
@[simp] theorem writeLanes_wc (w : Warp) (r : Nat) (m : Mask) (f : Nat → Word) : (w.writeLanes r m f).wc = w.wc :=
  writeLanes_induct w r m f (fun v => v.wc = w.wc) rfl (fun _ _ h => h)
@[simp] theorem writeLanes_grantDue (w : Warp) (r : Nat) (m : Mask) (f : Nat → Word) : (w.writeLanes r m f).grantDue = w.grantDue :=
  writeLanes_induct w r m f (fun v => v.grantDue = w.grantDue) rfl (fun _ _ h => h)
@[simp] theorem writeLanes_fcClear (w : Warp) (r : Nat) (m : Mask) (f : Nat → Word) : (w.writeLanes r m f).fcClear = w.fcClear :=
  writeLanes_induct w r m f (fun v => v.fcClear = w.fcClear) rfl (fun _ _ h => h)
@[simp] theorem writeLanes_wcClear (w : Warp) (r : Nat) (m : Mask) (f : Nat → Word) : (w.writeLanes r m f).wcClear = w.wcClear :=
  writeLanes_induct w r m f (fun v => v.wcClear = w.wcClear) rfl (fun _ _ h => h)
@[simp] theorem writeLanes_grantClear (w : Warp) (r : Nat) (m : Mask) (f : Nat → Word) : (w.writeLanes r m f).grantClear = w.grantClear :=
  writeLanes_induct w r m f (fun v => v.grantClear = w.grantClear) rfl (fun _ _ h => h)
@[simp] theorem writeLanes_grantLeft (w : Warp) (r : Nat) (m : Mask) (f : Nat → Word) : (w.writeLanes r m f).grantLeft = w.grantLeft :=
  writeLanes_induct w r m f (fun v => v.grantLeft = w.grantLeft) rfl (fun _ _ h => h)
@[simp] theorem writeLanes_wjoins (w : Warp) (r : Nat) (m : Mask) (f : Nat → Word) : (w.writeLanes r m f).wjoins = w.wjoins :=
  writeLanes_induct w r m f (fun v => v.wjoins = w.wjoins) rfl (fun _ _ h => h)
@[simp] theorem writeLanes_csp (w : Warp) (r : Nat) (m : Mask) (f : Nat → Word) : (w.writeLanes r m f).csp = w.csp :=
  writeLanes_induct w r m f (fun v => v.csp = w.csp) rfl (fun _ _ h => h)
@[simp] theorem writeLanes_rs (w : Warp) (r : Nat) (m : Mask) (f : Nat → Word) : (w.writeLanes r m f).rs = w.rs :=
  writeLanes_induct w r m f (fun v => v.rs = w.rs) rfl (fun _ _ h => h)
@[simp] theorem writeLanes_lin (w : Warp) (r : Nat) (m : Mask) (f : Nat → Word) : (w.writeLanes r m f).lin = w.lin :=
  writeLanes_induct w r m f (fun v => v.lin = w.lin) rfl (fun _ _ h => h)
@[simp] theorem writeLanes_midx (w : Warp) (r : Nat) (m : Mask) (f : Nat → Word) : (w.writeLanes r m f).midx = w.midx :=
  writeLanes_induct w r m f (fun v => v.midx = w.midx) rfl (fun _ _ h => h)
@[simp] theorem writeLanes_mode (w : Warp) (r : Nat) (m : Mask) (f : Nat → Word) : (w.writeLanes r m f).mode = w.mode :=
  writeLanes_induct w r m f (fun v => v.mode = w.mode) rfl (fun _ _ h => h)
@[simp] theorem writeLanes_saved (w : Warp) (r : Nat) (m : Mask) (f : Nat → Word) : (w.writeLanes r m f).saved = w.saved :=
  writeLanes_induct w r m f (fun v => v.saved = w.saved) rfl (fun _ _ h => h)
@[simp] theorem writeLanes_signal (w : Warp) (r : Nat) (m : Mask) (f : Nat → Word) : (w.writeLanes r m f).signal = w.signal :=
  writeLanes_induct w r m f (fun v => v.signal = w.signal) rfl (fun _ _ h => h)
@[simp] theorem writeLanes_park (w : Warp) (r : Nat) (m : Mask) (f : Nat → Word) : (w.writeLanes r m f).park = w.park :=
  writeLanes_induct w r m f (fun v => v.park = w.park) rfl (fun _ _ h => h)
@[simp] theorem writeLanes_refused (w : Warp) (r : Nat) (m : Mask) (f : Nat → Word) : (w.writeLanes r m f).refused = w.refused :=
  writeLanes_induct w r m f (fun v => v.refused = w.refused) rfl (fun _ _ h => h)
@[simp] theorem writeLanes_growRefused (w : Warp) (r : Nat) (m : Mask) (f : Nat → Word) : (w.writeLanes r m f).growRefused = w.growRefused :=
  writeLanes_induct w r m f (fun v => v.growRefused = w.growRefused) rfl (fun _ _ h => h)
@[simp] theorem writeLanes_halted (w : Warp) (r : Nat) (m : Mask) (f : Nat → Word) : (w.writeLanes r m f).halted = w.halted :=
  writeLanes_induct w r m f (fun v => v.halted = w.halted) rfl (fun _ _ h => h)
@[simp] theorem writeLanes_region (w : Warp) (r : Nat) (m : Mask) (f : Nat → Word) : (w.writeLanes r m f).region = w.region :=
  writeLanes_induct w r m f (fun v => v.region = w.region) rfl (fun _ _ h => h)
@[simp] theorem writeLanes_mstat (w : Warp) (r : Nat) (m : Mask) (f : Nat → Word) : (w.writeLanes r m f).mstat = w.mstat :=
  writeLanes_induct w r m f (fun v => v.mstat = w.mstat) rfl (fun _ _ h => h)
@[simp] theorem writeLanes_mtrap (w : Warp) (r : Nat) (m : Mask) (f : Nat → Word) : (w.writeLanes r m f).mtrap = w.mtrap :=
  writeLanes_induct w r m f (fun v => v.mtrap = w.mtrap) rfl (fun _ _ h => h)
@[simp] theorem writeLanes_remFail (w : Warp) (r : Nat) (m : Mask) (f : Nat → Word) : (w.writeLanes r m f).remFail = w.remFail :=
  writeLanes_induct w r m f (fun v => v.remFail = w.remFail) rfl (fun _ _ h => h)
@[simp] theorem writeLanes_bcSeen (w : Warp) (r : Nat) (m : Mask) (f : Nat → Word) : (w.writeLanes r m f).bcSeen = w.bcSeen :=
  writeLanes_induct w r m f (fun v => v.bcSeen = w.bcSeen) rfl (fun _ _ h => h)
@[simp] theorem writeLanes_recvs (w : Warp) (r : Nat) (m : Mask) (f : Nat → Word) : (w.writeLanes r m f).recvs = w.recvs :=
  writeLanes_induct w r m f (fun v => v.recvs = w.recvs) rfl (fun _ _ h => h)
@[simp] theorem writeLanes_sends (w : Warp) (r : Nat) (m : Mask) (f : Nat → Word) : (w.writeLanes r m f).sends = w.sends :=
  writeLanes_induct w r m f (fun v => v.sends = w.sends) rfl (fun _ _ h => h)
@[simp] theorem writeLanes_uepc (w : Warp) (r : Nat) (m : Mask) (f : Nat → Word) : (w.writeLanes r m f).uepc = w.uepc :=
  writeLanes_induct w r m f (fun v => v.uepc = w.uepc) rfl (fun _ _ h => h)
@[simp] theorem writeLanes_ucause (w : Warp) (r : Nat) (m : Mask) (f : Nat → Word) : (w.writeLanes r m f).ucause = w.ucause :=
  writeLanes_induct w r m f (fun v => v.ucause = w.ucause) rfl (fun _ _ h => h)
@[simp] theorem writeLanes_utval (w : Warp) (r : Nat) (m : Mask) (f : Nat → Word) : (w.writeLanes r m f).utval = w.utval :=
  writeLanes_induct w r m f (fun v => v.utval = w.utval) rfl (fun _ _ h => h)
@[simp] theorem writeLanes_ufmask (w : Warp) (r : Nat) (m : Mask) (f : Nat → Word) : (w.writeLanes r m f).ufmask = w.ufmask :=
  writeLanes_induct w r m f (fun v => v.ufmask = w.ufmask) rfl (fun _ _ h => h)
@[simp] theorem writeLanes_uscr (w : Warp) (r : Nat) (m : Mask) (f : Nat → Word) : (w.writeLanes r m f).uscr = w.uscr :=
  writeLanes_induct w r m f (fun v => v.uscr = w.uscr) rfl (fun _ _ h => h)
@[simp] theorem writeLanes_flsel (w : Warp) (r : Nat) (m : Mask) (f : Nat → Word) : (w.writeLanes r m f).flsel = w.flsel :=
  writeLanes_induct w r m f (fun v => v.flsel = w.flsel) rfl (fun _ _ h => h)
@[simp] theorem writeLanes_finsn (w : Warp) (r : Nat) (m : Mask) (f : Nat → Word) : (w.writeLanes r m f).finsn = w.finsn :=
  writeLanes_induct w r m f (fun v => v.finsn = w.finsn) rfl (fun _ _ h => h)
@[simp] theorem writeLanes_flact (w : Warp) (r : Nat) (m : Mask) (f : Nat → Word) : (w.writeLanes r m f).flact = w.flact :=
  writeLanes_induct w r m f (fun v => v.flact = w.flact) rfl (fun _ _ h => h)
@[simp] theorem writeLanes_fcause (w : Warp) (r : Nat) (m : Mask) (f : Nat → Word) : (w.writeLanes r m f).fcause = w.fcause :=
  writeLanes_induct w r m f (fun v => v.fcause = w.fcause) rfl (fun _ _ h => h)
@[simp] theorem writeLanes_gens (w : Warp) (r : Nat) (m : Mask) (f : Nat → Word) : (w.writeLanes r m f).gens = w.gens :=
  writeLanes_induct w r m f (fun v => v.gens = w.gens) rfl (fun _ _ h => h)
@[simp] theorem writeLanes_faults (w : Warp) (r : Nat) (m : Mask) (f : Nat → Word) : (w.writeLanes r m f).faults = w.faults :=
  writeLanes_induct w r m f (fun v => v.faults = w.faults) rfl (fun _ _ h => h)

/-! ### Registers read back -/

theorem vkey_inj {r t r' t' : Nat} (h : t < 32) (h' : t' < 32) : vkey r t = vkey r' t' ↔ r = r' ∧ t = t' := by
  unfold vkey; omega

/-- A vector register reads as what was written to it last, lane by lane. -/
theorem readV_writeV (w : Warp) (r t r' t' : Nat) (v : Word) :
    (w.writeV r t v).readV r' t' = if vkey r' t' = vkey r t then v else w.readV r' t' := smGet_put _ _ _ _ _

/-- A write makes its register full and marks no other. -/
theorem vmark_writeV (w : Warp) (r t r' t' : Nat) (v : Word) :
    (w.writeV r t v).vmark r' t' = if vkey r' t' = vkey r t then .full else w.vmark r' t' :=
  smGet_put Mark.full w.vmarks (vkey r t) (vkey r' t') Mark.full

theorem vmark_markV (w : Warp) (r t r' t' : Nat) (m : Mark) :
    (w.markV r t m).vmark r' t' = if vkey r' t' = vkey r t then m else w.vmark r' t' := smGet_put _ _ _ _ _

/-- A uniform register reads as what was written to it last. -/
theorem readS_writeS (w : Warp) (r r' : Nat) (v : Word) : (w.writeS r v).readS r' = if r' = r then v else w.readS r' :=
  smGet_put _ _ _ _ _

theorem smark_writeS (w : Warp) (r r' : Nat) (v : Word) : (w.writeS r v).smark r' = if r' = r then .full else w.smark r' :=
  smGet_put Mark.full w.smarks r r' Mark.full

theorem smark_markS (w : Warp) (r r' : Nat) (m : Mark) : (w.markS r m).smark r' = if r' = r then m else w.smark r' :=
  smGet_put _ _ _ _ _

theorem slots_setSlot (w : Warp) (f f' : Nat) (x : Word) :
    smGet 0 (w.setSlot f x).slots f' = if f' = f then x else smGet 0 w.slots f' := smGet_put _ _ _ _ _

theorem tdescs_setTdesc (w : Warp) (t t' : Nat) (d : BitVec 256) :
    smGet 0 (w.setTdesc t d).tdescs t' = if t' = t then d else smGet 0 w.tdescs t' := smGet_put _ _ _ _ _

/-- A write clears the error of its own register and of no other (R269). -/
theorem faults_mend (w : Warp) (c n k : Nat) : k ∈ (w.mend c n).faults ↔ k ∈ w.faults ∧ k ≠ faultKey c n := by simp [Warp.mend]

theorem acc_setAcc (w : Warp) (a a' : Nat) (v : Acc) : (w.setAcc a v).acc a' = if a' = a then v else w.acc a' :=
  smGet_put _ _ _ _ _

/-- A predicate after a write: p15 stays all ones; another is changed in the written lanes alone. -/
theorem pred_setPred (w : Warp) (p q : Nat) (l v : Mask) :
    (w.setPred p l v).pred q = if q = p ∧ p ≠ 15 then (w.pred p &&& ~~~l) ||| (v &&& l) else w.pred q := by
  unfold Warp.setPred Warp.pred
  by_cases hp : p = 15
  · simp [hp]
  · by_cases hq : q = p
    · subst hq; simp [hp]
    · by_cases h15 : q = 15
      · have : ¬ 15 = p := fun h => hp h.symm
        simp [hp, this, h15]
      · simp [hp, hq, h15, smGet_put]

/-- A vector register after lanes of one are written. -/
theorem readV_writeLanes (w : Warp) (r : Nat) (m : Mask) (f : Nat → Word) (r' t' : Nat) (h : t' < 32) :
    (w.writeLanes r m f).readV r' t' = if r' = r ∧ m.has t' = true then f t' else w.readV r' t' := by
  have key : ∀ (l : List Nat), (∀ t ∈ l, t < 32) → ∀ v : Warp,
      (l.foldl (fun w t => w.writeV r t (f t)) v).readV r' t' = if r' = r ∧ t' ∈ l then f t' else v.readV r' t' := by
    intro l
    induction l with
    | nil => intro _ v; simp
    | cons t ts ih =>
      intro hl v
      rw [List.foldl_cons, ih (fun u hu => hl u (by simp [hu])), readV_writeV]
      simp only [vkey_inj h (hl t (by simp)), List.mem_cons]
      by_cases hr : r' = r
      · by_cases ht : t' = t
        · subst ht; by_cases hm : t' ∈ ts <;> simp [hr, hm]
        · simp [hr, ht]
      · simp [hr]
  have hm : (t' ∈ m.lanes) ↔ m.has t' = true := by
    simp [Mask.lanes, allLanes, Mask.has, h]
  have := key m.lanes (fun t ht => by simp [Mask.lanes, allLanes] at ht; exact ht.1) w
  simp only [hm] at this
  exact this

/-! ### What is found after something is put back -/

theorem find_put {β : Type} (key : β → Nat) (l : List β) (b : β) (h : l.find? (fun y => decide (key y = key b)) ≠ none) :
    (l.map (fun y => if key y = key b then b else y)).find? (fun y => decide (key y = key b)) = some b := by
  induction l with
  | nil => exact absurd rfl h
  | cons y r ih =>
    by_cases hy : key y = key b
    · simp [hy]
    · rw [List.find?_cons_of_neg (by simpa using hy)] at h
      rw [List.map_cons, if_neg hy, List.find?_cons_of_neg (by simpa using hy)]
      exact ih h

theorem find_put_other {β : Type} (key : β → Nat) (l : List β) (b : β) (k : Nat) (h : k ≠ key b) :
    (l.map (fun y => if key y = key b then b else y)).find? (fun y => decide (key y = k)) =
      l.find? (fun y => decide (key y = k)) := by
  induction l with
  | nil => rfl
  | cons y r ih =>
    by_cases hy : key y = key b
    · have h1 : ¬ key b = k := fun e => h e.symm
      have h2 : ¬ key y = k := fun e => h (e.symm.trans hy)
      rw [List.map_cons, if_pos hy, List.find?_cons_of_neg (by simpa using h1), List.find?_cons_of_neg (by simpa using h2), ih]
    · rw [List.map_cons, if_neg hy, List.find?_cons, List.find?_cons, ih]

/-- A context that is put back is found. -/
theorem ctx?_setCtx (s : State) (x : Context) (h : s.ctx? x.id ≠ none) : (s.setCtx x).ctx? x.id = some x :=
  find_put Context.id s.ctxs x h

/-- A warp that is put back is found. -/
theorem warp?_setWarp (x : Context) (w : Warp) (h : x.warp? w.uid ≠ none) : (x.setWarp w).warp? w.uid = some w :=
  find_put Warp.uid x.warps w h

/-- Another warp of the context is as it was. -/
theorem warp?_setWarp_other (x : Context) (w : Warp) (u : Nat) (h : u ≠ w.uid) : (x.setWarp w).warp? u = x.warp? u :=
  find_put_other Warp.uid x.warps w u h

/-- Another context is as it was. -/
theorem ctx?_setCtx_other (s : State) (x : Context) (c : Nat) (h : c ≠ x.id) : (s.setCtx x).ctx? c = s.ctx? c :=
  find_put_other Context.id s.ctxs x c h

end Sys2Proof.Laws
end

