-- ==== Sys2Proof/Laws/Issue.lean ====
section
/-! SUPPORT. What one issue does to its warp, said once: what every issue leaves alone, when predicates stay, and how an admitted
instruction ends. -/

namespace Sys2Proof.Machine

theorem Same.refl (w : Warp) : Same w w := by constructor <;> rfl

theorem Same.trans {u v w : Warp} (h : Same u v) (k : Same v w) : Same u w := by
  constructor
  all_goals first
    | exact k.uid.trans h.uid | exact k.wid.trans h.wid | exact k.q.trans h.q | exact k.blk.trans h.blk
    | exact k.wblk.trans h.wblk | exact k.age.trans h.age | exact k.nregs.trans h.nregs | exact k.allocGen.trans h.allocGen
    | exact k.vregs.trans h.vregs | exact k.vmarks.trans h.vmarks | exact k.sregs.trans h.sregs | exact k.smarks.trans h.smarks
    | exact k.slots.trans h.slots | exact k.tdn.trans h.tdn | exact k.tdescs.trans h.tdescs | exact k.accs.trans h.accs
    | exact k.fcClear.trans h.fcClear | exact k.wcClear.trans h.wcClear
    | exact k.grantClear.trans h.grantClear | exact k.fcause.trans h.fcause
    | exact k.csp.trans h.csp | exact k.rs.trans h.rs | exact k.lin.trans h.lin | exact k.midx.trans h.midx
    | exact k.mode.trans h.mode | exact k.saved.trans h.saved | exact k.signal.trans h.signal | exact k.park.trans h.park
    | exact k.halted.trans h.halted | exact k.mstat.trans h.mstat | exact k.mtrap.trans h.mtrap | exact k.remFail.trans h.remFail
    | exact k.bcSeen.trans h.bcSeen | exact k.recvs.trans h.recvs | exact k.sends.trans h.sends | exact k.uepc.trans h.uepc
    | exact k.ucause.trans h.ucause | exact k.utval.trans h.utval | exact k.ufmask.trans h.ufmask | exact k.uscr.trans h.uscr
    | exact k.flsel.trans h.flsel | exact k.finsn.trans h.finsn | exact k.flact.trans h.flact | exact k.gens.trans h.gens

end Sys2Proof.Machine

namespace Sys2Proof.Laws

open Sys2Proof Machine

/-! ### Each part of the close of an issue -/

/-- What a part of the close leaves alone beside `Same`: the counts of issues, the live threads, the WJOIN waits, the predicates. -/
structure Kept (v w : Warp) : Prop where
  same : Same v w
  issues : w.issues = v.issues
  live : w.live = v.live
  wjoins : w.wjoins = v.wjoins
  preds : w.preds = v.preds
  faults : w.faults = v.faults
  fc : w.fc = v.fc
  wc : w.wc = v.wc

theorem kept_refl (w : Warp) : Kept w w := ⟨Same.refl w, rfl, rfl, rfl, rfl, rfl, rfl, rfl⟩

theorem kept_trans {u v w : Warp} (h : Kept u v) (k : Kept v w) : Kept u w :=
  ⟨h.same.trans k.same, k.issues.trans h.issues, k.live.trans h.live, k.wjoins.trans h.wjoins, k.preds.trans h.preds,
    k.faults.trans h.faults, k.fc.trans h.fc, k.wc.trans h.wc⟩

/-- What the count of FC leaves alone, and what FC becomes (R40). -/
theorem countFc_spec (w : Warp) (x : Context) (e : Entry) (top more : Bool) : Same w (w.countFc x e top more) ∧
    (w.countFc x e top more).live = w.live ∧ (w.countFc x e top more).preds = w.preds ∧ (w.countFc x e top more).faults = w.faults ∧ (w.countFc x e top more).wjoins = w.wjoins ∧
    (w.countFc x e top more).region = w.region ∧ (w.countFc x e top more).frontier = w.frontier ∧
    (w.mode ≠ .program → (w.countFc x e top more).fc = w.fc) ∧
    (w.mode = .program → (w.countFc x e top more).fc = if (grantEntry x.prog w).isNone && x.prog && top && more then w.fc + 1 else 0) ∧
    (w.countFc x e top more).wc = w.wc := by
  unfold Warp.countFc
  split
  · rename_i h
    exact ⟨Same.refl w, rfl, rfl, rfl, rfl, rfl, rfl, fun _ => rfl, fun k => absurd k h, rfl⟩
  · rename_i h
    split
    · rename_i g hg
      refine ⟨by constructor <;> rfl, rfl, rfl, rfl, rfl, rfl, rfl, fun k => absurd k h, fun _ => ?_, rfl⟩
      simp [hg]
    · rename_i hg
      split
      · rename_i hc
        refine ⟨by constructor <;> rfl, rfl, rfl, rfl, rfl, rfl, rfl, fun k => absurd k h, fun _ => ?_, rfl⟩
        simp only [hg, Option.isNone_none, Bool.true_and, hc, if_true]
      · rename_i hc
        refine ⟨by constructor <;> rfl, rfl, rfl, rfl, rfl, rfl, rfl, fun k => absurd k h, fun _ => ?_, rfl⟩
        simp only [hg, Option.isNone_none, Bool.true_and, hc, if_false, Bool.false_eq_true]

theorem kept_dropGrant (w : Warp) : Kept w w.dropGrant := by
  unfold Warp.dropGrant
  split
  · exact kept_refl w
  · exact ⟨by constructor <;> rfl, rfl, rfl, rfl, rfl, rfl, rfl, rfl⟩

theorem kept_startPass (w : Warp) (g : Region) : Kept w (w.startPass g) :=
  ⟨by constructor <;> rfl, rfl, rfl, rfl, rfl, rfl, rfl, rfl⟩

theorem kept_endPass (w : Warp) (cfg : Word) (g : Region) (k : Nat) : Kept w (w.endPass cfg g k) := by
  unfold Warp.endPass
  dsimp only
  split
  · exact kept_startPass w _
  · split <;> exact ⟨by constructor <;> rfl, rfl, rfl, rfl, rfl, rfl, rfl, rfl⟩

theorem kept_regionStep (w : Warp) (cfg : Word) : Kept w (w.regionStep cfg) := by
  unfold Warp.regionStep
  split
  · exact kept_refl w
  · dsimp only
    split
    · exact kept_refl w
    · split
      · exact ⟨by constructor <;> rfl, rfl, rfl, rfl, rfl, rfl, rfl, rfl⟩
      · split
        · split
          · exact kept_startPass w _
          · exact ⟨by constructor <;> rfl, rfl, rfl, rfl, rfl, rfl, rfl, rfl⟩
        · split
          · exact kept_endPass w cfg _ _
          · exact ⟨by constructor <;> rfl, rfl, rfl, rfl, rfl, rfl, rfl, rfl⟩

theorem kept_regionTrap (w : Warp) (cfg : Word) : Kept w (w.regionTrap cfg) := by
  unfold Warp.regionTrap
  split
  · exact kept_refl w
  · dsimp only
    split
    · exact ⟨by constructor <;> rfl, rfl, rfl, rfl, rfl, rfl, rfl, rfl⟩
    · exact kept_refl w

theorem kept_afterIssue (w : Warp) (cfg : Word) : Kept w (w.afterIssue cfg) := by
  unfold Warp.afterIssue
  split
  · exact kept_regionTrap w cfg
  · exact kept_regionStep w cfg

theorem same_setPred (w : Warp) (p : Nat) (l v : Mask) : Same w (w.setPred p l v) := by
  constructor <;> simp

theorem same_releaseJoin (w : Warp) (j : WJoin) (b : Bool) : Same w (w.releaseJoin j b) := by
  unfold Warp.releaseJoin
  exact (same_setPred w _ _ _).trans (by constructor <;> rfl)

theorem same_joinStep (w : Warp) : Same w w.joinStep := by
  unfold Warp.joinStep
  split
  · exact same_releaseJoin w _ _
  · exact Same.refl w

theorem same_startJoin (w : Warp) (pc : PC) (left : Nat) (d : BitVec 8) : Same w (w.startJoin pc left d) := by
  unfold Warp.startJoin
  dsimp only
  split
  · exact Same.refl w
  · constructor <;> rfl

/-! ### Where the threads go -/

theorem holds_insert (e : Entry) (es : List Entry) (t : Nat) (q : BitVec 8 × PC × Bool) :
    Holds (insertEntry e es) t q ↔ Holds [e] t q ∨ Holds es t q := by
  induction es with
  | nil => simp [insertEntry, Holds]
  | cons x r ih =>
    unfold insertEntry
    split
    · rename_i hs
      simp only [Entry.same, Bool.and_eq_true, decide_eq_true_eq] at hs
      simp only [Holds, List.mem_cons, List.not_mem_nil, or_false, exists_eq_or_imp, exists_eq_left]
      have hm : (x.join e).mask.has t = (x.mask.has t || e.mask.has t) := by simp [Entry.join, Mask.has]
      have hq : ((x.join e).pri, (x.join e).pc, (x.join e).parked) = (x.pri, x.pc, x.parked) := rfl
      have hq' : (e.pri, e.pc, e.parked) = (x.pri, x.pc, x.parked) := by simp [hs.1.1, hs.1.2, hs.2]
      rw [hm, hq, hq', Bool.or_eq_true, or_and_right, ← or_assoc]
      exact or_congr_left or_comm
    · split
      · simp only [Holds, List.mem_cons, List.not_mem_nil, or_false, exists_eq_or_imp, exists_eq_left]
      · simp only [Holds, List.mem_cons, List.not_mem_nil, or_false, exists_eq_or_imp, exists_eq_left] at ih ⊢
        rw [ih]
        exact or_left_comm

theorem holds_append (es fs : List Entry) (t : Nat) (q : BitVec 8 × PC × Bool) :
    Holds (es ++ fs) t q ↔ Holds es t q ∨ Holds fs t q := by
  simp only [Holds, List.mem_append, or_and_right, exists_or]

theorem holds_merge (es : List Entry) (t : Nat) (q : BitVec 8 × PC × Bool) : Holds (mergeEntries es) t q ↔ Holds es t q := by
  have key : ∀ acc, Holds (es.foldl (fun acc e => insertEntry e acc) acc) t q ↔ Holds acc t q ∨ Holds es t q := by
    induction es with
    | nil => intro acc; simp [Holds]
    | cons e r ih =>
      intro acc
      have hc : Holds (e :: r) t q ↔ Holds [e] t q ∨ Holds r t q := holds_append [e] r t q
      rw [List.foldl_cons, ih, holds_insert, hc, ← or_assoc]
      exact or_congr_left or_comm
  rw [mergeEntries, key]
  simp [Holds]

/-- A change of stamps and marks alone. -/
theorem holds_map (g : Entry → Entry) (hg : ∀ y, (g y).pri = y.pri ∧ (g y).pc = y.pc ∧ (g y).parked = y.parked ∧ (g y).mask = y.mask)
    (es : List Entry) (t : Nat) (q : BitVec 8 × PC × Bool) : Holds (es.map g) t q ↔ Holds es t q := by
  simp only [Holds, List.mem_map]
  constructor
  · rintro ⟨_, ⟨y, hy, rfl⟩, hm, hq⟩
    obtain ⟨h1, h2, h3, h4⟩ := hg y
    exact ⟨y, hy, h4 ▸ hm, by rw [← hq, h1, h2, h3]⟩
  · rintro ⟨y, hy, hm, hq⟩
    obtain ⟨h1, h2, h3, h4⟩ := hg y
    exact ⟨g y, ⟨y, hy, rfl⟩, by rw [h4]; exact hm, by rw [← hq, h1, h2, h3]⟩

theorem holds_solo (es : List Entry) (t : Nat) (q : BitVec 8 × PC × Bool) : Holds (soloDemotion es) t q ↔ Holds es t q := by
  unfold soloDemotion
  split
  · exact holds_map _ (fun y => by split <;> exact ⟨rfl, rfl, rfl, rfl⟩) es t q
  · rfl

theorem holds_grantFirst (es : List Entry) (t : Nat) (q : BitVec 8 × PC × Bool) : Holds (grantFirst es) t q ↔ Holds es t q := by
  induction es with
  | nil => rfl
  | cons x r ih =>
    unfold grantFirst
    split
    · simp only [Holds, List.mem_cons, exists_eq_or_imp] at ih ⊢
      rw [ih]
    · simp only [Holds, List.mem_cons, exists_eq_or_imp]

theorem holds_dropGrant (w : Warp) (t : Nat) (q : BitVec 8 × PC × Bool) : Holds w.dropGrant.frontier t q ↔ Holds w.frontier t q := by
  unfold Warp.dropGrant
  split
  · rfl
  · exact holds_map (fun e => { e with granted := false }) (fun y => ⟨rfl, rfl, rfl, rfl⟩) w.frontier t q

theorem mem_lanes (m : Mask) (t : Nat) : t ∈ m.lanes ↔ m.has t = true := by
  simp only [Mask.lanes, allLanes, List.mem_filter, List.mem_range, Mask.has]
  constructor
  · exact fun h => h.2
  · intro h
    refine ⟨?_, h⟩
    refine Decidable.byContradiction (fun hn => ?_)
    rw [BitVec.getLsbD_of_ge m t (by omega)] at h
    simp at h

theorem has_bit (t u : Nat) (h : t < 32) : Mask.has (BitVec.ofNat 32 (2 ^ t)) u = decide (u = t) := by
  simp only [Mask.has, BitVec.getLsbD_ofNat, Nat.testBit_two_pow]
  by_cases hu : u = t
  · subst hu; simp [h]
  · have : ¬ t = u := fun e => hu e.symm
    simp [hu, this]

theorem lanes_ne_nil (m : Mask) (h : m ≠ 0) : m.lanes ≠ [] := by
  intro hn
  apply h
  apply BitVec.eq_of_getLsbD_eq
  intro i hi
  have := List.filter_eq_nil_iff.mp hn i (by simp [allLanes, hi])
  simpa using this

theorem and_not_zero (m : Mask) : m &&& ~~~(0 : Mask) = m := by
  rw [show (~~~(0 : Mask)) = BitVec.allOnes 32 from rfl, BitVec.and_allOnes]

theorem remains_lt {env : Env} {t : Nat} (h : env.remains t = true) : t < 32 := by
  refine Decidable.byContradiction (fun hn => ?_)
  simp only [Env.remains, Mask.has, Bool.and_eq_true] at h
  rw [BitVec.getLsbD_of_ge _ t (by omega)] at h
  simp at h

theorem mem_remains (env : Env) (t : Nat) : t ∈ allLanes.filter env.remains ↔ env.remains t = true := by
  simp only [allLanes, List.mem_filter, List.mem_range]
  exact ⟨fun h => h.2, fun h => ⟨remains_lt h, h⟩⟩

/-- Where the threads of the issuing entry stand. -/
theorem holds_successors (env : Env) (n : Nat) (dem : Bool) (t : Nat) (q : BitVec 8 × PC × Bool) :
    Holds (successors env n dem) t q ↔ env.remains t = true ∧ q = env.stands t := by
  unfold successors
  rw [holds_merge]
  simp only [Holds, List.mem_map, mem_remains]
  constructor
  · rintro ⟨_, ⟨u, hu, rfl⟩, hmu, hq⟩
    rw [has_bit u t (remains_lt hu), decide_eq_true_eq] at hmu
    subst hmu
    exact ⟨hu, hq.symm⟩
  · rintro ⟨ht, rfl⟩
    exact ⟨_, ⟨t, ht, rfl⟩, by rw [has_bit t t (remains_lt ht)]; simp, rfl⟩

/-- Every entry of the issuing entry's threads holds some thread. -/
theorem successors_inhabited (env : Env) (n : Nat) (dem : Bool) : ∀ y ∈ successors env n dem, ∃ t, y.mask.has t = true := by
  unfold successors
  have key : ∀ (es acc : List Entry), (∀ y ∈ acc, ∃ t, y.mask.has t = true) → (∀ y ∈ es, ∃ t, y.mask.has t = true) →
      ∀ y ∈ es.foldl (fun acc e => insertEntry e acc) acc, ∃ t, y.mask.has t = true := by
    intro es
    induction es with
    | nil => exact fun acc h _ => h
    | cons e r ih =>
      intro acc h k
      refine ih (insertEntry e acc) ?_ (fun y hy => k y (by simp [hy]))
      clear ih
      induction acc with
      | nil => intro y hy; rw [insertEntry, List.mem_singleton] at hy; rw [hy]; exact k e (by simp)
      | cons x a iha =>
        intro y hy
        unfold insertEntry at hy
        split at hy
        · rcases List.mem_cons.mp hy with rfl | hy
          · obtain ⟨t, ht⟩ := h x (by simp)
            refine ⟨t, ?_⟩
            have hm : (x.join e).mask.has t = (x.mask.has t || e.mask.has t) := by simp [Entry.join, Mask.has]
            rw [hm, ht]; rfl
          · exact h y (by simp [hy])
        · split at hy
          · rcases List.mem_cons.mp hy with rfl | hy
            · exact k y (by simp)
            · exact h y hy
          · rcases List.mem_cons.mp hy with rfl | hy
            · exact h y (by simp)
            · exact iha (fun z hz => h z (by simp [hz])) y hy
  refine key _ [] (by simp) ?_
  intro y hy
  obtain ⟨u, hu, rfl⟩ := List.mem_map.mp hy
  exact ⟨u, by rw [has_bit u u (remains_lt ((mem_remains env u).mp hu))]; simp⟩

/-- Which issues reset WC (R43). -/
theorem resets_iff (opts : Opts) (env : Env) (n : Nat) (dem : Bool) :
    env.resets opts (successors env n dem) = true ↔ env.Progresses opts := by
  simp only [Env.resets, Env.Progresses, Bool.or_eq_true, Bool.and_eq_true, decide_eq_true_eq, List.any_eq_true, ne_eq]
  refine or_congr Iff.rfl (and_congr Iff.rfl ?_)
  constructor
  · rintro ⟨y, hy, hlt⟩
    obtain ⟨t, ht⟩ := successors_inhabited env n dem y hy
    obtain ⟨h1, h2⟩ := (holds_successors env n dem t (y.pri, y.pc, y.parked)).mp ⟨y, hy, ht, rfl⟩
    exact ⟨t, h1, by rw [← h2]; exact hlt⟩
  · rintro ⟨t, h1, h2⟩
    obtain ⟨y, hy, _, hq⟩ := (holds_successors env n dem t (env.stands t)).mpr ⟨h1, rfl⟩
    exact ⟨y, hy, by rw [← hq] at h2; exact h2⟩

/-! ### The close of an issue -/

/-- Every part of the close of an issue, in order. -/
theorem closed_parts (opts : Opts) (env : Env) :
    ∃ w₁ w₂ : Warp, Same env.w w₁ ∧ Counted opts env w₁ ∧ w₁.live = env.w.live &&& ~~~env.dead ∧
      (w₁.preds = env.w.preds ∧ w₁.faults = env.w.faults) ∧ w₁.wjoins = env.w.wjoins ∧ w₁.region = env.w.region ∧
      (∃ g : Entry → Entry, (∀ y, (g y).pri = y.pri ∧ (g y).pc = y.pc ∧ (g y).parked = y.parked ∧ (g y).mask = y.mask ∧
          (g y).stamp = y.stamp ∧ (g y).demoted = false) ∧
       w₁.frontier = soloDemotion (mergeEntries ((env.w.frontier.filter (fun y => !(y.same env.e))).map g ++
        (if env.e.granted && 0 < env.w.grantLeft && !env.yielded then
          grantFirst (successors env (env.w.issues + 1) (env.e.demoted || (env.yielded && env.more)))
         else successors env (env.w.issues + 1) (env.e.demoted || (env.yielded && env.more)))))) ∧
      w₂ = (match env.join with | some j => w₁.startJoin env.e.pc j.2.1 j.2.2 | none => w₁) ∧
      env.closed opts =
        (if 0 < (w₂.afterIssue env.before.gencfg).grantLeft && (w₂.afterIssue env.before.gencfg).mode = .program then
          (w₂.afterIssue env.before.gencfg).dropGrant else w₂.afterIssue env.before.gencfg).joinStep := by
  obtain ⟨hs, hl, hp, hq, hj, hr, hf, hh, hm, hw⟩ := countFc_spec env.w env.before env.e env.top env.more
  have hres : env.resets opts (successors env (env.w.issues + 1) (env.e.demoted || (env.yielded && env.more))) = true ↔
      env.Progresses opts := resets_iff opts env _ _
  refine ⟨_, _, ?_, ?_, ?_, ?_, ?_, ?_, ?_, rfl, rfl⟩
  · exact hs.trans (by constructor <;> rfl)
  · refine ⟨rfl, fun h => ?_, fun h => ?_, hh, hm⟩
    · show (if _ then _ else _) = _
      rw [if_pos (hres.mpr h)]
    · show (if _ then _ else _) = _
      rw [if_neg (fun k => h (hres.mp k)), hw]
  · exact congrArg (· &&& ~~~env.dead) hl
  · exact ⟨hp, hq⟩
  · exact hj
  · exact hr
  · dsimp only
    rw [hf]
    by_cases hg : 0 < (env.w.countFc env.before env.e env.top env.more).grantDue
    · rw [if_pos hg, if_pos hg]
      refine ⟨fun y => { { y with demoted := false } with
        granted := oldestEntry (env.others env.w.frontier) = some { y with demoted := false } }, fun y => ⟨rfl, rfl, rfl, rfl, rfl, rfl⟩, ?_⟩
      simp only [Env.others, List.map_map, Function.comp_def]
    · rw [if_neg hg]
      exact ⟨fun y => { y with demoted := false }, fun y => ⟨rfl, rfl, rfl, rfl, rfl, rfl⟩, rfl⟩

theorem closed_same (opts : Opts) (env : Env) : Same env.w (env.closed opts) := by
  obtain ⟨w₁, w₂, h, _, _, _, _, _, _, h₂, hc⟩ := closed_parts opts env
  rw [hc]
  have hs : Same env.w w₂ := by
    subst h₂
    split
    · exact h.trans (same_startJoin _ _ _ _)
    · exact h
  refine Same.trans ?_ (same_joinStep _)
  have hg := hs.trans (kept_afterIssue w₂ env.before.gencfg).same
  split
  · exact hg.trans (kept_dropGrant _).same
  · exact hg

/-! ### An entry that is not parked -/

/-- Some entry is not parked, so no WJOIN wait is met (R44). -/
def someOpen (es : List Entry) : Prop := ∃ e ∈ es, e.parked = false

theorem someOpen_insert_self (e : Entry) (es : List Entry) (h : e.parked = false) : someOpen (insertEntry e es) := by
  induction es with
  | nil => exact ⟨e, by simp [insertEntry], h⟩
  | cons x r ih =>
    unfold insertEntry
    split
    · rename_i hs
      refine ⟨x.join e, by simp, ?_⟩
      simp only [Entry.same, Bool.and_eq_true, decide_eq_true_eq] at hs
      exact hs.2.symm.trans h
    · split
      · exact ⟨e, by simp, h⟩
      · obtain ⟨y, hy, hp⟩ := ih
        exact ⟨y, by simp [hy], hp⟩

theorem someOpen_insert (e : Entry) (es : List Entry) (h : someOpen es) : someOpen (insertEntry e es) := by
  obtain ⟨y, hy, hp⟩ := h
  induction es with
  | nil => simp at hy
  | cons x r ih =>
    unfold insertEntry
    split
    · rcases List.mem_cons.mp hy with rfl | hy
      · exact ⟨y.join e, by simp, hp⟩
      · exact ⟨y, by simp [hy], hp⟩
    · split
      · exact ⟨y, List.mem_cons_of_mem _ hy, hp⟩
      · rcases List.mem_cons.mp hy with rfl | hy
        · exact ⟨y, by simp, hp⟩
        · obtain ⟨z, hz, hq⟩ := ih hy
          exact ⟨z, by simp [hz], hq⟩

theorem someOpen_foldl (es acc : List Entry) (h : someOpen acc ∨ someOpen es) :
    someOpen (es.foldl (fun acc e => insertEntry e acc) acc) := by
  induction es generalizing acc with
  | nil => exact h.elim id (fun ⟨_, h, _⟩ => by simp at h)
  | cons e r ih =>
    apply ih
    rcases h with h | ⟨y, hy, hp⟩
    · exact .inl (someOpen_insert e acc h)
    · rcases List.mem_cons.mp hy with rfl | hy
      · exact .inl (someOpen_insert_self y acc hp)
      · exact .inr ⟨y, hy, hp⟩

theorem someOpen_merge (es : List Entry) (h : someOpen es) : someOpen (mergeEntries es) := someOpen_foldl es [] (.inr h)

theorem someOpen_solo (es : List Entry) (h : someOpen es) : someOpen (soloDemotion es) := by
  unfold soloDemotion
  obtain ⟨e, he, hp⟩ := h
  split
  · exact ⟨{ e with demoted := false }, List.mem_map.mpr ⟨e, he, by simp [hp]⟩, hp⟩
  · exact ⟨e, he, hp⟩

theorem someOpen_grantFirst (es : List Entry) (h : someOpen es) : someOpen (grantFirst es) := by
  obtain ⟨e, he, hp⟩ := h
  induction es with
  | nil => simp at he
  | cons x r ih =>
    unfold grantFirst
    split
    · rename_i hx
      rcases List.mem_cons.mp he with rfl | he
      · simp [hp] at hx
      · obtain ⟨z, hz, hq⟩ := ih he
        exact ⟨z, by simp [hz], hq⟩
    · rename_i hx
      exact ⟨{ x with granted := true }, by simp, by simpa using hx⟩

/-- Some thread of the issuing entry stands unparked after an issue that parks, ends and takes out none. -/
theorem stands_open {env : Env} (hj : env.join = none) (t : Nat) : (env.stands t).2.2 = false := by
  unfold Env.stands Env.parks Env.dest
  rw [hj]
  simp only [Bool.false_eq_true, if_false]
  split <;> rfl

theorem remains_all {env : Env} (hd : env.dead = 0) (ho : env.out = 0) (t : Nat) : env.remains t = env.e.mask.has t := by
  simp [Env.remains, hd, ho, Mask.has]

theorem stands_dest {env : Env} (hj : env.join = none) (t : Nat) : env.stands t = env.dest t := by
  unfold Env.stands Env.parks; rw [hj]; simp

theorem mask_has {m : Mask} (h : m ≠ 0) : ∃ t, m.has t = true := by
  obtain ⟨t, ts, ht⟩ := List.exists_cons_of_ne_nil (lanes_ne_nil m h)
  exact ⟨t, (mem_lanes m t).mp (by rw [ht]; simp)⟩

theorem someOpen_successors (env : Env) (n : Nat) (dem : Bool) (hj : env.join = none) (hd : env.dead = 0) (ho : env.out = 0)
    (he : env.e.mask ≠ 0) : someOpen (successors env n dem) := by
  obtain ⟨t, ht⟩ := mask_has he
  obtain ⟨y, hy, _, hq⟩ := (holds_successors env n dem t (env.stands t)).mpr ⟨by rw [remains_all hd ho]; exact ht, rfl⟩
  exact ⟨y, hy, by rw [← stands_open hj t, ← hq]⟩

theorem not_joinMet (w : Warp) (j : WJoin) (h : someOpen w.frontier) : w.joinMet j = false := by
  obtain ⟨e, he, hp⟩ := h
  have : w.frontier.all (fun e => e.parked && e.pc = j.pc) = false := by
    rw [List.all_eq_false]; exact ⟨e, he, by simp [hp]⟩
  simp [Warp.joinMet, this]

theorem joinStep_open (w : Warp) (h : someOpen w.frontier) : w.joinStep = w := by
  unfold Warp.joinStep
  split
  · rename_i j hj
    have := List.find?_some hj
    rw [not_joinMet w j h] at this
    simp at this
  · rfl

theorem someOpen_startPass (w : Warp) (g : Region) : someOpen (w.startPass g).frontier := ⟨_, List.mem_singleton.mpr rfl, rfl⟩

theorem someOpen_lanes {m : Mask} (hl : m ≠ 0) (f : Nat → Entry) (hf : ∀ t, (f t).parked = false) : someOpen (mergeEntries (m.lanes.map f)) := by
  obtain ⟨t, ts, ht⟩ := List.exists_cons_of_ne_nil (lanes_ne_nil _ hl)
  apply someOpen_merge
  rw [ht]
  exact ⟨_, List.mem_map.mpr ⟨t, by simp, rfl⟩, hf t⟩

theorem someOpen_endPass (w : Warp) (cfg : Word) (g : Region) (k : Nat) (hw : w.live ≠ 0) : someOpen (w.endPass cfg g k).frontier := by
  unfold Warp.endPass
  dsimp only
  split
  · exact someOpen_startPass _ _
  · split
    · rename_i hl
      exact someOpen_solo _ (someOpen_lanes hl _ (fun _ => rfl))
    · exact someOpen_lanes hw _ (fun _ => rfl)

theorem someOpen_regionStep (w : Warp) (cfg : Word) (h : someOpen w.frontier) : someOpen (w.regionStep cfg).frontier := by
  unfold Warp.regionStep
  split
  · exact h
  · dsimp only
    split
    · exact h
    · split
      · exact h
      · rename_i hl
        split
        · split
          · exact someOpen_startPass _ _
          · exact h
        · split
          · exact someOpen_endPass _ _ _ _ (by simpa using hl)
          · exact h

theorem someOpen_regionTrap (w : Warp) (cfg : Word) (h : someOpen w.frontier) : someOpen (w.regionTrap cfg).frontier := by
  unfold Warp.regionTrap
  split
  · exact h
  · dsimp only
    split <;> exact h

theorem someOpen_afterIssue (w : Warp) (cfg : Word) (h : someOpen w.frontier) : someOpen (w.afterIssue cfg).frontier := by
  unfold Warp.afterIssue
  split
  · exact someOpen_regionTrap w cfg h
  · exact someOpen_regionStep w cfg h

theorem someOpen_dropGrant (w : Warp) (h : someOpen w.frontier) : someOpen w.dropGrant.frontier := by
  unfold Warp.dropGrant
  split
  · exact h
  · obtain ⟨e, he, hp⟩ := h
    exact ⟨{ e with granted := false }, List.mem_map.mpr ⟨e, he, rfl⟩, hp⟩

theorem counted_kept {opts : Opts} {env : Env} {v w : Warp} (h : Counted opts env v) (k : Kept v w) : Counted opts env w :=
  ⟨k.issues.trans h.issues, fun p => k.wc.trans (h.reset p), fun p => k.wc.trans (h.goesOn p), fun p => k.fc.trans (h.held p),
    fun p => k.fc.trans (h.fair p)⟩

/-- An issue in which no thread parks, exits or leaves the frontier: beside what every issue leaves alone, the predicates, the live
threads and the waits stay. -/
theorem closed_kept (opts : Opts) (env : Env) (hj : env.join = none) (hd : env.dead = 0) (ho : env.out = 0)
    (he : env.e.mask ≠ 0) :
    (env.closed opts).preds = env.w.preds ∧ (env.closed opts).faults = env.w.faults ∧ (env.closed opts).live = env.w.live ∧ (env.closed opts).wjoins = env.w.wjoins ∧
      Counted opts env (env.closed opts) := by
  obtain ⟨w₁, w₂, _, hi, hl, hp, hw, _, ⟨g, _, hf⟩, h₂, hc⟩ := closed_parts opts env
  rw [hj] at h₂
  dsimp only at h₂
  subst h₂
  have ho₁ : someOpen w₂.frontier := by
    rw [hf]
    have hsu := someOpen_successors env (env.w.issues + 1) (env.e.demoted || (env.yielded && env.more)) hj hd ho he
    apply someOpen_solo
    apply someOpen_merge
    split
    · obtain ⟨y, hy, hq⟩ := someOpen_grantFirst _ hsu
      exact ⟨y, List.mem_append_right _ hy, hq⟩
    · obtain ⟨y, hy, hq⟩ := hsu
      exact ⟨y, List.mem_append_right _ hy, hq⟩
  have hk := kept_afterIssue w₂ env.before.gencfg
  have ho₂ := someOpen_afterIssue w₂ env.before.gencfg ho₁
  have hd0 : env.w.live &&& ~~~env.dead = env.w.live := by rw [hd, and_not_zero]
  rw [hd0] at hl
  split at hc
  · have hk' := kept_trans hk (kept_dropGrant (w₂.afterIssue env.before.gencfg))
    rw [hc, joinStep_open _ (someOpen_dropGrant _ ho₂)]
    exact ⟨hk'.preds.trans hp.1, hk'.faults.trans hp.2, hk'.live.trans hl, hk'.wjoins.trans hw, counted_kept hi hk'⟩
  · rw [hc, joinStep_open _ ho₂]
    exact ⟨hk.preds.trans hp.1, hk.faults.trans hp.2, hk.live.trans hl, hk.wjoins.trans hw, counted_kept hi hk⟩

/-! ### Where every thread stands -/

theorem regionStep_none (w : Warp) (cfg : Word) (h : w.region = none) : w.regionStep cfg = w := by
  unfold Warp.regionStep; rw [h]

theorem afterIssue_none (w : Warp) (cfg : Word) (h : w.region = none) : w.afterIssue cfg = w := by
  unfold Warp.afterIssue
  split
  · unfold Warp.regionTrap; rw [h]
  · exact regionStep_none w cfg h

/-- The threads of the issuing entry as entries, the grant given to one of them. -/
def granted (env : Env) : List Entry :=
  if env.e.granted && 0 < env.w.grantLeft && !env.yielded then
    grantFirst (successors env (env.w.issues + 1) (env.e.demoted || (env.yielded && env.more)))
  else successors env (env.w.issues + 1) (env.e.demoted || (env.yielded && env.more))

/-- A frontier is another one but for its grants. -/
def ButGrants (es fr : List Entry) : Prop := ∃ h : Entry → Entry, es = fr.map h ∧
  ∀ y, (h y).pri = y.pri ∧ (h y).pc = y.pc ∧ (h y).parked = y.parked ∧ (h y).mask = y.mask ∧ (h y).stamp = y.stamp ∧ (h y).demoted = y.demoted

/-- The frontier after an issue outside a region in which none parks, exits or leaves: the other entries without their marks and the
threads of the issuing one, merged. -/
theorem closed_frontier (opts : Opts) (env : Env) (hj : env.join = none) (hd : env.dead = 0) (ho : env.out = 0)
    (he : env.e.mask ≠ 0) (hr : env.w.region = none) :
    ∃ g : Entry → Entry, (∀ y, (g y).pri = y.pri ∧ (g y).pc = y.pc ∧ (g y).parked = y.parked ∧ (g y).mask = y.mask ∧
          (g y).stamp = y.stamp ∧ (g y).demoted = false) ∧
      ButGrants (env.closed opts).frontier
        (soloDemotion (mergeEntries ((env.w.frontier.filter (fun y => !(y.same env.e))).map g ++ granted env))) := by
  obtain ⟨w₁, w₂, _, _, _, _, _, hreg, ⟨g, hg, hf⟩, h₂, hc⟩ := closed_parts opts env
  rw [hj] at h₂
  dsimp only at h₂
  subst h₂
  rw [afterIssue_none w₂ _ (hreg.trans hr)] at hc
  have hsu := someOpen_successors env (env.w.issues + 1) (env.e.demoted || (env.yielded && env.more)) hj hd ho he
  have ho₁ : someOpen w₂.frontier := by
    rw [hf]
    apply someOpen_solo
    apply someOpen_merge
    split
    · obtain ⟨y, hy, hq⟩ := someOpen_grantFirst _ hsu
      exact ⟨y, List.mem_append_right _ hy, hq⟩
    · obtain ⟨y, hy, hq⟩ := hsu
      exact ⟨y, List.mem_append_right _ hy, hq⟩
  refine ⟨g, hg, ?_⟩
  rw [granted, ← hf]
  have same : ButGrants w₂.frontier w₂.frontier := ⟨id, by simp, fun y => ⟨rfl, rfl, rfl, rfl, rfl, rfl⟩⟩
  split at hc
  · rw [hc, joinStep_open _ (someOpen_dropGrant _ ho₁)]
    unfold Warp.dropGrant
    split
    · exact same
    · exact ⟨fun e => { e with granted := false }, rfl, fun y => ⟨rfl, rfl, rfl, rfl, rfl, rfl⟩⟩
  · rw [hc, joinStep_open _ ho₁]; exact same

theorem holds_granted {env : Env} (hj : env.join = none) (hd : env.dead = 0) (ho : env.out = 0) (t : Nat)
    (q : BitVec 8 × PC × Bool) : Holds (granted env) t q ↔ env.e.mask.has t = true ∧ q = env.dest t := by
  rw [← stands_dest hj, ← remains_all hd ho]
  unfold granted
  split
  · rw [holds_grantFirst, holds_successors]
  · rw [holds_successors]

/-- Every thread stands where it goes after an issue in which none parks, exits or leaves the frontier. -/
theorem closed_moved (opts : Opts) (env : Env) (hj : env.join = none) (hd : env.dead = 0) (ho : env.out = 0)
    (he : env.e.mask ≠ 0) : env.Moved (env.closed opts) := by
  intro hr hmem hap t q
  obtain ⟨g, hg, h, hfr, hh⟩ := closed_frontier opts env hj hd ho he hr
  rw [hfr, holds_map h (fun y => ⟨(hh y).1, (hh y).2.1, (hh y).2.2.1, (hh y).2.2.2.1⟩), holds_solo, holds_merge, holds_append,
    holds_map g (fun y => ⟨(hg y).1, (hg y).2.1, (hg y).2.2.1, (hg y).2.2.2.1⟩), holds_granted hj hd ho]
  have hoth : Holds (env.w.frontier.filter (fun y => !(y.same env.e))) t q ↔ (env.e.mask.has t = false ∧ Holds env.w.frontier t q) := by
    simp only [Holds, List.mem_filter, Bool.not_eq_true']
    constructor
    · rintro ⟨y, ⟨hy, hs⟩, hm, hq⟩
      rcases hap y hy with rfl | ⟨_, hno⟩
      · simp [Entry.same] at hs
      · exact ⟨hno t hm, y, hy, hm, hq⟩
    · rintro ⟨hno, y, hy, hm, hq⟩
      rcases hap y hy with rfl | ⟨hs, _⟩
      · simp [hno] at hm
      · exact ⟨y, ⟨hy, hs⟩, hm, hq⟩
  rw [hoth]
  cases env.e.mask.has t <;> simp

theorem successors_marks (env : Env) (n : Nat) (dem : Bool) : ∀ y ∈ successors env n dem, y.stamp = n ∧ y.demoted = dem := by
  intro y hy
  unfold successors at hy
  have hm := merged_merge ((allLanes.filter env.remains).map (fun t =>
    (⟨(env.stands t).1, (env.stands t).2.1, BitVec.ofNat 32 (2 ^ t), (env.stands t).2.2, n, dem, false⟩ : Entry)))
  obtain ⟨z, hz, hs, hst⟩ := hm.stamp y hy
  have hall : ∀ z ∈ ((allLanes.filter env.remains).map (fun t =>
    (⟨(env.stands t).1, (env.stands t).2.1, BitVec.ofNat 32 (2 ^ t), (env.stands t).2.2, n, dem, false⟩ : Entry))),
      z.stamp = n ∧ z.demoted = dem := by
    intro z hz; obtain ⟨t, _, rfl⟩ := List.mem_map.mp hz; exact ⟨rfl, rfl⟩
  refine ⟨hst ▸ (hall z hz).1, ?_⟩
  have hd := hm.demoted y hy
  cases hc : dem
  · rw [Bool.eq_false_iff]; intro hy1
    have := hd.mp hy1 z hz hs; rw [(hall z hz).2, hc] at this; simp at this
  · exact hd.mpr (fun z hz _ => by rw [(hall z hz).2, hc])

theorem grantFirst_mem {es : List Entry} {y : Entry} (h : y ∈ grantFirst es) : ∃ z ∈ es, y = z ∨ y = { z with granted := true } := by
  induction es with
  | nil => simp [grantFirst] at h
  | cons x r ih =>
    unfold grantFirst at h
    split at h
    · rcases List.mem_cons.mp h with rfl | h
      · exact ⟨_, by simp, .inl rfl⟩
      · obtain ⟨z, hz, hq⟩ := ih h
        exact ⟨z, by simp [hz], hq⟩
    · rcases List.mem_cons.mp h with rfl | h
      · exact ⟨x, by simp, .inr rfl⟩
      · exact ⟨y, by simp [h], .inl rfl⟩

theorem granted_marks (env : Env) : ∀ y ∈ granted env, y.stamp = env.w.issues + 1 ∧
    y.demoted = (env.e.demoted || (env.yielded && env.more)) := by
  intro y hy
  unfold granted at hy
  split at hy
  · obtain ⟨z, hz, hq⟩ := grantFirst_mem hy
    have := successors_marks env _ _ z hz
    rcases hq with rfl | rfl <;> exact this
  · exact successors_marks env _ _ y hy

theorem same_of {a b : Entry} (h1 : a.pri = b.pri) (h2 : a.pc = b.pc) (h3 : a.parked = b.parked) : a.same b = true :=
  (same_iff a b).mpr ⟨h1, h2, h3⟩

theorem only_one {l : List Entry} {y : Entry} (hs : Sorted l) (hy : y ∈ l) (h : ∀ z ∈ l, z = y) : l.length = 1 := by
  match l, hy, h, hs with
  | [_], _, _, _ => rfl
  | a :: b :: r, _, h, hs =>
    have hab := before_same ((List.pairwise_cons.mp hs).1 b (by simp))
    rw [h a (by simp), h b (by simp), same_refl] at hab
    exact absurd hab (by decide)

theorem solo_has {es : List Entry} {z : Entry} (hz : z ∈ es) : ∃ u ∈ soloDemotion es, u.same z = true := by
  unfold soloDemotion
  split
  · refine ⟨_, List.mem_map.mpr ⟨z, hz, rfl⟩, ?_⟩
    split <;> simp [Entry.same]
  · exact ⟨z, hz, same_refl z⟩

/-- The marks of a merged frontier after the only entry that is not parked has lost its own (R42). -/
theorem solo_marks {es : List Entry} (hs : Sorted es) : ∀ y ∈ soloDemotion es, ∃ x ∈ es, y.same x = true ∧ y.mask = x.mask ∧
    y.stamp = x.stamp ∧ (y.demoted = true ↔ x.demoted = true ∧ (x.parked = true ∨ ∃ z ∈ es, z.parked = false ∧ z.same x = false)) := by
  intro y hy
  unfold soloDemotion at hy
  split at hy
  · rename_i h1
    obtain ⟨x, hx, rfl⟩ := List.mem_map.mp hy
    refine ⟨x, hx, ?_⟩
    split
    · rename_i hp
      exact ⟨same_refl x, rfl, rfl, by simp [hp]⟩
    · rename_i hp
      refine ⟨by simp [Entry.same], rfl, rfl, ?_⟩
      simp only [Bool.false_eq_true, false_iff, not_and, not_or, not_exists]
      intro _
      refine ⟨hp, ?_⟩
      rintro z hz hzp
      obtain ⟨u, hu⟩ := List.length_eq_one_iff.mp h1
      have hxu : x ∈ es.filter (fun e => !e.parked) := List.mem_filter.mpr ⟨hx, by simpa using hp⟩
      have hzu : z ∈ es.filter (fun e => !e.parked) := List.mem_filter.mpr ⟨hz, by simp [hzp]⟩
      rw [hu, List.mem_singleton] at hxu hzu
      rw [hxu, hzu, same_refl]; simp
  · rename_i h1
    refine ⟨y, hy, same_refl y, rfl, rfl, ?_⟩
    constructor
    · intro hd
      refine ⟨hd, ?_⟩
      by_cases hp : y.parked = true
      · exact .inl hp
      · refine .inr ?_
        refine Decidable.byContradiction (fun hn => h1 ?_)
        have hall : ∀ z ∈ es.filter (fun e => !e.parked), z = y := by
          intro z hz
          obtain ⟨hz, hzp⟩ := List.mem_filter.mp hz
          refine Decidable.byContradiction (fun hne => hn ⟨z, hz, by simpa using hzp, ?_⟩)
          rw [Bool.eq_false_iff]
          exact fun hsm => hne (sorted_unique hs hz hy hsm)
        have hyf : y ∈ es.filter (fun e => !e.parked) := List.mem_filter.mpr ⟨hy, by simpa using hp⟩
        have hpw : (es.filter (fun e => !e.parked)).Pairwise (fun a b => a.before b = true) := List.Pairwise.filter _ hs
        exact only_one hpw hyf hall
    · exact fun h => h.1

/-- The stamps and marks of the frontier after an issue in which none parks, exits or leaves (R39, R42). -/
theorem closed_marked (opts : Opts) (env : Env) (hj : env.join = none) (hd : env.dead = 0) (ho : env.out = 0)
    (he : env.e.mask ≠ 0) : env.Marked (env.closed opts) := by
  intro hr hmem hap
  obtain ⟨g, hg, h, hfr, hh⟩ := closed_frontier opts env hj hd ho he hr
  have hm := merged_merge ((env.w.frontier.filter (fun y => !(y.same env.e))).map g ++ granted env)
  have hgs : ∀ z u : Entry, (g z).same u = z.same u := by
    intro z u; simp only [Entry.same, (hg z).1, (hg z).2.1, (hg z).2.2.1]
  have hoth : ∀ z, env.other z ↔ z ∈ env.w.frontier.filter (fun y => !(y.same env.e)) := by
    intro z; simp [Env.other, List.mem_filter]
  intro y hy
  rw [hfr] at hy
  obtain ⟨y', hy', rfl⟩ := List.mem_map.mp hy
  obtain ⟨x, hx, hys, hym, hyst, hyd⟩ := solo_marks hm.sorted y' hy'
  obtain ⟨h1, h2, h3, h4, h5, h6⟩ := hh y'
  have hyx : ∀ z : Entry, z.same (h y') = z.same x := by
    intro z
    rw [same_iff] at hys
    simp only [Entry.same, h1, h2, h3, hys.1, hys.2.1, hys.2.2]
  rw [h4, h5, h6, h3, hym, hyst]
  refine ⟨?_, ?_, ?_, ?_⟩
  · obtain ⟨z, hz, hs, hst⟩ := hm.stamp x hx
    rcases List.mem_append.mp hz with hz | hz
    · obtain ⟨u, hu, rfl⟩ := List.mem_map.mp hz
      exact .inr ⟨u, (hoth u).mpr hu, by rw [hyx, ← hgs]; exact hs, by rw [← hst, (hg u).2.2.2.2.1]⟩
    · exact .inl (by rw [← hst]; exact (granted_marks env z hz).1)
  · rintro ⟨t, ht, het⟩
    have := (holds_merge _ t (x.pri, x.pc, x.parked)).mp ⟨x, hx, ht, rfl⟩
    obtain ⟨z, hz, hzt, hq⟩ := this
    have hzx : z.same x = true := by
      simp only [Prod.mk.injEq] at hq
      exact same_of hq.1 hq.2.1 hq.2.2
    have hle := hm.least x hx z hz hzx
    rcases List.mem_append.mp hz with hz | hz
    · obtain ⟨u, hu, rfl⟩ := List.mem_map.mp hz
      obtain ⟨huf, hus⟩ := (hoth u).mpr hu
      rcases hap u huf with rfl | ⟨_, hno⟩
      · rw [same_refl] at hus; simp at hus
      · rw [(hg u).2.2.2.1] at hzt; rw [hno t hzt] at het; simp at het
    · rw [(granted_marks env z hz).1] at hle; exact hle
  · intro z hz hs
    rw [hyx] at hs
    have := hm.least x hx (g z) (List.mem_append_left _ (List.mem_map.mpr ⟨z, (hoth z).mp hz, rfl⟩)) (by rw [hgs]; exact hs)
    rw [(hg z).2.2.2.2.1] at this
    exact this
  · have hys' := (same_iff y' x).mp hys
    rw [hyd, hm.demoted x hx, hys'.2.2]
    have hthird : (∃ z ∈ mergeEntries ((env.w.frontier.filter (fun y => !(y.same env.e))).map g ++ granted env),
        z.parked = false ∧ z.same x = false) ↔ ∃ z ∈ (env.closed opts).frontier, z.parked = false ∧ z.same (h y') = false := by
      rw [hfr]
      constructor
      · rintro ⟨z, hz, hzp, hzs⟩
        obtain ⟨u, hu, hus⟩ := solo_has hz
        rw [same_iff] at hus
        refine ⟨h u, List.mem_map.mpr ⟨u, hu, rfl⟩, by rw [(hh u).2.2.1, hus.2.2]; exact hzp, ?_⟩
        rw [hyx, ← hzs]
        simp only [Entry.same, (hh u).1, (hh u).2.1, (hh u).2.2.1, hus.1, hus.2.1, hus.2.2]
      · rintro ⟨z, hz, hzp, hzs⟩
        obtain ⟨z', hz', rfl⟩ := List.mem_map.mp hz
        obtain ⟨u, hu, hus, _⟩ := solo_marks hm.sorted z' hz'
        rw [same_iff] at hus
        rw [(hh _).2.2.1] at hzp
        refine ⟨u, hu, by rw [← hus.2.2]; exact hzp, ?_⟩
        rw [hyx] at hzs
        rw [← hzs]
        simp only [Entry.same, (hh _).1, (hh _).2.1, (hh _).2.2.1, hus.1, hus.2.1, hus.2.2]
    rw [hthird]
    have hfirst : (∀ z ∈ (env.w.frontier.filter (fun y => !(y.same env.e))).map g ++ granted env, z.same x = true → z.demoted = true) ↔
        (env.e.demoted = true ∨ (env.yielded = true ∧ env.more = true)) ∧ (∀ z, env.other z → z.same (h y') = false) := by
      constructor
      · intro hall
        have hno : ∀ z, env.other z → z.same (h y') = false := by
          intro z hz
          rw [hyx, Bool.eq_false_iff]
          intro hs
          have := hall (g z) (List.mem_append_left _ (List.mem_map.mpr ⟨z, (hoth z).mp hz, rfl⟩)) (by rw [hgs]; exact hs)
          rw [(hg z).2.2.2.2.2] at this; simp at this
        refine ⟨?_, hno⟩
        obtain ⟨z, hz, hs, _⟩ := hm.stamp x hx
        rcases List.mem_append.mp hz with hz' | hz'
        · obtain ⟨u, hu, rfl⟩ := List.mem_map.mp hz'
          have := hno u ((hoth u).mpr hu)
          rw [hyx, ← hgs, hs] at this; simp at this
        · have := hall z hz hs
          rw [(granted_marks env z hz').2] at this
          simpa using this
      · rintro ⟨hdem, hno⟩ z hz hs
        rcases List.mem_append.mp hz with hz | hz
        · obtain ⟨u, hu, rfl⟩ := List.mem_map.mp hz
          have := hno u ((hoth u).mpr hu)
          rw [hyx, ← hgs, hs] at this; simp at this
        · rw [(granted_marks env z hz).2]
          simpa using hdem
    rw [hfirst, and_assoc]

theorem closes_of (opts : Opts) (env : Env) (hj : env.join = none) (hd : env.dead = 0) (ho : env.out = 0)
    (he : env.e.mask ≠ 0) : Closes opts (.next (closeIssue opts env)) env :=
  have h := closed_kept opts env hj hd ho he
  ⟨env.closed opts, rfl, closed_same opts env, h.1, h.2.1, h.2.2.1, h.2.2.2.1, h.2.2.2.2, closed_moved opts env hj hd ho he,
    closed_marked opts env hj hd ho he⟩

theorem releaseJoin_pred (w : Warp) (j : WJoin) (b : Bool) (p : Nat) (h : j.d.toNat ≠ p) : (w.releaseJoin j b).pred p = w.pred p := by
  have : (w.releaseJoin j b).preds = (w.setPred j.d.toNat
      ((w.frontier.filter (fun e => e.parked && e.pc = j.pc)).foldl (fun m e => m ||| e.mask) (0 : Mask))
      (if b then ((w.frontier.filter (fun e => e.parked && e.pc = j.pc)).foldl (fun m e => m ||| e.mask) (0 : Mask)) else 0)).preds := rfl
  have hp := pred_setPred w j.d.toNat p
    ((w.frontier.filter (fun e => e.parked && e.pc = j.pc)).foldl (fun m e => m ||| e.mask) (0 : Mask))
    (if b then ((w.frontier.filter (fun e => e.parked && e.pc = j.pc)).foldl (fun m e => m ||| e.mask) (0 : Mask)) else 0)
  have hn : ¬ (p = j.d.toNat ∧ j.d.toNat ≠ 15) := fun q => h q.1.symm
  rw [if_neg hn] at hp
  unfold Warp.pred at hp ⊢
  rw [this]
  exact hp

theorem joinStep_pred (w : Warp) (p : Nat) (h : ∀ j ∈ w.wjoins, j.d.toNat ≠ p) : w.joinStep.pred p = w.pred p := by
  unfold Warp.joinStep
  split
  · rename_i j hj
    exact releaseJoin_pred w j true p (h j (List.mem_of_find?_eq_some hj))
  · rfl

theorem joinStep_counts (w : Warp) : w.joinStep.issues = w.issues ∧ w.joinStep.live = w.live ∧ w.joinStep.fc = w.fc ∧
    w.joinStep.wc = w.wc := by
  unfold Warp.joinStep
  split
  · unfold Warp.releaseJoin; simp
  · exact ⟨rfl, rfl, rfl, rfl⟩

/-- A write of a predicate makes no error, and clears at most its own (R269). -/
theorem setPred_faults (w : Warp) (p : Nat) (l v : Mask) : (∀ k ∈ (w.setPred p l v).faults, k ∈ w.faults) ∧
    (∀ k ∈ w.faults, (∀ q, k ≠ faultKey 2 q) → k ∈ (w.setPred p l v).faults) := by
  unfold Warp.setPred
  split
  · exact ⟨fun _ h => h, fun _ h _ => h⟩
  · dsimp only
    split
    · exact ⟨fun k h => (List.mem_filter.mp h).1, fun k h hq => List.mem_filter.mpr ⟨h, by simpa using hq p⟩⟩
    · exact ⟨fun _ h => h, fun _ h _ => h⟩

theorem joinStep_faults (w : Warp) : (∀ k ∈ w.joinStep.faults, k ∈ w.faults) ∧
    (∀ k ∈ w.faults, (∀ q, k ≠ faultKey 2 q) → k ∈ w.joinStep.faults) := by
  unfold Warp.joinStep
  split
  · exact setPred_faults w _ _ _
  · exact ⟨fun _ h => h, fun _ h _ => h⟩

theorem closesJoin_of (opts : Opts) (env : Env) : ClosesJoin opts (.next (closeIssue opts env)) env := by
  refine ⟨env.closed opts, rfl, closed_same opts env, ?_⟩
  obtain ⟨w₁, w₂, _, hi, hl, hp, hw, _, _, h₂, hc⟩ := closed_parts opts env
  have hfa : w₂.faults = w₁.faults := by
    subst h₂
    split
    · unfold Warp.startJoin
      dsimp only
      split <;> rfl
    · rfl
  have h2 : w₂.issues = w₁.issues ∧ w₂.live = w₁.live ∧ w₂.preds = w₁.preds ∧ w₂.fc = w₁.fc ∧ w₂.wc = w₁.wc ∧
      ∀ j ∈ w₂.wjoins, j ∈ w₁.wjoins ∨ ∃ k, env.join = some k ∧ j.d = k.2.2 := by
    subst h₂
    split
    · rename_i k hk
      unfold Warp.startJoin
      dsimp only
      split
      · exact ⟨rfl, rfl, rfl, rfl, rfl, fun j hj => .inl hj⟩
      · refine ⟨rfl, rfl, rfl, rfl, rfl, fun j hj => ?_⟩
        rcases List.mem_append.mp hj with hj | hj
        · exact .inl hj
        · exact .inr ⟨k, hk, by rw [List.mem_singleton.mp hj]⟩
    · exact ⟨rfl, rfl, rfl, rfl, rfl, fun j hj => .inl hj⟩
  have hk : Kept w₂ (if 0 < (w₂.afterIssue env.before.gencfg).grantLeft && (w₂.afterIssue env.before.gencfg).mode = .program then
      (w₂.afterIssue env.before.gencfg).dropGrant else w₂.afterIssue env.before.gencfg) := by
    split
    · exact kept_trans (kept_afterIssue w₂ _) (kept_dropGrant _)
    · exact kept_afterIssue w₂ _
  rw [hc]
  have hj := joinStep_counts (if 0 < (w₂.afterIssue env.before.gencfg).grantLeft && (w₂.afterIssue env.before.gencfg).mode = .program then
      (w₂.afterIssue env.before.gencfg).dropGrant else w₂.afterIssue env.before.gencfg)
  have hjf := joinStep_faults (if 0 < (w₂.afterIssue env.before.gencfg).grantLeft && (w₂.afterIssue env.before.gencfg).mode = .program then
      (w₂.afterIssue env.before.gencfg).dropGrant else w₂.afterIssue env.before.gencfg)
  rw [hk.faults, hfa, hp.2] at hjf
  refine ⟨?_, ?_, hjf.1, hjf.2, ?_⟩
  · rw [hj.2.1, hk.live, h2.2.1, hl]
  · have hw : w₂.wc = w₁.wc := h2.2.2.2.2.1
    have hf : w₂.fc = w₁.fc := h2.2.2.2.1
    exact ⟨by rw [hj.1, hk.issues, h2.1, hi.issues], fun p => by rw [hj.2.2.2, hk.wc, hw, hi.reset p],
      fun p => by rw [hj.2.2.2, hk.wc, hw, hi.goesOn p], fun p => by rw [hj.2.2.1, hk.fc, hf, hi.held p],
      fun p => by rw [hj.2.2.1, hk.fc, hf, hi.fair p]⟩
  · intro p ha hb
    rw [joinStep_pred _ p ?_]
    · unfold Warp.pred; rw [hk.preds, h2.2.2.1, hp.1]
    · rw [hk.wjoins]
      intro j hj
      rcases h2.2.2.2.2.2 j hj with h | ⟨k, hk, hd⟩
      · rw [hw] at h; exact ha j h
      · rw [hd]; exact hb k hk

/-! ### How an admitted instruction ends -/

/-- What an opened issue holds before its effect. -/
theorem opened_env {i : Instr} {word : Word} {s : State} {env : Env} (h : openIssue i word s = some env) :
    env.dev = s ∧ env.join = none ∧ env.dead = 0 ∧ env.out = 0 ∧ env.moves = [] ∧ env.yielded = false ∧ env.ins = i ∧
      env.word = word ∧ env.w.park = none ∧ s.ctx? env.ctx.id = some env.ctx ∧
      (env.p = env.e.mask &&& guardMask env.w (field word.toNat 55 52) (word.getLsbD 51)) := by
  unfold openIssue at h
  split at h
  · simp at h
  · rename_i cu _
    split at h
    · simp at h
    · rename_i x hx
      split at h
      · simp at h
      · dsimp only at h
        split at h
        · simp at h
        · injection h with h
          subst h
          have hid : x.id = cu.1 := by
            have := List.find?_some hx
            simpa using this
          refine ⟨rfl, rfl, rfl, rfl, rfl, rfl, rfl, rfl, rfl, ?_, rfl⟩
          rw [hid]; exact hx

theorem mask_of_p {i : Instr} {word : Word} {s : State} {env : Env} (h : openIssue i word s = some env) (hp : env.p ≠ 0) :
    env.e.mask ≠ 0 := by
  intro h0
  have := (opened_env h).2.2.2.2.2.2.2.2.2.2
  apply hp
  rw [this, h0]
  simp

/-- The checks have found nothing: neither the gate nor a poisoned source. -/
theorem precheck_none {opts : Opts} {env : Env} (h : precheck opts env = none) : gate opts env = none ∧ env.poison opts = none := by
  unfold precheck at h
  split at h
  · simp at h
  · rename_i hg
    exact ⟨hg, by simpa using h⟩

/-- The attempt of an instruction that the checks let through is its body. -/
theorem attempt_passed {opts : Opts} {env : Env} (h : precheck opts env = none) (hp : env.p ≠ 0) (body : Env → Res) :
    attempt opts env body = body env := by
  simp only [attempt, (precheck_none h).1, (precheck_none h).2, if_neg hp, Res.orPoison]

theorem admitted_issue {i : Instr} {opts : Opts} {s : State} {env : Env} (h : Admitted i opts s env) (body : Env → Res) :
    issue i opts s body = .next (settle opts env (body env)) := by
  unfold issue issueThen
  rw [h.opened]
  simp only [attempt_passed h.passed h.some_thread, id]

/-- An admitted instruction whose body has its effect. -/
theorem issue_done {i : Instr} {opts : Opts} {s : State} {env env' : Env} {body : Env → Res} (h : Admitted i opts s env)
    (hb : body env = .done env') : issue i opts s body = .next (closeIssue opts env') := by
  rw [admitted_issue h, hb]
  simp [settle, h.quiet]

/-- An admitted instruction whose body traps. -/
theorem issue_trap {i : Instr} {opts : Opts} {s : State} {env : Env} {t : TrapInfo} {body : Env → Res} (h : Admitted i opts s env)
    (hb : body env = .trap t) : issue i opts s body = .next (takeTrap env t) := by
  rw [admitted_issue h, hb]
  simp [settle, h.quiet]

/-- An admitted instruction whose body has an effect in which no thread parks, exits or leaves the frontier. -/
theorem issue_closes {i : Instr} {opts : Opts} {s : State} {env env' : Env} {body : Env → Res} (h : Admitted i opts s env)
    (hb : body env = .done env') (he : env'.e = env.e) (hj : env'.join = env.join) (hd : env'.dead = env.dead)
    (ho : env'.out = env.out) : Closes opts (issue i opts s body) env' := by
  rw [issue_done h hb]
  have hq := opened_env h.opened
  apply closes_of
  · rw [hj, hq.2.1]
  · rw [hd, hq.2.2.1]
  · rw [ho, hq.2.2.2.1]
  · rw [he]; exact mask_of_p h.opened h.some_thread

/-- As `issue_closes`, for an effect that cannot trap or wait. -/
theorem issueDone_closes {i : Instr} {opts : Opts} {s : State} {env : Env} {f : Env → Env} (h : Admitted i opts s env)
    (he : (f env).e = env.e) (hj : (f env).join = env.join) (hd : (f env).dead = env.dead) (ho : (f env).out = env.out) :
    Closes opts (issueDone i opts s f) (f env) := issue_closes h rfl he hj hd ho

end Sys2Proof.Laws
end

