-- ==== Sys2Proof/Laws/Operands.lean ====
section
/-! SUPPORT. What the shared operations of the operand forms answer: lanes that pass a test, elements that encode, packed words. -/

namespace Sys2Proof.Laws

open Sys2Proof Machine

/-! ### Logarithms -/

/-- `natLog2Step` finds the logarithm that lies within 2^f above k. -/
theorem natLog2Step_eq (n : Nat) (hn : n ≠ 0) :
    ∀ f k, 2 ^ k ≤ n → n < 2 ^ (k + 2 ^ f) → natLog2Step n f k = n.log2
  | 0, k, lo, hi => ((Nat.log2_eq_iff hn).mpr ⟨lo, hi⟩).symm
  | f + 1, k, lo, hi => by
    unfold natLog2Step
    split
    · rename_i h
      exact natLog2Step_eq n hn f k lo ((Nat.div_eq_zero_iff_lt (Nat.two_pow_pos _)).mp h)
    · rename_i h
      have h2 : k + 2 ^ f + 2 ^ f = k + 2 ^ (f + 1) := by rw [Nat.pow_succ]; omega
      exact natLog2Step_eq n hn f _ (Nat.le_of_not_lt (fun g => h ((Nat.div_eq_zero_iff_lt (Nat.two_pow_pos _)).mpr g))) (h2 ▸ hi)

theorem natLog2Step_zero : ∀ f, natLog2Step 0 f 0 = 0
  | 0 => rfl
  | f + 1 => by simp [natLog2Step, natLog2Step_zero f]

/-- `natLog2` is the logarithm of every number. -/
theorem natLog2_eq (n : Nat) : natLog2 n = n.log2 := by
  unfold natLog2
  split
  · rename_i h
    by_cases hn : n = 0
    · subst hn; rw [natLog2Step_zero]; rfl
    · have hi := (Nat.div_eq_zero_iff_lt (Nat.two_pow_pos _)).mp h
      exact natLog2Step_eq n hn 20 0 (Nat.pos_of_ne_zero hn) (by rw [Nat.zero_add]; exact hi)
  · rfl
/-! ### Lanes -/

theorem ofPred_has (p : Nat → Bool) (t : Nat) (h : t < 32) : (Mask.ofPred p).has t = p t := by
  have key : ∀ (l : List Nat), (∀ u ∈ l, u < 32) → ∀ m : Mask,
      (l.foldl (fun m u => if p u then m ||| BitVec.ofNat 32 (2 ^ u) else m) m).getLsbD t =
        (m.getLsbD t || (decide (t ∈ l) && p t)) := by
    intro l
    induction l with
    | nil => intro _ m; simp
    | cons u us ih =>
      intro hl m
      rw [List.foldl_cons, ih (fun v hv => hl v (by simp [hv]))]
      have hu := hl u (by simp)
      by_cases hut : t = u
      · subst hut
        by_cases hp : p t
        · have := has_bit t t hu
          simp only [Mask.has] at this
          rw [if_pos hp, BitVec.getLsbD_or, this]; simp [hp]
        · simp [hp]
      · by_cases hp : p u
        · have := has_bit u t hu
          simp only [Mask.has] at this
          rw [if_pos hp, BitVec.getLsbD_or, this]; simp [hut]
        · simp [hp, hut]
  have := key allLanes (by simp [allLanes]) 0
  simpa [Mask.ofPred, Mask.has, allLanes, h] using this

theorem trapLanes_none (env : Env) (c : Cause) (bad : Nat → Bool) (v : Nat → Word)
    (h : ∀ t, env.p.has t = true → bad t = false) : env.trapLanes c bad v = none := by
  have hm : Mask.ofPred (fun t => env.p.has t && bad t) = 0 := by
    apply BitVec.eq_of_getLsbD_eq
    intro i hi
    have := ofPred_has (fun t => env.p.has t && bad t) i hi
    have h0 : (Mask.ofPred (fun t => env.p.has t && bad t)).has i = false := by
      rw [this]
      cases hp : env.p.has i
      · simp
      · simp [h i hp]
    rw [Mask.has] at h0
    rw [h0]
    simp
  simp [Env.trapLanes, hm]

/-! ### Elements that encode -/

/-- Encode answers a code for every value in a slot with a NaN code or an Invalid policy other than the trap (R64). -/
theorem encode_some (f : Fmt) (x : Val) (rm : Rm) (s1 : Bool) (u : Nat) (h : f.nan ≠ 0 ∨ f.inv ≠ 0) :
    f.encode x rm s1 u ≠ none := by
  have hi : ∀ b, f.invalid b ≠ none := by
    intro b
    unfold Fmt.invalid
    split
    · simp
    · split
      · rename_i h1 h2; rcases h with h | h <;> simp_all
      · split <;> simp
  have ho : ∀ b, f.overflow b rm ≠ none := by
    intro b
    unfold Fmt.overflow
    repeat' split
    all_goals first | exact hi _ | (simp; done)
  unfold Fmt.encode
  split
  · exact hi _
  · split
    · exact hi _
    · split
      · simp
      · exact ho _
  · split
    · simp
    · split
      · split <;> simp
      · dsimp only
        repeat' split
        all_goals first | exact ho _ | (simp; done)

theorem encodeLanes_done (env : Env) (rm : Rm) (d : BitVec 8) (base : Nat) (elems : Nat → List (Nat → Option Nat))
    (place : Nat → List Nat → Word) (h : ∀ t, env.p.has t = true → env.badElem rm elems t = none) :
    env.encodeLanes rm d base elems place = .done (env.encoded rm d elems place) := by
  unfold Env.encodeLanes
  rw [trapLanes_none env _ _ _ (fun t ht => by simp [h t ht])]

/-! ### An instruction over slot elements -/

theorem encodes_of {i : Instr} {opts : Opts} {d : BitVec 8} {rm : Env → Rm} {base : Env → Nat} {elems : Env → Nat → List (Nat → Option Nat)}
    {place : Env → Nat → List Nat → Word}
    (h : ∀ s, exec i s = issue i opts s (fun env => env.encodeLanes (rm env) d (base env) (elems env) (place env))) :
    Encodes i opts d rm base elems place := by
  constructor
  · intro s env ha hc
    rw [h]
    exact issue_closes ha (encodeLanes_done env _ _ _ _ _ hc) rfl rfl rfl rfl
  · intro s env ha ⟨t, ht, hp, hb⟩
    rw [h]
    apply issue_trap ha
    have hm : Mask.ofPred (fun t => env.p.has t && (env.badElem (rm env) (elems env) t).isSome) ≠ 0 := by
      intro h0
      have := ofPred_has (fun t => env.p.has t && (env.badElem (rm env) (elems env) t).isSome) t ht
      rw [h0] at this
      have hz : Mask.has 0 t = false := by simp [Mask.has]
      rw [hz] at this
      cases hx : env.badElem (rm env) (elems env) t <;> simp_all
    simp only [Env.encodeLanes, Env.trapLanes, hm, if_false]

/-! ### Packed words -/

theorem pack_fold (w : Nat) (cs : List Nat) (n acc : Nat) :
    (cs.zipIdx n).foldl (fun acc p => acc + (p.1 % 2 ^ w) * 2 ^ (p.2 * w)) acc =
      acc + 2 ^ (n * w) * (cs.zipIdx).foldl (fun acc p => acc + (p.1 % 2 ^ w) * 2 ^ (p.2 * w)) 0 := by
  induction cs generalizing n acc with
  | nil => simp
  | cons c r ih =>
    simp only [List.zipIdx_cons, List.foldl_cons]
    rw [ih, ih (0 + 1) (0 + c % 2 ^ w * 2 ^ (0 * w))]
    simp only [Nat.zero_mul, Nat.pow_zero, Nat.mul_one, Nat.zero_add, Nat.one_mul]
    rw [Nat.add_mul, Nat.pow_add, Nat.one_mul, Nat.mul_add, Nat.mul_comm (c % 2 ^ w), Nat.mul_assoc, Nat.add_assoc]

/-- The number that codes of width w pack into. -/
def packNat (w : Nat) : List Nat → Nat
  | [] => 0
  | c :: r => c % 2 ^ w + 2 ^ w * packNat w r

theorem packNat_fold (w : Nat) (cs : List Nat) :
    (cs.zipIdx).foldl (fun acc p => acc + (p.1 % 2 ^ w) * 2 ^ (p.2 * w)) 0 = packNat w cs := by
  induction cs with
  | nil => rfl
  | cons c r ih =>
    simp only [List.zipIdx_cons, List.foldl_cons]
    rw [pack_fold, ih, packNat]
    simp

theorem packNat_lt (w : Nat) (cs : List Nat) : packNat w cs < 2 ^ (cs.length * w) := by
  induction cs with
  | nil => simp [packNat]
  | cons c r ih =>
    have h := Nat.mod_lt c (Nat.two_pow_pos w)
    rw [packNat, List.length_cons, Nat.add_mul, Nat.one_mul, Nat.pow_add, Nat.mul_comm (2 ^ (r.length * w))]
    calc c % 2 ^ w + 2 ^ w * packNat w r < 2 ^ w + 2 ^ w * packNat w r := by omega
      _ = 2 ^ w * (packNat w r + 1) := by rw [Nat.mul_add, Nat.mul_one, Nat.add_comm]
      _ ≤ 2 ^ w * 2 ^ (r.length * w) := Nat.mul_le_mul_left _ ih

theorem packNat_get (w : Nat) (cs : List Nat) (k : Nat) : packNat w cs / 2 ^ (k * w) % 2 ^ w = cs.getD k 0 % 2 ^ w := by
  induction cs generalizing k with
  | nil => simp [packNat]
  | cons c r ih =>
    cases k with
    | zero => simp [packNat, Nat.add_mod]
    | succ k =>
      rw [packNat, Nat.add_mul, Nat.one_mul, Nat.pow_add, Nat.mul_comm (2 ^ (k * w)), ← Nat.div_div_eq_div_mul]
      have h := Nat.mod_lt c (Nat.two_pow_pos w)
      rw [Nat.add_mul_div_left _ _ (Nat.two_pow_pos w), Nat.div_eq_of_lt h, Nat.zero_add, ih]
      simp

/-- A thread-word is the number that its codes pack into, below its last element (R59). -/
theorem packElems_toNat (w : Nat) (cs : List Nat) (h : cs.length * w ≤ 64) : (packElems w cs).toNat = packNat w cs := by
  have hlt : packNat w cs < 2 ^ 64 := Nat.lt_of_lt_of_le (packNat_lt w cs) (Nat.pow_le_pow_right (by decide) h)
  simp only [packElems, packNat_fold, BitVec.toNat_ofNat]
  rw [Nat.mod_eq_of_lt (Nat.mod_lt _ (by decide)), Nat.mod_eq_of_lt hlt]

theorem elemOf_packElems (w : Nat) (cs : List Nat) (k : Nat) (hw : 0 < w) (h : cs.length * w ≤ 64) :
    elemOf w (packElems w cs) k = cs.getD k 0 % 2 ^ w := by
  have he : k * w + w - 1 + 1 - k * w = w := by omega
  rw [elemOf, natBits, he, Nat.shiftRight_eq_div_pow, packElems_toNat w cs h, packNat_get]

end Sys2Proof.Laws
end

