-- ==== Sys2Proof/Laws/Access.lean ====
section
/-! SUPPORT. What making and touching accesses leaves as it was, and the memory instructions in terms of one law. -/

namespace Sys2Proof.Laws

open Sys2Proof Machine

/-- The issue's frame of an environment: its entry, its WJOIN, and the threads that leave. -/
def SameIssue (a b : Env) : Prop := b.e = a.e ∧ b.join = a.join ∧ b.dead = a.dead ∧ b.out = a.out

theorem SameIssue.refl (a : Env) : SameIssue a a := ⟨rfl, rfl, rfl, rfl⟩
theorem SameIssue.trans {a b c : Env} (h : SameIssue a b) (k : SameIssue b c) : SameIssue a c :=
  ⟨k.1.trans h.1, k.2.1.trans h.2.1, k.2.2.1.trans h.2.2.1, k.2.2.2.trans h.2.2.2⟩

theorem foldl_sameIssue {α : Type} (f : Env → α → Env) (hf : ∀ e a, SameIssue e (f e a)) (l : List α) (e : Env) :
    SameIssue e (l.foldl f e) := by
  induction l generalizing e with
  | nil => exact .refl e
  | cons a r ih => exact (hf e a).trans (ih (f e a))

theorem addLanes_sameIssue (env : Env) (o : AccOpts) (pl : Plan) (l : List Nat) (kind : Env → Nat → AccKind) :
    SameIssue env (env.addLanes o pl l kind) := by
  unfold Env.addLanes
  apply foldl_sameIssue
  intro _ _
  exact ⟨rfl, rfl, rfl, rfl⟩

theorem touchPlan_sameIssue (env : Env) (pl : Plan) : SameIssue env (env.touchPlan pl) := by
  unfold Env.touchPlan; split <;> exact ⟨rfl, rfl, rfl, rfl⟩

theorem makeAccess_done {env : Env} {o : AccOpts} {pl : Plan} {l : List Nat} {kind : Env → Nat → AccKind}
    (h : env.checkPlan pl = none) (ha : env.absentLines pl = []) :
    env.makeAccess o pl l kind = .done ((env.touchPlan pl).addLanes o pl l kind) := by
  unfold Env.makeAccess; rw [h, ha]

/-- Performing accesses changes neither the entry nor what leaves it. -/
theorem perform_sameIssue {env e : Env} {p : Access → Bool} (h : env.perform p = some e) : SameIssue env e := by
  unfold Env.perform at h
  dsimp only at h
  split at h
  · simp at h
  · split at h
    · simp at h
    · split at h
      · simp at h
      · split at h
        · simp at h
        · simp at h; subst h; exact ⟨rfl, rfl, rfl, rfl⟩

/-- After accesses have been performed none that satisfies the test is left (R276). -/
theorem perform_none_left {env e : Env} {p : Access → Bool} (h : env.perform p = some e) : ∀ b ∈ e.ctx.accesses, p b = false := by
  unfold Env.perform at h
  dsimp only at h
  split at h
  · simp at h
  · split at h
    · simp at h
    · split at h
      · simp at h
      · split at h
        · simp at h
        · rename_i hn
          simp at h; subst h
          intro b hb
          rw [List.any_eq_true] at hn
          by_cases hp : p b = true
          · exact absurd ⟨b, hb, hp⟩ hn
          · simpa using hp

theorem releaseFor_sameIssue {env e : Env} {scope : Nat} {p : Access → Bool} (h : env.releaseFor scope p = some e) : SameIssue env e := by
  unfold Env.releaseFor at h
  split at h
  · simp at h
  · obtain ⟨e1, h1, rfl⟩ := Option.map_eq_some_iff.mp h
    exact (perform_sameIssue h1).trans ⟨rfl, rfl, rfl, rfl⟩

theorem releaseAt_sameIssue {env e : Env} {scope : Nat} (h : env.releaseAt scope = some e) : SameIssue env e := releaseFor_sameIssue h

/-- A release of some regions changes neither the entry nor what leaves it. -/
theorem releaseIn_sameIssue {env e : Env} {rs : List Reg} (h : env.releaseIn rs = some e) : SameIssue env e := by
  unfold Env.releaseIn at h
  split at h
  · simp at h
  · exact perform_sameIssue h

theorem release_sameIssue {env e : Env} (h : env.release = some e) : SameIssue env e := releaseAt_sameIssue h

/-- An instruction whose body, where a condition holds, is one plan of accesses. -/
theorem accesses_if {i : Instr} {opts : Opts} {cond : Env → Prop} {o : AccOpts} {pl : Env → Plan} {lanes : Env → List Nat}
    {kind : Env → Env → Nat → AccKind} {body : Env → Res} (h : ∀ s, exec i s = issue i opts s body)
    (hb : ∀ env, cond env → body env = env.makeAccess o (pl env) (lanes env) (kind env)) : AccessesIf i opts cond o pl lanes kind := by
  refine ⟨?_, ?_, ?_, ?_⟩
  · intro s env ha ⟨h0, h1, h2⟩
    have hs := (touchPlan_sameIssue env (pl env)).trans (addLanes_sameIssue _ o (pl env) (lanes env) (kind env))
    rw [h]
    exact issue_closes ha ((hb env h0).trans (makeAccess_done h1 h2)) hs.1 hs.2.1 hs.2.2.1 hs.2.2.2
  · intro s env t ha h0 ht
    rw [h]
    refine issue_trap ha ((hb env h0).trans ?_)
    unfold Env.makeAccess; rw [ht]
  · intro s env k ha h0 hk
    rw [h, admitted_issue ha, hb env h0]
    unfold Env.makeAccess; rw [hk]
    cases k <;> simp [settle, ha.quiet]
  · intro s env ha h0 hn hl
    rw [h, admitted_issue ha, hb env h0]
    unfold Env.makeAccess; rw [hn]
    cases hx : env.absentLines (pl env) with
    | nil => exact absurd hx hl
    | cons a r => simp [settle]

/-- An instruction whose body is one plan of accesses. -/
theorem accesses_of {i : Instr} {opts : Opts} {o : AccOpts} {pl : Env → Plan} {lanes : Env → List Nat}
    {kind : Env → Env → Nat → AccKind} (h : ∀ s, exec i s = issue i opts s (fun env => env.makeAccess o (pl env) (lanes env) (kind env))) :
    Accesses i opts o pl lanes kind := accesses_if h (fun _ _ => rfl)

/-! ### Fields of numbers -/

theorem natBits_hi (n hi lo : Nat) (h : n < 2 ^ lo) : natBits n hi lo = 0 := by
  unfold natBits; rw [Nat.shiftRight_eq_div_pow, Nat.div_eq_of_lt h]; simp
theorem natBits_hi_iff (v : Word) (lo : Nat) (h : lo ≤ 63) : natBits v.toNat 63 lo = 0 ↔ v.toNat < 2 ^ lo := by
  unfold natBits
  rw [Nat.shiftRight_eq_div_pow]
  have : v.toNat / 2 ^ lo < 2 ^ (63 + 1 - lo) := by
    rw [Nat.div_lt_iff_lt_mul (Nat.two_pow_pos _), ← Nat.pow_add]
    have := v.isLt
    have : 63 + 1 - lo + lo = 64 := by omega
    rw [this]; omega
  rw [Nat.mod_eq_of_lt this, Nat.div_eq_zero_iff]
  have := Nat.two_pow_pos lo
  omega

/-! ### What an access leaves -/

theorem addAccess_dev (env : Env) (o : AccOpts) (t : Nat) (addr : Word) (ps : List Piece) (k : AccKind) :
    (env.addAccess o t addr ps k).dev = { env.dev with nextId := env.dev.nextId + 1 } := rfl

theorem markDest_marks (w : Warp) (d : Dest) : ∃ vm sm, w.markDest d = { w with vmarks := vm, smarks := sm } := by
  unfold Warp.markDest
  split
  · exact ⟨w.vmarks, _, rfl⟩
  · exact ⟨_, w.smarks, rfl⟩

theorem markDests_marks (ds : List Dest) (w : Warp) : ∃ vm sm, ds.foldl Warp.markDest w = { w with vmarks := vm, smarks := sm } := by
  induction ds generalizing w with
  | nil => exact ⟨w.vmarks, w.smarks, rfl⟩
  | cons d r ih =>
    obtain ⟨vm, sm, h⟩ := markDest_marks w d
    rw [List.foldl_cons, h]
    obtain ⟨vm', sm', h'⟩ := ih { w with vmarks := vm, smarks := sm }
    exact ⟨vm', sm', h'⟩

theorem addLanes_append (env : Env) (o : AccOpts) (pl : Plan) (l : List Nat) (kind : Env → Nat → AccKind) (t : Nat) :
    env.addLanes o pl (l ++ [t]) kind = (env.addLanes o pl l kind).addAccess o t (wordInt (pl.base t))
      (env.pieces pl t (pl.runs t) pl.off) (kind (env.addLanes o pl l kind) t) := by
  simp [Env.addLanes]

theorem addLanes_effect (env : Env) (o : AccOpts) (pl : Plan) (kind : Env → Nat → AccKind) (l : List Nat) :
    ((env.addLanes o pl l kind).ctx.accesses = env.ctx.accesses ++
      l.zipIdx.map (fun (q : Nat × Nat) => env.accessOf o pl q.1 (env.dev.nextId + q.2)
        (kind (env.addLanes o pl (l.take q.2) kind) q.1))) ∧
    (env.addLanes o pl l kind).dev = { env.dev with nextId := env.dev.nextId + l.length } ∧
    (∃ as, (env.addLanes o pl l kind).ctx = { env.ctx with accesses := as }) ∧
    ∃ vm sm, (env.addLanes o pl l kind).w = { env.w with vmarks := vm, smarks := sm } := by
  suffices H : ∀ r : List Nat, ((env.addLanes o pl r.reverse kind).ctx.accesses = env.ctx.accesses ++
      r.reverse.zipIdx.map (fun (q : Nat × Nat) => env.accessOf o pl q.1 (env.dev.nextId + q.2)
        (kind (env.addLanes o pl (r.reverse.take q.2) kind) q.1))) ∧
    (env.addLanes o pl r.reverse kind).dev = { env.dev with nextId := env.dev.nextId + r.reverse.length } ∧
    (∃ as, (env.addLanes o pl r.reverse kind).ctx = { env.ctx with accesses := as }) ∧
    ∃ vm sm, (env.addLanes o pl r.reverse kind).w = { env.w with vmarks := vm, smarks := sm } by
    simpa using H l.reverse
  intro r
  induction r with
  | nil => exact ⟨by simp [Env.addLanes], rfl, ⟨_, rfl⟩, _, _, rfl⟩
  | cons t r ih =>
    obtain ⟨h1, h2, ⟨as, h3⟩, vm, sm, h4⟩ := ih
    rw [List.reverse_cons, addLanes_append]
    generalize hg : env.addLanes o pl r.reverse kind = g at *
    refine ⟨?_, ?_, ?_, ?_⟩
    · show g.ctx.accesses ++ [_] = _
      rw [h1, List.append_assoc]
      congr 1
      rw [List.zipIdx_append, List.map_append]
      congr 1
      · apply List.map_congr_left
        intro q hq
        have hlt : q.2 < r.reverse.length := by
          have := List.mem_zipIdx hq
          simp at this ⊢; omega
        rw [List.take_append_of_le_length (by omega)]
      · simp [Env.accessOf, Env.id, Env.core, h2, h4, hg]
    · rw [addAccess_dev, h2]; simp; omega
    · have hc : (g.addAccess o t (wordInt (pl.base t)) (env.pieces pl t (pl.runs t) pl.off) (kind g t)).ctx =
          { g.ctx with accesses := (g.addAccess o t (wordInt (pl.base t)) 
            (env.pieces pl t (pl.runs t) pl.off) (kind g t)).ctx.accesses } := rfl
      exact ⟨_, by rw [hc, h3]⟩
    · show ∃ vm sm, (kind g t).dests.foldl Warp.markDest g.w = _
      obtain ⟨vm', sm', h'⟩ := markDests_marks (kind g t).dests g.w
      exact ⟨vm', sm', by rw [h', h4]⟩

/-! ### What an acquire does (R165, R276, R277) -/

@[simp] theorem raise_id (x : Context) (core scope : Nat) : (x.raise core scope).id = x.id := rfl
@[simp] theorem raise_warps (x : Context) (core scope : Nat) : (x.raise core scope).warps = x.warps := rfl
@[simp] theorem raise_owed (x : Context) (core scope : Nat) : (x.raise core scope).owed = x.owed := rfl
@[simp] theorem raise_blocks (x : Context) (core scope : Nat) : (x.raise core scope).blocks = x.blocks := rfl
@[simp] theorem acquire_mem (s : State) (core scope : Nat) : (s.acquire core scope).mem = s.mem := rfl
@[simp] theorem acquire_nextId (s : State) (core scope : Nat) : (s.acquire core scope).nextId = s.nextId := rfl
@[simp] theorem acquireWith_mem (s : State) (x : Context) (core scope : Nat) : (s.acquireWith x core scope).mem = s.mem := rfl

/-- An acquire changes of an access only the scope for which it is released, which it may widen. -/
theorem raised_widens (b : Access) (core scope : Nat) : ∃ n, b.relAt ≤ n ∧ b.raised core scope = { b with relAt := n } := by
  unfold Access.raised
  split
  · exact ⟨_, Nat.le_max_left _ _, rfl⟩
  · exact ⟨b.relAt, Nat.le_refl _, rfl⟩

/-- An access of no card is left by every acquire. -/
theorem raised_of_warp (b : Access) (core scope : Nat) (h : b.card = 0) : b.raised core scope = b := by
  simp [Access.raised, h, coreNear]

/-- Every copy that an acquire leaves was there before. -/
theorem acquire_copies (s : State) (core scope : Nat) : ∀ c ∈ (s.acquire core scope).copies, c ∈ s.copies :=
  fun _ h => (List.mem_filter.mp h).1

/-- The renumbering behind an acquire keeps the order of the warp's numbers. -/
theorem laterBy_mono (id n a b : Nat) (hn : id ≤ n) (h : a < b) : laterBy id n a < laterBy id n b := by
  unfold laterBy
  split <;> split <;> omega

end Sys2Proof.Laws
end

