-- ==== Sys2Proof/Laws/Encoding.lean ====
section
/-! SUPPORT. Decoding undoes encoding: the fields of each body format, and the selection of a member of an opcode. -/

namespace Sys2Proof.Laws

open Sys2Proof Machine

theorem field_div (n hi lo : Nat) : field n hi lo = n / 2 ^ lo % 2 ^ (hi + 1 - lo) := by
  simp [field, Nat.shiftRight_eq_div_pow]

theorem toNat_bit (b : Bool) : b.toNat ≤ 1 := by cases b <;> simp

theorem bit_of (b : Bool) (n : Nat) (h : n = b.toNat) : decide (n = 1) = b := by subst h; cases b <;> rfl

theorem ofNat_back {w : Nat} (v : BitVec w) (n : Nat) (h : n = v.toNat) : BitVec.ofNat w n = v := by
  subst h; simp

theorem rrrOf_bits (opc : Nat) (r : RRR) : rrrOf (opc * 2 ^ 56 + r.bits) = r := by
  obtain ⟨pg, pn, d, a, b, c, f, wa, wb, wc, x⟩ := r
  have h1 := toNat_bit pn
  have h2 := toNat_bit wa
  have h3 := toNat_bit wb
  have h4 := toNat_bit wc
  have e1 := pg.isLt; have e2 := d.isLt; have e3 := a.isLt; have e4 := b.isLt; have e5 := c.isLt
  have e6 := f.isLt; have e7 := x.isLt
  simp only [rrrOf, RRR.bits, field_div, RRR.mk.injEq]
  refine ⟨ofNat_back _ _ (by omega), ?_, ofNat_back _ _ (by omega), ofNat_back _ _ (by omega), ofNat_back _ _ (by omega),
    ofNat_back _ _ (by omega), ofNat_back _ _ (by omega), ?_, ?_, ?_, ofNat_back _ _ (by omega)⟩
  · exact bit_of _ _ (by omega)
  · exact bit_of _ _ (by omega)
  · exact bit_of _ _ (by omega)
  · exact bit_of _ _ (by omega)

theorem riOf_bits (opc : Nat) (r : RI) : riOf (opc * 2 ^ 56 + r.bits) = r := by
  obtain ⟨pg, pn, d, a, imm, f, wa, x⟩ := r
  have h1 := toNat_bit pn
  have h2 := toNat_bit wa
  have e1 := pg.isLt; have e2 := d.isLt; have e3 := a.isLt; have e4 := imm.isLt
  have e6 := f.isLt; have e7 := x.isLt
  simp only [riOf, RI.bits, field_div, RI.mk.injEq]
  refine ⟨ofNat_back _ _ (by omega), ?_, ofNat_back _ _ (by omega), ofNat_back _ _ (by omega), ofNat_back _ _ (by omega),
    ofNat_back _ _ (by omega), ?_, ofNat_back _ _ (by omega)⟩
  · exact bit_of _ _ (by omega)
  · exact bit_of _ _ (by omega)

theorem mfOf_bits (opc : Nat) (r : MF) : mfOf (opc * 2 ^ 56 + r.bits) = r := by
  obtain ⟨pg, pn, d, a, b, off, f, wa, wb, wd, x⟩ := r
  have h1 := toNat_bit pn
  have h2 := toNat_bit wa
  have h3 := toNat_bit wb
  have h4 := toNat_bit wd
  have e1 := pg.isLt; have e2 := d.isLt; have e3 := a.isLt; have e4 := b.isLt; have e5 := off.isLt
  have e6 := f.isLt; have e7 := x.isLt
  simp only [mfOf, MF.bits, field_div, MF.mk.injEq]
  refine ⟨ofNat_back _ _ (by omega), ?_, ofNat_back _ _ (by omega), ofNat_back _ _ (by omega), ofNat_back _ _ (by omega),
    ofNat_back _ _ (by omega), ofNat_back _ _ (by omega), ?_, ?_, ?_, ofNat_back _ _ (by omega)⟩
  · exact bit_of _ _ (by omega)
  · exact bit_of _ _ (by omega)
  · exact bit_of _ _ (by omega)
  · exact bit_of _ _ (by omega)

theorem bfOf_bits (opc : Nat) (r : BF) : bfOf (opc * 2 ^ 56 + r.bits) = r := by
  obtain ⟨pg, pn, off, tpri, x⟩ := r
  have h1 := toNat_bit pn
  have e1 := pg.isLt; have e2 := off.isLt; have e3 := tpri.isLt; have e7 := x.isLt
  simp only [bfOf, BF.bits, field_div, BF.mk.injEq]
  refine ⟨ofNat_back _ _ (by omega), ?_, ofNat_back _ _ (by omega), ofNat_back _ _ (by omega), ofNat_back _ _ (by omega)⟩
  exact bit_of _ _ (by omega)

theorem i32Of_bits (opc : Nat) (r : I32) : i32Of (opc * 2 ^ 56 + r.bits) = r := by
  obtain ⟨pg, pn, d, imm, x⟩ := r
  have h1 := toNat_bit pn
  have e1 := pg.isLt; have e2 := d.isLt; have e3 := imm.isLt; have e7 := x.isLt
  simp only [i32Of, I32.bits, field_div, I32.mk.injEq]
  refine ⟨ofNat_back _ _ (by omega), ?_, ofNat_back _ _ (by omega), ofNat_back _ _ (by omega), ofNat_back _ _ (by omega)⟩
  exact bit_of _ _ (by omega)

/-- A body stands below the opcode and leaves bits 50:48 zero. -/
def Low (n : Nat) : Prop := n < 2 ^ 56 ∧ field n 50 48 = 0

theorem rrr_low (r : RRR) : Low r.bits := by
  obtain ⟨pg, pn, d, a, b, c, f, wa, wb, wc, x⟩ := r
  have h1 := toNat_bit pn
  have h2 := toNat_bit wa
  have h3 := toNat_bit wb
  have h4 := toNat_bit wc
  have e1 := pg.isLt; have e2 := d.isLt; have e3 := a.isLt; have e4 := b.isLt; have e5 := c.isLt
  have e6 := f.isLt; have e7 := x.isLt
  simp only [Low, RRR.bits, field_div]; omega

theorem ri_low (r : RI) : Low r.bits := by
  obtain ⟨pg, pn, d, a, imm, f, wa, x⟩ := r
  have h1 := toNat_bit pn
  have h2 := toNat_bit wa
  have e1 := pg.isLt; have e2 := d.isLt; have e3 := a.isLt; have e4 := imm.isLt
  have e6 := f.isLt; have e7 := x.isLt
  simp only [Low, RI.bits, field_div]; omega

theorem mf_low (r : MF) : Low r.bits := by
  obtain ⟨pg, pn, d, a, b, off, f, wa, wb, wd, x⟩ := r
  have h1 := toNat_bit pn
  have h2 := toNat_bit wa
  have h3 := toNat_bit wb
  have h4 := toNat_bit wd
  have e1 := pg.isLt; have e2 := d.isLt; have e3 := a.isLt; have e4 := b.isLt; have e5 := off.isLt
  have e6 := f.isLt; have e7 := x.isLt
  simp only [Low, MF.bits, field_div]; omega

theorem bf_low (r : BF) : Low r.bits := by
  obtain ⟨pg, pn, off, tpri, x⟩ := r
  have h1 := toNat_bit pn
  have e1 := pg.isLt; have e2 := off.isLt; have e3 := tpri.isLt; have e7 := x.isLt
  simp only [Low, BF.bits, field_div]; omega

theorem i32_low (r : I32) : Low r.bits := by
  obtain ⟨pg, pn, d, imm, x⟩ := r
  have h1 := toNat_bit pn
  have e1 := pg.isLt; have e2 := d.isLt; have e3 := imm.isLt; have e7 := x.isLt
  simp only [Low, I32.bits, field_div]; omega

theorem within_iff (n mask : Nat) : within n mask = true ↔ ∀ k, n.testBit k = true → mask.testBit k = true := by
  simp only [within, decide_eq_true_eq]
  constructor
  · intro h k hk
    have := congrArg (fun m => m.testBit k) h
    simp only [Nat.testBit_and, hk, Bool.true_and] at this
    exact this
  · intro h
    apply Nat.eq_of_testBit_eq
    intro k
    simp only [Nat.testBit_and]
    cases hk : n.testBit k
    · rfl
    · simp [h k hk]

theorem within_trans (n a b : Nat) (h : within n a = true) (hab : within a b = true) : within n b = true := by
  rw [within_iff] at *
  exact fun k hk => hab k (h k hk)

theorem word_within (opc b mask : Nat) (hb : b < 2 ^ 56) (ho : opc < 256) (h : within b mask = true)
    (hm : within 0xFF00000000000000 mask = true) : within (opc * 2 ^ 56 + b) mask = true := by
  rw [within_iff] at *
  intro k hk
  rw [Nat.mul_comm, Nat.testBit_two_pow_mul_add opc hb] at hk
  split at hk
  · exact h k hk
  · rename_i hlt
    apply hm
    rw [show (0xFF00000000000000 : Nat) = 2 ^ 56 * 0xFF from rfl, Nat.testBit_two_pow_mul]
    have h8 : k - 56 < 8 := by
      rcases Nat.lt_or_ge (k - 56) 8 with h | h
      · exact h
      · have : opc < 2 ^ (k - 56) := Nat.lt_of_lt_of_le ho (by
          calc 256 = 2 ^ 8 := rfl
            _ ≤ 2 ^ (k - 56) := Nat.pow_le_pow_right (by decide) h)
        rw [Nat.testBit_lt_two_pow this] at hk
        exact absurd hk (by decide)
    have : ∀ j < 8, (0xFF : Nat).testBit j = true := by decide
    simp only [decide_eq_true (show k ≥ 56 by omega), Bool.true_and]
    exact this _ h8

theorem within_or (n a b : Nat) (h : within n a = true) : within n (a ||| b) = true := by
  rw [within_iff] at *
  intro k hk
  simp [Nat.testBit_or, h k hk]

theorem within_foldl (n : Nat) (g : Opnd → Nat) (os : List Opnd) (a : Nat) (h : within n a = true) :
    within n (os.foldl (fun acc o => acc ||| g o) a) = true := by
  induction os generalizing a with
  | nil => exact h
  | cons o os ih => exact ih _ (within_or _ _ _ h)

/-- Every form uses the opcode's bits. -/
theorem header_within (f : Form) : within 0xFF00000000000000 f.mask = true :=
  within_foldl _ _ _ _ (within_or _ _ _ (within_or _ _ _ (within_or _ _ _ (by decide))))

/-- One opcode's decoding of a well-formed member. -/
theorem decode_member (i : Instr) (opc : Nat) (ms : List Instr) (hne : encode i = some (BitVec.ofNat 64 (opc * 2 ^ 56 + i.bodyBits)))
    (hopc : opc < 256) (hb : Low i.bodyBits) (hm : members opc (opc * 2 ^ 56 + i.bodyBits) = some ms)
    (hsub : within (formOf i).mask (opcodeMask opc ms) = true)
    (hfind : ms.find? xLegal = some i) (hw : within i.bodyBits (formOf i).mask = true) :
    decodeWord (wordOf i) = .ok i := by
  obtain ⟨hlt, h48⟩ := hb
  have hn : (BitVec.ofNat 64 (opc * 2 ^ 56 + i.bodyBits)).toNat = opc * 2 ^ 56 + i.bodyBits := by
    simp only [BitVec.toNat_ofNat]; omega
  have ho : field (opc * 2 ^ 56 + i.bodyBits) 63 56 = opc := by rw [field_div]; omega
  have hz : field (opc * 2 ^ 56 + i.bodyBits) 50 48 = 0 := by rw [field_div] at *; omega
  have hin := word_within opc i.bodyBits _ hlt hopc hw (header_within _)
  have hun := within_trans _ _ _ hin hsub
  simp only [decodeWord, wordOf, hne, Option.getD_some, hn, ho, hm, hz, hfind, hin, hun]
  simp

end Sys2Proof.Laws
end

