-- ==== Sys2Proof/Laws/PerInstr.lean ====
section
/-! SUPPORT. Statements made per instruction: the family RoundTrip, by which decoding gives back every encoded instruction. -/

set_option Elab.async false

namespace Sys2Proof.Laws

open Sys2Proof Machine

/-- Decoding the word of a well-formed instruction, or of an opcode that has no members, gives the instruction back. -/
def RoundTrip.Statement (i : Instr) : Prop :=
  (i.wellFormed = true ∨ ∃ w, i = .unassignedOpcode w ∧ members (field w.toNat 63 56) w.toNat = none) →
    decodeWord (wordOf i) = .ok i

theorem find_head {p : Instr → Bool} {a : Instr} {l : List Instr} (h : p a = true) : (a :: l).find? p = some a := by
  simp [h]

theorem find_tail {p : Instr → Bool} {a b : Instr} {l : List Instr} (h : p a = false) (h' : l.find? p = some b) :
    (a :: l).find? p = some b := by
  simp [h, h']

theorem wf_parts {i : Instr} (h : i.wellFormed = true) : xLegal i = true ∧ within i.bodyBits (formOf i).mask = true := by
  simp only [Instr.wellFormed, Bool.and_eq_true] at h
  exact ⟨h.1.2, h.2⟩

theorem event_trip {i : Instr} (h : opcodeOf i = none) (hne : ∀ w, i ≠ .unassignedOpcode w) : RoundTrip.Statement i := by
  rintro (hw | ⟨w, hw, _⟩)
  · simp [Instr.wellFormed, h] at hw
  · exact absurd hw (hne w)

theorem within_self (m : Nat) : within m m = true := by simp [within]

theorem addr_cases (am : Nat) : addrOps am = addrOps 0 ∨ addrOps am = addrOps 1 ∨ addrOps am = addrOps 2 ∨ addrOps am = [] := by
  match am with
  | 0 => exact .inl rfl
  | 1 => exact .inr (.inl rfl)
  | 2 => exact .inr (.inr (.inl rfl))
  | _ + 3 => exact .inr (.inr (.inr rfl))

theorem members_00 (n : Nat) : members 0x00 n = some [.nop (rrrOf n)] := rfl
theorem members_01 (n : Nat) : members 0x01 n = some [.bra (bfOf n)] := rfl
theorem members_02 (n : Nat) : members 0x02 n = some [.bruAny (bfOf n), .bruAll (bfOf n)] := rfl
theorem members_03 (n : Nat) : members 0x03 n = some [.brx (riOf n)] := rfl
theorem members_04 (n : Nat) : members 0x04 n = some [.call (bfOf n)] := rfl
theorem members_05 (n : Nat) : members 0x05 n = some [.callx (riOf n)] := rfl
theorem members_06 (n : Nat) : members 0x06 n = some [.ret (rrrOf n)] := rfl
theorem members_07 (n : Nat) : members 0x07 n = some [.exit (rrrOf n)] := rfl
theorem members_08 (n : Nat) : members 0x08 n = some [.wjoin (riOf n)] := rfl
theorem members_09 (n : Nat) : members 0x09 n = some [.yield (rrrOf n)] := rfl
theorem members_0A (n : Nat) : members 0x0A n = some [.prioImm (riOf n), .prioReg (riOf n)] := rfl
theorem members_0B (n : Nat) : members 0x0B n = some [.trap (i32Of n)] := rfl
theorem members_0C (n : Nat) : members 0x0C n = some [.bkpt (i32Of n)] := rfl
theorem members_0D (n : Nat) : members 0x0D n = some [.napImm (riOf n), .napReg (riOf n)] := rfl
theorem members_10 (n : Nat) : members 0x10 n = some [.sadd (rrrOf n)] := rfl
theorem members_11 (n : Nat) : members 0x11 n = some [.ssub (rrrOf n)] := rfl
theorem members_12 (n : Nat) : members 0x12 n = some [.smul (rrrOf n)] := rfl
theorem members_13 (n : Nat) : members 0x13 n = some [.smulh (rrrOf n)] := rfl
theorem members_14 (n : Nat) : members 0x14 n = some [.sand (rrrOf n)] := rfl
theorem members_15 (n : Nat) : members 0x15 n = some [.sor (rrrOf n)] := rfl
theorem members_16 (n : Nat) : members 0x16 n = some [.sxor (rrrOf n)] := rfl
theorem members_17 (n : Nat) : members 0x17 n = some [.sshl (rrrOf n), .sshr (rrrOf n), .ssra (rrrOf n)] := rfl
theorem members_18 (n : Nat) : members 0x18 n = some [.smin (rrrOf n), .smax (rrrOf n)] := rfl
theorem members_19 (n : Nat) : members 0x19 n = some [.saddi (riOf n)] := rfl
theorem members_1A (n : Nat) : members 0x1A n = some [.sldi (i32Of n)] := rfl
theorem members_1B (n : Nat) : members 0x1B n = some [.sldhi (i32Of n)] := rfl
theorem members_1C (n : Nat) : members 0x1C n = some [.scmp (rrrOf n)] := rfl
theorem members_1D (n : Nat) : members 0x1D n = some [.ssel (rrrOf n)] := rfl
theorem members_1E (n : Nat) : members 0x1E n = some [.sget (rrrOf n), .sgetFirst (rrrOf n)] := rfl
theorem members_1F (n : Nat) : members 0x1F n = some [.vbc (rrrOf n)] := rfl
theorem members_20 (n : Nat) : members 0x20 n = some [.iadd (rrrOf n)] := rfl
theorem members_21 (n : Nat) : members 0x21 n = some [.isub (rrrOf n)] := rfl
theorem members_22 (n : Nat) : members 0x22 n = some [.imul (rrrOf n)] := rfl
theorem members_23 (n : Nat) : members 0x23 n = some [.imulh (rrrOf n)] := rfl
theorem members_24 (n : Nat) : members 0x24 n = some [.imad (rrrOf n)] := rfl
theorem members_25 (n : Nat) : members 0x25 n = some [.iand (rrrOf n)] := rfl
theorem members_26 (n : Nat) : members 0x26 n = some [.ior (rrrOf n)] := rfl
theorem members_27 (n : Nat) : members 0x27 n = some [.ixor (rrrOf n)] := rfl
theorem members_28 (n : Nat) : members 0x28 n = some [.ishl (rrrOf n), .ishr (rrrOf n), .isra (rrrOf n)] := rfl
theorem members_29 (n : Nat) : members 0x29 n = some [.imin (rrrOf n), .imax (rrrOf n)] := rfl
theorem members_2A (n : Nat) : members 0x2A n = some [.icmp (rrrOf n)] := rfl
theorem members_2B (n : Nat) : members 0x2B n = some [.isel (rrrOf n), .iselM (rrrOf n)] := rfl
theorem members_2C (n : Nat) : members 0x2C n = some [.ipopc (rrrOf n), .iclz (rrrOf n)] := rfl
theorem members_2D (n : Nat) : members 0x2D n = some [.ibfe (rrrOf n)] := rfl
theorem members_2E (n : Nat) : members 0x2E n = some [.ibfi (rrrOf n)] := rfl
theorem members_2F (n : Nat) : members 0x2F n = some [.lea (rrrOf n)] := rfl
theorem members_30 (n : Nat) : members 0x30 n = some [.iaddi (riOf n)] := rfl
theorem members_31 (n : Nat) : members 0x31 n = some [.iandi (riOf n), .iori (riOf n), .ixori (riOf n)] := rfl
theorem members_32 (n : Nat) : members 0x32 n = some [.ishli (riOf n), .ishri (riOf n)] := rfl
theorem members_33 (n : Nat) : members 0x33 n = some [.icmpi (riOf n)] := rfl
theorem members_34 (n : Nat) : members 0x34 n = some [.icmpm (rrrOf n)] := rfl
theorem members_35 (n : Nat) : members 0x35 n = some [.mov (rrrOf n)] := rfl
theorem members_36 (n : Nat) : members 0x36 n = some [.movi (i32Of n), .moviHi (i32Of n)] := rfl
theorem members_40 (n : Nat) : members 0x40 n = some [.fadd (rrrOf n)] := rfl
theorem members_41 (n : Nat) : members 0x41 n = some [.fsub (rrrOf n)] := rfl
theorem members_42 (n : Nat) : members 0x42 n = some [.fmul (rrrOf n)] := rfl
theorem members_43 (n : Nat) : members 0x43 n = some [.ffma (rrrOf n)] := rfl
theorem members_44 (n : Nat) : members 0x44 n = some [.fmin (rrrOf n)] := rfl
theorem members_45 (n : Nat) : members 0x45 n = some [.fmax (rrrOf n)] := rfl
theorem members_46 (n : Nat) : members 0x46 n = some [.fabsn (rrrOf n)] := rfl
theorem members_47 (n : Nat) : members 0x47 n = some [.fcmp (rrrOf n)] := rfl
theorem members_48 (n : Nat) : members 0x48 n = some [.fclass (rrrOf n)] := rfl
theorem members_49 (n : Nat) : members 0x49 n = some [.fdiv (rrrOf n)] := rfl
theorem members_4A (n : Nat) : members 0x4A n = some [.fsqrt (rrrOf n)] := rfl
theorem members_4B (n : Nat) : members 0x4B n = some [.frcp (rrrOf n)] := rfl
theorem members_4C (n : Nat) : members 0x4C n = some [.frsq (rrrOf n)] := rfl
theorem members_4D (n : Nat) : members 0x4D n = some [.fexp2 (rrrOf n)] := rfl
theorem members_4E (n : Nat) : members 0x4E n = some [.flog2 (rrrOf n)] := rfl
theorem members_4F (n : Nat) : members 0x4F n = some [.fsum (rrrOf n)] := rfl
theorem members_50 (n : Nat) : members 0x50 n = some [.faddi (riOf n)] := rfl
theorem members_51 (n : Nat) : members 0x51 n = some [.fmuli (riOf n)] := rfl
theorem members_52 (n : Nat) : members 0x52 n = some [.ffmai (riOf n)] := rfl
theorem members_53 (n : Nat) : members 0x53 n = some [.fcvt (rrrOf n)] := rfl
theorem members_54 (n : Nat) : members 0x54 n = some [.ftoi (rrrOf n)] := rfl
theorem members_55 (n : Nat) : members 0x55 n = some [.itof (rrrOf n)] := rfl
theorem members_56 (n : Nat) : members 0x56 n = some [.fpack (rrrOf n)] := rfl
theorem members_57 (n : Nat) : members 0x57 n = some [.fbscl (rrrOf n)] := rfl
theorem members_58 (n : Nat) : members 0x58 n = some [.fdot (rrrOf n)] := rfl
theorem members_59 (n : Nat) : members 0x59 n = some [.frnd (rrrOf n)] := rfl
theorem members_5A (n : Nat) : members 0x5A n = some [.fscale (rrrOf n)] := rfl
theorem members_60 (n : Nat) : members 0x60 n = some [.shfl (rrrOf n)] := rfl
theorem members_61 (n : Nat) : members 0x61 n = some [.shflx (rrrOf n)] := rfl
theorem members_62 (n : Nat) : members 0x62 n = some [.shflud (rrrOf n)] := rfl
theorem members_63 (n : Nat) : members 0x63 n = some [.vote (rrrOf n)] := rfl
theorem members_64 (n : Nat) : members 0x64 n = some [.matchEq (rrrOf n)] := rfl
theorem members_65 (n : Nat) : members 0x65 n = some [.mrank (rrrOf n)] := rfl
theorem members_66 (n : Nat) : members 0x66 n = some [.mlead (rrrOf n)] := rfl
theorem members_67 (n : Nat) : members 0x67 n = some [.elect (rrrOf n)] := rfl
theorem members_68 (n : Nat) : members 0x68 n = some [.plog (rrrOf n)] := rfl
theorem members_69 (n : Nat) : members 0x69 n = some [.pmov (rrrOf n), .pmovSet (rrrOf n)] := rfl
theorem members_6A (n : Nat) : members 0x6A n = some [.pbal (rrrOf n)] := rfl
theorem members_6B (n : Nat) : members 0x6B n = some [.redux (rrrOf n)] := rfl
theorem members_6C (n : Nat) : members 0x6C n = some [.fredx (rrrOf n)] := rfl
theorem members_6D (n : Nat) : members 0x6D n = some [.scan (rrrOf n), .scanFadd (rrrOf n)] := rfl
theorem members_70 (n : Nat) : members 0x70 n = some [.ld (mfOf n)] := rfl
theorem members_71 (n : Nat) : members 0x71 n = some [.ld2 (mfOf n)] := rfl
theorem members_72 (n : Nat) : members 0x72 n = some [.ldp (mfOf n)] := rfl
theorem members_73 (n : Nat) : members 0x73 n = some [.lds (mfOf n)] := rfl
theorem members_74 (n : Nat) : members 0x74 n = some [.ldv (mfOf n)] := rfl
theorem members_75 (n : Nat) : members 0x75 n = some [.ldu (mfOf n)] := rfl
theorem members_76 (n : Nat) : members 0x76 n = some [.ldacq (mfOf n)] := rfl
theorem members_77 (n : Nat) : members 0x77 n = some [.ldpv (mfOf n)] := rfl
theorem members_78 (n : Nat) : members 0x78 n = some [.pfetch (mfOf n)] := rfl
theorem members_79 (n : Nat) : members 0x79 n = some [.ldg (mfOf n)] := rfl
theorem members_80 (n : Nat) : members 0x80 n = some [.st (mfOf n)] := rfl
theorem members_81 (n : Nat) : members 0x81 n = some [.st2 (mfOf n)] := rfl
theorem members_82 (n : Nat) : members 0x82 n = some [.stp (mfOf n)] := rfl
theorem members_83 (n : Nat) : members 0x83 n = some [.sts (mfOf n)] := rfl
theorem members_84 (n : Nat) : members 0x84 n = some [.stv (mfOf n)] := rfl
theorem members_85 (n : Nat) : members 0x85 n = some [.stu (mfOf n)] := rfl
theorem members_86 (n : Nat) : members 0x86 n = some [.strel (mfOf n)] := rfl
theorem members_87 (n : Nat) : members 0x87 n = some [.stpv (mfOf n)] := rfl
theorem members_88 (n : Nat) : members 0x88 n = some [.mst (mfOf n)] := rfl
theorem members_89 (n : Nat) : members 0x89 n = some [.msto (mfOf n)] := rfl
theorem members_8A (n : Nat) : members 0x8A n = some [.stsc (mfOf n)] := rfl
theorem members_90 (n : Nat) : members 0x90 n = some [.atom (mfOf n)] := rfl
theorem members_91 (n : Nat) : members 0x91 n = some [.acas (mfOf n)] := rfl
theorem members_92 (n : Nat) : members 0x92 n = some [.atoms (mfOf n)] := rfl
theorem members_93 (n : Nat) : members 0x93 n = some [.fatom (mfOf n)] := rfl
theorem members_94 (n : Nat) : members 0x94 n = some [.fence (rrrOf n)] := rfl
theorem members_95 (n : Nat) : members 0x95 n = some [.atomv (mfOf n)] := rfl
theorem members_A0 (n : Nat) : members 0xA0 n = some [.jpost (rrrOf n)] := rfl
theorem members_A1 (n : Nat) : members 0xA1 n = some [.chsetRing (rrrOf n), .chsetChain (rrrOf n)] := rfl
theorem members_A2 (n : Nat) : members 0xA2 n = some [.twait (riOf n)] := rfl
theorem members_A3 (n : Nat) : members 0xA3 n = some [.sqwait (riOf n)] := rfl
theorem members_A4 (n : Nat) : members 0xA4 n = some [.presq (mfOf n)] := rfl
theorem members_A5 (n : Nat) : members 0xA5 n = some [.sinv (mfOf n), .sinvSet (mfOf n)] := rfl
theorem members_A6 (n : Nat) : members 0xA6 n = some [.tdesc (rrrOf n)] := rfl
theorem members_A7 (n : Nat) : members 0xA7 n = some [.tmod (rrrOf n)] := rfl
theorem members_A8 (n : Nat) : members 0xA8 n = some [.jcancel (rrrOf n)] := rfl
theorem members_A9 (n : Nat) : members 0xA9 n = some [.qpush (rrrOf n)] := rfl
theorem members_B0 (n : Nat) : members 0xB0 n = some [.mma (rrrOf n), .mmaCo (rrrOf n)] := rfl
theorem members_B1 (n : Nat) : members 0xB1 n = some [.mmas (rrrOf n), .mmasCo (rrrOf n)] := rfl
theorem members_B2 (n : Nat) : members 0xB2 n = some [.azero (rrrOf n)] := rfl
theorem members_B3 (n : Nat) : members 0xB3 n = some [.arel (rrrOf n)] := rfl
theorem members_B4 (n : Nat) : members 0xB4 n = some [.asto (rrrOf n)] := rfl
theorem members_B5 (n : Nat) : members 0xB5 n = some [.aldr (rrrOf n)] := rfl
theorem members_B6 (n : Nat) : members 0xB6 n = some [.amovv (rrrOf n)] := rfl
theorem members_B7 (n : Nat) : members 0xB7 n = some [.aqry (rrrOf n)] := rfl
theorem members_C0 (n : Nat) : members 0xC0 n = some [.bsync (riOf n)] := rfl
theorem members_C1 (n : Nat) : members 0xC1 n = some [.barr (riOf n)] := rfl
theorem members_C2 (n : Nat) : members 0xC2 n = some [.bcast (rrrOf n)] := rfl
theorem members_C3 (n : Nat) : members 0xC3 n = some [.brecv (rrrOf n)] := rfl
theorem members_C4 (n : Nat) : members 0xC4 n = some [.msend (rrrOf n)] := rfl
theorem members_C5 (n : Nat) : members 0xC5 n = some [.mpost (rrrOf n)] := rfl
theorem members_C6 (n : Nat) : members 0xC6 n = some [.mtest (rrrOf n)] := rfl
theorem members_C7 (n : Nat) : members 0xC7 n = some [.mprobe (rrrOf n)] := rfl
theorem members_C8 (n : Nat) : members 0xC8 n = some [.mcancel (rrrOf n)] := rfl
theorem members_C9 (n : Nat) : members 0xC9 n = some [.asend (rrrOf n)] := rfl
theorem members_CA (n : Nat) : members 0xCA n = some [.gen (bfOf n)] := rfl
theorem members_CB (n : Nat) : members 0xCB n = some [.yld (rrrOf n)] := rfl
theorem members_CC (n : Nat) : members 0xCC n = some [.gdone (rrrOf n)] := rfl
theorem members_CD (n : Nat) : members 0xCD n = some [.gtake (rrrOf n), .gtakeLn (rrrOf n)] := rfl
theorem members_CE (n : Nat) : members 0xCE n = some [.gnext (rrrOf n)] := rfl
theorem members_CF (n : Nat) : members 0xCF n = some [.launch (rrrOf n)] := rfl
theorem members_D0 (n : Nat) : members 0xD0 n = some [.fdrw (rrrOf n)] := rfl
theorem members_D1 (n : Nat) : members 0xD1 n = some [.fdrr (rrrOf n)] := rfl
theorem members_D2 (n : Nat) : members 0xD2 n = some [.csrr (riOf n)] := rfl
theorem members_D3 (n : Nat) : members 0xD3 n = some [.csrwCtx (riOf n), .csrwFairt (riOf n), .csrwFairq (riOf n), .csrwWdog (riOf n), .csrwGencfg (riOf n), .csrwFres (riOf n), .csrw (riOf n)] := rfl
theorem members_D4 (n : Nat) : members 0xD4 n = some [.sreg (riOf n)] := rfl
theorem members_D5 (n : Nat) : members 0xD5 n = some [.rgrow (riOf n)] := rfl
theorem members_D6 (n : Nat) : members 0xD6 n = some [.rshrk (riOf n)] := rfl
theorem members_D7 (n : Nat) : members 0xD7 n = some [.pdone (rrrOf n)] := rfl
theorem members_D8 (n : Nat) : members 0xD8 n = some [.eret (rrrOf n), .eretNext (rrrOf n)] := rfl
theorem members_D9 (n : Nat) : members 0xD9 n = some [.fwcallCapability (i32Of n), .fwcallJournal (i32Of n), .fwcallVersion (i32Of n)] := rfl
theorem members_F0 (n : Nat) : members 0xF0 n = some [.hadd (rrrOf n)] := rfl
theorem members_F1 (n : Nat) : members 0xF1 n = some [.hmul (rrrOf n)] := rfl
theorem members_F2 (n : Nat) : members 0xF2 n = some [.hfma (rrrOf n)] := rfl
theorem members_F3 (n : Nat) : members 0xF3 n = some [.bhadd (rrrOf n)] := rfl
theorem members_F4 (n : Nat) : members 0xF4 n = some [.bhmul (rrrOf n)] := rfl
theorem members_F5 (n : Nat) : members 0xF5 n = some [.bhfma (rrrOf n)] := rfl
theorem members_F6 (n : Nat) : members 0xF6 n = some [.barw (rrrOf n)] := rfl
theorem members_F7 (n : Nat) : members 0xF7 n = some [.ldtex (rrrOf n)] := rfl

theorem RoundTrip.nop (r : RRR) : RoundTrip.Statement (.nop r) := by
  rintro (h | ⟨w, hw, _⟩)
  · obtain ⟨hx, hm⟩ := wf_parts h
    exact decode_member (.nop r) 0x00 [Instr.nop r] rfl (by decide) (rrr_low r)
      ((members_00 _).trans (congrArg (fun r => some [Instr.nop r]) (rrrOf_bits 0x00 r))) (by
        rw [show (formOf (Instr.nop r)).mask = (formOf (Instr.nop ⟨0, false, 0, 0, 0, 0, 0, false, false, false, 0⟩)).mask from rfl,
          show opcodeMask 0x00 [Instr.nop r] = opcodeMask 0x00 [Instr.nop ⟨0, false, 0, 0, 0, 0, 0, false, false, false, 0⟩] from rfl]; decide +kernel) (find_head hx) hm
  · cases hw

theorem RoundTrip.bra (r : BF) : RoundTrip.Statement (.bra r) := by
  rintro (h | ⟨w, hw, _⟩)
  · obtain ⟨hx, hm⟩ := wf_parts h
    exact decode_member (.bra r) 0x01 [Instr.bra r] rfl (by decide) (bf_low r)
      ((members_01 _).trans (congrArg (fun r => some [Instr.bra r]) (bfOf_bits 0x01 r))) (by
        rw [show (formOf (Instr.bra r)).mask = (formOf (Instr.bra ⟨0, false, 0, 0, 0⟩)).mask from rfl,
          show opcodeMask 0x01 [Instr.bra r] = opcodeMask 0x01 [Instr.bra ⟨0, false, 0, 0, 0⟩] from rfl]; decide +kernel) (find_head hx) hm
  · cases hw

theorem RoundTrip.bruAny (r : BF) : RoundTrip.Statement (.bruAny r) := by
  rintro (h | ⟨w, hw, _⟩)
  · obtain ⟨hx, hm⟩ := wf_parts h
    exact decode_member (.bruAny r) 0x02 [Instr.bruAny r, Instr.bruAll r] rfl (by decide) (bf_low r)
      ((members_02 _).trans (congrArg (fun r => some [Instr.bruAny r, Instr.bruAll r]) (bfOf_bits 0x02 r))) (by
        rw [show (formOf (Instr.bruAny r)).mask = (formOf (Instr.bruAny ⟨0, false, 0, 0, 0⟩)).mask from rfl,
          show opcodeMask 0x02 [Instr.bruAny r, Instr.bruAll r] = opcodeMask 0x02 [Instr.bruAny ⟨0, false, 0, 0, 0⟩, Instr.bruAll ⟨0, false, 0, 0, 0⟩] from rfl]; decide +kernel) (find_head hx) hm
  · cases hw

theorem RoundTrip.bruAll (r : BF) : RoundTrip.Statement (.bruAll r) := by
  rintro (h | ⟨w, hw, _⟩)
  · obtain ⟨hx, hm⟩ := wf_parts h
    exact decode_member (.bruAll r) 0x02 [Instr.bruAny r, Instr.bruAll r] rfl (by decide) (bf_low r)
      ((members_02 _).trans (congrArg (fun r => some [Instr.bruAny r, Instr.bruAll r]) (bfOf_bits 0x02 r))) (by
        rw [show (formOf (Instr.bruAll r)).mask = (formOf (Instr.bruAll ⟨0, false, 0, 0, 0⟩)).mask from rfl,
          show opcodeMask 0x02 [Instr.bruAny r, Instr.bruAll r] = opcodeMask 0x02 [Instr.bruAny ⟨0, false, 0, 0, 0⟩, Instr.bruAll ⟨0, false, 0, 0, 0⟩] from rfl]; decide +kernel) (find_tail (by simp [xLegal] at hx ⊢; omega) (find_head hx)) hm
  · cases hw

theorem RoundTrip.brx (r : RI) : RoundTrip.Statement (.brx r) := by
  rintro (h | ⟨w, hw, _⟩)
  · obtain ⟨hx, hm⟩ := wf_parts h
    exact decode_member (.brx r) 0x03 [Instr.brx r] rfl (by decide) (ri_low r)
      ((members_03 _).trans (congrArg (fun r => some [Instr.brx r]) (riOf_bits 0x03 r))) (by
        rw [show (formOf (Instr.brx r)).mask = (formOf (Instr.brx ⟨0, false, 0, 0, 0, 0, false, 0⟩)).mask from rfl,
          show opcodeMask 0x03 [Instr.brx r] = opcodeMask 0x03 [Instr.brx ⟨0, false, 0, 0, 0, 0, false, 0⟩] from rfl]; decide +kernel) (find_head hx) hm
  · cases hw

theorem RoundTrip.call (r : BF) : RoundTrip.Statement (.call r) := by
  rintro (h | ⟨w, hw, _⟩)
  · obtain ⟨hx, hm⟩ := wf_parts h
    exact decode_member (.call r) 0x04 [Instr.call r] rfl (by decide) (bf_low r)
      ((members_04 _).trans (congrArg (fun r => some [Instr.call r]) (bfOf_bits 0x04 r))) (by
        rw [show (formOf (Instr.call r)).mask = (formOf (Instr.call ⟨0, false, 0, 0, 0⟩)).mask from rfl,
          show opcodeMask 0x04 [Instr.call r] = opcodeMask 0x04 [Instr.call ⟨0, false, 0, 0, 0⟩] from rfl]; decide +kernel) (find_head hx) hm
  · cases hw

theorem RoundTrip.callx (r : RI) : RoundTrip.Statement (.callx r) := by
  rintro (h | ⟨w, hw, _⟩)
  · obtain ⟨hx, hm⟩ := wf_parts h
    exact decode_member (.callx r) 0x05 [Instr.callx r] rfl (by decide) (ri_low r)
      ((members_05 _).trans (congrArg (fun r => some [Instr.callx r]) (riOf_bits 0x05 r))) (by
        rw [show (formOf (Instr.callx r)).mask = (formOf (Instr.callx ⟨0, false, 0, 0, 0, 0, false, 0⟩)).mask from rfl,
          show opcodeMask 0x05 [Instr.callx r] = opcodeMask 0x05 [Instr.callx ⟨0, false, 0, 0, 0, 0, false, 0⟩] from rfl]; decide +kernel) (find_head hx) hm
  · cases hw

theorem RoundTrip.ret (r : RRR) : RoundTrip.Statement (.ret r) := by
  rintro (h | ⟨w, hw, _⟩)
  · obtain ⟨hx, hm⟩ := wf_parts h
    exact decode_member (.ret r) 0x06 [Instr.ret r] rfl (by decide) (rrr_low r)
      ((members_06 _).trans (congrArg (fun r => some [Instr.ret r]) (rrrOf_bits 0x06 r))) (by
        rw [show (formOf (Instr.ret r)).mask = (formOf (Instr.ret ⟨0, false, 0, 0, 0, 0, 0, false, false, false, 0⟩)).mask from rfl,
          show opcodeMask 0x06 [Instr.ret r] = opcodeMask 0x06 [Instr.ret ⟨0, false, 0, 0, 0, 0, 0, false, false, false, 0⟩] from rfl]; decide +kernel) (find_head hx) hm
  · cases hw

theorem RoundTrip.exit (r : RRR) : RoundTrip.Statement (.exit r) := by
  rintro (h | ⟨w, hw, _⟩)
  · obtain ⟨hx, hm⟩ := wf_parts h
    exact decode_member (.exit r) 0x07 [Instr.exit r] rfl (by decide) (rrr_low r)
      ((members_07 _).trans (congrArg (fun r => some [Instr.exit r]) (rrrOf_bits 0x07 r))) (by
        rw [show (formOf (Instr.exit r)).mask = (formOf (Instr.exit ⟨0, false, 0, 0, 0, 0, 0, false, false, false, 0⟩)).mask from rfl,
          show opcodeMask 0x07 [Instr.exit r] = opcodeMask 0x07 [Instr.exit ⟨0, false, 0, 0, 0, 0, 0, false, false, false, 0⟩] from rfl]; decide +kernel) (find_head hx) hm
  · cases hw

theorem RoundTrip.wjoin (r : RI) : RoundTrip.Statement (.wjoin r) := by
  rintro (h | ⟨w, hw, _⟩)
  · obtain ⟨hx, hm⟩ := wf_parts h
    exact decode_member (.wjoin r) 0x08 [Instr.wjoin r] rfl (by decide) (ri_low r)
      ((members_08 _).trans (congrArg (fun r => some [Instr.wjoin r]) (riOf_bits 0x08 r))) (by
        rw [show (formOf (Instr.wjoin r)).mask = (formOf (Instr.wjoin ⟨0, false, 0, 0, 0, 0, false, 0⟩)).mask from rfl,
          show opcodeMask 0x08 [Instr.wjoin r] = opcodeMask 0x08 [Instr.wjoin ⟨0, false, 0, 0, 0, 0, false, 0⟩] from rfl]; decide +kernel) (find_head hx) hm
  · cases hw

theorem RoundTrip.yield (r : RRR) : RoundTrip.Statement (.yield r) := by
  rintro (h | ⟨w, hw, _⟩)
  · obtain ⟨hx, hm⟩ := wf_parts h
    exact decode_member (.yield r) 0x09 [Instr.yield r] rfl (by decide) (rrr_low r)
      ((members_09 _).trans (congrArg (fun r => some [Instr.yield r]) (rrrOf_bits 0x09 r))) (by
        rw [show (formOf (Instr.yield r)).mask = (formOf (Instr.yield ⟨0, false, 0, 0, 0, 0, 0, false, false, false, 0⟩)).mask from rfl,
          show opcodeMask 0x09 [Instr.yield r] = opcodeMask 0x09 [Instr.yield ⟨0, false, 0, 0, 0, 0, 0, false, false, false, 0⟩] from rfl]; decide +kernel) (find_head hx) hm
  · cases hw

theorem RoundTrip.prioImm (r : RI) : RoundTrip.Statement (.prioImm r) := by
  rintro (h | ⟨w, hw, _⟩)
  · obtain ⟨hx, hm⟩ := wf_parts h
    exact decode_member (.prioImm r) 0x0A [Instr.prioImm r, Instr.prioReg r] rfl (by decide) (ri_low r)
      ((members_0A _).trans (congrArg (fun r => some [Instr.prioImm r, Instr.prioReg r]) (riOf_bits 0x0A r))) (by
        rw [show (formOf (Instr.prioImm r)).mask = (formOf (Instr.prioImm ⟨0, false, 0, 0, 0, 0, false, 0⟩)).mask from rfl,
          show opcodeMask 0x0A [Instr.prioImm r, Instr.prioReg r] = 0xFFF800FF00FF09FF from rfl]; decide +kernel) (find_head hx) hm
  · cases hw

theorem RoundTrip.prioReg (r : RI) : RoundTrip.Statement (.prioReg r) := by
  rintro (h | ⟨w, hw, _⟩)
  · obtain ⟨hx, hm⟩ := wf_parts h
    exact decode_member (.prioReg r) 0x0A [Instr.prioImm r, Instr.prioReg r] rfl (by decide) (ri_low r)
      ((members_0A _).trans (congrArg (fun r => some [Instr.prioImm r, Instr.prioReg r]) (riOf_bits 0x0A r))) (by
        rw [show (formOf (Instr.prioReg r)).mask = (formOf (Instr.prioReg ⟨0, false, 0, 0, 0, 0, false, 0⟩)).mask from rfl,
          show opcodeMask 0x0A [Instr.prioImm r, Instr.prioReg r] = 0xFFF800FF00FF09FF from rfl]; decide +kernel) (find_tail (by simp [xLegal] at hx ⊢; omega) (find_head hx)) hm
  · cases hw

theorem RoundTrip.trap (r : I32) : RoundTrip.Statement (.trap r) := by
  rintro (h | ⟨w, hw, _⟩)
  · obtain ⟨hx, hm⟩ := wf_parts h
    exact decode_member (.trap r) 0x0B [Instr.trap r] rfl (by decide) (i32_low r)
      ((members_0B _).trans (congrArg (fun r => some [Instr.trap r]) (i32Of_bits 0x0B r))) (by
        rw [show (formOf (Instr.trap r)).mask = (formOf (Instr.trap ⟨0, false, 0, 0, 0⟩)).mask from rfl,
          show opcodeMask 0x0B [Instr.trap r] = opcodeMask 0x0B [Instr.trap ⟨0, false, 0, 0, 0⟩] from rfl]; decide +kernel) (find_head hx) hm
  · cases hw

theorem RoundTrip.bkpt (r : I32) : RoundTrip.Statement (.bkpt r) := by
  rintro (h | ⟨w, hw, _⟩)
  · obtain ⟨hx, hm⟩ := wf_parts h
    exact decode_member (.bkpt r) 0x0C [Instr.bkpt r] rfl (by decide) (i32_low r)
      ((members_0C _).trans (congrArg (fun r => some [Instr.bkpt r]) (i32Of_bits 0x0C r))) (by
        rw [show (formOf (Instr.bkpt r)).mask = (formOf (Instr.bkpt ⟨0, false, 0, 0, 0⟩)).mask from rfl,
          show opcodeMask 0x0C [Instr.bkpt r] = opcodeMask 0x0C [Instr.bkpt ⟨0, false, 0, 0, 0⟩] from rfl]; decide +kernel) (find_head hx) hm
  · cases hw

theorem RoundTrip.napImm (r : RI) : RoundTrip.Statement (.napImm r) := by
  rintro (h | ⟨w, hw, _⟩)
  · obtain ⟨hx, hm⟩ := wf_parts h
    exact decode_member (.napImm r) 0x0D [Instr.napImm r, Instr.napReg r] rfl (by decide) (ri_low r)
      ((members_0D _).trans (congrArg (fun r => some [Instr.napImm r, Instr.napReg r]) (riOf_bits 0x0D r))) (by
        rw [show (formOf (Instr.napImm r)).mask = (formOf (Instr.napImm ⟨0, false, 0, 0, 0, 0, false, 0⟩)).mask from rfl,
          show opcodeMask 0x0D [Instr.napImm r, Instr.napReg r] = 0xFFF800FFFFFF09FF from rfl]; decide +kernel) (find_head hx) hm
  · cases hw

theorem RoundTrip.napReg (r : RI) : RoundTrip.Statement (.napReg r) := by
  rintro (h | ⟨w, hw, _⟩)
  · obtain ⟨hx, hm⟩ := wf_parts h
    exact decode_member (.napReg r) 0x0D [Instr.napImm r, Instr.napReg r] rfl (by decide) (ri_low r)
      ((members_0D _).trans (congrArg (fun r => some [Instr.napImm r, Instr.napReg r]) (riOf_bits 0x0D r))) (by
        rw [show (formOf (Instr.napReg r)).mask = (formOf (Instr.napReg ⟨0, false, 0, 0, 0, 0, false, 0⟩)).mask from rfl,
          show opcodeMask 0x0D [Instr.napImm r, Instr.napReg r] = 0xFFF800FFFFFF09FF from rfl]; decide +kernel) (find_tail (by simp [xLegal] at hx ⊢; omega) (find_head hx)) hm
  · cases hw

theorem RoundTrip.sadd (r : RRR) : RoundTrip.Statement (.sadd r) := by
  rintro (h | ⟨w, hw, _⟩)
  · obtain ⟨hx, hm⟩ := wf_parts h
    exact decode_member (.sadd r) 0x10 [Instr.sadd r] rfl (by decide) (rrr_low r)
      ((members_10 _).trans (congrArg (fun r => some [Instr.sadd r]) (rrrOf_bits 0x10 r))) (by
        rw [show (formOf (Instr.sadd r)).mask = (formOf (Instr.sadd ⟨0, false, 0, 0, 0, 0, 0, false, false, false, 0⟩)).mask from rfl,
          show opcodeMask 0x10 [Instr.sadd r] = opcodeMask 0x10 [Instr.sadd ⟨0, false, 0, 0, 0, 0, 0, false, false, false, 0⟩] from rfl]; decide +kernel) (find_head hx) hm
  · cases hw

theorem RoundTrip.ssub (r : RRR) : RoundTrip.Statement (.ssub r) := by
  rintro (h | ⟨w, hw, _⟩)
  · obtain ⟨hx, hm⟩ := wf_parts h
    exact decode_member (.ssub r) 0x11 [Instr.ssub r] rfl (by decide) (rrr_low r)
      ((members_11 _).trans (congrArg (fun r => some [Instr.ssub r]) (rrrOf_bits 0x11 r))) (by
        rw [show (formOf (Instr.ssub r)).mask = (formOf (Instr.ssub ⟨0, false, 0, 0, 0, 0, 0, false, false, false, 0⟩)).mask from rfl,
          show opcodeMask 0x11 [Instr.ssub r] = opcodeMask 0x11 [Instr.ssub ⟨0, false, 0, 0, 0, 0, 0, false, false, false, 0⟩] from rfl]; decide +kernel) (find_head hx) hm
  · cases hw

theorem RoundTrip.smul (r : RRR) : RoundTrip.Statement (.smul r) := by
  rintro (h | ⟨w, hw, _⟩)
  · obtain ⟨hx, hm⟩ := wf_parts h
    exact decode_member (.smul r) 0x12 [Instr.smul r] rfl (by decide) (rrr_low r)
      ((members_12 _).trans (congrArg (fun r => some [Instr.smul r]) (rrrOf_bits 0x12 r))) (by
        rw [show (formOf (Instr.smul r)).mask = (formOf (Instr.smul ⟨0, false, 0, 0, 0, 0, 0, false, false, false, 0⟩)).mask from rfl,
          show opcodeMask 0x12 [Instr.smul r] = opcodeMask 0x12 [Instr.smul ⟨0, false, 0, 0, 0, 0, 0, false, false, false, 0⟩] from rfl]; decide +kernel) (find_head hx) hm
  · cases hw

theorem RoundTrip.smulh (r : RRR) : RoundTrip.Statement (.smulh r) := by
  rintro (h | ⟨w, hw, _⟩)
  · obtain ⟨hx, hm⟩ := wf_parts h
    exact decode_member (.smulh r) 0x13 [Instr.smulh r] rfl (by decide) (rrr_low r)
      ((members_13 _).trans (congrArg (fun r => some [Instr.smulh r]) (rrrOf_bits 0x13 r))) (by
        rw [show (formOf (Instr.smulh r)).mask = (formOf (Instr.smulh ⟨0, false, 0, 0, 0, 0, 0, false, false, false, 0⟩)).mask from rfl,
          show opcodeMask 0x13 [Instr.smulh r] = opcodeMask 0x13 [Instr.smulh ⟨0, false, 0, 0, 0, 0, 0, false, false, false, 0⟩] from rfl]; decide +kernel) (find_head hx) hm
  · cases hw

theorem RoundTrip.sand (r : RRR) : RoundTrip.Statement (.sand r) := by
  rintro (h | ⟨w, hw, _⟩)
  · obtain ⟨hx, hm⟩ := wf_parts h
    exact decode_member (.sand r) 0x14 [Instr.sand r] rfl (by decide) (rrr_low r)
      ((members_14 _).trans (congrArg (fun r => some [Instr.sand r]) (rrrOf_bits 0x14 r))) (by
        rw [show (formOf (Instr.sand r)).mask = (formOf (Instr.sand ⟨0, false, 0, 0, 0, 0, 0, false, false, false, 0⟩)).mask from rfl,
          show opcodeMask 0x14 [Instr.sand r] = opcodeMask 0x14 [Instr.sand ⟨0, false, 0, 0, 0, 0, 0, false, false, false, 0⟩] from rfl]; decide +kernel) (find_head hx) hm
  · cases hw

theorem RoundTrip.sor (r : RRR) : RoundTrip.Statement (.sor r) := by
  rintro (h | ⟨w, hw, _⟩)
  · obtain ⟨hx, hm⟩ := wf_parts h
    exact decode_member (.sor r) 0x15 [Instr.sor r] rfl (by decide) (rrr_low r)
      ((members_15 _).trans (congrArg (fun r => some [Instr.sor r]) (rrrOf_bits 0x15 r))) (by
        rw [show (formOf (Instr.sor r)).mask = (formOf (Instr.sor ⟨0, false, 0, 0, 0, 0, 0, false, false, false, 0⟩)).mask from rfl,
          show opcodeMask 0x15 [Instr.sor r] = opcodeMask 0x15 [Instr.sor ⟨0, false, 0, 0, 0, 0, 0, false, false, false, 0⟩] from rfl]; decide +kernel) (find_head hx) hm
  · cases hw

theorem RoundTrip.sxor (r : RRR) : RoundTrip.Statement (.sxor r) := by
  rintro (h | ⟨w, hw, _⟩)
  · obtain ⟨hx, hm⟩ := wf_parts h
    exact decode_member (.sxor r) 0x16 [Instr.sxor r] rfl (by decide) (rrr_low r)
      ((members_16 _).trans (congrArg (fun r => some [Instr.sxor r]) (rrrOf_bits 0x16 r))) (by
        rw [show (formOf (Instr.sxor r)).mask = (formOf (Instr.sxor ⟨0, false, 0, 0, 0, 0, 0, false, false, false, 0⟩)).mask from rfl,
          show opcodeMask 0x16 [Instr.sxor r] = opcodeMask 0x16 [Instr.sxor ⟨0, false, 0, 0, 0, 0, 0, false, false, false, 0⟩] from rfl]; decide +kernel) (find_head hx) hm
  · cases hw

theorem RoundTrip.sshl (r : RRR) : RoundTrip.Statement (.sshl r) := by
  rintro (h | ⟨w, hw, _⟩)
  · obtain ⟨hx, hm⟩ := wf_parts h
    exact decode_member (.sshl r) 0x17 [Instr.sshl r, Instr.sshr r, Instr.ssra r] rfl (by decide) (rrr_low r)
      ((members_17 _).trans (congrArg (fun r => some [Instr.sshl r, Instr.sshr r, Instr.ssra r]) (rrrOf_bits 0x17 r))) (by
        rw [show (formOf (Instr.sshl r)).mask = (formOf (Instr.sshl ⟨0, false, 0, 0, 0, 0, 0, false, false, false, 0⟩)).mask from rfl,
          show opcodeMask 0x17 [Instr.sshl r, Instr.sshr r, Instr.ssra r] = opcodeMask 0x17 [Instr.sshl ⟨0, false, 0, 0, 0, 0, 0, false, false, false, 0⟩, Instr.sshr ⟨0, false, 0, 0, 0, 0, 0, false, false, false, 0⟩, Instr.ssra ⟨0, false, 0, 0, 0, 0, 0, false, false, false, 0⟩] from rfl]; decide +kernel) (find_head hx) hm
  · cases hw

theorem RoundTrip.sshr (r : RRR) : RoundTrip.Statement (.sshr r) := by
  rintro (h | ⟨w, hw, _⟩)
  · obtain ⟨hx, hm⟩ := wf_parts h
    exact decode_member (.sshr r) 0x17 [Instr.sshl r, Instr.sshr r, Instr.ssra r] rfl (by decide) (rrr_low r)
      ((members_17 _).trans (congrArg (fun r => some [Instr.sshl r, Instr.sshr r, Instr.ssra r]) (rrrOf_bits 0x17 r))) (by
        rw [show (formOf (Instr.sshr r)).mask = (formOf (Instr.sshr ⟨0, false, 0, 0, 0, 0, 0, false, false, false, 0⟩)).mask from rfl,
          show opcodeMask 0x17 [Instr.sshl r, Instr.sshr r, Instr.ssra r] = opcodeMask 0x17 [Instr.sshl ⟨0, false, 0, 0, 0, 0, 0, false, false, false, 0⟩, Instr.sshr ⟨0, false, 0, 0, 0, 0, 0, false, false, false, 0⟩, Instr.ssra ⟨0, false, 0, 0, 0, 0, 0, false, false, false, 0⟩] from rfl]; decide +kernel) (find_tail (by simp [xLegal] at hx ⊢; omega) (find_head hx)) hm
  · cases hw

theorem RoundTrip.ssra (r : RRR) : RoundTrip.Statement (.ssra r) := by
  rintro (h | ⟨w, hw, _⟩)
  · obtain ⟨hx, hm⟩ := wf_parts h
    exact decode_member (.ssra r) 0x17 [Instr.sshl r, Instr.sshr r, Instr.ssra r] rfl (by decide) (rrr_low r)
      ((members_17 _).trans (congrArg (fun r => some [Instr.sshl r, Instr.sshr r, Instr.ssra r]) (rrrOf_bits 0x17 r))) (by
        rw [show (formOf (Instr.ssra r)).mask = (formOf (Instr.ssra ⟨0, false, 0, 0, 0, 0, 0, false, false, false, 0⟩)).mask from rfl,
          show opcodeMask 0x17 [Instr.sshl r, Instr.sshr r, Instr.ssra r] = opcodeMask 0x17 [Instr.sshl ⟨0, false, 0, 0, 0, 0, 0, false, false, false, 0⟩, Instr.sshr ⟨0, false, 0, 0, 0, 0, 0, false, false, false, 0⟩, Instr.ssra ⟨0, false, 0, 0, 0, 0, 0, false, false, false, 0⟩] from rfl]; decide +kernel) (find_tail (by simp [xLegal] at hx ⊢; omega) (find_tail (by simp [xLegal] at hx ⊢; omega) (find_head hx))) hm
  · cases hw

theorem RoundTrip.smin (r : RRR) : RoundTrip.Statement (.smin r) := by
  rintro (h | ⟨w, hw, _⟩)
  · obtain ⟨hx, hm⟩ := wf_parts h
    exact decode_member (.smin r) 0x18 [Instr.smin r, Instr.smax r] rfl (by decide) (rrr_low r)
      ((members_18 _).trans (congrArg (fun r => some [Instr.smin r, Instr.smax r]) (rrrOf_bits 0x18 r))) (by
        rw [show (formOf (Instr.smin r)).mask = (formOf (Instr.smin ⟨0, false, 0, 0, 0, 0, 0, false, false, false, 0⟩)).mask from rfl,
          show opcodeMask 0x18 [Instr.smin r, Instr.smax r] = opcodeMask 0x18 [Instr.smin ⟨0, false, 0, 0, 0, 0, 0, false, false, false, 0⟩, Instr.smax ⟨0, false, 0, 0, 0, 0, 0, false, false, false, 0⟩] from rfl]; decide +kernel) (find_head hx) hm
  · cases hw

theorem RoundTrip.smax (r : RRR) : RoundTrip.Statement (.smax r) := by
  rintro (h | ⟨w, hw, _⟩)
  · obtain ⟨hx, hm⟩ := wf_parts h
    exact decode_member (.smax r) 0x18 [Instr.smin r, Instr.smax r] rfl (by decide) (rrr_low r)
      ((members_18 _).trans (congrArg (fun r => some [Instr.smin r, Instr.smax r]) (rrrOf_bits 0x18 r))) (by
        rw [show (formOf (Instr.smax r)).mask = (formOf (Instr.smax ⟨0, false, 0, 0, 0, 0, 0, false, false, false, 0⟩)).mask from rfl,
          show opcodeMask 0x18 [Instr.smin r, Instr.smax r] = opcodeMask 0x18 [Instr.smin ⟨0, false, 0, 0, 0, 0, 0, false, false, false, 0⟩, Instr.smax ⟨0, false, 0, 0, 0, 0, 0, false, false, false, 0⟩] from rfl]; decide +kernel) (find_tail (by simp [xLegal] at hx ⊢; omega) (find_head hx)) hm
  · cases hw

theorem RoundTrip.saddi (r : RI) : RoundTrip.Statement (.saddi r) := by
  rintro (h | ⟨w, hw, _⟩)
  · obtain ⟨hx, hm⟩ := wf_parts h
    exact decode_member (.saddi r) 0x19 [Instr.saddi r] rfl (by decide) (ri_low r)
      ((members_19 _).trans (congrArg (fun r => some [Instr.saddi r]) (riOf_bits 0x19 r))) (by
        rw [show (formOf (Instr.saddi r)).mask = (formOf (Instr.saddi ⟨0, false, 0, 0, 0, 0, false, 0⟩)).mask from rfl,
          show opcodeMask 0x19 [Instr.saddi r] = opcodeMask 0x19 [Instr.saddi ⟨0, false, 0, 0, 0, 0, false, 0⟩] from rfl]; decide +kernel) (find_head hx) hm
  · cases hw

theorem RoundTrip.sldi (r : I32) : RoundTrip.Statement (.sldi r) := by
  rintro (h | ⟨w, hw, _⟩)
  · obtain ⟨hx, hm⟩ := wf_parts h
    exact decode_member (.sldi r) 0x1A [Instr.sldi r] rfl (by decide) (i32_low r)
      ((members_1A _).trans (congrArg (fun r => some [Instr.sldi r]) (i32Of_bits 0x1A r))) (by
        rw [show (formOf (Instr.sldi r)).mask = (formOf (Instr.sldi ⟨0, false, 0, 0, 0⟩)).mask from rfl,
          show opcodeMask 0x1A [Instr.sldi r] = opcodeMask 0x1A [Instr.sldi ⟨0, false, 0, 0, 0⟩] from rfl]; decide +kernel) (find_head hx) hm
  · cases hw

theorem RoundTrip.sldhi (r : I32) : RoundTrip.Statement (.sldhi r) := by
  rintro (h | ⟨w, hw, _⟩)
  · obtain ⟨hx, hm⟩ := wf_parts h
    exact decode_member (.sldhi r) 0x1B [Instr.sldhi r] rfl (by decide) (i32_low r)
      ((members_1B _).trans (congrArg (fun r => some [Instr.sldhi r]) (i32Of_bits 0x1B r))) (by
        rw [show (formOf (Instr.sldhi r)).mask = (formOf (Instr.sldhi ⟨0, false, 0, 0, 0⟩)).mask from rfl,
          show opcodeMask 0x1B [Instr.sldhi r] = opcodeMask 0x1B [Instr.sldhi ⟨0, false, 0, 0, 0⟩] from rfl]; decide +kernel) (find_head hx) hm
  · cases hw

theorem RoundTrip.scmp (r : RRR) : RoundTrip.Statement (.scmp r) := by
  rintro (h | ⟨w, hw, _⟩)
  · obtain ⟨hx, hm⟩ := wf_parts h
    exact decode_member (.scmp r) 0x1C [Instr.scmp r] rfl (by decide) (rrr_low r)
      ((members_1C _).trans (congrArg (fun r => some [Instr.scmp r]) (rrrOf_bits 0x1C r))) (by
        rw [show (formOf (Instr.scmp r)).mask = (formOf (Instr.scmp ⟨0, false, 0, 0, 0, 0, 0, false, false, false, 0⟩)).mask from rfl,
          show opcodeMask 0x1C [Instr.scmp r] = opcodeMask 0x1C [Instr.scmp ⟨0, false, 0, 0, 0, 0, 0, false, false, false, 0⟩] from rfl]; decide +kernel) (find_head hx) hm
  · cases hw

theorem RoundTrip.ssel (r : RRR) : RoundTrip.Statement (.ssel r) := by
  rintro (h | ⟨w, hw, _⟩)
  · obtain ⟨hx, hm⟩ := wf_parts h
    exact decode_member (.ssel r) 0x1D [Instr.ssel r] rfl (by decide) (rrr_low r)
      ((members_1D _).trans (congrArg (fun r => some [Instr.ssel r]) (rrrOf_bits 0x1D r))) (by
        rw [show (formOf (Instr.ssel r)).mask = (formOf (Instr.ssel ⟨0, false, 0, 0, 0, 0, 0, false, false, false, 0⟩)).mask from rfl,
          show opcodeMask 0x1D [Instr.ssel r] = opcodeMask 0x1D [Instr.ssel ⟨0, false, 0, 0, 0, 0, 0, false, false, false, 0⟩] from rfl]; decide +kernel) (find_head hx) hm
  · cases hw

theorem RoundTrip.sget (r : RRR) : RoundTrip.Statement (.sget r) := by
  rintro (h | ⟨w, hw, _⟩)
  · obtain ⟨hx, hm⟩ := wf_parts h
    exact decode_member (.sget r) 0x1E [Instr.sget r, Instr.sgetFirst r] rfl (by decide) (rrr_low r)
      ((members_1E _).trans (congrArg (fun r => some [Instr.sget r, Instr.sgetFirst r]) (rrrOf_bits 0x1E r))) (by
        rw [show (formOf (Instr.sget r)).mask = (formOf (Instr.sget ⟨0, false, 0, 0, 0, 0, 0, false, false, false, 0⟩)).mask from rfl,
          show opcodeMask 0x1E [Instr.sget r, Instr.sgetFirst r] = 0xFFF8FFFFFF000DFF from rfl]; decide +kernel) (find_head hx) hm
  · cases hw

theorem RoundTrip.sgetFirst (r : RRR) : RoundTrip.Statement (.sgetFirst r) := by
  rintro (h | ⟨w, hw, _⟩)
  · obtain ⟨hx, hm⟩ := wf_parts h
    exact decode_member (.sgetFirst r) 0x1E [Instr.sget r, Instr.sgetFirst r] rfl (by decide) (rrr_low r)
      ((members_1E _).trans (congrArg (fun r => some [Instr.sget r, Instr.sgetFirst r]) (rrrOf_bits 0x1E r))) (by
        rw [show (formOf (Instr.sgetFirst r)).mask = (formOf (Instr.sgetFirst ⟨0, false, 0, 0, 0, 0, 0, false, false, false, 0⟩)).mask from rfl,
          show opcodeMask 0x1E [Instr.sget r, Instr.sgetFirst r] = 0xFFF8FFFFFF000DFF from rfl]; decide +kernel) (find_tail (by simp [xLegal] at hx ⊢; omega) (find_head hx)) hm
  · cases hw

theorem RoundTrip.vbc (r : RRR) : RoundTrip.Statement (.vbc r) := by
  rintro (h | ⟨w, hw, _⟩)
  · obtain ⟨hx, hm⟩ := wf_parts h
    exact decode_member (.vbc r) 0x1F [Instr.vbc r] rfl (by decide) (rrr_low r)
      ((members_1F _).trans (congrArg (fun r => some [Instr.vbc r]) (rrrOf_bits 0x1F r))) (by
        rw [show (formOf (Instr.vbc r)).mask = (formOf (Instr.vbc ⟨0, false, 0, 0, 0, 0, 0, false, false, false, 0⟩)).mask from rfl,
          show opcodeMask 0x1F [Instr.vbc r] = opcodeMask 0x1F [Instr.vbc ⟨0, false, 0, 0, 0, 0, 0, false, false, false, 0⟩] from rfl]; decide +kernel) (find_head hx) hm
  · cases hw

theorem RoundTrip.iadd (r : RRR) : RoundTrip.Statement (.iadd r) := by
  rintro (h | ⟨w, hw, _⟩)
  · obtain ⟨hx, hm⟩ := wf_parts h
    exact decode_member (.iadd r) 0x20 [Instr.iadd r] rfl (by decide) (rrr_low r)
      ((members_20 _).trans (congrArg (fun r => some [Instr.iadd r]) (rrrOf_bits 0x20 r))) (by
        rw [show (formOf (Instr.iadd r)).mask = (formOf (Instr.iadd ⟨0, false, 0, 0, 0, 0, 0, false, false, false, 0⟩)).mask from rfl,
          show opcodeMask 0x20 [Instr.iadd r] = opcodeMask 0x20 [Instr.iadd ⟨0, false, 0, 0, 0, 0, 0, false, false, false, 0⟩] from rfl]; decide +kernel) (find_head hx) hm
  · cases hw

theorem RoundTrip.isub (r : RRR) : RoundTrip.Statement (.isub r) := by
  rintro (h | ⟨w, hw, _⟩)
  · obtain ⟨hx, hm⟩ := wf_parts h
    exact decode_member (.isub r) 0x21 [Instr.isub r] rfl (by decide) (rrr_low r)
      ((members_21 _).trans (congrArg (fun r => some [Instr.isub r]) (rrrOf_bits 0x21 r))) (by
        rw [show (formOf (Instr.isub r)).mask = (formOf (Instr.isub ⟨0, false, 0, 0, 0, 0, 0, false, false, false, 0⟩)).mask from rfl,
          show opcodeMask 0x21 [Instr.isub r] = opcodeMask 0x21 [Instr.isub ⟨0, false, 0, 0, 0, 0, 0, false, false, false, 0⟩] from rfl]; decide +kernel) (find_head hx) hm
  · cases hw

theorem RoundTrip.imul (r : RRR) : RoundTrip.Statement (.imul r) := by
  rintro (h | ⟨w, hw, _⟩)
  · obtain ⟨hx, hm⟩ := wf_parts h
    exact decode_member (.imul r) 0x22 [Instr.imul r] rfl (by decide) (rrr_low r)
      ((members_22 _).trans (congrArg (fun r => some [Instr.imul r]) (rrrOf_bits 0x22 r))) (by
        rw [show (formOf (Instr.imul r)).mask = (formOf (Instr.imul ⟨0, false, 0, 0, 0, 0, 0, false, false, false, 0⟩)).mask from rfl,
          show opcodeMask 0x22 [Instr.imul r] = opcodeMask 0x22 [Instr.imul ⟨0, false, 0, 0, 0, 0, 0, false, false, false, 0⟩] from rfl]; decide +kernel) (find_head hx) hm
  · cases hw

theorem RoundTrip.imulh (r : RRR) : RoundTrip.Statement (.imulh r) := by
  rintro (h | ⟨w, hw, _⟩)
  · obtain ⟨hx, hm⟩ := wf_parts h
    exact decode_member (.imulh r) 0x23 [Instr.imulh r] rfl (by decide) (rrr_low r)
      ((members_23 _).trans (congrArg (fun r => some [Instr.imulh r]) (rrrOf_bits 0x23 r))) (by
        rw [show (formOf (Instr.imulh r)).mask = (formOf (Instr.imulh ⟨0, false, 0, 0, 0, 0, 0, false, false, false, 0⟩)).mask from rfl,
          show opcodeMask 0x23 [Instr.imulh r] = opcodeMask 0x23 [Instr.imulh ⟨0, false, 0, 0, 0, 0, 0, false, false, false, 0⟩] from rfl]; decide +kernel) (find_head hx) hm
  · cases hw

theorem RoundTrip.imad (r : RRR) : RoundTrip.Statement (.imad r) := by
  rintro (h | ⟨w, hw, _⟩)
  · obtain ⟨hx, hm⟩ := wf_parts h
    exact decode_member (.imad r) 0x24 [Instr.imad r] rfl (by decide) (rrr_low r)
      ((members_24 _).trans (congrArg (fun r => some [Instr.imad r]) (rrrOf_bits 0x24 r))) (by
        rw [show (formOf (Instr.imad r)).mask = (formOf (Instr.imad ⟨0, false, 0, 0, 0, 0, 0, false, false, false, 0⟩)).mask from rfl,
          show opcodeMask 0x24 [Instr.imad r] = opcodeMask 0x24 [Instr.imad ⟨0, false, 0, 0, 0, 0, 0, false, false, false, 0⟩] from rfl]; decide +kernel) (find_head hx) hm
  · cases hw

theorem RoundTrip.iand (r : RRR) : RoundTrip.Statement (.iand r) := by
  rintro (h | ⟨w, hw, _⟩)
  · obtain ⟨hx, hm⟩ := wf_parts h
    exact decode_member (.iand r) 0x25 [Instr.iand r] rfl (by decide) (rrr_low r)
      ((members_25 _).trans (congrArg (fun r => some [Instr.iand r]) (rrrOf_bits 0x25 r))) (by
        rw [show (formOf (Instr.iand r)).mask = (formOf (Instr.iand ⟨0, false, 0, 0, 0, 0, 0, false, false, false, 0⟩)).mask from rfl,
          show opcodeMask 0x25 [Instr.iand r] = opcodeMask 0x25 [Instr.iand ⟨0, false, 0, 0, 0, 0, 0, false, false, false, 0⟩] from rfl]; decide +kernel) (find_head hx) hm
  · cases hw

theorem RoundTrip.ior (r : RRR) : RoundTrip.Statement (.ior r) := by
  rintro (h | ⟨w, hw, _⟩)
  · obtain ⟨hx, hm⟩ := wf_parts h
    exact decode_member (.ior r) 0x26 [Instr.ior r] rfl (by decide) (rrr_low r)
      ((members_26 _).trans (congrArg (fun r => some [Instr.ior r]) (rrrOf_bits 0x26 r))) (by
        rw [show (formOf (Instr.ior r)).mask = (formOf (Instr.ior ⟨0, false, 0, 0, 0, 0, 0, false, false, false, 0⟩)).mask from rfl,
          show opcodeMask 0x26 [Instr.ior r] = opcodeMask 0x26 [Instr.ior ⟨0, false, 0, 0, 0, 0, 0, false, false, false, 0⟩] from rfl]; decide +kernel) (find_head hx) hm
  · cases hw

theorem RoundTrip.ixor (r : RRR) : RoundTrip.Statement (.ixor r) := by
  rintro (h | ⟨w, hw, _⟩)
  · obtain ⟨hx, hm⟩ := wf_parts h
    exact decode_member (.ixor r) 0x27 [Instr.ixor r] rfl (by decide) (rrr_low r)
      ((members_27 _).trans (congrArg (fun r => some [Instr.ixor r]) (rrrOf_bits 0x27 r))) (by
        rw [show (formOf (Instr.ixor r)).mask = (formOf (Instr.ixor ⟨0, false, 0, 0, 0, 0, 0, false, false, false, 0⟩)).mask from rfl,
          show opcodeMask 0x27 [Instr.ixor r] = opcodeMask 0x27 [Instr.ixor ⟨0, false, 0, 0, 0, 0, 0, false, false, false, 0⟩] from rfl]; decide +kernel) (find_head hx) hm
  · cases hw

theorem RoundTrip.ishl (r : RRR) : RoundTrip.Statement (.ishl r) := by
  rintro (h | ⟨w, hw, _⟩)
  · obtain ⟨hx, hm⟩ := wf_parts h
    exact decode_member (.ishl r) 0x28 [Instr.ishl r, Instr.ishr r, Instr.isra r] rfl (by decide) (rrr_low r)
      ((members_28 _).trans (congrArg (fun r => some [Instr.ishl r, Instr.ishr r, Instr.isra r]) (rrrOf_bits 0x28 r))) (by
        rw [show (formOf (Instr.ishl r)).mask = (formOf (Instr.ishl ⟨0, false, 0, 0, 0, 0, 0, false, false, false, 0⟩)).mask from rfl,
          show opcodeMask 0x28 [Instr.ishl r, Instr.ishr r, Instr.isra r] = opcodeMask 0x28 [Instr.ishl ⟨0, false, 0, 0, 0, 0, 0, false, false, false, 0⟩, Instr.ishr ⟨0, false, 0, 0, 0, 0, 0, false, false, false, 0⟩, Instr.isra ⟨0, false, 0, 0, 0, 0, 0, false, false, false, 0⟩] from rfl]; decide +kernel) (find_head hx) hm
  · cases hw

theorem RoundTrip.ishr (r : RRR) : RoundTrip.Statement (.ishr r) := by
  rintro (h | ⟨w, hw, _⟩)
  · obtain ⟨hx, hm⟩ := wf_parts h
    exact decode_member (.ishr r) 0x28 [Instr.ishl r, Instr.ishr r, Instr.isra r] rfl (by decide) (rrr_low r)
      ((members_28 _).trans (congrArg (fun r => some [Instr.ishl r, Instr.ishr r, Instr.isra r]) (rrrOf_bits 0x28 r))) (by
        rw [show (formOf (Instr.ishr r)).mask = (formOf (Instr.ishr ⟨0, false, 0, 0, 0, 0, 0, false, false, false, 0⟩)).mask from rfl,
          show opcodeMask 0x28 [Instr.ishl r, Instr.ishr r, Instr.isra r] = opcodeMask 0x28 [Instr.ishl ⟨0, false, 0, 0, 0, 0, 0, false, false, false, 0⟩, Instr.ishr ⟨0, false, 0, 0, 0, 0, 0, false, false, false, 0⟩, Instr.isra ⟨0, false, 0, 0, 0, 0, 0, false, false, false, 0⟩] from rfl]; decide +kernel) (find_tail (by simp [xLegal] at hx ⊢; omega) (find_head hx)) hm
  · cases hw

theorem RoundTrip.isra (r : RRR) : RoundTrip.Statement (.isra r) := by
  rintro (h | ⟨w, hw, _⟩)
  · obtain ⟨hx, hm⟩ := wf_parts h
    exact decode_member (.isra r) 0x28 [Instr.ishl r, Instr.ishr r, Instr.isra r] rfl (by decide) (rrr_low r)
      ((members_28 _).trans (congrArg (fun r => some [Instr.ishl r, Instr.ishr r, Instr.isra r]) (rrrOf_bits 0x28 r))) (by
        rw [show (formOf (Instr.isra r)).mask = (formOf (Instr.isra ⟨0, false, 0, 0, 0, 0, 0, false, false, false, 0⟩)).mask from rfl,
          show opcodeMask 0x28 [Instr.ishl r, Instr.ishr r, Instr.isra r] = opcodeMask 0x28 [Instr.ishl ⟨0, false, 0, 0, 0, 0, 0, false, false, false, 0⟩, Instr.ishr ⟨0, false, 0, 0, 0, 0, 0, false, false, false, 0⟩, Instr.isra ⟨0, false, 0, 0, 0, 0, 0, false, false, false, 0⟩] from rfl]; decide +kernel) (find_tail (by simp [xLegal] at hx ⊢; omega) (find_tail (by simp [xLegal] at hx ⊢; omega) (find_head hx))) hm
  · cases hw

theorem RoundTrip.imin (r : RRR) : RoundTrip.Statement (.imin r) := by
  rintro (h | ⟨w, hw, _⟩)
  · obtain ⟨hx, hm⟩ := wf_parts h
    exact decode_member (.imin r) 0x29 [Instr.imin r, Instr.imax r] rfl (by decide) (rrr_low r)
      ((members_29 _).trans (congrArg (fun r => some [Instr.imin r, Instr.imax r]) (rrrOf_bits 0x29 r))) (by
        rw [show (formOf (Instr.imin r)).mask = (formOf (Instr.imin ⟨0, false, 0, 0, 0, 0, 0, false, false, false, 0⟩)).mask from rfl,
          show opcodeMask 0x29 [Instr.imin r, Instr.imax r] = opcodeMask 0x29 [Instr.imin ⟨0, false, 0, 0, 0, 0, 0, false, false, false, 0⟩, Instr.imax ⟨0, false, 0, 0, 0, 0, 0, false, false, false, 0⟩] from rfl]; decide +kernel) (find_head hx) hm
  · cases hw

theorem RoundTrip.imax (r : RRR) : RoundTrip.Statement (.imax r) := by
  rintro (h | ⟨w, hw, _⟩)
  · obtain ⟨hx, hm⟩ := wf_parts h
    exact decode_member (.imax r) 0x29 [Instr.imin r, Instr.imax r] rfl (by decide) (rrr_low r)
      ((members_29 _).trans (congrArg (fun r => some [Instr.imin r, Instr.imax r]) (rrrOf_bits 0x29 r))) (by
        rw [show (formOf (Instr.imax r)).mask = (formOf (Instr.imax ⟨0, false, 0, 0, 0, 0, 0, false, false, false, 0⟩)).mask from rfl,
          show opcodeMask 0x29 [Instr.imin r, Instr.imax r] = opcodeMask 0x29 [Instr.imin ⟨0, false, 0, 0, 0, 0, 0, false, false, false, 0⟩, Instr.imax ⟨0, false, 0, 0, 0, 0, 0, false, false, false, 0⟩] from rfl]; decide +kernel) (find_tail (by simp [xLegal] at hx ⊢; omega) (find_head hx)) hm
  · cases hw

theorem RoundTrip.icmp (r : RRR) : RoundTrip.Statement (.icmp r) := by
  rintro (h | ⟨w, hw, _⟩)
  · obtain ⟨hx, hm⟩ := wf_parts h
    exact decode_member (.icmp r) 0x2A [Instr.icmp r] rfl (by decide) (rrr_low r)
      ((members_2A _).trans (congrArg (fun r => some [Instr.icmp r]) (rrrOf_bits 0x2A r))) (by
        rw [show (formOf (Instr.icmp r)).mask = (formOf (Instr.icmp ⟨0, false, 0, 0, 0, 0, 0, false, false, false, 0⟩)).mask from rfl,
          show opcodeMask 0x2A [Instr.icmp r] = opcodeMask 0x2A [Instr.icmp ⟨0, false, 0, 0, 0, 0, 0, false, false, false, 0⟩] from rfl]; decide +kernel) (find_head hx) hm
  · cases hw

theorem RoundTrip.isel (r : RRR) : RoundTrip.Statement (.isel r) := by
  rintro (h | ⟨w, hw, _⟩)
  · obtain ⟨hx, hm⟩ := wf_parts h
    exact decode_member (.isel r) 0x2B [Instr.isel r, Instr.iselM r] rfl (by decide) (rrr_low r)
      ((members_2B _).trans (congrArg (fun r => some [Instr.isel r, Instr.iselM r]) (rrrOf_bits 0x2B r))) (by
        rw [show (formOf (Instr.isel r)).mask = (formOf (Instr.isel ⟨0, false, 0, 0, 0, 0, 0, false, false, false, 0⟩)).mask from rfl,
          show opcodeMask 0x2B [Instr.isel r, Instr.iselM r] = 0xFFF8FFFFFFFF0FFF from rfl]; decide +kernel) (find_head hx) hm
  · cases hw

theorem RoundTrip.iselM (r : RRR) : RoundTrip.Statement (.iselM r) := by
  rintro (h | ⟨w, hw, _⟩)
  · obtain ⟨hx, hm⟩ := wf_parts h
    exact decode_member (.iselM r) 0x2B [Instr.isel r, Instr.iselM r] rfl (by decide) (rrr_low r)
      ((members_2B _).trans (congrArg (fun r => some [Instr.isel r, Instr.iselM r]) (rrrOf_bits 0x2B r))) (by
        rw [show (formOf (Instr.iselM r)).mask = (formOf (Instr.iselM ⟨0, false, 0, 0, 0, 0, 0, false, false, false, 0⟩)).mask from rfl,
          show opcodeMask 0x2B [Instr.isel r, Instr.iselM r] = 0xFFF8FFFFFFFF0FFF from rfl]; decide +kernel) (find_tail (by simp [xLegal] at hx ⊢; omega) (find_head hx)) hm
  · cases hw

theorem RoundTrip.ipopc (r : RRR) : RoundTrip.Statement (.ipopc r) := by
  rintro (h | ⟨w, hw, _⟩)
  · obtain ⟨hx, hm⟩ := wf_parts h
    exact decode_member (.ipopc r) 0x2C [Instr.ipopc r, Instr.iclz r] rfl (by decide) (rrr_low r)
      ((members_2C _).trans (congrArg (fun r => some [Instr.ipopc r, Instr.iclz r]) (rrrOf_bits 0x2C r))) (by
        rw [show (formOf (Instr.ipopc r)).mask = (formOf (Instr.ipopc ⟨0, false, 0, 0, 0, 0, 0, false, false, false, 0⟩)).mask from rfl,
          show opcodeMask 0x2C [Instr.ipopc r, Instr.iclz r] = opcodeMask 0x2C [Instr.ipopc ⟨0, false, 0, 0, 0, 0, 0, false, false, false, 0⟩, Instr.iclz ⟨0, false, 0, 0, 0, 0, 0, false, false, false, 0⟩] from rfl]; decide +kernel) (find_head hx) hm
  · cases hw

theorem RoundTrip.iclz (r : RRR) : RoundTrip.Statement (.iclz r) := by
  rintro (h | ⟨w, hw, _⟩)
  · obtain ⟨hx, hm⟩ := wf_parts h
    exact decode_member (.iclz r) 0x2C [Instr.ipopc r, Instr.iclz r] rfl (by decide) (rrr_low r)
      ((members_2C _).trans (congrArg (fun r => some [Instr.ipopc r, Instr.iclz r]) (rrrOf_bits 0x2C r))) (by
        rw [show (formOf (Instr.iclz r)).mask = (formOf (Instr.iclz ⟨0, false, 0, 0, 0, 0, 0, false, false, false, 0⟩)).mask from rfl,
          show opcodeMask 0x2C [Instr.ipopc r, Instr.iclz r] = opcodeMask 0x2C [Instr.ipopc ⟨0, false, 0, 0, 0, 0, 0, false, false, false, 0⟩, Instr.iclz ⟨0, false, 0, 0, 0, 0, 0, false, false, false, 0⟩] from rfl]; decide +kernel) (find_tail (by simp [xLegal] at hx ⊢; omega) (find_head hx)) hm
  · cases hw

theorem RoundTrip.ibfe (r : RRR) : RoundTrip.Statement (.ibfe r) := by
  rintro (h | ⟨w, hw, _⟩)
  · obtain ⟨hx, hm⟩ := wf_parts h
    exact decode_member (.ibfe r) 0x2D [Instr.ibfe r] rfl (by decide) (rrr_low r)
      ((members_2D _).trans (congrArg (fun r => some [Instr.ibfe r]) (rrrOf_bits 0x2D r))) (by
        rw [show (formOf (Instr.ibfe r)).mask = (formOf (Instr.ibfe ⟨0, false, 0, 0, 0, 0, 0, false, false, false, 0⟩)).mask from rfl,
          show opcodeMask 0x2D [Instr.ibfe r] = opcodeMask 0x2D [Instr.ibfe ⟨0, false, 0, 0, 0, 0, 0, false, false, false, 0⟩] from rfl]; decide +kernel) (find_head hx) hm
  · cases hw

theorem RoundTrip.ibfi (r : RRR) : RoundTrip.Statement (.ibfi r) := by
  rintro (h | ⟨w, hw, _⟩)
  · obtain ⟨hx, hm⟩ := wf_parts h
    exact decode_member (.ibfi r) 0x2E [Instr.ibfi r] rfl (by decide) (rrr_low r)
      ((members_2E _).trans (congrArg (fun r => some [Instr.ibfi r]) (rrrOf_bits 0x2E r))) (by
        rw [show (formOf (Instr.ibfi r)).mask = (formOf (Instr.ibfi ⟨0, false, 0, 0, 0, 0, 0, false, false, false, 0⟩)).mask from rfl,
          show opcodeMask 0x2E [Instr.ibfi r] = opcodeMask 0x2E [Instr.ibfi ⟨0, false, 0, 0, 0, 0, 0, false, false, false, 0⟩] from rfl]; decide +kernel) (find_head hx) hm
  · cases hw

theorem RoundTrip.lea (r : RRR) : RoundTrip.Statement (.lea r) := by
  rintro (h | ⟨w, hw, _⟩)
  · obtain ⟨hx, hm⟩ := wf_parts h
    exact decode_member (.lea r) 0x2F [Instr.lea r] rfl (by decide) (rrr_low r)
      ((members_2F _).trans (congrArg (fun r => some [Instr.lea r]) (rrrOf_bits 0x2F r))) (by
        rw [show (formOf (Instr.lea r)).mask = (formOf (Instr.lea ⟨0, false, 0, 0, 0, 0, 0, false, false, false, 0⟩)).mask from rfl,
          show opcodeMask 0x2F [Instr.lea r] = opcodeMask 0x2F [Instr.lea ⟨0, false, 0, 0, 0, 0, 0, false, false, false, 0⟩] from rfl]; decide +kernel) (find_head hx) hm
  · cases hw

theorem RoundTrip.iaddi (r : RI) : RoundTrip.Statement (.iaddi r) := by
  rintro (h | ⟨w, hw, _⟩)
  · obtain ⟨hx, hm⟩ := wf_parts h
    exact decode_member (.iaddi r) 0x30 [Instr.iaddi r] rfl (by decide) (ri_low r)
      ((members_30 _).trans (congrArg (fun r => some [Instr.iaddi r]) (riOf_bits 0x30 r))) (by
        rw [show opcodeMask 0x30 [Instr.iaddi r] = 0xFFF8FFFFFFFF09FF from rfl]; simp only [formOf, immEw]; split <;> decide +kernel) (find_head hx) hm
  · cases hw

theorem RoundTrip.iandi (r : RI) : RoundTrip.Statement (.iandi r) := by
  rintro (h | ⟨w, hw, _⟩)
  · obtain ⟨hx, hm⟩ := wf_parts h
    exact decode_member (.iandi r) 0x31 [Instr.iandi r, Instr.iori r, Instr.ixori r] rfl (by decide) (ri_low r)
      ((members_31 _).trans (congrArg (fun r => some [Instr.iandi r, Instr.iori r, Instr.ixori r]) (riOf_bits 0x31 r))) (by
        rw [show opcodeMask 0x31 [Instr.iandi r, Instr.iori r, Instr.ixori r] = 0xFFF8FFFFFFFF09FF from rfl]; simp only [formOf, immEw]; split <;> decide +kernel) (find_head hx) hm
  · cases hw

theorem RoundTrip.iori (r : RI) : RoundTrip.Statement (.iori r) := by
  rintro (h | ⟨w, hw, _⟩)
  · obtain ⟨hx, hm⟩ := wf_parts h
    exact decode_member (.iori r) 0x31 [Instr.iandi r, Instr.iori r, Instr.ixori r] rfl (by decide) (ri_low r)
      ((members_31 _).trans (congrArg (fun r => some [Instr.iandi r, Instr.iori r, Instr.ixori r]) (riOf_bits 0x31 r))) (by
        rw [show opcodeMask 0x31 [Instr.iandi r, Instr.iori r, Instr.ixori r] = 0xFFF8FFFFFFFF09FF from rfl]; simp only [formOf, immEw]; split <;> decide +kernel) (find_tail (by simp [xLegal] at hx ⊢; omega) (find_head hx)) hm
  · cases hw

theorem RoundTrip.ixori (r : RI) : RoundTrip.Statement (.ixori r) := by
  rintro (h | ⟨w, hw, _⟩)
  · obtain ⟨hx, hm⟩ := wf_parts h
    exact decode_member (.ixori r) 0x31 [Instr.iandi r, Instr.iori r, Instr.ixori r] rfl (by decide) (ri_low r)
      ((members_31 _).trans (congrArg (fun r => some [Instr.iandi r, Instr.iori r, Instr.ixori r]) (riOf_bits 0x31 r))) (by
        rw [show opcodeMask 0x31 [Instr.iandi r, Instr.iori r, Instr.ixori r] = 0xFFF8FFFFFFFF09FF from rfl]; simp only [formOf, immEw]; split <;> decide +kernel) (find_tail (by simp [xLegal] at hx ⊢; omega) (find_tail (by simp [xLegal] at hx ⊢; omega) (find_head hx))) hm
  · cases hw

theorem RoundTrip.ishli (r : RI) : RoundTrip.Statement (.ishli r) := by
  rintro (h | ⟨w, hw, _⟩)
  · obtain ⟨hx, hm⟩ := wf_parts h
    exact decode_member (.ishli r) 0x32 [Instr.ishli r, Instr.ishri r] rfl (by decide) (ri_low r)
      ((members_32 _).trans (congrArg (fun r => some [Instr.ishli r, Instr.ishri r]) (riOf_bits 0x32 r))) (by
        rw [show (formOf (Instr.ishli r)).mask = (formOf (Instr.ishli ⟨0, false, 0, 0, 0, 0, false, 0⟩)).mask from rfl,
          show opcodeMask 0x32 [Instr.ishli r, Instr.ishri r] = opcodeMask 0x32 [Instr.ishli ⟨0, false, 0, 0, 0, 0, false, 0⟩, Instr.ishri ⟨0, false, 0, 0, 0, 0, false, 0⟩] from rfl]; decide +kernel) (find_head hx) hm
  · cases hw

theorem RoundTrip.ishri (r : RI) : RoundTrip.Statement (.ishri r) := by
  rintro (h | ⟨w, hw, _⟩)
  · obtain ⟨hx, hm⟩ := wf_parts h
    exact decode_member (.ishri r) 0x32 [Instr.ishli r, Instr.ishri r] rfl (by decide) (ri_low r)
      ((members_32 _).trans (congrArg (fun r => some [Instr.ishli r, Instr.ishri r]) (riOf_bits 0x32 r))) (by
        rw [show (formOf (Instr.ishri r)).mask = (formOf (Instr.ishri ⟨0, false, 0, 0, 0, 0, false, 0⟩)).mask from rfl,
          show opcodeMask 0x32 [Instr.ishli r, Instr.ishri r] = opcodeMask 0x32 [Instr.ishli ⟨0, false, 0, 0, 0, 0, false, 0⟩, Instr.ishri ⟨0, false, 0, 0, 0, 0, false, 0⟩] from rfl]; decide +kernel) (find_tail (by simp [xLegal] at hx ⊢; omega) (find_head hx)) hm
  · cases hw

theorem RoundTrip.icmpi (r : RI) : RoundTrip.Statement (.icmpi r) := by
  rintro (h | ⟨w, hw, _⟩)
  · obtain ⟨hx, hm⟩ := wf_parts h
    exact decode_member (.icmpi r) 0x33 [Instr.icmpi r] rfl (by decide) (ri_low r)
      ((members_33 _).trans (congrArg (fun r => some [Instr.icmpi r]) (riOf_bits 0x33 r))) (by
        rw [show opcodeMask 0x33 [Instr.icmpi r] = 0xFFF8FFFFFFFF09FF from rfl]; simp only [formOf, immEw]; split <;> decide +kernel) (find_head hx) hm
  · cases hw

theorem RoundTrip.icmpm (r : RRR) : RoundTrip.Statement (.icmpm r) := by
  rintro (h | ⟨w, hw, _⟩)
  · obtain ⟨hx, hm⟩ := wf_parts h
    exact decode_member (.icmpm r) 0x34 [Instr.icmpm r] rfl (by decide) (rrr_low r)
      ((members_34 _).trans (congrArg (fun r => some [Instr.icmpm r]) (rrrOf_bits 0x34 r))) (by
        rw [show (formOf (Instr.icmpm r)).mask = (formOf (Instr.icmpm ⟨0, false, 0, 0, 0, 0, 0, false, false, false, 0⟩)).mask from rfl,
          show opcodeMask 0x34 [Instr.icmpm r] = opcodeMask 0x34 [Instr.icmpm ⟨0, false, 0, 0, 0, 0, 0, false, false, false, 0⟩] from rfl]; decide +kernel) (find_head hx) hm
  · cases hw

theorem RoundTrip.mov (r : RRR) : RoundTrip.Statement (.mov r) := by
  rintro (h | ⟨w, hw, _⟩)
  · obtain ⟨hx, hm⟩ := wf_parts h
    exact decode_member (.mov r) 0x35 [Instr.mov r] rfl (by decide) (rrr_low r)
      ((members_35 _).trans (congrArg (fun r => some [Instr.mov r]) (rrrOf_bits 0x35 r))) (by
        rw [show (formOf (Instr.mov r)).mask = (formOf (Instr.mov ⟨0, false, 0, 0, 0, 0, 0, false, false, false, 0⟩)).mask from rfl,
          show opcodeMask 0x35 [Instr.mov r] = opcodeMask 0x35 [Instr.mov ⟨0, false, 0, 0, 0, 0, 0, false, false, false, 0⟩] from rfl]; decide +kernel) (find_head hx) hm
  · cases hw

theorem RoundTrip.movi (r : I32) : RoundTrip.Statement (.movi r) := by
  rintro (h | ⟨w, hw, _⟩)
  · obtain ⟨hx, hm⟩ := wf_parts h
    exact decode_member (.movi r) 0x36 [Instr.movi r, Instr.moviHi r] rfl (by decide) (i32_low r)
      ((members_36 _).trans (congrArg (fun r => some [Instr.movi r, Instr.moviHi r]) (i32Of_bits 0x36 r))) (by
        rw [show opcodeMask 0x36 [Instr.movi r, Instr.moviHi r] = 0xFFF8FFFFFFFFFFFF from rfl]; simp only [formOf, imm32Ew]; split <;> (try split) <;> decide +kernel) (find_head hx) hm
  · cases hw

theorem RoundTrip.moviHi (r : I32) : RoundTrip.Statement (.moviHi r) := by
  rintro (h | ⟨w, hw, _⟩)
  · obtain ⟨hx, hm⟩ := wf_parts h
    exact decode_member (.moviHi r) 0x36 [Instr.movi r, Instr.moviHi r] rfl (by decide) (i32_low r)
      ((members_36 _).trans (congrArg (fun r => some [Instr.movi r, Instr.moviHi r]) (i32Of_bits 0x36 r))) (by
        rw [show (formOf (Instr.moviHi r)).mask = (formOf (Instr.moviHi ⟨0, false, 0, 0, 0⟩)).mask from rfl,
          show opcodeMask 0x36 [Instr.movi r, Instr.moviHi r] = 0xFFF8FFFFFFFFFFFF from rfl]; decide +kernel) (find_tail (by simp [xLegal] at hx ⊢; omega) (find_head hx)) hm
  · cases hw

theorem RoundTrip.fadd (r : RRR) : RoundTrip.Statement (.fadd r) := by
  rintro (h | ⟨w, hw, _⟩)
  · obtain ⟨hx, hm⟩ := wf_parts h
    exact decode_member (.fadd r) 0x40 [Instr.fadd r] rfl (by decide) (rrr_low r)
      ((members_40 _).trans (congrArg (fun r => some [Instr.fadd r]) (rrrOf_bits 0x40 r))) (by
        rw [show (formOf (Instr.fadd r)).mask = (formOf (Instr.fadd ⟨0, false, 0, 0, 0, 0, 0, false, false, false, 0⟩)).mask from rfl,
          show opcodeMask 0x40 [Instr.fadd r] = opcodeMask 0x40 [Instr.fadd ⟨0, false, 0, 0, 0, 0, 0, false, false, false, 0⟩] from rfl]; decide +kernel) (find_head hx) hm
  · cases hw

theorem RoundTrip.fsub (r : RRR) : RoundTrip.Statement (.fsub r) := by
  rintro (h | ⟨w, hw, _⟩)
  · obtain ⟨hx, hm⟩ := wf_parts h
    exact decode_member (.fsub r) 0x41 [Instr.fsub r] rfl (by decide) (rrr_low r)
      ((members_41 _).trans (congrArg (fun r => some [Instr.fsub r]) (rrrOf_bits 0x41 r))) (by
        rw [show (formOf (Instr.fsub r)).mask = (formOf (Instr.fsub ⟨0, false, 0, 0, 0, 0, 0, false, false, false, 0⟩)).mask from rfl,
          show opcodeMask 0x41 [Instr.fsub r] = opcodeMask 0x41 [Instr.fsub ⟨0, false, 0, 0, 0, 0, 0, false, false, false, 0⟩] from rfl]; decide +kernel) (find_head hx) hm
  · cases hw

theorem RoundTrip.fmul (r : RRR) : RoundTrip.Statement (.fmul r) := by
  rintro (h | ⟨w, hw, _⟩)
  · obtain ⟨hx, hm⟩ := wf_parts h
    exact decode_member (.fmul r) 0x42 [Instr.fmul r] rfl (by decide) (rrr_low r)
      ((members_42 _).trans (congrArg (fun r => some [Instr.fmul r]) (rrrOf_bits 0x42 r))) (by
        rw [show (formOf (Instr.fmul r)).mask = (formOf (Instr.fmul ⟨0, false, 0, 0, 0, 0, 0, false, false, false, 0⟩)).mask from rfl,
          show opcodeMask 0x42 [Instr.fmul r] = opcodeMask 0x42 [Instr.fmul ⟨0, false, 0, 0, 0, 0, 0, false, false, false, 0⟩] from rfl]; decide +kernel) (find_head hx) hm
  · cases hw

theorem RoundTrip.ffma (r : RRR) : RoundTrip.Statement (.ffma r) := by
  rintro (h | ⟨w, hw, _⟩)
  · obtain ⟨hx, hm⟩ := wf_parts h
    exact decode_member (.ffma r) 0x43 [Instr.ffma r] rfl (by decide) (rrr_low r)
      ((members_43 _).trans (congrArg (fun r => some [Instr.ffma r]) (rrrOf_bits 0x43 r))) (by
        rw [show (formOf (Instr.ffma r)).mask = (formOf (Instr.ffma ⟨0, false, 0, 0, 0, 0, 0, false, false, false, 0⟩)).mask from rfl,
          show opcodeMask 0x43 [Instr.ffma r] = opcodeMask 0x43 [Instr.ffma ⟨0, false, 0, 0, 0, 0, 0, false, false, false, 0⟩] from rfl]; decide +kernel) (find_head hx) hm
  · cases hw

theorem RoundTrip.fmin (r : RRR) : RoundTrip.Statement (.fmin r) := by
  rintro (h | ⟨w, hw, _⟩)
  · obtain ⟨hx, hm⟩ := wf_parts h
    exact decode_member (.fmin r) 0x44 [Instr.fmin r] rfl (by decide) (rrr_low r)
      ((members_44 _).trans (congrArg (fun r => some [Instr.fmin r]) (rrrOf_bits 0x44 r))) (by
        rw [show (formOf (Instr.fmin r)).mask = (formOf (Instr.fmin ⟨0, false, 0, 0, 0, 0, 0, false, false, false, 0⟩)).mask from rfl,
          show opcodeMask 0x44 [Instr.fmin r] = opcodeMask 0x44 [Instr.fmin ⟨0, false, 0, 0, 0, 0, 0, false, false, false, 0⟩] from rfl]; decide +kernel) (find_head hx) hm
  · cases hw

theorem RoundTrip.fmax (r : RRR) : RoundTrip.Statement (.fmax r) := by
  rintro (h | ⟨w, hw, _⟩)
  · obtain ⟨hx, hm⟩ := wf_parts h
    exact decode_member (.fmax r) 0x45 [Instr.fmax r] rfl (by decide) (rrr_low r)
      ((members_45 _).trans (congrArg (fun r => some [Instr.fmax r]) (rrrOf_bits 0x45 r))) (by
        rw [show (formOf (Instr.fmax r)).mask = (formOf (Instr.fmax ⟨0, false, 0, 0, 0, 0, 0, false, false, false, 0⟩)).mask from rfl,
          show opcodeMask 0x45 [Instr.fmax r] = opcodeMask 0x45 [Instr.fmax ⟨0, false, 0, 0, 0, 0, 0, false, false, false, 0⟩] from rfl]; decide +kernel) (find_head hx) hm
  · cases hw

theorem RoundTrip.fabsn (r : RRR) : RoundTrip.Statement (.fabsn r) := by
  rintro (h | ⟨w, hw, _⟩)
  · obtain ⟨hx, hm⟩ := wf_parts h
    exact decode_member (.fabsn r) 0x46 [Instr.fabsn r] rfl (by decide) (rrr_low r)
      ((members_46 _).trans (congrArg (fun r => some [Instr.fabsn r]) (rrrOf_bits 0x46 r))) (by
        rw [show opcodeMask 0x46 [Instr.fabsn r] = 0xFFF8FFFFFF00FDFF from rfl]; simp only [formOf, immEw]; split <;> decide +kernel) (find_head hx) hm
  · cases hw

theorem RoundTrip.fcmp (r : RRR) : RoundTrip.Statement (.fcmp r) := by
  rintro (h | ⟨w, hw, _⟩)
  · obtain ⟨hx, hm⟩ := wf_parts h
    exact decode_member (.fcmp r) 0x47 [Instr.fcmp r] rfl (by decide) (rrr_low r)
      ((members_47 _).trans (congrArg (fun r => some [Instr.fcmp r]) (rrrOf_bits 0x47 r))) (by
        rw [show (formOf (Instr.fcmp r)).mask = (formOf (Instr.fcmp ⟨0, false, 0, 0, 0, 0, 0, false, false, false, 0⟩)).mask from rfl,
          show opcodeMask 0x47 [Instr.fcmp r] = opcodeMask 0x47 [Instr.fcmp ⟨0, false, 0, 0, 0, 0, 0, false, false, false, 0⟩] from rfl]; decide +kernel) (find_head hx) hm
  · cases hw

theorem RoundTrip.fclass (r : RRR) : RoundTrip.Statement (.fclass r) := by
  rintro (h | ⟨w, hw, _⟩)
  · obtain ⟨hx, hm⟩ := wf_parts h
    exact decode_member (.fclass r) 0x48 [Instr.fclass r] rfl (by decide) (rrr_low r)
      ((members_48 _).trans (congrArg (fun r => some [Instr.fclass r]) (rrrOf_bits 0x48 r))) (by
        rw [show (formOf (Instr.fclass r)).mask = (formOf (Instr.fclass ⟨0, false, 0, 0, 0, 0, 0, false, false, false, 0⟩)).mask from rfl,
          show opcodeMask 0x48 [Instr.fclass r] = opcodeMask 0x48 [Instr.fclass ⟨0, false, 0, 0, 0, 0, 0, false, false, false, 0⟩] from rfl]; decide +kernel) (find_head hx) hm
  · cases hw

theorem RoundTrip.fdiv (r : RRR) : RoundTrip.Statement (.fdiv r) := by
  rintro (h | ⟨w, hw, _⟩)
  · obtain ⟨hx, hm⟩ := wf_parts h
    exact decode_member (.fdiv r) 0x49 [Instr.fdiv r] rfl (by decide) (rrr_low r)
      ((members_49 _).trans (congrArg (fun r => some [Instr.fdiv r]) (rrrOf_bits 0x49 r))) (by
        rw [show (formOf (Instr.fdiv r)).mask = (formOf (Instr.fdiv ⟨0, false, 0, 0, 0, 0, 0, false, false, false, 0⟩)).mask from rfl,
          show opcodeMask 0x49 [Instr.fdiv r] = opcodeMask 0x49 [Instr.fdiv ⟨0, false, 0, 0, 0, 0, 0, false, false, false, 0⟩] from rfl]; decide +kernel) (find_head hx) hm
  · cases hw

theorem RoundTrip.fsqrt (r : RRR) : RoundTrip.Statement (.fsqrt r) := by
  rintro (h | ⟨w, hw, _⟩)
  · obtain ⟨hx, hm⟩ := wf_parts h
    exact decode_member (.fsqrt r) 0x4A [Instr.fsqrt r] rfl (by decide) (rrr_low r)
      ((members_4A _).trans (congrArg (fun r => some [Instr.fsqrt r]) (rrrOf_bits 0x4A r))) (by
        rw [show (formOf (Instr.fsqrt r)).mask = (formOf (Instr.fsqrt ⟨0, false, 0, 0, 0, 0, 0, false, false, false, 0⟩)).mask from rfl,
          show opcodeMask 0x4A [Instr.fsqrt r] = opcodeMask 0x4A [Instr.fsqrt ⟨0, false, 0, 0, 0, 0, 0, false, false, false, 0⟩] from rfl]; decide +kernel) (find_head hx) hm
  · cases hw

theorem RoundTrip.frcp (r : RRR) : RoundTrip.Statement (.frcp r) := by
  rintro (h | ⟨w, hw, _⟩)
  · obtain ⟨hx, hm⟩ := wf_parts h
    exact decode_member (.frcp r) 0x4B [Instr.frcp r] rfl (by decide) (rrr_low r)
      ((members_4B _).trans (congrArg (fun r => some [Instr.frcp r]) (rrrOf_bits 0x4B r))) (by
        rw [show (formOf (Instr.frcp r)).mask = (formOf (Instr.frcp ⟨0, false, 0, 0, 0, 0, 0, false, false, false, 0⟩)).mask from rfl,
          show opcodeMask 0x4B [Instr.frcp r] = opcodeMask 0x4B [Instr.frcp ⟨0, false, 0, 0, 0, 0, 0, false, false, false, 0⟩] from rfl]; decide +kernel) (find_head hx) hm
  · cases hw

theorem RoundTrip.frsq (r : RRR) : RoundTrip.Statement (.frsq r) := by
  rintro (h | ⟨w, hw, _⟩)
  · obtain ⟨hx, hm⟩ := wf_parts h
    exact decode_member (.frsq r) 0x4C [Instr.frsq r] rfl (by decide) (rrr_low r)
      ((members_4C _).trans (congrArg (fun r => some [Instr.frsq r]) (rrrOf_bits 0x4C r))) (by
        rw [show (formOf (Instr.frsq r)).mask = (formOf (Instr.frsq ⟨0, false, 0, 0, 0, 0, 0, false, false, false, 0⟩)).mask from rfl,
          show opcodeMask 0x4C [Instr.frsq r] = opcodeMask 0x4C [Instr.frsq ⟨0, false, 0, 0, 0, 0, 0, false, false, false, 0⟩] from rfl]; decide +kernel) (find_head hx) hm
  · cases hw

theorem RoundTrip.fexp2 (r : RRR) : RoundTrip.Statement (.fexp2 r) := by
  rintro (h | ⟨w, hw, _⟩)
  · obtain ⟨hx, hm⟩ := wf_parts h
    exact decode_member (.fexp2 r) 0x4D [Instr.fexp2 r] rfl (by decide) (rrr_low r)
      ((members_4D _).trans (congrArg (fun r => some [Instr.fexp2 r]) (rrrOf_bits 0x4D r))) (by
        rw [show (formOf (Instr.fexp2 r)).mask = (formOf (Instr.fexp2 ⟨0, false, 0, 0, 0, 0, 0, false, false, false, 0⟩)).mask from rfl,
          show opcodeMask 0x4D [Instr.fexp2 r] = opcodeMask 0x4D [Instr.fexp2 ⟨0, false, 0, 0, 0, 0, 0, false, false, false, 0⟩] from rfl]; decide +kernel) (find_head hx) hm
  · cases hw

theorem RoundTrip.flog2 (r : RRR) : RoundTrip.Statement (.flog2 r) := by
  rintro (h | ⟨w, hw, _⟩)
  · obtain ⟨hx, hm⟩ := wf_parts h
    exact decode_member (.flog2 r) 0x4E [Instr.flog2 r] rfl (by decide) (rrr_low r)
      ((members_4E _).trans (congrArg (fun r => some [Instr.flog2 r]) (rrrOf_bits 0x4E r))) (by
        rw [show (formOf (Instr.flog2 r)).mask = (formOf (Instr.flog2 ⟨0, false, 0, 0, 0, 0, 0, false, false, false, 0⟩)).mask from rfl,
          show opcodeMask 0x4E [Instr.flog2 r] = opcodeMask 0x4E [Instr.flog2 ⟨0, false, 0, 0, 0, 0, 0, false, false, false, 0⟩] from rfl]; decide +kernel) (find_head hx) hm
  · cases hw

theorem RoundTrip.fsum (r : RRR) : RoundTrip.Statement (.fsum r) := by
  rintro (h | ⟨w, hw, _⟩)
  · obtain ⟨hx, hm⟩ := wf_parts h
    exact decode_member (.fsum r) 0x4F [Instr.fsum r] rfl (by decide) (rrr_low r)
      ((members_4F _).trans (congrArg (fun r => some [Instr.fsum r]) (rrrOf_bits 0x4F r))) (by
        rw [show opcodeMask 0x4F [Instr.fsum r] = 0xFFF8FFFFFF00FDFF from rfl]; simp only [formOf, immEw]; split <;> decide +kernel) (find_head hx) hm
  · cases hw

theorem RoundTrip.faddi (r : RI) : RoundTrip.Statement (.faddi r) := by
  rintro (h | ⟨w, hw, _⟩)
  · obtain ⟨hx, hm⟩ := wf_parts h
    exact decode_member (.faddi r) 0x50 [Instr.faddi r] rfl (by decide) (ri_low r)
      ((members_50 _).trans (congrArg (fun r => some [Instr.faddi r]) (riOf_bits 0x50 r))) (by
        rw [show (formOf (Instr.faddi r)).mask = (formOf (Instr.faddi ⟨0, false, 0, 0, 0, 0, false, 0⟩)).mask from rfl,
          show opcodeMask 0x50 [Instr.faddi r] = opcodeMask 0x50 [Instr.faddi ⟨0, false, 0, 0, 0, 0, false, 0⟩] from rfl]; decide +kernel) (find_head hx) hm
  · cases hw

theorem RoundTrip.fmuli (r : RI) : RoundTrip.Statement (.fmuli r) := by
  rintro (h | ⟨w, hw, _⟩)
  · obtain ⟨hx, hm⟩ := wf_parts h
    exact decode_member (.fmuli r) 0x51 [Instr.fmuli r] rfl (by decide) (ri_low r)
      ((members_51 _).trans (congrArg (fun r => some [Instr.fmuli r]) (riOf_bits 0x51 r))) (by
        rw [show (formOf (Instr.fmuli r)).mask = (formOf (Instr.fmuli ⟨0, false, 0, 0, 0, 0, false, 0⟩)).mask from rfl,
          show opcodeMask 0x51 [Instr.fmuli r] = opcodeMask 0x51 [Instr.fmuli ⟨0, false, 0, 0, 0, 0, false, 0⟩] from rfl]; decide +kernel) (find_head hx) hm
  · cases hw

theorem RoundTrip.ffmai (r : RI) : RoundTrip.Statement (.ffmai r) := by
  rintro (h | ⟨w, hw, _⟩)
  · obtain ⟨hx, hm⟩ := wf_parts h
    exact decode_member (.ffmai r) 0x52 [Instr.ffmai r] rfl (by decide) (ri_low r)
      ((members_52 _).trans (congrArg (fun r => some [Instr.ffmai r]) (riOf_bits 0x52 r))) (by
        rw [show (formOf (Instr.ffmai r)).mask = (formOf (Instr.ffmai ⟨0, false, 0, 0, 0, 0, false, 0⟩)).mask from rfl,
          show opcodeMask 0x52 [Instr.ffmai r] = opcodeMask 0x52 [Instr.ffmai ⟨0, false, 0, 0, 0, 0, false, 0⟩] from rfl]; decide +kernel) (find_head hx) hm
  · cases hw

theorem RoundTrip.fcvt (r : RRR) : RoundTrip.Statement (.fcvt r) := by
  rintro (h | ⟨w, hw, _⟩)
  · obtain ⟨hx, hm⟩ := wf_parts h
    exact decode_member (.fcvt r) 0x53 [Instr.fcvt r] rfl (by decide) (rrr_low r)
      ((members_53 _).trans (congrArg (fun r => some [Instr.fcvt r]) (rrrOf_bits 0x53 r))) (by
        rw [show (formOf (Instr.fcvt r)).mask = (formOf (Instr.fcvt ⟨0, false, 0, 0, 0, 0, 0, false, false, false, 0⟩)).mask from rfl,
          show opcodeMask 0x53 [Instr.fcvt r] = opcodeMask 0x53 [Instr.fcvt ⟨0, false, 0, 0, 0, 0, 0, false, false, false, 0⟩] from rfl]; decide +kernel) (find_head hx) hm
  · cases hw

theorem RoundTrip.ftoi (r : RRR) : RoundTrip.Statement (.ftoi r) := by
  rintro (h | ⟨w, hw, _⟩)
  · obtain ⟨hx, hm⟩ := wf_parts h
    exact decode_member (.ftoi r) 0x54 [Instr.ftoi r] rfl (by decide) (rrr_low r)
      ((members_54 _).trans (congrArg (fun r => some [Instr.ftoi r]) (rrrOf_bits 0x54 r))) (by
        rw [show (formOf (Instr.ftoi r)).mask = (formOf (Instr.ftoi ⟨0, false, 0, 0, 0, 0, 0, false, false, false, 0⟩)).mask from rfl,
          show opcodeMask 0x54 [Instr.ftoi r] = opcodeMask 0x54 [Instr.ftoi ⟨0, false, 0, 0, 0, 0, 0, false, false, false, 0⟩] from rfl]; decide +kernel) (find_head hx) hm
  · cases hw

theorem RoundTrip.itof (r : RRR) : RoundTrip.Statement (.itof r) := by
  rintro (h | ⟨w, hw, _⟩)
  · obtain ⟨hx, hm⟩ := wf_parts h
    exact decode_member (.itof r) 0x55 [Instr.itof r] rfl (by decide) (rrr_low r)
      ((members_55 _).trans (congrArg (fun r => some [Instr.itof r]) (rrrOf_bits 0x55 r))) (by
        rw [show (formOf (Instr.itof r)).mask = (formOf (Instr.itof ⟨0, false, 0, 0, 0, 0, 0, false, false, false, 0⟩)).mask from rfl,
          show opcodeMask 0x55 [Instr.itof r] = opcodeMask 0x55 [Instr.itof ⟨0, false, 0, 0, 0, 0, 0, false, false, false, 0⟩] from rfl]; decide +kernel) (find_head hx) hm
  · cases hw

theorem RoundTrip.fpack (r : RRR) : RoundTrip.Statement (.fpack r) := by
  rintro (h | ⟨w, hw, _⟩)
  · obtain ⟨hx, hm⟩ := wf_parts h
    exact decode_member (.fpack r) 0x56 [Instr.fpack r] rfl (by decide) (rrr_low r)
      ((members_56 _).trans (congrArg (fun r => some [Instr.fpack r]) (rrrOf_bits 0x56 r))) (by
        rw [show (formOf (Instr.fpack r)).mask = (formOf (Instr.fpack ⟨0, false, 0, 0, 0, 0, 0, false, false, false, 0⟩)).mask from rfl,
          show opcodeMask 0x56 [Instr.fpack r] = opcodeMask 0x56 [Instr.fpack ⟨0, false, 0, 0, 0, 0, 0, false, false, false, 0⟩] from rfl]; decide +kernel) (find_head hx) hm
  · cases hw

theorem RoundTrip.fbscl (r : RRR) : RoundTrip.Statement (.fbscl r) := by
  rintro (h | ⟨w, hw, _⟩)
  · obtain ⟨hx, hm⟩ := wf_parts h
    exact decode_member (.fbscl r) 0x57 [Instr.fbscl r] rfl (by decide) (rrr_low r)
      ((members_57 _).trans (congrArg (fun r => some [Instr.fbscl r]) (rrrOf_bits 0x57 r))) (by
        rw [show (formOf (Instr.fbscl r)).mask = (formOf (Instr.fbscl ⟨0, false, 0, 0, 0, 0, 0, false, false, false, 0⟩)).mask from rfl,
          show opcodeMask 0x57 [Instr.fbscl r] = opcodeMask 0x57 [Instr.fbscl ⟨0, false, 0, 0, 0, 0, 0, false, false, false, 0⟩] from rfl]; decide +kernel) (find_head hx) hm
  · cases hw

theorem RoundTrip.fdot (r : RRR) : RoundTrip.Statement (.fdot r) := by
  rintro (h | ⟨w, hw, _⟩)
  · obtain ⟨hx, hm⟩ := wf_parts h
    exact decode_member (.fdot r) 0x58 [Instr.fdot r] rfl (by decide) (rrr_low r)
      ((members_58 _).trans (congrArg (fun r => some [Instr.fdot r]) (rrrOf_bits 0x58 r))) (by
        rw [show opcodeMask 0x58 [Instr.fdot r] = 0xFFF8FFFFFFFFFFFF from rfl]; simp only [formOf, immEw]; split <;> decide +kernel) (find_head hx) hm
  · cases hw

theorem RoundTrip.frnd (r : RRR) : RoundTrip.Statement (.frnd r) := by
  rintro (h | ⟨w, hw, _⟩)
  · obtain ⟨hx, hm⟩ := wf_parts h
    exact decode_member (.frnd r) 0x59 [Instr.frnd r] rfl (by decide) (rrr_low r)
      ((members_59 _).trans (congrArg (fun r => some [Instr.frnd r]) (rrrOf_bits 0x59 r))) (by
        rw [show (formOf (Instr.frnd r)).mask = (formOf (Instr.frnd ⟨0, false, 0, 0, 0, 0, 0, false, false, false, 0⟩)).mask from rfl,
          show opcodeMask 0x59 [Instr.frnd r] = opcodeMask 0x59 [Instr.frnd ⟨0, false, 0, 0, 0, 0, 0, false, false, false, 0⟩] from rfl]; decide +kernel) (find_head hx) hm
  · cases hw

theorem RoundTrip.fscale (r : RRR) : RoundTrip.Statement (.fscale r) := by
  rintro (h | ⟨w, hw, _⟩)
  · obtain ⟨hx, hm⟩ := wf_parts h
    exact decode_member (.fscale r) 0x5A [Instr.fscale r] rfl (by decide) (rrr_low r)
      ((members_5A _).trans (congrArg (fun r => some [Instr.fscale r]) (rrrOf_bits 0x5A r))) (by
        rw [show (formOf (Instr.fscale r)).mask = (formOf (Instr.fscale ⟨0, false, 0, 0, 0, 0, 0, false, false, false, 0⟩)).mask from rfl,
          show opcodeMask 0x5A [Instr.fscale r] = opcodeMask 0x5A [Instr.fscale ⟨0, false, 0, 0, 0, 0, 0, false, false, false, 0⟩] from rfl]; decide +kernel) (find_head hx) hm
  · cases hw

theorem RoundTrip.shfl (r : RRR) : RoundTrip.Statement (.shfl r) := by
  rintro (h | ⟨w, hw, _⟩)
  · obtain ⟨hx, hm⟩ := wf_parts h
    exact decode_member (.shfl r) 0x60 [Instr.shfl r] rfl (by decide) (rrr_low r)
      ((members_60 _).trans (congrArg (fun r => some [Instr.shfl r]) (rrrOf_bits 0x60 r))) (by
        rw [show (formOf (Instr.shfl r)).mask = (formOf (Instr.shfl ⟨0, false, 0, 0, 0, 0, 0, false, false, false, 0⟩)).mask from rfl,
          show opcodeMask 0x60 [Instr.shfl r] = opcodeMask 0x60 [Instr.shfl ⟨0, false, 0, 0, 0, 0, 0, false, false, false, 0⟩] from rfl]; decide +kernel) (find_head hx) hm
  · cases hw

theorem RoundTrip.shflx (r : RRR) : RoundTrip.Statement (.shflx r) := by
  rintro (h | ⟨w, hw, _⟩)
  · obtain ⟨hx, hm⟩ := wf_parts h
    exact decode_member (.shflx r) 0x61 [Instr.shflx r] rfl (by decide) (rrr_low r)
      ((members_61 _).trans (congrArg (fun r => some [Instr.shflx r]) (rrrOf_bits 0x61 r))) (by
        rw [show (formOf (Instr.shflx r)).mask = (formOf (Instr.shflx ⟨0, false, 0, 0, 0, 0, 0, false, false, false, 0⟩)).mask from rfl,
          show opcodeMask 0x61 [Instr.shflx r] = opcodeMask 0x61 [Instr.shflx ⟨0, false, 0, 0, 0, 0, 0, false, false, false, 0⟩] from rfl]; decide +kernel) (find_head hx) hm
  · cases hw

theorem RoundTrip.shflud (r : RRR) : RoundTrip.Statement (.shflud r) := by
  rintro (h | ⟨w, hw, _⟩)
  · obtain ⟨hx, hm⟩ := wf_parts h
    exact decode_member (.shflud r) 0x62 [Instr.shflud r] rfl (by decide) (rrr_low r)
      ((members_62 _).trans (congrArg (fun r => some [Instr.shflud r]) (rrrOf_bits 0x62 r))) (by
        rw [show (formOf (Instr.shflud r)).mask = (formOf (Instr.shflud ⟨0, false, 0, 0, 0, 0, 0, false, false, false, 0⟩)).mask from rfl,
          show opcodeMask 0x62 [Instr.shflud r] = opcodeMask 0x62 [Instr.shflud ⟨0, false, 0, 0, 0, 0, 0, false, false, false, 0⟩] from rfl]; decide +kernel) (find_head hx) hm
  · cases hw

theorem RoundTrip.vote (r : RRR) : RoundTrip.Statement (.vote r) := by
  rintro (h | ⟨w, hw, _⟩)
  · obtain ⟨hx, hm⟩ := wf_parts h
    exact decode_member (.vote r) 0x63 [Instr.vote r] rfl (by decide) (rrr_low r)
      ((members_63 _).trans (congrArg (fun r => some [Instr.vote r]) (rrrOf_bits 0x63 r))) (by
        rw [show (formOf (Instr.vote r)).mask = (formOf (Instr.vote ⟨0, false, 0, 0, 0, 0, 0, false, false, false, 0⟩)).mask from rfl,
          show opcodeMask 0x63 [Instr.vote r] = opcodeMask 0x63 [Instr.vote ⟨0, false, 0, 0, 0, 0, 0, false, false, false, 0⟩] from rfl]; decide +kernel) (find_head hx) hm
  · cases hw

theorem RoundTrip.matchEq (r : RRR) : RoundTrip.Statement (.matchEq r) := by
  rintro (h | ⟨w, hw, _⟩)
  · obtain ⟨hx, hm⟩ := wf_parts h
    exact decode_member (.matchEq r) 0x64 [Instr.matchEq r] rfl (by decide) (rrr_low r)
      ((members_64 _).trans (congrArg (fun r => some [Instr.matchEq r]) (rrrOf_bits 0x64 r))) (by
        rw [show (formOf (Instr.matchEq r)).mask = (formOf (Instr.matchEq ⟨0, false, 0, 0, 0, 0, 0, false, false, false, 0⟩)).mask from rfl,
          show opcodeMask 0x64 [Instr.matchEq r] = opcodeMask 0x64 [Instr.matchEq ⟨0, false, 0, 0, 0, 0, 0, false, false, false, 0⟩] from rfl]; decide +kernel) (find_head hx) hm
  · cases hw

theorem RoundTrip.mrank (r : RRR) : RoundTrip.Statement (.mrank r) := by
  rintro (h | ⟨w, hw, _⟩)
  · obtain ⟨hx, hm⟩ := wf_parts h
    exact decode_member (.mrank r) 0x65 [Instr.mrank r] rfl (by decide) (rrr_low r)
      ((members_65 _).trans (congrArg (fun r => some [Instr.mrank r]) (rrrOf_bits 0x65 r))) (by
        rw [show (formOf (Instr.mrank r)).mask = (formOf (Instr.mrank ⟨0, false, 0, 0, 0, 0, 0, false, false, false, 0⟩)).mask from rfl,
          show opcodeMask 0x65 [Instr.mrank r] = opcodeMask 0x65 [Instr.mrank ⟨0, false, 0, 0, 0, 0, 0, false, false, false, 0⟩] from rfl]; decide +kernel) (find_head hx) hm
  · cases hw

theorem RoundTrip.mlead (r : RRR) : RoundTrip.Statement (.mlead r) := by
  rintro (h | ⟨w, hw, _⟩)
  · obtain ⟨hx, hm⟩ := wf_parts h
    exact decode_member (.mlead r) 0x66 [Instr.mlead r] rfl (by decide) (rrr_low r)
      ((members_66 _).trans (congrArg (fun r => some [Instr.mlead r]) (rrrOf_bits 0x66 r))) (by
        rw [show (formOf (Instr.mlead r)).mask = (formOf (Instr.mlead ⟨0, false, 0, 0, 0, 0, 0, false, false, false, 0⟩)).mask from rfl,
          show opcodeMask 0x66 [Instr.mlead r] = opcodeMask 0x66 [Instr.mlead ⟨0, false, 0, 0, 0, 0, 0, false, false, false, 0⟩] from rfl]; decide +kernel) (find_head hx) hm
  · cases hw

theorem RoundTrip.elect (r : RRR) : RoundTrip.Statement (.elect r) := by
  rintro (h | ⟨w, hw, _⟩)
  · obtain ⟨hx, hm⟩ := wf_parts h
    exact decode_member (.elect r) 0x67 [Instr.elect r] rfl (by decide) (rrr_low r)
      ((members_67 _).trans (congrArg (fun r => some [Instr.elect r]) (rrrOf_bits 0x67 r))) (by
        rw [show (formOf (Instr.elect r)).mask = (formOf (Instr.elect ⟨0, false, 0, 0, 0, 0, 0, false, false, false, 0⟩)).mask from rfl,
          show opcodeMask 0x67 [Instr.elect r] = opcodeMask 0x67 [Instr.elect ⟨0, false, 0, 0, 0, 0, 0, false, false, false, 0⟩] from rfl]; decide +kernel) (find_head hx) hm
  · cases hw

theorem RoundTrip.plog (r : RRR) : RoundTrip.Statement (.plog r) := by
  rintro (h | ⟨w, hw, _⟩)
  · obtain ⟨hx, hm⟩ := wf_parts h
    exact decode_member (.plog r) 0x68 [Instr.plog r] rfl (by decide) (rrr_low r)
      ((members_68 _).trans (congrArg (fun r => some [Instr.plog r]) (rrrOf_bits 0x68 r))) (by
        rw [show (formOf (Instr.plog r)).mask = (formOf (Instr.plog ⟨0, false, 0, 0, 0, 0, 0, false, false, false, 0⟩)).mask from rfl,
          show opcodeMask 0x68 [Instr.plog r] = opcodeMask 0x68 [Instr.plog ⟨0, false, 0, 0, 0, 0, 0, false, false, false, 0⟩] from rfl]; decide +kernel) (find_head hx) hm
  · cases hw

theorem RoundTrip.pmov (r : RRR) : RoundTrip.Statement (.pmov r) := by
  rintro (h | ⟨w, hw, _⟩)
  · obtain ⟨hx, hm⟩ := wf_parts h
    exact decode_member (.pmov r) 0x69 [Instr.pmov r, Instr.pmovSet r] rfl (by decide) (rrr_low r)
      ((members_69 _).trans (congrArg (fun r => some [Instr.pmov r, Instr.pmovSet r]) (rrrOf_bits 0x69 r))) (by
        rw [show (formOf (Instr.pmov r)).mask = (formOf (Instr.pmov ⟨0, false, 0, 0, 0, 0, 0, false, false, false, 0⟩)).mask from rfl,
          show opcodeMask 0x69 [Instr.pmov r, Instr.pmovSet r] = 0xFFF8FFFF000009FF from rfl]; decide +kernel) (find_head hx) hm
  · cases hw

theorem RoundTrip.pmovSet (r : RRR) : RoundTrip.Statement (.pmovSet r) := by
  rintro (h | ⟨w, hw, _⟩)
  · obtain ⟨hx, hm⟩ := wf_parts h
    exact decode_member (.pmovSet r) 0x69 [Instr.pmov r, Instr.pmovSet r] rfl (by decide) (rrr_low r)
      ((members_69 _).trans (congrArg (fun r => some [Instr.pmov r, Instr.pmovSet r]) (rrrOf_bits 0x69 r))) (by
        rw [show (formOf (Instr.pmovSet r)).mask = (formOf (Instr.pmovSet ⟨0, false, 0, 0, 0, 0, 0, false, false, false, 0⟩)).mask from rfl,
          show opcodeMask 0x69 [Instr.pmov r, Instr.pmovSet r] = 0xFFF8FFFF000009FF from rfl]; decide +kernel) (find_tail (by simp [xLegal] at hx ⊢; omega) (find_head hx)) hm
  · cases hw

theorem RoundTrip.pbal (r : RRR) : RoundTrip.Statement (.pbal r) := by
  rintro (h | ⟨w, hw, _⟩)
  · obtain ⟨hx, hm⟩ := wf_parts h
    exact decode_member (.pbal r) 0x6A [Instr.pbal r] rfl (by decide) (rrr_low r)
      ((members_6A _).trans (congrArg (fun r => some [Instr.pbal r]) (rrrOf_bits 0x6A r))) (by
        rw [show (formOf (Instr.pbal r)).mask = (formOf (Instr.pbal ⟨0, false, 0, 0, 0, 0, 0, false, false, false, 0⟩)).mask from rfl,
          show opcodeMask 0x6A [Instr.pbal r] = opcodeMask 0x6A [Instr.pbal ⟨0, false, 0, 0, 0, 0, 0, false, false, false, 0⟩] from rfl]; decide +kernel) (find_head hx) hm
  · cases hw

theorem RoundTrip.redux (r : RRR) : RoundTrip.Statement (.redux r) := by
  rintro (h | ⟨w, hw, _⟩)
  · obtain ⟨hx, hm⟩ := wf_parts h
    exact decode_member (.redux r) 0x6B [Instr.redux r] rfl (by decide) (rrr_low r)
      ((members_6B _).trans (congrArg (fun r => some [Instr.redux r]) (rrrOf_bits 0x6B r))) (by
        rw [show (formOf (Instr.redux r)).mask = (formOf (Instr.redux ⟨0, false, 0, 0, 0, 0, 0, false, false, false, 0⟩)).mask from rfl,
          show opcodeMask 0x6B [Instr.redux r] = opcodeMask 0x6B [Instr.redux ⟨0, false, 0, 0, 0, 0, 0, false, false, false, 0⟩] from rfl]; decide +kernel) (find_head hx) hm
  · cases hw

theorem RoundTrip.fredx (r : RRR) : RoundTrip.Statement (.fredx r) := by
  rintro (h | ⟨w, hw, _⟩)
  · obtain ⟨hx, hm⟩ := wf_parts h
    exact decode_member (.fredx r) 0x6C [Instr.fredx r] rfl (by decide) (rrr_low r)
      ((members_6C _).trans (congrArg (fun r => some [Instr.fredx r]) (rrrOf_bits 0x6C r))) (by
        rw [show (formOf (Instr.fredx r)).mask = (formOf (Instr.fredx ⟨0, false, 0, 0, 0, 0, 0, false, false, false, 0⟩)).mask from rfl,
          show opcodeMask 0x6C [Instr.fredx r] = opcodeMask 0x6C [Instr.fredx ⟨0, false, 0, 0, 0, 0, 0, false, false, false, 0⟩] from rfl]; decide +kernel) (find_head hx) hm
  · cases hw

theorem RoundTrip.scan (r : RRR) : RoundTrip.Statement (.scan r) := by
  rintro (h | ⟨w, hw, _⟩)
  · obtain ⟨hx, hm⟩ := wf_parts h
    exact decode_member (.scan r) 0x6D [Instr.scan r, Instr.scanFadd r] rfl (by decide) (rrr_low r)
      ((members_6D _).trans (congrArg (fun r => some [Instr.scan r, Instr.scanFadd r]) (rrrOf_bits 0x6D r))) (by
        rw [show (formOf (Instr.scan r)).mask = (formOf (Instr.scan ⟨0, false, 0, 0, 0, 0, 0, false, false, false, 0⟩)).mask from rfl,
          show opcodeMask 0x6D [Instr.scan r, Instr.scanFadd r] = 0xFFF8FFFF0000F9FF from rfl]; decide +kernel) (find_head hx) hm
  · cases hw

theorem RoundTrip.scanFadd (r : RRR) : RoundTrip.Statement (.scanFadd r) := by
  rintro (h | ⟨w, hw, _⟩)
  · obtain ⟨hx, hm⟩ := wf_parts h
    exact decode_member (.scanFadd r) 0x6D [Instr.scan r, Instr.scanFadd r] rfl (by decide) (rrr_low r)
      ((members_6D _).trans (congrArg (fun r => some [Instr.scan r, Instr.scanFadd r]) (rrrOf_bits 0x6D r))) (by
        rw [show (formOf (Instr.scanFadd r)).mask = (formOf (Instr.scanFadd ⟨0, false, 0, 0, 0, 0, 0, false, false, false, 0⟩)).mask from rfl,
          show opcodeMask 0x6D [Instr.scan r, Instr.scanFadd r] = 0xFFF8FFFF0000F9FF from rfl]; decide +kernel) (find_tail (by simp [xLegal] at hx ⊢; omega) (find_head hx)) hm
  · cases hw

theorem RoundTrip.ld (r : MF) : RoundTrip.Statement (.ld r) := by
  rintro (h | ⟨w, hw, _⟩)
  · obtain ⟨hx, hm⟩ := wf_parts h
    exact decode_member (.ld r) 0x70 [Instr.ld r] rfl (by decide) (mf_low r)
      ((members_70 _).trans (congrArg (fun r => some [Instr.ld r]) (mfOf_bits 0x70 r))) (by
        rw [show opcodeMask 0x70 [Instr.ld r] = 0xFFF8FFFFFFFF0DFF from rfl]; simp only [formOf]
        rcases addr_cases (r.x.toNat / 128) with h | h | h | h <;> rw [h] <;> decide +kernel) (find_head hx) hm
  · cases hw

theorem RoundTrip.ld2 (r : MF) : RoundTrip.Statement (.ld2 r) := by
  rintro (h | ⟨w, hw, _⟩)
  · obtain ⟨hx, hm⟩ := wf_parts h
    exact decode_member (.ld2 r) 0x71 [Instr.ld2 r] rfl (by decide) (mf_low r)
      ((members_71 _).trans (congrArg (fun r => some [Instr.ld2 r]) (mfOf_bits 0x71 r))) (by
        rw [show opcodeMask 0x71 [Instr.ld2 r] = 0xFFF8FFFFFFFF0DFF from rfl]; simp only [formOf]
        rcases addr_cases (r.x.toNat / 128) with h | h | h | h <;> rw [h] <;> decide +kernel) (find_head hx) hm
  · cases hw

theorem RoundTrip.ldp (r : MF) : RoundTrip.Statement (.ldp r) := by
  rintro (h | ⟨w, hw, _⟩)
  · obtain ⟨hx, hm⟩ := wf_parts h
    exact decode_member (.ldp r) 0x72 [Instr.ldp r] rfl (by decide) (mf_low r)
      ((members_72 _).trans (congrArg (fun r => some [Instr.ldp r]) (mfOf_bits 0x72 r))) (by
        rw [show opcodeMask 0x72 [Instr.ldp r] = 0xFFF8FFFFFFFFFDFF from rfl]; simp only [formOf]
        rcases addr_cases (r.x.toNat / 128) with h | h | h | h <;> rw [h] <;> decide +kernel) (find_head hx) hm
  · cases hw

theorem RoundTrip.lds (r : MF) : RoundTrip.Statement (.lds r) := by
  rintro (h | ⟨w, hw, _⟩)
  · obtain ⟨hx, hm⟩ := wf_parts h
    exact decode_member (.lds r) 0x73 [Instr.lds r] rfl (by decide) (mf_low r)
      ((members_73 _).trans (congrArg (fun r => some [Instr.lds r]) (mfOf_bits 0x73 r))) (by
        rw [show opcodeMask 0x73 [Instr.lds r] = 0xFFF8FFFFFFFF0DFF from rfl]; simp only [formOf]
        rcases addr_cases (r.x.toNat / 128) with h | h | h | h <;> rw [h] <;> decide +kernel) (find_head hx) hm
  · cases hw

theorem RoundTrip.ldv (r : MF) : RoundTrip.Statement (.ldv r) := by
  rintro (h | ⟨w, hw, _⟩)
  · obtain ⟨hx, hm⟩ := wf_parts h
    exact decode_member (.ldv r) 0x74 [Instr.ldv r] rfl (by decide) (mf_low r)
      ((members_74 _).trans (congrArg (fun r => some [Instr.ldv r]) (mfOf_bits 0x74 r))) (by
        rw [show opcodeMask 0x74 [Instr.ldv r] = 0xFFF8FFFFFFFF0DFF from rfl]; simp only [formOf]
        rcases addr_cases (r.x.toNat / 128) with h | h | h | h <;> rw [h] <;> decide +kernel) (find_head hx) hm
  · cases hw

theorem RoundTrip.ldu (r : MF) : RoundTrip.Statement (.ldu r) := by
  rintro (h | ⟨w, hw, _⟩)
  · obtain ⟨hx, hm⟩ := wf_parts h
    exact decode_member (.ldu r) 0x75 [Instr.ldu r] rfl (by decide) (mf_low r)
      ((members_75 _).trans (congrArg (fun r => some [Instr.ldu r]) (mfOf_bits 0x75 r))) (by
        rw [show (formOf (Instr.ldu r)).mask = (formOf (Instr.ldu ⟨0, false, 0, 0, 0, 0, 0, false, false, false, 0⟩)).mask from rfl,
          show opcodeMask 0x75 [Instr.ldu r] = opcodeMask 0x75 [Instr.ldu ⟨0, false, 0, 0, 0, 0, 0, false, false, false, 0⟩] from rfl]; decide +kernel) (find_head hx) hm
  · cases hw

theorem RoundTrip.ldacq (r : MF) : RoundTrip.Statement (.ldacq r) := by
  rintro (h | ⟨w, hw, _⟩)
  · obtain ⟨hx, hm⟩ := wf_parts h
    exact decode_member (.ldacq r) 0x76 [Instr.ldacq r] rfl (by decide) (mf_low r)
      ((members_76 _).trans (congrArg (fun r => some [Instr.ldacq r]) (mfOf_bits 0x76 r))) (by
        rw [show opcodeMask 0x76 [Instr.ldacq r] = 0xFFF8FFFFFFFF0DFF from rfl]; simp only [formOf]
        rcases addr_cases (r.x.toNat / 128) with h | h | h | h <;> rw [h] <;> decide +kernel) (find_head hx) hm
  · cases hw

theorem RoundTrip.ldpv (r : MF) : RoundTrip.Statement (.ldpv r) := by
  rintro (h | ⟨w, hw, _⟩)
  · obtain ⟨hx, hm⟩ := wf_parts h
    exact decode_member (.ldpv r) 0x77 [Instr.ldpv r] rfl (by decide) (mf_low r)
      ((members_77 _).trans (congrArg (fun r => some [Instr.ldpv r]) (mfOf_bits 0x77 r))) (by
        rw [show opcodeMask 0x77 [Instr.ldpv r] = 0xFFF8FFFFFFFF0DFF from rfl]; simp only [formOf]
        rcases addr_cases (r.x.toNat / 128) with h | h | h | h <;> rw [h] <;> decide +kernel) (find_head hx) hm
  · cases hw

theorem RoundTrip.pfetch (r : MF) : RoundTrip.Statement (.pfetch r) := by
  rintro (h | ⟨w, hw, _⟩)
  · obtain ⟨hx, hm⟩ := wf_parts h
    exact decode_member (.pfetch r) 0x78 [Instr.pfetch r] rfl (by decide) (mf_low r)
      ((members_78 _).trans (congrArg (fun r => some [Instr.pfetch r]) (mfOf_bits 0x78 r))) (by
        rw [show opcodeMask 0x78 [Instr.pfetch r] = 0xFFF800FFFFFF0DFF from rfl]; simp only [formOf]
        rcases addr_cases (r.x.toNat / 128) with h | h | h | h <;> rw [h] <;> decide +kernel) (find_head hx) hm
  · cases hw

theorem RoundTrip.ldg (r : MF) : RoundTrip.Statement (.ldg r) := by
  rintro (h | ⟨w, hw, _⟩)
  · obtain ⟨hx, hm⟩ := wf_parts h
    exact decode_member (.ldg r) 0x79 [Instr.ldg r] rfl (by decide) (mf_low r)
      ((members_79 _).trans (congrArg (fun r => some [Instr.ldg r]) (mfOf_bits 0x79 r))) (by
        rw [show (formOf (Instr.ldg r)).mask = (formOf (Instr.ldg ⟨0, false, 0, 0, 0, 0, 0, false, false, false, 0⟩)).mask from rfl,
          show opcodeMask 0x79 [Instr.ldg r] = opcodeMask 0x79 [Instr.ldg ⟨0, false, 0, 0, 0, 0, 0, false, false, false, 0⟩] from rfl]; decide +kernel) (find_head hx) hm
  · cases hw

theorem RoundTrip.st (r : MF) : RoundTrip.Statement (.st r) := by
  rintro (h | ⟨w, hw, _⟩)
  · obtain ⟨hx, hm⟩ := wf_parts h
    exact decode_member (.st r) 0x80 [Instr.st r] rfl (by decide) (mf_low r)
      ((members_80 _).trans (congrArg (fun r => some [Instr.st r]) (mfOf_bits 0x80 r))) (by
        rw [show opcodeMask 0x80 [Instr.st r] = 0xFFF8FFFFFFFF0FFF from rfl]; simp only [formOf]
        rcases addr_cases (r.x.toNat / 128) with h | h | h | h <;> rw [h] <;> decide +kernel) (find_head hx) hm
  · cases hw

theorem RoundTrip.st2 (r : MF) : RoundTrip.Statement (.st2 r) := by
  rintro (h | ⟨w, hw, _⟩)
  · obtain ⟨hx, hm⟩ := wf_parts h
    exact decode_member (.st2 r) 0x81 [Instr.st2 r] rfl (by decide) (mf_low r)
      ((members_81 _).trans (congrArg (fun r => some [Instr.st2 r]) (mfOf_bits 0x81 r))) (by
        rw [show opcodeMask 0x81 [Instr.st2 r] = 0xFFF8FFFFFFFF0FFF from rfl]; simp only [formOf]
        rcases addr_cases (r.x.toNat / 128) with h | h | h | h <;> rw [h] <;> decide +kernel) (find_head hx) hm
  · cases hw

theorem RoundTrip.stp (r : MF) : RoundTrip.Statement (.stp r) := by
  rintro (h | ⟨w, hw, _⟩)
  · obtain ⟨hx, hm⟩ := wf_parts h
    exact decode_member (.stp r) 0x82 [Instr.stp r] rfl (by decide) (mf_low r)
      ((members_82 _).trans (congrArg (fun r => some [Instr.stp r]) (mfOf_bits 0x82 r))) (by
        rw [show opcodeMask 0x82 [Instr.stp r] = 0xFFF8FFFFFFFFFFFF from rfl]; simp only [formOf]
        rcases addr_cases (r.x.toNat / 128) with h | h | h | h <;> rw [h] <;> decide +kernel) (find_head hx) hm
  · cases hw

theorem RoundTrip.sts (r : MF) : RoundTrip.Statement (.sts r) := by
  rintro (h | ⟨w, hw, _⟩)
  · obtain ⟨hx, hm⟩ := wf_parts h
    exact decode_member (.sts r) 0x83 [Instr.sts r] rfl (by decide) (mf_low r)
      ((members_83 _).trans (congrArg (fun r => some [Instr.sts r]) (mfOf_bits 0x83 r))) (by
        rw [show opcodeMask 0x83 [Instr.sts r] = 0xFFF8FFFFFFFF0FFF from rfl]; simp only [formOf]
        rcases addr_cases (r.x.toNat / 128) with h | h | h | h <;> rw [h] <;> decide +kernel) (find_head hx) hm
  · cases hw

theorem RoundTrip.stv (r : MF) : RoundTrip.Statement (.stv r) := by
  rintro (h | ⟨w, hw, _⟩)
  · obtain ⟨hx, hm⟩ := wf_parts h
    exact decode_member (.stv r) 0x84 [Instr.stv r] rfl (by decide) (mf_low r)
      ((members_84 _).trans (congrArg (fun r => some [Instr.stv r]) (mfOf_bits 0x84 r))) (by
        rw [show opcodeMask 0x84 [Instr.stv r] = 0xFFF8FFFFFFFF0FFF from rfl]; simp only [formOf]
        rcases addr_cases (r.x.toNat / 128) with h | h | h | h <;> rw [h] <;> decide +kernel) (find_head hx) hm
  · cases hw

theorem RoundTrip.stu (r : MF) : RoundTrip.Statement (.stu r) := by
  rintro (h | ⟨w, hw, _⟩)
  · obtain ⟨hx, hm⟩ := wf_parts h
    exact decode_member (.stu r) 0x85 [Instr.stu r] rfl (by decide) (mf_low r)
      ((members_85 _).trans (congrArg (fun r => some [Instr.stu r]) (mfOf_bits 0x85 r))) (by
        rw [show (formOf (Instr.stu r)).mask = (formOf (Instr.stu ⟨0, false, 0, 0, 0, 0, 0, false, false, false, 0⟩)).mask from rfl,
          show opcodeMask 0x85 [Instr.stu r] = opcodeMask 0x85 [Instr.stu ⟨0, false, 0, 0, 0, 0, 0, false, false, false, 0⟩] from rfl]; decide +kernel) (find_head hx) hm
  · cases hw

theorem RoundTrip.strel (r : MF) : RoundTrip.Statement (.strel r) := by
  rintro (h | ⟨w, hw, _⟩)
  · obtain ⟨hx, hm⟩ := wf_parts h
    exact decode_member (.strel r) 0x86 [Instr.strel r] rfl (by decide) (mf_low r)
      ((members_86 _).trans (congrArg (fun r => some [Instr.strel r]) (mfOf_bits 0x86 r))) (by
        rw [show opcodeMask 0x86 [Instr.strel r] = 0xFFF8FFFFFFFF0FFF from rfl]; simp only [formOf]
        rcases addr_cases (r.x.toNat / 128) with h | h | h | h <;> rw [h] <;> decide +kernel) (find_head hx) hm
  · cases hw

theorem RoundTrip.stpv (r : MF) : RoundTrip.Statement (.stpv r) := by
  rintro (h | ⟨w, hw, _⟩)
  · obtain ⟨hx, hm⟩ := wf_parts h
    exact decode_member (.stpv r) 0x87 [Instr.stpv r] rfl (by decide) (mf_low r)
      ((members_87 _).trans (congrArg (fun r => some [Instr.stpv r]) (mfOf_bits 0x87 r))) (by
        rw [show opcodeMask 0x87 [Instr.stpv r] = 0xFFF8FFFFFFFF0FFF from rfl]; simp only [formOf]
        rcases addr_cases (r.x.toNat / 128) with h | h | h | h <;> rw [h] <;> decide +kernel) (find_head hx) hm
  · cases hw

theorem RoundTrip.mst (r : MF) : RoundTrip.Statement (.mst r) := by
  rintro (h | ⟨w, hw, _⟩)
  · obtain ⟨hx, hm⟩ := wf_parts h
    exact decode_member (.mst r) 0x88 [Instr.mst r] rfl (by decide) (mf_low r)
      ((members_88 _).trans (congrArg (fun r => some [Instr.mst r]) (mfOf_bits 0x88 r))) (by
        rw [show (formOf (Instr.mst r)).mask = (formOf (Instr.mst ⟨0, false, 0, 0, 0, 0, 0, false, false, false, 0⟩)).mask from rfl,
          show opcodeMask 0x88 [Instr.mst r] = opcodeMask 0x88 [Instr.mst ⟨0, false, 0, 0, 0, 0, 0, false, false, false, 0⟩] from rfl]; decide +kernel) (find_head hx) hm
  · cases hw

theorem RoundTrip.msto (r : MF) : RoundTrip.Statement (.msto r) := by
  rintro (h | ⟨w, hw, _⟩)
  · obtain ⟨hx, hm⟩ := wf_parts h
    exact decode_member (.msto r) 0x89 [Instr.msto r] rfl (by decide) (mf_low r)
      ((members_89 _).trans (congrArg (fun r => some [Instr.msto r]) (mfOf_bits 0x89 r))) (by
        rw [show (formOf (Instr.msto r)).mask = (formOf (Instr.msto ⟨0, false, 0, 0, 0, 0, 0, false, false, false, 0⟩)).mask from rfl,
          show opcodeMask 0x89 [Instr.msto r] = opcodeMask 0x89 [Instr.msto ⟨0, false, 0, 0, 0, 0, 0, false, false, false, 0⟩] from rfl]; decide +kernel) (find_head hx) hm
  · cases hw

theorem RoundTrip.stsc (r : MF) : RoundTrip.Statement (.stsc r) := by
  rintro (h | ⟨w, hw, _⟩)
  · obtain ⟨hx, hm⟩ := wf_parts h
    exact decode_member (.stsc r) 0x8A [Instr.stsc r] rfl (by decide) (mf_low r)
      ((members_8A _).trans (congrArg (fun r => some [Instr.stsc r]) (mfOf_bits 0x8A r))) (by
        rw [show (formOf (Instr.stsc r)).mask = (formOf (Instr.stsc ⟨0, false, 0, 0, 0, 0, 0, false, false, false, 0⟩)).mask from rfl,
          show opcodeMask 0x8A [Instr.stsc r] = opcodeMask 0x8A [Instr.stsc ⟨0, false, 0, 0, 0, 0, 0, false, false, false, 0⟩] from rfl]; decide +kernel) (find_head hx) hm
  · cases hw

theorem RoundTrip.atom (r : MF) : RoundTrip.Statement (.atom r) := by
  rintro (h | ⟨w, hw, _⟩)
  · obtain ⟨hx, hm⟩ := wf_parts h
    exact decode_member (.atom r) 0x90 [Instr.atom r] rfl (by decide) (mf_low r)
      ((members_90 _).trans (congrArg (fun r => some [Instr.atom r]) (mfOf_bits 0x90 r))) (by
        rw [show (formOf (Instr.atom r)).mask = (formOf (Instr.atom ⟨0, false, 0, 0, 0, 0, 0, false, false, false, 0⟩)).mask from rfl,
          show opcodeMask 0x90 [Instr.atom r] = opcodeMask 0x90 [Instr.atom ⟨0, false, 0, 0, 0, 0, 0, false, false, false, 0⟩] from rfl]; decide +kernel) (find_head hx) hm
  · cases hw

theorem RoundTrip.acas (r : MF) : RoundTrip.Statement (.acas r) := by
  rintro (h | ⟨w, hw, _⟩)
  · obtain ⟨hx, hm⟩ := wf_parts h
    exact decode_member (.acas r) 0x91 [Instr.acas r] rfl (by decide) (mf_low r)
      ((members_91 _).trans (congrArg (fun r => some [Instr.acas r]) (mfOf_bits 0x91 r))) (by
        rw [show (formOf (Instr.acas r)).mask = (formOf (Instr.acas ⟨0, false, 0, 0, 0, 0, 0, false, false, false, 0⟩)).mask from rfl,
          show opcodeMask 0x91 [Instr.acas r] = opcodeMask 0x91 [Instr.acas ⟨0, false, 0, 0, 0, 0, 0, false, false, false, 0⟩] from rfl]; decide +kernel) (find_head hx) hm
  · cases hw

theorem RoundTrip.atoms (r : MF) : RoundTrip.Statement (.atoms r) := by
  rintro (h | ⟨w, hw, _⟩)
  · obtain ⟨hx, hm⟩ := wf_parts h
    exact decode_member (.atoms r) 0x92 [Instr.atoms r] rfl (by decide) (mf_low r)
      ((members_92 _).trans (congrArg (fun r => some [Instr.atoms r]) (mfOf_bits 0x92 r))) (by
        rw [show (formOf (Instr.atoms r)).mask = (formOf (Instr.atoms ⟨0, false, 0, 0, 0, 0, 0, false, false, false, 0⟩)).mask from rfl,
          show opcodeMask 0x92 [Instr.atoms r] = opcodeMask 0x92 [Instr.atoms ⟨0, false, 0, 0, 0, 0, 0, false, false, false, 0⟩] from rfl]; decide +kernel) (find_head hx) hm
  · cases hw

theorem RoundTrip.fatom (r : MF) : RoundTrip.Statement (.fatom r) := by
  rintro (h | ⟨w, hw, _⟩)
  · obtain ⟨hx, hm⟩ := wf_parts h
    exact decode_member (.fatom r) 0x93 [Instr.fatom r] rfl (by decide) (mf_low r)
      ((members_93 _).trans (congrArg (fun r => some [Instr.fatom r]) (mfOf_bits 0x93 r))) (by
        rw [show (formOf (Instr.fatom r)).mask = (formOf (Instr.fatom ⟨0, false, 0, 0, 0, 0, 0, false, false, false, 0⟩)).mask from rfl,
          show opcodeMask 0x93 [Instr.fatom r] = opcodeMask 0x93 [Instr.fatom ⟨0, false, 0, 0, 0, 0, 0, false, false, false, 0⟩] from rfl]; decide +kernel) (find_head hx) hm
  · cases hw

theorem RoundTrip.fence (r : RRR) : RoundTrip.Statement (.fence r) := by
  rintro (h | ⟨w, hw, _⟩)
  · obtain ⟨hx, hm⟩ := wf_parts h
    exact decode_member (.fence r) 0x94 [Instr.fence r] rfl (by decide) (rrr_low r)
      ((members_94 _).trans (congrArg (fun r => some [Instr.fence r]) (rrrOf_bits 0x94 r))) (by
        rw [show opcodeMask 0x94 [Instr.fence r] = 0xFFF8FF00000001FF from rfl]; simp only [formOf, immEw]; split <;> decide +kernel) (find_head hx) hm
  · cases hw

theorem RoundTrip.atomv (r : MF) : RoundTrip.Statement (.atomv r) := by
  rintro (h | ⟨w, hw, _⟩)
  · obtain ⟨hx, hm⟩ := wf_parts h
    exact decode_member (.atomv r) 0x95 [Instr.atomv r] rfl (by decide) (mf_low r)
      ((members_95 _).trans (congrArg (fun r => some [Instr.atomv r]) (mfOf_bits 0x95 r))) (by
        rw [show (formOf (Instr.atomv r)).mask = (formOf (Instr.atomv ⟨0, false, 0, 0, 0, 0, 0, false, false, false, 0⟩)).mask from rfl,
          show opcodeMask 0x95 [Instr.atomv r] = opcodeMask 0x95 [Instr.atomv ⟨0, false, 0, 0, 0, 0, 0, false, false, false, 0⟩] from rfl]; decide +kernel) (find_head hx) hm
  · cases hw

theorem RoundTrip.jpost (r : RRR) : RoundTrip.Statement (.jpost r) := by
  rintro (h | ⟨w, hw, _⟩)
  · obtain ⟨hx, hm⟩ := wf_parts h
    exact decode_member (.jpost r) 0xA0 [Instr.jpost r] rfl (by decide) (rrr_low r)
      ((members_A0 _).trans (congrArg (fun r => some [Instr.jpost r]) (rrrOf_bits 0xA0 r))) (by
        rw [show (formOf (Instr.jpost r)).mask = (formOf (Instr.jpost ⟨0, false, 0, 0, 0, 0, 0, false, false, false, 0⟩)).mask from rfl,
          show opcodeMask 0xA0 [Instr.jpost r] = opcodeMask 0xA0 [Instr.jpost ⟨0, false, 0, 0, 0, 0, 0, false, false, false, 0⟩] from rfl]; decide +kernel) (find_head hx) hm
  · cases hw

theorem RoundTrip.chsetRing (r : RRR) : RoundTrip.Statement (.chsetRing r) := by
  rintro (h | ⟨w, hw, _⟩)
  · obtain ⟨hx, hm⟩ := wf_parts h
    exact decode_member (.chsetRing r) 0xA1 [Instr.chsetRing r, Instr.chsetChain r] rfl (by decide) (rrr_low r)
      ((members_A1 _).trans (congrArg (fun r => some [Instr.chsetRing r, Instr.chsetChain r]) (rrrOf_bits 0xA1 r))) (by
        rw [show (formOf (Instr.chsetRing r)).mask = (formOf (Instr.chsetRing ⟨0, false, 0, 0, 0, 0, 0, false, false, false, 0⟩)).mask from rfl,
          show opcodeMask 0xA1 [Instr.chsetRing r, Instr.chsetChain r] = 0xFFF800FFFFFF0FFF from rfl]; decide +kernel) (find_head hx) hm
  · cases hw

theorem RoundTrip.chsetChain (r : RRR) : RoundTrip.Statement (.chsetChain r) := by
  rintro (h | ⟨w, hw, _⟩)
  · obtain ⟨hx, hm⟩ := wf_parts h
    exact decode_member (.chsetChain r) 0xA1 [Instr.chsetRing r, Instr.chsetChain r] rfl (by decide) (rrr_low r)
      ((members_A1 _).trans (congrArg (fun r => some [Instr.chsetRing r, Instr.chsetChain r]) (rrrOf_bits 0xA1 r))) (by
        rw [show (formOf (Instr.chsetChain r)).mask = (formOf (Instr.chsetChain ⟨0, false, 0, 0, 0, 0, 0, false, false, false, 0⟩)).mask from rfl,
          show opcodeMask 0xA1 [Instr.chsetRing r, Instr.chsetChain r] = 0xFFF800FFFFFF0FFF from rfl]; decide +kernel) (find_tail (by simp [xLegal] at hx ⊢; omega) (find_head hx)) hm
  · cases hw

theorem RoundTrip.twait (r : RI) : RoundTrip.Statement (.twait r) := by
  rintro (h | ⟨w, hw, _⟩)
  · obtain ⟨hx, hm⟩ := wf_parts h
    exact decode_member (.twait r) 0xA2 [Instr.twait r] rfl (by decide) (ri_low r)
      ((members_A2 _).trans (congrArg (fun r => some [Instr.twait r]) (riOf_bits 0xA2 r))) (by
        rw [show (formOf (Instr.twait r)).mask = (formOf (Instr.twait ⟨0, false, 0, 0, 0, 0, false, 0⟩)).mask from rfl,
          show opcodeMask 0xA2 [Instr.twait r] = opcodeMask 0xA2 [Instr.twait ⟨0, false, 0, 0, 0, 0, false, 0⟩] from rfl]; decide +kernel) (find_head hx) hm
  · cases hw

theorem RoundTrip.sqwait (r : RI) : RoundTrip.Statement (.sqwait r) := by
  rintro (h | ⟨w, hw, _⟩)
  · obtain ⟨hx, hm⟩ := wf_parts h
    exact decode_member (.sqwait r) 0xA3 [Instr.sqwait r] rfl (by decide) (ri_low r)
      ((members_A3 _).trans (congrArg (fun r => some [Instr.sqwait r]) (riOf_bits 0xA3 r))) (by
        rw [show (formOf (Instr.sqwait r)).mask = (formOf (Instr.sqwait ⟨0, false, 0, 0, 0, 0, false, 0⟩)).mask from rfl,
          show opcodeMask 0xA3 [Instr.sqwait r] = opcodeMask 0xA3 [Instr.sqwait ⟨0, false, 0, 0, 0, 0, false, 0⟩] from rfl]; decide +kernel) (find_head hx) hm
  · cases hw

theorem RoundTrip.presq (r : MF) : RoundTrip.Statement (.presq r) := by
  rintro (h | ⟨w, hw, _⟩)
  · obtain ⟨hx, hm⟩ := wf_parts h
    exact decode_member (.presq r) 0xA4 [Instr.presq r] rfl (by decide) (mf_low r)
      ((members_A4 _).trans (congrArg (fun r => some [Instr.presq r]) (mfOf_bits 0xA4 r))) (by
        rw [show opcodeMask 0xA4 [Instr.presq r] = 0xFFF8FFFFFFFF0DFF from rfl]; simp only [formOf]
        rcases addr_cases (r.x.toNat / 128) with h | h | h | h <;> rw [h] <;> decide +kernel) (find_head hx) hm
  · cases hw

theorem RoundTrip.sinv (r : MF) : RoundTrip.Statement (.sinv r) := by
  rintro (h | ⟨w, hw, _⟩)
  · obtain ⟨hx, hm⟩ := wf_parts h
    exact decode_member (.sinv r) 0xA5 [Instr.sinv r, Instr.sinvSet r] rfl (by decide) (mf_low r)
      ((members_A5 _).trans (congrArg (fun r => some [Instr.sinv r, Instr.sinvSet r]) (mfOf_bits 0xA5 r))) (by
        rw [show (formOf (Instr.sinv r)).mask = (formOf (Instr.sinv ⟨0, false, 0, 0, 0, 0, 0, false, false, false, 0⟩)).mask from rfl,
          show opcodeMask 0xA5 [Instr.sinv r, Instr.sinvSet r] = opcodeMask 0xA5 [Instr.sinv ⟨0, false, 0, 0, 0, 0, 0, false, false, false, 0⟩, Instr.sinvSet ⟨0, false, 0, 0, 0, 0, 0, false, false, false, 0⟩] from rfl]; decide +kernel) (find_head hx) hm
  · cases hw

theorem RoundTrip.sinvSet (r : MF) : RoundTrip.Statement (.sinvSet r) := by
  rintro (h | ⟨w, hw, _⟩)
  · obtain ⟨hx, hm⟩ := wf_parts h
    exact decode_member (.sinvSet r) 0xA5 [Instr.sinv r, Instr.sinvSet r] rfl (by decide) (mf_low r)
      ((members_A5 _).trans (congrArg (fun r => some [Instr.sinv r, Instr.sinvSet r]) (mfOf_bits 0xA5 r))) (by
        rw [show (formOf (Instr.sinvSet r)).mask = (formOf (Instr.sinvSet ⟨0, false, 0, 0, 0, 0, 0, false, false, false, 0⟩)).mask from rfl,
          show opcodeMask 0xA5 [Instr.sinv r, Instr.sinvSet r] = opcodeMask 0xA5 [Instr.sinv ⟨0, false, 0, 0, 0, 0, 0, false, false, false, 0⟩, Instr.sinvSet ⟨0, false, 0, 0, 0, 0, 0, false, false, false, 0⟩] from rfl]; decide +kernel) (find_tail (by simp [xLegal] at hx ⊢; omega) (find_head hx)) hm
  · cases hw

theorem RoundTrip.tdesc (r : RRR) : RoundTrip.Statement (.tdesc r) := by
  rintro (h | ⟨w, hw, _⟩)
  · obtain ⟨hx, hm⟩ := wf_parts h
    exact decode_member (.tdesc r) 0xA6 [Instr.tdesc r] rfl (by decide) (rrr_low r)
      ((members_A6 _).trans (congrArg (fun r => some [Instr.tdesc r]) (rrrOf_bits 0xA6 r))) (by
        rw [show (formOf (Instr.tdesc r)).mask = (formOf (Instr.tdesc ⟨0, false, 0, 0, 0, 0, 0, false, false, false, 0⟩)).mask from rfl,
          show opcodeMask 0xA6 [Instr.tdesc r] = opcodeMask 0xA6 [Instr.tdesc ⟨0, false, 0, 0, 0, 0, 0, false, false, false, 0⟩] from rfl]; decide +kernel) (find_head hx) hm
  · cases hw

theorem RoundTrip.tmod (r : RRR) : RoundTrip.Statement (.tmod r) := by
  rintro (h | ⟨w, hw, _⟩)
  · obtain ⟨hx, hm⟩ := wf_parts h
    exact decode_member (.tmod r) 0xA7 [Instr.tmod r] rfl (by decide) (rrr_low r)
      ((members_A7 _).trans (congrArg (fun r => some [Instr.tmod r]) (rrrOf_bits 0xA7 r))) (by
        rw [show (formOf (Instr.tmod r)).mask = (formOf (Instr.tmod ⟨0, false, 0, 0, 0, 0, 0, false, false, false, 0⟩)).mask from rfl,
          show opcodeMask 0xA7 [Instr.tmod r] = opcodeMask 0xA7 [Instr.tmod ⟨0, false, 0, 0, 0, 0, 0, false, false, false, 0⟩] from rfl]; decide +kernel) (find_head hx) hm
  · cases hw

theorem RoundTrip.jcancel (r : RRR) : RoundTrip.Statement (.jcancel r) := by
  rintro (h | ⟨w, hw, _⟩)
  · obtain ⟨hx, hm⟩ := wf_parts h
    exact decode_member (.jcancel r) 0xA8 [Instr.jcancel r] rfl (by decide) (rrr_low r)
      ((members_A8 _).trans (congrArg (fun r => some [Instr.jcancel r]) (rrrOf_bits 0xA8 r))) (by
        rw [show (formOf (Instr.jcancel r)).mask = (formOf (Instr.jcancel ⟨0, false, 0, 0, 0, 0, 0, false, false, false, 0⟩)).mask from rfl,
          show opcodeMask 0xA8 [Instr.jcancel r] = opcodeMask 0xA8 [Instr.jcancel ⟨0, false, 0, 0, 0, 0, 0, false, false, false, 0⟩] from rfl]; decide +kernel) (find_head hx) hm
  · cases hw

theorem RoundTrip.qpush (r : RRR) : RoundTrip.Statement (.qpush r) := by
  rintro (h | ⟨w, hw, _⟩)
  · obtain ⟨hx, hm⟩ := wf_parts h
    exact decode_member (.qpush r) 0xA9 [Instr.qpush r] rfl (by decide) (rrr_low r)
      ((members_A9 _).trans (congrArg (fun r => some [Instr.qpush r]) (rrrOf_bits 0xA9 r))) (by
        rw [show (formOf (Instr.qpush r)).mask = (formOf (Instr.qpush ⟨0, false, 0, 0, 0, 0, 0, false, false, false, 0⟩)).mask from rfl,
          show opcodeMask 0xA9 [Instr.qpush r] = opcodeMask 0xA9 [Instr.qpush ⟨0, false, 0, 0, 0, 0, 0, false, false, false, 0⟩] from rfl]; decide +kernel) (find_head hx) hm
  · cases hw

theorem RoundTrip.mma (r : RRR) : RoundTrip.Statement (.mma r) := by
  rintro (h | ⟨w, hw, _⟩)
  · obtain ⟨hx, hm⟩ := wf_parts h
    exact decode_member (.mma r) 0xB0 [Instr.mma r, Instr.mmaCo r] rfl (by decide) (rrr_low r)
      ((members_B0 _).trans (congrArg (fun r => some [Instr.mma r, Instr.mmaCo r]) (rrrOf_bits 0xB0 r))) (by
        rw [show (formOf (Instr.mma r)).mask = (formOf (Instr.mma ⟨0, false, 0, 0, 0, 0, 0, false, false, false, 0⟩)).mask from rfl,
          show opcodeMask 0xB0 [Instr.mma r, Instr.mmaCo r] = 0xFFF8FFFFFFFFF3FF from rfl]; decide +kernel) (find_head hx) hm
  · cases hw

theorem RoundTrip.mmaCo (r : RRR) : RoundTrip.Statement (.mmaCo r) := by
  rintro (h | ⟨w, hw, _⟩)
  · obtain ⟨hx, hm⟩ := wf_parts h
    exact decode_member (.mmaCo r) 0xB0 [Instr.mma r, Instr.mmaCo r] rfl (by decide) (rrr_low r)
      ((members_B0 _).trans (congrArg (fun r => some [Instr.mma r, Instr.mmaCo r]) (rrrOf_bits 0xB0 r))) (by
        rw [show (formOf (Instr.mmaCo r)).mask = (formOf (Instr.mmaCo ⟨0, false, 0, 0, 0, 0, 0, false, false, false, 0⟩)).mask from rfl,
          show opcodeMask 0xB0 [Instr.mma r, Instr.mmaCo r] = 0xFFF8FFFFFFFFF3FF from rfl]; decide +kernel) (find_tail (by simp [xLegal] at hx ⊢; omega) (find_head hx)) hm
  · cases hw

theorem RoundTrip.mmas (r : RRR) : RoundTrip.Statement (.mmas r) := by
  rintro (h | ⟨w, hw, _⟩)
  · obtain ⟨hx, hm⟩ := wf_parts h
    exact decode_member (.mmas r) 0xB1 [Instr.mmas r, Instr.mmasCo r] rfl (by decide) (rrr_low r)
      ((members_B1 _).trans (congrArg (fun r => some [Instr.mmas r, Instr.mmasCo r]) (rrrOf_bits 0xB1 r))) (by
        rw [show (formOf (Instr.mmas r)).mask = (formOf (Instr.mmas ⟨0, false, 0, 0, 0, 0, 0, false, false, false, 0⟩)).mask from rfl,
          show opcodeMask 0xB1 [Instr.mmas r, Instr.mmasCo r] = 0xFFF8FFFFFFFFF3FF from rfl]; decide +kernel) (find_head hx) hm
  · cases hw

theorem RoundTrip.mmasCo (r : RRR) : RoundTrip.Statement (.mmasCo r) := by
  rintro (h | ⟨w, hw, _⟩)
  · obtain ⟨hx, hm⟩ := wf_parts h
    exact decode_member (.mmasCo r) 0xB1 [Instr.mmas r, Instr.mmasCo r] rfl (by decide) (rrr_low r)
      ((members_B1 _).trans (congrArg (fun r => some [Instr.mmas r, Instr.mmasCo r]) (rrrOf_bits 0xB1 r))) (by
        rw [show (formOf (Instr.mmasCo r)).mask = (formOf (Instr.mmasCo ⟨0, false, 0, 0, 0, 0, 0, false, false, false, 0⟩)).mask from rfl,
          show opcodeMask 0xB1 [Instr.mmas r, Instr.mmasCo r] = 0xFFF8FFFFFFFFF3FF from rfl]; decide +kernel) (find_tail (by simp [xLegal] at hx ⊢; omega) (find_head hx)) hm
  · cases hw

theorem RoundTrip.azero (r : RRR) : RoundTrip.Statement (.azero r) := by
  rintro (h | ⟨w, hw, _⟩)
  · obtain ⟨hx, hm⟩ := wf_parts h
    exact decode_member (.azero r) 0xB2 [Instr.azero r] rfl (by decide) (rrr_low r)
      ((members_B2 _).trans (congrArg (fun r => some [Instr.azero r]) (rrrOf_bits 0xB2 r))) (by
        rw [show (formOf (Instr.azero r)).mask = (formOf (Instr.azero ⟨0, false, 0, 0, 0, 0, 0, false, false, false, 0⟩)).mask from rfl,
          show opcodeMask 0xB2 [Instr.azero r] = opcodeMask 0xB2 [Instr.azero ⟨0, false, 0, 0, 0, 0, 0, false, false, false, 0⟩] from rfl]; decide +kernel) (find_head hx) hm
  · cases hw

theorem RoundTrip.arel (r : RRR) : RoundTrip.Statement (.arel r) := by
  rintro (h | ⟨w, hw, _⟩)
  · obtain ⟨hx, hm⟩ := wf_parts h
    exact decode_member (.arel r) 0xB3 [Instr.arel r] rfl (by decide) (rrr_low r)
      ((members_B3 _).trans (congrArg (fun r => some [Instr.arel r]) (rrrOf_bits 0xB3 r))) (by
        rw [show (formOf (Instr.arel r)).mask = (formOf (Instr.arel ⟨0, false, 0, 0, 0, 0, 0, false, false, false, 0⟩)).mask from rfl,
          show opcodeMask 0xB3 [Instr.arel r] = opcodeMask 0xB3 [Instr.arel ⟨0, false, 0, 0, 0, 0, 0, false, false, false, 0⟩] from rfl]; decide +kernel) (find_head hx) hm
  · cases hw

theorem RoundTrip.asto (r : RRR) : RoundTrip.Statement (.asto r) := by
  rintro (h | ⟨w, hw, _⟩)
  · obtain ⟨hx, hm⟩ := wf_parts h
    exact decode_member (.asto r) 0xB4 [Instr.asto r] rfl (by decide) (rrr_low r)
      ((members_B4 _).trans (congrArg (fun r => some [Instr.asto r]) (rrrOf_bits 0xB4 r))) (by
        rw [show (formOf (Instr.asto r)).mask = (formOf (Instr.asto ⟨0, false, 0, 0, 0, 0, 0, false, false, false, 0⟩)).mask from rfl,
          show opcodeMask 0xB4 [Instr.asto r] = opcodeMask 0xB4 [Instr.asto ⟨0, false, 0, 0, 0, 0, 0, false, false, false, 0⟩] from rfl]; decide +kernel) (find_head hx) hm
  · cases hw

theorem RoundTrip.aldr (r : RRR) : RoundTrip.Statement (.aldr r) := by
  rintro (h | ⟨w, hw, _⟩)
  · obtain ⟨hx, hm⟩ := wf_parts h
    exact decode_member (.aldr r) 0xB5 [Instr.aldr r] rfl (by decide) (rrr_low r)
      ((members_B5 _).trans (congrArg (fun r => some [Instr.aldr r]) (rrrOf_bits 0xB5 r))) (by
        rw [show (formOf (Instr.aldr r)).mask = (formOf (Instr.aldr ⟨0, false, 0, 0, 0, 0, 0, false, false, false, 0⟩)).mask from rfl,
          show opcodeMask 0xB5 [Instr.aldr r] = opcodeMask 0xB5 [Instr.aldr ⟨0, false, 0, 0, 0, 0, 0, false, false, false, 0⟩] from rfl]; decide +kernel) (find_head hx) hm
  · cases hw

theorem RoundTrip.amovv (r : RRR) : RoundTrip.Statement (.amovv r) := by
  rintro (h | ⟨w, hw, _⟩)
  · obtain ⟨hx, hm⟩ := wf_parts h
    exact decode_member (.amovv r) 0xB6 [Instr.amovv r] rfl (by decide) (rrr_low r)
      ((members_B6 _).trans (congrArg (fun r => some [Instr.amovv r]) (rrrOf_bits 0xB6 r))) (by
        rw [show (formOf (Instr.amovv r)).mask = (formOf (Instr.amovv ⟨0, false, 0, 0, 0, 0, 0, false, false, false, 0⟩)).mask from rfl,
          show opcodeMask 0xB6 [Instr.amovv r] = opcodeMask 0xB6 [Instr.amovv ⟨0, false, 0, 0, 0, 0, 0, false, false, false, 0⟩] from rfl]; decide +kernel) (find_head hx) hm
  · cases hw

theorem RoundTrip.aqry (r : RRR) : RoundTrip.Statement (.aqry r) := by
  rintro (h | ⟨w, hw, _⟩)
  · obtain ⟨hx, hm⟩ := wf_parts h
    exact decode_member (.aqry r) 0xB7 [Instr.aqry r] rfl (by decide) (rrr_low r)
      ((members_B7 _).trans (congrArg (fun r => some [Instr.aqry r]) (rrrOf_bits 0xB7 r))) (by
        rw [show (formOf (Instr.aqry r)).mask = (formOf (Instr.aqry ⟨0, false, 0, 0, 0, 0, 0, false, false, false, 0⟩)).mask from rfl,
          show opcodeMask 0xB7 [Instr.aqry r] = opcodeMask 0xB7 [Instr.aqry ⟨0, false, 0, 0, 0, 0, 0, false, false, false, 0⟩] from rfl]; decide +kernel) (find_head hx) hm
  · cases hw

theorem RoundTrip.bsync (r : RI) : RoundTrip.Statement (.bsync r) := by
  rintro (h | ⟨w, hw, _⟩)
  · obtain ⟨hx, hm⟩ := wf_parts h
    exact decode_member (.bsync r) 0xC0 [Instr.bsync r] rfl (by decide) (ri_low r)
      ((members_C0 _).trans (congrArg (fun r => some [Instr.bsync r]) (riOf_bits 0xC0 r))) (by
        rw [show (formOf (Instr.bsync r)).mask = (formOf (Instr.bsync ⟨0, false, 0, 0, 0, 0, false, 0⟩)).mask from rfl,
          show opcodeMask 0xC0 [Instr.bsync r] = opcodeMask 0xC0 [Instr.bsync ⟨0, false, 0, 0, 0, 0, false, 0⟩] from rfl]; decide +kernel) (find_head hx) hm
  · cases hw

theorem RoundTrip.barr (r : RI) : RoundTrip.Statement (.barr r) := by
  rintro (h | ⟨w, hw, _⟩)
  · obtain ⟨hx, hm⟩ := wf_parts h
    exact decode_member (.barr r) 0xC1 [Instr.barr r] rfl (by decide) (ri_low r)
      ((members_C1 _).trans (congrArg (fun r => some [Instr.barr r]) (riOf_bits 0xC1 r))) (by
        rw [show (formOf (Instr.barr r)).mask = (formOf (Instr.barr ⟨0, false, 0, 0, 0, 0, false, 0⟩)).mask from rfl,
          show opcodeMask 0xC1 [Instr.barr r] = opcodeMask 0xC1 [Instr.barr ⟨0, false, 0, 0, 0, 0, false, 0⟩] from rfl]; decide +kernel) (find_head hx) hm
  · cases hw

theorem RoundTrip.bcast (r : RRR) : RoundTrip.Statement (.bcast r) := by
  rintro (h | ⟨w, hw, _⟩)
  · obtain ⟨hx, hm⟩ := wf_parts h
    exact decode_member (.bcast r) 0xC2 [Instr.bcast r] rfl (by decide) (rrr_low r)
      ((members_C2 _).trans (congrArg (fun r => some [Instr.bcast r]) (rrrOf_bits 0xC2 r))) (by
        rw [show (formOf (Instr.bcast r)).mask = (formOf (Instr.bcast ⟨0, false, 0, 0, 0, 0, 0, false, false, false, 0⟩)).mask from rfl,
          show opcodeMask 0xC2 [Instr.bcast r] = opcodeMask 0xC2 [Instr.bcast ⟨0, false, 0, 0, 0, 0, 0, false, false, false, 0⟩] from rfl]; decide +kernel) (find_head hx) hm
  · cases hw

theorem RoundTrip.brecv (r : RRR) : RoundTrip.Statement (.brecv r) := by
  rintro (h | ⟨w, hw, _⟩)
  · obtain ⟨hx, hm⟩ := wf_parts h
    exact decode_member (.brecv r) 0xC3 [Instr.brecv r] rfl (by decide) (rrr_low r)
      ((members_C3 _).trans (congrArg (fun r => some [Instr.brecv r]) (rrrOf_bits 0xC3 r))) (by
        rw [show (formOf (Instr.brecv r)).mask = (formOf (Instr.brecv ⟨0, false, 0, 0, 0, 0, 0, false, false, false, 0⟩)).mask from rfl,
          show opcodeMask 0xC3 [Instr.brecv r] = opcodeMask 0xC3 [Instr.brecv ⟨0, false, 0, 0, 0, 0, 0, false, false, false, 0⟩] from rfl]; decide +kernel) (find_head hx) hm
  · cases hw

theorem RoundTrip.msend (r : RRR) : RoundTrip.Statement (.msend r) := by
  rintro (h | ⟨w, hw, _⟩)
  · obtain ⟨hx, hm⟩ := wf_parts h
    exact decode_member (.msend r) 0xC4 [Instr.msend r] rfl (by decide) (rrr_low r)
      ((members_C4 _).trans (congrArg (fun r => some [Instr.msend r]) (rrrOf_bits 0xC4 r))) (by
        rw [show (formOf (Instr.msend r)).mask = (formOf (Instr.msend ⟨0, false, 0, 0, 0, 0, 0, false, false, false, 0⟩)).mask from rfl,
          show opcodeMask 0xC4 [Instr.msend r] = opcodeMask 0xC4 [Instr.msend ⟨0, false, 0, 0, 0, 0, 0, false, false, false, 0⟩] from rfl]; decide +kernel) (find_head hx) hm
  · cases hw

theorem RoundTrip.mpost (r : RRR) : RoundTrip.Statement (.mpost r) := by
  rintro (h | ⟨w, hw, _⟩)
  · obtain ⟨hx, hm⟩ := wf_parts h
    exact decode_member (.mpost r) 0xC5 [Instr.mpost r] rfl (by decide) (rrr_low r)
      ((members_C5 _).trans (congrArg (fun r => some [Instr.mpost r]) (rrrOf_bits 0xC5 r))) (by
        rw [show (formOf (Instr.mpost r)).mask = (formOf (Instr.mpost ⟨0, false, 0, 0, 0, 0, 0, false, false, false, 0⟩)).mask from rfl,
          show opcodeMask 0xC5 [Instr.mpost r] = opcodeMask 0xC5 [Instr.mpost ⟨0, false, 0, 0, 0, 0, 0, false, false, false, 0⟩] from rfl]; decide +kernel) (find_head hx) hm
  · cases hw

theorem RoundTrip.mtest (r : RRR) : RoundTrip.Statement (.mtest r) := by
  rintro (h | ⟨w, hw, _⟩)
  · obtain ⟨hx, hm⟩ := wf_parts h
    exact decode_member (.mtest r) 0xC6 [Instr.mtest r] rfl (by decide) (rrr_low r)
      ((members_C6 _).trans (congrArg (fun r => some [Instr.mtest r]) (rrrOf_bits 0xC6 r))) (by
        rw [show (formOf (Instr.mtest r)).mask = (formOf (Instr.mtest ⟨0, false, 0, 0, 0, 0, 0, false, false, false, 0⟩)).mask from rfl,
          show opcodeMask 0xC6 [Instr.mtest r] = opcodeMask 0xC6 [Instr.mtest ⟨0, false, 0, 0, 0, 0, 0, false, false, false, 0⟩] from rfl]; decide +kernel) (find_head hx) hm
  · cases hw

theorem RoundTrip.mprobe (r : RRR) : RoundTrip.Statement (.mprobe r) := by
  rintro (h | ⟨w, hw, _⟩)
  · obtain ⟨hx, hm⟩ := wf_parts h
    exact decode_member (.mprobe r) 0xC7 [Instr.mprobe r] rfl (by decide) (rrr_low r)
      ((members_C7 _).trans (congrArg (fun r => some [Instr.mprobe r]) (rrrOf_bits 0xC7 r))) (by
        rw [show (formOf (Instr.mprobe r)).mask = (formOf (Instr.mprobe ⟨0, false, 0, 0, 0, 0, 0, false, false, false, 0⟩)).mask from rfl,
          show opcodeMask 0xC7 [Instr.mprobe r] = opcodeMask 0xC7 [Instr.mprobe ⟨0, false, 0, 0, 0, 0, 0, false, false, false, 0⟩] from rfl]; decide +kernel) (find_head hx) hm
  · cases hw

theorem RoundTrip.mcancel (r : RRR) : RoundTrip.Statement (.mcancel r) := by
  rintro (h | ⟨w, hw, _⟩)
  · obtain ⟨hx, hm⟩ := wf_parts h
    exact decode_member (.mcancel r) 0xC8 [Instr.mcancel r] rfl (by decide) (rrr_low r)
      ((members_C8 _).trans (congrArg (fun r => some [Instr.mcancel r]) (rrrOf_bits 0xC8 r))) (by
        rw [show (formOf (Instr.mcancel r)).mask = (formOf (Instr.mcancel ⟨0, false, 0, 0, 0, 0, 0, false, false, false, 0⟩)).mask from rfl,
          show opcodeMask 0xC8 [Instr.mcancel r] = opcodeMask 0xC8 [Instr.mcancel ⟨0, false, 0, 0, 0, 0, 0, false, false, false, 0⟩] from rfl]; decide +kernel) (find_head hx) hm
  · cases hw

theorem RoundTrip.asend (r : RRR) : RoundTrip.Statement (.asend r) := by
  rintro (h | ⟨w, hw, _⟩)
  · obtain ⟨hx, hm⟩ := wf_parts h
    exact decode_member (.asend r) 0xC9 [Instr.asend r] rfl (by decide) (rrr_low r)
      ((members_C9 _).trans (congrArg (fun r => some [Instr.asend r]) (rrrOf_bits 0xC9 r))) (by
        rw [show (formOf (Instr.asend r)).mask = (formOf (Instr.asend ⟨0, false, 0, 0, 0, 0, 0, false, false, false, 0⟩)).mask from rfl,
          show opcodeMask 0xC9 [Instr.asend r] = opcodeMask 0xC9 [Instr.asend ⟨0, false, 0, 0, 0, 0, 0, false, false, false, 0⟩] from rfl]; decide +kernel) (find_head hx) hm
  · cases hw

theorem RoundTrip.gen (r : BF) : RoundTrip.Statement (.gen r) := by
  rintro (h | ⟨w, hw, _⟩)
  · obtain ⟨hx, hm⟩ := wf_parts h
    exact decode_member (.gen r) 0xCA [Instr.gen r] rfl (by decide) (bf_low r)
      ((members_CA _).trans (congrArg (fun r => some [Instr.gen r]) (bfOf_bits 0xCA r))) (by
        rw [show (formOf (Instr.gen r)).mask = (formOf (Instr.gen ⟨0, false, 0, 0, 0⟩)).mask from rfl,
          show opcodeMask 0xCA [Instr.gen r] = opcodeMask 0xCA [Instr.gen ⟨0, false, 0, 0, 0⟩] from rfl]; decide +kernel) (find_head hx) hm
  · cases hw

theorem RoundTrip.yld (r : RRR) : RoundTrip.Statement (.yld r) := by
  rintro (h | ⟨w, hw, _⟩)
  · obtain ⟨hx, hm⟩ := wf_parts h
    exact decode_member (.yld r) 0xCB [Instr.yld r] rfl (by decide) (rrr_low r)
      ((members_CB _).trans (congrArg (fun r => some [Instr.yld r]) (rrrOf_bits 0xCB r))) (by
        rw [show (formOf (Instr.yld r)).mask = (formOf (Instr.yld ⟨0, false, 0, 0, 0, 0, 0, false, false, false, 0⟩)).mask from rfl,
          show opcodeMask 0xCB [Instr.yld r] = opcodeMask 0xCB [Instr.yld ⟨0, false, 0, 0, 0, 0, 0, false, false, false, 0⟩] from rfl]; decide +kernel) (find_head hx) hm
  · cases hw

theorem RoundTrip.gdone (r : RRR) : RoundTrip.Statement (.gdone r) := by
  rintro (h | ⟨w, hw, _⟩)
  · obtain ⟨hx, hm⟩ := wf_parts h
    exact decode_member (.gdone r) 0xCC [Instr.gdone r] rfl (by decide) (rrr_low r)
      ((members_CC _).trans (congrArg (fun r => some [Instr.gdone r]) (rrrOf_bits 0xCC r))) (by
        rw [show (formOf (Instr.gdone r)).mask = (formOf (Instr.gdone ⟨0, false, 0, 0, 0, 0, 0, false, false, false, 0⟩)).mask from rfl,
          show opcodeMask 0xCC [Instr.gdone r] = opcodeMask 0xCC [Instr.gdone ⟨0, false, 0, 0, 0, 0, 0, false, false, false, 0⟩] from rfl]; decide +kernel) (find_head hx) hm
  · cases hw

theorem RoundTrip.gtake (r : RRR) : RoundTrip.Statement (.gtake r) := by
  rintro (h | ⟨w, hw, _⟩)
  · obtain ⟨hx, hm⟩ := wf_parts h
    exact decode_member (.gtake r) 0xCD [Instr.gtake r, Instr.gtakeLn r] rfl (by decide) (rrr_low r)
      ((members_CD _).trans (congrArg (fun r => some [Instr.gtake r, Instr.gtakeLn r]) (rrrOf_bits 0xCD r))) (by
        rw [show (formOf (Instr.gtake r)).mask = (formOf (Instr.gtake ⟨0, false, 0, 0, 0, 0, 0, false, false, false, 0⟩)).mask from rfl,
          show opcodeMask 0xCD [Instr.gtake r, Instr.gtakeLn r] = opcodeMask 0xCD [Instr.gtake ⟨0, false, 0, 0, 0, 0, 0, false, false, false, 0⟩, Instr.gtakeLn ⟨0, false, 0, 0, 0, 0, 0, false, false, false, 0⟩] from rfl]; decide +kernel) (find_head hx) hm
  · cases hw

theorem RoundTrip.gtakeLn (r : RRR) : RoundTrip.Statement (.gtakeLn r) := by
  rintro (h | ⟨w, hw, _⟩)
  · obtain ⟨hx, hm⟩ := wf_parts h
    exact decode_member (.gtakeLn r) 0xCD [Instr.gtake r, Instr.gtakeLn r] rfl (by decide) (rrr_low r)
      ((members_CD _).trans (congrArg (fun r => some [Instr.gtake r, Instr.gtakeLn r]) (rrrOf_bits 0xCD r))) (by
        rw [show (formOf (Instr.gtakeLn r)).mask = (formOf (Instr.gtakeLn ⟨0, false, 0, 0, 0, 0, 0, false, false, false, 0⟩)).mask from rfl,
          show opcodeMask 0xCD [Instr.gtake r, Instr.gtakeLn r] = opcodeMask 0xCD [Instr.gtake ⟨0, false, 0, 0, 0, 0, 0, false, false, false, 0⟩, Instr.gtakeLn ⟨0, false, 0, 0, 0, 0, 0, false, false, false, 0⟩] from rfl]; decide +kernel) (find_tail (by simp [xLegal] at hx ⊢; omega) (find_head hx)) hm
  · cases hw

theorem RoundTrip.gnext (r : RRR) : RoundTrip.Statement (.gnext r) := by
  rintro (h | ⟨w, hw, _⟩)
  · obtain ⟨hx, hm⟩ := wf_parts h
    exact decode_member (.gnext r) 0xCE [Instr.gnext r] rfl (by decide) (rrr_low r)
      ((members_CE _).trans (congrArg (fun r => some [Instr.gnext r]) (rrrOf_bits 0xCE r))) (by
        rw [show (formOf (Instr.gnext r)).mask = (formOf (Instr.gnext ⟨0, false, 0, 0, 0, 0, 0, false, false, false, 0⟩)).mask from rfl,
          show opcodeMask 0xCE [Instr.gnext r] = opcodeMask 0xCE [Instr.gnext ⟨0, false, 0, 0, 0, 0, 0, false, false, false, 0⟩] from rfl]; decide +kernel) (find_head hx) hm
  · cases hw

theorem RoundTrip.launch (r : RRR) : RoundTrip.Statement (.launch r) := by
  rintro (h | ⟨w, hw, _⟩)
  · obtain ⟨hx, hm⟩ := wf_parts h
    exact decode_member (.launch r) 0xCF [Instr.launch r] rfl (by decide) (rrr_low r)
      ((members_CF _).trans (congrArg (fun r => some [Instr.launch r]) (rrrOf_bits 0xCF r))) (by
        rw [show (formOf (Instr.launch r)).mask = (formOf (Instr.launch ⟨0, false, 0, 0, 0, 0, 0, false, false, false, 0⟩)).mask from rfl,
          show opcodeMask 0xCF [Instr.launch r] = opcodeMask 0xCF [Instr.launch ⟨0, false, 0, 0, 0, 0, 0, false, false, false, 0⟩] from rfl]; decide +kernel) (find_head hx) hm
  · cases hw

theorem RoundTrip.fdrw (r : RRR) : RoundTrip.Statement (.fdrw r) := by
  rintro (h | ⟨w, hw, _⟩)
  · obtain ⟨hx, hm⟩ := wf_parts h
    exact decode_member (.fdrw r) 0xD0 [Instr.fdrw r] rfl (by decide) (rrr_low r)
      ((members_D0 _).trans (congrArg (fun r => some [Instr.fdrw r]) (rrrOf_bits 0xD0 r))) (by
        rw [show (formOf (Instr.fdrw r)).mask = (formOf (Instr.fdrw ⟨0, false, 0, 0, 0, 0, 0, false, false, false, 0⟩)).mask from rfl,
          show opcodeMask 0xD0 [Instr.fdrw r] = opcodeMask 0xD0 [Instr.fdrw ⟨0, false, 0, 0, 0, 0, 0, false, false, false, 0⟩] from rfl]; decide +kernel) (find_head hx) hm
  · cases hw

theorem RoundTrip.fdrr (r : RRR) : RoundTrip.Statement (.fdrr r) := by
  rintro (h | ⟨w, hw, _⟩)
  · obtain ⟨hx, hm⟩ := wf_parts h
    exact decode_member (.fdrr r) 0xD1 [Instr.fdrr r] rfl (by decide) (rrr_low r)
      ((members_D1 _).trans (congrArg (fun r => some [Instr.fdrr r]) (rrrOf_bits 0xD1 r))) (by
        rw [show (formOf (Instr.fdrr r)).mask = (formOf (Instr.fdrr ⟨0, false, 0, 0, 0, 0, 0, false, false, false, 0⟩)).mask from rfl,
          show opcodeMask 0xD1 [Instr.fdrr r] = opcodeMask 0xD1 [Instr.fdrr ⟨0, false, 0, 0, 0, 0, 0, false, false, false, 0⟩] from rfl]; decide +kernel) (find_head hx) hm
  · cases hw

theorem RoundTrip.csrr (r : RI) : RoundTrip.Statement (.csrr r) := by
  rintro (h | ⟨w, hw, _⟩)
  · obtain ⟨hx, hm⟩ := wf_parts h
    exact decode_member (.csrr r) 0xD2 [Instr.csrr r] rfl (by decide) (ri_low r)
      ((members_D2 _).trans (congrArg (fun r => some [Instr.csrr r]) (riOf_bits 0xD2 r))) (by
        rw [show (formOf (Instr.csrr r)).mask = (formOf (Instr.csrr ⟨0, false, 0, 0, 0, 0, false, 0⟩)).mask from rfl,
          show opcodeMask 0xD2 [Instr.csrr r] = opcodeMask 0xD2 [Instr.csrr ⟨0, false, 0, 0, 0, 0, false, 0⟩] from rfl]; decide +kernel) (find_head hx) hm
  · cases hw

theorem RoundTrip.csrw (r : RI) : RoundTrip.Statement (.csrw r) := by
  rintro (h | ⟨w, hw, _⟩)
  · obtain ⟨hx, hm⟩ := wf_parts h
    exact decode_member (.csrw r) 0xD3 [Instr.csrwCtx r, Instr.csrwFairt r, Instr.csrwFairq r, Instr.csrwWdog r, Instr.csrwGencfg r, Instr.csrwFres r, Instr.csrw r] rfl (by decide) (ri_low r)
      ((members_D3 _).trans (congrArg (fun r => some [Instr.csrwCtx r, Instr.csrwFairt r, Instr.csrwFairq r, Instr.csrwWdog r, Instr.csrwGencfg r, Instr.csrwFres r, Instr.csrw r]) (riOf_bits 0xD3 r))) (by
        rw [show (formOf (Instr.csrw r)).mask = (formOf (Instr.csrw ⟨0, false, 0, 0, 0, 0, false, 0⟩)).mask from rfl,
          show opcodeMask 0xD3 [Instr.csrwCtx r, Instr.csrwFairt r, Instr.csrwFairq r, Instr.csrwWdog r, Instr.csrwGencfg r, Instr.csrwFres r, Instr.csrw r] = opcodeMask 0xD3 [Instr.csrwCtx ⟨0, false, 0, 0, 0, 0, false, 0⟩, Instr.csrwFairt ⟨0, false, 0, 0, 0, 0, false, 0⟩, Instr.csrwFairq ⟨0, false, 0, 0, 0, 0, false, 0⟩, Instr.csrwWdog ⟨0, false, 0, 0, 0, 0, false, 0⟩, Instr.csrwGencfg ⟨0, false, 0, 0, 0, 0, false, 0⟩, Instr.csrwFres ⟨0, false, 0, 0, 0, 0, false, 0⟩, Instr.csrw ⟨0, false, 0, 0, 0, 0, false, 0⟩] from rfl]; decide +kernel) (find_tail (by simp [xLegal] at hx ⊢; omega) (find_tail (by simp [xLegal] at hx ⊢; omega) (find_tail (by simp [xLegal] at hx ⊢; omega) (find_tail (by simp [xLegal] at hx ⊢; omega) (find_tail (by simp [xLegal] at hx ⊢; omega) (find_tail (by simp [xLegal] at hx ⊢; omega) (find_head hx))))))) hm
  · cases hw

theorem RoundTrip.csrwCtx (r : RI) : RoundTrip.Statement (.csrwCtx r) := by
  rintro (h | ⟨w, hw, _⟩)
  · obtain ⟨hx, hm⟩ := wf_parts h
    exact decode_member (.csrwCtx r) 0xD3 [Instr.csrwCtx r, Instr.csrwFairt r, Instr.csrwFairq r, Instr.csrwWdog r, Instr.csrwGencfg r, Instr.csrwFres r, Instr.csrw r] rfl (by decide) (ri_low r)
      ((members_D3 _).trans (congrArg (fun r => some [Instr.csrwCtx r, Instr.csrwFairt r, Instr.csrwFairq r, Instr.csrwWdog r, Instr.csrwGencfg r, Instr.csrwFres r, Instr.csrw r]) (riOf_bits 0xD3 r))) (by
        rw [show (formOf (Instr.csrwCtx r)).mask = (formOf (Instr.csrwCtx ⟨0, false, 0, 0, 0, 0, false, 0⟩)).mask from rfl,
          show opcodeMask 0xD3 [Instr.csrwCtx r, Instr.csrwFairt r, Instr.csrwFairq r, Instr.csrwWdog r, Instr.csrwGencfg r, Instr.csrwFres r, Instr.csrw r] = opcodeMask 0xD3 [Instr.csrwCtx ⟨0, false, 0, 0, 0, 0, false, 0⟩, Instr.csrwFairt ⟨0, false, 0, 0, 0, 0, false, 0⟩, Instr.csrwFairq ⟨0, false, 0, 0, 0, 0, false, 0⟩, Instr.csrwWdog ⟨0, false, 0, 0, 0, 0, false, 0⟩, Instr.csrwGencfg ⟨0, false, 0, 0, 0, 0, false, 0⟩, Instr.csrwFres ⟨0, false, 0, 0, 0, 0, false, 0⟩, Instr.csrw ⟨0, false, 0, 0, 0, 0, false, 0⟩] from rfl]; decide +kernel) (find_head hx) hm
  · cases hw

theorem RoundTrip.csrwFairt (r : RI) : RoundTrip.Statement (.csrwFairt r) := by
  rintro (h | ⟨w, hw, _⟩)
  · obtain ⟨hx, hm⟩ := wf_parts h
    exact decode_member (.csrwFairt r) 0xD3 [Instr.csrwCtx r, Instr.csrwFairt r, Instr.csrwFairq r, Instr.csrwWdog r, Instr.csrwGencfg r, Instr.csrwFres r, Instr.csrw r] rfl (by decide) (ri_low r)
      ((members_D3 _).trans (congrArg (fun r => some [Instr.csrwCtx r, Instr.csrwFairt r, Instr.csrwFairq r, Instr.csrwWdog r, Instr.csrwGencfg r, Instr.csrwFres r, Instr.csrw r]) (riOf_bits 0xD3 r))) (by
        rw [show (formOf (Instr.csrwFairt r)).mask = (formOf (Instr.csrwFairt ⟨0, false, 0, 0, 0, 0, false, 0⟩)).mask from rfl,
          show opcodeMask 0xD3 [Instr.csrwCtx r, Instr.csrwFairt r, Instr.csrwFairq r, Instr.csrwWdog r, Instr.csrwGencfg r, Instr.csrwFres r, Instr.csrw r] = opcodeMask 0xD3 [Instr.csrwCtx ⟨0, false, 0, 0, 0, 0, false, 0⟩, Instr.csrwFairt ⟨0, false, 0, 0, 0, 0, false, 0⟩, Instr.csrwFairq ⟨0, false, 0, 0, 0, 0, false, 0⟩, Instr.csrwWdog ⟨0, false, 0, 0, 0, 0, false, 0⟩, Instr.csrwGencfg ⟨0, false, 0, 0, 0, 0, false, 0⟩, Instr.csrwFres ⟨0, false, 0, 0, 0, 0, false, 0⟩, Instr.csrw ⟨0, false, 0, 0, 0, 0, false, 0⟩] from rfl]; decide +kernel) (find_tail (by simp [xLegal] at hx ⊢; omega) (find_head hx)) hm
  · cases hw

theorem RoundTrip.csrwFairq (r : RI) : RoundTrip.Statement (.csrwFairq r) := by
  rintro (h | ⟨w, hw, _⟩)
  · obtain ⟨hx, hm⟩ := wf_parts h
    exact decode_member (.csrwFairq r) 0xD3 [Instr.csrwCtx r, Instr.csrwFairt r, Instr.csrwFairq r, Instr.csrwWdog r, Instr.csrwGencfg r, Instr.csrwFres r, Instr.csrw r] rfl (by decide) (ri_low r)
      ((members_D3 _).trans (congrArg (fun r => some [Instr.csrwCtx r, Instr.csrwFairt r, Instr.csrwFairq r, Instr.csrwWdog r, Instr.csrwGencfg r, Instr.csrwFres r, Instr.csrw r]) (riOf_bits 0xD3 r))) (by
        rw [show (formOf (Instr.csrwFairq r)).mask = (formOf (Instr.csrwFairq ⟨0, false, 0, 0, 0, 0, false, 0⟩)).mask from rfl,
          show opcodeMask 0xD3 [Instr.csrwCtx r, Instr.csrwFairt r, Instr.csrwFairq r, Instr.csrwWdog r, Instr.csrwGencfg r, Instr.csrwFres r, Instr.csrw r] = opcodeMask 0xD3 [Instr.csrwCtx ⟨0, false, 0, 0, 0, 0, false, 0⟩, Instr.csrwFairt ⟨0, false, 0, 0, 0, 0, false, 0⟩, Instr.csrwFairq ⟨0, false, 0, 0, 0, 0, false, 0⟩, Instr.csrwWdog ⟨0, false, 0, 0, 0, 0, false, 0⟩, Instr.csrwGencfg ⟨0, false, 0, 0, 0, 0, false, 0⟩, Instr.csrwFres ⟨0, false, 0, 0, 0, 0, false, 0⟩, Instr.csrw ⟨0, false, 0, 0, 0, 0, false, 0⟩] from rfl]; decide +kernel) (find_tail (by simp [xLegal] at hx ⊢; omega) (find_tail (by simp [xLegal] at hx ⊢; omega) (find_head hx))) hm
  · cases hw

theorem RoundTrip.csrwWdog (r : RI) : RoundTrip.Statement (.csrwWdog r) := by
  rintro (h | ⟨w, hw, _⟩)
  · obtain ⟨hx, hm⟩ := wf_parts h
    exact decode_member (.csrwWdog r) 0xD3 [Instr.csrwCtx r, Instr.csrwFairt r, Instr.csrwFairq r, Instr.csrwWdog r, Instr.csrwGencfg r, Instr.csrwFres r, Instr.csrw r] rfl (by decide) (ri_low r)
      ((members_D3 _).trans (congrArg (fun r => some [Instr.csrwCtx r, Instr.csrwFairt r, Instr.csrwFairq r, Instr.csrwWdog r, Instr.csrwGencfg r, Instr.csrwFres r, Instr.csrw r]) (riOf_bits 0xD3 r))) (by
        rw [show (formOf (Instr.csrwWdog r)).mask = (formOf (Instr.csrwWdog ⟨0, false, 0, 0, 0, 0, false, 0⟩)).mask from rfl,
          show opcodeMask 0xD3 [Instr.csrwCtx r, Instr.csrwFairt r, Instr.csrwFairq r, Instr.csrwWdog r, Instr.csrwGencfg r, Instr.csrwFres r, Instr.csrw r] = opcodeMask 0xD3 [Instr.csrwCtx ⟨0, false, 0, 0, 0, 0, false, 0⟩, Instr.csrwFairt ⟨0, false, 0, 0, 0, 0, false, 0⟩, Instr.csrwFairq ⟨0, false, 0, 0, 0, 0, false, 0⟩, Instr.csrwWdog ⟨0, false, 0, 0, 0, 0, false, 0⟩, Instr.csrwGencfg ⟨0, false, 0, 0, 0, 0, false, 0⟩, Instr.csrwFres ⟨0, false, 0, 0, 0, 0, false, 0⟩, Instr.csrw ⟨0, false, 0, 0, 0, 0, false, 0⟩] from rfl]; decide +kernel) (find_tail (by simp [xLegal] at hx ⊢; omega) (find_tail (by simp [xLegal] at hx ⊢; omega) (find_tail (by simp [xLegal] at hx ⊢; omega) (find_head hx)))) hm
  · cases hw

theorem RoundTrip.csrwGencfg (r : RI) : RoundTrip.Statement (.csrwGencfg r) := by
  rintro (h | ⟨w, hw, _⟩)
  · obtain ⟨hx, hm⟩ := wf_parts h
    exact decode_member (.csrwGencfg r) 0xD3 [Instr.csrwCtx r, Instr.csrwFairt r, Instr.csrwFairq r, Instr.csrwWdog r, Instr.csrwGencfg r, Instr.csrwFres r, Instr.csrw r] rfl (by decide) (ri_low r)
      ((members_D3 _).trans (congrArg (fun r => some [Instr.csrwCtx r, Instr.csrwFairt r, Instr.csrwFairq r, Instr.csrwWdog r, Instr.csrwGencfg r, Instr.csrwFres r, Instr.csrw r]) (riOf_bits 0xD3 r))) (by
        rw [show (formOf (Instr.csrwGencfg r)).mask = (formOf (Instr.csrwGencfg ⟨0, false, 0, 0, 0, 0, false, 0⟩)).mask from rfl,
          show opcodeMask 0xD3 [Instr.csrwCtx r, Instr.csrwFairt r, Instr.csrwFairq r, Instr.csrwWdog r, Instr.csrwGencfg r, Instr.csrwFres r, Instr.csrw r] = opcodeMask 0xD3 [Instr.csrwCtx ⟨0, false, 0, 0, 0, 0, false, 0⟩, Instr.csrwFairt ⟨0, false, 0, 0, 0, 0, false, 0⟩, Instr.csrwFairq ⟨0, false, 0, 0, 0, 0, false, 0⟩, Instr.csrwWdog ⟨0, false, 0, 0, 0, 0, false, 0⟩, Instr.csrwGencfg ⟨0, false, 0, 0, 0, 0, false, 0⟩, Instr.csrwFres ⟨0, false, 0, 0, 0, 0, false, 0⟩, Instr.csrw ⟨0, false, 0, 0, 0, 0, false, 0⟩] from rfl]; decide +kernel) (find_tail (by simp [xLegal] at hx ⊢; omega) (find_tail (by simp [xLegal] at hx ⊢; omega) (find_tail (by simp [xLegal] at hx ⊢; omega) (find_tail (by simp [xLegal] at hx ⊢; omega) (find_head hx))))) hm
  · cases hw

theorem RoundTrip.csrwFres (r : RI) : RoundTrip.Statement (.csrwFres r) := by
  rintro (h | ⟨w, hw, _⟩)
  · obtain ⟨hx, hm⟩ := wf_parts h
    exact decode_member (.csrwFres r) 0xD3 [Instr.csrwCtx r, Instr.csrwFairt r, Instr.csrwFairq r, Instr.csrwWdog r, Instr.csrwGencfg r, Instr.csrwFres r, Instr.csrw r] rfl (by decide) (ri_low r)
      ((members_D3 _).trans (congrArg (fun r => some [Instr.csrwCtx r, Instr.csrwFairt r, Instr.csrwFairq r, Instr.csrwWdog r, Instr.csrwGencfg r, Instr.csrwFres r, Instr.csrw r]) (riOf_bits 0xD3 r))) (by
        rw [show (formOf (Instr.csrwFres r)).mask = (formOf (Instr.csrwFres ⟨0, false, 0, 0, 0, 0, false, 0⟩)).mask from rfl,
          show opcodeMask 0xD3 [Instr.csrwCtx r, Instr.csrwFairt r, Instr.csrwFairq r, Instr.csrwWdog r, Instr.csrwGencfg r, Instr.csrwFres r, Instr.csrw r] = opcodeMask 0xD3 [Instr.csrwCtx ⟨0, false, 0, 0, 0, 0, false, 0⟩, Instr.csrwFairt ⟨0, false, 0, 0, 0, 0, false, 0⟩, Instr.csrwFairq ⟨0, false, 0, 0, 0, 0, false, 0⟩, Instr.csrwWdog ⟨0, false, 0, 0, 0, 0, false, 0⟩, Instr.csrwGencfg ⟨0, false, 0, 0, 0, 0, false, 0⟩, Instr.csrwFres ⟨0, false, 0, 0, 0, 0, false, 0⟩, Instr.csrw ⟨0, false, 0, 0, 0, 0, false, 0⟩] from rfl]; decide +kernel) (find_tail (by simp [xLegal] at hx ⊢; omega) (find_tail (by simp [xLegal] at hx ⊢; omega) (find_tail (by simp [xLegal] at hx ⊢; omega) (find_tail (by simp [xLegal] at hx ⊢; omega) (find_tail (by simp [xLegal] at hx ⊢; omega) (find_head hx)))))) hm
  · cases hw

theorem RoundTrip.sreg (r : RI) : RoundTrip.Statement (.sreg r) := by
  rintro (h | ⟨w, hw, _⟩)
  · obtain ⟨hx, hm⟩ := wf_parts h
    exact decode_member (.sreg r) 0xD4 [Instr.sreg r] rfl (by decide) (ri_low r)
      ((members_D4 _).trans (congrArg (fun r => some [Instr.sreg r]) (riOf_bits 0xD4 r))) (by
        change within _ (0 ||| (formOf (Instr.sreg r)).mask) = true
        rw [Nat.zero_or]; exact within_self _) (find_head hx) hm
  · cases hw

theorem RoundTrip.rgrow (r : RI) : RoundTrip.Statement (.rgrow r) := by
  rintro (h | ⟨w, hw, _⟩)
  · obtain ⟨hx, hm⟩ := wf_parts h
    exact decode_member (.rgrow r) 0xD5 [Instr.rgrow r] rfl (by decide) (ri_low r)
      ((members_D5 _).trans (congrArg (fun r => some [Instr.rgrow r]) (riOf_bits 0xD5 r))) (by
        rw [show (formOf (Instr.rgrow r)).mask = (formOf (Instr.rgrow ⟨0, false, 0, 0, 0, 0, false, 0⟩)).mask from rfl,
          show opcodeMask 0xD5 [Instr.rgrow r] = opcodeMask 0xD5 [Instr.rgrow ⟨0, false, 0, 0, 0, 0, false, 0⟩] from rfl]; decide +kernel) (find_head hx) hm
  · cases hw

theorem RoundTrip.rshrk (r : RI) : RoundTrip.Statement (.rshrk r) := by
  rintro (h | ⟨w, hw, _⟩)
  · obtain ⟨hx, hm⟩ := wf_parts h
    exact decode_member (.rshrk r) 0xD6 [Instr.rshrk r] rfl (by decide) (ri_low r)
      ((members_D6 _).trans (congrArg (fun r => some [Instr.rshrk r]) (riOf_bits 0xD6 r))) (by
        rw [show (formOf (Instr.rshrk r)).mask = (formOf (Instr.rshrk ⟨0, false, 0, 0, 0, 0, false, 0⟩)).mask from rfl,
          show opcodeMask 0xD6 [Instr.rshrk r] = opcodeMask 0xD6 [Instr.rshrk ⟨0, false, 0, 0, 0, 0, false, 0⟩] from rfl]; decide +kernel) (find_head hx) hm
  · cases hw

theorem RoundTrip.pdone (r : RRR) : RoundTrip.Statement (.pdone r) := by
  rintro (h | ⟨w, hw, _⟩)
  · obtain ⟨hx, hm⟩ := wf_parts h
    exact decode_member (.pdone r) 0xD7 [Instr.pdone r] rfl (by decide) (rrr_low r)
      ((members_D7 _).trans (congrArg (fun r => some [Instr.pdone r]) (rrrOf_bits 0xD7 r))) (by
        rw [show (formOf (Instr.pdone r)).mask = (formOf (Instr.pdone ⟨0, false, 0, 0, 0, 0, 0, false, false, false, 0⟩)).mask from rfl,
          show opcodeMask 0xD7 [Instr.pdone r] = opcodeMask 0xD7 [Instr.pdone ⟨0, false, 0, 0, 0, 0, 0, false, false, false, 0⟩] from rfl]; decide +kernel) (find_head hx) hm
  · cases hw

theorem RoundTrip.eret (r : RRR) : RoundTrip.Statement (.eret r) := by
  rintro (h | ⟨w, hw, _⟩)
  · obtain ⟨hx, hm⟩ := wf_parts h
    exact decode_member (.eret r) 0xD8 [Instr.eret r, Instr.eretNext r] rfl (by decide) (rrr_low r)
      ((members_D8 _).trans (congrArg (fun r => some [Instr.eret r, Instr.eretNext r]) (rrrOf_bits 0xD8 r))) (by
        rw [show (formOf (Instr.eret r)).mask = (formOf (Instr.eret ⟨0, false, 0, 0, 0, 0, 0, false, false, false, 0⟩)).mask from rfl,
          show opcodeMask 0xD8 [Instr.eret r, Instr.eretNext r] = opcodeMask 0xD8 [Instr.eret ⟨0, false, 0, 0, 0, 0, 0, false, false, false, 0⟩, Instr.eretNext ⟨0, false, 0, 0, 0, 0, 0, false, false, false, 0⟩] from rfl]; decide +kernel) (find_head hx) hm
  · cases hw

theorem RoundTrip.eretNext (r : RRR) : RoundTrip.Statement (.eretNext r) := by
  rintro (h | ⟨w, hw, _⟩)
  · obtain ⟨hx, hm⟩ := wf_parts h
    exact decode_member (.eretNext r) 0xD8 [Instr.eret r, Instr.eretNext r] rfl (by decide) (rrr_low r)
      ((members_D8 _).trans (congrArg (fun r => some [Instr.eret r, Instr.eretNext r]) (rrrOf_bits 0xD8 r))) (by
        rw [show (formOf (Instr.eretNext r)).mask = (formOf (Instr.eretNext ⟨0, false, 0, 0, 0, 0, 0, false, false, false, 0⟩)).mask from rfl,
          show opcodeMask 0xD8 [Instr.eret r, Instr.eretNext r] = opcodeMask 0xD8 [Instr.eret ⟨0, false, 0, 0, 0, 0, 0, false, false, false, 0⟩, Instr.eretNext ⟨0, false, 0, 0, 0, 0, 0, false, false, false, 0⟩] from rfl]; decide +kernel) (find_tail (by simp [xLegal] at hx ⊢; omega) (find_head hx)) hm
  · cases hw

theorem RoundTrip.fwcallVersion (r : I32) : RoundTrip.Statement (.fwcallVersion r) := by
  rintro (h | ⟨w, hw, _⟩)
  · obtain ⟨hx, hm⟩ := wf_parts h
    exact decode_member (.fwcallVersion r) 0xD9 [Instr.fwcallCapability r, Instr.fwcallJournal r, Instr.fwcallVersion r] rfl (by decide) (i32_low r)
      ((members_D9 _).trans (congrArg (fun r => some [Instr.fwcallCapability r, Instr.fwcallJournal r, Instr.fwcallVersion r]) (i32Of_bits 0xD9 r))) (by
        rw [show (formOf (Instr.fwcallVersion r)).mask = (formOf (Instr.fwcallVersion ⟨0, false, 0, 0, 0⟩)).mask from rfl,
          show opcodeMask 0xD9 [Instr.fwcallCapability r, Instr.fwcallJournal r, Instr.fwcallVersion r] = opcodeMask 0xD9 [Instr.fwcallCapability ⟨0, false, 0, 0, 0⟩, Instr.fwcallJournal ⟨0, false, 0, 0, 0⟩, Instr.fwcallVersion ⟨0, false, 0, 0, 0⟩] from rfl]; decide +kernel) (find_tail (by simp [xLegal] at hx ⊢; omega) (find_tail (by simp [xLegal] at hx ⊢; omega) (find_head hx))) hm
  · cases hw

theorem RoundTrip.fwcallCapability (r : I32) : RoundTrip.Statement (.fwcallCapability r) := by
  rintro (h | ⟨w, hw, _⟩)
  · obtain ⟨hx, hm⟩ := wf_parts h
    exact decode_member (.fwcallCapability r) 0xD9 [Instr.fwcallCapability r, Instr.fwcallJournal r, Instr.fwcallVersion r] rfl (by decide) (i32_low r)
      ((members_D9 _).trans (congrArg (fun r => some [Instr.fwcallCapability r, Instr.fwcallJournal r, Instr.fwcallVersion r]) (i32Of_bits 0xD9 r))) (by
        rw [show (formOf (Instr.fwcallCapability r)).mask = (formOf (Instr.fwcallCapability ⟨0, false, 0, 0, 0⟩)).mask from rfl,
          show opcodeMask 0xD9 [Instr.fwcallCapability r, Instr.fwcallJournal r, Instr.fwcallVersion r] = opcodeMask 0xD9 [Instr.fwcallCapability ⟨0, false, 0, 0, 0⟩, Instr.fwcallJournal ⟨0, false, 0, 0, 0⟩, Instr.fwcallVersion ⟨0, false, 0, 0, 0⟩] from rfl]; decide +kernel) (find_head hx) hm
  · cases hw

theorem RoundTrip.fwcallJournal (r : I32) : RoundTrip.Statement (.fwcallJournal r) := by
  rintro (h | ⟨w, hw, _⟩)
  · obtain ⟨hx, hm⟩ := wf_parts h
    exact decode_member (.fwcallJournal r) 0xD9 [Instr.fwcallCapability r, Instr.fwcallJournal r, Instr.fwcallVersion r] rfl (by decide) (i32_low r)
      ((members_D9 _).trans (congrArg (fun r => some [Instr.fwcallCapability r, Instr.fwcallJournal r, Instr.fwcallVersion r]) (i32Of_bits 0xD9 r))) (by
        rw [show (formOf (Instr.fwcallJournal r)).mask = (formOf (Instr.fwcallJournal ⟨0, false, 0, 0, 0⟩)).mask from rfl,
          show opcodeMask 0xD9 [Instr.fwcallCapability r, Instr.fwcallJournal r, Instr.fwcallVersion r] = opcodeMask 0xD9 [Instr.fwcallCapability ⟨0, false, 0, 0, 0⟩, Instr.fwcallJournal ⟨0, false, 0, 0, 0⟩, Instr.fwcallVersion ⟨0, false, 0, 0, 0⟩] from rfl]; decide +kernel) (find_tail (by simp [xLegal] at hx ⊢; omega) (find_head hx)) hm
  · cases hw

theorem RoundTrip.hadd (r : RRR) : RoundTrip.Statement (.hadd r) := by
  rintro (h | ⟨w, hw, _⟩)
  · obtain ⟨hx, hm⟩ := wf_parts h
    exact decode_member (.hadd r) 0xF0 [Instr.hadd r] rfl (by decide) (rrr_low r)
      ((members_F0 _).trans (congrArg (fun r => some [Instr.hadd r]) (rrrOf_bits 0xF0 r))) (by
        rw [show (formOf (Instr.hadd r)).mask = (formOf (Instr.hadd ⟨0, false, 0, 0, 0, 0, 0, false, false, false, 0⟩)).mask from rfl,
          show opcodeMask 0xF0 [Instr.hadd r] = opcodeMask 0xF0 [Instr.hadd ⟨0, false, 0, 0, 0, 0, 0, false, false, false, 0⟩] from rfl]; decide +kernel) (find_head hx) hm
  · cases hw

theorem RoundTrip.hmul (r : RRR) : RoundTrip.Statement (.hmul r) := by
  rintro (h | ⟨w, hw, _⟩)
  · obtain ⟨hx, hm⟩ := wf_parts h
    exact decode_member (.hmul r) 0xF1 [Instr.hmul r] rfl (by decide) (rrr_low r)
      ((members_F1 _).trans (congrArg (fun r => some [Instr.hmul r]) (rrrOf_bits 0xF1 r))) (by
        rw [show (formOf (Instr.hmul r)).mask = (formOf (Instr.hmul ⟨0, false, 0, 0, 0, 0, 0, false, false, false, 0⟩)).mask from rfl,
          show opcodeMask 0xF1 [Instr.hmul r] = opcodeMask 0xF1 [Instr.hmul ⟨0, false, 0, 0, 0, 0, 0, false, false, false, 0⟩] from rfl]; decide +kernel) (find_head hx) hm
  · cases hw

theorem RoundTrip.hfma (r : RRR) : RoundTrip.Statement (.hfma r) := by
  rintro (h | ⟨w, hw, _⟩)
  · obtain ⟨hx, hm⟩ := wf_parts h
    exact decode_member (.hfma r) 0xF2 [Instr.hfma r] rfl (by decide) (rrr_low r)
      ((members_F2 _).trans (congrArg (fun r => some [Instr.hfma r]) (rrrOf_bits 0xF2 r))) (by
        rw [show (formOf (Instr.hfma r)).mask = (formOf (Instr.hfma ⟨0, false, 0, 0, 0, 0, 0, false, false, false, 0⟩)).mask from rfl,
          show opcodeMask 0xF2 [Instr.hfma r] = opcodeMask 0xF2 [Instr.hfma ⟨0, false, 0, 0, 0, 0, 0, false, false, false, 0⟩] from rfl]; decide +kernel) (find_head hx) hm
  · cases hw

theorem RoundTrip.bhadd (r : RRR) : RoundTrip.Statement (.bhadd r) := by
  rintro (h | ⟨w, hw, _⟩)
  · obtain ⟨hx, hm⟩ := wf_parts h
    exact decode_member (.bhadd r) 0xF3 [Instr.bhadd r] rfl (by decide) (rrr_low r)
      ((members_F3 _).trans (congrArg (fun r => some [Instr.bhadd r]) (rrrOf_bits 0xF3 r))) (by
        rw [show (formOf (Instr.bhadd r)).mask = (formOf (Instr.bhadd ⟨0, false, 0, 0, 0, 0, 0, false, false, false, 0⟩)).mask from rfl,
          show opcodeMask 0xF3 [Instr.bhadd r] = opcodeMask 0xF3 [Instr.bhadd ⟨0, false, 0, 0, 0, 0, 0, false, false, false, 0⟩] from rfl]; decide +kernel) (find_head hx) hm
  · cases hw

theorem RoundTrip.bhmul (r : RRR) : RoundTrip.Statement (.bhmul r) := by
  rintro (h | ⟨w, hw, _⟩)
  · obtain ⟨hx, hm⟩ := wf_parts h
    exact decode_member (.bhmul r) 0xF4 [Instr.bhmul r] rfl (by decide) (rrr_low r)
      ((members_F4 _).trans (congrArg (fun r => some [Instr.bhmul r]) (rrrOf_bits 0xF4 r))) (by
        rw [show (formOf (Instr.bhmul r)).mask = (formOf (Instr.bhmul ⟨0, false, 0, 0, 0, 0, 0, false, false, false, 0⟩)).mask from rfl,
          show opcodeMask 0xF4 [Instr.bhmul r] = opcodeMask 0xF4 [Instr.bhmul ⟨0, false, 0, 0, 0, 0, 0, false, false, false, 0⟩] from rfl]; decide +kernel) (find_head hx) hm
  · cases hw

theorem RoundTrip.bhfma (r : RRR) : RoundTrip.Statement (.bhfma r) := by
  rintro (h | ⟨w, hw, _⟩)
  · obtain ⟨hx, hm⟩ := wf_parts h
    exact decode_member (.bhfma r) 0xF5 [Instr.bhfma r] rfl (by decide) (rrr_low r)
      ((members_F5 _).trans (congrArg (fun r => some [Instr.bhfma r]) (rrrOf_bits 0xF5 r))) (by
        rw [show (formOf (Instr.bhfma r)).mask = (formOf (Instr.bhfma ⟨0, false, 0, 0, 0, 0, 0, false, false, false, 0⟩)).mask from rfl,
          show opcodeMask 0xF5 [Instr.bhfma r] = opcodeMask 0xF5 [Instr.bhfma ⟨0, false, 0, 0, 0, 0, 0, false, false, false, 0⟩] from rfl]; decide +kernel) (find_head hx) hm
  · cases hw

theorem RoundTrip.barw (r : RRR) : RoundTrip.Statement (.barw r) := by
  rintro (h | ⟨w, hw, _⟩)
  · obtain ⟨hx, hm⟩ := wf_parts h
    exact decode_member (.barw r) 0xF6 [Instr.barw r] rfl (by decide) (rrr_low r)
      ((members_F6 _).trans (congrArg (fun r => some [Instr.barw r]) (rrrOf_bits 0xF6 r))) (by
        rw [show (formOf (Instr.barw r)).mask = (formOf (Instr.barw ⟨0, false, 0, 0, 0, 0, 0, false, false, false, 0⟩)).mask from rfl,
          show opcodeMask 0xF6 [Instr.barw r] = opcodeMask 0xF6 [Instr.barw ⟨0, false, 0, 0, 0, 0, 0, false, false, false, 0⟩] from rfl]; decide +kernel) (find_head hx) hm
  · cases hw

theorem RoundTrip.ldtex (r : RRR) : RoundTrip.Statement (.ldtex r) := by
  rintro (h | ⟨w, hw, _⟩)
  · obtain ⟨hx, hm⟩ := wf_parts h
    exact decode_member (.ldtex r) 0xF7 [Instr.ldtex r] rfl (by decide) (rrr_low r)
      ((members_F7 _).trans (congrArg (fun r => some [Instr.ldtex r]) (rrrOf_bits 0xF7 r))) (by
        rw [show (formOf (Instr.ldtex r)).mask = (formOf (Instr.ldtex ⟨0, false, 0, 0, 0, 0, 0, false, false, false, 0⟩)).mask from rfl,
          show opcodeMask 0xF7 [Instr.ldtex r] = opcodeMask 0xF7 [Instr.ldtex ⟨0, false, 0, 0, 0, 0, 0, false, false, false, 0⟩] from rfl]; decide +kernel) (find_head hx) hm
  · cases hw

theorem RoundTrip.unassignedOpcode (w : Word) : RoundTrip.Statement (.unassignedOpcode w) := by
  rintro (h | ⟨v, hv, hn⟩)
  · simp [Instr.wellFormed, opcodeOf] at h
  · cases hv
    simp [decodeWord, wordOf, encode, hn]

theorem RoundTrip.fairnessGrant (c w : Nat) : RoundTrip.Statement (.fairnessGrant c w) :=
  event_trip rfl (by intro w h; cases h)

theorem RoundTrip.grantEnd (c w : Nat) : RoundTrip.Statement (.grantEnd c w) :=
  event_trip rfl (by intro w h; cases h)

theorem RoundTrip.spinWatchdog : RoundTrip.Statement (.spinWatchdog) :=
  event_trip rfl (by intro w h; cases h)

theorem RoundTrip.wjoinExpire (c w : Nat) (pc : PC) : RoundTrip.Statement (.wjoinExpire c w pc) :=
  event_trip rfl (by intro w h; cases h)

theorem RoundTrip.rgrowGrant (c part : Nat) : RoundTrip.Statement (.rgrowGrant c part) :=
  event_trip rfl (by intro w h; cases h)

theorem RoundTrip.napEnd (c w : Nat) : RoundTrip.Statement (.napEnd c w) :=
  event_trip rfl (by intro w h; cases h)

theorem RoundTrip.resultReturn (c id : Nat) : RoundTrip.Statement (.resultReturn c id) :=
  event_trip rfl (by intro w h; cases h)

theorem RoundTrip.waitConditionMet (c w : Nat) : RoundTrip.Statement (.waitConditionMet c w) :=
  event_trip rfl (by intro w h; cases h)

theorem RoundTrip.waitExpire (c w : Nat) : RoundTrip.Statement (.waitExpire c w) :=
  event_trip rfl (by intro w h; cases h)

theorem RoundTrip.accessPerform (c id : Nat) (fromCopy : Bool) : RoundTrip.Statement (.accessPerform c id fromCopy) :=
  event_trip rfl (by intro w h; cases h)

theorem RoundTrip.fenceComplete (c w : Nat) : RoundTrip.Statement (.fenceComplete c w) :=
  event_trip rfl (by intro w h; cases h)

theorem RoundTrip.jpostAccept (c cl ch : Nat) : RoundTrip.Statement (.jpostAccept c cl ch) :=
  event_trip rfl (by intro w h; cases h)

theorem RoundTrip.chainCardAccept (c cl ch : Nat) : RoundTrip.Statement (.chainCardAccept c cl ch) :=
  event_trip rfl (by intro w h; cases h)

theorem RoundTrip.cardStart (c id : Nat) : RoundTrip.Statement (.cardStart c id) :=
  event_trip rfl (by intro w h; cases h)

theorem RoundTrip.loopIterationStart (c id : Nat) : RoundTrip.Statement (.loopIterationStart c id) :=
  event_trip rfl (by intro w h; cases h)

theorem RoundTrip.cardComplete (c id : Nat) : RoundTrip.Statement (.cardComplete c id) :=
  event_trip rfl (by intro w h; cases h)

theorem RoundTrip.mmaComplete (c id : Nat) : RoundTrip.Statement (.mmaComplete c id) :=
  event_trip rfl (by intro w h; cases h)

theorem RoundTrip.astoComplete (c id : Nat) : RoundTrip.Statement (.astoComplete c id) :=
  event_trip rfl (by intro w h; cases h)

theorem RoundTrip.aldrComplete (c id : Nat) : RoundTrip.Statement (.aldrComplete c id) :=
  event_trip rfl (by intro w h; cases h)

theorem RoundTrip.amovvReadout (c w : Nat) : RoundTrip.Statement (.amovvReadout c w) :=
  event_trip rfl (by intro w h; cases h)

theorem RoundTrip.bsyncRelease (c die ch : Nat) : RoundTrip.Statement (.bsyncRelease c die ch) :=
  event_trip rfl (by intro w h; cases h)

theorem RoundTrip.barrRelease (c blk id : Nat) : RoundTrip.Statement (.barrRelease c blk id) :=
  event_trip rfl (by intro w h; cases h)

theorem RoundTrip.bcastArrive (c id : Nat) : RoundTrip.Statement (.bcastArrive c id) :=
  event_trip rfl (by intro w h; cases h)

theorem RoundTrip.reservationGrant (pkg die : Nat) : RoundTrip.Statement (.reservationGrant pkg die) :=
  event_trip rfl (by intro w h; cases h)

theorem RoundTrip.msendComplete (c w : Nat) : RoundTrip.Statement (.msendComplete c w) :=
  event_trip rfl (by intro w h; cases h)

theorem RoundTrip.messageMatch (die : Nat) (m : Arrival) : RoundTrip.Statement (.messageMatch die m) :=
  event_trip rfl (by intro w h; cases h)

theorem RoundTrip.pieceLand (die id : Nat) : RoundTrip.Statement (.pieceLand die id) :=
  event_trip rfl (by intro w h; cases h)

theorem RoundTrip.activeMessageDeliver (die : Nat) (m : ActiveArrival) : RoundTrip.Statement (.activeMessageDeliver die m) :=
  event_trip rfl (by intro w h; cases h)

theorem RoundTrip.launchAccept (c : Nat) : RoundTrip.Statement (.launchAccept c) :=
  event_trip rfl (by intro w h; cases h)

theorem RoundTrip.blockAdmit (c die : Nat) : RoundTrip.Statement (.blockAdmit c die) :=
  event_trip rfl (by intro w h; cases h)

theorem RoundTrip.stageBlockDispatch (c die stage : Nat) : RoundTrip.Statement (.stageBlockDispatch c die stage) :=
  event_trip rfl (by intro w h; cases h)

theorem RoundTrip.coreReassign (c core : Nat) : RoundTrip.Statement (.coreReassign c core) :=
  event_trip rfl (by intro w h; cases h)

theorem RoundTrip.launchComplete (c q : Nat) : RoundTrip.Statement (.launchComplete c q) :=
  event_trip rfl (by intro w h; cases h)

theorem RoundTrip.sliceExpire (c : Nat) : RoundTrip.Statement (.sliceExpire c) :=
  event_trip rfl (by intro w h; cases h)

theorem RoundTrip.preemptSignal (c w : Nat) : RoundTrip.Statement (.preemptSignal c w) :=
  event_trip rfl (by intro w h; cases h)

theorem RoundTrip.forcedStop (c w : Nat) : RoundTrip.Statement (.forcedStop c w) :=
  event_trip rfl (by intro w h; cases h)

theorem RoundTrip.contextIdleExchange (c : Nat) : RoundTrip.Statement (.contextIdleExchange c) :=
  event_trip rfl (by intro w h; cases h)

theorem RoundTrip.contextExchange (c : Nat) : RoundTrip.Statement (.contextExchange c) :=
  event_trip rfl (by intro w h; cases h)

theorem RoundTrip.remoteAccessFail (c id : Nat) : RoundTrip.Statement (.remoteAccessFail c id) :=
  event_trip rfl (by intro w h; cases h)

theorem RoundTrip.cardLineWritten (c id line : Nat) : RoundTrip.Statement (.cardLineWritten c id line) :=
  event_trip rfl (by intro w h; cases h)

theorem RoundTrip.cardChunkDone (c id k : Nat) : RoundTrip.Statement (.cardChunkDone c id k) :=
  event_trip rfl (by intro w h; cases h)

theorem RoundTrip.mcastMemberTimeout (c id member : Nat) (answered : Bool) : RoundTrip.Statement (.mcastMemberTimeout c id member answered) :=
  event_trip rfl (by intro w h; cases h)

theorem RoundTrip.hostDoorbell (c slot : Nat) (ring : Doorbell) : RoundTrip.Statement (.hostDoorbell c slot ring) :=
  event_trip rfl (by intro w h; cases h)

theorem RoundTrip.launchKill (c q : Nat) : RoundTrip.Statement (.launchKill c q) :=
  event_trip rfl (by intro w h; cases h)

theorem RoundTrip.contextCreate (p : CtxParams) : RoundTrip.Statement (.contextCreate p) :=
  event_trip rfl (by intro w h; cases h)

theorem RoundTrip.fetchFaultSwap (c w : Nat) : RoundTrip.Statement (.fetchFaultSwap c w) :=
  event_trip rfl (by intro w h; cases h)

theorem RoundTrip.blockSwapIn (c blk : Nat) (r : DriverReply) : RoundTrip.Statement (.blockSwapIn c blk r) :=
  event_trip rfl (by intro w h; cases h)

theorem RoundTrip.pageMigration (die c : Nat) (va : Nat) (pfn : Nat) (ok : Bool) : RoundTrip.Statement (.pageMigration die c va pfn ok) :=
  event_trip rfl (by intro w h; cases h)

theorem RoundTrip.tlbShootdown (c : Nat) (va : Nat) : RoundTrip.Statement (.tlbShootdown c va) :=
  event_trip rfl (by intro w h; cases h)

theorem RoundTrip.errorCorrected (e : ErrorEvent) : RoundTrip.Statement (.errorCorrected e) :=
  event_trip rfl (by intro w h; cases h)

theorem RoundTrip.japWrite (v : Nat) : RoundTrip.Statement (.japWrite v) :=
  event_trip rfl (by intro w h; cases h)

theorem RoundTrip.nfeatWrite (v : Word) : RoundTrip.Statement (.nfeatWrite v) :=
  event_trip rfl (by intro w h; cases h)

theorem RoundTrip.functionReady (bit : Nat) : RoundTrip.Statement (.functionReady bit) :=
  event_trip rfl (by intro w h; cases h)

theorem RoundTrip.portDead (k : Nat) : RoundTrip.Statement (.portDead k) :=
  event_trip rfl (by intro w h; cases h)

theorem RoundTrip.portRetrain (k : Nat) : RoundTrip.Statement (.portRetrain k) :=
  event_trip rfl (by intro w h; cases h)

theorem RoundTrip.fatalFaultRecovery (r : RecoveryPlan) : RoundTrip.Statement (.fatalFaultRecovery r) :=
  event_trip rfl (by intro w h; cases h)

theorem RoundTrip.fsvRaise (v : Nat) : RoundTrip.Statement (.fsvRaise v) :=
  event_trip rfl (by intro w h; cases h)

theorem RoundTrip.reset : RoundTrip.Statement (.reset) :=
  event_trip rfl (by intro w h; cases h)

theorem RoundTrip.powerLoss : RoundTrip.Statement (.powerLoss) :=
  event_trip rfl (by intro w h; cases h)

theorem RoundTrip.supplyDroop (die extra : Nat) : RoundTrip.Statement (.supplyDroop die extra) :=
  event_trip rfl (by intro w h; cases h)

theorem RoundTrip.contextEnd (c : Nat) : RoundTrip.Statement (.contextEnd c) :=
  event_trip rfl (by intro w h; cases h)

theorem RoundTrip.tenantRotation (c : Nat) (inward : Bool) : RoundTrip.Statement (.tenantRotation c inward) :=
  event_trip rfl (by intro w h; cases h)

theorem RoundTrip.demandPaging (c w : Nat) (r : DriverReply) : RoundTrip.Statement (.demandPaging c w r) :=
  event_trip rfl (by intro w h; cases h)

theorem RoundTrip.uncorrectableError (e : ErrorEvent) : RoundTrip.Statement (.uncorrectableError e) :=
  event_trip rfl (by intro w h; cases h)

theorem RoundTrip.attestationRequest (nonce : Word) : RoundTrip.Statement (.attestationRequest nonce) :=
  event_trip rfl (by intro w h; cases h)

theorem RoundTrip.landfaultEntryFree (die id : Nat) : RoundTrip.Statement (.landfaultEntryFree die id) :=
  event_trip rfl (by intro w h; cases h)

end Sys2Proof.Laws
end

