-- ==== Sys2Proof/Tests/Slice0.lean ====
section
/-! SUPPORT. Tests: ill-formed terms, words written out from the encoding tables, single steps, and for each statement states that meet its
hypotheses. Expected values come from the rules that each test names. -/

set_option Elab.async false

namespace Sys2Proof.Tests
open Sys2Proof Sys2Proof.Machine

/-! ### Well-formed instructions (R85, R95): one ill-formed term for each check -/

/-- FADD with every operand field in use is well formed. -/
def goodAdd : RRR := ⟨15, false, 5, 6, 7, 0, 1, true, true, false, 0⟩

theorem test_wf_good : (Instr.fadd goodAdd).wellFormed = true := by decide +kernel
theorem test_wf_event_has_no_opcode : (Instr.reset).wellFormed = false := by decide +kernel
theorem test_wf_unassigned_has_no_opcode : (Instr.unassignedOpcode 0xFF00000000000000).wellFormed = false := by decide +kernel
theorem test_wf_x_without_meaning : (Instr.sadd ⟨15, false, 1, 2, 3, 0, 0, false, false, false, 1⟩).wellFormed = false := by decide +kernel
theorem test_wf_csr_without_member : (Instr.csrwCtx ⟨15, false, 0, 4, 5, 0, true, 0⟩).wellFormed = false := by decide +kernel
theorem test_wf_unused_field : (Instr.sadd ⟨15, false, 1, 2, 3, 9, 0, false, false, false, 0⟩).wellFormed = false := by decide +kernel
theorem test_wf_unused_w_bit : (Instr.sldi ⟨15, false, 1, 7, 0⟩).wellFormed = true ∧
    (Instr.nop ⟨15, false, 0, 0, 0, 0, 0, true, false, false, 0⟩).wellFormed = false := by decide +kernel

/-! ### Words written out from the encoding tables (R81, R83, R94, R95) -/

/-- Decoding a word gives an instruction. -/
def readsAs (w : Word) (i : Instr) : Bool := match decodeWord w with | .ok j => decide (j = i) | .error _ => false

theorem decodeWord_of_readsAs (w : Word) (i : Instr) (h : readsAs w i = true) : decodeWord w = .ok i := by
  unfold readsAs at h
  split at h
  · rename_i j hj
    simp only [decide_eq_true_eq] at h
    rw [hj, h]
  · cases h

theorem test_decode_control : readsAs 0x01F0000000056400 (.bra ⟨15, false, 5, 100, 0⟩) = true ∧
    readsAs 0x0230FFFFFFFDC801 (.bruAll ⟨3, false, 0xFFFFFFFD, 200, 1⟩) = true := by decide +kernel
theorem test_decode_backward : readsAs 0x01F0FFFFFFFA1400 (.bra ⟨15, false, 0xFFFFFFFA, 20, 0⟩) = true := by decide +kernel
theorem test_decode_float : readsAs 0x4020050607001C00 (.fadd ⟨2, false, 5, 6, 7, 0, 1, true, true, false, 0⟩) = true ∧
    readsAs 0x50F0020201F03800 (.faddi ⟨15, false, 2, 2, 0x1F0, 3, true, 0⟩) = true := by decide +kernel
theorem test_decode_integer : readsAs 0x2AF0030304000C83 (.icmp ⟨15, false, 3, 3, 4, 0, 0, true, true, false, 0x83⟩) = true := by decide +kernel
theorem test_decode_memory : readsAs 0x76F0010400000852 (.ldacq ⟨15, false, 1, 4, 0, 0, 0, true, false, false, 0x52⟩) = true ∧
    readsAs 0x86F0010400000A52 (.strel ⟨15, false, 1, 4, 0, 0, 0, true, false, true, 0x52⟩) = true := by decide +kernel
theorem test_decode_matrix : readsAs 0xB1F0000001002000 (.mmas ⟨15, false, 0, 0, 1, 0, 2, false, false, false, 0⟩) = true ∧
    readsAs 0xB4F0040000000000 (.asto ⟨15, false, 4, 0, 0, 0, 0, false, false, false, 0⟩) = true ∧
    readsAs 0xB6F00A001D002400 (.amovv ⟨15, false, 0x0A, 0, 0x1D, 0, 2, false, true, false, 0⟩) = true := by decide +kernel
theorem test_decode_barrier : readsAs 0xC0F0000400070803 (.bsync ⟨15, false, 0, 4, 7, 0, true, 3⟩) = true := by decide +kernel
theorem test_decode_messages : readsAs 0xC4F000000D070600 (.msend ⟨15, false, 0, 0, 0x0D, 7, 0, false, true, true, 0⟩) = true ∧
    readsAs 0xC5F015000F120600 (.mpost ⟨15, false, 0x15, 0, 0x0F, 0x12, 0, false, true, true, 0⟩) = true ∧
    readsAs 0xC6F0191400000800 (.mtest ⟨15, false, 0x19, 0x14, 0, 0, 0, true, false, false, 0⟩) = true ∧
    readsAs 0xC7F014000E100600 (.mprobe ⟨15, false, 0x14, 0, 0x0E, 0x10, 0, false, true, true, 0⟩) = true := by decide +kernel
theorem test_decode_generators : readsAs 0xCAF0000000091E00 (.gen ⟨15, false, 9, 0x1E, 0⟩) = true ∧
    readsAs 0xCB20000500000800 (.yld ⟨2, false, 0, 5, 0, 0, 0, true, false, false, 0⟩) = true ∧
    readsAs 0xCDF0140004000000 (.gtake ⟨15, false, 0x14, 0, 4, 0, 0, false, false, false, 0⟩) = true := by decide +kernel
theorem test_decode_system : readsAs 0xD3F0000400050800 (.csrwGencfg ⟨15, false, 0, 4, 5, 0, true, 0⟩) = true := by decide +kernel
theorem test_decode_unassigned : readsAs 0xFF00000000000000 (.unassignedOpcode 0xFF00000000000000) = true := by decide +kernel
theorem test_decode_header_bits :
    (match decodeWord 0x4021050607001C00 with | .error c => decide (c = .rsvdBits) | .ok _ => false) = true := by decide +kernel

/-! ### Single steps -/

/-- Whether a step gives a state whose first warp satisfies a test. -/
def stepWarp (s : State) (f : Warp → Bool) : Bool :=
  match step s with
  | .next t => t.ctxs.any (fun x => x.warps.any f)
  | _ => false

/-- R34, R108: BRA by 5 words from 0x10000 at priority 100. -/
theorem test_step_bra : stepWarp (State.reset.withFetchWord 64 0x01F0000000056400)
    (fun w => w.frontier.any (fun e => e.pc = 0x10028 && e.pri = 100)) = true := by decide +kernel
/-- R118: SLDI writes a sign-extended immediate; the threads go to PC + 8. -/
theorem test_step_sldi : stepWarp (State.reset.withFetchWord 64 (wordOf (.sldi ⟨15, false, 1, 0xFFFFFFFE, 0⟩)).toNat)
    (fun w => w.readS 1 = 0xFFFFFFFFFFFFFFFE && w.frontier.any (fun e => e.pc = 0x10008)) = true := by decide +kernel
/-- R96, R344: an unassigned opcode ends the launch where UTVEC is 0. -/
theorem test_step_unassigned : stepWarp (State.reset.withFetchWord 64 0xFF00000000000000)
    (fun w => w.halted && w.ucause = 1 && w.uepc = 0x10000) = true := by decide +kernel
/-- R117: TRAP with its immediate. -/
theorem test_step_trap : stepWarp (State.reset.withFetchWord 64 (wordOf (.trap ⟨15, false, 0, 0x77, 0⟩)).toNat)
    (fun w => w.ucause = 0x00A && w.utval = 0x77) = true := by decide +kernel
/-- R116: NAP parks the warp for its cycles, and its threads are at PC + 8. -/
theorem test_step_nap : stepWarp (State.reset.withFetchWord 64 (wordOf (.napImm ⟨15, false, 0, 0, 9, 0, false, 0⟩)).toNat)
    (fun w => w.park = some (.nap 9) && w.frontier.any (fun e => e.pc = 0x10008)) = true := by decide +kernel

/-! ### Witnesses: how a state is shown to meet hypotheses -/

/-- An instruction, its checks, a state, and what the issue must satisfy beside `Admitted`. -/
structure Case where
  i : Instr
  o : Opts
  s : State
  c : Env → Bool

/-- The instruction is well formed, its issue opens and passes its checks, and the condition holds. -/
def Case.ok (q : Case) : Bool :=
  q.i.wellFormed &&
    match openIssue q.i (wordOf q.i) q.s with
    | some env => (precheck q.o env).isNone && !env.spin && decide (env.p ≠ 0) && q.c env
    | none => false

/-- A well-formed instruction is admitted and the condition holds. -/
def Case.Shown (q : Case) : Prop := q.i.wellFormed = true ∧ ∃ env, Admitted q.i q.o q.s env ∧ q.c env = true

theorem case_shown (q : Case) (h : q.ok = true) : q.Shown := by
  unfold Case.ok at h
  simp only [Bool.and_eq_true] at h
  refine ⟨h.1, ?_⟩
  have h := h.2
  split at h
  · rename_i env he
    simp only [Bool.and_eq_true, Option.isNone_iff_eq_none, Bool.not_eq_true', decide_eq_true_eq] at h
    exact ⟨env, ⟨he, h.1.1.1, h.1.1.2, h.1.2⟩, h.2⟩
  · cases h

theorem cases_shown (qs : List Case) (h : qs.all Case.ok = true) : ∀ q ∈ qs, q.Shown :=
  fun q hq => case_shown q (List.all_eq_true.mp h q hq)

/-- An issue that opens and meets a condition, for the statements that do not ask for `Admitted`. -/
def opens (i : Instr) (s : State) (c : Env → Bool) : Bool :=
  match openIssue i (wordOf i) s with
  | some env => c env
  | none => false

theorem opens_shown (i : Instr) (s : State) (c : Env → Bool) (h : opens i s c = true) :
    ∃ env, openIssue i (wordOf i) s = some env ∧ c env = true := by
  unfold opens at h
  split at h
  · exact ⟨_, ‹_›, h⟩
  · cases h

/-- A condition on every lane of P. -/
def lanesAll (env : Env) (f : Nat → Bool) : Bool := (List.range 32).all (fun t => !env.p.has t || f t)
/-- A condition on some lane of P. -/
def lanesAny (env : Env) (f : Nat → Bool) : Bool := (List.range 32).any (fun t => env.p.has t && f t)

/-- Bodies with the guard that is always true. -/
def r3 (d a b c : BitVec 8) (f : BitVec 4) (x : BitVec 9) : RRR := ⟨15, false, d, a, b, c, f, false, false, false, x⟩
def ri (d a : BitVec 8) (imm : BitVec 16) (f : BitVec 4) (x : BitVec 9) : RI := ⟨15, false, d, a, imm, f, false, x⟩
def mf (d a b off : BitVec 8) (f : BitVec 4) (x : BitVec 9) : MF := ⟨15, false, d, a, b, off, f, false, false, false, x⟩
/-- The same for the two threads of p3. -/
def r3p (d a b c : BitVec 8) (f : BitVec 4) (x : BitVec 9) : RRR := { r3 d a b c f x with pg := 3 }
def mfp (d a b off : BitVec 8) (f : BitVec 4) (x : BitVec 9) : MF := { mf d a b off f x with pg := 3 }
def bf (off : BitVec 32) (tpri x : BitVec 8) : BF := ⟨15, false, off, tpri, x⟩
def i32 (d : BitVec 8) (imm : BitVec 32) (x : BitVec 8) : I32 := ⟨15, false, d, imm, x⟩

/-! ### The state of the witnesses -/

/-- A context over two dies with two clusters by two, a vault way, private windows at 0x20000000, four pewter channels of each kind
and a multicast group. -/
def tParams : CtxParams :=
  { bootParams with
    dies := [0, 1], x1 := 1, y1 := 1, vaultw := 1, hw := 65536, privBase := 0x20000000, nb := 4, nc := 4
    groups := [(0, [BitVec.ofNat 64 (2 ^ 63 + 2 * 2 ^ 56 + 0x80 * 2 ^ 48 + 0x10000), BitVec.ofNat 64 (0x81 * 2 ^ 56 + 0x2000),
      BitVec.ofNat 64 (0x82 * 2 ^ 56 + 0x4000)])] }

/-- A launch of one block of two warps with 4096 bytes of scratchpad, accumulator slots, two stages and a message handler. -/
def tLaunch : Launch :=
  { bootLaunch with
    rcd := { bootLaunch.rcd with levels := [(1, 2, 2), (64, 0, 0)], scr := 4096, acc := 48, nstg := 2, stages := [(0, 0), (6, 1), (0, 0), (0, 0)] }
    handlers := [0x10000] }

/-- The package with that block at warp slots 0 and 8 of core 0. -/
def tPackage : State :=
  let s := State.reset
  let x := newContext s tParams .running
  let s := { s with rdy := 0x1FFFFFFFFFF, nextCtx := 1, ctxs := [{ x with sliceLeft := x.newSlice, launches := [tLaunch], nextQ := 2 }] }
  let s := (startBlock s x.id tLaunch (tLaunch.startGrid { num := 0, core := 0, base := 0, slots := [0, 8] })).writePtes bootTables
  { s with cur := some (0, 2) }

/-- Changes the warp that issues. -/
def editWarp (s : State) (f : Warp → Warp) : State :=
  { s with ctxs := s.ctxs.map (fun x => { x with warps := x.warps.map (fun w => if w.uid = 2 then f w else w) }) }
/-- Changes the context. -/
def editCtx (s : State) (f : Context → Context) : State := { s with ctxs := s.ctxs.map f }

/-- A tile descriptor: base, rows, columns, format slot and row stride, in global memory (R179). -/
def td (base rows cols fmt stride : Nat) : BitVec 256 :=
  BitVec.ofNat 256 (base + rows * 2 ^ 64 + cols * 2 ^ 80 + fmt * 2 ^ 100 + stride * 2 ^ 128)

/-- A slot definition (R55): widths, bias, SUB, INF, NAN, INV and BLK; rounding is to nearest even. -/
def slotDef (ew mw bias sub inf nan inv blk : Nat) : Word :=
  BitVec.ofNat 64 (2 ^ 63 + 2 ^ 62 + ew * 2 ^ 58 + mw * 2 ^ 52 + bias * 2 ^ 40 + sub * 2 ^ 38 + inf * 2 ^ 36 + nan * 2 ^ 34 + inv * 2 ^ 28 + blk * 2 ^ 26)

/-- The registers of the issuing warp: addresses and values that the cases use. Slot 0 is binary32, 1 is binary16, 2 is E4M3 with
neither NaN nor infinity and the trap of Invalid, 3 is E4M3 with block headers. -/
def tWarp (w : Warp) : Warp :=
  { w with
    sregs := [(2, 1), (3, 0x20000), (4, 0x21000), (5, 0x20001), (6, slotDef 5 10 15 0 1 1 0 0), (7, 2 ^ 63), (8, 0x400), (9, 0xFF), (10, 2 ^ 32),
      (11, 0x40000000), (12, 2 ^ 40), (16, 0xFF00), (17, 0x305), (18, 0x205), (19, 5), (21, 2 ^ 57), (22, 0x2000), (23, 0x140), (25, 4)]
    vregs := ((List.range 32).map (fun t => (vkey 1 t, BitVec.ofNat 64 (t + 1)))) ++
      ((List.range 32).map (fun t => (vkey 2 t, BitVec.ofNat 64 (0x20000 + 16 * t)))) ++
      ((List.range 32).map (fun t => (vkey 3 t, BitVec.ofNat 64 (0x3F80000040000000 + t)))) ++
      ((List.range 32).map (fun t => (vkey 4 t, 0x7878787878787878))) ++
      ((List.range 32).map (fun t => (vkey 7 t, 0xF8F8F8F8F8F8F8F8))) ++
      ((List.range 32).map (fun t => (vkey 9 t, 0x7F8000007F800000)))
    tdescs := [(0, td 0x20000 64 64 1 128), (1, td 0x22000 64 64 1 128), (2, td 0x26000 64 64 3 80), (3, td 0x28000 64 64 3 80), (4, td 0x2A000 128 64 1 128),
      (5, td 0x30000 64 128 1 256), (6, td 0x38000 128 64 3 80), (7, td 0x20000 2 2 1 8)]
    preds := [(1, 0xFF), (3, 0x9), (4, 1)]
    slots := [(0, slotDef 8 23 127 0 1 1 0 0), (1, slotDef 5 10 15 0 1 1 0 0), (2, slotDef 4 3 7 0 0 0 0 0), (3, slotDef 4 3 7 0 0 0 0 1)] }

/-- The state of most witnesses. -/
def tState : State := editWarp tPackage tWarp

/-! ### Witnesses of the statements about uniform, integer and lane instructions -/

/-- A case in `tState`. -/
def at_ (i : Instr) (o : Opts) (c : Env → Bool) : Case := ⟨i, o, tState, c⟩
/-- The condition of a statement that asks nothing more. -/
def any (_ : Env) : Bool := true
/-- Forms of one shape in `tState`, with nothing asked but that they are admitted. -/
def plainly {α : Type} (fs : List (α → Instr)) (r : α) : List Case := fs.map (fun f => at_ (f r) .plain (fun _ => true))

theorem witness_UniformResults : ∀ q ∈
    plainly [Instr.sadd, .ssub, .smul, .smulh, .sand, .sor, .sxor, .sshl, .smin, .scmp] (r3 1 2 3 0 0 0) ++
    plainly [Instr.smulh, .sshr, .smax, .scmp] (r3 1 2 3 0 0 1) ++ plainly [Instr.ssra, .smin] (r3 1 2 3 0 0 2) ++ plainly [Instr.smax] (r3 1 2 3 0 0 3) ++ plainly [Instr.saddi] (ri 1 2 7 0 0) ++ plainly [Instr.sldi, .sldhi] (i32 1 7 0) ++
    plainly [Instr.sldi] (i32 1 7 1) ++ plainly [Instr.ssel] (r3 1 2 3 4 0 0) ++ plainly [Instr.vbc] (r3 1 2 0 0 0 0) ++
    [at_ (.sget (r3 1 2 3 0 0 0)) (sgetOpts (r3 1 2 3 0 0 0)) (fun _ => true), at_ (.sgetFirst (r3 1 2 0 0 0 1)) sgetFirstOpts (fun _ => true)],
    q.Shown := cases_shown _ (by decide +kernel)

theorem witness_IntegerElementResults : ∀ q ∈
    plainly [Instr.iadd, .isub, .imul, .imulh, .iand, .ior, .ixor, .ishl, .imin] (r3 5 1 2 0 0 0) ++
    plainly [Instr.iadd, .isub, .imul, .ishr, .imax] (r3 5 1 2 0 0 8) ++ plainly [Instr.isra] (r3 5 1 2 0 0 0x13) ++ plainly [Instr.imad] (r3 5 1 2 3 0 3) ++
    plainly [Instr.ipopc] (r3 5 1 0 0 0 1) ++ plainly [Instr.iclz] (r3 5 1 0 0 0 9), q.Shown := cases_shown _ (by decide +kernel)

theorem witness_IntegerSelectsAndImmediates : ∀ q ∈
    plainly [Instr.icmp, .icmpm] (r3 5 1 2 0 0 3) ++ plainly [Instr.icmpi, .iaddi, .iandi, .ishli] (ri 5 1 3 0 3) ++ plainly [Instr.iaddi, .iori, .ishri] (ri 5 1 3 0 0xB) ++
    plainly [Instr.ixori] (ri 5 1 3 0 0x13) ++
    plainly [Instr.isel] (r3 5 1 2 1 0 0) ++ plainly [Instr.ibfe, .ibfi] (r3 5 1 2 3 0 2) ++ plainly [Instr.iselM] (r3 5 1 2 3 0 0xA) ++ plainly [Instr.lea] (r3 5 1 2 0 0 11) ++
    plainly [Instr.mov] (r3 5 1 0 0 0 0) ++ plainly [Instr.movi] (i32 5 9 3) ++ plainly [Instr.moviHi] (i32 5 9 0xB), q.Shown := cases_shown _ (by decide +kernel)

theorem witness_LaneResults : ∀ q ∈
    [at_ (.shfl (r3 5 1 2 0 0 0)) (shflOpts (r3 5 1 2 0 0 0)) (fun _ => true), at_ (.shflud (r3 5 1 2 0 0 0)) (shfludOpts (r3 5 1 2 0 0 0)) (fun _ => true)] ++
    plainly [Instr.vote] (r3 5 1 0 0 0 0) ++ plainly [Instr.matchEq, .mrank, .mlead] (r3 5 1 0 0 0 0) ++ plainly [Instr.elect] (r3 5 0 0 0 0 1) ++
    plainly [Instr.plog] (r3 5 1 2 3 0 0x96) ++ plainly [Instr.pmov] (r3 5 0 0 0 0 0) ++ plainly [Instr.pmovSet] (r3 0 1 0 0 0 1) ++
    plainly [Instr.pbal] (r3 5 1 0 0 0 1), q.Shown := cases_shown _ (by decide +kernel)

theorem witness_LaneReductions : ∀ q ∈ plainly [Instr.redux, .scan] (r3 5 1 0 0 0 3), q.Shown := cases_shown _ (by decide +kernel)

/-! ### Witnesses of the statements about slot arithmetic -/

/-- The two sides of an instruction of R146, in `tState`: every element encodes; some element of a thread of P is Invalid under the trap
policy. -/
def encodes (i : Instr) (o : Opts) (rm : Env → Rm) (elems : Env → Nat → List (Nat → Option Nat)) : List Case :=
  [at_ i o (fun env => lanesAll env (fun t => (env.badElem (rm env) (elems env) t).isNone))]
def invalid (i : Instr) (o : Opts) (rm : Env → Rm) (elems : Env → Nat → List (Nat → Option Nat)) : List Case :=
  [at_ i o (fun env => lanesAny env (fun t => (env.badElem (rm env) (elems env) t).isSome))]

/-- The elements of the ordinary form. -/
def rounded (f : BitVec 4) (rmCode : Nat) (a : BitVec 8) (op : Env → Rm → Nat → Nat → Val) (env : Env) (t : Nat) : List (Nat → Option Nat) :=
  (List.range (env.slot f).elems).map (fun k u =>
    (env.slot f).encode (op env (rmOf rmCode (env.slot f)) t k) (rmOf rmCode (env.slot f)) ((env.slot f).sign (env.v a t) k) u)

/-- Both sides of an ordinary slot instruction: in binary32 under nearest even, and in E4M3 with the trap policy. -/
def slotBoth (mk : RRR → Instr) (c : BitVec 8) (op : RRR → Env → Rm → Nat → Nat → Val) (a b : BitVec 8) (fbad : BitVec 4) (bad : Bool) : List Case :=
  let r := r3p 5 3 b c 0 8
  let q := r3p 5 a b c fbad 8
  encodes (mk r) .plain (fun env => rmOf 1 (env.slot 0)) (rounded 0 1 3 (op r)) ++
    (if bad then invalid (mk q) .plain (fun env => rmOf 1 (env.slot fbad)) (rounded fbad 1 a (op q)) else [])

theorem witness_SlotArithmeticResults : ∀ q ∈
    slotBoth .fadd 0 (fun r env rm t k => Val.sum [(env.val r.f r.a t k), (env.val r.f r.b t k)] rm) 4 4 2 true ++
    slotBoth .fsub 0 (fun r env rm t k => Val.sum [(env.val r.f r.a t k), (env.val r.f r.b t k).flip true] rm) 4 6 2 false ++
    slotBoth .fmul 0 (fun r env _ t k => Val.mul (env.val r.f r.a t k) (env.val r.f r.b t k)) 4 4 2 true ++
    slotBoth .fdiv 0 (fun r env _ t k => Val.div (env.val r.f r.a t k) (env.val r.f r.b t k)) 4 6 2 true ++
    slotBoth .ffma 3 (fun r env rm t k => if Val.mulInvalid (env.val r.f r.a t k) (env.val r.f r.b t k) then .nan
      else Val.sum [(Val.mul (env.val r.f r.a t k) (env.val r.f r.b t k)).flip (r.x.getLsbD 1), (env.val r.f r.c t k).flip (r.x.getLsbD 0)] rm) 4 4 2 true,
    q.Shown := cases_shown _ (by decide +kernel)

theorem witness_SlotArithmeticResults_approximations : ∀ q ∈
    slotBoth .fsqrt 0 (fun r env _ t k => Val.sqrt (env.val r.f r.a t k)) 7 0 2 true ++
    slotBoth .frcp 0 (fun r env _ t k => Val.rcp (env.val r.f r.a t k)) 6 0 2 true ++
    slotBoth .frsq 0 (fun r env _ t k => Val.rsq (env.val r.f r.a t k)) 7 0 2 true ++
    encodes (.fexp2 (r3p 5 9 0 0 0 8)) .plain (fun env => rmOf 1 (env.slot 0)) (rounded 0 1 9 (fun env _ t k => Val.exp2 (env.val 0 9 t k))) ++
    invalid (.fexp2 { r3 5 4 0 0 2 8 with pg := 4 }) .plain (fun env => rmOf 1 (env.slot 2)) (rounded 2 1 4 (fun env _ t k => Val.exp2 (env.val 2 4 t k))) ++
    slotBoth .flog2 0 (fun r env _ t k => Val.log2v (env.val r.f r.a t k)) 7 0 2 true ++
    slotBoth .fscale 0 (fun r env _ t k => (env.val r.f r.a t k).scale2 (signedOf 32 ((env.v r.b t).toNat % 2 ^ 32))) 4 1 2 true,
    q.Shown := cases_shown _ (by decide +kernel)

theorem witness_SlotImmediateResults : ∀ q ∈
    (let r := ri 5 3 0x3F80 0 8
     encodes (.faddi r) .slotImm (fun _ => .rne) (rounded 0 1 3 (fun env rm t k =>
        Val.sum [env.val r.f r.a t k, (env.slot r.f).decode (immCode (env.slot r.f) r.imm.toNat k)] rm)) ++
      encodes (.fmuli r) .slotImm (fun _ => .rne) (rounded 0 1 3 (fun env _ t k =>
        Val.mul (env.val r.f r.a t k) ((env.slot r.f).decode (immCode (env.slot r.f) r.imm.toNat k)))) ++
      encodes (.ffmai r) .slotImm (fun _ => .rne) (rounded 0 1 3 (fun env rm t k =>
        fmaVal (r.x.getLsbD 1) (r.x.getLsbD 0) rm (env.val r.f r.a t k) ((env.slot r.f).decode (immCode (env.slot r.f) r.imm.toNat k))
          (env.val r.f r.d t k)))) ++
    (let r := ri 5 4 0x7878 2 8
     invalid (.faddi r) .slotImm (fun _ => .rne) (rounded 2 1 4 (fun env rm t k =>
        Val.sum [env.val r.f r.a t k, (env.slot r.f).decode (immCode (env.slot r.f) r.imm.toNat k)] rm)) ++
      invalid (.fmuli r) .slotImm (fun _ => .rne) (rounded 2 1 4 (fun env _ t k =>
        Val.mul (env.val r.f r.a t k) ((env.slot r.f).decode (immCode (env.slot r.f) r.imm.toNat k)))) ++
      invalid (.ffmai r) .slotImm (fun _ => .rne) (rounded 2 1 4 (fun env rm t k =>
        fmaVal (r.x.getLsbD 1) (r.x.getLsbD 0) rm (env.val r.f r.a t k) ((env.slot r.f).decode (immCode (env.slot r.f) r.imm.toNat k))
          (env.val r.f r.d t k)))), q.Shown := cases_shown _ (by decide +kernel)

/-- The elements of FSUM, FDOT and SCAN.fadd. -/
def fsumElems (r : RRR) (env : Env) (t : Nat) : List (Nat → Option Nat) :=
  [fun u => (env.slot r.f).encode (Val.sum ((List.range (env.slot r.f).elems).map (env.val r.f r.a t) ++
    (if r.x.getLsbD 0 then [env.val r.f r.b t 0] else [])) .rne) .rne ((env.slot r.f).sign (env.v r.a t) 0) u]
def fdotElems (r : RRR) (env : Env) (t : Nat) : List (Nat → Option Nat) :=
  [fun u => (env.slot r.f).encode (Val.sum ((List.range (env.slot r.f).elems).map (fun k =>
    Val.mul (env.val r.f r.a t k) (env.val r.f r.b t k)) ++ (if r.x.getLsbD 0 then [env.val r.f r.c t 0] else [])) .rne) .rne
    ((env.slot r.f).sign (env.v r.a t) 0) u]
def scanElems (r : RRR) (env : Env) (t : Nat) : List (Nat → Option Nat) :=
  (List.range (env.slot r.f).elems).map (fun k u => if scanLanes env.p (r.x.getLsbD 6) t = [] then some 0
    else (env.slot r.f).encode (Val.sum ((scanLanes env.p (r.x.getLsbD 6) t).map (fun v => env.val r.f r.a v k)) (env.slot r.f).rm)
      (env.slot r.f).rm ((env.slot r.f).sign (env.v r.a env.p.low) k) u)

theorem witness_SlotSumAndScanResults : ∀ q ∈
    encodes (.fsum (r3 5 3 0 0 0 8)) .plain (fun _ => .rne) (fsumElems (r3 5 3 0 0 0 8)) ++
    invalid (.fsum (r3 5 4 0 0 2 8)) .plain (fun _ => .rne) (fsumElems (r3 5 4 0 0 2 8)) ++
    encodes (.fdot (r3 5 3 3 0 0 8)) .plain (fun _ => .rne) (fdotElems (r3 5 3 3 0 0 8)) ++
    invalid (.fdot (r3 5 4 4 0 2 8)) .plain (fun _ => .rne) (fdotElems (r3 5 4 4 0 2 8)) ++
    encodes (.scanFadd (r3 5 3 0 0 0 0x58)) .plain (fun env => (env.slot 0).rm) (scanElems (r3 5 3 0 0 0 0x58)) ++
    invalid (.scanFadd (r3 5 4 0 0 2 0x18)) .plain (fun env => (env.slot 2).rm) (scanElems (r3 5 4 0 0 2 0x18)) ++
    [at_ (.fredx (r3 9 3 0 0 0 0)) .plain (fun env => (fredxRun env (r3 9 3 0 0 0 0) (env.slot 0)).2.all Option.isSome),
     at_ (.fredx (r3 9 4 0 0 2 0)) .plain (fun env => !(fredxRun env (r3 9 4 0 0 2 0) (env.slot 2)).2.all Option.isSome)],
    q.Shown := cases_shown _ (by decide +kernel)

theorem witness_ConversionResults : ∀ q ∈
    [at_ (.fcvt (r3 5 3 1 3 0 0x24)) (.convert 0x24 .scalar) (fun env => 1 < (env.slot 0).elems && 3 < (env.w.slot 1).elems &&
        lanesAll env (fun t => (env.badElem .rne (fun t => (List.range (min ((env.slot 0).elems - 1) ((env.w.slot 1).elems - 3))).map (fun j u =>
          (env.w.slot 1).encode (env.val 0 3 t (1 + j)) .rne ((env.slot 0).sign (env.v 3 t) (1 + j)) u)) t).isNone)),
     at_ (.fcvt (r3 5 3 2 0 0 0x24)) (.convert 0x24 .scalar) (fun env => (env.slot 0).elems ≤ 2),
     at_ (.fcvt (r3 5 3 0 4 0 0x24)) (.convert 0x24 .scalar) (fun env => (env.w.slot 1).elems ≤ 4),
     at_ (.fbscl (r3 5 4 3 7 3 0x24)) (.convert 0x24 .block) (fun env => 7 < (env.slot 3).elems && 0 < (env.w.slot 1).elems &&
        lanesAll env (fun t => (env.badElem .rne (fun t => (List.range (min ((env.slot 3).elems - 7) (env.w.slot 1).elems)).map (fun j u =>
          (env.w.slot 1).encode ((env.slot 3).blockValue (env.v 3 t) ((env.slot 3).code (env.v 4 t) (7 + j))) .rne
            ((env.slot 3).sign (env.v 4 t) (7 + j)) u)) t).isNone)),
     at_ (.ftoi (r3 5 3 1 1 0 0xA)) .plain (fun env => 1 < (env.slot 0).elems && 1 < 64 / ewOf 2),
     at_ (.itof (r3 5 1 1 1 0 0xA)) .plain (fun env => 1 < 64 / ewOf 2 && 1 < (env.slot 0).elems &&
        lanesAll env (fun t => (env.badElem .rne (fun t => (List.range (min (64 / ewOf 2 - 1) ((env.slot 0).elems - 1))).map (fun j u =>
          (env.slot 0).encode (Val.ofInt (elemInt 2 (env.v 1 t) (1 + j))) .rne (decide (2 ^ (ewOf 2 - 1) ≤ elemOf (ewOf 2) (env.v 1 t) (1 + j))) u)) t).isNone))] ++
    encodes (.frnd (r3 5 3 0 0 0 8)) .plain (fun _ => .rne) (fun env t => (List.range (env.slot 0).elems).map (fun k u => (env.slot 0).encode
      ((env.val 0 3 t k).roundInt .rne u) .rne ((env.slot 0).sign (env.v 3 t) k) u)) ++
    encodes (.fabsn (r3 5 3 0 0 0 1)) .plain (fun _ => .rne) (fun env t => (List.range (env.slot 0).elems).map (fun k =>
      fabsnElem 1 (env.slot 0) ((env.slot 0).code (env.v 3 t) k) ((env.slot 0).code (env.v 0 t) k))),
    q.Shown := cases_shown _ (by decide +kernel)

theorem witness_SlotComparesAndMoves : ∀ q ∈
    plainly [Instr.fmin, .fmax, .fcmp, .fpack] (r3 5 3 4 0 0 0) ++ plainly [Instr.fcmp] (r3 5 3 4 0 0 0x41) ++
    plainly [Instr.fclass] (r3 5 3 0 0 0 0x1F), q.Shown := cases_shown _ (by decide +kernel)

/-! ### Witnesses of the statements about control, traps and handlers -/

theorem witness_GuardFalseIssueHasNoEffect : ∃ env, openIssue (.sadd ⟨15, true, 1, 2, 3, 0, 0, false, false, false, 0⟩)
    (wordOf (.sadd ⟨15, true, 1, 2, 3, 0, 0, false, false, false, 0⟩)) tState = some env ∧
    ((precheck .plain env).isNone && !env.spin && decide (env.p = 0) && decide (env.e.mask ≠ 0)) = true :=
  opens_shown _ _ _ (by decide +kernel)

theorem witness_NopAndBranchesSendTheirThreads : ∀ q ∈
    plainly [Instr.nop] (r3 0 0 0 0 0 0) ++ [at_ (.bra (bf 5 9 0)) .jump any, at_ (.bruAny (bf 5 9 0)) .jump any, at_ (.bruAll (bf 0xFFFFFFFD 9 1)) .jump any,
      at_ (.bruAll ⟨1, false, 5, 9, 1⟩) .jump (fun env => env.p ≠ env.e.mask), at_ (.bra ⟨1, true, 5, 9, 0⟩) .jump any],
    q.Shown := cases_shown _ (by decide +kernel)

theorem witness_TransfersOfControl : ∀ q ∈
    plainly [Instr.yield] (r3 0 0 0 0 0 0) ++
    [at_ (.brx (ri 0 8 7 0 0)) .jump (fun env => lanesAll env (fun t => (env.v 8 t).toNat < 2 ^ 57 && (env.v 8 t).toNat % 8 = 0)),
     at_ (.brx (ri 0 1 7 0 0)) .jump (fun env => lanesAny env (fun t => !((env.v 1 t).toNat < 2 ^ 57 && (env.v 1 t).toNat % 8 = 0))),
     at_ (.brx (ri 0 4 7 0 0)) .jump (fun env => lanesAny env (fun t => 2 ^ 57 ≤ (env.v 4 t).toNat)),
     at_ (.prioImm (ri 0 0 9 0 0)) .plain any, at_ (.prioReg (ri 0 1 0 0 1)) .plain any,
     at_ (.napImm (ri 0 0 9 0 0)) .resets any, at_ (.napImm (ri 0 0 0 0 0)) .resets any, at_ (.napReg (ri 0 9 0 0 1)) .resets any,
     at_ (.napReg (ri 0 10 0 0 1)) .resets (fun env => (env.s 10).toNat % 2 ^ 32 = 0)], q.Shown := cases_shown _ (by decide +kernel)

/-- With one call record below the top of each stack. -/
def tCalled : State := editWarp tState (fun w => { w with csp := w.csp.map (fun q => (q.1, q.2 - 16)) })

theorem witness_CallsAndReturns : ∀ q ∈
    [at_ (.call (bf 5 9 0)) .plain (fun env => (env.checkPlan (env.recordPlan (-16) true)).isNone),
     at_ (.callx (ri 0 8 7 0 0)) .plain (fun env => (env.checkPlan (env.recordPlan (-16) true)).isNone &&
       lanesAll env (fun t => (env.v 8 t).toNat < 2 ^ 57 && (env.v 8 t).toNat % 8 = 0)),
     ⟨.ret (r3 0 0 0 0 0 0), .plain, tCalled, fun env => lanesAll env (fun t => env.stackOff t < env.pws) &&
       (env.checkPlan (env.recordPlan 0 false)).isNone && (env.readNow (env.recordPlan 0 false)).isNone &&
       lanesAll env (fun t => (BitVec.ofNat 57 (env.popped (env.recordPlan 0 false) t)).toNat % 8 = 0)⟩,
     at_ (.ret (r3 0 0 0 0 0 0)) .plain (fun env => lanesAny env (fun t => (env.pws : Int) ≤ env.stackOff t))],
    q.Shown := cases_shown _ (by decide +kernel)

/-- No other entry has the entry's pair or its threads. -/
def apart (e : Entry) (fr : List Entry) : Bool :=
  fr.all (fun y => decide (y = e) || (!y.same e && (List.range 32).all (fun t => !y.mask.has t || !e.mask.has t)))

theorem witness_ThreadsJoinAndExit : ∀ q ∈
    [at_ (.wjoin (ri 1 0 9 0 0)) .resets (fun env => env.w.region.isNone && env.w.frontier.contains env.e && apart env.e env.w.frontier &&
       env.w.wjoins.all (fun j => j.pc ≠ env.e.pc)),
     at_ (.exit ⟨1, false, 0, 0, 0, 0, 0, false, false, false, 0⟩) .resets (fun env => decide (env.w.live &&& ~~~env.p ≠ 0) && env.w.region.isNone && tLaunch.rcd.innerLevels.all (fun v => v.2.2 < 2) &&
       env.w.frontier.contains env.e && apart env.e env.w.frontier),
     at_ (.exit (r3 0 0 0 0 0 0)) .resets (fun env => env.w.live &&& ~~~env.p = 0)], q.Shown := cases_shown _ (by decide +kernel)

theorem witness_TrapInstructions : (∀ q ∈ [at_ (.trap (i32 0 7 0)) .plain any, at_ (.bkpt (i32 0 7 0)) .plain any], q.Shown) ∧
    ∃ env, openIssue (.unassignedOpcode 0xFF00000000000000) (wordOf (.unassignedOpcode 0xFF00000000000000)) tState = some env ∧ (!env.spin) = true :=
  ⟨cases_shown _ (by decide +kernel), opens_shown _ _ _ (by decide +kernel)⟩

/-- With a handler at 0x30000. -/
def tVector : State := editCtx tState (fun x => { x with utvec := 0x30000 })
/-- A word of a retired opcode, HADD's, whose header bit 48 is set. -/
def badRetired : Word := 0xF0F1000000000000
theorem witness_TrapInstructions_retired : ∃ env, openIssue (.unassignedOpcode badRetired) badRetired tState = some env ∧
    (!env.spin && decide (retiredCause (natBits badRetired.toNat 63 56) = some .retiredHadd)) = true := opens_shown _ _ _ (by decide +kernel)
/-- R97, R101: such a word enters firmware mode with its cause before ILLEGAL_OPC ends it. -/
theorem test_retired_header : (match exec (.unassignedOpcode badRetired) tVector with
    | .next t => t.ctxs.any (fun x => x.warps.any (fun w => w.finsn = badRetired && w.fcause = BitVec.ofNat 9 (Cause.retiredHadd.code) &&
        w.ucause = BitVec.ofNat 9 Cause.illegalOpc.code && decide (w.mode = .handler false)))
    | _ => false) = true := by decide +kernel

/-- In that handler after a trap of every thread at priority 0. -/
def tHandler (preempt : Bool) : State :=
  editWarp tVector (fun w => { w with
    mode := .handler preempt
    saved := some { frontier := [], park := none, grantLeft := 0, wc := 0, entered := w.live, pris := [], granted := false, demoted := false } })

theorem witness_TrapEntry : ∃ env, openIssue (.trap (i32 0 7 0)) (wordOf (.trap (i32 0 7 0))) tVector = some env ∧
    env.canHandle { cause := .userTrap, tval := 7, mask := env.p } = true := opens_shown _ _ (fun env => env.canHandle _) (by decide +kernel)
theorem witness_TrapEndsLaunch : ∃ env, openIssue (.trap (i32 0 7 0)) (wordOf (.trap (i32 0 7 0))) tState = some env ∧
    (!env.canHandle { cause := .userTrap, tval := 7, mask := env.p }) = true := opens_shown _ _ (fun env => !env.canHandle _) (by decide +kernel)

theorem witness_HandlerReturns : ∀ q ∈ (
    [⟨.eret (r3 0 0 0 0 0 0), .plain, tHandler false, fun env => decide (env.w.mode = .handler false) && env.w.saved.isSome && !env.w.signal⟩,
     ⟨.eretNext (r3 0 0 0 0 0 1), .plain, tHandler false, fun env => decide (env.w.mode = .handler false) && env.w.saved.isSome && !env.w.signal⟩,
     ⟨.eret (r3 0 0 0 0 0 0), .plain, tHandler true, fun env => decide (env.w.mode = .handler true) && env.w.saved.isSome && !env.w.signal⟩,
     ⟨.eretNext (r3 0 0 0 0 0 1), .plain, tHandler true, fun env => decide (env.w.mode = .handler true) && env.w.saved.isSome && !env.w.signal⟩,
     ⟨.eret (r3 0 0 0 0 0 0), .plain, editWarp (tHandler false) (fun w => { w with signal := true }), fun env =>
       decide (env.w.mode = .handler false) && env.w.saved.isSome && env.w.signal⟩,
     ⟨.eretNext (r3 0 0 0 0 0 1), .plain, editWarp tState (fun w => { w with mode := .firmware false false }), fun env => env.w.mode = .firmware false false⟩,
     ⟨.eret (r3 0 0 0 0 0 0), .plain, tState, fun env => env.w.mode = .program⟩,
     ⟨.eretNext (r3 0 0 0 0 0 1), .plain, tState, fun env => env.w.mode = .program⟩] : List Case), q.Shown := cases_shown _ (by decide +kernel)

/-- Where the next issue brings WC to its limit. -/
def tSpin : State := editCtx tVector (fun x => { x with wdog := 1 })

theorem witness_WatchdogTrap : ∃ env, openIssue (.nop (r3 0 0 0 0 0 0)) (wordOf (.nop (r3 0 0 0 0 0 0))) tSpin = some env ∧
    (env.spin && env.canHandle env.spinTrap && (match attempt .plain env .done with | .hold _ => false | _ => true)) = true :=
  opens_shown _ _ _ (by decide +kernel)

/-! ### Witnesses of the statements about memory -/

/-- How the checks of a plan end. -/
def passes (pl : Env → Plan) (env : Env) : Bool := (env.checkPlan (pl env)).isNone && (env.absentLines (pl env)).isEmpty
def trapsAt (pl : Env → Plan) (env : Env) : Bool := match env.checkPlan (pl env) with | some (.trap _) => true | _ => false
def holdsAt (pl : Env → Plan) (env : Env) : Bool := match env.checkPlan (pl env) with | some (.hold _) => true | _ => false
def lineAbsent (pl : Env → Plan) (env : Env) : Bool := (env.checkPlan (pl env)).isNone && !(env.absentLines (pl env)).isEmpty

/-- The lines of the scratchpad are absent. -/
def tAbsent : State := editCtx tState (fun x => { x with absent := (List.range 32).map (fun k => keySram 0 0 0 / 128 + k) })

/-- A sized access: it passes at one address register, traps at another, and waits at a third where its pages can be missing. -/
def sizedCases (mk : MF → Instr) (o : Opts) (d : BitVec 8) (sp : Space) (x : BitVec 9) (am size : Nat) (rd wr : Bool) : List Case :=
  let pl (a : BitVec 8) (env : Env) : Plan := env.sized (mfp d a 0 0 0 x) sp am size size rd wr
  match sp with
  | .global => [⟨mk (mfp d 3 0 0 0 x), o, tState, passes (pl 3)⟩, ⟨mk (mfp d 5 0 0 0 x), o, tState, trapsAt (pl 5)⟩, ⟨mk (mfp d 11 0 0 0 x), o, tState, holdsAt (pl 11)⟩]
  | .scratch => [⟨mk (mfp d 8 0 0 0 x), o, tState, passes (pl 8)⟩, ⟨mk (mfp d 9 0 0 0 x), o, tState, trapsAt (pl 9)⟩,
      ⟨mk (mfp d 8 0 0 0 x), o, tAbsent, lineAbsent (pl 8)⟩]
  | .vault => [⟨mk (mfp d 12 0 0 0 x), o, tState, passes (pl 12)⟩, ⟨mk (mfp d 7 0 0 0 x), o, tState, trapsAt (pl 7)⟩]
  | .priv => [⟨mk (mfp d 8 0 0 0 x), o, tState, passes (pl 8)⟩, ⟨mk (mfp d 9 0 0 0 x), o, tState, trapsAt (pl 9)⟩]

/-- The same by vector address, by uniform base and vector index, and from CSP. -/
def modeCase (i : Instr) (o : Opts) (r : MF) (sp : Space) (am size : Nat) (rd wr : Bool) : List Case :=
  [at_ i o (passes (fun env => env.sized r sp am size size rd wr))]

theorem witness_LoadsMakeAccesses : ∀ q ∈
    sizedCases .ld .plain 5 .global 3 0 8 true false ++ sizedCases .ld2 .plain 5 .global 0 0 16 true false ++
    sizedCases .lds .plain 5 .scratch 3 0 8 true false ++ sizedCases .ldv .plain 5 .vault 3 0 8 true false ++
    sizedCases .ldacq .plain 5 .global 0x53 0 8 true false ++ sizedCases .ldpv .plain 5 .priv 3 0 8 true false ++
    sizedCases .ldu .plain 13 .global 3 0 8 true false ++
    modeCase (.ld (mfp 5 2 0 1 0 0x83)) .plain (mfp 5 2 0 1 0 0x83) .global 1 8 true false ++
    modeCase (.ld (mfp 5 3 1 0 0 0x10A)) .plain (mfp 5 3 1 0 0 0x10A) .global 2 4 true false ++
    modeCase (.ldpv (mfp 5 0 0 0xFF 0 0x183)) .plain (mfp 5 0 0 0xFF 0 0x183) .priv 3 8 true false ++
    [at_ (.ldp (mfp 5 3 0 0 2 0)) .anySlot (passes (fun env => env.packed (mfp 5 3 0 0 2 0) (env.slot 2) .global 0 (env.firstElem (mfp 5 3 0 0 2 0))
       (env.slot 2).elems 0 true false)),
     at_ (.ldp (mfp 5 5 0 0 2 0)) .anySlot (trapsAt (fun env => env.packed (mfp 5 5 0 0 2 0) (env.slot 2) .global 0 (env.firstElem (mfp 5 5 0 0 2 0))
       (env.slot 2).elems 0 true false)),
     at_ (.ldp (mfp 5 11 0 0 2 0)) .anySlot (holdsAt (fun env => env.packed (mfp 5 11 0 0 2 0) (env.slot 2) .global 0 (env.firstElem (mfp 5 11 0 0 2 0))
       (env.slot 2).elems 0 true false)),
     ⟨.ldp (mfp 5 8 0 0 2 0x10), .anySlot, tAbsent, lineAbsent (fun env => env.packed (mfp 5 8 0 0 2 0x10) (env.slot 2) .scratch 0
       (env.firstElem (mfp 5 8 0 0 2 0x10)) (env.slot 2).elems 0 true false)⟩], q.Shown := cases_shown _ (by decide +kernel)

theorem witness_StoresMakeAccesses : ∀ q ∈
    sizedCases .st .resets 1 .global 2 0 4 false true ++ sizedCases .st2 .resets 1 .global 0 0 16 false true ++
    sizedCases .sts .resets 1 .scratch 3 0 8 false true ++ sizedCases .stv .resets 1 .vault 3 0 8 false true ++
    sizedCases .strel .resets 1 .global 0x53 0 8 false true ++ sizedCases .stpv .resets 1 .priv 3 0 8 false true ++
    sizedCases .stu .resets 2 .global 3 0 8 false true ++
    modeCase (.st (mfp 1 2 0 1 0 0x83)) .resets (mfp 1 2 0 1 0 0x83) .global 1 8 false true ++
    [at_ (.stp (mfp 1 3 0 0 2 0)) .packedStore (passes (fun env => env.packed (mfp 1 3 0 0 2 0) (env.slot 2) .global 0 (env.firstElem (mfp 1 3 0 0 2 0))
       (env.slot 2).elems 0 false true)),
     at_ (.stp (mfp 1 5 0 0 2 0)) .packedStore (trapsAt (fun env => env.packed (mfp 1 5 0 0 2 0) (env.slot 2) .global 0 (env.firstElem (mfp 1 5 0 0 2 0))
       (env.slot 2).elems 0 false true))], q.Shown := cases_shown _ (by decide +kernel)

theorem witness_AtomicsMakeAccesses : ∀ q ∈
    [at_ (.atom (mf 1 2 0 0 0 0x13)) .resets (passes (fun env => env.sized (mf 1 2 0 0 0 0x13) .global 1 8 8 true true)),
     at_ (.atom (mf 1 1 0 0 0 3)) .resets (trapsAt (fun env => env.sized (mf 1 1 0 0 0 3) .global 1 8 8 true true)),
     at_ (.atoms (mf 1 8 0 0 0 0x13)) .resets (passes (fun env => env.sized (mf 1 8 0 0 0 0x13) .scratch 1 8 8 true true)),
     ⟨.atoms (mf 1 8 0 0 0 0x13), .resets, tAbsent, lineAbsent (fun env => env.sized (mf 1 8 0 0 0 0x13) .scratch 1 8 8 true true)⟩,
     at_ (.atomv (mf 1 12 1 0 0 0x13)) .resets (passes (fun env => env.sized (mf 1 12 1 0 0 0x13) .vault 2 8 8 true true)),
     at_ (.acas (mf 1 2 3 0 0 3)) .resets (passes (fun env => env.sized (mf 1 2 3 0 0 3) .global 1 8 8 true true)),
     at_ (.fatom (mf 1 2 0 0 0 0x13)) .resets (fun env => (env.checkPlan (env.sized (mf 1 2 0 0 0 0x13) .global 1 8 8 true true)).isNone &&
       ((env.slot 0).nan ≠ 0 || (env.slot 0).inv ≠ 0)),
     at_ (.fatom (mf 1 2 0 0 2 0x13)) .resets (fun env => (env.checkShape (env.sized (mf 1 2 0 0 2 0x13) .global 1 8 8 true true)).isNone &&
       (env.slot 2).nan = 0 && (env.slot 2).inv = 0)], q.Shown := cases_shown _ (by decide +kernel)

theorem witness_GatherAndScatter : ∀ q ∈
    [at_ (.ldg (mf 5 3 1 0 2 0x18)) .anySlot (fun env => 3 < (env.slot 2).elems &&
       passes (fun env => env.packed (mf 5 3 1 0 2 0x18) (env.slot 2) .global 0 (fun t => (env.v 1 t).toInt) 1 (3 * (env.slot 2).width) true false) env),
     at_ (.stsc (mf 1 3 1 0 2 0x38)) .packedStore (fun env => 7 < (env.slot 2).elems &&
       passes (fun env => env.packed (mf 1 3 1 0 2 0x38) (env.slot 2) .global 0 (fun t => (env.v 1 t).toInt) 1 (7 * (env.slot 2).width) false true) env),
     at_ (.ldg (mf 5 3 1 0 2 0x40)) .anySlot (fun env => (env.slot 2).elems ≤ 8), at_ (.stsc (mf 1 3 1 0 2 0x40)) .packedStore (fun env => (env.slot 2).elems ≤ 8),
     at_ (.pfetch (mf 0 3 0 0 0 0)) .plain any, at_ (.pfetch (mf 0 5 0 0 0 0x10)) .plain any], q.Shown := cases_shown _ (by decide +kernel)

theorem witness_PageBitsOnly : (match tState.ctx? 0 with
    | some x => (match findLeaf tState x 0 0x20000 true with
      | .leaf e _ (some a) => e.testBit 63 && a = 8192 && readBytes (touchLeaf tState x 0 0x20000 true).mem a 8 = e ||| 6 &&
          memByte (touchLeaf tState x 0 0x20000 true).mem 8200 = memByte tState.mem 8200
      | _ => false)
    | none => false) = true := by decide +kernel

/-! Accesses in flight, results owed. -/

/-- An access of the warp to the 8 bytes at 0x20000. -/
def acc0 (kind : AccKind) : Access :=
  { id := 50, uid := 2, ins := 50, core := 0, lane := 3, addr := 0x20000, cached := true, acq := none, rel := none, relAt := 0, kind := kind
    pieces := [{ pos := 0x20000 * 8, len := 64, off := 0 }] }
def dest0 : Dest := { uniform := false, reg := 5, lane := 3, prod := 9, allocGen := 0 }
def flying (kind : AccKind) : State := editCtx tState (fun x => { x with accesses := [acc0 kind] })

/-- The access may be performed, its kind as the statement asks, with no error in its bytes. -/
def mayGo (kind : AccKind) : Bool :=
  match (flying kind).ctx? 0 with
  | some x => (match x.accesses.find? (fun b => b.id = 50) with
    | some a => canPerform (flying kind) x a && decide (a.kind = kind) && ((flying kind).badPieces a.pieces).isEmpty
    | none => false)
  | none => false

theorem witness_AccessesArePerformed : ∀ k ∈ [AccKind.store 0x1234, .load dest0 none 8 false 0, .peek 3 5 7 dest0], mayGo k = true := by decide +kernel
theorem test_store_writes_its_bytes : (match exec (.accessPerform 0 50 false) (flying (.store 0x1234)) with
    | .next t => readBytes t.mem 0x20000 8 = 0x1234 && memByte t.mem 0x20008 = 0
    | _ => false) = true := by decide +kernel
theorem witness_AtomicsArePerformed : ∀ k ∈ [AccKind.atomic 0 false 8 5 (some dest0), .acas 8 0 7 dest0], mayGo k = true := by decide +kernel
theorem test_acas_compares : (match exec (.accessPerform 0 50 false) (flying (.acas 8 1 7 dest0)) with
    | .next t => readBytes t.mem 0x20000 8 = 0
    | _ => false) = true := by decide +kernel

/-- A result owed to lane 3 of v5 and the mark of its register. -/
def owing (uid : Nat) (m : Mark) : State :=
  editWarp (editCtx tState (fun x => { x with owed := [{ id := 60, uid := uid, dest := dest0, value := 77, bad := none }] }))
    (fun w => { w with vmarks := [(vkey 5 3, m)] })

theorem witness_ResultsReturn :
    (match (owing 2 (.empty 9)).ctx? 0 with
     | some x => (match x.warp? 2 with | some w => w.live.has 3 && 5 < w.nregs && w.allocGen = 0 && w.vmark 5 3 = .empty 9 | none => false)
     | none => false) = true ∧
    (match (owing 2 (.empty 10)).ctx? 0 with
     | some x => (match x.warp? 2 with | some w => w.live.has 3 && 5 < w.nregs && w.allocGen = 0 && w.vmark 5 3 ≠ .empty 9 | none => false)
     | none => false) = true ∧
    (match (owing 99 (.empty 9)).ctx? 0 with | some x => (x.warp? 99).isNone | none => false) = true := by decide +kernel
theorem test_result_fills_its_register : (match exec (.resultReturn 0 60) (owing 2 (.empty 9)) with
    | .next t => t.ctxs.any (fun x => x.owed.isEmpty && x.warps.any (fun w => w.readV 5 3 = 77 && w.vmark 5 3 = .full))
    | _ => false) = true := by decide +kernel

/-! ### Witnesses of the statements about registers, special values and shuffles -/

/-- The warp is in firmware mode. -/
def tFirmware : State := editWarp tState (fun w => { w with mode := .firmware false false })

theorem witness_SlotAndControlRegisters : ∀ q ∈
    [at_ (.fdrw (r3 4 6 0 0 0 0)) .plain (fun env => (env.s 6).getLsbD 63 && (Fmt.ofWord (env.s 6)).accepts),
     at_ (.fdrw (r3 4 2 0 0 0 0)) .plain (fun env => !(env.s 2).getLsbD 63),
     at_ (.fdrw (r3 4 7 0 0 0 0)) .plain (fun env => (env.s 7).getLsbD 63 && !(Fmt.ofWord (env.s 7)).accepts),
     at_ (.fdrr (r3 1 4 0 0 0 0)) .plain any,
     at_ (.csrr (ri 1 0 0x15 0 0)) .plain (fun env => env.csr 0x15 = some 0), at_ (.csrr (ri 1 0 0x99 0 0)) .plain (fun env => (env.csr 0x99).isNone),
     at_ (.csrwCtx (ri 0 2 0 0 0)) .plain (fun env => (env.s 2).toNat < 2), at_ (.csrwCtx (ri 0 3 0 0 0)) .plain (fun env => 2 ≤ (env.s 3).toNat),
     at_ (.csrwGencfg (ri 0 8 5 0 0)) .plain (fun env => (env.s 8).toNat < 2 ^ 14 && natBits (env.s 8).toNat 7 5 = 0 && natBits (env.s 8).toNat 13 8 ≤ 32),
     at_ (.csrwGencfg (ri 0 22 5 0 0)) .plain (fun env => (env.s 22).toNat < 2 ^ 14 && natBits (env.s 22).toNat 7 5 = 0 && natBits (env.s 22).toNat 13 8 = 32),
     at_ (.csrwFairt (ri 0 2 1 0 0)) .plain (fun env => (env.s 2).toNat < 2 ^ 16 && env.s 2 ≠ 0),
     at_ (.csrwFairq (ri 0 2 2 0 0)) .plain (fun env => (env.s 2).toNat < 2 ^ 16 && env.s 2 ≠ 0),
     at_ (.csrwWdog (ri 0 0 3 0 0)) .plain (fun env => (env.s 0).toNat < 2 ^ 32),
     at_ (.csrw (ri 0 2 4 0 0)) .plain any, at_ (.csrw (ri 0 2 6 0 0)) .plain any, at_ (.csrw (ri 0 2 7 0 0)) .plain any,
     at_ (.csrw (ri 0 3 0x10 0 0)) .plain (fun env => (env.s 3).toNat < 2 ^ 57 && (env.s 3).toNat % 8 = 0), at_ (.csrw (ri 0 2 0x15 0 0)) .plain any,
     at_ (.csrw (ri 0 3 0x11 0 0)) .plain (fun env => (env.s 3).toNat < 2 ^ 57 && (env.s 3).toNat % 8 = 0),
     ⟨.csrw (ri 0 2 0x100 0 0), .plain, tFirmware, fun env => env.w.firmware && (env.s 2).toNat < 32⟩,
     ⟨.csrwFres (ri 0 2 0x105 0 0), .plain, tFirmware, fun env => env.w.firmware⟩,
     at_ (.csrwFres (ri 0 2 0x105 0 0)) .plain (fun env => !env.w.firmware)], q.Shown := cases_shown _ (by decide +kernel)

theorem witness_SpecialValuesAndAllocation : ∀ q ∈
    [at_ (.sreg (ri 5 0 0x10 0 0)) .plain any, at_ (.sreg (ri 5 0 0x17 0 0)) .plain any, at_ (.sreg (ri 5 0 0x42 0 0)) .plain any,
     at_ (.sreg (ri 0 0 0x43 0 0)) .plain (fun _ => (sregClass 0x43).isNone),
     at_ (.rgrow (ri 1 0 8 0 0)) .plain (fun env => 8 ≤ env.w.nregs),
     ⟨.rgrow (ri 1 0 256 0 0), .plain, editWarp tState (fun w => { w with nregs := 8 }), fun env => env.w.nregs < 256⟩,
     at_ (.rshrk (ri 0 0 8 0 0)) .plain (fun env => 8 ≤ env.w.nregs), at_ (.rshrk (ri 0 0 256 0 0)) .plain (fun env => 256 ≤ env.w.nregs),
     ⟨.pdone (r3 0 0 0 0 0 0), .plain, tHandler true, fun env => env.w.mode = .handler true⟩,
     ⟨.pdone (r3 0 0 0 0 0 0), .plain, tHandler false, fun env => env.w.mode ≠ .handler true⟩,
     at_ (.fwcallVersion (i32 0 0 0)) .plain any, at_ (.fwcallVersion (i32 0 3 0)) .plain any, at_ (.fwcallCapability (i32 0 1 0)) .plain any,
     at_ (.fwcallJournal (i32 0 2 0)) .plain any], q.Shown := cases_shown _ (by decide +kernel)

/-- A SHFLX of register 1 of the block's other warp, which is marked in lane 0, where a lane of register 2 points. -/
def farMarked (m : Mark) (bad : Mark → Bool) : Case :=
  ⟨.shflx (r3 5 1 2 2 0 0), shflxOpts (r3 5 1 2 2 0 0),
    { tState with ctxs := tState.ctxs.map (fun x => { x with warps := x.warps.map (fun w => if w.wblk = 1 then w.markV 1 0 m else w) }) },
    fun env => match env.ctx.warps.find? (fun w => w.wblk = 1) with
      | some w => lanesAny env (fun t => bad (w.vmark 1 ((env.v 2 t).toNat % 32))) && 1 < w.nregs &&
          (match env.farTrap (r3 5 1 2 2 0 0) w with | some (.trap _) => true | _ => false)
      | none => false⟩

theorem witness_ShuffleAcrossWarps : ∀ q ∈
    [at_ (.shflx (r3 5 1 2 0 0 0)) (shflxOpts (r3 5 1 2 0 0 0)) (fun env => match env.blk with
       | some b => (env.s 0).toNat % 32 < b.nwarps && (env.s 0).toNat % 32 = env.w.wblk | none => false),
     at_ (.shflx (r3 5 1 2 2 0 0)) (shflxOpts (r3 5 1 2 2 0 0)) (fun env => match env.blk with
       | some b => (env.s 2).toNat % 32 < b.nwarps && (env.s 2).toNat % 32 ≠ env.w.wblk &&
         (env.ctx.warps.find? (fun w => w.blk = b.id && w.wblk = 1)).all (fun w => (env.farTrap (r3 5 1 2 2 0 0) w).isNone) | none => false),
     farMarked (.poison 7 true) Mark.isRemote, farMarked .regError Mark.isBad,
     at_ (.shflx (r3 5 1 2 9 0 0)) (shflxOpts (r3 5 1 2 9 0 0)) (fun env => match env.blk with
       | some b => b.nwarps ≤ (env.s 9).toNat % 32 | none => false)], q.Shown := cases_shown _ (by decide +kernel)

/-- With the port to package 0 dead. -/
def tPortDead : State := { tState with rdy := 0xFFFF0000FFFF &&& ~~~(0x10000 : Word) }
/-- In a pod, with every port live. -/
def tPod : State := { tState with pod := some 0x7F, nfeat := 0xF }
/-- The group is defined, with the port as given, and every offset lies in it. -/
def groupOk (r : MF) (live : Bool) (env : Env) : Bool :=
  match env.ctx.group (env.s r.b) with
  | some (h, _) => env.dev.portLive (natBits h.toNat 55 48 - 0x80) == live && lanesAll env (fun t => (env.mcOff r 8 t).toInt % 8 = 0 &&
      0 ≤ (env.mcOff r 8 t).toInt && (env.mcOff r 8 t).toNat + 8 ≤ natBits h.toNat 39 0)
  | none => false

theorem witness_MulticastStoresAndFences : ∀ q ∈
    [⟨.mst (mf 1 0 0 0 0 3), .resets, tPod, groupOk (mf 1 0 0 0 0 3) true⟩, ⟨.mst (mf 1 0 0 0 0 0x103), .resets, tPortDead, groupOk (mf 1 0 0 0 0 0x103) false⟩,
     at_ (.mst (mf 1 0 2 0 0 3)) .resets (fun env => (env.ctx.group (env.s 2)).isNone),
     ⟨.msto (mf 1 0 0 0 0 3), .resets, tPod, groupOk (mf 1 0 0 0 0 3) true⟩, ⟨.msto (mf 1 0 0 0 0 3), .resets, tPortDead, groupOk (mf 1 0 0 0 0 3) false⟩,
     at_ (.msto (mf 1 0 2 0 0 3)) .resets (fun env => (env.ctx.group (env.s 2)).isNone),
     at_ (.fence (r3 0 0 0 0 0 0x35)) .plain any, at_ (.fence (r3 1 0 0 0 0 0x2E)) .plain any], q.Shown := cases_shown _ (by decide +kernel)

/-! ### Witnesses of the statements about descriptors, cards and waits -/

/-- A channel of the warp's cluster, with no card. -/
def chan0 : Channel :=
  { cl := 0, ch := 5, ring := 0x24000, k := 4, nextSlot := 0, last := none, cw := 0x25000, nextSeq := 1, done := 0, err := false, ahead := []
    walking := none, chainSlots := [], chainQ := 0, chainBlk := 0, chainCore := 0, chainSp := (0, 0) }
def tChan : State := editCtx tState (fun x => { x with channels := [chan0] })

theorem witness_DescriptorsAndChannels : ∀ q ∈
    [at_ (.tdesc (r3 8 3 10 8 0 0)) .plain (fun env => (env.s 3).toNat < 2 ^ 57 && (env.s 10).toNat < 2 ^ 50 && !(env.s 10).getLsbD 35 &&
       natBits (env.s 10).toNat 34 32 ≤ 2 && (env.s 8).toNat < 2 ^ 40),
     at_ (.tdesc (r3 8 21 10 8 0 0)) .plain (fun env => 2 ^ 57 ≤ (env.s 21).toNat),
     at_ (.tmod (r3 8 0 2 0 0 0)) .plain (fun env => (env.s 2).toNat < 2 ^ (tmodField 0).2), at_ (.tmod (r3 8 0 7 0 0 8)) .plain any,
     at_ (.chsetRing (r3 0 3 17 4 0 0)) .resets (fun env => (env.s 17).toNat < 2 ^ 12 && natBits (env.s 17).toNat 7 6 = 0 &&
       1 ≤ natBits (env.s 17).toNat 11 8 && natBits (env.s 17).toNat 11 8 ≤ 12 && (env.checkAddrs [(env.s 3, 128), (env.s 4, 8)]).isNone &&
       !env.ctx.chanBusy env.cl ((env.s 17).toNat % 64) && !engWaits env.dev env.ctx env.seat (env.s 4).toNat &&
       (env.releaseIn [⟨0, 0, (env.s 4).toNat / 128, (env.s 4).toNat / 128, true⟩]).isSome),
     ⟨.chsetChain (r3 0 3 19 0 0 1), .resets, tChan, fun env => (env.s 19).toNat < 64 && (env.checkAddrs [(env.s 3, 128)]).isNone &&
       env.ctx.chan? env.cl (env.s 19).toNat = some chan0 && !env.ctx.chanBusy env.cl (env.s 19).toNat && chan0.walking.isNone && !env.acquiring⟩,
     at_ (.chsetChain (r3 0 3 9 0 0 1)) .resets (fun env => 64 ≤ (env.s 9).toNat)], q.Shown := cases_shown _ (by decide +kernel)

/-- A card of the channel that has not started. -/
def card0 : Card :=
  { id := 70, cl := 0, ch := 5, seq := 1, addr := 0x24000, typ := 1, scope := 3, rop := 0, lred := false, ds := td 0x20000 2 2 1 8, dd := td 0x22000 2 2 1 8
    sfmt := slotDef 5 10 15 0 1 1 0 0, dfmt := slotDef 5 10 15 0 1 1 0 0, count := 0, perm := 1, sstep := 0, dstep := 0
    read0 := (windowOf (td 0x20000 2 2 1 8) (slotDef 5 10 15 0 1 1 0 0) 0).regionWord, read1 := 0
    write := (windowOf (td 0x22000 2 2 1 8) (slotDef 5 10 15 0 1 1 0 0) 0).regionWord, bmap := 0, q := 1, blk := 1, core := 0, spBase := 0, spSize := 4096
    program := false, started := false, iter := 0, items := [], seen := [], chunks := [], status := 0, cancelled := false }
/-- With that card, and S24 its handle; S26 on the control of a JPOST of copy type. -/
def tCard (k : Card) : State :=
  editWarp (editCtx tChan (fun x => { x with cards := [k], channels := [{ chan0 with nextSlot := 1, nextSeq := 2 }] }))
    (fun w => { w with sregs := w.sregs ++ [(24, BitVec.ofNat 64 (2 ^ 32 + 5))] })
def postCtl (env : Env) (r : RRR) : Post :=
  { typ := r.x.toNat, ctl := env.w.readS r.c.toNat, bmap := env.w.readS (r.c.toNat + 1), aux0 := 0, aux1 := 0, ds := env.w.tdesc r.a.toNat
    dd := env.w.tdesc r.b.toNat }

theorem witness_CardsArePostedAndCancelled : ∀ q ∈
    [⟨.jpost (r3 30 0 1 19 0 0), jpostOpts (r3 30 0 1 19 0 0), tChan, fun env => (env.checkPost (postCtl env (r3 30 0 1 19 0 0))).isNone &&
       env.ctx.chan? env.cl 5 = some chan0 && env.ctx.ringFree chan0 &&
       !(env.postCard (postCtl env (r3 30 0 1 19 0 0)) chan0).placeWaits env.dev env.ctx chan0 &&
       (env.releaseIn ((env.postCard (postCtl env (r3 30 0 1 19 0 0)) chan0).hulls env.ctx 0)).isSome⟩,
     ⟨.jcancel (r3 1 24 0 0 0 0), .plain, tCard card0, fun env => natBits (env.s 24).toNat 31 6 = 0 && (match env.ctx.cards.find? (fun k => k.cl = env.cl &&
       k.ch = (env.s 24).toNat % 64 && k.seq = (env.s 24).toNat / 2 ^ 32) with | some k => !k.started && k.status = 0 | none => false)⟩,
     ⟨.jcancel (r3 1 24 0 0 0 0), .plain, tCard { card0 with seq := 7 }, fun env => natBits (env.s 24).toNat 31 6 = 0 && (env.ctx.cards.find? (fun k =>
       k.cl = env.cl && k.ch = (env.s 24).toNat % 64 && k.seq = (env.s 24).toNat / 2 ^ 32)).isNone⟩,
     at_ (.jcancel (r3 1 3 0 0 0 0)) .plain (fun env => natBits (env.s 3).toNat 31 6 ≠ 0)], q.Shown := cases_shown _ (by decide +kernel)

/-- The plan of TWAIT. -/
def twaitPlan (r : RI) (env : Env) : Plan :=
  { space := .global, uniA := env.s r.a, runs := fun _ => [{ pos := (env.s r.a).toNat * 8, len := 64 }]
    base := fun _ => (env.s r.a).toNat, align := 8, read := true, write := false, packed := false, off := 0 }

theorem witness_WaitsAndPresence : ∀ q ∈
    [at_ (.twait (ri 1 3 0x23 0 0)) .resets (fun env => (env.checkPlan (twaitPlan (ri 1 3 0x23 0 0) env)).isNone && (env.readNow (twaitPlan (ri 1 3 0x23 0 0) env)).isNone),
     ⟨.sqwait (ri 1 24 0x23 0 0), .resets, tCard card0, fun env => natBits (env.s 24).toNat 31 6 = 0 && (env.ctx.chan? env.cl ((env.s 24).toNat % 64)).isSome⟩,
     at_ (.presq (mf 1 8 0 0 0 0)) .plain (fun env => lanesAll env (fun t => 0 ≤ (env.ea (mf 1 8 0 0 0 0) 0 1 t).toInt && (env.ea (mf 1 8 0 0 0 0) 0 1 t).toInt < env.spSize)),
     at_ (.sinv (mf 0 8 19 0 0 0)) .plain (fun env => (env.s 8).toNat % 128 = 0 && (env.s 8).toNat + 128 * (env.s 19).toNat ≤ env.spSize && env.s 19 ≠ 0),
     at_ (.sinvSet (mf 0 8 19 0 0 1)) .plain (fun env => (env.s 8).toNat % 128 = 0 && (env.s 8).toNat + 128 * (env.s 19).toNat ≤ env.spSize && env.s 19 ≠ 0)],
    q.Shown := cases_shown _ (by decide +kernel)

/-! ### Witnesses of the statements about queues, launches, the matrix engine, barriers, messages, generators and retired opcodes -/

/-- With items in the queue of stage 1 of die 0, and a block of another kind. -/
def tQueue (n : Nat) : State := editCtx tState (fun x => { x with queues := [{ q := 1, die := 0, stage := 1, pushed := 0, items := List.replicate n (0, 0) }] })
def tMessageBlock : State := editCtx tState (fun x => { x with blocks := x.blocks.map (fun b => { b with kind := .message 0 }) })
/-- The room of the queue that the block feeds. -/
def queueState (room : Bool) (env : Env) : Bool :=
  match env.ctx.launch? env.w.q, env.blk with
  | some l, some b => (match l.feeds b with
    | some k => decide ((env.ctx.queue env.w.q (widDie env.w.wid) k).length + env.p.count ≤ l.depth k) == room
    | none => false)
  | _, _ => false

theorem witness_QueuesAndLaunches : ∀ q ∈
    [⟨.qpush (r3 0 1 0 0 0 1), .resets, tQueue 32, fun env => queueState true env && (env.releaseAt 4).isSome⟩,
     ⟨.qpush (r3 0 1 0 0 0 0), .resets, tQueue 33, queueState false⟩,
     ⟨.qpush (r3 0 1 0 0 0 0), .resets, tMessageBlock, fun env => (match env.ctx.launch? env.w.q, env.blk with
       | some l, some b => (l.feeds b).isNone | _, _ => false)⟩,
     at_ (.launch (r3 1 3 0 0 0 0)) .launch (fun env => (env.checkPlan { space := .global, uniA := env.s 3, runs := fun _ => [{ pos := (env.s 3).toNat * 8, len := 1024 }]
                                                                         base := fun _ => (env.s 3).toNat, align := 128, read := true, write := false, packed := false
                                                                         off := 0 }).isNone && env.release.isSome)], q.Shown := cases_shown _ (by decide +kernel)

/-- Handle 1 holds a 64 × 64 tile in slot 0 of the warp's cluster. -/
def tile0 : Tile := { mt := 1, nt := 1, engines := [0], slots := [(0, 0)], co := false, af := slotDef 8 23 127 0 1 1 0 0, afn := 0 }
def tTile : State :=
  editCtx (editWarp tState (fun w => { w with accs := [(1, { tile := some tile0, zero := false, err := false, pend := 0 })] }))
    (fun x => { x with accTaken := [(0, [0])], blocks := x.blocks.map (fun b => { b with acc := 1 }) })
/-- With an operation on that handle in the queue. -/
def engOp0 (op : Nat) (td : BitVec 256) : EngOp :=
  { id := 80, uid := 2, cl := 0, blk := 1, core := 0, spBase := 0, spSize := 4096, handle := 1, op := op, bt := false, da := td, db := td
    fa := slotDef 5 10 15 0 1 1 0 0, fb := slotDef 5 10 15 0 1 1 0 0, tile := some tile0, zero := false, err := false, read0 := 0, read1 := 0 }
def tBusy (op : Nat) : State :=
  editCtx (editWarp tTile (fun w => { w with accs := [(1, { tile := some tile0, zero := false, err := false, pend := 1 })] }))
    (fun x => { x with engOps := [engOp0 op (td 0x20000 64 64 1 128)] })

/-- The shape passes, and the handle holds the tile of these operands, or a new one is within the quota; the release is done. -/
def posts (g : Env → MmaArgs) (engines : Env → Option (List Nat)) (fresh : Bool) (env : Env) : Bool :=
  (!(g env).co || (g env).c.toNat < 2 ^ 8) &&
    match engines env with
    | none => false
    | some es =>
      let a := env.window? (g env).a 0
      let b := env.window? (g env).b 0
      let mt := a.rows / 64
      let nt := (if (g env).bt || (g env).scaled then b.rows else b.cols) / 64
      ((g env).shapeBad env).isNone &&
        match (env.w.acc (g env).d.toNat).tile with
        | some t => !fresh && (t.mt, t.nt, t.af, t.co, t.engines) = (mt, nt, smGet 0 env.w.slots (g env).f, (g env).co, es) &&
            (env.releaseIn ((g env).foot env)).isSome
        | none => fresh && (match env.newTile (g env).d mt nt es (smGet 0 env.w.slots (g env).f) (g env).f with
          | .inr q => (q.2.releaseIn ((g env).foot q.2)).isSome
          | .inl _ => false)

theorem witness_MatrixInstructions : ∀ q ∈
    [⟨.mma (r3 1 0 1 0 0 0), .matrix (r3 1 0 1 0 0 0) .scalar, tTile, posts (fun env => env.mmaArgs (r3 1 0 1 0 0 0) false false false) (fun env => some [env.cl]) false⟩,
     at_ (.mma (r3 2 0 1 0 0 2)) (.matrix (r3 2 0 1 0 0 2) .scalar) (posts (fun env => env.mmaArgs (r3 2 0 1 0 0 2) false true false) (fun env => some [env.cl]) true),
     at_ (.mmaCo (r3 2 4 5 0 0 1)) (.matrix (r3 2 4 5 0 0 1) .scalar) (posts (fun env => env.mmaArgs (r3 2 4 5 0 0 1) false false true)
       (fun env => env.rectangle ((env.s 0).toNat % 2 ^ 10)) true),
     at_ (.mmas (r3 2 2 3 0 0 0)) (.matrix (r3 2 2 3 0 0 0) .block) (posts (fun env => env.mmaArgs (r3 2 2 3 0 0 0) true false false) (fun env => some [env.cl]) true),
     at_ (.mmasCo (r3 2 6 6 0 0 1)) (.matrix (r3 2 6 6 0 0 1) .block) (posts (fun env => env.mmaArgs (r3 2 6 6 0 0 1) true false true)
       (fun env => env.rectangle ((env.s 0).toNat % 2 ^ 10)) true),
     at_ (.azero (r3 1 0 0 0 0 0)) .plain (fun env => env.ctx.engOps.isEmpty),
     ⟨.azero (r3 1 0 0 0 0 0), .plain, tBusy 0, fun env => env.ctx.engOps.any (fun o => o.uid = env.w.uid && o.handle = 1)⟩,
     ⟨.arel (r3 1 0 0 0 0 0), .plain, tTile, fun env => (env.w.acc 1).tile = some tile0 && env.ctx.engOps.isEmpty⟩,
     ⟨.arel (r3 1 0 0 0 0 0), .plain, tBusy 0, fun env => env.ctx.engOps.any (fun o => o.uid = env.w.uid && o.handle = 1)⟩,
     ⟨.asto (r3 0 1 0 0 0 0), astoOpts (r3 0 1 0 0 0 0), tTile, fun env => let w := env.window? (env.w.tdesc 0) 0
       (env.w.acc 1).tile = some tile0 && w.rows = tile0.m && w.cols = tile0.n && !w.formBad && !w.placeBad env.ctx env.seat && !w.outside env.ctx env.seat⟩,
     ⟨.aldr (r3 1 0 0 0 0 0), aldrOpts (r3 1 0 0 0 0 0), tTile, fun env => let w := env.window? (env.w.tdesc 0) 0
       (env.w.acc 1).tile = some tile0 && w.rows = tile0.m && w.cols = tile0.n && tile0.af = smGet 0 env.w.slots 0 && !w.formBad &&
         !w.placeBad env.ctx env.seat && !w.outside env.ctx env.seat⟩,
     at_ (.aldr (r3 2 0 0 0 0 0)) (aldrOpts (r3 2 0 0 0 0 0)) (fun env => let w := env.window? (env.w.tdesc 0) 0
       (env.w.acc 2).tile = none && !w.formBad && !w.placeBad env.ctx env.seat && !w.outside env.ctx env.seat && w.rows % 64 = 0 && w.cols % 64 = 0 &&
         1 ≤ w.rows && w.rows ≤ 256 && 1 ≤ w.cols && w.cols ≤ 320 && (match env.newTile 2 (w.rows / 64) (w.cols / 64) [env.cl] (smGet 0 env.w.slots 0) 0 with
           | .inr _ => true | .inl _ => false)),
     at_ (.asto (r3 0 1 0 0 0 0)) (astoOpts (r3 0 1 0 0 0 0)) (fun env => (env.w.acc 1).tile = none),
     ⟨.amovv (r3 5 1 0 0 1 1), amovvOpts (r3 5 1 0 0 1 1), tTile, fun env => (env.w.acc 1).pend = 0 && env.ctx.engOps.isEmpty && (env.s 0).toNat < 2 ^ 32 &&
       (env.w.acc 1).tile = some tile0 && 31 < tile0.m && 2 * (env.slot 1).elems ≤ tile0.n && (env.slot 1).nan ≠ 0⟩,
     at_ (.aqry (r3 5 1 0 0 0 0)) .plain any], q.Shown := cases_shown _ (by decide +kernel)

theorem witness_BarriersAndBroadcasts : ∀ q ∈
    [at_ (.bsync (ri 0 2 3 0 3)) .plain (fun env => 1 ≤ (env.s 2).toNat && (env.s 2).toNat ≤ 16384 && 3 < env.ctx.p.nb && (env.ctx.openGens 3 [0]).isEmpty &&
       (env.releaseAt 4).isSome),
     at_ (.bsync (ri 0 25 0x43 0 0)) .plain (fun env => 1 ≤ (env.s 25).toNat && (env.s 25).toNat ≤ 16384 && 2 ≤ env.ctx.p.dies.length && 3 < env.ctx.p.nb &&
       (env.ctx.openGens 3 [0, 1]).isEmpty),
     at_ (.bsync (ri 0 2 4 0 0)) .plain (fun env => 1 ≤ (env.s 2).toNat && (env.s 2).toNat ≤ 16384 && env.ctx.p.nb ≤ 4),
     at_ (.barr (ri 0 0 0x42 0 0)) .plain (fun env => match env.blk with | some b => 2 ≤ b.nwarps && !b.barrClash 1 2 && (env.releaseAt 2).isSome | none => false),
     ⟨.barr (ri 0 0 0x42 0 0), .plain, editCtx tState (fun x => { x with blocks := x.blocks.map (fun b => { b with barrs := [(1, ⟨1, [3], none⟩)] }) }),
       fun env => match env.blk with | some b => 2 ≤ b.nwarps && b.barrClash 1 2 | none => false⟩,
     at_ (.bcast (r3 0 2 0 0 0 3)) .plain (fun env => 3 < env.ctx.p.nc), at_ (.bcast (r3 0 2 0 0 0 0x13)) .plain (fun env => 3 < env.ctx.p.nc),
     at_ (.bcast (r3 0 2 0 0 0 4)) .plain (fun env => env.ctx.p.nc ≤ 4), at_ (.brecv (r3 5 0 0 0 0 3)) .plain (fun env => 3 < env.ctx.p.nc)],
    q.Shown := cases_shown _ (by decide +kernel)

/-- A receive posted at die 0 with descriptor t7, that accepts every message of program context 0. -/
def recv0 (done : Bool) : Receive :=
  { die := 0, entry := 4, gen := 0, ctx := 0, rxid := 0, q := 1, blk := 1, cl := 0, td := td 0x20000 2 2 1 8, slot := slotDef 5 10 15 0 1 1 0 0, mword := 0
    mask := 0xFFFFFFFFFFFFFFFF, mctx := 0, red := none, order := 0, open_ := !done, msg := none, taken := [], landed := if done then 4 else 0, tag := 9
    status := 0, done := done }
/-- A message of four elements. -/
def msg0 : Msg := { rxid := 0, src := 3, tag := 9, mctx := 0, width := 16, blk := false, codes := [1, 2, 3, 4], heads := [], wslot := 0, srcPkg := 1, bad := [] }
def held0 (queued landfault : Bool) (receive : Option (Nat × Nat)) : Held :=
  { id := 90, die := 0, msg := msg0, pieces := 1, arrived := 1, landed := 0, queued := queued, landfault := landfault, receive := receive }
def tRecv (done : Bool) : State := { tState with receives := [recv0 done], rxGen := 1 }

theorem witness_MessageInstructions : ∀ q ∈
    [at_ (.msend (r3 0 7 9 2 0 0)) (.message (r3 0 7 9 2 0 0) true) (fun env => let w := env.window? (env.w.tdesc 7) 0
       natBits (env.s 9).toNat 31 10 = 0 && (env.s 9).toNat % 256 = 0xFF && (env.s 2).toNat < 2 ^ 16 && (env.checkDesc (env.w.tdesc 7) [0]).isNone &&
         env.ctx.p.dies.contains ((widDie env.w.wid + natBits (env.s 9).toNat 9 8) % 4) &&
         env.blockNum < 2 ^ 24 && w.payloadBytes ≤ 2 ^ 24 && env.ctx.absent.isEmpty && env.ctx.accesses.isEmpty && env.ctx.engOps.isEmpty),
     ⟨.mtest (r3 5 25 0 0 0 0), .plain, tRecv true, fun env => env.receive (env.s 25) = some (recv0 true)⟩,
     at_ (.mtest (r3 5 25 0 0 0 0)) .plain (fun env => (env.receive (env.s 25)).isNone),
     at_ (.mprobe (r3 5 0 2 25 0 0)) .plain (fun env => (env.w.readS 26).toNat < 2 ^ 16 && env.dev.held.isEmpty),
     ⟨.mprobe (r3 5 0 0 28 0 0), .plain, editWarp { tState with held := [held0 true false none] } (fun w => { w with sregs := [(28, 0xFFFFFFFFFFFFFFFF)] }),
       fun env => (env.w.readS 29).toNat < 2 ^ 16 && ({ recv0 false with mword := env.s 0, mask := env.s 28 } : Receive).accepts msg0 && env.ctx.p.rxid = 0 &&
         (env.dev.held.filter (fun h => h.die = widDie env.w.wid && h.queued)) = [held0 true false none]⟩,
     ⟨.mcancel (r3 1 25 0 0 0 0), .plain, tRecv false, fun env => env.receive (env.s 25) = some (recv0 false)⟩,
     ⟨.mcancel (r3 1 25 0 0 0 0), .plain, tRecv true, fun env => env.receive (env.s 25) = some (recv0 true)⟩,
     at_ (.mpost (r3 5 7 0 0 0 0)) (.message (r3 5 7 0 0 0 0) false) (fun env => (env.w.readS 1).toNat < 2 ^ 16 && (env.checkDesc (env.w.tdesc 7) [0]).isNone &&
       (env.dev.freeEntry (widDie env.w.wid)) = some 0 && env.dev.held.isEmpty),
     at_ (.asend (r3 0 1 16 0 0 0)) (asendOpts (r3 0 1 16 0 0 0)) (fun env => (env.s 16).toNat < 2 ^ 25 && natBits (env.s 16).toNat 19 18 = 0 &&
       natBits (env.s 16).toNat 15 8 = 0xFF && env.blockNum < 2 ^ 24 && (match env.ctx.launch? env.w.q with
         | some l => (env.s 16).toNat % 256 < l.handlers.length | none => false))], q.Shown := cases_shown _ (by decide +kernel)

/-- A region in producer mode, or draining frame 0. -/
def region0 (drain : Option Nat) : Region :=
  { producers := 0xF, saved := [], frame0 := [(7, 1)], frame1 := [], filling := 0, drain := drain, arrived := 0, cons := 0x10100, tpri := 9, next := [], due := false }
def tRegion (drain : Option Nat) : State := editWarp tState (fun w => { w with region := some (region0 drain) })
/-- The region and the mode of the warp. -/
def inRegion (drain : Option Nat) (env : Env) : Bool := env.w.region = some (region0 drain) && env.w.mode = .program

theorem witness_GeneratorInstructions : ∀ q ∈
    [at_ (.gen (bf 9 9 0)) .plain (fun env => env.e.mask = env.w.live && env.w.region.isNone && env.w.mode = .program),
     ⟨.yld (r3 0 1 0 0 0 0), .plain, tRegion none, inRegion none⟩, ⟨.gdone (r3 0 0 0 0 0 0), .plain, tRegion none, inRegion none⟩,
     ⟨.gtake (r3 5 0 1 0 0 0), .plain, tRegion (some 0), inRegion (some 0)⟩, ⟨.gtakeLn (r3 5 0 1 0 0 1), .plain, tRegion (some 0), inRegion (some 0)⟩,
     ⟨.gnext (r3 0 0 0 0 0 0), .plain, tRegion (some 0), inRegion (some 0)⟩] ++
    [Instr.yld (r3 0 1 0 0 0 0), .gdone (r3 0 0 0 0 0 0), .gtake (r3 5 0 1 0 0 0), .gtakeLn (r3 5 0 1 0 0 1), .gnext (r3 0 0 0 0 0 0)].map
      (fun i => at_ i .plain (fun env => env.w.region.isNone)) ++
    [⟨.gen (bf 9 9 0), .plain, tRegion none, fun env => env.w.region.isSome⟩], q.Shown := cases_shown _ (by decide +kernel)

/-- The header of a texture at 0x23000: 2 × 2 texels at 0x20000. -/
def tTexture : State :=
  { editWarp tState (fun w => { w with sregs := [(3, 0x23000)], vregs := [(vkey 1 0, 0x0000000100000001)] }) with
    mem := writeBytes (writeBytes tState.mem 0x23000 8 0x20000) 0x23008 8 0x0000000200000002 }

/-- The read of the header, and of the texels, as LDTEX makes them. -/
def texHead (env : Env) : Plan :=
  { space := .global, uniA := env.s 3, runs := fun _ => [{ pos := (env.s 3).toNat * 8, len := 128 }], base := fun _ => (env.s 3).toNat
    align := 8, read := true, write := false, packed := false, off := 0 }
def texelPlan (h : Nat) (e : Env) : Plan :=
  { space := .global, uniA := 0, base := fun t => ((natBits h 63 0 + 4 * (min (natBits (e.v 1 t).toNat 63 32) (natBits h 127 96 - 1) *
      natBits h 95 64 + min (natBits (e.v 1 t).toNat 31 0) (natBits h 95 64 - 1))) % 2 ^ 64 : Nat)
    runs := fun t => [{ pos := (((natBits h 63 0 + 4 * (min (natBits (e.v 1 t).toNat 63 32) (natBits h 127 96 - 1) *
      natBits h 95 64 + min (natBits (e.v 1 t).toNat 31 0) (natBits h 95 64 - 1))) % 2 ^ 64 : Nat) : Int) * 8, len := 32 }]
    align := 4, read := true, write := false, packed := false, off := 0 }

/-- The cycle's choice leaves the warp in firmware mode (log entry 45). -/
def tStays : State := { tState with oracle := [64] }
/-- A retired instruction issues with a legal body. -/
def emulates (i : Instr) (r : RRR) (named : List Opnd) : Bool :=
  opens i tState (fun env => (env.t5Check r named).isNone && !env.staysInFirmware && !env.w.firmware && !env.spin && decide (env.p ≠ 0))

theorem witness_RetiredInstructions :
    ([Instr.hadd, .hmul, .bhadd, .bhmul].all (fun f => emulates (f (r3 5 1 2 0 0 0)) (r3 5 1 2 0 0 0) t5Binary) &&
      [Instr.hfma, .bhfma].all (fun f => emulates (f (r3 5 1 2 3 0 0)) (r3 5 1 2 3 0 0) t5Ternary)) = true ∧
    opens (.barw (r3 1 2 0 0 0 0)) tState (fun env =>
      let pl : Plan := { space := .global, uniA := 0, runs := fun t => [{ pos := (env.v 2 t).toNat * 8, len := 64 }], base := fun t => (env.v 2 t).toNat
                         align := 8, read := false, write := true, packed := false, off := 0 }
      !env.staysInFirmware && !env.w.firmware && (env.t5Check (r3 1 2 0 0 0 0) [src .D .vec, src .A .vec]).isNone && !env.spin && decide (env.p ≠ 0) &&
        passes (fun _ => pl) env &&
        (match env.blk with | some b => !b.barrClash 15 0 | none => false) &&
        (match (((env.enterFirmware .retiredBarw).touchPlan pl).addLanes .plain pl env.p.lanes (fun _ t => .store (env.v 1 t).toNat)).releaseAt 2 with
         | some e => e.blk.isSome | none => false)) = true ∧
    opens (.ldtex (r3 5 1 3 0 0 0)) tTexture (fun env =>
      let h := env.popped (texHead env) env.p.low
      let e := ((env.enterFirmware .retiredLdtex).touchPlan (texHead env)).keepRead (texHead env)
      !env.staysInFirmware && !env.w.firmware && (env.t5Check (r3 5 1 3 0 0 0) [dst .D .vec, src .A .vec, src .B .uni]).isNone && !env.spin && decide (env.p ≠ 0) &&
        (env.checkPlan (texHead env)).isNone && (env.readNow (texHead env)).isNone && natBits h 95 64 ≠ 0 && natBits h 127 96 ≠ 0 &&
        natBits h 63 0 % 4 = 0 && (e.checkPlan (texelPlan h e)).isNone && (e.readNow (texelPlan h e)).isNone) = true ∧
    opens (.hadd (r3 5 1 2 3 0 0)) tState (fun env => !env.spin && !env.staysInFirmware && !env.w.firmware && env.t5Bad (r3 5 1 2 3 0 0) t5Binary) = true ∧
    ([Instr.hadd, .hmul, .hfma, .bhadd, .bhmul, .bhfma, .barw, .ldtex].all (fun f => opens (f (r3 5 1 3 0 0 0)) tStays Env.staysInFirmware)) = true := by
  decide +kernel

/-! ### Witnesses of the statements about events: a state for each clause that meets its test -/

/-- A test of the context of a state, or of the warp that issues. -/
def onX (s : State) (f : Context → Bool) : Bool := match s.ctx? 0 with | some x => f x | none => false
def onW (s : State) (f : Context → Warp → Bool) : Bool := onX s (fun x => match x.warp? 2 with | some w => f x w | none => false)
/-- The warp with a park. -/
def parked (k : Park) : State := editWarp tState (fun w => { w with park := some k })
def allLanes : Mask := BitVec.allOnes 32

theorem witness_EventsOfWarps :
    [onW (editWarp tState (fun w => { w with grantDue := 5 })) (fun x w => x.prog && w.grantDue ≠ 0 && w.mode = .program),
     onW (editWarp tState (fun w => { w with frontier := w.frontier.map (fun e => { e with granted := true }) })) (fun _ w =>
       w.grantLeft = 0 && w.grantDue = 0 && w.mode = .program && w.frontier.any (fun e => e.granted)),
     (match openIssue .spinWatchdog 0 tSpin with | some env => env.spin | none => false),
     onW (editWarp tState (fun w => { w with wjoins := [⟨0x10000, 0, 1, false⟩] })) (fun x w =>
       x.runs w && (w.wjoins.find? (fun j => j.pc = 0x10000 && j.here w && j.left = 0)).isSome),
     onW (parked (.nap 0)) (fun x w => x.runs w && w.park = some (.nap 0)),
     onX (editWarp (parked (.rgrow 1 16 allLanes)) (fun w => { w with nregs := 8 })) (fun x =>
       match oldestWarp ((x.inPart 0).filter (fun w => w.asks.isSome)) with
       | some w => w.park = some (.rgrow 1 16 allLanes) && x.runs w && x.regsUsed 0 + 16 ≤ 384 + w.nregs
       | none => false),
     onW (parked (.twait 1 0x20000 0 3 64 allLanes)) (fun x w => x.runs w &&
       match x.waitWord (parked (.twait 1 0x20000 0 3 64 allLanes)) w 0x20000 with
       | some p => !(parked (.twait 1 0x20000 0 3 64 allLanes)).bad (p.pos / 8) 8 && x.accesses.isEmpty
       | none => false),
     onW (editCtx (parked (.sqwait 1 0 5 0 3 64 allLanes)) (fun x => { x with channels := [chan0] })) (fun x w => x.runs w &&
       (match x.chan? 0 5 with | some k => reached k.done 0 | none => false)),
     onW (parked (.twait 1 0x20000 1 3 0 allLanes)) (fun x w => x.runs w &&
       match x.waitWord (parked (.twait 1 0x20000 1 3 0 allLanes)) w 0x20000 with
       | some p => BitVec.ofNat 64 (readBytes (parked (.twait 1 0x20000 1 3 0 allLanes)).mem (p.pos / 8) 8) &&& (1 : Word) ≠ 1
       | none => false),
     onW (editCtx (parked (.sqwait 1 0 5 1 3 0 allLanes)) (fun x => { x with channels := [chan0] })) (fun x w => x.runs w &&
       (match x.chan? 0 5 with | some k => !reached k.done 1 | none => false)),
     onW (parked (.fence true true true 6 1 100 0x10000 allLanes)) (fun x w => x.runs w && x.fenceReady w true true 6 100 && !w.mtrap && w.remFail.isNone),
     onW (editWarp (parked (.fence true true false 6 1 100 0x10000 allLanes)) (fun w => { w with mtrap := true, remFail := some 8 })) (fun x w =>
       x.runs w && x.fenceReady w true true 6 100 && w.mtrap),
     onW (editWarp (parked (.fence true true false 5 1 100 0x10000 allLanes)) (fun w => { w with mtrap := true, remFail := some 8 })) (fun x w =>
       x.runs w && x.fenceReady w true true 5 100 && w.mtrap && w.remFail = some 8)].all id = true := by decide +kernel

/-- An access of the warp to 8 bytes of package 1. -/
def flyingRemote (kind : AccKind) : State := editCtx tState (fun x => { x with accesses := [{ acc0 kind with pieces := [{ pos := keyPeer 0x81 0x2000 * 8, len := 64, off := 0 }] }] })
/-- Whether it may fail: it is there, in order, and as remote as asked. -/
def mayFail (kind : AccKind) (remote : Bool) : Bool :=
  onX (flyingRemote kind) (fun x => match x.accesses.find? (fun b => b.id = 50) with
    | some a => x.inOrder a && (!remote || a.remote) && decide (a.kind = kind)
    | none => false)

/-- In the pre-emption handler with a wait set aside. -/
def aside (k : Park) : State := editWarp (tHandler true) (fun w => { w with saved := w.saved.map (fun v => { v with park := some k }) })
theorem witness_EventsOfAccessesAndPewter :
    [mayFail (.member 1 0xFF true true 5) false, mayFail (.store 5) true, mayFail (.load dest0 none 8 false 0) true,
     onX (editCtx tState (fun x => { x with closings := [⟨3, [0], false, 0, [2]⟩] })) (fun x => x.active &&
       (x.closings.find? (fun k => k.ch = 3 && k.dies.contains 0 && k.at_ ≤ tState.cycle)).isSome),
     onX (editCtx tState (fun x => { x with blocks := x.blocks.map (fun b => { b with barrs := [(17, ⟨1, [2], some 4⟩)] }) })) (fun x => x.active &&
       (match x.block? 1 with | some b => (b.barrs.find? (fun q => 16 ≤ q.1 && q.1 % 16 = 1)).isSome | none => false)),
     onW (parked (.bsync 3 true 5)) (fun _ w => w.park = some (.bsync 3 true 5)), onW (parked (.bsync 3 false 4)) (fun _ w => w.park = some (.bsync 3 false 4)),
     onW (parked (.barr 1 1)) (fun _ w => w.park = some (.barr 1 1) && w.saved.isNone && !(Park.barr 1 1).atBsync 3 4),
     onW (aside (.bsync 3 true 4)) (fun _ w => w.saved.any (fun v => v.park = some (.bsync 3 true 4))),
     onW (aside (.barr 1 1)) (fun _ w => w.saved.any (fun v => v.park = some (.barr 1 1) && !(Park.barr 1 1).atBsync 3 4)),
     onW (parked (.bsync 4 true 4)) (fun _ w => w.saved.isNone && w.park = some (.bsync 4 true 4)),
     onX (editCtx tState (fun x => { x with bcasts := [⟨95, 0, 3, [0], 0, 7⟩] })) (fun x => x.active &&
       (x.bcasts.find? (fun b => b.id = 95 && b.at_ ≤ tState.cycle)).isSome),
     onW (editCtx (editWarp tState (fun w => { w with recvs := [(3, dest0)] })) (fun x => { x with bcGen := [(3, 1)] })) (fun x w =>
       w.recvs = [(3, dest0)] && smGet 0 w.bcSeen 3 < smGet 0 x.bcGen (widDie w.wid * 16 + 3))].all id = true := by decide +kernel

/-- The card with its sources in scratchpad or its destination there. -/
def cardTo (dd : BitVec 256) : Card := { card0 with dd := dd, write := (windowOf dd card0.dfmt 0).regionWord }
/-- A window in the block's scratchpad. -/
def tdSp : BitVec 256 := td 0x100 2 2 1 8 ||| BitVec.ofNat 256 (2 ^ 96)
/-- A loop of three iterations that has started one. -/
def cardLoop : Card := { card0 with typ := 2, count := 3, perm := 2, sstep := 64, dstep := 256, started := true, iter := 1 }
/-- Whether a card may start: its context runs and no earlier work conflicts. -/
def startable (s : State) (f : Context → Card → Bool) : Bool :=
  onX s (fun x => match x.card? 70 with | some k => x.active && !x.blocked k.cl k.id (k.hulls x 0) && f x k | none => false)
/-- Whether a run of items ends well. -/
def runOk (z : CardEnd) : Bool := match z.hit with | .ok _ => true | _ => false
/-- Whether a hit is good. -/
def goodHit (h : Hit) : Bool := match h with | .ok _ => true | _ => false

theorem witness_EventsOfCardsAndTheMatrixEngine_cards :
    [onX (editCtx tChan (fun x => { x with posted := [{ uid := 2, card := card0, d := 30, prod := 60 }] })) (fun x =>
       (x.posted.find? (fun p => p.card.cl = 0 && p.card.ch = 5)).isSome && x.active),
     onX (editCtx tChan (fun x => { x with channels := [{ chan0 with walking := some 0x24000 }] })) (fun x => x.active &&
       (let e : Seat := { die := 0, cl := 0, core := 0, spBase := 0, spSize := 0 }
        goodHit (engRead tState x e 0 0 (0x24000 * 8) 1024).2 && !(cardWord tState x e 0x24000 0).testBit 63)),
     (let s : State := { tChan with mem := writeBytes tChan.mem 0x24000 8 (2 ^ 63) }
      onX s (fun x => let e : Seat := { die := 0, cl := 0, core := 0, spBase := 0, spSize := 0 }
        goodHit (engRead s x e 0 0 (0x24000 * 8) 1024).2 && (cardWord s x e 0x24000 0).testBit 63)),
     startable (editCtx (tCard card0) (fun x => { x with launches := x.launches.map (fun l => { l with ended := some 5 }) })) (fun x k =>
       !k.started && k.status = 0 && (match x.launch? k.q with | some l => l.ended.isSome | none => false)),
     startable (tCard { card0 with dd := td 0x22000 3 2 1 8 }) (fun x k => !k.started && k.status = 0 &&
       (match x.launch? k.q with | some l => l.ended.isNone | none => false) && !k.fits x 0),
     startable (tCard card0) (fun x k => !k.started && k.status = 0 && (match x.launch? k.q with | some l => l.ended.isNone | none => false) && k.fits x 0 &&
       goodHit (k.readAhead (tCard card0) x 0).2),
     startable (tCard cardLoop) (fun x k => k.started && !k.cancelled && k.going && k.iter < k.iters && k.outstanding.length < k.perm &&
       k.outstanding.all (fun j => (k.regs x j).all (fun a => (k.regs x k.iter).all (fun b => !a.conflicts b))) && k.fits x k.iter &&
       goodHit (k.readAhead (tCard cardLoop) x k.iter).2),
     startable (tCard { cardTo tdSp with started := true, iter := 1 }) (fun x k => k.started && k.going && (k.dst 0).space = 1 &&
       runOk (k.runRange (tCard { cardTo tdSp with started := true, iter := 1 }) x 0x100 0x17F) && !k.mayWrite 0x100 0x17F &&
         (k.sramLines x).contains (keySram x.id k.core k.spBase / 128 + 2)),
     startable (tCard { card0 with started := true, iter := 1 }) (fun x k => k.started && k.going && (k.bmap = 0 || !engWaits tChan x k.seat (k.bitmapAt 0)) &&
       runOk (k.runRange (tCard { card0 with started := true, iter := 1 }) x (k.chunkAt 0) (k.chunkAt 0 + 511)) &&
       !k.mayWrite (k.chunkAt 0) (k.chunkAt 0 + 511)),
     startable (tCard { card0 with status := 4 }) (fun x k => x.active && !k.endWaits (tCard { card0 with status := 4 }) x && !k.going),
     startable (tCard { card0 with started := true, iter := 1 }) (fun x k => k.going && k.started && k.iters ≤ k.iter &&
       !k.endWaits (tCard { card0 with started := true, iter := 1 }) x &&
       runOk (k.run (tCard { card0 with started := true, iter := 1 }) x (fun _ => true)))].all id = true := by decide +kernel

/-- With an operation over small windows. -/
def tEng (op : Nat) : State := editCtx (tBusy op) (fun x => { x with engOps := [engOp0 op (td 0x20000 2 2 1 8)] })
/-- Whether the operation is at the head of its handle and runs. -/
def headed (op : Nat) (f : Context → EngOp → Tile → Bool) : Bool :=
  onX (tEng op) (fun x => match x.engOps.find? (fun o => o.id = 80) with
    | some o => (match o.tile with
      | some t => x.active && !x.isOut o.blk && o.op = op && x.headOp o && f x o t
      | none => false)
    | none => false)

theorem witness_EventsOfCardsAndTheMatrixEngine_engine :
    [headed 0 (fun x o _ => !x.blocked o.cl o.id (o.regs x) &&
       [(operand (tEng 0) x o.seat (windowOf o.da o.fa 0) 0).2, (operand (tEng 0) x o.seat (windowOf o.db o.fb 0) 4).2].all
         (fun v => match v with | .wait => false | _ => true)),
     headed 3 (fun x o t => x.quietBefore o && !x.astoFirst (tEng 3) o && !x.holdsWindow (tEng 3) o.seat (windowOf o.da o.fa 0) && (let w := windowOf o.da o.fa 0
       goodHit (engWriteAll (tEng 3) x o.seat w.space w.place (w.cells.map (fun q =>
         { pos := w.elem q.1 q.2, len := w.f.width, v := (x.readOut t (x.zeroOf o) w.f q.1 q.2).1 }))).2.2)),
     headed 2 (fun x o _ => x.quietBefore o && goodHit (operand (tEng 2) x o.seat (windowOf o.da o.fa 0) 0).2),
     onW (editWarp tTile (fun w => { w with park := some (.readout 5 1 2 (slotDef 5 10 15 0 1 1 0 0) 0 0 allLanes 9) })) (fun x w =>
       w.park.isSome && (w.acc 1).tile = some tile0 && x.active && !x.isOut w.blk)].all id = true := by decide +kernel

/-- A message on its way to die 0, and an active message. -/
def sending0 (pkg granted : Nat) (matched : Bool) : Sending :=
  { id := 96, ctx := 0, uid := 2, pkg := pkg, die := 0, msg := some { msg0 with srcPkg := 0xFF }, active := none, pieces := 1, granted := granted, matched := matched }
def active0 : ActiveMsg := { ctx := 0, q := some 1, rxid := 0, src := 0, wblk := 0, sent := 0, handler := 0, words := [1, 2] }
def sendingActive : Sending := { sending0 0xFF 1 false with msg := none, active := some active0 }
def tSending (z : Sending) : State := { tState with sending := [z] }
/-- A message that a receive has taken, and its pieces that land. -/
def tLanding (pieces : Nat) : State :=
  { tRecv false with held := [{ held0 false false (some (0, 4)) with msg := { msg0 with srcPkg := 1 }, pieces := pieces, arrived := 1 }] }

/-- A message with its window, none of its pieces read. -/
def payload (d : BitVec 256) : Sending := { sending0 0xFF 0 false with td := d, slot := slotDef 5 10 15 0 1 1 0 0, blk := 1 }
/-- The oldest request may be granted a reservation; the piece of a message can be read or not. -/
def granting (s : State) (z : Sending) (reads : Bool) : Bool :=
  let t := { s with sending := [z] }
  t.grantable z.pkg 0 && t.sending.find? (fun y => y.pkg = z.pkg && y.die = 0 && y.granted < y.pieces && !t.setAside y) = some z &&
    match z.msg with
    | none => z.active.isSome
    | some m => onX t (fun x => (t.readPiece x z m).isSome == reads && m.codes.length = (windowOf z.td z.slot 0).rows * (windowOf z.td z.slot 0).cols &&
        m.codes.length = (windowOf z.td z.slot 0).payloadRuns.length && 0 < m.codes.length)
/-- A contribution of a reduction whose staged value finds no room. -/
def tStaging : State :=
  { tLanding 1 with receives := [{ recv0 false with red := some (0, 2), taken := [(1, msg0)] }] }
theorem witness_EventsOfMessages :
    [granting tState (payload (td 0x20000 2 2 1 8)) true, granting tState { sendingActive with granted := 0 } true,
     granting { tAbsent with pod := some 0x7F } { payload (td 0x100 2 2 1 8 ||| BitVec.ofNat 256 (2 ^ 96)) with pkg := 1 } false,
     !({ tState with slotsUsed := [(0xFF, 16)] } : State).grantable 0xFF 0, tState.grantable 0xFF 0 && tState.rdy.getLsbD 32 && tState.slotsOf 0 0xFF < 16,
     (let s := { parked (.send 96) with sending := [sending0 0xFF 1 false] }
      onW s (fun x w => x.active && w.park = some (.send 96)) &&
        (s.sending.find? (fun z => z.ctx = 0 && z.uid = 2 && z.msg.isSome && z.granted = z.pieces)).isSome),
     (let s := tSending (sending0 0xFF 1 false)
      s.rdy.getLsbD 32 && (s.sending.find? (fun z => z.id = 96 && z.pkg = 0xFF && z.die = 0 && !z.matched && 1 ≤ z.granted)).isSome && !s.stuck 0 0xFF &&
        (s.rxCtx 0 0).isSome),
     (let s := { tState with pod := some 0 }
      s.rdy.getLsbD 32 && !s.stuck 0 1 && (s.rxCtx 0 msg0.rxid).isSome && msg0.srcPkg ≠ 0xFF && s.pod.isSome),
     ((tRecv false).receives.find? (fun r => r.open_ && r.die = 0 && r.accepts msg0)).isSome, tState.receives.isEmpty,
     (let s := tLanding 2
      (s.held.find? (fun h => h.id = 90 && h.die = 0)).any (fun h => h.receive = some (0, 4) && h.landed < h.arrived && h.landed + 1 < h.pieces &&
        h.msg.srcPkg ≠ 0xFF) && onX s (fun x => (recv0 false).mayLand x) && s.rdy.getLsbD 32),
     (let s := tLanding 1
      (s.held.find? (fun h => h.id = 90 && h.die = 0)).any (fun h => h.receive = some (0, 4) && h.landed < h.arrived && h.landed + 1 = h.pieces &&
        h.msg.srcPkg ≠ 0xFF) && onX s (fun x => (recv0 false).mayLand x) && s.rdy.getLsbD 32 && (recv0 false).red.isNone),
     onX tStaging (fun x => match tStaging.receives, tStaging.held with
       | [r], [h] => r.mayLand x && !tStaging.redReady r && r.red.isSome && !tStaging.stageRoom x r h && h.landed < h.arrived
       | _, _ => false),
     (let s := tSending sendingActive
      s.rdy.getLsbD 36 && (s.sending.find? (fun z => z.id = 96 && z.pkg = 0xFF && z.die = 0 && !z.matched && 1 ≤ z.granted)).isSome &&
        (s.deliverActive 0 active0).isSome),
     onX tState (fun x => (match activeTarget active0 x 0 with | some l => (l.rcd.placeOne x (x.cores 0) 1 0).isSome | none => false) && x.state = .running),
     (({ tState with held := [held0 false true none] } : State).held.find? (fun h => h.die = 0 && h.id = 90 && h.landfault)).isSome].all id = true := by decide +kernel

/-! ### Witnesses of the statements about launches, contexts and the package -/

/-- A record of one block of two warps of 32 lanes with 8 registers each, its entry at 0x10000, with a completion word (R291). -/
def tRecord (cpl : Nat) : Nat :=
  0x10000 + 3 * 2 ^ 64 + 0x120001 * 2 ^ 128 + 0x110002 * 2 ^ 160 + 0x20 * 2 ^ 192 + 8 * 2 ^ 384 + cpl * 2 ^ 704
def tRecordBytes (v : Nat) : List Byte := (List.range 128).map (fun i => BitVec.ofNat 8 (v / 256 ^ i))
def tSubmit (v : Nat) : State := editCtx tState (fun x => { x with submitted := [.host 3 (tRecordBytes v)], busy := 8 })
/-- A launch that the acceptance of that record makes. -/
def launch2 : Launch :=
  { bootLaunch with q := 2, rcd := recOf (tRecord 0x50000), waiting := [(0, 0)], stageOf := [] }
/-- A launch of two stages with items for the second. -/
def launch3 : Launch :=
  { launch2 with rcd := { launch2.rcd with nstg := 2, stages := [(0, 0), (6, 1), (0, 0), (0, 0)] }, waiting := [], stageOf := [(1, 1)] }
def tStaged : State := editCtx tState (fun x => { x with
  launches := [launch3], blocks := [], warps := [], queues := [{ q := 2, die := 0, stage := 1, pushed := 0, items := [(5, 6)] }] })
/-- The test of OnCtx. -/
def canCtx (s : State) (f : State → Context → Bool) : Bool := onX s (f s)

theorem witness_EventsOfLaunches :
    [canCtx tState (fun _ x => x.busy.getLsbD 4 = false && (tRecordBytes 0).length = 128),
     canCtx (tSubmit 0) (fun _ x => x.busy.getLsbD 3 && x.window 3 = some (tRecordBytes 0) && x.window 3 ≠ some (tRecordBytes 1)),
     canCtx (tSubmit (tRecord 0x50000)) (fun s x => x.active && s.rdy.getLsbD (36 + x.p.dies.headD 0) &&
       (match x.submitted with
        | b :: _ => (match judge s x (b.record s x).1 (b.record s x).2 with | .accepted r _ _ => !r.kind | _ => false)
        | [] => false)),
     canCtx (tSubmit (tRecord 0x50000 + 2 ^ 68)) (fun s x => x.active && s.rdy.getLsbD (36 + x.p.dies.headD 0) &&
       (match x.submitted with
        | b :: _ => (match judge s x (b.record s x).1 (b.record s x).2 with | .refused _ _ => true | _ => false) &&
            (match (b.record s x).2 with | .ok _ => true | _ => false) &&
            (match recCpl (b.record s x).1 with | some a => !unitBusy s x a | none => false)
        | [] => false)),
     canCtx (editCtx tState (fun x => { x with launches := List.replicate 256 launch2 })) (fun _ x => 256 ≤ x.launches.length),
     canCtx tState (fun _ x => x.launches.length < 256 && !recOk (tRecord 0 + 2 ^ 68)),
     canCtx (editCtx tState (fun x => { x with launches := x.launches ++ [launch2] })) (fun s x => x.state = .running && s.rdy.getLsbD 36 &&
       !s.activeDue 0 0 && (match x.nextLaunch 0 with
         | some l => (match l.waiting.find? (fun q => q.1 = 0) with | some q => (l.place x 0 q.2).isSome | none => false)
         | none => false)),
     canCtx tStaged (fun s x => x.state = .running && s.rdy.getLsbD 36 && !s.activeDue 0 0 && x.launches = [launch3] && 1 < launch3.stages &&
       x.p.dies.contains 0 && (x.queue 2 0 1).length = 1 && x.drained launch3 0 1 &&
       (launch3.rcd.placeOne x (x.coresOf launch3.stageOf 0 1) launch3.rcd.warps launch3.rcd.scr).isSome),
     canCtx tState (fun s x => x.state = .running && (x.cores 0).contains 1 && x.p.dies.contains 0 && s.reachable 0x40000 && keySpace 0x40000 < 0x100),
     canCtx (editCtx tState (fun x => { x with launches := [{ launch2 with waiting := [] }], blocks := [], warps := [] })) (fun s x =>
       (match x.launch? 2 with
        | some l => l.ended.isNone && l.over s x && l.rcd.cpl ≠ 0 && !unitBusy s x l.rcd.cpl
        | none => false) && !x.residue && x.accesses.isEmpty)].all id = true := by decide +kernel

/-- A context beside the first in its partitions. -/
def tPeer (st : CtxState) (submitted : List Submitted) : Context :=
  { newContext tPackage { tParams with rxid := 7 } st with submitted := submitted }
/-- The first context idle, in a state, and perhaps with another. -/
def tIdle (st : CtxState) (ys : List Context) : State :=
  { editCtx tState (fun x => { x with state := st, launches := [], blocks := [], warps := [], sliceLeft := 0 }) with
    ctxs := (editCtx tState (fun x => { x with state := st, launches := [], blocks := [], warps := [], sliceLeft := 0 })).ctxs ++ ys }
/-- The first context draining with its signal due. -/
def tDraining : State := editCtx tState (fun x => { x with state := .draining, signalAt := some 0, forceAt := some 0, unsignalled := [2] })
/-- Its warps halted. -/
def tHalted : State := editCtx tDraining (fun x => { x with warps := x.warps.map (fun w => { w with halted := true }) })
/-- Parameters for a context at another place of die 2. -/
def tOther : CtxParams := { tParams with rxid := 9, dies := [2] }
/-- The leaf of the page of an address of context 0. -/
def onLeaf (s : State) (va : Nat) (f : Nat → Nat → Nat → Bool) : Bool :=
  onX s (fun x => match walkFrom s va 5 x.p.root with | .leaf e n (some a) => f e n a | _ => false)
/-- With the page of 0x10000 held by the node at port 1, in a pod with migration, and its counter at 16 (R262 to R264). -/
def tRemotePage : State :=
  { tState with
    pod := some 0, nfeat := 0xF, migs := [{ die := 0, ctx := some 0, va := 0x10000, count := 16 }]
    mem := writeBytes tState.mem (keyHbm 8192) 8 (2 ^ 63 + 2 ^ 62 + 2 ^ 61 + 2 ^ 60 + 3 * 2 ^ 58 + 0x81 * 2 ^ 47 + 0x406) }

theorem witness_EventsOfContextsAndPages :
    [canCtx (editCtx tState (fun x => { x with sliceLeft := 0 })) (fun _ x => x.state = .running && x.sliceLeft = 0 && x.blocks ≠ []),
     canCtx (tIdle .running []) (fun _ x => x.state = .running && x.sliceLeft = 0 && x.blocks = []),
     onW tDraining (fun x w => x.state = .draining && x.signalAt = some 0 && x.unsignalled.contains w.uid && !w.halted),
     onW tDraining (fun x w => x.state = .draining && x.forceAt = some 0 && !w.halted),
     canCtx (tIdle .running [tPeer .standby [.host 0 []]]) (fun s x => x.state = .running && x.idle && (s.successor x).isSome),
     canCtx (editCtx (tIdle .standby []) (fun x => { x with submitted := [.host 0 []] })) (fun s x => x.state = .standby && x.hasWork &&
       (s.peers x).all (fun y => !y.holds)),
     canCtx tHalted (fun s x => x.state = .draining && x.stopped && x.accesses.isEmpty && x.owed.isEmpty && (s.successor x).isNone),
     (let s : State := { tHalted with ctxs := tHalted.ctxs ++ [tPeer .standby [.host 0 []]] }
      match s.ctx? 0 with
      | some x => x.state = .draining && x.stopped && x.accesses.isEmpty && x.owed.isEmpty && (match s.successor x with
        | some y => s.ctx? y.id = some y | none => false)
      | none => false), canCtx tDraining (fun _ x => x.state = .draining && !x.stopped),
     (tState.ctx? 0).isSome, paramsOk tOther && paramsFit tOther tState, !paramsOk { tOther with wsz := 3 },
     canCtx (tIdle .inHbm []) (fun s x => x.state = .inHbm && (s.peers x).all (fun y => y.state ≠ .standby) && waysFit x (s.peers x)),
     canCtx (tIdle .standby []) (fun _ x => x.state = .standby && !x.hasWork),
     onW (parked (.driver 0x5000 true)) (fun _ w => w.park = some (.driver 0x5000 true)),
     onW (parked (.driver 0x5000 false)) (fun _ w => w.park = some (.driver 0x5000 false)), tState.ptesReady [(0, 1)],
     onW { tState with mem := [] } (fun x w => x.runs w && w.park.isNone && (x.block? w.blk).isSome &&
       (match selectEntry x.prog (w.opened x.prog) with
        | some e => (match (fetch { tState with mem := [] } x w e).2 with | .missing => true | _ => false)
        | none => false)),
     canCtx (editCtx tState (fun x => { x with blocks := x.blocks.map (fun b => { b with swapped := some 2 }) })) (fun _ x =>
       match x.block? 1 with
       | some b => b.swapped = some 2 && x.state = .running && x.canReturn b
       | none => false),
     onLeaf tRemotePage 0x10000 (fun e level _ => natBits e 59 58 = 3 &&
       !tRemotePage.touched (leafKey tRemotePage e level (0x10000 / 2 ^ pageBits level * 2 ^ pageBits level)) (2 ^ pageBits level) &&
       2 ^ (4 + natBits e 57 55) ≤ (tRemotePage.migs.filter (fun m => m.die = 0 && m.ctx = some 0 &&
         m.va / 2 ^ pageBits level = 0x10000 / 2 ^ pageBits level)).foldl (fun k m => k + m.count) 0 &&
       tRemotePage.reachable (leafKey tRemotePage e level (0x10000 / 2 ^ pageBits level * 2 ^ pageBits level)) &&
       2 ^ 14 * 2 ^ 16 % 2 ^ pageBits level = 0 && 2 ^ 14 * 2 ^ 16 + 2 ^ pageBits level ≤ Config.hbmBytes &&
       tRemotePage.badGranules (leafKey tRemotePage e level (0x10000 / 2 ^ pageBits level * 2 ^ pageBits level)) (2 ^ pageBits level) = [] &&
       tRemotePage.rdy.toNat % 256 = 255),
     canCtx tState (fun _ x => x.accesses.isEmpty)].all id = true := by decide +kernel

/-- An error of a unit in a register. -/
def err0 (site : ErrorSite) : ErrorEvent := { unit := 2, die := 0, cluster := 0, idx := 0, loc := 0, consumed := true, site := site }
/-- A recovery of the job of context 0. -/
def plan0 : RecoveryPlan := { fault := false, job := [0], takesNumber := none, contexts := [], remap := [], groups := [], seeds := [], restore := [(keyHbm 0x40000, 5)], repost := [] }

theorem witness_EventsOfThePackage :
    [1 ≤ (err0 .none).unit.toNat && (err0 .none).unit.toNat ≤ 7, (err0 (.sreg 0 2 3)).site = .sreg 0 2 3, (err0 (.granule 0x40000)).site = .granule 0x40000,
     tState.rdy.getLsbD 40 && tState.journalRoom && (tState.jwp + 1) % 1024 ≠ 0,
     (let s := { tState with jwp := 2 ^ 20 }; s.rdy.getLsbD 40 && !s.journalRoom),
     (let s := { tState with jwp := 5, jap := 2 }; s.jap ≤ 4 && 4 ≤ s.jwp),
     (let s := { tState with jwp := 5, jap := 2 }; 1 < s.jap || s.jwp < 1), (let s := { tState with jwp := 5, jap := 2 }; 6 < s.jap || s.jwp < 6),
     tState.sigIndex < 2 ^ 40, 2 ^ 40 ≤ ({ tState with sigIndex := 2 ^ 40 } : State).sigIndex, State.reset.ctxs = [], tState.ctxs ≠ [],
     15 < 41, ({ tState with dead := 2 } : State).dead.getLsbD 1, ({ State.reset with rdy := 2 ^ 17, nfeat := 3, pod := some 0 } : State).portLive 1,
     (let s : State := { State.reset with dead := 2, nfeat := 3 }; s.dead.getLsbD 1 && s.nfeat.getLsbD 1), !tState.recovering,
     (let s : State := { tIdle .running [] with recovering := true }
      s.recovering && s.ctxs.all (fun x => !plan0.job.contains x.id || x.launches.isEmpty) && s.reposts = [] && s.planReady plan0),
     (let s : State := { State.reset with loader := false, fw := { version := 0, security := 9, verified := true } }; s.fsv < 128 && s.fsvGoal < 128 && !s.loader &&
       s.fw.verified && s.fsv < s.fw.security.toNat), 3 ≤ ({ tState with fsv := 3 } : State).fsv, 128 < 129].all id = true := by decide +kernel

/-! ### Witnesses of the statements about decoding, the step and the invariants -/

theorem witness_EveryInstructionRoundTrips : (Instr.fadd goodAdd).wellFormed = true ∧
    members (field (0xFF00000000000000 : Word).toNat 63 56) (0xFF00000000000000 : Word).toNat = none := by decide +kernel

theorem witness_HeaderBitsReserved : field (0x4021050607001C00 : Word).toNat 50 48 ≠ 0 ∧
    members (field (0x4021050607001C00 : Word).toNat 63 56) (0x4021050607001C00 : Word).toNat ≠ none ∧
    retired (field (0x4021050607001C00 : Word).toNat 63 56) = false := by decide +kernel

theorem witness_DecodedWordEncodesBack : readsAs 0x4020050607001C00 (.fadd ⟨2, false, 5, 6, 7, 0, 1, true, true, false, 0⟩) = true := by decide +kernel

theorem witness_ElementsArePacked : 7 < 64 / ewOf 0 ∧ 0 < 8 ∧ [1, 2, 3, 4, 5, 6, 7, 8].length * 8 ≤ 64 ∧ 7 < [1, 2, 3, 4, 5, 6, 7, 8].length := by decide +kernel

/-- The state in which a word is fetched next. -/
def tFetch (w : Word) : State := State.reset.withFetchWord 64 w.toNat
/-- A warp whose next instruction waits for S3 (R90). -/
def tWaiting : State :=
  (editWarp tState (fun w => w.markS 3 (.empty 9))).withFetchWord 64 (wordOf (.sadd ⟨15, false, 1, 3, 3, 0, 0, true, true, false, 0⟩)).toNat
/-- The hypotheses of the clauses of the step about the first candidate, with or without an issue. -/
def stepShown (s : State) (issued : Bool) : Bool :=
  match s.nextPart with
  | none => false
  | some p =>
    match s.candidates p with
    | [] => false
    | q :: _ =>
      match s.ctx? q.1 with
      | none => false
      | some x =>
        match x.warp? q.2 with
        | none => false
        | some w =>
          match selectEntry x.prog (w.opened x.prog) with
          | none => false
          | some e =>
            if w.firmware then false
            else match fetch s x w e with
            | (t, .word v) =>
              (match decodeWord v with
               | .ok i => (match exec i { t with cur := some q } with
                 | .next u => (decide (u.issuesOf q = s.issuesOf q) != issued) && s.agenda = []
                 | _ => false)
               | .error _ => false)
            | _ => false
/-- The hypotheses of the clause of the step about a fetch. -/
def fetchShown (s : State) : Bool :=
  match s.issuers with
  | [] => false
  | (x, w) :: _ =>
    match selectEntry x.prog (w.opened x.prog) with
    | none => false
    | some e =>
      match findLeaf s x (tlbCore (widCoreNo w.wid)) e.pc.toNat false with
      | .leaf pte level _ =>
        let t := touchLeaf s x (tlbCore (widCoreNo w.wid)) e.pc.toNat false
        let k := leafKey s pte level e.pc.toNat
        pte.testBit 60 && !s.pick 1 && t.reachable k && (keySpace k ≠ 0 || t.hbmReady k) && t.badGranules k 8 = []
      | _ => false

theorem witness_StepRunsDecodedInstruction :
    [stepShown (tFetch (wordOf (.sldi ⟨15, false, 1, 7, 0⟩))) true, stepShown tWaiting false,
     fetchShown (tFetch 0), State.reset.agenda = [] && State.reset.nextPart = none, isEvent (.functionReady 3)].all id = true := by decide +kernel

/-- Memory has its form, its step is taken, and the counters keep their bounds. -/
theorem witness_MemoryKeepsItsForm_and_CountersNeverFall :
    [(tFetch (wordOf (.sldi ⟨15, false, 1, 7, 0⟩))).mem.wf, stepWarp (tFetch (wordOf (.sldi ⟨15, false, 1, 7, 0⟩))) (fun w => w.readS 1 = 7),
     tState.fsv ≤ tState.fuses, tState.fuses ≤ 128, tState.fsvGoal ≤ 128, tState.sigIndex ≤ 2 ^ 40, tState.jap ≤ tState.jwp].all id = true := by decide +kernel

/-- R31: an entry of higher priority that is parked is passed over. -/
theorem witness_FrontierOrder : topEntry (mergeEntries [⟨3, 0x10000, 2, false, 0, false, false⟩, ⟨5, 0x10008, 1, true, 0, false, false⟩]) =
    some ⟨3, 0x10000, 2, false, 0, false, false⟩ := by decide +kernel

/-- R3: byte 1 of two bytes is the high one. -/
theorem witness_MemoryIsLittleEndian : 1 < 2 ∧ memByte (writeBytes [] 5 2 0x1234) 6 = 0x12 := by decide +kernel

/-! ### Witnesses of further clauses -/

/-- A second entry that is not parked, below the issuing one. -/
def tTwo : State := editWarp tState (fun w => { w with
  frontier := [⟨0, 0x10000, 0xFFFF, false, 0, false, false⟩, ⟨0, 0x10100, 0xFFFF0000, false, 0, false, false⟩] })
/-- Every live thread stands parked at the address of a WJOIN once the threads of P have arrived. -/
def allArrive (env : Env) : Bool :=
  env.p = env.e.mask && env.w.frontier.all (fun y => y.same env.e || (y.parked && y.pc = env.e.pc)) && env.w.mode = .program &&
    (List.range 32).all (fun t => env.w.live.has t == env.w.frontier.any (fun y => y.mask.has t))
/-- Outside a region, with the issuing entry apart from the others. -/
def alone (env : Env) : Bool := env.w.region.isNone && env.w.frontier.contains env.e && apart env.e env.w.frontier
/-- As `tState`, with an access or an engine operation of the warp before its next issue. -/
def tLater (s : State) : State := { s with nextId := 2000 }

theorem witness_ConversionResults_traps : ∀ q ∈
    [at_ (.fcvt (r3 5 4 0 0 0 0x44)) (.convert 0x44 .scalar) (fun env => lanesAny env (fun t => (env.badElem .rne
       (fun t => (List.range (min (env.slot 0).elems (env.w.slot 2).elems)).map (fun j u => (env.w.slot 2).encode (env.val 0 4 t j) .rne
         ((env.slot 0).sign (env.v 4 t) j) u)) t).isSome)),
     at_ (.fbscl (r3 5 4 3 9 3 0x24)) (.convert 0x24 .block) (fun env => (env.slot 3).elems ≤ 9),
     at_ (.ftoi (r3 5 3 2 0 0 0xA)) .plain (fun env => (env.slot 0).elems ≤ 2), at_ (.itof (r3 5 1 0 2 0 0xA)) .plain (fun env => (env.slot 0).elems ≤ 2)] ++
    [at_ (.fbscl (r3 5 1 4 0 3 0x44)) (.convert 0x44 .block) (fun env => lanesAny env (fun t => (env.badElem .rne (fun t =>
       (List.range (min (env.slot 3).elems (env.w.slot 2).elems)).map (fun j u =>
       (env.w.slot 2).encode ((env.slot 3).blockValue (env.v 4 t) ((env.slot 3).code (env.v 1 t) j)) .rne ((env.slot 3).sign (env.v 1 t) j) u)) t).isSome)),
     at_ (.itof (r3 5 2 0 0 2 0xA)) .plain (fun env => lanesAny env (fun t => (env.badElem .rne (fun t => (List.range 2).map (fun j u =>
       (env.slot 2).encode (Val.ofInt (elemInt 2 (env.v 2 t) j)) .rne (decide (2 ^ 31 ≤ elemOf 32 (env.v 2 t) j)) u)) t).isSome))],
    q.Shown := cases_shown _ (by decide +kernel)

theorem witness_TransfersOfControl_yield : ∀ q ∈ (
    [⟨.yield (r3 0 0 0 0 0 0), .plain, tTwo, fun env => alone env && env.more &&
       env.w.frontier.all (fun z => z.same env.e || (z.pri, z.pc, z.parked) ≠ (env.e.pri, env.e.pc + 8, false))⟩,
     ⟨.yield (r3 0 0 0 0 0 0), .plain, tState, fun env => !env.more⟩] : List Case), q.Shown := cases_shown _ (by decide +kernel)

theorem witness_ThreadsJoinAndExit_outcomes : ∀ q ∈
    [at_ (.wjoin (ri 1 0 9 0 0)) .resets (fun env => alone env && allArrive env),
     at_ (.wjoin { ri 1 0 9 0 0 with pg := 1 }) .resets (fun env => alone env && !allArrive env),
     ⟨.wjoin (ri 1 0 9 0 0), .resets, editWarp tTwo (fun w => { w with wjoins := [{ pc := 0x10000, left := 5, d := 2, handler := false }] }),
       fun env => alone env && !allArrive env && env.w.wjoins.any (fun j => j.pc = env.e.pc)⟩,
     at_ (.exit (r3 0 0 0 0 0 0)) .resets (fun env => env.w.live &&& ~~~env.p = 0 && env.finish.isSome),
     ⟨.exit (r3 0 0 0 0 0 0), .resets, editCtx (tLater (tBusy 3)) (fun x => { x with warps := x.warps.filter (fun w => w.uid = 2) }), fun env => env.w.live &&& ~~~env.p = 0 && env.finish.isNone⟩],
    q.Shown := cases_shown _ (by decide +kernel)

/-- A word of no instruction, as it is refused. -/
def refusedAs (v : Word) (c : Cause) : Bool := match decodeFetched v with | .error d => decide (d = c) | .ok _ => false

theorem witness_TrapInstructions_words :
    (refusedAs 0x4021050607001C00 .rsvdBits && refusedAs (wordOf (.sadd (r3 1 2 3 0 0 1))) .illegalX &&
      opens (.unassignedOpcode 0x4021050607001C00) tState (fun env => !env.spin) &&
      opens (.unassignedOpcode (wordOf (.faddi (ri 5 3 0 0 8)))) tState (fun env => !env.spin) &&
      0x50 ≤ field (wordOf (.faddi (ri 5 3 0 0 8))).toNat 63 56 && field (wordOf (.faddi (ri 5 3 0 0 8))).toNat 63 56 ≤ 0x52) = true := by
  decide +kernel
/-- R96, R345: a word with header bits set takes RSVD_BITS at its issue, with the word as UTVAL. -/
theorem test_step_refused_word : stepWarp (State.reset.withFetchWord 64 0x4021050607001C00)
    (fun w => w.ucause = 2 && w.utval = 0x4021050607001C00 && w.issues = 1) = true := by decide +kernel

theorem witness_LoadsMakeAccesses_packed_traps : ∀ q ∈
    [at_ (.ldg (mf 5 21 1 0 2 0x18)) .anySlot (trapsAt (fun env => env.packed (mf 5 21 1 0 2 0x18) (env.slot 2) .global 0 (fun t => (env.v 1 t).toInt) 1 (3 * (env.slot 2).width) true false)),
     at_ (.ldg (mf 5 11 1 0 2 0x18)) .anySlot (holdsAt (fun env => env.packed (mf 5 11 1 0 2 0x18) (env.slot 2) .global 0 (fun t => (env.v 1 t).toInt) 1 (3 * (env.slot 2).width) true false)),
     ⟨.ldg (mf 5 8 1 0 2 0x19), .anySlot, tAbsent, lineAbsent (fun env => env.packed (mf 5 8 1 0 2 0x19) (env.slot 2) .scratch 0 (fun t => (env.v 1 t).toInt) 1
       (3 * (env.slot 2).width) true false)⟩,
     at_ (.stsc (mf 1 21 1 0 2 0x38)) .packedStore (trapsAt (fun env => env.packed (mf 1 21 1 0 2 0x38) (env.slot 2) .global 0 (fun t => (env.v 1 t).toInt) 1 (7 * (env.slot 2).width) false true)),
     at_ (.stsc (mf 1 11 1 0 2 0x38)) .packedStore (holdsAt (fun env => env.packed (mf 1 11 1 0 2 0x38) (env.slot 2) .global 0 (fun t => (env.v 1 t).toInt) 1 (7 * (env.slot 2).width) false true))],
    q.Shown := cases_shown _ (by decide +kernel)

theorem witness_AccessesArePerformed_group : onX (flying (.store 0x1234)) (fun x => match x.accesses.find? (fun b => b.id = 50) with
    | some a => (a :: storeGroup (flying (.store 0x1234)) x a).all (canPerform (flying (.store 0x1234)) x)
    | none => false) = true := by decide +kernel

/-- R163, R165: the lanes of one STREL do not wait for one another, and take effect together. -/
def tStrel : State := editCtx tState (fun x => { x with accesses := [50, 51].map (fun i =>
  { acc0 (.store (i + 7)) with id := i, ins := 50, lane := i - 50, rel := some 5 }) })
theorem test_strel_lanes : (match exec (.accessPerform 0 50 false) tStrel with
    | .next t => t.ctxs.all (fun x => x.accesses.isEmpty) && memByte t.mem (0x20000) = 58
    | _ => false) = true := by decide +kernel

/-- A result owed to a destination, with the marks and the allocation of the warp. -/
def owed1 (d : Dest) (f : Warp → Warp) : State := editWarp (editCtx tState (fun x => { x with owed := [{ id := 60, uid := 2, dest := d, value := 77, bad := none }] })) f
def destU : Dest := { uniform := true, reg := 20, lane := 0, prod := 9, allocGen := 0 }
theorem witness_ResultsReturn_more :
    [onW (owed1 destU (fun w => w.markS 20 (.empty 9))) (fun _ w => w.smark 20 = .empty 9), onW (owed1 destU id) (fun _ w => w.smark 20 ≠ .empty 9),
     onW (owed1 dest0 (fun w => { w with live := 1 })) (fun _ w => !w.live.has 3), onW (owed1 dest0 (fun w => { w with nregs := 5 })) (fun _ w => w.nregs ≤ 5),
     onW (owed1 dest0 (fun w => { w with allocGen := 1 })) (fun _ w => dest0.allocGen ≠ w.allocGen)].all id = true := by decide +kernel
/-- R91: a result for an exited thread only counts in GTDROP. -/
theorem test_result_of_exited_thread : (match exec (.resultReturn 0 60) (owed1 dest0 (fun w => { w with live := 1 })) with
    | .next t => t.ctxs.any (fun x => x.owed.isEmpty && x.gtdrop = 1 && x.warps.all (fun w => w.readV 5 3 = 0))
    | _ => false) = true := by decide +kernel

theorem witness_SlotAndControlRegisters_traps : ∀ q ∈
    [at_ (.csrwFairt (ri 0 0 1 0 0)) .plain (fun env => env.s 0 = 0), at_ (.csrwFairq (ri 0 3 2 0 0)) .plain (fun env => 2 ^ 16 ≤ (env.s 3).toNat),
     at_ (.csrwWdog (ri 0 10 3 0 0)) .plain (fun env => 2 ^ 32 ≤ (env.s 10).toNat), at_ (.csrwGencfg (ri 0 9 5 0 0)) .plain (fun env => natBits (env.s 9).toNat 7 5 ≠ 0),
     at_ (.csrw (ri 0 5 0x10 0 0)) .plain (fun env => (env.s 5).toNat % 8 ≠ 0), at_ (.csrw (ri 0 21 0x11 0 0)) .plain (fun env => 2 ^ 57 ≤ (env.s 21).toNat),
     ⟨.csrw (ri 0 9 0x100 0 0), .plain, tFirmware, fun env => env.w.firmware && 32 ≤ (env.s 9).toNat⟩,
     at_ (.csrw (ri 0 2 0x20 0 0)) .plain any, at_ (.csrw (ri 0 2 0x100 0 0)) .plain (fun env => !env.w.firmware),
     ⟨.csrr (ri 1 0 0x101 0 0), .plain, tFirmware, fun env => (env.csr 0x101).isSome⟩] ++
    [at_ (.rgrow (ri 1 0 7 0 0)) .plain any, at_ (.rgrow (ri 1 0 264 0 0)) .plain any, at_ (.rshrk (ri 0 0 7 0 0)) .plain any,
     at_ (.sreg (ri 5 0 0x42 0 0)) .plain (fun env => env.blk.isSome && (env.ctx.launch? env.w.q).isSome)], q.Shown := cases_shown _ (by decide +kernel)

/-- Sixteen multicasts to the home of the group are in flight. -/
def tMulticasts : State := editCtx tPod (fun x => { x with
  accesses := (List.range 16).map (fun k => { acc0 (.member 0 0x80 false false 1) with id := 50 + k, ins := 50 + k }) })
theorem witness_MulticastStoresAndFences_holds : ∀ q ∈
    ([⟨.mst (mf 1 0 0 0 0 3), .resets, tMulticasts, fun env => groupOk (mf 1 0 0 0 0 3) true env && 16 ≤ env.dev.ctxs.foldl (fun n x => n + x.multicasts 0x80) 0⟩,
      ⟨.msto (mf 1 0 0 0 0 3), .resets, tMulticasts, fun env => groupOk (mf 1 0 0 0 0 3) true env && 16 ≤ env.dev.ctxs.foldl (fun n x => n + x.multicasts 0x80) 0⟩,
      ⟨.mst (mf 1 0 0 0 0 3), .resets, tPod, fun env => groupOk (mf 1 0 0 0 0 3) true env && env.dev.ctxs.foldl (fun n x => n + x.multicasts 0x80) 0 < 16⟩] : List Case),
    q.Shown := cases_shown _ (by decide +kernel)

theorem witness_DescriptorsAndChannels_traps : ∀ q ∈
    [at_ (.tdesc (r3 8 3 7 8 0 0)) .plain (fun env => (env.s 3).toNat < 2 ^ 57 && 2 ^ 50 ≤ (env.s 7).toNat),
     at_ (.tdesc (r3 8 3 10 12 0 0)) .plain (fun env => (env.s 3).toNat < 2 ^ 57 && (env.s 10).toNat < 2 ^ 50 && !(env.s 10).getLsbD 35 &&
       natBits (env.s 10).toNat 34 32 ≤ 2 && 2 ^ 40 ≤ (env.s 12).toNat),
     at_ (.tmod (r3 8 0 7 0 0 0)) .plain (fun env => 2 ^ (tmodField 0).2 ≤ (env.s 7).toNat),
     at_ (.chsetRing (r3 0 3 9 4 0 0)) .resets (fun env => natBits (env.s 9).toNat 7 6 ≠ 0),
     at_ (.chsetRing (r3 0 21 17 4 0 0)) .resets (fun env => (env.s 17).toNat < 2 ^ 12 && natBits (env.s 17).toNat 7 6 = 0 && 2 ^ 57 ≤ (env.s 21).toNat),
     at_ (.chsetRing (r3 0 5 17 4 0 0)) .resets (fun env => (env.s 5).toNat < 2 ^ 57 && (env.s 5).toNat % 128 ≠ 0),
     ⟨.chsetRing (r3 0 3 17 4 0 0), .resets, tCard card0, fun env => (env.checkAddrs [(env.s 3, 128), (env.s 4, 8)]).isNone && env.ctx.chanBusy env.cl 5⟩,
     at_ (.chsetChain (r3 0 21 19 0 0 1)) .resets (fun env => (env.s 19).toNat < 64 && 2 ^ 57 ≤ (env.s 21).toNat),
     at_ (.chsetChain (r3 0 5 19 0 0 1)) .resets (fun env => (env.s 19).toNat < 64 && (env.s 5).toNat % 128 ≠ 0),
     at_ (.chsetChain (r3 0 3 19 0 0 1)) .resets (fun env => (env.checkAddrs [(env.s 3, 128)]).isNone && (env.ctx.chan? env.cl (env.s 19).toNat).isNone)],
    q.Shown := cases_shown _ (by decide +kernel)

/-- The next slot of the ring holds a card; a chain of the channel is walked; an earlier card of the channel is posted. -/
def tOwned : State := editCtx (tCard card0) (fun x => { x with channels := [{ chan0 with nextSlot := 0 }] })
def tPosted : State := editCtx tChan (fun x => { x with
  posted := [{ uid := 2, card := card0, d := 30, prod := 60 }] })
/-- The card that S24 names meets a test. -/
def named (f : Card → Bool) (env : Env) : Bool := natBits (env.s 24).toNat 31 6 = 0 && (match env.ctx.cards.find? (fun k => k.cl = env.cl &&
  k.ch = (env.s 24).toNat % 64 && k.seq = (env.s 24).toNat / 2 ^ 32) with | some k => f k | none => false)
theorem witness_CardsArePostedAndCancelled_more : ∀ q ∈ (
    [⟨.jpost (r3 30 0 1 19 0 0), jpostOpts (r3 30 0 1 19 0 0), tOwned, fun env => (env.checkPost (postCtl env (r3 30 0 1 19 0 0))).isNone &&
       (match env.ctx.chan? env.cl 5 with | some c => !env.ctx.ringFree c | none => false)⟩,
     ⟨.jpost (r3 30 0 1 19 0 0), jpostOpts (r3 30 0 1 19 0 0), tPosted, fun env => (env.checkPost (postCtl env (r3 30 0 1 19 0 0))).isNone &&
       (match env.ctx.chan? env.cl 5 with | some c => !env.ctx.ringFree c | none => false)⟩,
     ⟨.jpost (r3 30 0 1 19 0 0), jpostOpts (r3 30 0 1 19 0 0), tLater (editCtx (tBusy 3) (fun x => { x with channels := [chan0] })), fun env =>
       (env.checkPost (postCtl env (r3 30 0 1 19 0 0))).isNone && env.ctx.ringFree chan0 &&
         (env.releaseIn ((env.postCard (postCtl env (r3 30 0 1 19 0 0)) chan0).hulls env.ctx 0)).isNone⟩,
     ⟨.jcancel (r3 1 24 0 0 0 0), .plain, tCard { card0 with typ := 2, count := 3, started := true, iter := 1 },
       named (fun k => k.started && k.going && !k.cancelled && k.iter < k.iters)⟩,
     ⟨.jcancel (r3 1 24 0 0 0 0), .plain, tCard { card0 with started := true, iter := 1 }, named (fun k => k.started && k.going && !k.cancelled && k.iters ≤ k.iter)⟩,
     ⟨.jcancel (r3 1 24 0 0 0 0), .plain, tCard { card0 with status := 5 }, named (fun k => !k.started && k.status ≠ 0)⟩] : List Case),
    q.Shown := cases_shown _ (by decide +kernel)

/-- A load of the warp is in flight, before its next issue. -/
def tLoading : State := tLater (flying (.load dest0 none 8 false 0))
theorem witness_WaitsAndPresence_more : ∀ q ∈
    ([at_ (.twait (ri 1 27 0x23 0 0)) .resets (fun env => (env.checkPlan (twaitPlan (ri 1 27 0x23 0 0) env)).isNone && env.ctx.acquireReady env.w.uid env.id &&
       env.w.readS 28 = 0),
     ⟨.twait (ri 1 27 0x23 0 0), .resets, tLoading, fun env => (env.checkPlan (twaitPlan (ri 1 27 0x23 0 0) env)).isNone &&
       (env.readNow (twaitPlan (ri 1 27 0x23 0 0) env)).isNone && !env.ctx.acquireReady env.w.uid env.id && env.w.readS 28 = 0⟩,
     at_ (.twait (ri 1 3 0x27 0 0)) .resets any, at_ (.sqwait (ri 1 19 0x27 0 0)) .resets any,
     at_ (.sqwait (ri 1 19 0x23 0 0)) .resets (fun env => natBits (env.s 19).toNat 31 6 = 0 && (env.ctx.chan? env.cl ((env.s 19).toNat % 64)).isNone),
     ⟨.sqwait (ri 1 19 0x23 0 0), .resets, tLater (editCtx tLoading (fun x => { x with channels := [chan0] })), fun env =>
       (env.ctx.chan? env.cl ((env.s 19).toNat % 64)) = some chan0 && reached chan0.done 0 && !env.ctx.acquireReady env.w.uid env.id⟩,
     ⟨.sqwait (ri 1 19 0x23 0 0), .resets, editCtx tState (fun x => { x with channels := [chan0] }), fun env =>
       (env.ctx.chan? env.cl ((env.s 19).toNat % 64)) = some chan0 && !env.acquiring && env.ctx.acquireReady env.w.uid env.id⟩,
     at_ (.presq (mf 1 3 0 0 0 0)) .plain (fun env => lanesAny env (fun t => (env.spSize : Int) ≤ (env.ea (mf 1 3 0 0 0 0) 0 1 t).toInt)),
     at_ (.sinv (mf 0 9 19 0 0 0)) .plain (fun env => (env.s 9).toNat % 128 ≠ 0), at_ (.sinvSet (mf 0 9 19 0 0 1)) .plain (fun env => (env.s 9).toNat % 128 ≠ 0),
     at_ (.sinv (mf 0 3 19 0 0 0)) .plain (fun env => (env.s 3).toNat % 128 = 0 && env.s 19 ≠ 0 && env.spSize < (env.s 3).toNat + 128 * (env.s 19).toNat),
     at_ (.sinvSet (mf 0 3 19 0 0 1)) .plain (fun env => (env.s 3).toNat % 128 = 0 && env.s 19 ≠ 0 && env.spSize < (env.s 3).toNat + 128 * (env.s 19).toNat),
     at_ (.sinv (mf 0 3 0 0 0 0)) .plain (fun env => (env.s 3).toNat % 128 = 0 && env.s 0 = 0),
     at_ (.sinvSet (mf 0 3 0 0 0 1)) .plain (fun env => (env.s 3).toNat % 128 = 0 && env.s 0 = 0)] : List Case).map (fun q => { q with s := editWarp q.s (fun w =>
       { w with sregs := w.sregs ++ [(27, 0x21000)] }) }), q.Shown := cases_shown _ (by decide +kernel)

/-- With a NaN in element (0, 0) of the tile. -/
def tBadTile : State := editCtx tTile (fun x => { x with accMem := [(tile0.key 0 0, 0x7FC00000)] })
theorem witness_MatrixInstructions_wait : ∀ q ∈ (
    [⟨.amovv (r3 5 1 0 0 1 1), .plain, tBusy 0, fun env => (env.w.acc 1).pend ≠ 0⟩,
     ⟨.amovv (r3 5 1 0 0 2 0), amovvOpts (r3 5 1 0 0 2 0), tBadTile, fun env => (env.s 0).toNat < 2 ^ 32 && (env.w.acc 1).tile = some tile0 && 31 < tile0.m &&
       (env.slot 2).elems ≤ tile0.n && env.p.has 0 && (env.ctx.readOut tile0 (env.w.acc 1).zero (env.slot 2) 0 0).2 && (env.slot 2).inv = 0 && (env.slot 2).nan = 0⟩,
     ⟨.amovv (r3 5 1 0 0 2 0), amovvOpts (r3 5 1 0 0 2 0), tTile, fun env => (env.w.acc 1).tile = some tile0 && (List.range 32).all (fun l =>
       (List.range 8).all (fun i => !(env.ctx.readOut tile0 (env.w.acc 1).zero (env.slot 2) l i).2))⟩] : List Case),
    q.Shown := cases_shown _ (by decide +kernel)
/-- R207: the first element of lane 0 that is invalid under the trap policy is UTVAL, and its lane alone fails. -/
theorem test_amovv_invalid : (match exec (.amovv (r3 5 1 0 0 2 0)) tBadTile with
    | .next t => t.ctxs.any (fun x => x.warps.any (fun w => w.ucause = BitVec.ofNat 9 Cause.fmtInvalid.code && w.utval = 0 && w.ufmask = 1))
    | _ => false) = true := by decide +kernel

/-- An open generation of three on channel 3 of die 0. -/
def tOpen : State := editCtx tState (fun x => { x with barGens := [⟨3, [0], false, 3, [(3, 0)]⟩] })
/-- A broadcast has arrived on channel 3 of die 0. -/
def tHeard (seen : Nat) : State := editWarp (editCtx tState (fun x => { x with bcGen := [(3, 1)], bcValue := [(3, 7)] })) (fun w => { w with bcSeen := [(3, seen)] })
theorem witness_BarriersAndBroadcasts_more : ∀ q ∈
    [at_ (.bsync (ri 0 2 3 0 1)) .plain (fun env => 1 ≤ (env.s 2).toNat && 3 < env.ctx.p.nb && (env.releaseAt 4).isSome),
     ⟨.bsync (ri 0 2 3 0 1), .plain, tLater (tBusy 3), fun env => (env.s 2).toNat = 1 && (env.releaseAt 4).isNone⟩,
     at_ (.bsync (ri 0 0 3 0 0)) .plain (fun env => (env.s 0).toNat < 1),
     ⟨.bsync (ri 0 2 3 0 0), .plain, tOpen, fun env => (env.ctx.openGens 3 [0]).any (fun g => g.c ≠ (env.s 2).toNat)⟩,
     ⟨.barr (ri 0 0 0x42 0 0), .plain, tLater (tBusy 3), fun env => match env.blk with | some b => 2 ≤ b.nwarps && !b.barrClash 1 2 && (env.releaseAt 2).isNone | none => false⟩,
     at_ (.barr (ri 0 0 0x45 0 0)) .plain (fun env => match env.blk with | some b => b.nwarps < 5 | none => false),
     ⟨.brecv (r3 5 0 0 0 0 3), .plain, tHeard 0, fun env => smGet 0 env.w.bcSeen 3 < smGet 0 env.ctx.bcGen (widDie env.w.wid * 16 + 3) && env.w.recvs.isEmpty⟩,
     ⟨.brecv (r3 5 0 0 0 0 3), .plain, tHeard 1, fun env => smGet 0 env.ctx.bcGen (widDie env.w.wid * 16 + 3) ≤ smGet 0 env.w.bcSeen 3⟩,
     at_ (.brecv (r3 5 0 0 0 0 4)) .plain (fun env => env.ctx.p.nc ≤ 4)], q.Shown := cases_shown _ (by decide +kernel)
/-- R213: a value that is newer than the last is owed at once, and the warp has then seen it. -/
theorem test_brecv_newer : (match exec (.brecv (r3 5 0 0 0 0 3)) (tHeard 0) with
    | .next t => t.ctxs.any (fun x => x.owed.any (fun o => o.value = 7) && x.warps.any (fun w => smGet 0 w.bcSeen 3 = 1 && w.recvs.isEmpty))
    | _ => false) = true := by decide +kernel

/-- Messages in the queue that a receive accepts. -/
def tQueued : State := editWarp { tState with held := [held0 true false none] } (fun w => { w with sregs := w.sregs ++ [(30, 0xFFFFFFFFFFFFFFFF), (32, 0xFFFFFFFF00000000), (33, 0x20000)] })
theorem witness_MessageInstructions_more : ∀ q ∈
    ([⟨.mtest (r3 5 25 0 0 0 0), .plain, tRecv false, fun env => env.receive (env.s 25) = some (recv0 false)⟩,
     ⟨.mpost (r3 5 7 0 30 0 0), .message (r3 5 7 0 30 0 0) false, tQueued, fun env => (env.w.readS 31).toNat < 2 ^ 16 && (env.checkDesc (env.w.tdesc 7) [0]).isNone &&
       (env.dev.freeEntry (widDie env.w.wid)) = some 0 &&
       ((env.dev.searchList 0).find? (fun h => ({ recv0 false with mword := env.s 0, mask := env.s 30 } : Receive).accepts h.msg)).isSome⟩,
     ⟨.mpost (r3 5 7 0 32 0 1), .message (r3 5 7 0 32 0 1) false, tQueued, fun env => (env.w.readS 33).toNat < 2 ^ 32 && natBits (env.w.readS 33).toNat 31 16 ≠ 0 &&
       (env.s 32).toNat % 2 ^ 32 = 0 && (env.checkDesc (env.w.tdesc 7) [0]).isNone && (env.dev.freeEntry (widDie env.w.wid)) = some 0⟩,
     ⟨.asend (r3 0 1 16 0 0 0), asendOpts (r3 0 1 16 0 0 0), tLater (editCtx tState (fun x => { x with
       accesses := [{ acc0 (.load dest0 none 8 false 0) with acq := some 5 }] })), fun env => env.acquiring⟩] : List Case), q.Shown := cases_shown _ (by decide +kernel)

theorem witness_GeneratorInstructions_mode : ∀ q ∈
    ([Instr.yld (r3 0 1 0 0 0 0), .gdone (r3 0 0 0 0 0 0)].map (fun i => (⟨i, .plain, tRegion (some 0), inRegion (some 0)⟩ : Case))) ++
    ([Instr.gtake (r3 5 0 1 0 0 0), .gtakeLn (r3 5 0 1 0 0 1), .gnext (r3 0 0 0 0 0 0)].map (fun i => (⟨i, .plain, tRegion none, inRegion none⟩ : Case))) ++
    [⟨.gen (bf 9 9 0), .plain, tTwo, fun env => env.e.mask ≠ env.w.live⟩], q.Shown := cases_shown _ (by decide +kernel)

theorem witness_RetiredInstructions_illegal :
    ([Instr.hadd, .hmul, .bhadd, .bhmul].all (fun f => opens (f (r3 5 1 2 0 0 1)) tState (fun env => !env.spin && env.t5Bad (r3 5 1 2 0 0 1) t5Binary)) &&
      [Instr.hfma, .bhfma].all (fun f => opens (f (r3 5 1 2 3 0 1)) tState (fun env => !env.spin && env.t5Bad (r3 5 1 2 3 0 1) t5Ternary)) &&
      opens (.barw (r3 1 2 0 0 0 1)) tState (fun env => !env.spin && env.t5Bad (r3 1 2 0 0 0 1) [src .D .vec, src .A .vec]) &&
      opens (.ldtex (r3 5 1 3 0 0 1)) tState (fun env => !env.spin && env.t5Bad (r3 5 1 3 0 0 1) [dst .D .vec, src .A .vec, src .B .uni])) = true ∧
    opens (.barw (r3 1 2 0 0 0 0)) (editCtx tState (fun x => { x with blocks := x.blocks.map (fun b => { b with barrs := [(15, ⟨2, [3], none⟩)] }) })) (fun env =>
      (env.t5Check (r3 1 2 0 0 0 0) [src .D .vec, src .A .vec]).isNone && (match env.blk with | some b => b.barrClash 15 0 | none => false)) = true := by
  decide +kernel
/-- R101, R131: the emulation of a retired opcode leaves FINSN and FLACT as it wrote them, and the warp in program mode. -/
theorem test_retired_enters_firmware : (match exec (.hadd (r3 5 1 2 0 0 0)) tState with
    | .next t => t.ctxs.any (fun x => x.warps.any (fun w => w.finsn = wordOf (.hadd (r3 5 1 2 0 0 0)) && w.flact = 0xFFFFFFFF && w.mode = .program))
    | _ => false) = true := by decide +kernel

theorem witness_EventsOfWarps_acquire :
    [onW (parked (.twait 1 0x20000 0 3 64 allLanes)) (fun x w => x.acquireReady 2 (parked (.nap 1)).nextId &&
       (tState.flying x).all (fun b => !b.shields w.uid (widCoreNo w.wid) tState.nextId false [{ pos := 0x20000 * 8, len := 64, off := 0 }])),
     onW (parked (.fence true true false 4 1 100 0x10000 allLanes)) (fun x w => x.fenceReady w true true 4 100 && !tState.foreignDue x (widCoreNo w.wid) 4 100)].all id = true := by decide +kernel

theorem witness_EventsOfAccessesAndPewter_more :
    [onX (editCtx tState (fun x => { x with bcasts := [⟨95, 0, 3, [0], 0, 7⟩] })) (fun x => x.bcasts.all (fun y => !y.before ⟨95, 0, 3, [0], 0, 7⟩)),
     onW (tHeard 0) (fun x w => smGet 0 w.bcSeen 3 < smGet 0 x.bcGen (widDie w.wid * 16 + 3))].all id = true := by decide +kernel

theorem witness_EventsOfCards_more :
    [startable (tCard { card0 with status := 6 }) (fun x k => x.active && k.status = 6 && !k.endWaits (tCard { card0 with status := 6 }) x && (match (k.run (tCard { card0 with status := 6 }) x (fun _ => true)).hit with
       | .wait => false | _ => true)),
     startable (tCard { cardLoop with items := [{ pos := 0, len := 16, src := 0, slen := 16, srcHdr := none, dstHdr := none, isHdr := false, iter := 0 }] }) (fun x k =>
       k.going && k.started && k.iter < k.iters && !k.cancelled && k.outstanding = [0] && !k.endWaits tChan x),
     startable (tCard card0) (fun x k => !(k.sramLines x).contains (keySram x.id k.core k.spBase / 128 + 2)),
     startable (tCard { cardTo tdSp with started := true, iter := 1 }) (fun x k => (k.sramLines x).contains (keySram x.id k.core k.spBase / 128 + 2))].all id = true := by
  decide +kernel

theorem witness_EventsOfMessages_more :
    [decide (({ tState with ctxs := [] } : State).rxCtx 0 0 = none), (let s := tSending (sending0 0xFF 1 false); s.inTurn 0 msg0 && !s.stuck 0 0xFF),
     (let s : State := { tState with pod := some 0 }; s.slotsOf 0 1 < 16 && s.inTurn 0 msg0),
     tState.ctxs.all (fun x => decide (x.id ≠ 9)), (activeTarget { active0 with q := some 5 } (tState.ctxs.headD (newContext tState tParams .running)) 0).isNone,
     (let s := { tSending { sendingActive with active := some { active0 with q := some 5 } } with rdy := tState.rdy }
      (s.deliverActive 0 { active0 with q := some 5 }).isSome)].all id = true := by decide +kernel

theorem witness_EventsOfContextsAndPages_more :
    [onW (parked (.readout 5 1 2 0 0 0 allLanes 9)) (fun _ w => w.park = some (.readout 5 1 2 0 0 0 allLanes 9)),
     onW tDraining (fun _ w => match w.park with | some (.readout _ _ _ _ _ _ _ _) => false | _ => true),
     onLeaf { tRemotePage with poison := [keyPeer 0x81 0 * 64 + 32] } 0x10000 (fun e level _ => natBits e 59 58 = 3 &&
       ({ tRemotePage with poison := [keyPeer 0x81 0 * 64 + 32] } : State).badGranules (leafKey tRemotePage e level (0x10000 / 2 ^ pageBits level * 2 ^ pageBits level))
         (2 ^ pageBits level) ≠ []),
     !tState.pageInUse 0x20000, (editCtx tState (fun x => { x with accesses := [{ acc0 (.store 1) with pieces := [{ pos := 0x20000 * 8, len := 64, off := 0, page := 0 }] }] })).pageInUse 0x20000].all
      id = true := by decide +kernel

/-- What context 0 goes back to. -/
def seed0 : ContextSeed :=
  { ctx := 0, stamp := 50, csr := 0, hw := 0, rndseed := 5, nextQ := 3, rxGen := 0, fairt := 1, fairq := 1, wdog := 0, gencfg := 0, utvec := 0, wawdrop := 0, gtdrop := 0, bcast := [(3, 7, 1)]
    channels := [⟨0, 5, 0x24000, 4, 0, 0x25000, 1, 0, false⟩] }
/-- A recovery with an image of a page table, its stack not ready. -/
def planWaits : RecoveryPlan := { plan0 with remap := [(0, 1)] }
/-- A page-table word waits while no stack is ready. -/
theorem plan_waits (s : State) (h : s.rdy = 0) : s.planReady planWaits = false := by
  simp [State.planReady, State.ptesReady, planWaits, State.hbmReady, h]
theorem witness_EventsOfThePackage_waits : ({ tState with rdy := 0 } : State).planReady planWaits = false := plan_waits _ rfl
/-- A pod package with a load in flight to the node at port 1. -/
def tPort : State :=
  { flying (.load dest0 none 8 false 0) with
    nfeat := 3, pod := some 0
    ctxs := (flying (.load dest0 none 8 false 0)).ctxs.map (fun x => { x with
      accesses := x.accesses.map (fun a => { a with pieces := [{ pos := keyPeer 0x81 0 * 8, len := 64, off := 0 }] }) }) }
theorem witness_EventsOfThePackage_more :
    [decide ((err0 (.vreg 0 2 3 1)).site = .vreg 0 2 3 1), onW tState (fun _ w => w.vmark 3 1 = .full && w.smark 3 = .full),
     (let s : State := { State.reset with nfeat := 2, pod := some 1 }; s.nfeat.getLsbD 1 && s.pod ≠ none && !s.dead.getLsbD 3),
     (editCtx tState (fun x => { x with born := 0 })).ctxs.all (fun x => x.born = tState.cycle),
     ({ tState with cycle := 9 } : State).ctxs.any (fun x => x.born ≠ 9),
     !({ State.reset with nfeat := 0 } : State).nfeat.getLsbD 1, { plan0 with fault := true }.fault,
     ({ tState with recovering := true } : State).ctxs.any (fun x => plan0.job.contains x.id && x.launches ≠ []),
     tState.reposts.isEmpty, (({ plan0 with seeds := [seed0] } : RecoveryPlan).seeds.find? (fun q => q.ctx = 0)).isSome, (tState.ctx? seed0.ctx).isSome,
     tPort.portLive 1 && (match tPort.ctxs with
       | [x] => (x.accesses.filter (tPort.through 1)).length = 1 && x.accesses.all (fun a => x.inOrder a)
       | _ => false), tState.ctxs.all (fun x => x.accesses.all (fun a => !tState.through 1 a)), tPort.portOf (keyPeer 0x80 0) = some 0, tPort.portOf (keyPeer 0x01 0) = some 0,
     (let s : State := { State.reset with fsvGoal := 4 }; decide (s.fuses < s.fsvGoal)), (let s : State := { State.reset with loader := true, fuses := 3 }; s.loader && s.fuses ≤ 3), (let s : State := { State.reset with loader := false }; !s.loader),
     tState.planReady plan0, decide ((err0 (.reg 0 2 3 1)).site = .reg 0 2 3 1),
     bootLoader { version := 0, security := 1, verified := true } 2, !bootLoader { version := 0, security := 2, verified := true } 2,
     onW tState (fun _ w => w.faults.isEmpty),
     State.reset.droops.foldl (fun n q => n + q.2) 10 ≤ 330].all id = true := by decide +kernel

/-- The first candidate's word is refused, or its fetch traps. -/
def refusedShown (s : State) (trap : Bool) : Bool :=
  match s.nextPart.bind (fun p => (s.candidates p).head?) with
  | none => false
  | some q =>
    match (s.ctx? q.1).bind (fun x => (x.warp? q.2).map (fun w => (x, w))) with
    | none => false
    | some (x, w) =>
      match selectEntry x.prog (w.opened x.prog) with
      | none => false
      | some e =>
        match fetch s x w e with
        | (t, .word v) => !trap && (match decodeFetched v with
          | .error c => decide ((execBadWord v c { t with cur := some q }).issuesOf q ≠ s.issuesOf q)
          | .ok _ => false)
        | (_, .trap _ _ _) => trap
        | _ => false
/-- The page of the code may not be executed. -/
def tNoExec : State :=
  let s := tFetch 0
  { s with mem := writeBytes s.mem (keyHbm 8192) 8 (2 ^ 63 + 2 ^ 62 + 2 ^ 61 + 0xFF * 2 ^ 47 + 0x406) }
/-- A warp stopped in firmware mode by HADD (log entry 45). -/
def tStopped : State :=
  let s := tFetch 0
  { s with ctxs := s.ctxs.map (fun x => { x with warps := x.warps.map (fun w => { w with mode := .firmware false false, finsn := wordOf (.hadd (r3 5 1 2 0 0 0)) }) }) }
/-- Its instruction ends with its issue. -/
def stoppedShown (s : State) : Bool :=
  match s.nextPart.bind (fun p => (s.candidates p).head?) with
  | none => false
  | some q => s.agenda = [] && (match (s.ctx? q.1).bind (fun x => (x.warp? q.2).map (fun w => (x, w))) with
    | some (x, w) => w.firmware && (selectEntry x.prog (w.opened x.prog)).isSome && readsAs w.finsn (.hadd (r3 5 1 2 0 0 0)) &&
        (match exec (.hadd (r3 5 1 2 0 0 0)) { s with cur := some q } with
         | .next u => decide (u.issuesOf q ≠ s.issuesOf q)
         | _ => false)
    | none => false)
theorem witness_StepRunsDecodedInstruction_firmware :
    [stoppedShown tStopped, tStopped.inFirmware, !(tFetch 0).inFirmware,
     (match tStopped.nextPart.bind (fun p => (tStopped.candidates p).head?) with
      | some q => (match exec (.sldi (i32 1 7 0)) { tStopped with agenda := [], cur := some q } with | .next u => u.agenda = [] && !u.waitsAgain q | _ => false)
      | none => false)].all id = true := by decide +kernel
/-- R101: an instruction of the emulation handler, SADD, leaves the warp in firmware mode and its entry where it was. -/
theorem test_firmware_instruction : (match step { tStopped with agenda := [.sldi (i32 1 7 0)] } with
    | .next t => t.turn = 1 && t.ctxs.all (fun x => x.warps.all (fun w => w.firmware && w.readS 1 = 7 && w.issues = 0 && w.frontier.any (fun e => e.pc = 0x10000)))
    | _ => false) = true := by decide +kernel
theorem witness_StepRunsDecodedInstruction_more :
    [refusedShown (tFetch 0x4021050607001C00) false, refusedShown tNoExec true, !isEvent (.nop (r3 0 0 0 0 0 0))].all id = true := by decide +kernel

/-- R356 to R360: a reset leaves no context and no function ready, the counter at the fuses, and the copied table's first record at its place: type
0x0001, 24 bytes of identity. -/
theorem test_reset_event : (match exec .reset { tState with fuses := 3, fsv := 2 } with
    | .next t => t.ctxs.isEmpty && t.rdy = 0 && t.fsv = 3 && t.nfeat = 1
    | _ => false) = true := by decide +kernel
theorem test_capability_record : (capRecord 0x0001 (bytesOf 24 (fun _ => 7))).length = 32 ∧ (capRecord 0x0001 (bytesOf 24 (fun _ => 7))).take 4 = [1, 0, 24, 0] := by
  decide +kernel

/-- The stacks of all threads but the first are empty. -/
def tHalfCalled : State := editWarp tState (fun w => { w with csp := w.csp.map (fun q => (q.1, if q.1 = 0 then q.2 - 16 else q.2)) })
/-- The record of the first thread lies at this key. -/
def recordKey : Nat := 0x20000000 + 65536 - 16
/-- Its return PC is no multiple of 8. -/
def tBadRecord : State := { tCalled with mem := writeBytes tCalled.mem recordKey 8 0x10004 }
/-- A bottomless stack, and one from which 16 bytes reach past its top. -/
def tCsp (f : Nat → Nat) : State := editWarp tState (fun w => { w with csp := w.csp.map (fun q => (q.1, f q.2)) })
/-- Nothing is mapped. -/
def tUnmapped (s : State) : State := { s with mem := [] }
/-- An acquire of the warp is in flight. -/
def tAcquiring (s : State) : State := editCtx s (fun x => { x with accesses := [{ acc0 (.store 1) with uid := 2, acq := some 4 }] })
/-- In firmware mode for HADD, its first source marked in lane 0 (R131). -/
def tFop (m : Mark) : State := editWarp tFirmware (fun w => { w with finsn := wordOf (.hadd (r3 5 1 2 0 0 0)) }.markV 1 0 m)
/-- A check of a call record, and the read that follows it. -/
def recordHolds (env : Env) (disp : Int) (write : Bool) : Bool :=
  match env.checkPlan (env.recordPlan disp write) with | some (.hold _) => true | _ => false
def recordTraps (env : Env) (disp : Int) (write : Bool) : Bool :=
  match env.checkPlan (env.recordPlan disp write) with | some (.trap _) => true | _ => false
def popHolds (env : Env) : Bool := match env.readNow (env.recordPlan 0 false) with | some (.hold _) => true | _ => false
def popTraps (env : Env) : Bool := match env.readNow (env.recordPlan 0 false) with | some (.trap _) => true | _ => false

theorem witness_CallsAndReturns_causes : ∀ q ∈
    ([⟨.ret (r3 0 0 0 0 0 0), .plain, tHalfCalled, fun env => lanesAny env (fun t => (env.pws : Int) ≤ env.stackOff t) &&
       lanesAny env (fun t => env.stackOff t < env.pws)⟩,
     ⟨.ret (r3 0 0 0 0 0 0), .plain, tBadRecord, fun env => lanesAll env (fun t => env.stackOff t < env.pws) &&
       (env.checkPlan (env.recordPlan 0 false)).isNone && (env.readNow (env.recordPlan 0 false)).isNone &&
       lanesAny env (fun t => (BitVec.ofNat 57 (env.popped (env.recordPlan 0 false) t)).toNat % 8 ≠ 0)⟩,
     ⟨.ret (r3 0 0 0 0 0 0), .plain, tCsp (fun p => p - 8), fun env => lanesAll env (fun t => env.stackOff t < env.pws) && recordTraps env 0 false⟩,
     ⟨.ret (r3 0 0 0 0 0 0), .plain, tUnmapped tCalled, fun env => lanesAll env (fun t => env.stackOff t < env.pws) && recordHolds env 0 false⟩,
     ⟨.ret (r3 0 0 0 0 0 0), .plain, tAcquiring tCalled, fun env => lanesAll env (fun t => env.stackOff t < env.pws) &&
       (env.checkPlan (env.recordPlan 0 false)).isNone && popHolds env && env.awaits (env.planPieces (env.recordPlan 0 false))⟩,
     ⟨.ret (r3 0 0 0 0 0 0), .plain, { tCalled with poison := [recordKey / 32 * 32 * 64 + 32] }, fun env => lanesAll env (fun t => env.stackOff t < env.pws) &&
       (env.checkPlan (env.recordPlan 0 false)).isNone && popTraps env⟩,
     ⟨.call (bf 5 9 0), .plain, tCsp (fun _ => 0), fun env => recordTraps env (-16) true⟩,
     ⟨.call (bf 5 9 0), .plain, tUnmapped tState, fun env => recordHolds env (-16) true⟩,
     at_ (.callx (ri 0 1 7 0 0)) .plain (fun env => lanesAny env (fun t => !((env.v 1 t).toNat < 2 ^ 57 && (env.v 1 t).toNat % 8 = 0))),
     ⟨.callx (ri 0 8 7 0 0), .plain, tCsp (fun _ => 0), fun env => lanesAll env (fun t => (env.v 8 t).toNat < 2 ^ 57 && (env.v 8 t).toNat % 8 = 0) &&
       recordTraps env (-16) true⟩,
     ⟨.callx (ri 0 8 7 0 0), .plain, tUnmapped tState, fun env => lanesAll env (fun t => (env.v 8 t).toNat < 2 ^ 57 && (env.v 8 t).toNat % 8 = 0) &&
       recordHolds env (-16) true⟩,
     ⟨.chsetChain (r3 0 3 19 0 0 1), .resets, tAcquiring tChan, fun env => (env.s 19).toNat < 64 && (env.checkAddrs [(env.s 3, 128)]).isNone &&
       env.ctx.chan? env.cl (env.s 19).toNat = some chan0 && !env.ctx.chanBusy env.cl (env.s 19).toNat && chan0.walking.isNone && env.acquiring⟩,
     ⟨.msend (r3 0 7 30 2 0 0), .message (r3 0 7 30 2 0 0) true, editWarp tState (fun w => { w with sregs := [(2, 1), (30, 0x2FF)] }), fun env =>
       natBits (env.s 30).toNat 31 10 = 0 && (env.s 30).toNat % 256 = 0xFF && (env.s 2).toNat < 2 ^ 16 &&
         !env.ctx.p.dies.contains ((widDie env.w.wid + natBits (env.s 30).toNat 9 8) % 4)⟩,
     ⟨.csrr (ri 1 0 0x102 0 0), .plain, tFop .full, fun env => (env.fopCheck 0x102).isNone && (env.csr 0x102).isSome⟩,
     ⟨.csrr (ri 1 0 0x102 0 0), .plain, tFop (.empty 9), fun env => (match env.fopCheck 0x102 with | some (.hold _) => true | _ => false) &&
       env.w.vmark (natBits (env.w.finsn.toNat / 2 ^ 16) 23 16) env.w.flsel.toNat = .empty 9⟩,
     ⟨.csrr (ri 1 0 0x102 0 0), .plain, tFop (.poison 7 true), fun env => (match env.fopCheck 0x102 with | some (.trap _) => true | _ => false) &&
       env.w.vmark (natBits (env.w.finsn.toNat / 2 ^ 16) 23 16) env.w.flsel.toNat = .poison 7 true⟩] : List Case), q.Shown :=
  cases_shown _ (by decide +kernel)

end Sys2Proof.Tests
end

section
/-! PROOFS. Bytes and bits of memory in their places (R3). -/

namespace Sys2Proof.Scope

open Sys2Proof Machine Laws

/-! ### Bytes of a value that is read -/

/-- Byte j of a value that is read is the byte j places up. -/
theorem readBytes_byte (m : Memory) (a : Nat) {n j : Nat} (hj : j < n) :
    readBytes m a n / 256 ^ j % 256 = (memByte m (a + j)).toNat := by
  induction n generalizing a j with
  | zero => omega
  | succ n ih =>
    have hlow := (memByte m a).isLt
    cases j with
    | zero => simp only [readBytes, Nat.pow_zero, Nat.div_one, Nat.add_zero]; omega
    | succ j =>
      have hrest : readBytes m a (n + 1) / 256 = readBytes m (a + 1) n := by rw [readBytes]; omega
      rw [Nat.pow_succ', ← Nat.div_div_eq_div_mul, hrest, ih (a + 1) (by omega)]
      congr 2
      omega

/-! ### Bits of a number and of its bytes -/

/-- Bit q of a number is bit q mod 8 of its byte q div 8. -/
theorem testBit_byte (v q : Nat) : (v / 256 ^ (q / 8) % 256).testBit (q % 8) = v.testBit q := by
  have hpow : 256 ^ (q / 8) = 2 ^ (8 * (q / 8)) := by rw [Nat.pow_mul]
  have hbit : (v / 256 ^ (q / 8) % 2 ^ 8).testBit (q % 8) = v.testBit q := by
    rw [Nat.testBit_mod_two_pow, hpow, Nat.testBit_div_two_pow, Nat.mod_add_div]
    simp [Nat.mod_lt]
  exact hbit

/-- Bit q of a run of bytes that is read. -/
theorem testBit_readBytes (m : Memory) (a : Nat) {n q : Nat} (hq : q / 8 < n) :
    (readBytes m a n).testBit q = (memByte m (a + q / 8)).getLsbD (q % 8) := by
  rw [← testBit_byte, readBytes_byte m a hq]
  rfl

/-- Bit q mod 8 of the byte that a write of a value leaves q div 8 places up is bit q of the value. -/
theorem getLsbD_writeBytes (m : Memory) (a v : Nat) {n q : Nat} (hq : q / 8 < n) :
    (memByte (writeBytes m a n v) (a + q / 8)).getLsbD (q % 8) = v.testBit q := by
  rw [memByte_writeBytes, if_pos (by omega), Nat.add_sub_cancel_left, ← testBit_byte]
  rfl

/-- A bit that a splice replaces is that of the new value. -/
theorem testBit_spliceBits (old sh v : Nat) {len k : Nat} (hk : k < len) :
    (spliceBits old sh len v).testBit (sh + k) = v.testBit k := by
  unfold spliceBits
  simp [Nat.testBit_xor, Nat.testBit_and, Nat.testBit_shiftLeft, Nat.testBit_mod_two_pow, Nat.testBit_two_pow_sub_one, hk]

/-- The byte of bit k of a stream, and the bit's place in it, from the byte in which the stream begins. -/
theorem stream_place (pos k : Nat) :
    (pos + k) / 8 = pos / 8 + (pos % 8 + k) / 8 ∧ (pos + k) % 8 = (pos % 8 + k) % 8 := by omega

/-- Settles O56: a byte is found by its place in the run, and a bit of a stream by its place in its byte. -/
theorem memoryIsLittleEndian : Obligations.MemoryIsLittleEndian := by
  unfold Obligations.MemoryIsLittleEndian
  refine ⟨fun m a n v j hj => ?_, fun m a n j hj => readBytes_byte m a hj, readBytes_lt, fun m pos len k hk => ?_,
    fun m pos len v k hk => ?_⟩
  · rw [memByte_writeBytes, if_pos (by omega), Nat.add_sub_cancel_left]
  · rw [readBits, Nat.testBit_mod_two_pow, Nat.testBit_shiftRight, testBit_readBytes _ _ (by omega),
      (stream_place pos k).1, (stream_place pos k).2]
    simp [hk]
  · have hlen : len ≠ 0 := by omega
    rw [(stream_place pos k).1, (stream_place pos k).2, writeBits, if_neg hlen, getLsbD_writeBytes _ _ _ (by omega),
      testBit_spliceBits _ _ _ hk]

end Sys2Proof.Scope
end

section
/-! PROOFS. An issue in which no guard is true (R82). -/

namespace Sys2Proof.Scope

open Sys2Proof Machine Laws

/-- An issue that passes its checks with no thread in P is done with what it was opened with, whatever its effect. -/
theorem attempt_empty {opts : Opts} {env : Env} (h : precheck opts env = none) (hp : env.p = 0) (body : Env → Res) :
    attempt opts env body = .done env := by
  obtain ⟨hgate, hpoison⟩ := precheck_none h
  simp only [attempt, hgate, hpoison, if_pos hp, Res.orPoison]

/-- Settles O5: the attempt leaves the opened issue as it is, in which no thread moves, exits, parks or leaves. -/
theorem guardFalseIssueHasNoEffect : Obligations.GuardFalseIssueHasNoEffect := by
  unfold Obligations.GuardFalseIssueHasNoEffect
  intro i opts s env body hopen hpass hspin hp hmask
  obtain ⟨-, hjoin, hdead, hout, -⟩ := opened_env hopen
  have hissue : issue i opts s body = .next (closeIssue opts env) := by
    simp only [issue, issueThen, hopen, attempt_empty hpass hp, settle, hspin, id, Bool.false_eq_true, if_false]
  rw [hissue]
  exact closes_of opts env hjoin hdead hout hmask

end Sys2Proof.Scope
end
section
/-! PROOFS. What leaves memory as it is: notes for the journal, counters, copies, messages, the driver's tables. -/

namespace Sys2Proof.MemoryForm

open Sys2Proof Machine Laws

/-! ### Folds -/

theorem foldl_mem {α : Type} {f : State → α → State} (hf : ∀ s a, (f s a).mem = s.mem) (l : List α) (s : State) :
    (l.foldl f s).mem = s.mem :=
  List.foldlRecOn (motive := fun t => t.mem = s.mem) l f rfl (fun t ht a _ => (hf t a).trans ht)

/-! ### Journal and driver -/

@[simp] theorem record_mem (s : State) (src loc : Word) : (s.record src loc).mem = s.mem := by
  unfold State.record
  split <;> rfl

@[simp] theorem recordKeys_mem (s : State) (typ : BitVec 8) (keys : List Nat) : (s.recordKeys typ keys).mem = s.mem :=
  foldl_mem (fun _ _ => record_mem _ _ _) keys s

@[simp] theorem noteTrap_mem (s : State) (t : TrapInfo) : (s.noteTrap t).mem = s.mem :=
  foldl_mem (fun _ _ => record_mem _ _ _) t.recs s

@[simp] theorem tellDriver_mem (s : State) (a : Access) : (s.tellDriver a).mem = s.mem := rfl

@[simp] theorem noteHit_mem (s : State) (a : Word) (h : Hit) : (s.noteHit a h).mem = s.mem := by
  unfold State.noteHit
  split
  · dsimp only
    split <;> simp
  · rfl

@[simp] theorem noteFails_mem (s : State) (hs : List Hit) : (s.noteFails hs).mem = s.mem :=
  foldl_mem (fun t h => by cases h <;> simp) hs s

@[simp] theorem noteLanded_mem (s : State) (keys : List Nat) : (s.noteLanded keys).mem = s.mem :=
  foldl_mem (fun _ _ => record_mem _ _ _) _ s

@[simp] theorem putRecord_mem (s : State) (src loc : Word) : (s.putRecord src loc).mem = s.mem := rfl

@[simp] theorem dropRecord_mem (s : State) : s.dropRecord.mem = s.mem := rfl

@[simp] theorem signSeal_mem (s : State) (k : Nat) : (s.signSeal k).mem = s.mem := by
  unfold State.signSeal
  split <;> rfl

@[simp] theorem sealStep_mem (s : State) : s.sealStep.mem = s.mem := by
  unfold State.sealStep
  split
  · rfl
  · split <;> simp

@[simp] theorem append_mem (s : State) (src loc : Word) : (s.append src loc).mem = s.mem := by
  unfold State.append
  split <;> simp

@[simp] theorem recordDrops_mem (s : State) : s.recordDrops.mem = s.mem := by
  unfold State.recordDrops
  split <;> simp

@[simp] theorem flushRecords_mem (s : State) : s.flushRecords.mem = s.mem := by
  unfold State.flushRecords
  rw [foldl_mem (fun _ _ => append_mem _ _ _)]
  split <;> simp

/-! ### Page counters and copies -/

@[simp] theorem countPage_mem (s : State) (c : Option Nat) (die va n : Nat) : (s.countPage c die va n).mem = s.mem := by
  unfold State.countPage
  split
  · rfl
  · split <;> rfl

@[simp] theorem countMiss_mem (s : State) (c core : Nat) (ps : List Piece) : (s.countMiss c core ps).mem = s.mem :=
  foldl_mem (fun t p => by split <;> simp) ps s

@[simp] theorem countLines_mem (s : State) (x : Context) (e : Seat) (write : Bool) (lo hi : Nat) :
    (countLines s x e write lo hi).mem = s.mem := by
  unfold countLines
  split <;> simp

@[simp] theorem countWindow_mem (s : State) (x : Context) (e : Seat) (w : Window) (write : Bool) :
    (countWindow s x e w write).mem = s.mem :=
  foldl_mem (fun _ _ => countLines_mem _ _ _ _ _ _) w.pageRuns s

@[simp] theorem refreshCopies_mem (s : State) (c core line : Nat) : (s.refreshCopies c core line).mem = s.mem := rfl

@[simp] theorem refreshNear_mem (s : State) (core line : Nat) : (s.refreshNear core line).mem = s.mem := rfl

@[simp] theorem fillCopy_mem (s : State) (room : Nat) (at_ : CopyAt) (line : Nat) : (s.fillCopy room at_ line).mem = s.mem := rfl

@[simp] theorem keepLines_mem (s : State) (x : Context) (core : Nat) (cached : Bool) (ps : List Piece) :
    (s.keepLines x core cached ps).mem = s.mem := rfl

@[simp] theorem countAhead_mem (s : State) (core line : Nat) : (s.countAhead core line).mem = s.mem := by
  unfold State.countAhead
  dsimp only
  split
  · rfl
  · split <;> simp

@[simp] theorem readAhead_mem (s : State) : s.readAhead.mem = s.mem := by
  unfold State.readAhead
  dsimp only
  split <;> simp

@[simp] theorem fetchWord_mem (s : State) (c core k : Nat) (p : Piece) : (fetchWord s c core k p).1.mem = s.mem := by
  unfold fetchWord
  dsimp only
  split
  · split <;> rfl
  · split
    · rfl
    · split
      · rfl
      · split <;> simp

/-! ### Messages and receives -/

@[simp] theorem returnSlots_mem (s : State) (die src n : Nat) : (s.returnSlots die src n).mem = s.mem := rfl

@[simp] theorem enqueue_mem (s : State) (h : Held) : (s.enqueue h).mem = s.mem := rfl

@[simp] theorem settleQueue_mem (s : State) (die rxid : Nat) : (s.settleQueue die rxid).mem = s.mem :=
  foldl_mem (fun t h => by split <;> simp) _ s

@[simp] theorem dropReceive_mem (s : State) (r : Receive) : (s.dropReceive r).mem = s.mem := by
  unfold State.dropReceive
  simp [foldl_mem (fun (t : State) (h : Held) => returnSlots_mem t h.die h.msg.srcPkg h.inSlots)]

@[simp] theorem dropReceives_mem (s : State) (p : Receive → Bool) : (s.dropReceives p).mem = s.mem :=
  foldl_mem dropReceive_mem _ s

@[simp] theorem take_mem (s : State) (r : Receive) (h : Held) : (s.take r h).mem = s.mem := rfl

@[simp] theorem search_mem (s : State) (die entry : Nat) (hs : List Held) : (s.search die entry hs).mem = s.mem := by
  refine foldl_mem (fun t h => ?_) hs s
  split
  · split <;> simp
  · rfl

@[simp] theorem grant_mem (s : State) (z : Sending) : (s.grant z).mem = s.mem := by
  unfold State.grant
  dsimp only
  split
  · rfl
  · split
    · rfl
    · split <;> rfl

@[simp] theorem meet_mem (s : State) (h : Held) : (s.meet h).mem = s.mem := by
  unfold State.meet
  split
  · rfl
  · split <;> rfl

@[simp] theorem finishReceive_mem (s : State) (r : Receive) (status landed : Nat) :
    (s.finishReceive r status landed).mem = s.mem := rfl

@[simp] theorem landfault_mem (s : State) (r : Receive) (hs : List Held) (addr : Int) :
    (s.landfault r hs addr).mem = s.mem := rfl

@[simp] theorem nextPiece_mem (s : State) (h : Held) : (s.nextPiece h).mem = s.mem := by
  unfold State.nextPiece
  split <;> rfl

@[simp] theorem dropHeld_mem (s : State) (rxid : Nat) (dies : List Nat) : (s.dropHeld rxid dies).mem = s.mem :=
  foldl_mem (fun _ _ => returnSlots_mem _ _ _ _) _ _

@[simp] theorem forgetMessages_mem (s : State) (x : Context) (stamp : Nat) : (s.forgetMessages x stamp).mem = s.mem := by
  unfold State.forgetMessages
  dsimp only
  rw [foldl_mem (fun _ _ => by split <;> rfl), foldl_mem (fun _ _ => returnSlots_mem _ _ _ _),
    foldl_mem (fun _ _ => returnSlots_mem _ _ _ _)]

@[simp] theorem forget_mem (s : State) (q : ContextSeed) : (s.forget q).mem = s.mem := by
  unfold State.forget
  split <;> simp

/-! ### Contexts, code and the driver's own tables -/

@[simp] theorem resumeContext_mem (s : State) (c : Nat) : (resumeContext s c).mem = s.mem := by
  unfold resumeContext
  split <;> rfl

@[simp] theorem create_mem (s : State) (p : CtxParams) : (s.create p).mem = s.mem := by
  unfold State.create
  split <;> rfl

@[simp] theorem blowFuses_mem (s : State) : s.blowFuses.mem = s.mem := by
  unfold State.blowFuses
  split <;> rfl

@[simp] theorem repost_mem (s : State) (q : Nat × List Byte) : (s.repost q).mem = s.mem := by
  unfold State.repost
  split
  · rfl
  · split <;> rfl

@[simp] theorem postAll_mem (s : State) : s.postAll.mem = s.mem := by
  have hposts := foldl_mem repost_mem s.reposts { s with reposts := [] }
  unfold State.postAll
  dsimp only
  split <;> simp [hposts]

@[simp] theorem onWarp_mem (s : State) (c u : Nat) {f : Context → Warp → State} (hf : ∀ x w, (f x w).mem = s.mem) :
    (s.onWarp c u f).mem = s.mem := by
  unfold State.onWarp
  split
  · rfl
  · split
    · rfl
    · exact hf _ _

@[simp] theorem spoil_mem (s : State) (site : ErrorSite) : (s.spoil site).mem = s.mem := by
  cases site with
  | granule k | l2 k | l1 core k | remoteWays die c k | none => rfl
  | vreg c w r t | sreg c w r => exact onWarp_mem s c w (fun x w => by split <;> rfl)
  | reg c w cls n => exact onWarp_mem s c w (fun x w => by extract_lets k; split <;> rfl)

@[simp] theorem takeSignal_mem (s : State) (c u : Nat) : (s.takeSignal c u).mem = s.mem := by
  unfold State.takeSignal
  split
  · rfl
  · split
    · rfl
    · split <;> rfl

@[simp] theorem passBarrier_mem (s : State) (c u : Nat) (this : Park → Bool) : (s.passBarrier c u this).mem = s.mem := by
  unfold State.passBarrier
  split
  · rfl
  · split
    · rfl
    · dsimp only
      split
      · split <;> rfl
      · split
        · split <;> rfl
        · rfl

/-! ### Results and failed accesses -/

@[simp] theorem spoiled_mem (s : State) (x : Context) (a : Access) (keys : List Nat) : (spoiled s x a keys).1.mem = s.mem := by
  unfold spoiled
  split
  · rfl
  · split
    · dsimp only; split <;> rfl
    · simp

@[simp] theorem acquired_mem (a : Access) (s : State) (x : Context) : (a.acquired s x).1.mem = s.mem := by
  unfold Access.acquired
  split <;> rfl

@[simp] theorem failAccess_mem (s : State) (x : Context) (a : Access) : (failAccess s x a).mem = s.mem := by
  unfold failAccess
  dsimp only
  split
  · simp
  · split <;> simp

@[simp] theorem failPort_mem (s : State) (k : Nat) : (s.failPort k).mem = s.mem := by
  refine foldl_mem (fun t x => foldl_mem (fun t a => ?_) _ t) s.ctxs s
  split
  · split <;> simp
  · rfl

@[simp] theorem noteResult_mem (s : State) (x : Context) (o : Owed) (used : Bool) : (noteResult s x o used).1.mem = s.mem := by
  unfold noteResult
  split
  · rfl
  · simp
  · split <;> simp

@[simp] theorem returnResult_mem (s : State) (x : Context) (o : Owed) : (returnResult s x o).mem = s.mem := by
  unfold returnResult
  extract_lets x' lost
  split
  · exact noteResult_mem s x' o false
  · extract_lets stale mark
    split
    · exact noteResult_mem s x' o false
    · split
      · exact noteResult_mem s x' o false
      · exact noteResult_mem s x' o true

@[simp] theorem noteOperand_mem (s : State) (x : Context) (o : EngOp) (d : BitVec 256) (w : Window) :
    (noteOperand s x o d w).mem = s.mem :=
  foldl_mem (fun _ _ => noteHit_mem _ _ _) _ s

/-! ### The end of an issue -/

@[simp] theorem commit_mem (env : Env) : env.commit.mem = env.dev.mem := rfl

@[simp] theorem deliver_mem (env : Env) (t : TrapInfo) : (deliver env t).mem = env.dev.mem := by
  unfold deliver
  dsimp only
  split <;> simp

@[simp] theorem takeTrap_mem (env : Env) (t : TrapInfo) : (takeTrap env t).mem = env.dev.mem := deliver_mem _ t

@[simp] theorem fenceTrap_mem (s : State) (x : Context) (w : Warp) (pc : PC) (act : Mask) (c : Cause) (v : Word) :
    (s.fenceTrap x w pc act c v).mem = s.mem := by
  unfold State.fenceTrap
  dsimp only
  split
  · rfl
  · exact deliver_mem _ _

end Sys2Proof.MemoryForm
end
section
/-! PROOFS. What writes memory keeps its canonical form: page entries, accesses at their home, engines and cards, blocks. -/

namespace Sys2Proof.MemoryForm

open Sys2Proof Machine Laws

/-! ### Folds -/

theorem wf_foldl {α : Type} {f : State → α → State} (hf : ∀ s a, s.mem.wf = true → (f s a).mem.wf = true) (l : List α)
    {s : State} (h : s.mem.wf = true) : (l.foldl f s).mem.wf = true :=
  List.foldlRecOn (motive := fun t => t.mem.wf = true) l f h (fun t ht a _ => hf t a ht)

theorem wf_foldl_memory {α : Type} {f : Memory → α → Memory} (hf : ∀ m a, m.wf = true → (f m a).wf = true) (l : List α)
    {m : Memory} (h : m.wf = true) : (l.foldl f m).wf = true :=
  List.foldlRecOn (motive := fun t => Memory.wf t = true) l f h (fun t ht a _ => hf t a ht)

/-! ### Page entries -/

theorem wf_touchLeaf {s : State} (x : Context) (unit va : Nat) (write : Bool) (h : s.mem.wf = true) :
    (touchLeaf s x unit va write).mem.wf = true := by
  unfold touchLeaf
  split
  · dsimp only
    split
    · exact h
    · exact wf_writeBytes _ _ _ h
  · exact h

theorem wf_touchWindow {s : State} (x : Context) (e : Seat) (w : Window) (write : Bool) (h : s.mem.wf = true) :
    (touchWindow s x e w write).mem.wf = true :=
  wf_foldl (fun _ _ ht => by rw [countLines_mem]; exact wf_touchLeaf _ _ _ _ ht) w.pageRuns h

theorem wf_engTouch {s : State} (x : Context) (e : Seat) (space : Nat) (write : Bool) (pos : Int) (len : Nat)
    (h : s.mem.wf = true) : (engTouch s x e space write pos len).mem.wf = true := by
  unfold engTouch
  split
  · exact h
  · exact wf_foldl (fun _ _ ht => wf_touchLeaf _ _ _ _ ht) _ h

theorem wf_unitTouch {s : State} (x : Context) (a n : Nat) (h : s.mem.wf = true) : (unitTouch s x a n).mem.wf = true := by
  unfold unitTouch
  extract_lets last t
  rw [foldl_mem (fun _ _ => noteHit_mem _ _ _)]
  exact wf_foldl (fun _ _ ht => by rw [countLines_mem]; exact wf_touchLeaf _ _ _ _ ht) _ h

theorem wf_fetch {s : State} (x : Context) (w : Warp) (e : Entry) (h : s.mem.wf = true) : (fetch s x w e).1.mem.wf = true := by
  unfold fetch
  extract_lets va unit
  split
  case h_5 =>
    split
    · exact h
    · rw [fetchWord_mem]
      exact wf_touchLeaf _ _ _ _ h
  all_goals exact h

theorem wf_testWord {s : State} (x : Context) (w : Warp) (va : Nat) (h : s.mem.wf = true) : (s.testWord x w va).mem.wf = true := by
  unfold State.testWord
  split
  · exact h
  · rw [keepLines_mem, countMiss_mem]
    exact wf_touchLeaf _ _ _ _ h

theorem wf_sawWord {s : State} (x : Context) (w : Warp) (va : Nat) (h : s.mem.wf = true) : (s.sawWord x w va).mem.wf = true :=
  wf_testWord x w va (by rw [recordKeys_mem]; exact h)

theorem wf_testPark {s : State} (x : Context) (w : Warp) (k : Park) (h : s.mem.wf = true) : (s.testPark x w k).mem.wf = true := by
  unfold State.testPark
  split
  · exact wf_testWord x w _ h
  · exact h

/-! ### Accesses at their home -/

theorem wf_putPiece {s : State} (p : Piece) (data : Nat) (h : s.mem.wf = true) : (s.putPiece p data).mem.wf = true :=
  wf_writeBits _ _ _ h

theorem wf_putData {s : State} (core : Nat) (ps : List Piece) (data : Nat) (h : s.mem.wf = true) :
    (s.putData core ps data).mem.wf = true := by
  unfold State.putData
  exact wf_foldl (fun t p (ht : t.mem.wf = true) => by exact wf_putPiece p data ht) ps h

theorem wf_engPut {s : State} (die : Nat) (ps : List Piece) (v : Nat) (h : s.mem.wf = true) : (engPut s die ps v).mem.wf = true := by
  unfold engPut
  exact wf_foldl (fun t p (ht : t.mem.wf = true) => by exact wf_putPiece p v ht) ps h

theorem wf_performAtomic {s : State} (x : Context) (a : Access) (write : Option Nat) (old : Word) (ret : Option Dest)
    (h : s.mem.wf = true) : (performAtomic s x a write old ret).mem.wf = true := by
  unfold performAtomic
  extract_lets keys s1 q s2 bad
  have hq : q.1.mem.wf = true := by rw [spoiled_mem, countMiss_mem]; exact h
  have hwritten : s2.mem.wf = true := by
    cases write with
    | none => exact (foldl_mem (fun _ _ => refreshCopies_mem _ _ _ _) _ q.1).symm ▸ hq
    | some v =>
      dsimp only [s2]
      split
      · exact wf_putData _ _ _ hq
      · exact hq
  split <;> exact hwritten

theorem wf_performAccess {s : State} (x : Context) (a : Access) (fromCopy : Bool) (h : s.mem.wf = true) :
    (performAccess s x a fromCopy).mem.wf = true := by
  unfold performAccess
  extract_lets group x1 x2 take p0 data keys bad home s1 q src old
  split
  case h_1 =>
    have hspoiled : q.1.mem.wf = true := by
      rw [spoiled_mem, keepLines_mem, countMiss_mem]
      exact h
    rw [setCtx_mem, acquired_mem]
    exact hspoiled
  case h_2 =>
    split
    · exact wf_engPut _ _ _ h
    · exact wf_foldl (fun t b ht => wf_putData _ _ _ (by rw [countMiss_mem]; exact ht)) _ h
  case h_3 => exact wf_putData _ _ _ h
  case h_4 => exact wf_performAtomic _ _ _ _ _ h
  case h_5 => exact wf_performAtomic _ _ _ _ _ h
  case h_6 => exact wf_performAtomic _ _ _ _ _ h
  case h_7 =>
    extract_lets far s1
    show s1.mem.wf = true
    dsimp only [s1]
    clear_value far
    split
    · split
      · rw [record_mem]; exact h
      · exact h
    · exact h

theorem wf_goAccess {s : State} (c id : Nat) (fromCopy : Bool) (h : s.mem.wf = true) : (goAccess s c id fromCopy).mem.wf = true := by
  unfold goAccess
  split
  · exact h
  · split
    · exact h
    · split
      · exact wf_performAccess _ _ _ h
      · split
        · rw [failAccess_mem]; exact h
        · exact h

theorem wf_goFrom (c : Nat) (p : Access → Bool) (n last : Nat) {s : State} (h : s.mem.wf = true) :
    (goFrom c p n last s).mem.wf = true := by
  induction n generalizing last s with
  | zero => exact h
  | succ n ih =>
    unfold goFrom
    split
    · exact h
    · exact ih _ (wf_goAccess _ _ _ h)

theorem wf_goAccesses {s : State} (c : Nat) (p : Access → Bool) (h : s.mem.wf = true) : (goAccesses s c p).mem.wf = true := by
  unfold goAccesses
  split
  · exact h
  · exact wf_goFrom _ _ _ _ h

theorem wf_drainGone {s : State} (x : Context) (h : s.mem.wf = true) : (drainGone s x).mem.wf = true :=
  wf_foldl (fun _ _ ht => wf_goAccess _ _ _ ht) _ h

theorem wf_settleWarps {s : State} (c : Nat) (h : s.mem.wf = true) : (settleWarps s c).mem.wf = true := by
  unfold settleWarps
  split
  · exact h
  · rename_i x hx
    extract_lets s1
    have hdone : s1.mem.wf = true := wf_foldl (fun _ _ ht => wf_goAccess _ _ _ ht) _ h
    split
    · exact hdone
    · refine wf_foldl (fun t id ht => ?_) _ hdone
      split
      · exact ht
      · split
        · rw [returnResult_mem]; exact ht
        · exact ht

/-! ### Engines -/

theorem wf_engWriteFrom (x : Context) (e : Seat) (space place : Nat) (puts : List Put) {s : State} (done : List Piece)
    (h : s.mem.wf = true) : (engWriteFrom s x e space place puts done).1.mem.wf = true := by
  induction puts generalizing s done with
  | nil => exact h
  | cons p r ih =>
    unfold engWriteFrom
    dsimp only
    split
    · exact ih _ (wf_engPut _ _ _ h)
    · exact h

theorem wf_engWriteAll {s : State} (x : Context) (e : Seat) (space place : Nat) (puts : List Put) (h : s.mem.wf = true) :
    (engWriteAll s x e space place puts).1.mem.wf = true :=
  wf_engWriteFrom x e space place puts [] h

theorem wf_engStore {s : State} (x : Context) (e : Seat) (a n v : Nat) (h : s.mem.wf = true) : (engStore s x e a n v).mem.wf = true := by
  unfold engStore
  extract_lets z
  split
  · rw [countLines_mem]
    exact wf_touchLeaf _ _ _ _ (wf_engWriteAll x e 0 0 _ h)
  · show (s.noteHit _ _).mem.wf = true
    rw [noteHit_mem]
    exact h

theorem wf_engWords (x : Context) (e : Seat) (a : Nat) (ws : List Nat) {s : State} (h : s.mem.wf = true) :
    (engWords s x e a ws).mem.wf = true := by
  induction ws generalizing s a with
  | nil => exact h
  | cons w r ih => exact ih _ (wf_engStore _ _ _ _ _ h)

theorem wf_putItems (x : Context) (q die stage depth n : Nat) (items : List (Word × Word)) {s : State} (h : s.mem.wf = true) :
    (s.putItems x q die stage depth n items).mem.wf = true := by
  induction items generalizing s n with
  | nil => exact h
  | cons i r ih => exact ih _ (wf_writeBytes _ _ _ h)

/-! ### Cards -/

theorem wf_markChunk {s : State} (x : Context) (k : Card) (n : Nat) (bit : Bool) (h : s.mem.wf = true) :
    (k.markChunk s x n bit).mem.wf = true := by
  unfold Card.markChunk
  split
  · exact h
  · exact wf_engStore _ _ _ _ _ h

theorem wf_endChunk {s : State} (x : Context) (k : Card) (n : Nat) (h : s.mem.wf = true) : (k.endChunk s x n).1.mem.wf = true := by
  unfold Card.endChunk
  split
  · exact h
  · exact wf_markChunk _ _ _ _ h

theorem wf_place {s : State} (k : Card) (x : Context) (n : Channel) (aux0 aux1 : Word) (h : s.mem.wf = true) :
    (k.place s x n aux0 aux1).1.mem.wf = true := by
  unfold Card.place
  extract_lets s1 s2 s3
  have hwords : s1.mem.wf = true := wf_engWords _ _ _ _ h
  have hlinked : s2.mem.wf = true := by
    dsimp only [s2]
    split
    · exact wf_engStore _ _ _ _ _ hwords
    · exact hwords
  show s3.mem.wf = true
  dsimp only [s3]
  split
  · exact hlinked
  · exact wf_foldl (fun _ _ ht => wf_markChunk _ _ _ _ ht) _ hlinked

theorem wf_begin {s : State} (x : Context) (k : Card) (j : Nat) (h : s.mem.wf = true) : (k.begin s x j).mem.wf = true := by
  unfold Card.begin
  split
  · exact h
  · extract_lets z
    split
    · exact h
    · rw [setCtx_mem, noteHit_mem, countWindow_mem]
      exact wf_touchWindow _ _ _ _ h

theorem wf_touchSource {s : State} (x : Context) (k : Card) (i : CardItem) (h : s.mem.wf = true) :
    (k.touchSource s x i).mem.wf = true :=
  wf_foldl (fun _ _ ht => wf_engTouch _ _ _ _ _ _ ht) _ h

theorem wf_touchDest {s : State} (x : Context) (k : Card) (i : CardItem) (h : s.mem.wf = true) :
    (k.touchDest s x i).mem.wf = true := by
  unfold Card.touchDest
  extract_lets sp s1
  refine wf_engTouch _ _ _ _ _ _ ?_
  dsimp only [s1]
  split
  · split
    · exact wf_engTouch _ _ _ _ _ _ h
    · exact h
  · exact h

theorem wf_runFrom (x : Context) (items : List CardItem) {z : CardRun} (h : z.dev.mem.wf = true) :
    (Card.runFrom x items z).dev.mem.wf = true := by
  induction items generalizing z with
  | nil => exact h
  | cons i r ih =>
    have hsource := wf_touchSource x z.card i h
    unfold Card.runFrom
    extract_lets z1 q c b w
    split
    · split
      · split
        · exact ih (wf_engPut _ _ _ (wf_touchDest _ _ _ hsource))
        · exact hsource
      · exact hsource
    · exact hsource

theorem wf_publish {s t : State} (x : Context) (k : Card) (ps : List Piece) (h : t.mem.wf = true) :
    (k.publish s t x ps).1.mem.wf = true := by
  unfold Card.publish
  split
  · exact h
  · exact wf_foldl_memory (fun _ _ hm => wf_writeBits _ _ _ hm) ps h

theorem wf_run {s : State} (x : Context) (k : Card) (p : CardItem → Bool) (h : s.mem.wf = true) : (k.run s x p).dev.mem.wf = true := by
  unfold Card.run
  extract_lets z q
  show (q.1.noteHit _ _).mem.wf = true
  rw [noteHit_mem]
  exact wf_publish _ _ _ (wf_runFrom x _ h)

theorem wf_runRange {s : State} (x : Context) (k : Card) (first last : Nat) (h : s.mem.wf = true) :
    (k.runRange s x first last).dev.mem.wf = true := wf_run _ _ _ h

theorem wf_finish {s : State} (x : Context) (k : Card) (status : Nat) (h : s.mem.wf = true) : (k.finish s x status).mem.wf = true := by
  unfold Card.finish
  extract_lets lost whole ns s1 s2 s3 x1
  have hbits : s1.mem.wf = true := wf_foldl (fun _ _ ht => wf_endChunk _ _ _ ht) _ h
  have hown : s3.mem.wf = true := wf_engStore _ _ _ _ _ (wf_engStore _ _ _ _ _ hbits)
  split
  · exact hown
  · exact wf_engStore _ _ _ _ _ hown

theorem wf_multiply {s : State} (x : Context) (o : EngOp) (t : Tile) (h : s.mem.wf = true) : (o.multiply s x t).mem.wf = true := by
  unfold EngOp.multiply
  extract_lets wa wb ra rb
  split
  · exact h
  · refine wf_touchWindow _ _ _ _ (wf_touchWindow _ _ _ _ ?_)
    rw [noteOperand_mem, noteOperand_mem]
    exact h

/-! ### Blocks and warps that end or begin -/

theorem wf_drainScratch {s : State} (c : Nat) (b : Block) (h : s.mem.wf = true) : (drainScratch s c b).mem.wf = true := by
  unfold drainScratch
  split
  · exact h
  · refine wf_foldl (fun t a ht => ?_) _ h
    split
    · exact wf_performAccess _ _ _ ht
    · exact ht

theorem wf_endBlock {s : State} (c : Nat) (b : Block) (h : s.mem.wf = true) : (endBlock s c b).mem.wf = true := by
  unfold endBlock
  extract_lets s1 s2 s3
  have hdone : s1.mem.wf = true := wf_goAccesses _ _ h
  have hdrained : s3.mem.wf = true := by
    rw [dropReceives_mem]
    dsimp only [s2]
    split
    · exact hdone
    · exact wf_drainScratch _ _ hdone
  split
  · exact hdrained
  · exact wf_zeroBytes _ _ hdrained

theorem wf_endWarp {s : State} (c u : Nat) (h : s.mem.wf = true) : (endWarp s c u).mem.wf = true := by
  unfold endWarp
  split
  · exact h
  · split
    · exact h
    · extract_lets x1 x2 s1
      split
      · exact h
      · split
        · exact wf_endBlock _ _ h
        · exact h

theorem wf_reap {s : State} (h : s.mem.wf = true) : s.reap.mem.wf = true := by
  unfold State.reap
  split
  · exact h
  · split
    · exact h
    · split
      · exact wf_endWarp _ _ h
      · exact h

theorem wf_startBlock {s : State} (c : Nat) (l : Launch) (z : Start) (h : s.mem.wf = true) : (startBlock s c l z).mem.wf = true := by
  unfold startBlock
  split
  · exact h
  · exact wf_zeroBytes _ _ h

theorem wf_stopUnits {s : State} (c q : Nat) (h : s.mem.wf = true) : (stopUnits s c q).mem.wf = true := by
  unfold stopUnits
  extract_lets s1
  have hdone : s1.mem.wf = true := wf_goAccesses _ _ h
  split
  · exact hdone
  · refine wf_foldl (fun t k ht => ?_) _ hdone
    split
    · split
      · split
        · exact ht
        · exact wf_finish _ _ _ ht
      · exact ht
    · exact ht

theorem wf_stopLaunch {s : State} (c q : Nat) (h : s.mem.wf = true) : (stopLaunch s c q).mem.wf = true := by
  unfold stopLaunch
  extract_lets s1 s2
  have hstopped : s1.mem.wf = true := wf_stopUnits _ _ h
  have hdropped : s2.mem.wf = true := by rw [dropReceives_mem]; exact hstopped
  split
  · exact hstopped
  · extract_lets mine
    split
    · exact hstopped
    · split
      · exact hdropped
      · exact wf_foldl (fun _ _ ht => wf_endWarp _ _ ht) _ hdropped

/-! ### Bytes that the driver, the host and firmware move -/

theorem wf_putBytes {m : Memory} (a : Nat) (bs : List Byte) (h : m.wf = true) : (putBytes m a bs).wf = true :=
  wf_foldl_memory (fun _ _ hm => wf_putByte _ _ hm) _ h

theorem wf_copyTable {s : State} (h : s.mem.wf = true) : s.copyTable.mem.wf = true := by
  dsimp only [State.copyTable]
  exact wf_putBytes _ _ h

/-- Bytes that are moved stand at their new keys, and those that they replace are gone. -/
theorem wf_movedBytes {m : Memory} (p q : Nat × Byte → Bool) (k : Nat × Byte → Nat) (h : m.wf = true) :
    ((m.filter p).foldl (fun (m : Memory) (c : Nat × Byte) => putByte m (k c) c.2) (m.filter q)).wf = true :=
  wf_foldl_memory (fun _ _ hm => wf_putByte _ _ hm) _ (wf_filter q h)

theorem wf_moveBytes {s : State} (c a b n : Nat) (h : s.mem.wf = true) : (moveBytes s c a b n).mem.wf = true := by
  unfold moveBytes
  extract_lets inside s1
  have hmoved : s1.mem.wf = true := wf_movedBytes _ _ (fun q => q.1 - a + b) h
  split <;> exact hmoved

theorem wf_copyBytes {s : State} (a b n : Nat) (h : s.mem.wf = true) : (copyBytes s a b n).mem.wf = true :=
  wf_movedBytes _ _ (fun q => q.1 - a + b) h

theorem wf_writePtes {s : State} (ptes : List (Nat × Word)) (h : s.mem.wf = true) : (s.writePtes ptes).mem.wf = true :=
  wf_foldl_memory (fun _ _ hm => wf_writeBytes _ _ _ hm) ptes h

theorem wf_swapOut {s : State} (c : Nat) (b : Block) (u : Nat) (h : s.mem.wf = true) : (swapOut s c b u).mem.wf = true := by
  unfold swapOut
  extract_lets s1
  have hdone : s1.mem.wf = true := wf_foldl (fun _ _ ht => wf_goAccesses _ _ ht) _ h
  split
  · exact hdone
  · split
    · exact hdone
    · exact wf_moveBytes _ _ _ _ hdone

theorem wf_hostWrite {s : State} (c : Nat) (w : HostWrite) (h : s.mem.wf = true) : (s.hostWrite c w).mem.wf = true := by
  unfold State.hostWrite
  split
  · split
    · exact wf_putByte _ _ h
    · exact h
  · split
    · exact wf_copyTable h
    · exact h
  · split
    · exact h
    · split <;> exact h
  · split
    · exact h
    · split <;> exact h

theorem wf_hostWrites {s : State} (c : Nat) (ws : List HostWrite) (h : s.mem.wf = true) : (s.hostWrites c ws).mem.wf = true :=
  wf_foldl (fun _ w ht => wf_hostWrite c w ht) ws h

theorem wf_takeOver {s : State} (r : RecoveryPlan) (h : s.mem.wf = true) : (s.takeOver r).mem.wf = true := by
  unfold State.takeOver
  extract_lets s1 s2 s3
  have hnumber : s1.mem.wf = true := by
    dsimp only [s1]
    split
    · split <;> exact h
    · exact h
  have hcontexts : s2.mem.wf = true := wf_foldl (fun _ _ ht => by rw [create_mem]; exact ht) _ hnumber
  have hgroups : s3.mem.wf = true := wf_foldl (fun _ _ ht => wf_hostWrite _ _ ht) _ hcontexts
  split
  · exact hgroups
  · exact wf_writePtes _ hgroups

theorem wf_restore {s : State} (r : RecoveryPlan) (h : s.mem.wf = true) : (s.restore r).mem.wf = true :=
  wf_foldl_memory (fun _ _ hm => wf_putByte _ _ hm) _ h

/-- A reset begins with empty memory, to which the capability table is copied. -/
theorem wf_restart (s : State) : s.restart.mem.wf = true := wf_copyTable (s := { s.kept with loader := _ }) rfl

theorem wf_bringTable {s : State} (h : s.mem.wf = true) : s.bringTable.mem.wf = true := by
  unfold State.bringTable
  split
  · exact h
  · exact wf_copyTable h

theorem wf_tick {s : State} (h : s.mem.wf = true) : s.tick.mem.wf = true := by
  show s.bringTable.readAhead.blowFuses.flushRecords.mem.wf = true
  rw [flushRecords_mem, blowFuses_mem, readAhead_mem]
  exact wf_bringTable h

/-! ### Messages that land -/

theorem wf_readPiece {s t : State} {x : Context} {z : Sending} {m m' : Msg} (hr : s.readPiece x z m = some (t, m'))
    (h : s.mem.wf = true) : t.mem.wf = true := by
  unfold State.readPiece at hr
  extract_lets w e n mine reads keys ps fails val all m1 t1 at hr
  split at hr
  · exact absurd hr (by simp)
  · have hread : t1.mem.wf = true :=
      wf_foldl (fun _ _ ht => wf_engTouch _ _ _ _ _ _ ht) _ (by rw [recordKeys_mem, noteFails_mem]; exact h)
    obtain ⟨rfl, -⟩ := Prod.mk.inj (Option.some.inj hr)
    exact hread

theorem wf_landWindow {s : State} (x : Context) (e : Seat) (w : Window) (codes : List Nat) (heads : List Word)
    (h : s.mem.wf = true) : (landWindow s x e w codes heads).1.mem.wf = true := by
  unfold landWindow
  extract_lets all
  split
  · exact wf_engWriteAll _ _ _ _ _ (wf_touchWindow _ _ _ _ h)
  · exact h

theorem wf_landRed {s : State} (x : Context) (r : Receive) (op n : Nat) (h : s.mem.wf = true) : (landRed s x r op n).mem.wf = true := by
  unfold landRed
  extract_lets w f cells fits part headsOf leaf elem res invalid status s1 z
  have hnoted : s1.mem.wf = true := by rw [foldl_mem (fun _ _ => record_mem _ _ _)]; exact h
  split
  · exact hnoted
  · split
    · exact hnoted
    · show (s1.noteFails _).mem.wf = true
      rw [noteFails_mem]
      exact hnoted
    · exact wf_landWindow _ _ _ _ _ hnoted

theorem wf_settleRed {s : State} (x : Context) (r : Receive) (h : s.mem.wf = true) : (s.settleRed x r).mem.wf = true := by
  unfold State.settleRed
  split
  · exact h
  · extract_lets mine t1 t2 t3
    have hreturned : t2.mem.wf = true := by rw [foldl_mem (fun _ _ => returnSlots_mem _ _ _ _)]; exact h
    split
    · rw [settleQueue_mem]
      exact wf_landRed _ _ _ _ hreturned
    · exact h

theorem wf_landOne {s : State} (x : Context) (r : Receive) (m : Held) (h : s.mem.wf = true) : (landOne s x r m).mem.wf = true := by
  unfold landOne
  extract_lets w msg gone n z
  split
  · exact h
  · have hlanded : z.1.mem.wf = true := wf_landWindow _ _ _ _ _ h
    split
    · exact h
    · rw [landfault_mem, noteFails_mem]
      exact h
    · rw [finishReceive_mem]
      split
      · exact hlanded
      · rw [noteLanded_mem]
        exact hlanded

theorem wf_deliverActive {s t : State} {die : Nat} {a : ActiveMsg} (hd : s.deliverActive die a = some t) (h : s.mem.wf = true) :
    t.mem.wf = true := by
  unfold State.deliverActive at hd
  extract_lets ctx gone at hd
  clear_value ctx
  split at hd
  · obtain rfl := Option.some.inj hd
    exact h
  · split at hd
    · split at hd
      · obtain rfl := Option.some.inj hd
        exact h
      · exact absurd hd (by simp)
    · split at hd
      · exact absurd hd (by simp)
      · split at hd
        · exact absurd hd (by simp)
        · obtain rfl := Option.some.inj hd
          exact wf_startBlock _ _ _ h

theorem wf_retryActive {s : State} (m : HeldActive) (h : s.mem.wf = true) : (s.retryActive m).mem.wf = true := by
  unfold State.retryActive
  split
  · exact h
  · split
    · exact h
    · rename_i t hd
      have hdelivered : t.mem.wf = true := wf_deliverActive hd h
      exact hdelivered

theorem wf_arriveActive {s : State} (die : Nat) (a : ActiveMsg) (h : s.mem.wf = true) : (s.arriveActive die a).mem.wf = true := by
  unfold State.arriveActive
  extract_lets behind
  split
  · rename_i t hd
    split at hd
    · exact absurd hd (by simp)
    · exact wf_deliverActive hd h
  · exact h

/-! ### Records of a launch -/

theorem wf_refuse {s : State} (x : Context) (b : Submitted) (cpl : Option Nat) (c : Cause) (h : s.mem.wf = true) :
    (refuse s x b cpl c).mem.wf = true := by
  unfold refuse
  extract_lets x1 s1
  split
  · exact wf_engStore _ _ _ _ _ h
  · split <;> exact h

theorem wf_touchRecord {s : State} (x : Context) (b : Submitted) (raw : Nat) (hit : Hit) (h : s.mem.wf = true) :
    (touchRecord s x b raw hit).mem.wf = true := by
  unfold touchRecord
  extract_lets r named t t1 hs t2
  have hrecord : t.mem.wf = true := by
    dsimp only [t]
    split
    · exact h
    · exact wf_unitTouch _ _ _ h
  split
  · exact hrecord
  · have hslots : t1.mem.wf = true := by
      dsimp only [t1]
      split
      · exact hrecord
      · exact wf_unitTouch _ _ _ hrecord
    have hhandlers : t2.mem.wf = true := by
      dsimp only [t2]
      split
      · exact hslots
      · exact wf_unitTouch _ _ _ hslots
    split
    · refine wf_foldl (fun u o hu => ?_) _ hhandlers
      split
      · exact wf_unitTouch _ _ _ hu
      · exact hu
    · exact hhandlers

end Sys2Proof.MemoryForm
end
section
/-! PROOFS. One issue keeps the canonical form of memory when its effect does: what the checks answer, what effects are built from, and
how an issue ends. -/

namespace Sys2Proof.MemoryForm

open Sys2Proof Machine Laws

/-! ### How an attempt and an instruction end -/

/-- The effect of an attempt, where it has one, leaves memory in its canonical form. -/
def ResWf : Res → Prop
  | .done env => env.dev.mem.wf = true
  | .trap _ => True
  | .hold _ => True

/-- The next state, where there is one, has memory of canonical form. -/
def NextWf : Host.Outcome State Fault Refusal → Prop
  | .next t => t.mem.wf = true
  | .fault _ => True
  | .refused _ => True

/-- A check answers with a trap or a hold, and never with an effect. -/
def NoEffect (o : Option Res) : Prop := ∀ env, o ≠ some (.done env)

theorem resWf_of_noEffect {o : Option Res} {r : Res} (ho : NoEffect o) (hr : o = some r) : ResWf r := by
  cases r with
  | done env => exact absurd hr (ho env)
  | trap t => trivial
  | hold k => trivial

theorem noEffect_none : NoEffect none := fun _ => by simp

theorem noEffect_trap (t : TrapInfo) : NoEffect (some (.trap t)) := fun _ => by simp

theorem noEffect_hold (k : Park) : NoEffect (some (.hold k)) := fun _ => by simp

/-- The first of two checks that answers. -/
theorem noEffect_check {o p : Option Res} :
    NoEffect o → NoEffect p → NoEffect (match o with | some r => some r | none => p) := by
  intro ho hp
  cases o with
  | none => exact hp
  | some r => exact ho

theorem noEffect_or {o p : Option Res} (ho : NoEffect o) (hp : NoEffect p) : NoEffect (o.or p) := by
  cases o with
  | none => exact hp
  | some r => exact ho

/-! ### The checks -/

theorem trapLanes_noEffect (env : Env) (c : Cause) (bad : Nat → Bool) (v : Nat → Word) : NoEffect (env.trapLanes c bad v) := by
  unfold Env.trapLanes
  dsimp only
  split
  · exact noEffect_none
  · exact noEffect_trap _

theorem checkTarget_noEffect (env : Env) (a : BitVec 8) : NoEffect (env.checkTarget a) := trapLanes_noEffect _ _ _ _

theorem checkRange_noEffect (env : Env) (pl : Plan) : NoEffect (env.checkRange pl) := by
  unfold Env.checkRange
  dsimp only
  split
  · exact trapLanes_noEffect _ _ _ _
  · exact trapLanes_noEffect _ _ _ _
  · exact trapLanes_noEffect _ _ _ _
  · split
    · exact trapLanes_noEffect _ _ _ _
    · split <;> exact trapLanes_noEffect _ _ _ _

theorem checkShape_noEffect (env : Env) (pl : Plan) : NoEffect (env.checkShape pl) :=
  noEffect_check (checkRange_noEffect env pl) (trapLanes_noEffect _ _ _ _)

theorem checkGrow_noEffect (env : Env) (pl : Plan) : NoEffect (env.checkGrow pl) := by
  unfold Env.checkGrow
  dsimp only
  split
  · exact noEffect_none
  · split
    · exact noEffect_none
    · split
      · exact trapLanes_noEffect _ _ _ _
      · exact noEffect_hold _

theorem checkPages_noEffect (env : Env) (chk : Nat → PageCheck) (vas : Nat → List Nat) (priv : Bool) :
    NoEffect (env.checkPages chk vas priv) := by
  unfold Env.checkPages
  extract_lets cause gone open_ m
  split
  · exact noEffect_hold _
  · refine noEffect_check (trapLanes_noEffect _ _ _ _) ?_
    clear_value open_
    split
    · exact noEffect_hold _
    · refine noEffect_check (trapLanes_noEffect _ _ _ _) (noEffect_check (trapLanes_noEffect _ _ _ _)
        (noEffect_check (trapLanes_noEffect _ _ _ _) ?_))
      split
      · split
        · exact noEffect_none
        · exact noEffect_trap _
      · exact noEffect_none

theorem checkPlan_noEffect (env : Env) (pl : Plan) : NoEffect (env.checkPlan pl) := by
  unfold Env.checkPlan
  refine noEffect_check (checkShape_noEffect env pl) (noEffect_check (checkGrow_noEffect env pl) ?_)
  split
  · exact noEffect_none
  · exact noEffect_none
  · exact checkPages_noEffect _ _ _ _

theorem readNow_noEffect (env : Env) (pl : Plan) : NoEffect (env.readNow pl) := by
  unfold Env.readNow
  extract_lets ps far addr fails
  have hfails (c : Cause) (bad : Nat → Bool) : NoEffect (fails c bad) := by
    dsimp only [fails]
    split
    · exact noEffect_none
    · exact noEffect_trap _
  split
  · exact noEffect_hold _
  · exact noEffect_check (hfails _ _) (hfails _ _)

theorem farTrap_noEffect (env : Env) (r : RRR) (far : Warp) : NoEffect (env.farTrap r far) := by
  unfold Env.farTrap
  extract_lets mark trap
  have htrap (c : Cause) (bad : Mark → Bool) : NoEffect (trap c bad) := by
    dsimp only [trap]
    split
    · exact noEffect_none
    · exact noEffect_trap _
  exact noEffect_or (htrap _ _) (htrap _ _)

theorem checkDp_noEffect (env : Env) (r : MF) : NoEffect (env.checkDp r) := by
  unfold Env.checkDp
  split
  · exact noEffect_trap _
  · exact noEffect_none

theorem checkAddrs_noEffect (env : Env) (as : List (Word × Nat)) : NoEffect (env.checkAddrs as) := by
  unfold Env.checkAddrs
  split
  · exact noEffect_trap _
  · cases as.find? (fun a => a.1.toNat % a.2 ≠ 0) with
    | none => exact noEffect_none
    | some a => exact noEffect_trap _

theorem checkDesc_noEffect (env : Env) (d : BitVec 256) (steps : List Int) : NoEffect (env.checkDesc d steps) := by
  unfold Env.checkDesc
  dsimp only
  split
  · exact noEffect_trap _
  · split
    · exact noEffect_trap _
    · split
      · exact noEffect_trap _
      · exact noEffect_none

/-- Of a list of tests, each of which traps where it holds, a step down the list. -/
theorem noEffect_ite_trap {c : Prop} {_ : Decidable c} {t : TrapInfo} {o : Option Res} (ho : NoEffect o) :
    NoEffect (if c then some (.trap t) else o) := by
  split
  · exact noEffect_trap _
  · exact ho

theorem checkPost_noEffect (env : Env) (p : Post) : NoEffect (env.checkPost p) := by
  unfold Env.checkPost
  extract_lets ws wd n ends empty out ctl
  iterate 13 refine noEffect_ite_trap ?_
  exact noEffect_none

theorem fopCheck_noEffect (env : Env) (n : Nat) : NoEffect (env.fopCheck n) := by
  unfold Env.fopCheck
  split
  · exact noEffect_none
  · extract_lets r t
    split
    · exact noEffect_none
    · exact noEffect_hold _
    · exact noEffect_trap _

theorem t5Check_noEffect (env : Env) (r : RRR) (named : List Opnd) : NoEffect (env.t5Check r named) := by
  unfold Env.t5Check
  dsimp only
  split
  · exact noEffect_trap _
  · split
    · exact noEffect_trap _
    · split
      · exact noEffect_hold _
      · exact noEffect_none

end Sys2Proof.MemoryForm
end
section
/-! PROOFS. The effects of instructions, and the issue that has them. -/

namespace Sys2Proof.MemoryForm

open Sys2Proof Machine Laws

/-! ### What an issue does to the package without a write -/

theorem foldl_dev_mem {α : Type} {f : Env → α → Env} (hf : ∀ e a, (f e a).dev.mem = e.dev.mem) (l : List α) (env : Env) :
    (l.foldl f env).dev.mem = env.dev.mem :=
  List.foldlRecOn (motive := fun e => e.dev.mem = env.dev.mem) l f rfl (fun e he a _ => (hf e a).trans he)

@[simp] theorem addLanes_dev_mem (env : Env) (o : AccOpts) (pl : Plan) (lanes : List Nat) (kind : Env → Nat → AccKind) :
    (env.addLanes o pl lanes kind).dev.mem = env.dev.mem := by
  unfold Env.addLanes
  exact foldl_dev_mem (fun _ _ => by exact rfl) lanes env

@[simp] theorem oweV_dev_mem (env : Env) (d : BitVec 8) (f : Nat → Word) : (env.oweV d f).dev.mem = env.dev.mem := by
  unfold Env.oweV
  exact foldl_dev_mem (fun _ _ => by exact rfl) _ env

@[simp] theorem keepRead_dev_mem (env : Env) (pl : Plan) : (env.keepRead pl).dev.mem = env.dev.mem :=
  countMiss_mem _ _ _ _

@[simp] theorem refreshGen_dev (env : Env) (pc : PC) : (env.refreshGen pc).dev = env.dev := by
  unfold Env.refreshGen
  split
  · split <;> rfl
  · rfl

@[simp] theorem leave_dev (env : Env) (preempt : Bool) (pc : PC) : (env.leave preempt pc).dev = env.dev := by
  unfold Env.leave
  split <;> rfl

/-- An issue begins with the package as it is. -/
theorem openIssue_dev {i : Instr} {word : Word} {s : State} {env : Env} (h : openIssue i word s = some env) : env.dev = s :=
  (opened_env h).1

/-! ### Reads, writes and accesses -/

theorem wf_touchPlan {env : Env} (pl : Plan) (h : env.dev.mem.wf = true) : (env.touchPlan pl).dev.mem.wf = true := by
  unfold Env.touchPlan
  split
  · exact h
  · exact h
  · exact wf_foldl (fun _ _ ht => wf_touchLeaf _ _ _ _ ht) _ h

/-- A plan whose pages are marked and whose bytes are read. -/
theorem wf_readPlan {env : Env} (pl : Plan) (h : env.dev.mem.wf = true) : ((env.touchPlan pl).keepRead pl).dev.mem.wf = true := by
  rw [keepRead_dev_mem]
  exact wf_touchPlan pl h

theorem wf_makeAccess {env : Env} (o : AccOpts) (pl : Plan) (lanes : List Nat) (kind : Env → Nat → AccKind)
    (h : env.dev.mem.wf = true) : ResWf (env.makeAccess o pl lanes kind) := by
  unfold Env.makeAccess
  split
  · rename_i r hr
    exact resWf_of_noEffect (checkPlan_noEffect env pl) hr
  · split
    · show ((env.touchPlan pl).addLanes o pl lanes kind).dev.mem.wf = true
      rw [addLanes_dev_mem]
      exact wf_touchPlan pl h
    · trivial

theorem wf_callTo {env : Env} (pc : Nat → PC) (tpri : BitVec 8) (h : env.dev.mem.wf = true) : ResWf (env.callTo pc tpri) := by
  unfold Env.callTo
  extract_lets env'
  have hmade := wf_makeAccess .plain (env.recordPlan (-16) true) env.p.lanes
    (fun _ _ => .store (callRecord (env.genAt env.next) env.next env.e.pri)) h
  split
  · rename_i e he
    rw [he] at hmade
    exact hmade
  · exact hmade

theorem wf_ret {env : Env} (h : env.dev.mem.wf = true) : ResWf env.ret := by
  unfold Env.ret
  split
  · rename_i r hr
    exact resWf_of_noEffect (trapLanes_noEffect _ _ _ _) hr
  · extract_lets pl pop rpc old env1 env2
    split
    · rename_i r hr
      exact resWf_of_noEffect (checkPlan_noEffect _ _) hr
    · split
      · rename_i r hr
        exact resWf_of_noEffect (readNow_noEffect _ _) hr
      · split
        · rename_i r hr
          exact resWf_of_noEffect (trapLanes_noEffect _ _ _ _) hr
        · have hread : env1.dev.mem.wf = true := wf_readPlan pl h
          show env2.dev.mem.wf = true
          dsimp only [env2]
          split
          · exact hread
          · rw [foldl_dev_mem (fun _ _ => by rw [refreshGen_dev])]
            exact hread

theorem wf_load {env : Env} (r : MF) (sp : Space) (o : AccOpts) (h : env.dev.mem.wf = true) : ResWf (env.load r sp o) :=
  wf_makeAccess _ _ _ _ h

theorem wf_store {env : Env} (r : MF) (sp : Space) (o : AccOpts) (h : env.dev.mem.wf = true) : ResWf (env.store r sp o) :=
  wf_makeAccess _ _ _ _ h

theorem wf_atomic {env : Env} (r : MF) (sp : Space) (am : Nat) (h : env.dev.mem.wf = true) : ResWf (env.atomic r sp am) :=
  wf_makeAccess _ _ _ _ h

theorem wf_prefetch {env : Env} (r : MF) (h : env.dev.mem.wf = true) : (env.prefetch r).dev.mem.wf = true := by
  unfold Env.prefetch
  refine wf_foldl (fun s t hs => ?_) _ h
  extract_lets va
  split
  · extract_lets k p
    split
    · rw [keepLines_mem, countMiss_mem]
      exact wf_touchLeaf _ _ _ _ hs
    · exact hs
  · rw [recordKeys_mem]
    exact hs
  · exact hs

theorem wf_multicast {env : Env} (r : MF) (ordered : Bool) (h : env.dev.mem.wf = true) : ResWf (env.multicast r ordered) := by
  unfold Env.multicast
  extract_lets size trap off
  split
  · trivial
  · split
    · rename_i x hx
      exact resWf_of_noEffect (trapLanes_noEffect _ _ _ _) hx
    · split
      · split
        · trivial
        · refine (congrArg Memory.wf ?_).trans h
          exact foldl_dev_mem (fun e t => foldl_dev_mem (fun _ _ => by exact rfl) _ e) _ env
      · exact h

/-! ### Releases -/

theorem wf_perform {env e : Env} {p : Access → Bool} (he : env.perform p = some e) (h : env.dev.mem.wf = true) :
    e.dev.mem.wf = true := by
  unfold Env.perform at he
  extract_lets s at he
  have hdone : s.mem.wf = true := wf_goAccesses _ _ h
  split at he
  · exact absurd he (by simp)
  · split at he
    · exact absurd he (by simp)
    · split at he
      · exact absurd he (by simp)
      · split at he
        · exact absurd he (by simp)
        · obtain rfl := Option.some.inj he
          exact hdone

theorem wf_releaseFor {env e : Env} {scope : Nat} {p : Access → Bool} (he : env.releaseFor scope p = some e)
    (h : env.dev.mem.wf = true) : e.dev.mem.wf = true := by
  unfold Env.releaseFor at he
  split at he
  · exact absurd he (by simp)
  · obtain ⟨e1, hperform, rfl⟩ := Option.map_eq_some_iff.mp he
    have hdone : e1.dev.mem.wf = true := wf_perform hperform h
    exact hdone

theorem wf_releaseAt {env e : Env} {scope : Nat} (he : env.releaseAt scope = some e) (h : env.dev.mem.wf = true) :
    e.dev.mem.wf = true := wf_releaseFor he h

theorem wf_release {env e : Env} (he : env.release = some e) (h : env.dev.mem.wf = true) : e.dev.mem.wf = true :=
  wf_releaseAt he h

theorem wf_releaseIn {env e : Env} {rs : List Reg} (he : env.releaseIn rs = some e) (h : env.dev.mem.wf = true) :
    e.dev.mem.wf = true := by
  unfold Env.releaseIn at he
  split at he
  · exact absurd he (by simp)
  · exact wf_perform he h

theorem wf_endLevel {env e : Env} {k : LevelEnd} (he : env.endLevel k = some e) (h : env.dev.mem.wf = true) :
    e.dev.mem.wf = true := by
  unfold Env.endLevel at he
  split at he
  · obtain rfl := Option.some.inj he
    exact h
  · split at he
    · exact absurd he (by simp)
    · exact wf_releaseFor he h

theorem wf_envEndBlock {env e : Env} {b : Block} (he : env.endBlock b = some e) (h : env.dev.mem.wf = true) :
    e.dev.mem.wf = true := by
  unfold Env.endBlock at he
  extract_lets s at he
  have hdone : s.mem.wf = true := wf_goAccesses _ _ h
  split at he
  · exact absurd he (by simp)
  · split at he
    · exact absurd he (by simp)
    · split at he
      · exact absurd he (by simp)
      · split at he
        · obtain rfl := Option.some.inj he
          exact hdone
        · exact absurd he (by simp)

/-- The ends of several levels, each after the one before. -/
theorem wf_endLevels (ks : List LevelEnd) {start : Option Env} (hstart : ∀ e, start = some e → e.dev.mem.wf = true) :
    ∀ e, ks.foldl (fun (e : Option Env) k => e.bind (fun e => e.endLevel k)) start = some e → e.dev.mem.wf = true :=
  List.foldlRecOn (motive := fun o : Option Env => ∀ e, o = some e → e.dev.mem.wf = true) ks _ hstart
    (fun o ho k _ e he => by
      obtain ⟨e1, ho1, hk⟩ := Option.bind_eq_some_iff.mp he
      exact wf_endLevel hk (ho e1 ho1))

theorem wf_envFinish {env e : Env} (he : env.finish = some e) (h : env.dev.mem.wf = true) : e.dev.mem.wf = true := by
  unfold Env.finish at he
  split at he
  · obtain rfl := Option.some.inj he
    exact h
  · extract_lets levels gone at he
    obtain ⟨e1, hlevels, hend⟩ := Option.bind_eq_some_iff.mp he
    have hwf : e1.dev.mem.wf = true :=
      wf_endLevels _ (fun e2 h2 => Option.some.inj h2 ▸ h) e1 hlevels
    split at hend
    · exact wf_envEndBlock hend hwf
    · obtain rfl := Option.some.inj hend
      exact hwf

theorem wf_waitDone {env : Env} (d : BitVec 8) (scope : Nat) (h : env.dev.mem.wf = true) : ResWf (env.waitDone d scope) := by
  unfold Env.waitDone
  split
  · trivial
  · exact h

theorem wf_barr {env : Env} (id n : Nat) (h : env.dev.mem.wf = true) : ResWf (env.barr id n) := by
  unfold Env.barr
  split
  · trivial
  · rename_i e he
    have hreleased := wf_releaseAt he h
    split
    · exact hreleased
    · exact hreleased

/-! ### Lanes, elements and descriptors -/

theorem wf_encodeLanes {env : Env} (rm : Rm) (d : BitVec 8) (base : Nat) (elems : Nat → List (Nat → Option Nat))
    (place : Nat → List Nat → Word) (h : env.dev.mem.wf = true) : ResWf (env.encodeLanes rm d base elems place) := by
  unfold Env.encodeLanes
  split
  · rename_i r hr
    exact resWf_of_noEffect (trapLanes_noEffect _ _ _ _) hr
  · exact h

theorem wf_slotMap {env : Env} (rmCode : Nat) (d a : BitVec 8) (f : Fmt) (op : Nat → Nat → Val) (h : env.dev.mem.wf = true) :
    ResWf (env.slotMap rmCode d a f op) := wf_encodeLanes _ _ _ _ _ h

theorem wf_convert {env : Env} (rm : Rm) (d : BitVec 8) (ns sa w nd da : Nat) (elem : Nat → Nat → Nat → Option Nat)
    (h : env.dev.mem.wf = true) : ResWf (env.convert rm d ns sa w nd da elem) := by
  unfold Env.convert
  split
  · trivial
  · exact wf_encodeLanes _ _ _ _ _ h

theorem wf_sinv {env : Env} (r : MF) (set : Bool) (h : env.dev.mem.wf = true) : ResWf (env.sinv r set) := by
  unfold Env.sinv
  extract_lets ea n ls
  split
  · trivial
  · split
    · exact h
    · split
      · trivial
      · exact h

theorem wf_writeCsr {env : Env} (v : Word) (ok : Bool) (f : Context → Context) (h : env.dev.mem.wf = true) :
    ResWf (env.writeCsr v ok f) := by
  unfold Env.writeCsr
  split
  · exact h
  · trivial

theorem wf_gtake {env : Env} (r : RRR) (f : Word × Nat → Word) (h : env.dev.mem.wf = true) : ResWf (env.gtake r f) := by
  unfold Env.gtake
  split
  · trivial
  · extract_lets one
    exact (congrArg Memory.wf (foldl_dev_mem (f := one) (fun _ _ => rfl) _ env)).trans h

/-! ### Matrix tasks and messages -/

/-- A new tile comes with the package as it was, or is refused with a trap. -/
theorem newTile_dev {env : Env} {a : BitVec 8} {mt nt afn : Nat} {engines : List Nat} {af : Word} :
    (∀ r, env.newTile a mt nt engines af afn = .inl r → ResWf r) ∧
      ∀ q, env.newTile a mt nt engines af afn = .inr q → q.2.dev = env.dev := by
  have hcases : (∃ c, env.newTile a mt nt engines af afn = .inl (env.trapAcc c a)) ∨
      ∃ t x, env.newTile a mt nt engines af afn = .inr (t, { env with ctx := x }) := by
    unfold Env.newTile
    extract_lets share quota
    split
    · split
      · exact .inl ⟨_, rfl⟩
      · exact .inr ⟨_, _, rfl⟩
    · exact .inl ⟨_, rfl⟩
  rcases hcases with ⟨c, hnone⟩ | ⟨t, x, hsome⟩
  · rw [hnone]
    exact ⟨fun r hr => Sum.inl.inj hr ▸ trivial, fun q hq => by cases hq⟩
  · rw [hsome]
    exact ⟨fun r hr => (by cases hr), fun q hq => Sum.inr.inj hq ▸ rfl⟩

theorem wf_mma {env : Env} (g : MmaArgs) (h : env.dev.mem.wf = true) : ResWf (env.mma g) := by
  unfold Env.mma
  extract_lets engines a b mt nt af go
  have hgo (t : Tile) (e : Env) (he : e.dev.mem.wf = true) : ResWf (go t e) := by
    dsimp only [go]
    split
    · trivial
    · rename_i e1 hrelease
      have hreleased : e1.dev.mem.wf = true := wf_releaseIn hrelease he
      exact hreleased
  clear_value go engines
  split
  · trivial
  · split
    · trivial
    · split
      · trivial
      · split
        · split
          · trivial
          · exact hgo _ _ h
        · split
          · rename_i r hr
            exact newTile_dev.1 r hr
          · rename_i q hq
            exact hgo _ _ (by rw [newTile_dev.2 q hq]; exact h)

theorem wf_mpost {env : Env} (r : RRR) (red : Option Nat) (h : env.dev.mem.wf = true) : ResWf (env.mpost r red) := by
  unfold Env.mpost
  extract_lets d match_ mask ctl n die bad
  split
  · trivial
  · split
    · rename_i x hx
      exact resWf_of_noEffect (checkDesc_noEffect _ _ _) hx
    · split
      · trivial
      · extract_lets v dev1 dev2
        show dev2.mem.wf = true
        rw [settleQueue_mem, search_mem]
        exact h

/-! ### The issue -/

theorem wf_settle {env : Env} (opts : Opts) {r : Res} (h : env.dev.mem.wf = true) (hr : ResWf r) :
    (settle opts env r).mem.wf = true := by
  unfold settle
  split
  · split
    · split
      · rw [takeTrap_mem]; exact h
      · exact h
    · exact h
  · rw [takeTrap_mem]; exact h
  · split
    · rw [takeTrap_mem]; exact h
    · exact hr

theorem wf_orPoison {r : Res} (t : Option TrapInfo) (hr : ResWf r) : ResWf (r.orPoison t) := by
  unfold Res.orPoison
  split
  · exact hr
  · split <;> trivial

/-- A cause that stands before a poisoned source, or the trap of that source. -/
theorem noEffect_early {o : Option Res} {t : TrapInfo} (ho : NoEffect o) : NoEffect (some (o.getD (.trap t))) := by
  cases o with
  | none => exact noEffect_trap t
  | some r => exact ho

theorem gate_noEffect {opts : Opts} {env : Env} (hearly : NoEffect (opts.early env)) : NoEffect (gate opts env) := by
  unfold gate
  extract_lets f sl empties bare
  iterate 3 refine noEffect_ite_trap ?_
  split
  · exact noEffect_trap _
  · split
    · exact noEffect_trap _
    · split
      · exact noEffect_trap _
      · split
        · split
          · split
            · exact noEffect_trap _
            · refine noEffect_early ?_
              split
              · exact noEffect_none
              · exact hearly
          · exact noEffect_hold _
        · exact noEffect_ite_trap noEffect_none

theorem wf_attempt {opts : Opts} {env : Env} {body : Env → Res} (h : env.dev.mem.wf = true) (hearly : NoEffect (opts.early env))
    (hb : ResWf (body env)) : ResWf (attempt opts env body) := by
  unfold attempt
  split
  · rename_i r hr
    exact resWf_of_noEffect (gate_noEffect hearly) hr
  · refine wf_orPoison _ ?_
    split
    · exact h
    · exact hb

/-- An issue keeps the canonical form of memory when its effect, and what follows it, does. -/
theorem wf_issueThen {i : Instr} {opts : Opts} {s : State} {body : Env → Res} {post : State → State} (h : s.mem.wf = true)
    (hearly : ∀ env, NoEffect (opts.early env)) (hb : ∀ env, env.dev.mem.wf = true → ResWf (body env))
    (hpost : ∀ t, t.mem.wf = true → (post t).mem.wf = true) : NextWf (issueThen i opts s body post) := by
  unfold issueThen
  split
  · trivial
  · rename_i env hopen
    have henv : env.dev.mem.wf = true := by rw [openIssue_dev hopen]; exact h
    exact hpost _ (wf_settle opts henv (wf_attempt henv (hearly env) (hb env henv)))

/-- An issue whose options make no check of their own. -/
theorem wf_issue {i : Instr} {opts : Opts} {s : State} {body : Env → Res} (h : s.mem.wf = true) (hearly : opts.early = fun _ => none)
    (hb : ∀ env, env.dev.mem.wf = true → ResWf (body env)) : NextWf (issue i opts s body) :=
  wf_issueThen h (fun _ => by rw [hearly]; exact noEffect_none) hb fun _ ht => ht

theorem wf_issueDone {i : Instr} {opts : Opts} {s : State} {f : Env → Env} (h : s.mem.wf = true) (hearly : opts.early = fun _ => none)
    (hf : ∀ env, env.dev.mem.wf = true → (f env).dev.mem.wf = true) : NextWf (issueDone i opts s f) :=
  wf_issue h hearly hf

/-- An issue whose effect leaves the package as it is, whatever it does to the warp and the context. -/
theorem wf_issueFrame {i : Instr} {opts : Opts} {s : State} {f : Env → Env} (h : s.mem.wf = true)
    (hearly : opts.early = fun _ => none) (hf : ∀ env, (f env).dev = env.dev) : NextWf (issueDone i opts s f) :=
  wf_issueDone h hearly fun env he => by rw [hf env]; exact he

/-! ### Retired instructions and the return from a handler -/

theorem wf_emulate {env : Env} (c : Cause) (r : RRR) (opts : Opts) (named : List Opnd) {body : Env → Res} (h : env.dev.mem.wf = true)
    (hb : ∀ env, env.dev.mem.wf = true → ResWf (body env)) : (env.emulate c r opts named body).mem.wf = true := by
  unfold Env.emulate
  extract_lets env1
  refine wf_settle opts h ?_
  split
  · rename_i x hx
    exact resWf_of_noEffect (t5Check_noEffect _ _ _) hx
  · split
    · exact h
    · exact hb _ h

theorem wf_retiredIssue {c : Cause} {i : Instr} {r : RRR} {opts : Opts} {named : List Opnd} {s : State} {body : Env → Res}
    (h : s.mem.wf = true) (hb : ∀ env, env.dev.mem.wf = true → ResWf (body env)) :
    NextWf (retiredIssue c i r opts named s body) := by
  unfold retiredIssue
  split
  · trivial
  · rename_i env hopen
    have henv : env.dev.mem.wf = true := by rw [openIssue_dev hopen]; exact h
    split
    · exact henv
    · split
      · show (State.takeSignal _ _ _).mem.wf = true
        rw [takeSignal_mem]
        exact wf_emulate c r opts named henv hb
      · exact wf_emulate c r opts named henv hb

theorem wf_completeEntry {env : Env} (h : env.dev.mem.wf = true) : ResWf env.completeEntry := by
  unfold Env.completeEntry
  split
  · exact wf_ret (env := env.asEntered) h
  · exact h

theorem precheck_noEffect {opts : Opts} {env : Env} (hearly : NoEffect (opts.early env)) : NoEffect (precheck opts env) := by
  unfold precheck
  refine noEffect_check (gate_noEffect hearly) ?_
  cases env.poison opts with
  | none => exact noEffect_none
  | some t => exact noEffect_trap t

theorem wf_eretWith {i : Instr} {isNext : Bool} {s : State} (h : s.mem.wf = true) : NextWf (eretWith i isNext s) := by
  unfold eretWith
  split
  · trivial
  · rename_i env hopen
    have henv : env.dev.mem.wf = true := by rw [openIssue_dev hopen]; exact h
    show Memory.wf (State.mem _) = true
    split
    · rename_i r hr
      exact wf_settle _ henv (resWf_of_noEffect (precheck_noEffect (opts := .plain) noEffect_none) hr)
    · split
      · exact wf_settle _ henv henv
      · split
        · rw [takeTrap_mem]; exact henv
        · split
          · rw [takeTrap_mem]; exact henv
          · rw [commit_mem, leave_dev]; exact henv
          · extract_lets env1
            split
            · rw [takeTrap_mem]; exact henv
            · rw [takeSignal_mem]
              exact wf_settle _ henv (wf_completeEntry (env := env1) henv)

end Sys2Proof.MemoryForm
end

section
/-! PROOFS. Every instruction keeps the canonical form of memory. -/

namespace Sys2Proof.MemoryForm

open Sys2Proof Machine Laws

/-! ### The shapes of an effect -/

theorem wf_check {o : Option Res} {b : Res} :
    NoEffect o → ResWf b → ResWf (match o with | some x => x | none => b) := by
  intro ho hb
  cases o with
  | none => exact hb
  | some x => exact resWf_of_noEffect ho rfl

theorem wf_ite {c : Prop} {_ : Decidable c} {a b : Res} (ha : ResWf a) (hb : ResWf b) : ResWf (if c then a else b) := by
  split
  · exact ha
  · exact hb

/-! ### Control -/

theorem wf_execBruAll (r : BF) {s : State} (h : s.mem.wf = true) : NextWf (execBruAll r s) := by
  refine wf_issueFrame h rfl fun env => ?_
  split <;> rfl

theorem wf_execBrx (r : RI) {s : State} (h : s.mem.wf = true) : NextWf (execBrx r s) :=
  wf_issue h rfl fun _ he => wf_check (checkTarget_noEffect _ _) he

theorem wf_execCall (r : BF) {s : State} (h : s.mem.wf = true) : NextWf (execCall r s) :=
  wf_issue h rfl fun _ he => wf_callTo _ _ he

theorem wf_execCallx (r : RI) {s : State} (h : s.mem.wf = true) : NextWf (execCallx r s) :=
  wf_issue h rfl fun _ he => wf_check (checkTarget_noEffect _ _) (wf_callTo _ _ he)

theorem wf_execExit (r : RRR) {s : State} (h : s.mem.wf = true) : NextWf (execExit r s) := by
  refine wf_issueThen h (fun _ => noEffect_none) (fun env he => ?_) fun _ ht => wf_reap ht
  split
  · trivial
  · rename_i hfin
    have hended := wf_envFinish hfin he
    exact hended

theorem nap_dev (env : Env) (n : Nat) : (env.nap n).dev = env.dev := by
  unfold Env.nap
  split <;> rfl

/-! ### Floating point and lanes -/

theorem starts_noEffect (opts : Opts) (ns nd : Env → Nat) (sa da : Nat) (env : Env) :
    NoEffect ((opts.starts ns nd sa da).early env) :=
  noEffect_ite_trap noEffect_none

theorem wf_execFcmp (r : RRR) {s : State} (h : s.mem.wf = true) : NextWf (execFcmp r s) := by
  refine wf_issueFrame h rfl fun env => ?_
  extract_lets f test form
  split <;> rfl

theorem wf_execShflx (r : RRR) {s : State} (h : s.mem.wf = true) : NextWf (execShflx r s) := by
  refine wf_issue h rfl fun env he => ?_
  extract_lets k
  split
  · exact he
  · refine wf_ite trivial (wf_ite ?_ ?_)
    · show Memory.wf (Env.dev _).mem = true
      rw [oweV_dev_mem]
      exact he
    extract_lets far
    refine wf_check ?_ ?_
    · cases far with
      | none => exact noEffect_none
      | some w => exact farTrap_noEffect env r w
    · show Memory.wf (Env.dev _).mem = true
      rw [foldl_dev_mem (by exact fun _ _ => rfl)]
      exact he

theorem wf_execFredx (r : RRR) {s : State} (h : s.mem.wf = true) : NextWf (execFredx r s) := by
  refine wf_issue h rfl fun env he => ?_
  extract_lets f run
  split
  · trivial
  · exact he

/-! ### Accesses -/

theorem wf_execLdg (r : MF) {s : State} (h : s.mem.wf = true) : NextWf (execLdg r s) :=
  wf_issue h rfl fun env he => wf_check (checkDp_noEffect env r) (wf_makeAccess _ _ _ _ he)

theorem wf_execStsc (r : MF) {s : State} (h : s.mem.wf = true) : NextWf (execStsc r s) :=
  wf_issue h rfl fun env he => wf_check (checkDp_noEffect env r) (wf_makeAccess _ _ _ _ he)

theorem wf_execFatom (r : MF) {s : State} (h : s.mem.wf = true) : NextWf (execFatom r s) :=
  wf_issue h rfl fun env he => wf_check (checkShape_noEffect env _) (wf_ite trivial (wf_makeAccess _ _ _ _ he))

theorem wf_execPresq (r : MF) {s : State} (h : s.mem.wf = true) : NextWf (execPresq r s) :=
  wf_issue h rfl fun env he => wf_check (trapLanes_noEffect env _ _ _) he

/-! ### Descriptors, channels and cards -/

theorem wf_execJpost (r : RRR) {s : State} (h : s.mem.wf = true) : NextWf (execJpost r s) := by
  refine wf_issue h rfl fun env he => ?_
  extract_lets reg p
  refine wf_check (checkPost_noEffect env p) ?_
  split
  · trivial
  · rename_i c _
    extract_lets k
    refine wf_ite trivial (wf_ite trivial ?_)
    split
    · trivial
    · rename_i e hrel
      exact wf_place k e.ctx c p.aux0 p.aux1 (wf_releaseIn hrel he)

theorem wf_execChsetRing (r : RRR) {s : State} (h : s.mem.wf = true) : NextWf (execChsetRing r s) := by
  refine wf_issue h rfl fun env he => ?_
  extract_lets b ch k
  refine wf_ite trivial (wf_check (checkAddrs_noEffect env _) (wf_ite trivial (wf_ite trivial ?_)))
  split
  · trivial
  · rename_i e hrel
    exact wf_engStore e.ctx e.seat (e.s r.c).toNat 8 0 (wf_releaseIn hrel he)

theorem wf_execChsetChain (r : RRR) {s : State} (h : s.mem.wf = true) : NextWf (execChsetChain r s) := by
  refine wf_issue h rfl fun env he => ?_
  extract_lets b
  refine wf_ite trivial (wf_check (checkAddrs_noEffect env _) ?_)
  split
  · trivial
  · exact wf_ite trivial (wf_ite trivial he)

theorem wf_execTwait (r : RI) {s : State} (h : s.mem.wf = true) : NextWf (execTwait r s) := by
  refine wf_issue h rfl fun env he => ?_
  extract_lets scope n a m pl
  refine wf_ite trivial (wf_check (checkPlan_noEffect env pl) (wf_check (readNow_noEffect env pl) ?_))
  have hread : ((env.touchPlan pl).keepRead pl).dev.mem.wf = true := wf_readPlan pl he
  exact wf_ite (wf_waitDone r.d scope hread) (wf_ite hread hread)

theorem wf_execSqwait (r : RI) {s : State} (h : s.mem.wf = true) : NextWf (execSqwait r s) := by
  refine wf_issue h rfl fun env he => ?_
  extract_lets scope n a
  refine wf_ite trivial ?_
  split
  · trivial
  · exact wf_ite trivial (wf_ite (wf_waitDone r.d scope he) (wf_ite he he))

theorem wf_execTdesc (r : RRR) {s : State} (h : s.mem.wf = true) : NextWf (execTdesc r s) :=
  wf_issue h rfl fun _ he => wf_ite trivial (wf_ite trivial (wf_ite trivial he))

theorem wf_execTmod (r : RRR) {s : State} (h : s.mem.wf = true) : NextWf (execTmod r s) :=
  wf_issue h rfl fun _ he => wf_ite trivial he

theorem wf_execJcancel (r : RRR) {s : State} (h : s.mem.wf = true) : NextWf (execJcancel r s) := by
  refine wf_issue h rfl fun env he => ?_
  extract_lets a put
  refine wf_ite trivial ?_
  split
  · exact he
  · exact wf_ite he (wf_ite he he)

theorem wf_execQpush (r : RRR) {s : State} (h : s.mem.wf = true) : NextWf (execQpush r s) := by
  refine wf_issue h rfl fun env he => ?_
  extract_lets die dest
  clear_value dest
  cases dest with
  | none => trivial
  | some q =>
    obtain ⟨l, k⟩ := q
    refine wf_ite trivial ?_
    split
    · trivial
    · rename_i e hrel
      exact wf_putItems _ _ _ _ _ _ _ (wf_releaseAt hrel he)

/-! ### The matrix engine -/

theorem wf_execAzero (r : RRR) {s : State} (h : s.mem.wf = true) : NextWf (execAzero r s) := by
  refine wf_issueDone h rfl fun env he => ?_
  extract_lets k
  split
  · exact he
  · exact he

theorem wf_execArel (r : RRR) {s : State} (h : s.mem.wf = true) : NextWf (execArel r s) := by
  refine wf_issueDone h rfl fun env he => ?_
  extract_lets k a w
  split
  · exact he
  · exact he

theorem wf_execAsto (r : RRR) {s : State} (h : s.mem.wf = true) : NextWf (execAsto r s) := by
  refine wf_issue h rfl fun env he => ?_
  extract_lets d w
  split
  · trivial
  · exact wf_ite trivial (wf_ite trivial (wf_ite trivial he))

theorem wf_execAldr (r : RRR) {s : State} (h : s.mem.wf = true) : NextWf (execAldr r s) := by
  refine wf_issue h rfl fun env he => ?_
  extract_lets d w af go
  refine wf_ite trivial (wf_ite trivial (wf_ite trivial ?_))
  split
  · exact wf_ite trivial he
  · refine wf_ite trivial ?_
    split
    · rename_i x hx
      exact newTile_dev.1 x hx
    · rename_i q hq
      show Memory.wf q.2.dev.mem = true
      rw [newTile_dev.2 q hq]
      exact he

theorem wf_execAmovv (r : RRR) {s : State} (h : s.mem.wf = true) : NextWf (execAmovv r s) := by
  refine wf_issue h rfl fun env he => ?_
  extract_lets a b k fw f r0 c0 n
  refine wf_ite trivial ?_
  split
  · trivial
  · exact wf_ite trivial (wf_check (trapLanes_noEffect env _ _ _) he)

/-! ### Barriers and broadcasts -/

theorem wf_execBsync (r : RI) {s : State} (h : s.mem.wf = true) : NextWf (execBsync r s) := by
  refine wf_issue h rfl fun env he => ?_
  extract_lets a c ch pkg die dies scope
  refine wf_ite trivial (wf_ite trivial (wf_ite trivial (wf_ite ?_ he)))
  split
  · rename_i hrel
    have hreleased := wf_releaseAt hrel he
    exact hreleased
  · trivial

theorem wf_execBarr (r : RI) {s : State} (h : s.mem.wf = true) : NextWf (execBarr r s) := by
  refine wf_issue h rfl fun env he => ?_
  extract_lets n id
  split
  · exact he
  · exact wf_ite trivial (wf_ite trivial (wf_barr id n he))

theorem wf_execBcast (r : RRR) {s : State} (h : s.mem.wf = true) : NextWf (execBcast r s) :=
  wf_issue h rfl fun _ he => wf_ite trivial he

theorem wf_execBrecv (r : RRR) {s : State} (h : s.mem.wf = true) : NextWf (execBrecv r s) :=
  wf_issue h rfl fun _ he => wf_ite trivial he

/-! ### Messages -/

theorem wf_execMsend (r : RRR) {s : State} (h : s.mem.wf = true) : NextWf (execMsend r s) := by
  refine wf_issue h rfl fun env he => ?_
  extract_lets d b c num w
  refine wf_ite trivial (wf_ite trivial (wf_check (checkDesc_noEffect env d [0]) (wf_ite trivial (wf_ite trivial ?_))))
  exact wf_ite trivial (wf_ite trivial (wf_touchWindow env.ctx env.seat w false he))

theorem wf_execMtest (r : RRR) {s : State} (h : s.mem.wf = true) : NextWf (execMtest r s) := by
  refine wf_issue h rfl fun env he => ?_
  split
  · trivial
  · rename_i v _
    extract_lets free status tag word counted kept acquired seen
    have hseen : seen.dev.mem.wf = true := by
      dsimp only [seen]
      split
      · exact he
      · exact he
    exact hseen

theorem wf_execMprobe (r : RRR) {s : State} (h : s.mem.wf = true) : NextWf (execMprobe r s) :=
  wf_issue h rfl fun _ he => wf_ite trivial he

theorem wf_execMcancel (r : RRR) {s : State} (h : s.mem.wf = true) : NextWf (execMcancel r s) := by
  refine wf_issue h rfl fun env he => ?_
  split
  · trivial
  · rename_i v _
    extract_lets free
    show Memory.wf (State.mem _) = true
    dsimp only
    split
    · exact he
    · exact he

theorem wf_execAsend (r : RRR) {s : State} (h : s.mem.wf = true) : NextWf (execAsend r s) :=
  wf_issue h rfl fun _ he => wf_ite trivial (wf_ite trivial (wf_ite trivial (wf_ite trivial he)))

/-! ### Regions, launches and special registers -/

theorem wf_execGen (r : BF) {s : State} (h : s.mem.wf = true) : NextWf (execGen r s) :=
  wf_issue h rfl fun _ he => wf_ite trivial he

theorem wf_execYld (r : RRR) {s : State} (h : s.mem.wf = true) : NextWf (execYld r s) := by
  refine wf_issue h rfl fun env he => ?_
  split
  · trivial
  · exact he

theorem wf_execGdone (r : RRR) {s : State} (h : s.mem.wf = true) : NextWf (execGdone r s) := by
  refine wf_issue h rfl fun env he => ?_
  split
  · trivial
  · exact he

theorem wf_execGnext (r : RRR) {s : State} (h : s.mem.wf = true) : NextWf (execGnext r s) := by
  refine wf_issue h rfl fun env he => ?_
  split
  · trivial
  · exact he

theorem wf_execLaunch (r : RRR) {s : State} (h : s.mem.wf = true) : NextWf (execLaunch r s) := by
  refine wf_issue h rfl fun env he => ?_
  refine wf_check (checkPlan_noEffect env _) ?_
  split
  · trivial
  · rename_i hrel
    have hreleased := wf_release hrel he
    exact hreleased

theorem wf_execFdrw (r : RRR) {s : State} (h : s.mem.wf = true) : NextWf (execFdrw r s) :=
  wf_issue h rfl fun _ he => wf_ite (wf_ite he trivial) he

theorem wf_execCsrr (r : RI) {s : State} (h : s.mem.wf = true) : NextWf (execCsrr r s) := by
  refine wf_issue h rfl fun env he => ?_
  refine wf_check (fopCheck_noEffect env _) ?_
  split
  · exact he
  · trivial

theorem wf_execCsrw (r : RI) {s : State} (h : s.mem.wf = true) : NextWf (execCsrw r s) := by
  refine wf_issue h rfl fun env he => ?_
  extract_lets v
  split
  · exact wf_writeCsr _ _ _ he
  · exact wf_writeCsr _ _ _ he
  · exact wf_writeCsr _ _ _ he
  · exact wf_writeCsr _ _ _ he
  · exact wf_ite he trivial
  · exact he
  · exact wf_ite trivial (wf_ite he trivial)
  · trivial

theorem wf_execSreg (r : RI) {s : State} (h : s.mem.wf = true) : NextWf (execSreg r s) := by
  refine wf_issue h rfl fun env he => ?_
  split
  · trivial
  · exact he
  · exact he

theorem wf_execRgrow (r : RI) {s : State} (h : s.mem.wf = true) : NextWf (execRgrow r s) :=
  wf_issue h rfl fun _ he => wf_ite trivial (wf_ite he he)

theorem wf_execRshrk (r : RI) {s : State} (h : s.mem.wf = true) : NextWf (execRshrk r s) :=
  wf_issue h rfl fun _ he => wf_ite trivial he

/-! ### Retired instructions -/

theorem wf_execBarw (r : RRR) {s : State} (h : s.mem.wf = true) : NextWf (execBarw r s) := by
  refine wf_retiredIssue h fun env he => ?_
  extract_lets pl
  have hput := wf_makeAccess .plain pl env.p.lanes (fun _ t => .store (env.v r.d t).toNat) he
  split
  · rename_i e hdone
    rw [hdone] at hput
    exact wf_ite trivial (wf_barr 15 0 hput)
  · exact hput

theorem wf_execLdtex (r : RRR) {s : State} (h : s.mem.wf = true) : NextWf (execLdtex r s) := by
  refine wf_retiredIssue h fun env he => ?_
  extract_lets at_ head
  refine wf_check (checkPlan_noEffect env head) (wf_check (readNow_noEffect env head) ?_)
  have hread : ((env.touchPlan head).keepRead head).dev.mem.wf = true := wf_readPlan head he
  exact wf_ite trivial (wf_check (checkPlan_noEffect _ _) (wf_check (readNow_noEffect _ _) (wf_readPlan _ hread)))

theorem wf_execUnassignedOpcode (w : Word) {s : State} (h : s.mem.wf = true) : NextWf (execUnassignedOpcode w s) := by
  unfold execUnassignedOpcode
  split
  · trivial
  · rename_i env hopen
    have henv : env.dev.mem.wf = true := by rw [openIssue_dev hopen]; exact h
    refine wf_settle .plain ?_ trivial
    split
    · exact henv
    · exact henv

end Sys2Proof.MemoryForm
end

section
/-! PROOFS. Every event keeps the canonical form of memory. -/

namespace Sys2Proof.MemoryForm

open Sys2Proof Machine Laws

/-! ### Warps -/

theorem wf_iteState {p : Prop} {_ : Decidable p} {s t : State} (hs : s.mem.wf = true) (ht : t.mem.wf = true) :
    (if p then s else t).mem.wf = true := by
  split
  · exact hs
  · exact ht

theorem wf_onWarp {s : State} (c u : Nat) {f : Context → Warp → State} (h : s.mem.wf = true) (hf : ∀ x w, (f x w).mem.wf = true) :
    (s.onWarp c u f).mem.wf = true := by
  unfold State.onWarp
  split
  · exact h
  · split
    · exact h
    · exact hf _ _

theorem wf_record {s : State} (src loc : Word) (h : s.mem.wf = true) : (s.record src loc).mem.wf = true := by
  rw [record_mem]
  exact h

theorem wf_recordAll (f : Nat → Word × Word) (ks : List Nat) {s : State} (h : s.mem.wf = true) :
    (ks.foldl (fun (s : State) k => s.record (f k).1 (f k).2) s).mem.wf = true :=
  wf_foldl (fun _ k ht => wf_record (f k).1 (f k).2 ht) ks h

theorem wf_execFairnessGrant (c w : Nat) {s : State} (h : s.mem.wf = true) : NextWf (execFairnessGrant c w s) := by
  refine wf_onWarp c w h fun x w => ?_
  split <;> exact h

theorem wf_execGrantEnd (c w : Nat) {s : State} (h : s.mem.wf = true) : NextWf (execGrantEnd c w s) := by
  refine wf_onWarp c w h fun x w => ?_
  split <;> exact h

theorem wf_execSpinWatchdog {s : State} (h : s.mem.wf = true) : NextWf (execSpinWatchdog s) := by
  show Memory.wf (State.mem _) = true
  split
  · exact h
  · rename_i env hopen
    split
    · rw [takeTrap_mem, openIssue_dev hopen]
      exact h
    · exact h

theorem wf_execWjoinExpire (c w : Nat) (pc : PC) {s : State} (h : s.mem.wf = true) : NextWf (execWjoinExpire c w pc s) := by
  refine wf_onWarp c w h fun x w => ?_
  split
  · split <;> exact h
  · exact h

theorem wf_execRgrowGrant (c part : Nat) {s : State} (h : s.mem.wf = true) : NextWf (execRgrowGrant c part s) := by
  show Memory.wf (State.mem _) = true
  split
  · exact h
  · split
    · exact h
    · dsimp only
      split <;> exact h

theorem wf_execNapEnd (c w : Nat) {s : State} (h : s.mem.wf = true) : NextWf (execNapEnd c w s) := by
  refine wf_onWarp c w h fun x w => ?_
  split <;> exact h

theorem wf_execResultReturn (c id : Nat) {s : State} (h : s.mem.wf = true) : NextWf (execResultReturn c id s) := by
  show Memory.wf (State.mem _) = true
  split
  · exact h
  · split
    · exact h
    · rw [returnResult_mem]
      exact h

theorem wf_endWait {s : State} (x : Context) (w : Warp) (met : Bool) (h : s.mem.wf = true) : (endWait s x w met).mem.wf = true := by
  unfold endWait
  extract_lets go
  have hgo (t : State) (d : BitVec 8) (scope : Nat) (act : Mask) (ht : t.mem.wf = true) : (go t d scope act).mem.wf = true := by
    dsimp only [go]
    split <;> exact ht
  split
  · exact hgo _ _ _ _ (wf_sawWord x w _ h)
  · exact hgo _ _ _ _ h
  · exact h

theorem wf_execWaitConditionMet (c u : Nat) {s : State} (h : s.mem.wf = true) : NextWf (execWaitConditionMet c u s) := by
  show Memory.wf (State.mem _) = true
  split
  · exact h
  · split
    · exact h
    · split
      · split
        · exact h
        · split
          · exact wf_endWait _ _ _ h
          · exact wf_testPark _ _ _ h
      · exact h

theorem wf_execWaitExpire (c u : Nat) {s : State} (h : s.mem.wf = true) : NextWf (execWaitExpire c u s) := by
  show Memory.wf (State.mem _) = true
  split
  · exact h
  · split
    · exact h
    · split
      · dsimp only
        split
        · exact wf_endWait _ _ _ h
        · exact h
      · exact h

theorem wf_execAmovvReadout (c u : Nat) {s : State} (h : s.mem.wf = true) : NextWf (execAmovvReadout c u s) := by
  show Memory.wf (State.mem _) = true
  split
  · exact h
  · split
    · exact h
    · split
      · dsimp only
        split
        · exact h
        · split <;> exact h
      · exact h

/-! ### Accesses -/

theorem wf_execFenceComplete (c u : Nat) {s : State} (h : s.mem.wf = true) : NextWf (execFenceComplete c u s) := by
  show Memory.wf (State.mem _) = true
  split
  · exact h
  · split
    · exact h
    · split
      · split
        · exact h
        · extract_lets t xr xa
          have ht : t.mem.wf = true := by
            dsimp only [t]
            split <;> exact h
          clear_value t
          split
          · rw [fenceTrap_mem]
            exact ht
          · split
            · rw [fenceTrap_mem]
              exact ht
            · exact ht
      · exact h

theorem wf_failAccess {s : State} (x : Context) (a : Access) (h : s.mem.wf = true) : (failAccess s x a).mem.wf = true := by
  rw [failAccess_mem]
  exact h

theorem wf_execRemoteAccessFail (c id : Nat) {s : State} (h : s.mem.wf = true) : NextWf (execRemoteAccessFail c id s) := by
  show Memory.wf (State.mem _) = true
  split
  · exact h
  · split
    · exact h
    · split
      · exact wf_failAccess _ _ h
      · exact h

theorem wf_execMcastMemberTimeout (c id member : Nat) (answered : Bool) {s : State} (h : s.mem.wf = true) :
    NextWf (execMcastMemberTimeout c id member answered s) := by
  show Memory.wf (State.mem _) = true
  split
  · exact h
  · split
    · exact h
    · split
      · split
        · exact h
        · split
          · exact wf_goAccess c id false h
          · exact wf_failAccess _ _ h
      · exact h

/-! ### Cards -/

theorem wf_execJpostAccept (c cl ch : Nat) {s : State} (h : s.mem.wf = true) : NextWf (execJpostAccept c cl ch s) := by
  show Memory.wf (State.mem _) = true
  split
  · exact h
  · split
    · exact h
    · split <;> exact h

theorem wf_execChainCardAccept (c cl ch : Nat) {s : State} (h : s.mem.wf = true) : NextWf (execChainCardAccept c cl ch s) := by
  show Memory.wf (State.mem _) = true
  split
  · exact h
  · rename_i x _
    split
    · exact h
    · split
      · exact h
      · rename_i a _
        extract_lets e next read
        have hread : read.mem.wf = true := wf_touchLeaf x (tlbCluster cl) a false h
        clear_value read
        split
        · exact h
        · split
          · exact h
          · exact wf_recordAll (badRecord 0x02) _ h
          · split
            · exact hread
            · exact wf_engStore x e (a + 12) 4 _ hread

theorem wf_execCardStart (c id : Nat) {s : State} (h : s.mem.wf = true) : NextWf (execCardStart c id s) := by
  show Memory.wf (State.mem _) = true
  split
  · exact h
  · split
    · exact h
    · extract_lets ended
      clear_value ended
      split
      · exact h
      · split
        · exact h
        · exact wf_begin _ _ _ h

theorem wf_execLoopIterationStart (c id : Nat) {s : State} (h : s.mem.wf = true) : NextWf (execLoopIterationStart c id s) := by
  show Memory.wf (State.mem _) = true
  split
  · exact h
  · split
    · exact h
    · dsimp only
      split
      · exact h
      · exact wf_begin _ _ _ h

theorem wf_execCardLineWritten (c id line : Nat) {s : State} (h : s.mem.wf = true) : NextWf (execCardLineWritten c id line s) := by
  show Memory.wf (State.mem _) = true
  split
  · exact h
  · rename_i x _
    split
    · exact h
    · rename_i k _
      extract_lets key z y
      have hz : z.dev.mem.wf = true := wf_runRange x k _ _ h
      clear_value z
      split
      · exact h
      · split
        · split <;> exact hz
        · exact hz

theorem wf_execCardChunkDone (c id n : Nat) {s : State} (h : s.mem.wf = true) : NextWf (execCardChunkDone c id n s) := by
  show Memory.wf (State.mem _) = true
  split
  · exact h
  · rename_i x _
    split
    · exact h
    · rename_i k _
      extract_lets a z
      have hz : z.dev.mem.wf = true := wf_runRange x k _ _ h
      clear_value z
      split
      · exact h
      · split
        · split
          · exact hz
          · exact wf_endChunk z.ctx z.card n hz
        · exact hz

theorem wf_execCardComplete (c id : Nat) {s : State} (h : s.mem.wf = true) : NextWf (execCardComplete c id s) := by
  show Memory.wf (State.mem _) = true
  split
  · exact h
  · rename_i x _
    split
    · exact h
    · rename_i k _
      have hrun (p : CardItem → Bool) : (k.run s x p).dev.mem.wf = true := wf_run x k p h
      split
      · exact h
      · split
        · extract_lets z
          have hz : z.dev.mem.wf = true := by
            dsimp only [z]
            split
            · exact hrun _
            · exact h
          clear_value z
          split
          · exact hz
          · exact wf_finish _ _ _ hz
        · split
          · exact h
          · split
            · split
              · exact h
              · exact hrun _
            · extract_lets z y
              have hz : z.dev.mem.wf = true := hrun _
              clear_value z
              split
              · exact hz
              · exact wf_finish _ _ _ hz
              · exact wf_finish _ _ _ hz

/-! ### The matrix engine -/

theorem wf_execMmaComplete (c id : Nat) {s : State} (h : s.mem.wf = true) : NextWf (execMmaComplete c id s) := by
  show Memory.wf (State.mem _) = true
  split
  · exact h
  · split
    · exact h
    · split
      · exact h
      · split
        · exact wf_multiply _ _ _ h
        · exact h

theorem wf_execAstoComplete (c id : Nat) {s : State} (h : s.mem.wf = true) : NextWf (execAstoComplete c id s) := by
  show Memory.wf (State.mem _) = true
  split
  · exact h
  · rename_i x _
    split
    · exact h
    · rename_i o _
      split
      · exact h
      · extract_lets w zero out z touched
        have hz : z.1.mem.wf = true := wf_engWriteAll _ _ _ _ _ h
        have htouched : touched.mem.wf = true := wf_touchWindow x o.seat w true hz
        clear_value touched z
        split
        · exact h
        · split
          · exact h
          · dsimp only
            split <;> exact htouched

theorem wf_execAldrComplete (c id : Nat) {s : State} (h : s.mem.wf = true) : NextWf (execAldrComplete c id s) := by
  show Memory.wf (State.mem _) = true
  split
  · exact h
  · rename_i x _
    split
    · exact h
    · rename_i o _
      split
      · exact h
      · split
        · exact h
        · extract_lets w f r
          clear_value r
          split
          · exact h
          · have hnoted : (noteOperand s x o o.da w).mem.wf = true := by
              rw [noteOperand_mem]
              exact h
            exact wf_touchWindow x o.seat w false hnoted

/-! ### Barriers and broadcasts -/

theorem wf_passBarrier {s : State} (c u : Nat) (this : Park → Bool) (h : s.mem.wf = true) : (s.passBarrier c u this).mem.wf = true := by
  rw [passBarrier_mem]
  exact h

theorem wf_execBsyncRelease (c die ch : Nat) {s : State} (h : s.mem.wf = true) : NextWf (execBsyncRelease c die ch s) := by
  show Memory.wf (State.mem _) = true
  split
  · exact h
  · split
    · exact h
    · split
      · exact h
      · exact wf_foldl (fun _ u ht => wf_passBarrier c u _ ht) _ h

theorem wf_execBarrRelease (c blk id : Nat) {s : State} (h : s.mem.wf = true) : NextWf (execBarrRelease c blk id s) := by
  show Memory.wf (State.mem _) = true
  split
  · exact h
  · split
    · exact h
    · split
      · exact h
      · split
        · exact h
        · exact wf_foldl (fun _ u ht => wf_passBarrier c u _ ht) _ h

theorem wf_execBcastArrive (c id : Nat) {s : State} (h : s.mem.wf = true) : NextWf (execBcastArrive c id s) := by
  show Memory.wf (State.mem _) = true
  split
  · exact h
  · split
    · exact h
    · split <;> exact h

/-! ### Messages -/

theorem wf_grant {s : State} (z : Sending) (h : s.mem.wf = true) : (s.grant z).mem.wf = true := by
  rw [grant_mem]
  exact h

theorem wf_execReservationGrant (pkg die : Nat) {s : State} (h : s.mem.wf = true) : NextWf (execReservationGrant pkg die s) := by
  show Memory.wf (State.mem _) = true
  split
  · exact h
  · rename_i z _
    split
    · exact h
    · split
      · split
        · exact h
        · rename_i t m' hread
          have hread' : t.mem.wf = true := wf_readPiece hread h
          exact wf_grant z hread'
      · exact wf_grant z h

theorem wf_execMsendComplete (c u : Nat) {s : State} (h : s.mem.wf = true) : NextWf (execMsendComplete c u s) := by
  show Memory.wf (State.mem _) = true
  split
  · exact h
  · split
    · exact h
    · split
      · split <;> exact h
      · exact h

theorem wf_meet {s : State} (m : Held) (h : s.mem.wf = true) : (s.meet m).mem.wf = true := by
  rw [meet_mem]
  exact h

theorem wf_execMessageMatch (die : Nat) (a : Arrival) {s : State} (h : s.mem.wf = true) : NextWf (execMessageMatch die a s) := by
  show Memory.wf (State.mem _) = true
  split
  · exact h
  · cases a with
    | own id =>
      dsimp only
      split
      · exact h
      · split
        · exact h
        · split
          · exact h
          · split
            · exact h
            · exact wf_meet _ h
    | remote m =>
      dsimp only
      split
      · exact h
      · split
        · exact h
        · exact wf_meet _ h

theorem wf_nextPiece {s : State} (m : Held) (h : s.mem.wf = true) : (s.nextPiece m).mem.wf = true := by
  rw [nextPiece_mem]
  exact h

theorem wf_settleQueue {s : State} (die rxid : Nat) (h : s.mem.wf = true) : (s.settleQueue die rxid).mem.wf = true := by
  rw [settleQueue_mem]
  exact h

theorem wf_execPieceLand (die id : Nat) {s : State} (h : s.mem.wf = true) : NextWf (execPieceLand die id s) := by
  show Memory.wf (State.mem _) = true
  split
  · exact h
  · rename_i m _
    split
    · exact h
    · rename_i r _
      split
      · exact h
      · rename_i x _
        split
        · exact h
        · split
          · exact wf_settleRed x r h
          · split
            · exact wf_nextPiece m h
            · extract_lets step m' held returned
              have hreturned : returned.mem.wf = true := by
                dsimp only [returned]
                split <;> exact h
              clear_value returned
              split
              · exact wf_nextPiece m' hreturned
              · split
                · exact wf_settleQueue _ _ hreturned
                · exact wf_landOne x r m' hreturned

theorem wf_execActiveMessageDeliver (die : Nat) (m : ActiveArrival) {s : State} (h : s.mem.wf = true) :
    NextWf (execActiveMessageDeliver die m s) := by
  show Memory.wf (State.mem _) = true
  split
  · exact h
  · cases m with
    | own id =>
      dsimp only
      split
      · split
        · exact wf_retryActive _ h
        · exact h
      · split
        · exact h
        · split
          · exact h
          · split
            · exact h
            · rename_i t hdelivered
              have hdelivered' : t.mem.wf = true := wf_deliverActive hdelivered h
              exact hdelivered'
    | remote a =>
      dsimp only
      split
      · exact h
      · exact wf_arriveActive die a h

theorem wf_execLandfaultEntryFree (die id : Nat) {s : State} (h : s.mem.wf = true) : NextWf (execLandfaultEntryFree die id s) := by
  show Memory.wf (State.mem _) = true
  split
  · exact h
  · exact wf_settleQueue _ _ h

/-! ### Launches -/

theorem wf_execHostDoorbell (c slot : Nat) (ring : Doorbell) {s : State} (h : s.mem.wf = true) :
    NextWf (execHostDoorbell c slot ring s) := by
  have hwritten : (s.hostWrites c ring.before).mem.wf = true := wf_hostWrites c ring.before h
  show Memory.wf (State.mem _) = true
  split
  · exact h
  · split
    · exact hwritten
    · split
      · exact hwritten
      · split
        · split <;> exact hwritten
        · exact hwritten

theorem wf_execLaunchAccept (c : Nat) {s : State} (h : s.mem.wf = true) : NextWf (execLaunchAccept c s) := by
  show Memory.wf (State.mem _) = true
  split
  · exact h
  · rename_i x _
    split
    · exact h
    · rename_i b _ _
      extract_lets v cpl q touched
      have htouched : touched.mem.wf = true := wf_touchRecord x b v.1 v.2 h
      split
      · exact h
      · clear_value cpl
        split
        · exact h
        · exact wf_iteState h (wf_refuse x b cpl _ htouched)
        · rename_i r slots handlers _
          exact wf_iteState (s := touched.install c (r.entry :: handlers)) htouched htouched

theorem wf_execBlockAdmit (c die : Nat) {s : State} (h : s.mem.wf = true) : NextWf (execBlockAdmit c die s) := by
  show Memory.wf (State.mem _) = true
  split
  · exact h
  · split
    · exact h
    · split
      · exact h
      · rename_i l _
        split
        · exact h
        · split
          · exact h
          · exact wf_foldl (fun _ p ht => wf_startBlock c l _ ht) _ h

theorem wf_execStageBlockDispatch (c die stage : Nat) {s : State} (h : s.mem.wf = true) :
    NextWf (execStageBlockDispatch c die stage s) := by
  show Memory.wf (State.mem _) = true
  split
  · exact h
  · rename_i x _
    split
    · exact h
    · extract_lets can
      clear_value can
      split
      · exact h
      · exact wf_startBlock c _ _ h

theorem wf_execCoreReassign (c core : Nat) {s : State} (h : s.mem.wf = true) : NextWf (execCoreReassign c core s) := by
  show Memory.wf (State.mem _) = true
  split
  · exact h
  · split <;> exact h

theorem wf_execLaunchComplete (c q : Nat) {s : State} (h : s.mem.wf = true) : NextWf (execLaunchComplete c q s) := by
  show Memory.wf (State.mem _) = true
  split
  · exact h
  · rename_i l0 _
    extract_lets stopped
    have hstopped : stopped.mem.wf = true := by
      dsimp only [stopped]
      split
      · exact wf_stopLaunch c q h
      · exact h
    clear_value stopped
    split
    · exact hstopped
    · rename_i x _
      split
      · exact hstopped
      · rename_i l _
        split
        · exact hstopped
        · extract_lets drained dropped word
          have hdrained : drained.mem.wf = true := wf_drainGone x hstopped
          have hdropped : dropped.mem.wf = true := by
            refine wf_iteState ?_ hdrained
            rw [dropReceives_mem]
            exact hdrained
          clear_value drained
          split
          · exact hdrained
          · rename_i y _
            extract_lets stored
            have hstored : stored.mem.wf = true := wf_iteState hdropped (wf_engStore _ _ _ _ _ hdropped)
            exact wf_iteState hdrained hstored

theorem wf_execLaunchKill (c q : Nat) {s : State} (h : s.mem.wf = true) : NextWf (execLaunchKill c q s) := by
  show Memory.wf (State.mem _) = true
  split <;> exact h

/-! ### Contexts -/

theorem wf_execSliceExpire (c : Nat) {s : State} (h : s.mem.wf = true) : NextWf (execSliceExpire c s) := by
  show Memory.wf (State.mem _) = true
  split
  · exact h
  · split
    · exact h
    · split <;> exact h

theorem wf_execPreemptSignal (c w : Nat) {s : State} (h : s.mem.wf = true) : NextWf (execPreemptSignal c w s) := by
  refine wf_onWarp c w h fun x w => ?_
  extract_lets due reading
  split <;> exact h

theorem wf_execForcedStop (c w : Nat) {s : State} (h : s.mem.wf = true) : NextWf (execForcedStop c w s) := by
  refine wf_onWarp c w h fun x w => ?_
  extract_lets due
  split <;> exact h

theorem wf_execContextIdleExchange (c : Nat) {s : State} (h : s.mem.wf = true) : NextWf (execContextIdleExchange c s) := by
  show Memory.wf (State.mem _) = true
  split
  · exact h
  · split <;> exact h

theorem wf_resumeContext {s : State} (c : Nat) (h : s.mem.wf = true) : (resumeContext s c).mem.wf = true := by
  rw [resumeContext_mem]
  exact h

theorem wf_execContextExchange (c : Nat) {s : State} (h : s.mem.wf = true) : NextWf (execContextExchange c s) := by
  show Memory.wf (State.mem _) = true
  split
  · exact h
  · split
    · split
      · exact wf_resumeContext c h
      · exact h
    · split
      · exact h
      · extract_lets settled
        have hsettled : settled.mem.wf = true := wf_settleWarps c h
        clear_value settled
        split
        · exact hsettled
        · split
          · exact hsettled
          · exact wf_resumeContext _ hsettled

theorem wf_execContextCreate (p : CtxParams) {s : State} (h : s.mem.wf = true) : NextWf (execContextCreate p s) := by
  show Memory.wf (s.create p).mem = true
  rw [create_mem]
  exact h

theorem wf_execContextEnd (c : Nat) {s : State} (h : s.mem.wf = true) : NextWf (execContextEnd c s) := by
  show Memory.wf (State.mem _) = true
  split
  · exact h
  · rename_i x _
    split
    · exact h
    · have hdropped : ((s.dropReceives (fun r => r.ctx = c)).dropHeld x.p.rxid x.p.dies).mem.wf = true := by
        rw [dropHeld_mem, dropReceives_mem]
        exact h
      exact wf_filter _ hdropped

theorem wf_execTenantRotation (c : Nat) (inward : Bool) {s : State} (h : s.mem.wf = true) : NextWf (execTenantRotation c inward s) := by
  show Memory.wf (State.mem _) = true
  split
  · exact h
  · dsimp only
    split
    · split <;> exact h
    · split <;> exact h

/-! ### Pages -/

/-- The trap of a fetch, and of any other entry that traps before it issues, leaves memory as it is. -/
theorem wf_fetchTrap {s : State} (c u : Nat) (cause : Cause) (recs : List (Word × Word)) (told : List Word) (h : s.mem.wf = true) :
    (fetchTrap s c u cause recs told).mem.wf = true := by
  unfold fetchTrap
  split
  · exact h
  · rename_i env hopen
    have henv : env.dev.mem.wf = true := by
      rw [openIssue_dev hopen]
      exact h
    exact wf_settle .plain henv trivial

theorem wf_execFetchFaultSwap (c w : Nat) {s : State} (h : s.mem.wf = true) : NextWf (execFetchFaultSwap c w s) := by
  refine wf_onWarp c w h fun x w => ?_
  extract_lets ready
  split
  · split
    · exact wf_swapOut _ _ _ h
    · exact h
  · exact h

theorem wf_execBlockSwapIn (c blk : Nat) (r : DriverReply) {s : State} (h : s.mem.wf = true) : NextWf (execBlockSwapIn c blk r s) := by
  show Memory.wf (State.mem _) = true
  split
  · exact h
  · rename_i x _
    split
    · exact h
    · rename_i b _
      split
      · exact h
      · split
        · exact h
        · extract_lets moved
          have hmoved : moved.mem.wf = true := wf_moveBytes c _ _ _ h
          cases r with
          | mapped ptes hw => exact wf_writePtes ptes hmoved
          | refused => exact wf_fetchTrap _ _ _ _ _ hmoved

theorem wf_execDemandPaging (c w : Nat) (r : DriverReply) {s : State} (h : s.mem.wf = true) : NextWf (execDemandPaging c w r s) := by
  refine wf_onWarp c w h fun x w => ?_
  split
  · exact h
  · split
    · cases r with
      | mapped ptes hw => exact wf_writePtes ptes h
      | refused => exact h
    · exact h

theorem wf_execPageMigration (die c va pfn : Nat) (ok : Bool) {s : State} (h : s.mem.wf = true) :
    NextWf (execPageMigration die c va pfn ok s) := by
  show Memory.wf (State.mem _) = true
  split
  · exact h
  · split
    · rename_i e level at_ _
      extract_lets n pageCtx mine count src dst again bad
      split
      · exact h
      · split
        · exact h
        · split
          · exact wf_recordAll (badRecord 0x02) _ h
          · split
            · exact h
            · exact wf_writeBytes _ _ _ (wf_copyBytes src (keyHbm dst) n h)
    · dsimp only
      split
      · rw [recordKeys_mem]
        exact h
      · exact h
    · exact h

theorem wf_execTlbShootdown (c va : Nat) {s : State} (h : s.mem.wf = true) : NextWf (execTlbShootdown c va s) := by
  show Memory.wf (State.mem _) = true
  split <;> exact h

/-! ### The package -/

theorem wf_execErrorCorrected (e : ErrorEvent) {s : State} (h : s.mem.wf = true) : NextWf (execErrorCorrected e s) := by
  show Memory.wf (State.mem _) = true
  split
  · exact wf_record _ _ h
  · exact h

theorem wf_execUncorrectableError (e : ErrorEvent) {s : State} (h : s.mem.wf = true) : NextWf (execUncorrectableError e s) := by
  show Memory.wf (State.mem _) = true
  split
  · rw [spoil_mem]
    exact wf_record _ _ h
  · exact h

theorem wf_execJapWrite (v : Nat) {s : State} (h : s.mem.wf = true) : NextWf (execJapWrite v s) := by
  show Memory.wf (State.mem _) = true
  split <;> exact h

theorem wf_execNfeatWrite (v : Word) {s : State} (h : s.mem.wf = true) : NextWf (execNfeatWrite v s) := by
  show Memory.wf (State.mem _) = true
  split
  · dsimp only
    split <;> exact h
  · exact h

theorem wf_execFunctionReady (bit : Nat) {s : State} (h : s.mem.wf = true) : NextWf (execFunctionReady bit s) := by
  show Memory.wf (State.mem _) = true
  extract_lets port
  split <;> exact h

theorem wf_execPortDead (k : Nat) {s : State} (h : s.mem.wf = true) : NextWf (execPortDead k s) := by
  show Memory.wf (State.mem _) = true
  split
  · exact h
  · have hfailed (src : Word) : ((s.record src 0).failPort k).mem.wf = true := by
      rw [failPort_mem]
      exact wf_record src 0 h
    exact hfailed _

theorem wf_execPortRetrain (k : Nat) {s : State} (h : s.mem.wf = true) : NextWf (execPortRetrain k s) := by
  show Memory.wf (State.mem _) = true
  split <;> exact h

theorem wf_execFatalFaultRecovery (r : RecoveryPlan) {s : State} (h : s.mem.wf = true) : NextWf (execFatalFaultRecovery r s) := by
  show Memory.wf (State.mem _) = true
  extract_lets left
  split
  · exact wf_record _ _ h
  · split
    · exact h
    · split
      · exact h
      · rw [postAll_mem]
        exact wf_restore r (wf_takeOver r h)

theorem wf_execFsvRaise (v : Nat) {s : State} (h : s.mem.wf = true) : NextWf (execFsvRaise v s) := by
  show Memory.wf (State.mem _) = true
  split <;> exact h

theorem wf_execSupplyDroop (die extra : Nat) {s : State} (h : s.mem.wf = true) : NextWf (execSupplyDroop die extra s) := by
  show Memory.wf (State.mem _) = true
  extract_lets old now add
  split <;> exact h

theorem wf_execAttestationRequest (nonce : Word) {s : State} (h : s.mem.wf = true) : NextWf (execAttestationRequest nonce s) := by
  show Memory.wf (State.mem _) = true
  split <;> exact h

end Sys2Proof.MemoryForm
end


section
/-! PROOFS. Every step keeps the canonical form of memory. -/

namespace Sys2Proof.MemoryForm

open Sys2Proof Machine Laws

/-! ### Instructions and events -/

theorem wf_execCsrwFres (r : RI) {s : State} (h : s.mem.wf = true) : NextWf (execCsrwFres r s) :=
  wf_issue h rfl fun _ he => wf_ite he trivial

theorem wf_execPdone (r : RRR) {s : State} (h : s.mem.wf = true) : NextWf (execPdone r s) :=
  wf_issue h rfl fun _ he => wf_ite he trivial

theorem wf_execFwcallVersion (r : I32) {s : State} (h : s.mem.wf = true) : NextWf (execFwcallVersion r s) :=
  wf_issue h rfl fun _ he => wf_ite he trivial

/-- Every instruction and every event of the model. -/
theorem wf_exec (i : Instr) {s : State} (h : s.mem.wf = true) : NextWf (exec i s) := by
  cases i with
  | nop _ | bra _ | bruAny _ | wjoin _ | yield _ | prioImm _ | prioReg _ | sadd _ | ssub _ | smul _ | smulh _ | sand _ | sor _
  | sxor _ | sshl _ | sshr _ | ssra _ | smin _ | smax _ | saddi _ | sldi _ | sldhi _ | scmp _ | ssel _ | sget _ | sgetFirst _
  | vbc _ | iadd _ | isub _ | imul _ | imulh _ | imad _ | iand _ | ior _ | ixor _ | ishl _ | ishr _ | isra _ | imin _ | imax _
  | icmp _ | isel _ | iselM _ | ipopc _ | iclz _ | ibfe _ | ibfi _ | lea _ | iaddi _ | iandi _ | iori _ | ixori _ | ishli _
  | ishri _ | icmpi _ | icmpm _ | mov _ | movi _ | moviHi _ | fmin _ | fmax _ | fclass _ | fpack _ | shfl _ | shflud _ | vote _
  | matchEq _ | mrank _ | mlead _ | elect _ | plog _ | pmov _ | pmovSet _ | pbal _ | redux _ | scan _ | fence _ | aqry _
  | fdrr _ | fwcallCapability _ | fwcallJournal _ =>
    exact wf_issueFrame h rfl fun _ => rfl
  | trap _ | bkpt _ => exact wf_issue h rfl fun _ _ => trivial
  | napImm _ | napReg _ => exact wf_issueFrame h rfl fun env => nap_dev env _
  | fadd _ | fsub _ | fmul _ | fdiv _ | fsqrt _ | frcp _ | frsq _ | fexp2 _ | flog2 _ | ffma _ | faddi _ | fmuli _ | ffmai _
  | fscale _ =>
    exact wf_issue h rfl fun _ he => wf_slotMap _ _ _ _ _ he
  | fabsn _ | frnd _ | fsum _ | fdot _ | scanFadd _ => exact wf_issue h rfl fun _ he => wf_encodeLanes _ _ _ _ _ he
  | fcvt _ | ftoi _ | itof _ | fbscl _ =>
    exact wf_issueThen h (starts_noEffect _ _ _ _ _) (fun _ he => wf_convert _ _ _ _ _ _ _ _ he) fun _ ht => ht
  | ld _ | lds _ | ldv _ | ldacq _ | ldpv _ => exact wf_issue h rfl fun _ he => wf_load _ _ _ he
  | ld2 _ | ldp _ | ldu _ | st2 _ | stp _ | stu _ | acas _ => exact wf_issue h rfl fun _ he => wf_makeAccess _ _ _ _ he
  | st _ | sts _ | stv _ | strel _ | stpv _ => exact wf_issue h rfl fun _ he => wf_store _ _ _ he
  | mst _ | msto _ => exact wf_issue h rfl fun _ he => wf_multicast _ _ he
  | atom _ | atoms _ | atomv _ => exact wf_issue h rfl fun _ he => wf_atomic _ _ _ he
  | sinv _ | sinvSet _ => exact wf_issue h rfl fun _ he => wf_sinv _ _ he
  | mma _ | mmaCo _ | mmas _ | mmasCo _ => exact wf_issue h rfl fun _ he => wf_mma _ he
  | gtake _ | gtakeLn _ => exact wf_issue h rfl fun _ he => wf_gtake _ _ he
  | csrwCtx _ | csrwFairt _ | csrwFairq _ | csrwWdog _ | csrwGencfg _ => exact wf_issue h rfl fun _ he => wf_writeCsr _ _ _ he
  | eret _ | eretNext _ => exact wf_eretWith h
  | hadd _ | hmul _ | hfma _ | bhadd _ | bhmul _ | bhfma _ => exact wf_retiredIssue h fun _ he => he
  | reset | powerLoss => exact wf_restart s
  | bruAll _ => exact wf_execBruAll _ h
  | brx _ => exact wf_execBrx _ h
  | call _ => exact wf_execCall _ h
  | callx _ => exact wf_execCallx _ h
  | ret _ => exact wf_issue h rfl fun _ he => wf_ret he
  | exit _ => exact wf_execExit _ h
  | fcmp _ => exact wf_execFcmp _ h
  | shflx _ => exact wf_execShflx _ h
  | fredx _ => exact wf_execFredx _ h
  | pfetch _ => exact wf_issueDone h rfl fun _ he => wf_prefetch _ he
  | ldg _ => exact wf_execLdg _ h
  | stsc _ => exact wf_execStsc _ h
  | fatom _ => exact wf_execFatom _ h
  | jpost _ => exact wf_execJpost _ h
  | chsetRing _ => exact wf_execChsetRing _ h
  | chsetChain _ => exact wf_execChsetChain _ h
  | twait _ => exact wf_execTwait _ h
  | sqwait _ => exact wf_execSqwait _ h
  | presq _ => exact wf_execPresq _ h
  | tdesc _ => exact wf_execTdesc _ h
  | tmod _ => exact wf_execTmod _ h
  | jcancel _ => exact wf_execJcancel _ h
  | qpush _ => exact wf_execQpush _ h
  | azero _ => exact wf_execAzero _ h
  | arel _ => exact wf_execArel _ h
  | asto _ => exact wf_execAsto _ h
  | aldr _ => exact wf_execAldr _ h
  | amovv _ => exact wf_execAmovv _ h
  | bsync _ => exact wf_execBsync _ h
  | barr _ => exact wf_execBarr _ h
  | bcast _ => exact wf_execBcast _ h
  | brecv _ => exact wf_execBrecv _ h
  | msend _ => exact wf_execMsend _ h
  | mpost _ => exact wf_issue h rfl fun _ he => wf_mpost _ _ he
  | mtest _ => exact wf_execMtest _ h
  | mprobe _ => exact wf_execMprobe _ h
  | mcancel _ => exact wf_execMcancel _ h
  | asend _ => exact wf_execAsend _ h
  | gen _ => exact wf_execGen _ h
  | yld _ => exact wf_execYld _ h
  | gdone _ => exact wf_execGdone _ h
  | gnext _ => exact wf_execGnext _ h
  | launch _ => exact wf_execLaunch _ h
  | fdrw _ => exact wf_execFdrw _ h
  | csrr _ => exact wf_execCsrr _ h
  | csrw _ => exact wf_execCsrw _ h
  | sreg _ => exact wf_execSreg _ h
  | rgrow _ => exact wf_execRgrow _ h
  | rshrk _ => exact wf_execRshrk _ h
  | barw _ => exact wf_execBarw _ h
  | ldtex _ => exact wf_execLdtex _ h
  | unassignedOpcode _ => exact wf_execUnassignedOpcode _ h
  | fairnessGrant _ _ => exact wf_execFairnessGrant _ _ h
  | grantEnd _ _ => exact wf_execGrantEnd _ _ h
  | spinWatchdog => exact wf_execSpinWatchdog h
  | wjoinExpire _ _ _ => exact wf_execWjoinExpire _ _ _ h
  | rgrowGrant _ _ => exact wf_execRgrowGrant _ _ h
  | napEnd _ _ => exact wf_execNapEnd _ _ h
  | resultReturn _ _ => exact wf_execResultReturn _ _ h
  | waitConditionMet _ _ => exact wf_execWaitConditionMet _ _ h
  | waitExpire _ _ => exact wf_execWaitExpire _ _ h
  | accessPerform _ _ _ => exact wf_goAccess _ _ _ h
  | fenceComplete _ _ => exact wf_execFenceComplete _ _ h
  | remoteAccessFail _ _ => exact wf_execRemoteAccessFail _ _ h
  | jpostAccept _ _ _ => exact wf_execJpostAccept _ _ _ h
  | chainCardAccept _ _ _ => exact wf_execChainCardAccept _ _ _ h
  | cardStart _ _ => exact wf_execCardStart _ _ h
  | loopIterationStart _ _ => exact wf_execLoopIterationStart _ _ h
  | cardLineWritten _ _ _ => exact wf_execCardLineWritten _ _ _ h
  | cardChunkDone _ _ _ => exact wf_execCardChunkDone _ _ _ h
  | cardComplete _ _ => exact wf_execCardComplete _ _ h
  | mmaComplete _ _ => exact wf_execMmaComplete _ _ h
  | astoComplete _ _ => exact wf_execAstoComplete _ _ h
  | aldrComplete _ _ => exact wf_execAldrComplete _ _ h
  | amovvReadout _ _ => exact wf_execAmovvReadout _ _ h
  | bsyncRelease _ _ _ => exact wf_execBsyncRelease _ _ _ h
  | barrRelease _ _ _ => exact wf_execBarrRelease _ _ _ h
  | bcastArrive _ _ => exact wf_execBcastArrive _ _ h
  | reservationGrant _ _ => exact wf_execReservationGrant _ _ h
  | msendComplete _ _ => exact wf_execMsendComplete _ _ h
  | messageMatch _ _ => exact wf_execMessageMatch _ _ h
  | pieceLand _ _ => exact wf_execPieceLand _ _ h
  | activeMessageDeliver _ _ => exact wf_execActiveMessageDeliver _ _ h
  | mcastMemberTimeout _ _ _ _ => exact wf_execMcastMemberTimeout _ _ _ _ h
  | hostDoorbell _ _ _ => exact wf_execHostDoorbell _ _ _ h
  | launchAccept _ => exact wf_execLaunchAccept _ h
  | blockAdmit _ _ => exact wf_execBlockAdmit _ _ h
  | stageBlockDispatch _ _ _ => exact wf_execStageBlockDispatch _ _ _ h
  | coreReassign _ _ => exact wf_execCoreReassign _ _ h
  | launchComplete _ _ => exact wf_execLaunchComplete _ _ h
  | launchKill _ _ => exact wf_execLaunchKill _ _ h
  | sliceExpire _ => exact wf_execSliceExpire _ h
  | preemptSignal _ _ => exact wf_execPreemptSignal _ _ h
  | forcedStop _ _ => exact wf_execForcedStop _ _ h
  | contextIdleExchange _ => exact wf_execContextIdleExchange _ h
  | contextExchange _ => exact wf_execContextExchange _ h
  | contextCreate _ => exact wf_execContextCreate _ h
  | fetchFaultSwap _ _ => exact wf_execFetchFaultSwap _ _ h
  | blockSwapIn _ _ _ => exact wf_execBlockSwapIn _ _ _ h
  | pageMigration _ _ _ _ _ => exact wf_execPageMigration _ _ _ _ _ h
  | tlbShootdown _ _ => exact wf_execTlbShootdown _ _ h
  | errorCorrected _ => exact wf_execErrorCorrected _ h
  | japWrite _ => exact wf_execJapWrite _ h
  | nfeatWrite _ => exact wf_execNfeatWrite _ h
  | functionReady _ => exact wf_execFunctionReady _ h
  | portDead _ => exact wf_execPortDead _ h
  | portRetrain _ => exact wf_execPortRetrain _ h
  | fatalFaultRecovery _ => exact wf_execFatalFaultRecovery _ h
  | fsvRaise _ => exact wf_execFsvRaise _ h
  | supplyDroop _ _ => exact wf_execSupplyDroop _ _ h
  | contextEnd _ => exact wf_execContextEnd _ h
  | tenantRotation _ _ => exact wf_execTenantRotation _ _ h
  | demandPaging _ _ _ => exact wf_execDemandPaging _ _ _ h
  | uncorrectableError _ => exact wf_execUncorrectableError _ h
  | attestationRequest _ => exact wf_execAttestationRequest _ h
  | landfaultEntryFree _ _ => exact wf_execLandfaultEntryFree _ _ h
  | csrwFres _ => exact wf_execCsrwFres _ h
  | pdone _ => exact wf_execPdone _ h
  | fwcallVersion _ => exact wf_execFwcallVersion _ h

/-! ### The issue of a warp -/

theorem wf_execBadWord (v : Word) (c : Cause) {s : State} (h : s.mem.wf = true) : (execBadWord v c s).mem.wf = true := by
  unfold execBadWord
  split
  · exact h
  · rename_i env hopen
    have henv : env.dev.mem.wf = true := by
      rw [openIssue_dev hopen]
      exact h
    exact wf_settle .plain henv trivial

theorem wf_runWord (v : Word) {s : State} (h : s.mem.wf = true) : NextWf (runWord v s) := by
  unfold runWord
  split
  · exact wf_exec _ h
  · exact wf_execBadWord v _ h

theorem nextWf_next {o : Host.Outcome State Fault Refusal} {t : State} (ho : NextWf o) (hnext : o = .next t) : t.mem.wf = true := by
  rw [hnext] at ho
  exact ho

theorem wf_runFirmware (i : Instr) (q : Nat × Nat) {s : State} (h : s.mem.wf = true) : NextWf (runFirmware i q s) := by
  unfold runFirmware
  have hexec : NextWf (exec i { s with cur := some q }) := wf_exec i h
  split
  · rename_i t hnext
    have ht : t.mem.wf = true := nextWf_next hexec hnext
    show Memory.wf (State.mem _) = true
    split
    · exact wf_onWarp q.1 q.2 ht fun _ _ => ht
    · exact ht
  · exact hexec

theorem wf_issueFirmware (v : Word) (q : Nat × Nat) {s : State} (h : s.mem.wf = true) : NextWf (issueFirmware v q s) := by
  unfold issueFirmware
  split
  · exact wf_runWord v h
  · rename_i i r _
    have hrun : NextWf (runFirmware i q { s with agenda := r }) := wf_runFirmware i q h
    split
    · rename_i t hnext
      have ht : t.mem.wf = true := nextWf_next hrun hnext
      exact wf_iteState (s := { t with agenda := i :: r }) ht ht
    · exact hrun

theorem wf_issueAt (q : Nat × Nat) {s : State} (h : s.mem.wf = true) : NextWf (issueAt s q) := by
  unfold issueAt
  split
  · exact h
  · rename_i x _
    split
    · exact h
    · rename_i w _
      split
      · exact h
      · rename_i e _
        split
        · exact wf_issueFirmware w.finsn q h
        · have hfetched : (fetch s x w e).1.mem.wf = true := wf_fetch x w e h
          split
          · rename_i t v hfetch
            rw [hfetch] at hfetched
            exact wf_runWord v hfetched
          · exact wf_fetchTrap _ _ _ _ _ h
          · exact wf_execFetchFaultSwap _ _ h
          · exact h

theorem wf_issueFirst (part : Nat) (qs : List (Nat × Nat)) {s : State} (h : s.mem.wf = true) : NextWf (issueFirst part qs s) := by
  induction qs generalizing s with
  | nil => exact h
  | cons q r ih =>
    unfold issueFirst
    have hissue : NextWf (issueAt s q) := wf_issueAt q h
    split
    · rename_i t hnext
      have ht : t.mem.wf = true := nextWf_next hissue hnext
      split
      · exact ih ht
      · exact ht
    · exact hissue

/-! ### What happens of itself, and the step -/

theorem wf_happen (i : Instr) {s : State} (h : s.mem.wf = true) : (s.happen i).mem.wf = true := by
  unfold State.happen
  split
  · rename_i t hnext
    exact nextWf_next (wf_exec i h) hnext
  · exact h
  · exact h

theorem wf_happenAll (is : List Instr) {s : State} (h : s.mem.wf = true) : (s.happenAll is).mem.wf = true :=
  wf_foldl (fun _ i ht => wf_happen i ht) is h

theorem wf_endCycle {s : State} (h : s.mem.wf = true) : s.endCycle.mem.wf = true := by
  unfold State.endCycle
  extract_lets worked posted ticked
  have hworked : worked.mem.wf = true := wf_iteState h (wf_happenAll _ h)
  have hposted : posted.mem.wf = true := by
    refine wf_iteState hworked ?_
    rw [postAll_mem]
    exact hworked
  have hbounded : (posted.happenAll (posted.ctxs.flatMap Context.bounds)).refuseAll.mem.wf = true := wf_happenAll _ hposted
  exact wf_happenAll _ (wf_tick hbounded)

theorem wf_runMachine {s : State} (h : s.mem.wf = true) : NextWf (runMachine s) := by
  unfold runMachine
  split
  · exact wf_issueFirst _ _ h
  · exact wf_endCycle h

theorem wf_step {s : State} (h : s.mem.wf = true) : NextWf (step s) := by
  unfold step runStep
  split
  · exact wf_runMachine h
  · rename_i i r _
    split
    · exact wf_exec i (s := { s with agenda := r }) h
    · split
      · exact wf_runMachine h
      · exact wf_runMachine (s := { s with agenda := r }) h

/-- Settles O58: memory changes only where bytes are written, zeroed, moved or dropped, each of which keeps its canonical form
(`wf_exec` for every instruction and event), and a step is made of fetches, instructions and events (`wf_step`). -/
theorem memoryKeepsItsForm : Obligations.MemoryKeepsItsForm := by
  intro s t hwf hstep
  exact nextWf_next (wf_step hwf) hstep

end Sys2Proof.MemoryForm
end

section
/-! PROOFS. What a step of the package runs (R10, R32, R33, R96, R303; log entries 1, 3 and 45). -/

namespace Sys2Proof.StepRuns

open Sys2Proof Machine Laws

/-! ### A word -/

theorem decodeFetched_ok {v : Word} {i : Instr} (h : decodeWord v = .ok i) : decodeFetched v = .ok i := by
  simp only [decodeFetched, h]

theorem runWord_ok {v : Word} {i : Instr} (h : decodeWord v = .ok i) (s : State) : runWord v s = exec i s := by
  simp only [runWord, decodeFetched_ok h]

theorem runWord_error {v : Word} {c : Cause} (h : decodeFetched v = .error c) (s : State) :
    runWord v s = .next (execBadWord v c s) := by
  simp only [runWord, h]

/-! ### The fetch -/

theorem touchLeaf_pick (s : State) (x : Context) (unit va : Nat) (write : Bool) (k : Nat) :
    (touchLeaf s x unit va write).pick k = s.pick k := by
  unfold touchLeaf State.pick
  split <;> rfl

/-- A word whose line is not taken from the instruction cache, in reach and without an error, is read from memory and fills the
line. -/
theorem fetchWord_memory {s : State} {c core k : Nat} {p : Piece} (hcache : s.pick 1 = false) (hreach : s.reachable k = true)
    (hready : keySpace k = 0 → s.hbmReady k = true) (hbad : s.badGranules k 8 = []) :
    fetchWord s c core k p =
      ((s.countMiss c core [p]).fillCopy (2 ^ 32) (.icache core) (k / 128), .word (BitVec.ofNat 64 (readBytes s.mem k 8))) := by
  have hwait : ¬(keySpace k = 0 ∧ s.hbmReady k = false) := fun ⟨hlocal, hnot⟩ => by simp [hready hlocal] at hnot
  simp [fetchWord, hcache, hreach, hwait, hbad]

section
variable {s : State} {x : Context} {w : Warp} {e : Entry} {pte level : Nat} {at_ : Option Nat}
  (hleaf : findLeaf s x (tlbCore (widCoreNo w.wid)) e.pc.toNat false = .leaf pte level at_)
include hleaf

theorem fetch_executable (hexec : pte.testBit 60 = true) :
    fetch s x w e =
      fetchWord (touchLeaf s x (tlbCore (widCoreNo w.wid)) e.pc.toNat false) x.id (widCoreNo w.wid) (leafKey s pte level e.pc.toNat)
        (leafPiece pte level e.pc.toNat (leafKey s pte level e.pc.toNat * 8) 64 0) := by
  simp [fetch, hleaf, hexec]

theorem fetch_permExec (hexec : pte.testBit 60 = false) : fetch s x w e = (s, .trap .permExec [] []) := by
  simp [fetch, hleaf, hexec]
end

/-! ### The attempt of a warp -/

section
variable {s : State} {q : Nat × Nat} {x : Context} {w : Warp} {e : Entry} (hctx : s.ctx? q.1 = some x) (hwarp : x.warp? q.2 = some w)
  (hentry : selectEntry x.prog (w.opened x.prog) = some e)
include hctx hwarp hentry

theorem issueAt_word {t : State} {v : Word} (hmode : w.firmware = false) (hfetch : fetch s x w e = (t, .word v)) :
    issueAt s q = runWord v { t with cur := some q } := by
  simp [issueAt, hctx, hwarp, hentry, hmode, hfetch]

theorem issueAt_trap {t : State} {c : Cause} {recs : List (Word × Word)} {told : List Word} (hmode : w.firmware = false)
    (hfetch : fetch s x w e = (t, .trap c recs told)) : issueAt s q = .next (fetchTrap s q.1 q.2 c recs told) := by
  simp [issueAt, hctx, hwarp, hentry, hmode, hfetch]

theorem issueAt_firmware (hmode : w.firmware = true) : issueAt s q = issueFirmware w.finsn q s := by
  simp [issueAt, hctx, hwarp, hentry, hmode]
end

/-- In firmware mode with an empty agenda, what is left of the word that entered it runs at once. -/
theorem issueFirmware_empty {s : State} (hagenda : s.agenda = []) (v : Word) (q : Nat × Nat) :
    issueFirmware v q s = runWord v { s with cur := some q } := by
  simp only [issueFirmware, hagenda]

/-- An instruction of the handler that heads the agenda leaves it, and its warp keeps its entry, unless the warp must wait again. -/
theorem issueFirmware_agenda {s u : State} {i : Instr} {rest : List Instr} {q : Nat × Nat} {x : Context} {w : Warp}
    (hagenda : s.agenda = i :: rest) (hctx : s.ctx? q.1 = some x) (hwarp : x.warp? q.2 = some w)
    (hexec : exec i { s with agenda := rest, cur := some q } = .next u)
    (hgoes : (u.onWarp q.1 q.2 (fun y v => u.setCtx (y.setWarp (v.keepEntry w)))).waitsAgain q = false) (v : Word) :
    issueFirmware v q s = .next (u.onWarp q.1 q.2 (fun y v => u.setCtx (y.setWarp (v.keepEntry w)))) := by
  have hold : ({ s with agenda := rest }.ctx? q.1).bind (fun x => x.warp? q.2) = some w := by
    show (s.ctx? q.1).bind _ = some w
    rw [hctx]
    exact hwarp
  have hrun : runFirmware i q { s with agenda := rest } =
      .next (u.onWarp q.1 q.2 (fun y v => u.setCtx (y.setWarp (v.keepEntry w)))) := by
    simp only [runFirmware, hexec, hold]
  simp only [issueFirmware, hagenda, hrun, hgoes, Bool.false_eq_true, if_false]

theorem onWarp_agenda (s : State) (c u : Nat) (f : Context → Warp → Context) :
    (s.onWarp c u (fun x w => s.setCtx (f x w))).agenda = s.agenda := by
  unfold State.onWarp
  split
  · rfl
  · split <;> rfl

/-- A warp that takes the instruction at the head of the agenda has used its partition's issue. -/
theorem issuesOf_ne {s t : State} (h : t.agenda.length ≠ s.agenda.length) (q : Nat × Nat) : t.issuesOf q ≠ s.issuesOf q :=
  fun heq => h (congrArg Prod.snd heq)

/-! ### The partition -/

theorem issueFirst_issued {s t : State} {q : Nat × Nat} (hissue : issueAt s q = .next t) (hused : t.issuesOf q ≠ s.issuesOf q)
    (p : Nat) (r : List (Nat × Nat)) : issueFirst p (q :: r) s = .next { t with turn := p + 1 } := by
  simp only [issueFirst, hissue, if_neg hused]

theorem issueFirst_waits {s t : State} {q : Nat × Nat} (hissue : issueAt s q = .next t) (hwaits : t.issuesOf q = s.issuesOf q)
    (p : Nat) (r : List (Nat × Nat)) : issueFirst p (q :: r) s = issueFirst p r t := by
  simp only [issueFirst, hissue, if_pos hwaits]

theorem runMachine_part {s : State} {p : Nat} (hpart : s.nextPart = some p) : runMachine s = issueFirst p (s.candidates p) s := by
  simp only [runMachine, hpart]

theorem runMachine_endCycle {s : State} (hpart : s.nextPart = none) : runMachine s = .next s.endCycle := by
  simp only [runMachine, hpart]

/-! ### The step -/

theorem step_empty {s : State} (hagenda : s.agenda = []) : step s = runMachine s := by
  simp only [step, runStep, hagenda]

section
variable {s : State} {i : Instr} {r : List Instr} (hagenda : s.agenda = i :: r)
include hagenda

theorem step_event (hevent : isEvent i = true) : step s = exec i { s with agenda := r } := by
  simp only [step, runStep, hagenda, hevent, if_true]

theorem step_handler (hevent : isEvent i = false) (hfirmware : s.inFirmware = true) : step s = runMachine s := by
  simp only [step, runStep, hagenda, hevent, hfirmware, Bool.false_eq_true, if_false, if_true]

theorem step_passed (hevent : isEvent i = false) (hfirmware : s.inFirmware = false) : step s = runMachine { s with agenda := r } := by
  simp only [step, runStep, hagenda, hevent, hfirmware, Bool.false_eq_true, if_false]
end

section
variable {s t : State} {p : Nat} {q : Nat × Nat} {r : List (Nat × Nat)} (hpart : s.nextPart = some p) (hfirst : s.candidates p = q :: r)
  (hissue : issueAt s q = .next t)
include hpart hfirst hissue

/-- The first candidate of the next partition issues and has the partition's issue of the cycle. -/
theorem runMachine_issued (hused : t.issuesOf q ≠ s.issuesOf q) : runMachine s = .next { t with turn := p + 1 } := by
  rw [runMachine_part hpart, hfirst, issueFirst_issued hissue hused]

/-- The first candidate only waits, and the next is tried. -/
theorem runMachine_waits (hwaits : t.issuesOf q = s.issuesOf q) : runMachine s = issueFirst p r t := by
  rw [runMachine_part hpart, hfirst, issueFirst_waits hissue hwaits]
end

/-- Settles O57: the step is the attempt of the next partition's first candidate (`runMachine_issued`, `runMachine_waits`), which runs
the fetched word (`issueAt_word`), the trap of its fetch, or an instruction of the handler (`issueFirmware_agenda`). -/
theorem stepRunsDecodedInstruction : Obligations.StepRunsDecodedInstruction := by
  unfold Obligations.StepRunsDecodedInstruction
  refine ⟨?issues, ?waits, ?badWord, ?fetchTraps, ?fetchReads, ?notExecutable, ?cycleEnds, ?event, ?notEvent, ?handler, ?emulation⟩
  case issues =>
    intro s p q r x w e t v i u hagenda hpart hfirst hctx hwarp hentry hmode hfetch hdecode hexec hused
    rw [step_empty hagenda]
    refine runMachine_issued hpart hfirst ?_ hused
    rw [issueAt_word hctx hwarp hentry hmode hfetch, runWord_ok hdecode, hexec]
  case waits =>
    intro s p q r x w e t v i u hagenda hpart hfirst hctx hwarp hentry hmode hfetch hdecode hexec hwaits
    rw [step_empty hagenda]
    refine runMachine_waits hpart hfirst ?_ hwaits
    rw [issueAt_word hctx hwarp hentry hmode hfetch, runWord_ok hdecode, hexec]
  case badWord =>
    intro s p q r x w e t v c hagenda hpart hfirst hctx hwarp hentry hmode hfetch hdecode hused
    rw [step_empty hagenda]
    refine runMachine_issued hpart hfirst ?_ hused
    rw [issueAt_word hctx hwarp hentry hmode hfetch, runWord_error hdecode]
  case fetchTraps =>
    intro s q x w e t c recs told hctx hwarp hentry hmode hfetch
    exact issueAt_trap hctx hwarp hentry hmode hfetch
  case fetchReads =>
    intro s x w e pte level at_ hleaf hexec hcache t k hreach hready hbad
    rw [fetch_executable hleaf hexec]
    exact fetchWord_memory ((touchLeaf_pick _ _ _ _ _ _).trans hcache) hreach hready hbad
  case notExecutable =>
    intro s x w e pte level at_ hleaf hexec
    exact fetch_permExec hleaf hexec
  case cycleEnds =>
    intro s hagenda hpart
    rw [step_empty hagenda, runMachine_endCycle hpart]
  case event =>
    intro s i r hagenda hevent
    exact step_event hagenda hevent
  case notEvent =>
    intro s i r hagenda hevent
    exact ⟨step_handler hagenda hevent, step_passed hagenda hevent⟩
  case handler =>
    intro s p q r x w e i rest u hagenda hevent hfirmware hpart hfirst hctx hwarp hentry hmode hexec hrest hgoes
    rw [step_handler hagenda hevent hfirmware]
    refine runMachine_issued hpart hfirst ?_ (issuesOf_ne ?_ q)
    · rw [issueAt_firmware hctx hwarp hentry hmode, issueFirmware_agenda hagenda hctx hwarp hexec hgoes]
    · rw [onWarp_agenda, hrest, hagenda]
      simp
  case emulation =>
    intro s p q r x w e i u hagenda hpart hfirst hctx hwarp hentry hmode hdecode hexec hused
    rw [step_empty hagenda]
    refine runMachine_issued hpart hfirst ?_ hused
    rw [issueAt_firmware hctx hwarp hentry hmode, issueFirmware_empty hagenda, runWord_ok hdecode, hexec]

end Sys2Proof.StepRuns
end

section
/-! PROOFS. Barriers and broadcasts: how each issue of BSYNC, BARR, BCAST and BRECV ends (R18, R211 to R214). -/

namespace Sys2Proof.Pewter

open Sys2Proof Machine Laws

/-! ### Fields of IMM16 -/

theorem natBits_low (n hi : Nat) : natBits n hi 0 = n % 2 ^ (hi + 1) := rfl

/-- Bits 9 to 6 name the barrier of BARR (R213). -/
theorem natBits_barrier (n : Nat) : natBits n 9 6 = n / 64 % 16 := by
  simp only [natBits, Nat.shiftRight_eq_div_pow, Nat.reducePow, Nat.reduceAdd, Nat.reduceSub]

/-! ### BSYNC -/

/-- The dies that a BSYNC joins (R211). -/
abbrev bsyncDies (r : RI) (env : Env) : List Nat := if r.imm.toNat.testBit 6 then env.ctx.p.dies else [widDie env.w.wid]

/-- The count of a BSYNC is out of range, or its launch has no other die to join (R211). -/
abbrev BsyncMalformed (r : RI) (env : Env) : Prop :=
  (env.s r.a).toNat < 1 ∨ 16384 < (env.s r.a).toNat ∨ (r.imm.toNat.testBit 6 = true ∧ env.ctx.p.dies.length ≤ 1)

/-- An open generation of the channel of a BSYNC has another scope or another count (R211). -/
abbrev BsyncClashes (r : RI) (env : Env) : Prop :=
  ∃ g ∈ env.ctx.openGens (r.imm.toNat % 64) (bsyncDies r env), g.pkg ≠ r.imm.toNat.testBit 6 ∨ g.c ≠ (env.s r.a).toNat

/-- A BSYNC once its release, where it has one, is made; none while it cannot be (R212). -/
def bsyncReleased (r : RI) (env : Env) : Option Env :=
  if r.x.toNat.testBit 0 then env.releaseAt (barScope (r.imm.toNat.testBit 6)) else some env

/-- A BSYNC that was released as `e` arrives and parks (R211). -/
def bsyncArrived (r : RI) (env e : Env) : Env :=
  { e.parkOn (.bsync (r.imm.toNat % 64) (r.x.toNat.testBit 1) (barScope (r.imm.toNat.testBit 6))) with
    ctx := e.ctx.arrive (r.imm.toNat % 64) (bsyncDies r env) (r.imm.toNat.testBit 6) (env.s r.a).toNat
      (e.w.uid, widDie env.w.wid) e.dev.cycle }

/-- How an attempt of BSYNC ends (R211, R212). -/
def bsyncRes (r : RI) (env : Env) : Res :=
  if BsyncMalformed r env then env.wordTrap .illegalOperand
  else if env.ctx.p.nb ≤ r.imm.toNat % 64 then env.trapE .pewterChan (BitVec.ofNat 64 (r.imm.toNat % 64))
  else if BsyncClashes r env then env.trapE .pewterCount (env.s r.a)
  else (bsyncReleased r env).elim (.hold (.retrySources [])) (fun e => .done (bsyncArrived r env e))

/-- The model's test of A as a word whose low half is the count. -/
theorem malformed_test_iff (r : RI) (env : Env) :
    (decide ((env.s r.a).toNat / 2 ^ 16 ≠ 0) || decide ((env.s r.a).toNat % 2 ^ 16 < 1) || decide (16384 < (env.s r.a).toNat % 2 ^ 16) ||
      (r.imm.toNat.testBit 6 && decide (env.ctx.p.dies.length ≤ 1))) = true ↔ BsyncMalformed r env := by
  simp only [Bool.or_eq_true, Bool.and_eq_true, decide_eq_true_eq, BsyncMalformed, ← or_assoc]
  refine or_congr_left ?_
  omega

theorem execBsync_eq (r : RI) (s : State) : exec (.bsync r) s = issue (.bsync r) .plain s (bsyncRes r) := by
  show execBsync r s = _
  unfold execBsync
  congr 1
  funext env
  by_cases hmalformed : BsyncMalformed r env
  · simp only [bsyncRes, if_pos hmalformed, if_pos ((malformed_test_iff r env).2 hmalformed)]
  · have hcount : (env.s r.a).toNat % 2 ^ 16 = (env.s r.a).toNat := by
      simp only [BsyncMalformed, not_or] at hmalformed
      omega
    extract_lets a c ch pkg die dies scope go
    rw [if_neg (mt (malformed_test_iff r env).1 hmalformed)]
    simp only [bsyncRes, if_neg hmalformed]
    have hc : c = (env.s r.a).toNat := hcount
    have hword : BitVec.ofNat 64 c = env.s r.a := by rw [hc, BitVec.ofNat_toNat, BitVec.setWidth_eq]
    refine ite_congr rfl (fun _ => rfl) fun _ => ite_congr (propext ?_) (fun _ => by rw [hword]) fun _ => ?_
    · simp [hc, BsyncClashes, ch, natBits_low, dies, pkg, die]
    · have hgo (e : Env) : go e = .done (bsyncArrived r env e) := by
        dsimp only [go]
        rw [hc]
        rfl
      clear_value go
      unfold bsyncReleased
      cases r.x.toNat.testBit 0 with
      | false => exact hgo env
      | true =>
        cases env.releaseAt scope with
        | none => rfl
        | some e => exact hgo e

/-- A release leaves the issue of a BSYNC as it was. -/
theorem bsyncReleased_sameIssue {r : RI} {env e : Env} (h : bsyncReleased r env = some e) : SameIssue env e := by
  unfold bsyncReleased at h
  split at h
  · exact releaseAt_sameIssue h
  · cases h
    exact .refl env

/-- What a well-formed BSYNC without a clash passes. -/
theorem not_malformed {r : RI} {env : Env} (hlow : 1 ≤ (env.s r.a).toNat) (hhigh : (env.s r.a).toNat ≤ 16384)
    (hdies : r.imm.toNat.testBit 6 = true → 2 ≤ env.ctx.p.dies.length) : ¬BsyncMalformed r env := by
  rintro (h | h | ⟨hpkg, h⟩)
  · omega
  · omega
  · have := hdies hpkg
    omega

theorem not_clashes {r : RI} {env : Env} (h : ∀ g ∈ env.ctx.openGens (r.imm.toNat % 64) (bsyncDies r env),
    g.pkg = r.imm.toNat.testBit 6 ∧ g.c = (env.s r.a).toNat) : ¬BsyncClashes r env := by
  rintro ⟨g, hg, hpkg | hc⟩
  · exact hpkg (h g hg).1
  · exact hc (h g hg).2

section
variable {r : RI} {s : State} {env : Env} (hadm : Admitted (.bsync r) .plain s env)
include hadm

theorem bsync_malformed (h : BsyncMalformed r env) :
    exec (.bsync r) s = .next (takeTrap env { cause := .illegalOperand, tval := env.word, mask := env.e.mask }) := by
  rw [execBsync_eq]
  exact issue_trap hadm (if_pos h)

variable (hformed : ¬BsyncMalformed r env)
include hformed

theorem bsync_beyond (hchan : env.ctx.p.nb ≤ r.imm.toNat % 64) : exec (.bsync r) s =
    .next (takeTrap env { cause := .pewterChan, tval := BitVec.ofNat 64 (r.imm.toNat % 64), mask := env.e.mask }) := by
  rw [execBsync_eq]
  refine issue_trap hadm ?_
  simp only [bsyncRes, if_neg hformed, if_pos hchan, Env.trapE]

variable (hchan : ¬env.ctx.p.nb ≤ r.imm.toNat % 64)
include hchan

theorem bsync_clashes (hclash : BsyncClashes r env) :
    exec (.bsync r) s = .next (takeTrap env { cause := .pewterCount, tval := env.s r.a, mask := env.e.mask }) := by
  rw [execBsync_eq]
  refine issue_trap hadm ?_
  simp only [bsyncRes, if_neg hformed, if_neg hchan, if_pos hclash, Env.trapE]

variable (hagree : ¬BsyncClashes r env)
include hagree

theorem bsync_waits (hrel : bsyncReleased r env = none) : exec (.bsync r) s = .next (holdIssue env (.retrySources [])) := by
  rw [execBsync_eq, admitted_issue hadm]
  simp only [bsyncRes, if_neg hformed, if_neg hchan, if_neg hagree, hrel, Option.elim_none, settle]

theorem bsync_arrives {e : Env} (hrel : bsyncReleased r env = some e) : Closes .plain (exec (.bsync r) s) (bsyncArrived r env e) := by
  obtain ⟨he, hjoin, hdead, hout⟩ := bsyncReleased_sameIssue hrel
  rw [execBsync_eq]
  refine issue_closes hadm ?_ he hjoin hdead hout
  simp only [bsyncRes, if_neg hformed, if_neg hchan, if_neg hagree, hrel, Option.elim_some]
end

/-! ### BARR -/

/-- How an attempt of BARR ends (R213). -/
def barrRes (r : RI) (env : Env) : Res :=
  let n := r.imm.toNat % 64
  let id := r.imm.toNat / 64 % 16
  env.blk.elim (.done env) (fun b =>
    if b.nwarps < n then env.wordTrap .illegalOperand
    else if b.barrClash id n then env.trapE .pewterCount (BitVec.ofNat 64 n)
    else env.barr id n)

theorem execBarr_eq (r : RI) (s : State) : exec (.barr r) s = issue (.barr r) .plain s (barrRes r) := by
  show execBarr r s = _
  unfold execBarr
  congr 1
  funext env
  simp only [barrRes, natBits_barrier, natBits_low, Nat.reduceAdd, Nat.reducePow]
  cases env.blk <;> rfl

/-- A BARR that was released as `e` arrives at a barrier of its block and parks (R213). -/
def barrArrived (e : Env) (b : Block) (id n : Nat) : Env :=
  ({ e.parkOn (.barr b.id id) with ctx := e.ctx.arriveBarr b id n e.w.uid e.dev.cycle e.id } : Env).bump

section
variable {r : RI} {s : State} {env : Env} {b : Block} (hadm : Admitted (.barr r) .plain s env) (hblk : env.blk = some b)
include hadm hblk

theorem barr_tooMany (hcount : b.nwarps < r.imm.toNat % 64) :
    exec (.barr r) s = .next (takeTrap env { cause := .illegalOperand, tval := env.word, mask := env.e.mask }) := by
  rw [execBarr_eq]
  refine issue_trap hadm ?_
  rw [barrRes, hblk]
  exact if_pos hcount

variable (hcount : r.imm.toNat % 64 ≤ b.nwarps)
include hcount

theorem barr_clashes (hclash : b.barrClash (r.imm.toNat / 64 % 16) (r.imm.toNat % 64) = true) :
    exec (.barr r) s = .next (takeTrap env { cause := .pewterCount, tval := BitVec.ofNat 64 (r.imm.toNat % 64), mask := env.e.mask }) := by
  rw [execBarr_eq]
  refine issue_trap hadm ?_
  simp only [barrRes, hblk, Option.elim_some, if_neg (Nat.not_lt.2 hcount), if_pos hclash, Env.trapE]

variable (hagree : b.barrClash (r.imm.toNat / 64 % 16) (r.imm.toNat % 64) = false)
include hagree

theorem barr_waits (hrel : env.releaseAt 2 = none) : exec (.barr r) s = .next (holdIssue env (.retrySources [])) := by
  rw [execBarr_eq, admitted_issue hadm]
  simp only [barrRes, hblk, Option.elim_some, if_neg (Nat.not_lt.2 hcount), hagree, Bool.false_eq_true, if_false, Env.barr, hrel, settle]

theorem barr_arrives {e : Env} {b' : Block} (hrel : env.releaseAt 2 = some e) (hblk' : e.blk = some b') :
    Closes .plain (exec (.barr r) s) (barrArrived e b' (r.imm.toNat / 64 % 16) (r.imm.toNat % 64)) := by
  obtain ⟨he, hjoin, hdead, hout⟩ := releaseAt_sameIssue hrel
  rw [execBarr_eq]
  refine issue_closes hadm ?_ he hjoin hdead hout
  simp only [barrRes, hblk, Option.elim_some, if_neg (Nat.not_lt.2 hcount), hagree, Bool.false_eq_true, if_false, Env.barr, hrel, hblk',
    barrArrived]
end

/-! ### BCAST -/

section
variable {r : RRR} {s : State} {env : Env} (hadm : Admitted (.bcast r) .plain s env)
include hadm

theorem bcast_beyond (hchan : env.ctx.p.nc ≤ r.x.toNat % 16) : exec (.bcast r) s =
    .next (takeTrap env { cause := .pewterChan, tval := BitVec.ofNat 64 (r.x.toNat % 16), mask := env.e.mask }) :=
  issue_trap hadm (if_pos hchan)

/-- The value is on its way to the dies of the channel (R18, R214). -/
theorem bcast_sends (hchan : r.x.toNat % 16 < env.ctx.p.nc) : Closes .plain (exec (.bcast r) s)
    (({ env with ctx := { env.ctx with bcasts := env.ctx.bcasts ++ [{
      id := env.id, wid := env.w.wid, ch := r.x.toNat % 16
      dies := if r.x.toNat.testBit 4 then env.ctx.p.dies else [widDie env.w.wid]
      at_ := env.dev.cycle + pewterCycles (r.x.toNat.testBit 4), value := env.s r.a }] } } : Env).bump) :=
  issue_closes hadm (if_neg (Nat.not_le.2 hchan)) rfl rfl rfl rfl
end

/-! ### BRECV -/

/-- The issuing warp stands in the context of an issue. -/
theorem opened_warp {i : Instr} {word : Word} {s : State} {env : Env} (h : openIssue i word s = some env) :
    env.ctx.warp? env.w.uid ≠ none := by
  unfold openIssue at h
  split at h
  · cases h
  · split at h
    · cases h
    · split at h
      · cases h
      · rename_i x _ _ w0 hw0
        dsimp only at h
        split at h
        · cases h
        · cases h
          have huid := List.find?_some hw0
          show x.warp? w0.uid ≠ none
          rw [of_decide_eq_true huid, hw0]
          exact Option.some_ne_none _

/-- The issuing warp is found where it is put back. -/
theorem warp?_put {i : Instr} {word : Word} {s : State} {env : Env} (h : openIssue i word s = some env) {w : Warp}
    (huid : w.uid = env.w.uid) : (env.ctx.setWarp w).warp? env.w.uid = some w := by
  have hin := opened_warp h
  rw [← huid] at hin ⊢
  exact warp?_setWarp env.ctx w hin

/-- Of two warps put back at the same place the second stays. -/
theorem setWarp_setWarp (x : Context) {v w : Warp} (h : v.uid = w.uid) : (x.setWarp v).setWarp w = x.setWarp w := by
  unfold Context.setWarp
  rw [List.map_map]
  congr 2
  funext y
  by_cases hy : y.uid = w.uid <;> simp [h, hy]

@[simp] theorem markDest_uid (w : Warp) (d : Dest) : (w.markDest d).uid = w.uid := by
  obtain ⟨vm, sm, h⟩ := markDest_marks w d
  rw [h]
@[simp] theorem markDest_wid (w : Warp) (d : Dest) : (w.markDest d).wid = w.wid := by
  obtain ⟨vm, sm, h⟩ := markDest_marks w d
  rw [h]
@[simp] theorem markDest_bcSeen (w : Warp) (d : Dest) : (w.markDest d).bcSeen = w.bcSeen := by
  obtain ⟨vm, sm, h⟩ := markDest_marks w d
  rw [h]
@[simp] theorem markDest_recvs (w : Warp) (d : Dest) : (w.markDest d).recvs = w.recvs := by
  obtain ⟨vm, sm, h⟩ := markDest_marks w d
  rw [h]

/-- No receive is filled while the warp has seen the channel's generation. -/
theorem takeBcast_seen {x : Context} {w : Warp} {ch : Nat}
    (h : smGet 0 x.bcGen (widDie w.wid * 16 + ch) ≤ smGet 0 w.bcSeen ch) (id : Nat) : x.takeBcast w ch id = x := by
  simp only [Context.takeBcast, if_pos h]
  split <;> rfl

/-- A newer value fills the only receive of a channel, which is the last of its warp. -/
theorem takeBcast_newer {x : Context} {w : Warp} {ch : Nat} (hgen : smGet 0 w.bcSeen ch < smGet 0 x.bcGen (widDie w.wid * 16 + ch))
    (hfirst : ∀ q ∈ w.recvs, q.1 ≠ ch) (d : Dest) (id : Nat) :
    x.takeBcast { w with recvs := w.recvs ++ [(ch, d)] } ch id =
      (x.setWarp { w with bcSeen := smPut 0 w.bcSeen ch (smGet 0 x.bcGen (widDie w.wid * 16 + ch)) }).owe id w.uid d
        (smGet 0 x.bcValue (widDie w.wid * 16 + ch)) none := by
  have hnone : w.recvs.find? (fun q => q.1 = ch) = none := List.find?_eq_none.2 fun q hq => by simpa using hfirst q hq
  have hfind : (w.recvs ++ [(ch, d)]).find? (fun q => q.1 = ch) = some (ch, d) := by
    simp [List.find?_append, hnone]
  have herase : (w.recvs ++ [(ch, d)]).erase (ch, d) = w.recvs := by
    rw [List.erase_append_right _ fun hmem => hfirst _ hmem rfl]
    simp
  simp only [Context.takeBcast, hfind, if_neg (Nat.not_le.2 hgen), herase]

/-- The issuing warp of a BRECV, its destination empty and its receive behind those that wait (R214). -/
def recvQueued (r : RRR) (env : Env) : Warp :=
  { env.w.markDest (env.destS r.d.toNat) with recvs := env.w.recvs ++ [(r.x.toNat % 16, env.destS r.d.toNat)] }

/-- The issuing warp of a BRECV that is owed the channel's value: its destination is empty, and it has seen the generation (R214). -/
def recvSeen (r : RRR) (env : Env) : Warp :=
  { env.w.markDest (env.destS r.d.toNat) with
    bcSeen := smPut 0 env.w.bcSeen (r.x.toNat % 16) (smGet 0 env.ctx.bcGen (widDie env.w.wid * 16 + r.x.toNat % 16)) }

/-- A newer value fills the receive of a BRECV that is the only one of its channel. -/
theorem takeBcast_queued {r : RRR} {env : Env} (hfirst : ∀ q ∈ env.w.recvs, q.1 ≠ r.x.toNat % 16)
    (hnewer : smGet 0 env.w.bcSeen (r.x.toNat % 16) < smGet 0 env.ctx.bcGen (widDie env.w.wid * 16 + r.x.toNat % 16)) (id : Nat) :
    (env.ctx.setWarp (recvQueued r env)).takeBcast (recvQueued r env) (r.x.toNat % 16) id =
      (env.ctx.setWarp (recvSeen r env)).owe id env.w.uid (env.destS r.d.toNat)
        (smGet 0 env.ctx.bcValue (widDie env.w.wid * 16 + r.x.toNat % 16)) none := by
  have htake := takeBcast_newer (x := env.ctx.setWarp (recvQueued r env)) (w := env.w.markDest (env.destS r.d.toNat))
    (by simpa using hnewer) (by simpa using hfirst) (env.destS r.d.toNat) id
  simp only [markDest_recvs, markDest_wid, markDest_uid, markDest_bcSeen, setWarp_bcGen, setWarp_bcValue] at htake
  refine htake.trans ?_
  congr 1
  exact setWarp_setWarp env.ctx rfl

section
variable {r : RRR} {s : State} {env : Env} (hadm : Admitted (.brecv r) .plain s env)
include hadm

theorem brecv_beyond (hchan : env.ctx.p.nc ≤ r.x.toNat % 16) : exec (.brecv r) s =
    .next (takeTrap env { cause := .pewterChan, tval := BitVec.ofNat 64 (r.x.toNat % 16), mask := env.e.mask }) :=
  issue_trap hadm (if_pos hchan)

variable (hchan : r.x.toNat % 16 < env.ctx.p.nc)
include hchan

/-- BRECV enters its receive and takes the channel's value where it is newer; `x` and `w` are what is left of its context and its
warp. -/
theorem brecv_takes {x : Context} {w : Warp}
    (hctx : (env.ctx.setWarp (recvQueued r env)).takeBcast (recvQueued r env) (r.x.toNat % 16) (env.id + 1) = x)
    (hwarp : x.warp? env.w.uid = some w) :
    Closes .plain (exec (.brecv r) s) { env with ctx := x, w := w, dev := { env.dev with nextId := env.dev.nextId + 2 } } := by
  refine issue_closes hadm ((if_neg (Nat.not_le.2 hchan)).trans ?_) rfl rfl rfl rfl
  have huid : (recvQueued r env).uid = env.w.uid := markDest_uid _ _
  show Res.done { env with
    ctx := (env.ctx.setWarp (recvQueued r env)).takeBcast (recvQueued r env) (r.x.toNat % 16) (env.id + 1)
    w := (((env.ctx.setWarp (recvQueued r env)).takeBcast (recvQueued r env) (r.x.toNat % 16) (env.id + 1)).warp?
      (recvQueued r env).uid).getD (recvQueued r env)
    dev := { env.dev with nextId := env.dev.nextId + 2 } } = _
  rw [hctx, huid, hwarp]
  rfl

/-- With no newer value the receive waits. -/
theorem brecv_waits (hseen : smGet 0 env.ctx.bcGen (widDie env.w.wid * 16 + r.x.toNat % 16) ≤ smGet 0 env.w.bcSeen (r.x.toNat % 16)) :
    Closes .plain (exec (.brecv r) s) { env with
      ctx := env.ctx.setWarp (recvQueued r env), w := recvQueued r env, dev := { env.dev with nextId := env.dev.nextId + 2 } } := by
  refine brecv_takes hadm hchan (takeBcast_seen ?_ _) (warp?_put hadm.opened (markDest_uid _ _))
  simpa [recvQueued] using hseen

/-- With a newer value the receive is owed it, and the warp has seen its generation. -/
theorem brecv_owed (hfirst : ∀ q ∈ env.w.recvs, q.1 ≠ r.x.toNat % 16)
    (hnewer : smGet 0 env.w.bcSeen (r.x.toNat % 16) < smGet 0 env.ctx.bcGen (widDie env.w.wid * 16 + r.x.toNat % 16)) :
    Closes .plain (exec (.brecv r) s) { env with
      ctx := (env.ctx.setWarp (recvSeen r env)).owe (env.id + 1) env.w.uid (env.destS r.d.toNat)
        (smGet 0 env.ctx.bcValue (widDie env.w.wid * 16 + r.x.toNat % 16)) none
      w := recvSeen r env, dev := { env.dev with nextId := env.dev.nextId + 2 } } := by
  exact brecv_takes hadm hchan (takeBcast_queued hfirst hnewer _) (warp?_put hadm.opened (markDest_uid _ _))
end

/-- Settles O43: each attempt ends as its operands, its release and the state of its barrier or channel say. -/
theorem barriersAndBroadcasts : Obligations.BarriersAndBroadcasts := by
  unfold Obligations.BarriersAndBroadcasts
  refine ⟨?arrives, ?syncWaits, ?syncMalformed, ?syncClashes, ?syncBeyond, ?barr, ?barrWaits, ?barrTooMany, ?barrClashes, ?bcast,
    ?bcastBeyond, ?recvWaits, ?recvOwed, ?recvBeyond⟩
  case arrives =>
    intro r s env e a ch pkg dies hadm hlow hhigh hdies hchan hagree hrel
    refine bsync_arrives hadm (not_malformed hlow hhigh hdies) (Nat.not_le.2 hchan) (not_clashes hagree) ?_
    unfold bsyncReleased
    split at hrel
    · rwa [if_pos ‹_›]
    · rw [if_neg ‹_›, hrel]
  case syncWaits =>
    intro r s env a dies hadm hlow hhigh hdies hchan hagree hform hrel
    refine bsync_waits hadm (not_malformed hlow hhigh hdies) (Nat.not_le.2 hchan) (not_clashes hagree) ?_
    rwa [bsyncReleased, if_pos hform]
  case syncMalformed =>
    intro r s env hadm hmalformed
    exact bsync_malformed hadm hmalformed
  case syncClashes =>
    rintro r s env hadm ⟨hlow, hhigh, hdies, hchan, hclash⟩
    exact bsync_clashes hadm (not_malformed hlow hhigh hdies) (Nat.not_le.2 hchan) hclash
  case syncBeyond =>
    rintro r s env hadm ⟨hlow, hhigh, hdies, hchan⟩
    exact bsync_beyond hadm (not_malformed hlow hhigh hdies) hchan
  case barr =>
    intro r s env e b b' n id hadm hblk hcount hagree hrel hblk'
    exact barr_arrives hadm hblk hcount hagree hrel hblk'
  case barrWaits =>
    intro r s env b hadm hblk hcount hagree hrel
    exact barr_waits hadm hblk hcount hagree hrel
  case barrTooMany =>
    rintro r b s env hadm ⟨hblk, hcount⟩
    exact barr_tooMany hadm hblk hcount
  case barrClashes =>
    rintro r b s env hadm ⟨hblk, hcount, hclash⟩
    exact barr_clashes hadm hblk hcount hclash
  case bcast =>
    intro r pkg s env hadm hchan
    exact bcast_sends hadm hchan
  case bcastBeyond =>
    intro r s env hadm hchan
    exact bcast_beyond hadm hchan
  case recvWaits =>
    rintro r ch w s env hadm ⟨hchan, hseen⟩
    exact brecv_waits hadm hchan hseen
  case recvOwed =>
    rintro r ch key w s env hadm ⟨hchan, hfirst, hnewer⟩
    exact brecv_owed hadm hchan hfirst hnewer
  case recvBeyond =>
    intro r s env hadm hchan
    exact brecv_beyond hadm hchan

end Sys2Proof.Pewter
end

section
/-! PROOFS. Elements of a thread-word (R59), and the format-slot instructions that encode them: sums, scans and conversions (R146, R152,
R155). -/

namespace Sys2Proof.SlotResults

open Sys2Proof Machine Laws

/-! ### Packed elements -/

theorem ewOf_pos (ty : Nat) : 0 < ewOf ty := Nat.mul_pos (by decide) (Nat.two_pow_pos _)

/-- An integer modulo 2^w is a code of width w. -/
theorem wrapNat_lt (w : Nat) (k : Int) : wrapNat w k < 2 ^ w := by
  have hpos : (0 : Int) < 2 ^ w := Int.pow_pos (by decide)
  have hcast : ((2 ^ w : Nat) : Int) = 2 ^ w := Int.natCast_pow 2 w
  rw [wrapNat, Int.toNat_lt (Int.emod_nonneg k (Int.ne_of_gt hpos)), hcast]
  exact Int.emod_lt_of_pos k hpos

/-- Element k of a word packed from integers is integer k modulo 2^ew: the elements of one type fill a thread-word at most. -/
theorem elemOf_packInts (ty : Nat) (f : Nat → Int) {k : Nat} (hk : k < 64 / ewOf ty) :
    elemOf (ewOf ty) (packInts ty f) k = wrapNat (ewOf ty) (f k) := by
  have hfit : ((List.range (64 / ewOf ty)).map (fun i => wrapNat (ewOf ty) (f i))).length * ewOf ty ≤ 64 := by
    rw [List.length_map, List.length_range]
    exact Nat.div_mul_le_self 64 _
  rw [packInts, elemOf_packElems _ _ _ (ewOf_pos ty) hfit, List.getD_eq_getElem?_getD, List.getElem?_map,
    List.getElem?_range hk, Option.map_some, Option.getD_some, Nat.mod_eq_of_lt (wrapNat_lt _ _)]

/-- Settles O9: a packed word is the number that its codes make up, digit by digit in base 2^w. -/
theorem elementsArePacked : Obligations.ElementsArePacked := by
  unfold Obligations.ElementsArePacked
  refine ⟨fun ty f k hk => elemOf_packInts ty f hk, fun w cs k hw hfit _ => elemOf_packElems w cs k hw hfit, fun w cs _ hfit => ?_⟩
  rw [packElems_toNat w cs hfit]
  exact packNat_lt w cs

/-! ### Slot immediates -/

/-- Settles O11: each of the three encodes its elements from the immediate's code. -/
theorem slotImmediateResults : Obligations.SlotImmediateResults := by
  unfold Obligations.SlotImmediateResults
  refine ⟨?faddi, ?fmuli, ?ffmai⟩
  case faddi => exact fun r => encodes_of fun s => rfl
  case fmuli => exact fun r => encodes_of fun s => rfl
  case ffmai => exact fun r => encodes_of fun s => rfl

/-! ### Sums, scans and reductions -/

/-- The body of SCAN.fadd in the form of R146. -/
theorem exec_scanFadd (r : RRR) (s : State) : exec (.scanFadd r) s = issue (.scanFadd r) .plain s (fun env =>
    env.encodeLanes (env.slot r.f).rm r.d 0 (fun t => (List.range (env.slot r.f).elems).map (fun k u =>
      if scanLanes env.p (r.x.getLsbD 6) t = [] then some 0
      else (env.slot r.f).encode (Val.sum ((scanLanes env.p (r.x.getLsbD 6) t).map (fun v => env.val r.f r.a v k)) (env.slot r.f).rm)
        (env.slot r.f).rm ((env.slot r.f).sign (env.v r.a env.p.low) k) u)) (fun _ cs => packElems (env.slot r.f).width cs)) := by
  show execScanFadd r s = _
  unfold execScanFadd
  congr 1
  funext env
  dsimp only
  congr 1
  funext t
  congr 1
  funext k u
  cases hus : scanLanes env.p (r.x.getLsbD 6) t with
  | nil => exact (if_pos rfl).symm
  | cons v vs => exact (if_neg (List.cons_ne_nil v vs)).symm

section
variable {r : RRR} {s : State} {env : Env} (hadm : Admitted (.fredx r) .plain s env)
include hadm

/-- FREDX whose elements all encode writes them to D, and the lowest thread of P keeps the state that its draws leave (R127). -/
theorem fredx_completes (hcodes : (fredxRun env r (env.slot r.f)).2.all Option.isSome = true) :
    Closes .plain (exec (.fredx r) s) { env with w := { env.w.writeS r.d.toNat (packElems (env.slot r.f).width
        ((fredxRun env r (env.slot r.f)).2.map (fun c => c.getD 0))) with
      rs := smPut 0 env.w.rs env.p.low (fredxRun env r (env.slot r.f)).1 } } := by
  have hnone : (fredxRun env r (env.slot r.f)).2.findIdx? (fun c => c.isNone) = none :=
    List.findIdx?_eq_none_iff.mpr (fun c hc => Option.isNone_eq_false_iff.mpr (List.all_eq_true.mp hcodes c hc))
  refine issue_closes hadm ?_ rfl rfl rfl rfl
  dsimp only
  rw [show env.w.slot r.f.toNat = env.slot r.f from rfl, hnone]
  rfl

/-- FREDX with an Invalid element takes FMT_INVALID over P with the lowest such element (R64, R127). -/
theorem fredx_invalid (hcodes : (fredxRun env r (env.slot r.f)).2.all Option.isSome = false) :
    exec (.fredx r) s = .next (takeTrap env
      { cause := .fmtInvalid, mask := env.p
        tval := BitVec.ofNat 64 (((fredxRun env r (env.slot r.f)).2.findIdx? (fun c => c.isNone)).getD 0) }) := by
  obtain ⟨k, hk⟩ : ∃ k, (fredxRun env r (env.slot r.f)).2.findIdx? (fun c => c.isNone) = some k := by
    obtain ⟨c, hc, hnone⟩ := List.all_eq_false.mp hcodes
    rw [← Option.isSome_iff_exists, List.findIdx?_isSome]
    exact List.any_eq_true.mpr ⟨c, hc, Option.isNone_iff_eq_none.mpr (Option.not_isSome_iff_eq_none.mp hnone)⟩
  rw [hk]
  refine issue_trap hadm ?_
  dsimp only
  rw [show env.w.slot r.f.toNat = env.slot r.f from rfl, hk]
  rfl

end

/-- Settles O12: FSUM, FDOT and SCAN.fadd encode one sum for each element, and FREDX ends as its run of codes says. -/
theorem slotSumAndScanResults : Obligations.SlotSumAndScanResults := by
  unfold Obligations.SlotSumAndScanResults
  refine ⟨?fsum, ?fdot, ?scan, ?fredx, ?fredxInvalid⟩
  case fsum => exact fun r => encodes_of fun s => rfl
  case fdot => exact fun r => encodes_of fun s => rfl
  case scan => exact fun r => encodes_of (exec_scanFadd r)
  case fredx => exact fun r s env hadm hcodes => fredx_completes hadm hcodes
  case fredxInvalid => exact fun r s env hadm hcodes => fredx_invalid hadm hcodes

/-! ### Conversions -/

/-- An element that is Invalid in a thread of P is FMT_INVALID over the threads that fail (R146, R342). -/
theorem encodeLanes_invalid (env : Env) (rm : Rm) (d : BitVec 8) (base : Nat) (elems : Nat → List (Nat → Option Nat))
    (place : Nat → List Nat → Word) (h : ∃ t, t < 32 ∧ env.p.has t = true ∧ env.badElem rm elems t ≠ none) :
    env.encodeLanes rm d base elems place =
      let m := Mask.ofPred (fun t => env.p.has t && (env.badElem rm elems t).isSome)
      .trap { cause := .fmtInvalid, tval := BitVec.ofNat 64 (base + (env.badElem rm elems m.low).getD 0), mask := m } := by
  obtain ⟨t, hlane, hin, hbad⟩ := h
  have hm : Mask.ofPred (fun t => env.p.has t && (env.badElem rm elems t).isSome) ≠ 0 := by
    intro hzero
    have hhas := ofPred_has (fun t => env.p.has t && (env.badElem rm elems t).isSome) t hlane
    rw [hzero, hin, Bool.true_and, Option.isSome_iff_ne_none.mpr hbad] at hhas
    exact Bool.false_ne_true ((BitVec.getLsbD_zero (w := 32)).symm.trans hhas)
  simp only [Env.encodeLanes, Env.trapLanes, if_neg hm]

/-- The elements that a conversion encodes: the run from source element sa that fits from destination element da on (R155). -/
def runOf (ns sa nd da : Nat) (elem : Nat → Nat → Nat → Option Nat) (t : Nat) : List (Nat → Option Nat) :=
  (List.range (min (ns - sa) (nd - da))).map (fun j => elem t (sa + j))

/-- A conversion whose starts lie below their counts encodes its run. -/
theorem convert_run {ns sa nd da : Nat} (hs : sa < ns) (hd : da < nd) (env : Env) (rm : Rm) (d : BitVec 8) (w : Nat)
    (elem : Nat → Nat → Nat → Option Nat) : env.convert rm d ns sa w nd da elem =
      env.encodeLanes rm d da (runOf ns sa nd da elem) (fun t cs => mergeRun w nd (env.v d t) da cs) := by
  have hbelow : (decide (ns ≤ sa) || decide (nd ≤ da)) = false := by
    rw [decide_eq_false (Nat.not_le.mpr hs), decide_eq_false (Nat.not_le.mpr hd), Bool.or_self]
  simp only [Env.convert, hbelow, Bool.false_eq_true, if_false]
  rfl

/-- A conversion with a start at or beyond its count is ILLEGAL_OPERAND. -/
theorem convert_beyond {ns sa nd da : Nat} (h : ns ≤ sa ∨ nd ≤ da) (env : Env) (rm : Rm) (d : BitVec 8) (w : Nat)
    (elem : Nat → Nat → Nat → Option Nat) : env.convert rm d ns sa w nd da elem = env.trapE .illegalOperand env.word := by
  have hbeyond : (decide (ns ≤ sa) || decide (nd ≤ da)) = true := by
    rcases h with h | h
    · rw [decide_eq_true h, Bool.true_or]
    · rw [decide_eq_true h, Bool.or_true]
  simp only [Env.convert, hbeyond, if_true]

section
variable {i : Instr} {opts : Opts} {d : BitVec 8} {sa da : Nat} {rm : Env → Rm} {ns nd w : Env → Nat}
  {elem : Env → Nat → Nat → Nat → Option Nat}
  (hexec : ∀ s, exec i s = issue i opts s (fun env => env.convert (rm env) d (ns env) sa (w env) (nd env) da (elem env)))
include hexec

theorem conversion_completes : CompletesIf i opts (fun env => sa < ns env ∧ da < nd env ∧
      ∀ t, env.p.has t = true → env.badElem (rm env) (runOf (ns env) sa (nd env) da (elem env)) t = none)
    (fun env => env.encoded (rm env) d (runOf (ns env) sa (nd env) da (elem env))
      (fun t cs => mergeRun (w env) (nd env) (env.v d t) da cs)) := by
  rintro s env hadm ⟨hs, hd, hvalid⟩
  rw [hexec]
  exact issue_closes hadm ((convert_run hs hd _ _ _ _ _).trans (encodeLanes_done _ _ _ _ _ _ hvalid)) rfl rfl rfl rfl

theorem conversion_invalid : Traps i opts (fun env => (sa < ns env ∧ da < nd env) ∧
      ∃ t, t < 32 ∧ env.p.has t = true ∧ env.badElem (rm env) (runOf (ns env) sa (nd env) da (elem env)) t ≠ none)
    (fun env =>
      let m := Mask.ofPred (fun t => env.p.has t && (env.badElem (rm env) (runOf (ns env) sa (nd env) da (elem env)) t).isSome)
      { cause := .fmtInvalid
        tval := BitVec.ofNat 64 (da + (env.badElem (rm env) (runOf (ns env) sa (nd env) da (elem env)) m.low).getD 0), mask := m }) := by
  rintro s env hadm ⟨⟨hs, hd⟩, hbad⟩
  rw [hexec]
  exact issue_trap hadm ((convert_run hs hd _ _ _ _ _).trans (encodeLanes_invalid _ _ _ _ _ _ hbad))

theorem conversion_beyond : Traps i opts (fun env => ns env ≤ sa ∨ nd env ≤ da)
    (fun env => { cause := .illegalOperand, tval := env.word, mask := env.e.mask }) := by
  intro s env hadm hbeyond
  rw [hexec]
  exact issue_trap hadm (convert_beyond hbeyond _ _ _ _ _)

end

/-- Settles O13: a conversion ends as its starts and the elements of its run say; FRND and FABSN encode every element. -/
theorem conversionResults : Obligations.ConversionResults := by
  unfold Obligations.ConversionResults
  refine ⟨fun r => ?fcvt, fun r => ?fbscl, fun r => ?ftoi, fun r => ?itof, fun r => ?frnd, fun r => ?fabsn⟩
  case fcvt =>
    have hexec : ∀ s, exec (.fcvt r) s = execFcvt r s := fun _ => rfl
    exact ⟨conversion_completes hexec, conversion_invalid hexec, conversion_beyond hexec⟩
  case fbscl =>
    have hexec : ∀ s, exec (.fbscl r) s = execFbscl r s := fun _ => rfl
    exact ⟨conversion_completes hexec, conversion_invalid hexec, conversion_beyond hexec⟩
  case ftoi =>
    have hexec : ∀ s, exec (.ftoi r) s = execFtoi r s := fun _ => rfl
    exact ⟨conversion_completes hexec, conversion_invalid hexec, conversion_beyond hexec⟩
  case itof =>
    have hexec : ∀ s, exec (.itof r) s = execItof r s := fun _ => rfl
    exact ⟨conversion_completes hexec, conversion_invalid hexec, conversion_beyond hexec⟩
  case frnd => exact encodes_of fun s => rfl
  case fabsn => exact encodes_of fun s => rfl

end Sys2Proof.SlotResults
end

section
/-! PROOFS. Events of cards and of the matrix engine (R187 to R190, R202 to R207). -/

namespace Sys2Proof.Engines

open Sys2Proof Machine Laws

/-! ### The next number and the count of free values -/

/-- A step of an engine gives out no number and takes no free value. -/
def KeepsNumbers (s t : State) : Prop := t.nextId = s.nextId ∧ t.freeCount = s.freeCount

theorem numbers_refl (s : State) : KeepsNumbers s s := ⟨rfl, rfl⟩

theorem numbers_trans {s t u : State} (h : KeepsNumbers s t) (k : KeepsNumbers t u) : KeepsNumbers s u :=
  ⟨k.1.trans h.1, k.2.trans h.2⟩

theorem numbers_foldl {α : Type} {f : State → α → State} (hf : ∀ s a, KeepsNumbers s (f s a)) (l : List α) (s : State) :
    KeepsNumbers s (l.foldl f s) :=
  List.foldlRecOn (motive := KeepsNumbers s) l f (numbers_refl s) (fun t ht a _ => numbers_trans ht (hf t a))

theorem numbers_record (s : State) (src loc : Word) : KeepsNumbers s (s.record src loc) := by
  unfold State.record
  split <;> exact ⟨rfl, rfl⟩

theorem numbers_noteHit (s : State) (a : Word) (h : Hit) : KeepsNumbers s (s.noteHit a h) := by
  unfold State.noteHit
  split
  · rename_i n ks
    have hrec : KeepsNumbers s (s.recordKeys 0x02 ks) := numbers_foldl (fun t k => numbers_record t _ _) ks s
    dsimp only
    split <;> exact hrec
  · exact numbers_refl s

theorem numbers_countPage (s : State) (c : Option Nat) (die va n : Nat) : KeepsNumbers s (s.countPage c die va n) := by
  unfold State.countPage
  split
  · exact numbers_refl s
  · split <;> exact ⟨rfl, rfl⟩

theorem numbers_countMiss (s : State) (c core : Nat) (ps : List Piece) : KeepsNumbers s (s.countMiss c core ps) :=
  numbers_foldl (fun t p => by
    split
    · exact numbers_refl t
    · exact numbers_countPage t _ _ _ _) ps s

theorem numbers_countLines (s : State) (x : Context) (e : Seat) (write : Bool) (lo hi : Nat) :
    KeepsNumbers s (countLines s x e write lo hi) := by
  unfold countLines
  split
  · exact numbers_countMiss s _ _ _
  · exact numbers_refl s

theorem numbers_touchLeaf (s : State) (x : Context) (unit va : Nat) (write : Bool) : KeepsNumbers s (touchLeaf s x unit va write) := by
  unfold touchLeaf
  split <;> exact ⟨rfl, rfl⟩

theorem numbers_touchWindow (s : State) (x : Context) (e : Seat) (w : Window) (write : Bool) :
    KeepsNumbers s (touchWindow s x e w write) :=
  numbers_foldl (fun t _ => numbers_trans (numbers_touchLeaf t _ _ _ _) (numbers_countLines _ _ _ _ _ _)) w.pageRuns s

theorem numbers_noteOperand (s : State) (x : Context) (o : EngOp) (d : BitVec 256) (w : Window) :
    KeepsNumbers s (noteOperand s x o d w) :=
  numbers_foldl (fun t h => numbers_noteHit t _ h) _ s

theorem numbers_engPut (s : State) (die : Nat) (ps : List Piece) (v : Nat) : KeepsNumbers s (engPut s die ps v) := by
  refine numbers_foldl (fun t p => ?_) ps s
  exact ⟨rfl, rfl⟩

theorem numbers_engWriteFrom (x : Context) (e : Seat) (space place : Nat) (puts : List Put) (s : State) (done : List Piece) :
    KeepsNumbers s (engWriteFrom s x e space place puts done).1 := by
  induction puts generalizing s done with
  | nil => exact numbers_refl s
  | cons p r ih =>
    unfold engWriteFrom
    dsimp only
    split
    · exact numbers_trans (numbers_engPut s _ _ _) (ih _ _)
    · exact numbers_refl s

theorem numbers_engWriteAll (s : State) (x : Context) (e : Seat) (space place : Nat) (puts : List Put) :
    KeepsNumbers s (engWriteAll s x e space place puts).1 :=
  numbers_engWriteFrom x e space place puts s []

theorem numbers_engStore (s : State) (x : Context) (e : Seat) (a n v : Nat) : KeepsNumbers s (engStore s x e a n v) := by
  unfold engStore
  dsimp only
  split
  · exact numbers_trans (numbers_engWriteAll s _ _ _ _ _)
      (numbers_trans (numbers_touchLeaf _ _ _ _ _) (numbers_countLines _ _ _ _ _ _))
  · exact numbers_noteHit s _ _

/-! ### Cards are accepted -/

theorem jpost_accepted {c cl ch : Nat} {s : State} {x : Context} {p : Posted} (hctx : s.ctx? c = some x)
    (hposted : x.posted.find? (fun p => p.card.cl = cl && p.card.ch = ch) = some p) (hactive : x.active = true) :
    exec (.jpostAccept c cl ch) s = .next ({ s with nextId := s.nextId + 2 }.setCtx ({ x with
      posted := x.posted.filter (fun y => y.prod ≠ p.prod), cards := x.cards ++ [{ p.card with id := s.nextId }] }.owe (s.nextId + 1) p.uid
        { uniform := true, reg := p.d.toNat, lane := 0, prod := p.prod, allocGen := 0 } (BitVec.ofNat 64 p.card.seq) none)) := by
  show execJpostAccept c cl ch s = _
  simp only [execJpostAccept, hctx, hposted, hactive, Bool.not_true, Bool.false_eq_true, if_false]

/-- Where the engine of a walking channel stands (R185). -/
def chainSeat (cl : Nat) (n : Channel) : Seat :=
  { die := cl / 64, cl := cl, core := n.chainCore, spBase := n.chainSp.1, spSize := n.chainSp.2 }

/-- The card that a walk takes at an address: with STATUS 6 at once where its fixed words do not hold what R183 allows. -/
def chainTaken (s : State) (x : Context) (n : Channel) (e : Seat) (a id : Nat) : Card :=
  let k := chainCard s x n e a id
  if chainWordsOk s x e a k then k else { k with status := 6 }

theorem chainTaken_seq (s : State) (x : Context) (n : Channel) (e : Seat) (a id : Nat) : (chainTaken s x n e a id).seq = n.nextSeq := by
  unfold chainTaken
  dsimp only
  split <;> rfl

section
variable {c cl ch a v : Nat} {n : Channel} {s : State} {x : Context} (hctx : s.ctx? c = some x) (hchan : x.chan? cl ch = some n)
  (hwalking : n.walking = some a) (hactive : x.active = true)
  (hread : (engRead s x (chainSeat cl n) 0 0 (a * 8) 1024).2 = .ok v)
include hctx hchan hwalking hactive hread

/-- A walk that comes to a card which the program owns ends (R185). -/
theorem chain_ends (hown : (cardWord (touchLeaf s x (tlbCluster cl) a false) x (chainSeat cl n) a 0).testBit 63 = false) :
    exec (.chainCardAccept c cl ch) s =
      .next ((touchLeaf s x (tlbCluster cl) a false).setCtx (x.setChan { n with walking := none })) := by
  unfold chainSeat at hread hown
  show execChainCardAccept c cl ch s = _
  simp only [execChainCardAccept, hctx, hchan, hwalking, hread, hactive, hown, Bool.not_true, Bool.false_eq_true, if_false, Bool.not_false,
    if_true]

/-- A walk takes a card that the engine owns, under the next number, and goes on to the one that it names (R185). -/
theorem chain_takes (hown : (cardWord (touchLeaf s x (tlbCluster cl) a false) x (chainSeat cl n) a 0).testBit 63 = true) :
    exec (.chainCardAccept c cl ch) s =
      let t := touchLeaf s x (tlbCluster cl) a false
      let k := chainTaken t x n (chainSeat cl n) a s.nextId
      let nx := natBits (cardWord t x (chainSeat cl n) a 0) 56 7 * 128
      let y := (x.clearLines (k.sramLines x)).setChan { n with
        walking := if nx = 0 then none else some nx, nextSeq := (n.nextSeq + 1) % 2 ^ 32 }
      .next ({ engStore t x (chainSeat cl n) (a + 12) 4 n.nextSeq with nextId := s.nextId + 1 }.setCtx { y with cards := y.cards ++ [k] }) := by
  have hid : (touchLeaf s x (tlbCluster cl) a false).nextId = s.nextId := (numbers_touchLeaf s x (tlbCluster cl) a false).1
  have hkept := (numbers_engStore (touchLeaf s x (tlbCluster cl) a false) x (chainSeat cl n) (a + 12) 4 n.nextSeq).1.trans hid
  have hseq := chainTaken_seq (touchLeaf s x (tlbCluster cl) a false) x n (chainSeat cl n) a s.nextId
  unfold chainTaken at hseq
  unfold chainSeat at hread hown hkept hseq
  show execChainCardAccept c cl ch s = _
  simp only [execChainCardAccept, hctx, hchan, hwalking, hread, hactive, hown, hid, hkept, hseq, Bool.not_true, Bool.false_eq_true, if_false]
  rfl

end

/-! ### Cards start -/

theorem begin_unfit {s : State} {x : Context} {k : Card} {j : Nat} (hfits : k.fits x j = false) :
    k.begin s x j = s.setCtx (x.setCard { k with status := 6 }) := by
  simp only [Card.begin, hfits, Bool.not_false, if_true]

/-- An iteration that passes its tests, and none of whose words read ahead fails, adds its items to the card (R188, R189). -/
theorem begin_fits {s : State} {x : Context} {k : Card} {j v : Nat} (hfits : k.fits x j = true)
    (hread : (k.readAhead s x j).2 = .ok v) :
    k.begin s x j = (countWindow (touchWindow s x k.seat (k.src j) false) x k.seat (k.dst j) true).setCtx (x.setCard
      { (k.readAhead s x j).1 with started := true, iter := j + 1, items := k.items ++ k.itemsOf j }) := by
  simp only [Card.begin, hfits, hread, Bool.not_true, Bool.false_eq_true, if_false]
  rfl

section
variable {c id : Nat} {s : State} {x : Context} {k : Card} (hctx : s.ctx? c = some x) (hcard : x.card? id = some k)
  (hactive : x.active = true)
include hctx hcard hactive

section
variable (hstarted : k.started = false) (hstatus : k.status = 0) (hfree : x.blocked k.cl k.id (k.hulls x 0) = false)
include hstarted hstatus hfree

omit hctx hcard in
/-- Nothing keeps a card from starting that has not started or ended and that no earlier work blocks. -/
theorem start_open : (!x.active || k.started || decide (k.status ≠ 0) || x.blocked k.cl k.id (k.hulls x 0)) = false := by
  rw [hactive, hstarted, hstatus, hfree]
  rfl

/-- A card of an ended launch does not start (R344). -/
theorem start_ended {l : Launch} (hlaunch : x.launch? k.q = some l) (hended : l.ended ≠ none) :
    exec (.cardStart c id) s = .next (s.setCtx (x.setCard { k with status := 5 })) := by
  have hopen := start_open hactive hstarted hstatus hfree
  show execCardStart c id s = _
  simp only [execCardStart, hctx, hcard, hopen, hlaunch, Option.isSome_iff_ne_none.mpr hended, Bool.false_eq_true, if_false, if_true]

theorem start_begins (hlive : ∀ l, x.launch? k.q = some l → l.ended = none) : exec (.cardStart c id) s = .next (k.begin s x 0) := by
  have hopen := start_open hactive hstarted hstatus hfree
  show execCardStart c id s = _
  cases hlaunch : x.launch? k.q with
  | none => simp only [execCardStart, hctx, hcard, hopen, hlaunch, Bool.false_eq_true, if_false]
  | some l => simp only [execCardStart, hctx, hcard, hopen, hlaunch, hlive l hlaunch, Option.isSome_none, Bool.false_eq_true, if_false]

end

/-- The next iteration begins once a permit is free and it conflicts with none that is outstanding (R189). -/
theorem iteration_begins (hstarted : k.started = true) (hkept : k.cancelled = false) (hgoing : k.going = true) (hleft : k.iter < k.iters)
    (hpermit : k.outstanding.length < k.perm)
    (hapart : ∀ j ∈ k.outstanding, ∀ a ∈ k.regs x j, ∀ b ∈ k.regs x k.iter, a.conflicts b = false) :
    exec (.loopIterationStart c id) s = .next (k.begin s x k.iter) := by
  have hclash : k.outstanding.any (fun j => (k.regs x j).any (fun a => (k.regs x k.iter).any a.conflicts)) = false := by
    simp only [List.any_eq_false, Bool.not_eq_true]
    exact hapart
  have hopen : (!x.active || !k.started || k.cancelled || !k.going || decide (k.iters ≤ k.iter) ||
      decide (k.perm ≤ k.outstanding.length) ||
      k.outstanding.any (fun j => (k.regs x j).any (fun a => (k.regs x k.iter).any a.conflicts))) = false := by
    rw [hactive, hstarted, hkept, hgoing, decide_eq_false (Nat.not_le.mpr hleft), decide_eq_false (Nat.not_le.mpr hpermit), hclash]
    rfl
  show execLoopIterationStart c id s = _
  simp only [execLoopIterationStart, hctx, hcard, hopen, Bool.false_eq_true, if_false]

/-! ### Items are carried out -/

omit hactive in
/-- A line outside a card's write region is none of its own. -/
theorem line_outside {line : Nat} (hline : ¬keySram x.id k.core k.spBase / 128 + line ∈ k.sramLines x) :
    exec (.cardLineWritten c id line) s = .next s := by
  have hout : (k.sramLines x).contains (keySram x.id k.core k.spBase / 128 + line) = false :=
    Bool.eq_false_iff.mpr (fun h => hline (List.contains_iff_mem.mp h))
  show execCardLineWritten c id line s = _
  simp only [execCardLineWritten, hctx, hcard, hout, Bool.not_false, Bool.or_true, if_true]

section
variable (hstarted : k.started = true) (hgoing : k.going = true)
include hstarted hgoing

/-- A line of a card's write region is written, and is present once no iteration to come writes it (R190). -/
theorem line_written {line v : Nat} (hspace : (k.dst 0).space = 1) (hline : keySram x.id k.core k.spBase / 128 + line ∈ k.sramLines x)
    (hrun : (k.runRange s x (line * 128) (line * 128 + 127)).hit = .ok v) :
    exec (.cardLineWritten c id line) s =
      let z := k.runRange s x (line * 128) (line * 128 + 127)
      let y := z.ctx.setCard z.card
      .next (z.dev.setCtx (if k.mayWrite (line * 128) (line * 128 + 127) then y
        else y.setLines [keySram x.id k.core k.spBase / 128 + line])) := by
  have hopen : (!x.active || !k.started || !k.going || decide ((k.dst 0).space ≠ 1) ||
      !(k.sramLines x).contains (keySram x.id k.core k.spBase / 128 + line)) = false := by
    rw [hactive, hstarted, hgoing, hspace, List.contains_iff_mem.mpr hline]
    rfl
  show execCardLineWritten c id line s = _
  simp only [execCardLineWritten, hctx, hcard, hrun, hopen, Bool.false_eq_true, if_false, apply_ite (State.setCtx _)]

/-- A chunk that no iteration to come writes is carried out and marked in the bitmap (R190). -/
theorem chunk_done {n v : Nat} (hready : k.bmap = 0 ∨ engWaits s x k.seat (k.bitmapAt n) = false)
    (hrun : (k.runRange s x (k.chunkAt n) (k.chunkAt n + 511)).hit = .ok v)
    (hlast : k.mayWrite (k.chunkAt n) (k.chunkAt n + 511) = false) :
    exec (.cardChunkDone c id n) s =
      let z := k.runRange s x (k.chunkAt n) (k.chunkAt n + 511)
      let q := z.card.endChunk z.dev z.ctx n
      .next (q.1.setCtx (z.ctx.setCard q.2)) := by
  have hword : (decide (k.bmap ≠ 0) && engWaits s x k.seat (k.bitmapAt n)) = false := by
    rcases hready with h | h
    · rw [decide_eq_false (not_not_intro h), Bool.false_and]
    · rw [h, Bool.and_false]
  have hopen : (!x.active || !k.started || !k.going || (decide (k.bmap ≠ 0) && engWaits s x k.seat (k.bitmapAt n))) = false := by
    rw [hactive, hstarted, hgoing, hword]
    rfl
  show execCardChunkDone c id n s = _
  simp only [execCardChunkDone, hctx, hcard, hopen, hrun, hlast, Bool.false_eq_true, if_false]

end

/-! ### Cards end -/

section
variable (hready : k.endWaits s x = false)
include hready

omit hctx hcard in
theorem complete_open : (!x.active || k.endWaits s x) = false := by
  rw [hactive, hready]
  rfl

/-- A card that has ended before its items are carried out, other than by its tests, ends as it is. -/
theorem complete_ended (hgoing : k.going = false) (hstatus : k.status ≠ 6) :
    exec (.cardComplete c id) s = .next (k.finish s x k.status) := by
  have hopen := complete_open hactive hready
  show execCardComplete c id s = _
  simp only [execCardComplete, hctx, hcard, hopen, hgoing, hstatus, Bool.not_false, Bool.false_eq_true, if_false, if_true]

/-- A card of which an iteration failed its tests carries out those before it (R188). -/
theorem complete_unfit (hstatus : k.status = 6) (hrun : (k.run s x (fun _ => true)).hit ≠ .wait) :
    exec (.cardComplete c id) s =
      let z := k.run s x (fun _ => true)
      .next (z.card.finish z.dev z.ctx 6) := by
  have hgoing : k.going = false := by
    rw [Card.going, hstatus]
    rfl
  have hopen := complete_open hactive hready
  show execCardComplete c id s = _
  cases hhit : (k.run s x (fun _ => true)).hit with
  | wait => exact absurd hhit hrun
  | _ => simp only [execCardComplete, hctx, hcard, hopen, hgoing, hstatus, hhit, Bool.not_false, Bool.false_eq_true, if_false, if_true]

section
variable (hgoing : k.going = true) (hstarted : k.started = true)
include hgoing hstarted

/-- A loop with iterations left completes its oldest outstanding one (R189). -/
theorem complete_oldest {j : Nat} {r : List Nat} (hleft : k.iter < k.iters) (hkept : k.cancelled = false) (hfirst : k.outstanding = j :: r) :
    exec (.cardComplete c id) s =
      let z := k.run s x (fun i => i.iter = j)
      .next (z.dev.setCtx (z.ctx.setCard z.card)) := by
  have hopen := complete_open hactive hready
  have hmore : (decide (k.iter < k.iters) && !k.cancelled) = true := by
    rw [decide_eq_true hleft, hkept]
    rfl
  show execCardComplete c id s = _
  simp only [execCardComplete, hctx, hcard, hopen, hgoing, hstarted, hmore, hfirst, Bool.not_true, Bool.false_eq_true, if_false, if_true]

/-- A card with no iteration to come carries out the rest and ends with its STATUS (R190). -/
theorem complete_last {v : Nat} (hlast : k.iters ≤ k.iter ∨ k.cancelled = true) (hrun : (k.run s x (fun _ => true)).hit = .ok v) :
    exec (.cardComplete c id) s =
      let z := k.run s x (fun _ => true)
      .next (z.card.finish z.dev z.ctx (if z.card.cancelled then 5 else if z.card.status = 7 then 7 else 1)) := by
  have hnone : (decide (k.iter < k.iters) && !k.cancelled) = false := by
    rcases hlast with h | h
    · rw [decide_eq_false (Nat.not_lt.mpr h), Bool.false_and]
    · rw [h, Bool.not_true, Bool.and_false]
  have hopen := complete_open hactive hready
  show execCardComplete c id s = _
  simp only [execCardComplete, hctx, hcard, hopen, hgoing, hstarted, hnone, hrun, Bool.not_true, Bool.false_eq_true, if_false]

end
end
end

/-! ### The matrix engine -/

/-- The worst of results none of which waits does not wait. -/
theorem firstBad_ne_wait {hs : List Hit} (h : ∀ v ∈ hs, v ≠ .wait) : firstBad hs ≠ .wait := by
  unfold firstBad
  split
  · rename_i v hv
    exact h v (List.mem_of_find?_eq_some hv)
  · exact Hit.noConfusion

/-- The elements that ASTO writes to its window, each as it is read out (R205). -/
def astoPuts (x : Context) (o : EngOp) (t : Tile) : List Put :=
  let w := windowOf o.da o.fa 0
  w.cells.map (fun q => { pos := w.elem q.1 q.2, len := w.f.width, v := (x.readOut t (x.zeroOf o) w.f q.1 q.2).1 })

section
variable {c id : Nat} {s : State} {x : Context} {o : EngOp} {t : Tile} (hctx : s.ctx? c = some x)
  (hop : x.engOps.find? (fun o => o.id = id) = some o) (htile : o.tile = some t) (hactive : x.active = true)
  (hin : x.isOut o.blk = false) (hhead : x.headOp o = true)
include hctx hop htile hactive hin hhead

/-- A tile task at the head of its handle multiplies once no earlier work of its cluster conflicts (R188, R202). -/
theorem mma_multiplies (hmma : o.op ≤ 1) (hfree : x.blocked o.cl o.id (o.regs x) = false) :
    exec (.mmaComplete c id) s = .next (o.multiply s x t) := by
  have hopen : (x.active && !x.isOut o.blk && decide (o.op ≤ 1) && x.headOp o && !x.blocked o.cl o.id (o.regs x)) = true := by
    rw [hactive, hin, decide_eq_true hmma, hhead, hfree]
    rfl
  show execMmaComplete c id s = _
  simp only [execMmaComplete, hctx, hop, htile, hopen, if_true]

/-- ASTO writes its elements in the window's format, with the presence bits of its lines, and ends (R205). -/
theorem asto_writes (hasto : o.op = 3) (hquiet : x.quietBefore o = true) (hfirst : x.astoFirst s o = false)
    (hfree : x.holdsWindow s o.seat (windowOf o.da o.fa 0) = false) {v : Nat}
    (hwrite : (engWriteAll s x o.seat (windowOf o.da o.fa 0).space (windowOf o.da o.fa 0).place (astoPuts x o t)).2.2 = .ok v) :
    exec (.astoComplete c id) s =
      let w := windowOf o.da o.fa 0
      let z := engWriteAll s x o.seat w.space w.place (astoPuts x o t)
      let y := x.setLines (w.sramLines x o.seat)
      .next ((touchWindow z.1 x o.seat w true).setCtx ((y.setFlags o (x.zeroOf o) (fun e => e || w.cells.any (fun q =>
        (x.readOut t (x.zeroOf o) w.f q.1 q.2).2))).endOp o).flush) := by
  unfold astoPuts at hwrite
  have hopen : (!x.active || x.isOut o.blk || decide (o.op ≠ 3) || !x.headOp o || !x.quietBefore o || x.astoFirst s o ||
      x.holdsWindow s o.seat (windowOf o.da o.fa 0)) = false := by
    rw [hactive, hin, hasto, hhead, hquiet, hfirst, hfree]
    rfl
  show execAstoComplete c id s = _
  simp only [execAstoComplete, hctx, hop, htile, hopen, hwrite, Bool.false_eq_true, if_false]
  rfl

/-- ALDR fills its tile from the elements of its window, each encoded in the tile's format, and ends (R206). -/
theorem aldr_fills (haldr : o.op = 2) (hquiet : x.quietBefore o = true) {v : Nat}
    (hread : (operand s x o.seat (windowOf o.da o.fa 0) 0).2 = .ok v) :
    exec (.aldrComplete c id) s =
      let w := windowOf o.da o.fa 0
      let f := Fmt.ofWord t.af
      let r := operand s x o.seat w 0
      let elem := fun i c => f.encodeEngine (w.f.decode ((r.1.getD i []).getD c (0, 0)).1) f.engineRm
        (w.f.signBit ((r.1.getD i []).getD c (0, 0)).1)
      let bad := (List.range t.m).any (fun i => (List.range t.n).any (fun c => (elem i c).2))
      .next ({ touchWindow (noteOperand s x o o.da w) x o.seat w false with freeCount := s.freeCount + w.rows * w.cols }.setCtx
        (((x.setTile t (fun i c => (elem i c).1)).setFlags o false (fun e => e || bad)).endOp o).flush) := by
  have hopen : (!x.active || x.isOut o.blk || decide (o.op ≠ 2) || !x.headOp o || !x.quietBefore o) = false := by
    rw [hactive, hin, haldr, hhead, hquiet]
    rfl
  show execAldrComplete c id s = _
  simp only [execAldrComplete, hctx, hop, htile, hopen, hread, Bool.false_eq_true, if_false]

end

/-- A tile task forms its elements from what its operands hold, and a free value for what cannot be read (R202). -/
theorem multiply_forms (s : State) (x : Context) (o : EngOp) (t : Tile)
    (hread : ∀ v ∈ [(operand s x o.seat (windowOf o.da o.fa 0) 0).2, (operand s x o.seat (windowOf o.db o.fb 0)
      ((windowOf o.da o.fa 0).rows * (windowOf o.da o.fa 0).cols)).2], v ≠ .wait) :
    o.multiply s x t =
      let wa := windowOf o.da o.fa 0
      let wb := windowOf o.db o.fb 0
      let ra := operand s x o.seat wa 0
      let rb := operand s x o.seat wb (wa.rows * wa.cols)
      let chunk := if max wa.f.width wb.f.width ≤ 4 then 64 else 32
      let row : Nat → List (Val × Bool) := fun i => (ra.1.getD i []).map (fun q => (wa.f.valueOf q.2 q.1, wa.f.signBit q.1))
      let col : Nat → List Val := fun c => if o.bt || o.op = 1 then (rb.1.getD c []).map (fun q => wb.f.valueOf q.2 q.1)
        else rb.1.map (fun r => wb.f.valueOf (r.getD c (0, 0)).2 (r.getD c (0, 0)).1)
      let elem := fun i c => mmaElem (Fmt.ofWord t.af) chunk (x.accCode t (x.zeroOf o) i c) (row i) (col c) (wa.cols / chunk)
      let bad := (List.range t.m).any (fun i => (List.range t.n).any (fun c => (elem i c).2))
      let y := ((x.setTile t (fun i c => (elem i c).1)).setFlags o false (fun e => e || bad)).endOp o
      { touchWindow (touchWindow (noteOperand (noteOperand s x o o.da wa) x o o.db wb) x o.seat wa false) x o.seat wb false with
        freeCount := s.freeCount + wa.rows * wa.cols + wb.rows * wb.cols }.setCtx y.flush := by
  have hwait := firstBad_ne_wait hread
  have hcount : (touchWindow (touchWindow (noteOperand (noteOperand s x o o.da (windowOf o.da o.fa 0)) x o o.db (windowOf o.db o.fb 0)) x o.seat
      (windowOf o.da o.fa 0) false) x o.seat (windowOf o.db o.fb 0) false).freeCount = s.freeCount :=
    (numbers_trans (numbers_noteOperand s x o _ _) (numbers_trans (numbers_noteOperand _ x o _ _)
      (numbers_trans (numbers_touchWindow _ x _ _ _) (numbers_touchWindow _ x _ _ _)))).2
  unfold EngOp.multiply
  extract_lets wa wb ra rb
  split
  · exact absurd ‹_› hwait
  · rw [← hcount]

/-- Word j of a read-out in a lane: the elements of the lane's row from column c0 + j · n on (R207). -/
def readoutWord (x : Context) (t : Tile) (zero : Bool) (f : Fmt) (r0 c0 j l : Nat) : Word :=
  packElems f.width ((List.range f.elems).map (fun i => (x.readOut t zero f (r0 + l) (c0 + j * f.elems + i)).1))

theorem foldl_writeLanes_blk (w : Warp) (d k : Nat) (p : Mask) (f : Nat → Nat → Word) :
    ((List.range k).foldl (fun v j => v.writeLanes (d + j) p (f j)) w).blk = w.blk :=
  List.foldlRecOn (motive := fun (v : Warp) => v.blk = w.blk) _ _ rfl (fun v hv _ _ => by rw [writeLanes_blk, hv])

/-- A read-out packs the elements of each lane's row into the words of D and frees the warp (R207). -/
theorem amovv_reads {c u h k r0 c0 id : Nat} {d : BitVec 8} {fw : Word} {p : Mask} {s : State} {x : Context} {w : Warp} {t : Tile}
    (hctx : s.ctx? c = some x) (hwarp : x.warp? u = some w) (hpark : w.park = some (.readout d h k fw r0 c0 p id))
    (htile : (w.acc h).tile = some t) (hactive : x.active = true) (hin : x.isOut w.blk = false) :
    exec (.amovvReadout c u) s = .next (s.setCtx (x.setWarp { ((List.range k).foldl (fun v j =>
      v.writeLanes (d.toNat + j) p (readoutWord x t (w.acc h).zero (Fmt.ofWord fw) r0 c0 j)) w) with park := none })) := by
  have hout : x.isOut ((List.range k).foldl (fun v j =>
      v.writeLanes (d.toNat + j) p (readoutWord x t (w.acc h).zero (Fmt.ofWord fw) r0 c0 j)) w).blk = false := by
    rw [foldl_writeLanes_blk, hin]
  unfold readoutWord at hout
  show execAmovvReadout c u s = _
  simp only [execAmovvReadout, hctx, hwarp, hpark, htile, hactive, hout, Bool.not_false, Bool.and_self, if_true]
  rfl

/-- Settles O49: each event ends as its guards and what it carries out say. -/
theorem eventsOfCardsAndTheMatrixEngine : Obligations.EventsOfCardsAndTheMatrixEngine := by
  unfold Obligations.EventsOfCardsAndTheMatrixEngine
  refine ⟨?jpost, ?postCard, ?chain, ?startEnded, ?startUnfit, ?start, ?iteration, ?word, ?line, ?lineOutside, ?chunk, ?ended, ?unfit,
    ?oldest, ?last, ?mma, ?mmaNone, ?mmaChunk, ?asto, ?aldr, ?amovv, ?readOut⟩
  case jpost =>
    rintro c cl ch p s x hctx ⟨hposted, hactive⟩
    exact jpost_accepted hctx hposted hactive
  case postCard => exact fun env p n => ⟨rfl, rfl, rfl, rfl, rfl⟩
  case chain =>
    rintro c cl ch n a s x hctx hchan hwalking hactive e ⟨v, hread⟩ t
    exact ⟨fun hown => chain_ends hctx hchan hwalking hactive hread hown, fun hown => chain_takes hctx hchan hwalking hactive hread hown⟩
  case startEnded =>
    rintro c id k l s x hctx ⟨hcard, hactive, hstarted, hstatus, hfree, hlaunch, hended⟩
    exact start_ended hctx hcard hactive hstarted hstatus hfree hlaunch hended
  case startUnfit =>
    rintro c id k s x hctx ⟨hcard, hactive, hstarted, hstatus, hfree, hlive, hfits⟩
    rw [start_begins hctx hcard hactive hstarted hstatus hfree hlive, begin_unfit hfits]
  case start =>
    rintro c id k v s x hctx ⟨hcard, hactive, hstarted, hstatus, hfree, hlive, hfits, hread⟩
    rw [start_begins hctx hcard hactive hstarted hstatus hfree hlive, begin_fits hfits hread]
  case iteration =>
    rintro c id k v s x hctx ⟨hcard, hactive, hstarted, hkept, hgoing, hleft, hpermit, hapart, hfits, hread⟩
    rw [iteration_begins hctx hcard hactive hstarted hkept hgoing hleft hpermit hapart, begin_fits hfits hread]
  case word => exact fun s x k j n => rfl
  case line =>
    rintro c id line k v s x hctx ⟨hcard, hactive, hstarted, hgoing, hspace, hline, hrun⟩
    exact line_written hctx hcard hactive hstarted hgoing hspace hline hrun
  case lineOutside =>
    rintro c id line k s x hctx ⟨hcard, hline⟩
    exact line_outside hctx hcard hline
  case chunk =>
    rintro c id n k v s x hctx ⟨hcard, hactive, hstarted, hready, hgoing, hrun, hlast⟩
    exact chunk_done hctx hcard hactive hstarted hgoing hready hrun hlast
  case ended =>
    rintro c id k s x hctx ⟨hcard, hactive, hready, hgoing, hstatus⟩
    exact complete_ended hctx hcard hactive hready hgoing hstatus
  case unfit =>
    rintro c id k s x hctx ⟨hcard, hactive, hready, hstatus, hrun⟩
    exact complete_unfit hctx hcard hactive hready hstatus hrun
  case oldest =>
    rintro c id k j r s x hctx ⟨hcard, hactive, hready, hgoing, hstarted, hleft, hkept, hfirst⟩
    exact complete_oldest hctx hcard hactive hready hgoing hstarted hleft hkept hfirst
  case last =>
    rintro c id k v s x hctx ⟨hcard, hactive, hready, hgoing, hstarted, hlast, hrun⟩
    exact complete_last hctx hcard hactive hready hgoing hstarted hlast hrun
  case mma =>
    rintro c id o t s x hctx ⟨hop, htile, hactive, hin, hmma, hhead, hfree, hread⟩
    exact (mma_multiplies hctx hop htile hactive hin hhead hmma hfree).trans (congrArg Host.Outcome.next (multiply_forms s x o t hread))
  case mmaNone => exact fun f chunk prior a b => rfl
  case mmaChunk => exact fun f chunk prior a b n => rfl
  case asto =>
    rintro c id o t v s x hctx ⟨hop, htile, hactive, hin, hasto, hhead, hquiet, hfirst, hfree, hwrite⟩
    exact asto_writes hctx hop htile hactive hin hhead hasto hquiet hfirst hfree hwrite
  case aldr =>
    rintro c id o t v s x hctx ⟨hop, htile, hactive, hin, haldr, hhead, hquiet, hread⟩
    exact aldr_fills hctx hop htile hactive hin hhead haldr hquiet hread
  case amovv =>
    rintro c u d h k fw r0 c0 p id t s x w hctx hwarp ⟨hpark, htile, hactive, hin⟩
    exact amovv_reads hctx hwarp hpark htile hactive hin
  case readOut => exact fun x t zero f i c => rfl

end Sys2Proof.Engines
end

section
/-! PROOFS. Decoding and encoding agree: the words of instructions, the bits that a form may use, and the members of an opcode (R81 to
R97). -/

namespace Sys2Proof.Codec

open Sys2Proof Machine Laws

/-! ### From an instruction to its word and back -/

/-- Settles O1: one round trip for each constructor. -/
theorem everyInstructionRoundTrips : Obligations.EveryInstructionRoundTrips := by
  unfold Obligations.EveryInstructionRoundTrips
  intro i
  cases i with
  | nop _ => exact RoundTrip.nop _
  | bra _ => exact RoundTrip.bra _
  | bruAny _ => exact RoundTrip.bruAny _
  | bruAll _ => exact RoundTrip.bruAll _
  | brx _ => exact RoundTrip.brx _
  | call _ => exact RoundTrip.call _
  | callx _ => exact RoundTrip.callx _
  | ret _ => exact RoundTrip.ret _
  | exit _ => exact RoundTrip.exit _
  | wjoin _ => exact RoundTrip.wjoin _
  | yield _ => exact RoundTrip.yield _
  | prioImm _ => exact RoundTrip.prioImm _
  | prioReg _ => exact RoundTrip.prioReg _
  | trap _ => exact RoundTrip.trap _
  | bkpt _ => exact RoundTrip.bkpt _
  | napImm _ => exact RoundTrip.napImm _
  | napReg _ => exact RoundTrip.napReg _
  | sadd _ => exact RoundTrip.sadd _
  | ssub _ => exact RoundTrip.ssub _
  | smul _ => exact RoundTrip.smul _
  | smulh _ => exact RoundTrip.smulh _
  | sand _ => exact RoundTrip.sand _
  | sor _ => exact RoundTrip.sor _
  | sxor _ => exact RoundTrip.sxor _
  | sshl _ => exact RoundTrip.sshl _
  | sshr _ => exact RoundTrip.sshr _
  | ssra _ => exact RoundTrip.ssra _
  | smin _ => exact RoundTrip.smin _
  | smax _ => exact RoundTrip.smax _
  | saddi _ => exact RoundTrip.saddi _
  | sldi _ => exact RoundTrip.sldi _
  | sldhi _ => exact RoundTrip.sldhi _
  | scmp _ => exact RoundTrip.scmp _
  | ssel _ => exact RoundTrip.ssel _
  | sget _ => exact RoundTrip.sget _
  | sgetFirst _ => exact RoundTrip.sgetFirst _
  | vbc _ => exact RoundTrip.vbc _
  | iadd _ => exact RoundTrip.iadd _
  | isub _ => exact RoundTrip.isub _
  | imul _ => exact RoundTrip.imul _
  | imulh _ => exact RoundTrip.imulh _
  | imad _ => exact RoundTrip.imad _
  | iand _ => exact RoundTrip.iand _
  | ior _ => exact RoundTrip.ior _
  | ixor _ => exact RoundTrip.ixor _
  | ishl _ => exact RoundTrip.ishl _
  | ishr _ => exact RoundTrip.ishr _
  | isra _ => exact RoundTrip.isra _
  | imin _ => exact RoundTrip.imin _
  | imax _ => exact RoundTrip.imax _
  | icmp _ => exact RoundTrip.icmp _
  | isel _ => exact RoundTrip.isel _
  | iselM _ => exact RoundTrip.iselM _
  | ipopc _ => exact RoundTrip.ipopc _
  | iclz _ => exact RoundTrip.iclz _
  | ibfe _ => exact RoundTrip.ibfe _
  | ibfi _ => exact RoundTrip.ibfi _
  | lea _ => exact RoundTrip.lea _
  | iaddi _ => exact RoundTrip.iaddi _
  | iandi _ => exact RoundTrip.iandi _
  | iori _ => exact RoundTrip.iori _
  | ixori _ => exact RoundTrip.ixori _
  | ishli _ => exact RoundTrip.ishli _
  | ishri _ => exact RoundTrip.ishri _
  | icmpi _ => exact RoundTrip.icmpi _
  | icmpm _ => exact RoundTrip.icmpm _
  | mov _ => exact RoundTrip.mov _
  | movi _ => exact RoundTrip.movi _
  | moviHi _ => exact RoundTrip.moviHi _
  | fadd _ => exact RoundTrip.fadd _
  | fsub _ => exact RoundTrip.fsub _
  | fmul _ => exact RoundTrip.fmul _
  | ffma _ => exact RoundTrip.ffma _
  | fmin _ => exact RoundTrip.fmin _
  | fmax _ => exact RoundTrip.fmax _
  | fabsn _ => exact RoundTrip.fabsn _
  | fcmp _ => exact RoundTrip.fcmp _
  | fclass _ => exact RoundTrip.fclass _
  | fdiv _ => exact RoundTrip.fdiv _
  | fsqrt _ => exact RoundTrip.fsqrt _
  | frcp _ => exact RoundTrip.frcp _
  | frsq _ => exact RoundTrip.frsq _
  | fexp2 _ => exact RoundTrip.fexp2 _
  | flog2 _ => exact RoundTrip.flog2 _
  | fsum _ => exact RoundTrip.fsum _
  | faddi _ => exact RoundTrip.faddi _
  | fmuli _ => exact RoundTrip.fmuli _
  | ffmai _ => exact RoundTrip.ffmai _
  | fcvt _ => exact RoundTrip.fcvt _
  | ftoi _ => exact RoundTrip.ftoi _
  | itof _ => exact RoundTrip.itof _
  | fpack _ => exact RoundTrip.fpack _
  | fbscl _ => exact RoundTrip.fbscl _
  | fdot _ => exact RoundTrip.fdot _
  | frnd _ => exact RoundTrip.frnd _
  | fscale _ => exact RoundTrip.fscale _
  | shfl _ => exact RoundTrip.shfl _
  | shflx _ => exact RoundTrip.shflx _
  | shflud _ => exact RoundTrip.shflud _
  | vote _ => exact RoundTrip.vote _
  | matchEq _ => exact RoundTrip.matchEq _
  | mrank _ => exact RoundTrip.mrank _
  | mlead _ => exact RoundTrip.mlead _
  | elect _ => exact RoundTrip.elect _
  | plog _ => exact RoundTrip.plog _
  | pmov _ => exact RoundTrip.pmov _
  | pmovSet _ => exact RoundTrip.pmovSet _
  | pbal _ => exact RoundTrip.pbal _
  | redux _ => exact RoundTrip.redux _
  | fredx _ => exact RoundTrip.fredx _
  | scan _ => exact RoundTrip.scan _
  | scanFadd _ => exact RoundTrip.scanFadd _
  | ld _ => exact RoundTrip.ld _
  | ld2 _ => exact RoundTrip.ld2 _
  | ldp _ => exact RoundTrip.ldp _
  | lds _ => exact RoundTrip.lds _
  | ldv _ => exact RoundTrip.ldv _
  | ldu _ => exact RoundTrip.ldu _
  | ldacq _ => exact RoundTrip.ldacq _
  | ldpv _ => exact RoundTrip.ldpv _
  | pfetch _ => exact RoundTrip.pfetch _
  | ldg _ => exact RoundTrip.ldg _
  | st _ => exact RoundTrip.st _
  | st2 _ => exact RoundTrip.st2 _
  | stp _ => exact RoundTrip.stp _
  | sts _ => exact RoundTrip.sts _
  | stv _ => exact RoundTrip.stv _
  | stu _ => exact RoundTrip.stu _
  | strel _ => exact RoundTrip.strel _
  | stpv _ => exact RoundTrip.stpv _
  | mst _ => exact RoundTrip.mst _
  | msto _ => exact RoundTrip.msto _
  | stsc _ => exact RoundTrip.stsc _
  | atom _ => exact RoundTrip.atom _
  | acas _ => exact RoundTrip.acas _
  | atoms _ => exact RoundTrip.atoms _
  | fatom _ => exact RoundTrip.fatom _
  | fence _ => exact RoundTrip.fence _
  | atomv _ => exact RoundTrip.atomv _
  | jpost _ => exact RoundTrip.jpost _
  | chsetRing _ => exact RoundTrip.chsetRing _
  | chsetChain _ => exact RoundTrip.chsetChain _
  | twait _ => exact RoundTrip.twait _
  | sqwait _ => exact RoundTrip.sqwait _
  | presq _ => exact RoundTrip.presq _
  | sinv _ => exact RoundTrip.sinv _
  | sinvSet _ => exact RoundTrip.sinvSet _
  | tdesc _ => exact RoundTrip.tdesc _
  | tmod _ => exact RoundTrip.tmod _
  | jcancel _ => exact RoundTrip.jcancel _
  | qpush _ => exact RoundTrip.qpush _
  | mma _ => exact RoundTrip.mma _
  | mmaCo _ => exact RoundTrip.mmaCo _
  | mmas _ => exact RoundTrip.mmas _
  | mmasCo _ => exact RoundTrip.mmasCo _
  | azero _ => exact RoundTrip.azero _
  | arel _ => exact RoundTrip.arel _
  | asto _ => exact RoundTrip.asto _
  | aldr _ => exact RoundTrip.aldr _
  | amovv _ => exact RoundTrip.amovv _
  | aqry _ => exact RoundTrip.aqry _
  | bsync _ => exact RoundTrip.bsync _
  | barr _ => exact RoundTrip.barr _
  | bcast _ => exact RoundTrip.bcast _
  | brecv _ => exact RoundTrip.brecv _
  | msend _ => exact RoundTrip.msend _
  | mpost _ => exact RoundTrip.mpost _
  | mtest _ => exact RoundTrip.mtest _
  | mprobe _ => exact RoundTrip.mprobe _
  | mcancel _ => exact RoundTrip.mcancel _
  | asend _ => exact RoundTrip.asend _
  | gen _ => exact RoundTrip.gen _
  | yld _ => exact RoundTrip.yld _
  | gdone _ => exact RoundTrip.gdone _
  | gtake _ => exact RoundTrip.gtake _
  | gtakeLn _ => exact RoundTrip.gtakeLn _
  | gnext _ => exact RoundTrip.gnext _
  | launch _ => exact RoundTrip.launch _
  | fdrw _ => exact RoundTrip.fdrw _
  | fdrr _ => exact RoundTrip.fdrr _
  | csrr _ => exact RoundTrip.csrr _
  | csrw _ => exact RoundTrip.csrw _
  | csrwCtx _ => exact RoundTrip.csrwCtx _
  | csrwFairt _ => exact RoundTrip.csrwFairt _
  | csrwFairq _ => exact RoundTrip.csrwFairq _
  | csrwWdog _ => exact RoundTrip.csrwWdog _
  | csrwGencfg _ => exact RoundTrip.csrwGencfg _
  | csrwFres _ => exact RoundTrip.csrwFres _
  | sreg _ => exact RoundTrip.sreg _
  | rgrow _ => exact RoundTrip.rgrow _
  | rshrk _ => exact RoundTrip.rshrk _
  | pdone _ => exact RoundTrip.pdone _
  | eret _ => exact RoundTrip.eret _
  | eretNext _ => exact RoundTrip.eretNext _
  | fwcallVersion _ => exact RoundTrip.fwcallVersion _
  | fwcallCapability _ => exact RoundTrip.fwcallCapability _
  | fwcallJournal _ => exact RoundTrip.fwcallJournal _
  | hadd _ => exact RoundTrip.hadd _
  | hmul _ => exact RoundTrip.hmul _
  | hfma _ => exact RoundTrip.hfma _
  | bhadd _ => exact RoundTrip.bhadd _
  | bhmul _ => exact RoundTrip.bhmul _
  | bhfma _ => exact RoundTrip.bhfma _
  | barw _ => exact RoundTrip.barw _
  | ldtex _ => exact RoundTrip.ldtex _
  | unassignedOpcode _ => exact RoundTrip.unassignedOpcode _
  | fairnessGrant _ _ => exact RoundTrip.fairnessGrant _ _
  | grantEnd _ _ => exact RoundTrip.grantEnd _ _
  | spinWatchdog => exact RoundTrip.spinWatchdog
  | wjoinExpire _ _ _ => exact RoundTrip.wjoinExpire _ _ _
  | rgrowGrant _ _ => exact RoundTrip.rgrowGrant _ _
  | napEnd _ _ => exact RoundTrip.napEnd _ _
  | resultReturn _ _ => exact RoundTrip.resultReturn _ _
  | waitConditionMet _ _ => exact RoundTrip.waitConditionMet _ _
  | waitExpire _ _ => exact RoundTrip.waitExpire _ _
  | accessPerform _ _ _ => exact RoundTrip.accessPerform _ _ _
  | fenceComplete _ _ => exact RoundTrip.fenceComplete _ _
  | jpostAccept _ _ _ => exact RoundTrip.jpostAccept _ _ _
  | chainCardAccept _ _ _ => exact RoundTrip.chainCardAccept _ _ _
  | cardStart _ _ => exact RoundTrip.cardStart _ _
  | loopIterationStart _ _ => exact RoundTrip.loopIterationStart _ _
  | cardComplete _ _ => exact RoundTrip.cardComplete _ _
  | mmaComplete _ _ => exact RoundTrip.mmaComplete _ _
  | astoComplete _ _ => exact RoundTrip.astoComplete _ _
  | aldrComplete _ _ => exact RoundTrip.aldrComplete _ _
  | amovvReadout _ _ => exact RoundTrip.amovvReadout _ _
  | bsyncRelease _ _ _ => exact RoundTrip.bsyncRelease _ _ _
  | barrRelease _ _ _ => exact RoundTrip.barrRelease _ _ _
  | bcastArrive _ _ => exact RoundTrip.bcastArrive _ _
  | reservationGrant _ _ => exact RoundTrip.reservationGrant _ _
  | msendComplete _ _ => exact RoundTrip.msendComplete _ _
  | messageMatch _ _ => exact RoundTrip.messageMatch _ _
  | pieceLand _ _ => exact RoundTrip.pieceLand _ _
  | activeMessageDeliver _ _ => exact RoundTrip.activeMessageDeliver _ _
  | launchAccept _ => exact RoundTrip.launchAccept _
  | blockAdmit _ _ => exact RoundTrip.blockAdmit _ _
  | stageBlockDispatch _ _ _ => exact RoundTrip.stageBlockDispatch _ _ _
  | coreReassign _ _ => exact RoundTrip.coreReassign _ _
  | launchComplete _ _ => exact RoundTrip.launchComplete _ _
  | sliceExpire _ => exact RoundTrip.sliceExpire _
  | preemptSignal _ _ => exact RoundTrip.preemptSignal _ _
  | forcedStop _ _ => exact RoundTrip.forcedStop _ _
  | contextIdleExchange _ => exact RoundTrip.contextIdleExchange _
  | contextExchange _ => exact RoundTrip.contextExchange _
  | remoteAccessFail _ _ => exact RoundTrip.remoteAccessFail _ _
  | cardLineWritten _ _ _ => exact RoundTrip.cardLineWritten _ _ _
  | cardChunkDone _ _ _ => exact RoundTrip.cardChunkDone _ _ _
  | mcastMemberTimeout _ _ _ _ => exact RoundTrip.mcastMemberTimeout _ _ _ _
  | hostDoorbell _ _ _ => exact RoundTrip.hostDoorbell _ _ _
  | launchKill _ _ => exact RoundTrip.launchKill _ _
  | contextCreate _ => exact RoundTrip.contextCreate _
  | fetchFaultSwap _ _ => exact RoundTrip.fetchFaultSwap _ _
  | blockSwapIn _ _ _ => exact RoundTrip.blockSwapIn _ _ _
  | pageMigration _ _ _ _ _ => exact RoundTrip.pageMigration _ _ _ _ _
  | tlbShootdown _ _ => exact RoundTrip.tlbShootdown _ _
  | errorCorrected _ => exact RoundTrip.errorCorrected _
  | japWrite _ => exact RoundTrip.japWrite _
  | nfeatWrite _ => exact RoundTrip.nfeatWrite _
  | functionReady _ => exact RoundTrip.functionReady _
  | portDead _ => exact RoundTrip.portDead _
  | portRetrain _ => exact RoundTrip.portRetrain _
  | fatalFaultRecovery _ => exact RoundTrip.fatalFaultRecovery _
  | fsvRaise _ => exact RoundTrip.fsvRaise _
  | reset => exact RoundTrip.reset
  | powerLoss => exact RoundTrip.powerLoss
  | supplyDroop _ _ => exact RoundTrip.supplyDroop _ _
  | contextEnd _ => exact RoundTrip.contextEnd _
  | tenantRotation _ _ => exact RoundTrip.tenantRotation _ _
  | demandPaging _ _ _ => exact RoundTrip.demandPaging _ _ _
  | uncorrectableError _ => exact RoundTrip.uncorrectableError _
  | attestationRequest _ => exact RoundTrip.attestationRequest _
  | landfaultEntryFree _ _ => exact RoundTrip.landfaultEntryFree _ _

theorem decodeWord_of_wordOf {w : Word} {i : Instr} (hword : wordOf i = w) (hwf : i.wellFormed = true) : decodeWord w = .ok i := by
  rw [← hword]
  exact everyInstructionRoundTrips i (.inl hwf)

/-- Settles O2: each word is the word of its instruction, which is well-formed. -/
theorem specWordsDecode : Obligations.SpecWordsDecode := by
  unfold Obligations.SpecWordsDecode
  refine ⟨?_, ?_, ?_, ?_, ?_, ?_, ?_, ?_, ?_⟩ <;> exact decodeWord_of_wordOf (by decide +kernel) (by decide +kernel)

/-! ### The bits that a form may use -/

/-- Every bit of a word but header bits 50:48 (R81). -/
def assignedBits : Nat := 0xFFF8FFFFFFFFFFFF

/-- The bits that forms of a body format may use: in the RI body not bits 10:9 (R83). -/
def usableBits (fmt : Fmt5) : Nat :=
  match fmt with
  | .ri => 0xFFF8FFFFFFFFF9FF
  | _ => assignedBits

theorem or_within {a b m : Nat} (ha : within a m = true) (hb : within b m = true) : within (a ||| b) m = true := by
  rw [within_iff] at *
  intro k hk
  rw [Nat.testBit_or, Bool.or_eq_true] at hk
  exact hk.elim (ha k) (hb k)

theorem foldl_or_within {α : Type} {g : α → Nat} {m : Nat} (l : List α) {a : Nat} (ha : within a m = true)
    (hl : ∀ x ∈ l, within (g x) m = true) : within (l.foldl (fun acc x => acc ||| g x) a) m = true :=
  List.foldlRecOn (motive := fun n => within n m = true) _ _ ha fun _ hn x hx => or_within hn (hl x hx)

theorem opndBits_usable (o : Opnd) (fmt : Fmt5) : within (o.bits fmt) (usableBits fmt) = true := by
  refine or_within ?field ?wBit
  case field => cases o.fld <;> cases fmt <;> rfl
  case wBit =>
    split
    · cases o.fld <;> cases fmt <;> rfl
    · cases fmt <;> rfl

theorem formMask_usable {f : Form} (hlit : within f.lit (usableBits f.fmt) = true) : within f.mask (usableBits f.fmt) = true := by
  refine foldl_or_within _ (or_within (or_within (or_within ?header ?x) hlit) ?slot) fun o _ => opndBits_usable o f.fmt
  case header => cases f.fmt <;> rfl
  case x => cases f.fmt <;> rfl
  case slot => split <;> cases f.fmt <;> rfl

theorem immEw_usable (x : Nat) : within (immEw x) (usableBits .ri) = true := by
  unfold immEw
  split <;> rfl

theorem imm32Ew_usable (x : Nat) : within (imm32Ew x) (usableBits .i32) = true := by
  unfold imm32Ew
  split
  · rfl
  · split <;> rfl

theorem formLit_usable (i : Instr) : within (formOf i).lit (usableBits (formOf i).fmt) = true := by
  cases i with
  | iaddi r | iandi r | iori r | ixori r | icmpi r => exact immEw_usable _
  | movi r => exact imm32Ew_usable _
  | _ => simp only [formOf, form]; rfl

/-- No form uses a bit that its body format lacks. -/
theorem instrMask_usable (i : Instr) : within (formOf i).mask (usableBits (formOf i).fmt) = true := formMask_usable (formLit_usable i)

theorem usableBits_assigned (fmt : Fmt5) : within (usableBits fmt) assignedBits = true := by cases fmt <;> rfl

theorem unionMask_assigned {opc m : Nat} (h : unionMask opc = some m) : within m assignedBits = true := by
  unfold unionMask at h
  split at h <;> cases h <;> rfl

/-- No opcode's members use header bits 50:48. -/
theorem opcodeMask_assigned (opc : Nat) (ms : List Instr) : within (opcodeMask opc ms) assignedBits = true := by
  unfold opcodeMask
  split
  · exact unionMask_assigned ‹_›
  · exact foldl_or_within ms rfl fun i _ => within_trans _ _ _ (instrMask_usable i) (usableBits_assigned _)

/-- A number within a mask has a zero field where the mask has one. -/
theorem field_zero_of_within {n m hi lo : Nat} (h : within n m = true) (hm : field m hi lo = 0) : field n hi lo = 0 := by
  rw [within_iff] at h
  refine Nat.eq_of_testBit_eq fun k => ?_
  have hbit : (field m hi lo).testBit k = false := by rw [hm, Nat.zero_testBit]
  simp only [field, Nat.testBit_mod_two_pow, Nat.testBit_shiftRight, Bool.and_eq_false_imp, decide_eq_true_eq] at hbit
  simp only [field, Nat.testBit_mod_two_pow, Nat.testBit_shiftRight, Nat.zero_testBit, Bool.and_eq_false_imp, decide_eq_true_eq]
  exact fun hk => Bool.eq_false_iff.mpr fun hset => Bool.false_ne_true ((hbit hk).symm.trans (h _ hset))

/-- Settles O3: no member of any opcode uses header bits 50:48, and that is tested before X (R97). -/
theorem headerBitsReserved : Obligations.HeaderBitsReserved := by
  unfold Obligations.HeaderBitsReserved
  intro w hheader hmembers hretired
  obtain ⟨ms, hms⟩ := Option.ne_none_iff_exists'.mp hmembers
  have hout : within w.toNat (opcodeMask (field w.toNat 63 56) ms) = false :=
    Bool.eq_false_iff.mpr fun hin => hheader (field_zero_of_within (within_trans _ _ _ hin (opcodeMask_assigned _ ms)) rfl)
  simp only [decodeWord, hms, hretired, hout, Bool.false_and, Bool.false_eq_true, if_false, Bool.not_false, if_true]

/-! ### From a word to its instruction and back -/

/-- The body of a word, read and written in a format; none for an event. -/
def bodyOf (fmt : Fmt5) (n : Nat) : Nat :=
  match fmt with
  | .rrr => (rrrOf n).bits
  | .ri => (riOf n).bits
  | .mf => (mfOf n).bits
  | .bf => (bfOf n).bits
  | .i32 => (i32Of n).bits
  | .event => 0

/-- An instruction of an opcode with the fields of a word. -/
structure ReadFrom (opc n : Nat) (i : Instr) : Prop where
  opcode : opcodeOf i = some opc
  body : i.bodyBits = bodyOf (formOf i).fmt n
  isBody : (formOf i).fmt ≠ .event

/-- Every member of an opcode has the fields of the word in its own body format: the 256 opcodes one by one. -/
theorem members_readFrom {n : Nat} {ms : List Instr} :
    ∀ opc < 256, members opc n = some ms → ∀ i ∈ ms, ReadFrom opc n i := by
  repeat refine Nat.forall_lt_succ_right.mpr ⟨?_, ?_⟩
  · exact fun opc hopc => absurd hopc (Nat.not_lt_zero opc)
  all_goals
    intro h
    cases h
  all_goals repeat refine List.forall_mem_cons.mpr ⟨⟨rfl, rfl, nofun⟩, ?_⟩
  all_goals exact List.forall_mem_nil _

theorem field_lt (n hi lo : Nat) : field n hi lo < 2 ^ (hi + 1 - lo) := Nat.mod_lt _ (Nat.two_pow_pos _)

/-- A flag read from one bit has that bit's value. -/
theorem toNat_flag (n k : Nat) : (decide (field n k k = 1)).toNat = field n k k := by
  have hlt := field_lt n k k
  simp only [Nat.add_sub_cancel_left, Nat.pow_one] at hlt
  obtain h | h : field n k k = 0 ∨ field n k k = 1 := by omega
  all_goals rw [h]; rfl

/-- A vector read from a field of its own width has the field's value. -/
theorem toNat_ofField {w n hi lo : Nat} (hw : w = hi + 1 - lo) : (BitVec.ofNat w (field n hi lo)).toNat = field n hi lo := by
  rw [BitVec.toNat_ofNat, hw, Nat.mod_eq_of_lt (field_lt n hi lo)]

/-- The low bits of a number are the field at their top over the rest. -/
theorem low_split (n hi lo k : Nat) (hk : k = hi + 1 := by rfl) (hle : lo ≤ k := by decide) :
    n % 2 ^ k = field n hi lo * 2 ^ lo + n % 2 ^ lo := by
  have hpow : 2 ^ k = 2 ^ lo * 2 ^ (hi + 1 - lo) := by rw [← Nat.pow_add, ← hk, Nat.add_sub_cancel' hle]
  rw [hpow, Nat.mod_mul, field_div, Nat.mul_comm (2 ^ lo), Nat.add_comm]

/-- The header over the low 48 bits (R81). -/
theorem header_split (n : Nat) :
    n % 2 ^ 56 = field n 55 52 * 2 ^ 52 + field n 51 51 * 2 ^ 51 + field n 50 48 * 2 ^ 48 + n % 2 ^ 48 := by
  rw [low_split n 55 52 56, low_split n 51 51 52, low_split n 50 48 51]
  simp only [Nat.add_assoc]

theorem bits_rrrOf (n : Nat) : (rrrOf n).bits + field n 50 48 * 2 ^ 48 = n % 2 ^ 56 := by
  simp only [rrrOf, RRR.bits, toNat_flag, toNat_ofField]
  rw [header_split, low_split n 47 40 48, low_split n 39 32 40, low_split n 31 24 32, low_split n 23 16 24,
    low_split n 15 12 16, low_split n 11 11 12, low_split n 10 10 11, low_split n 9 9 10, low_split n 8 0 9, Nat.pow_zero, Nat.mul_one, Nat.mod_one, Nat.add_zero]
  ac_rfl

theorem bits_riOf (n : Nat) : (riOf n).bits + field n 50 48 * 2 ^ 48 + field n 10 9 * 2 ^ 9 = n % 2 ^ 56 := by
  simp only [riOf, RI.bits, toNat_flag, toNat_ofField]
  rw [header_split, low_split n 47 40 48, low_split n 39 32 40, low_split n 31 16 32,
    low_split n 15 12 16, low_split n 11 11 12, low_split n 10 9 11, low_split n 8 0 9, Nat.pow_zero, Nat.mul_one, Nat.mod_one, Nat.add_zero]
  ac_rfl

theorem bits_mfOf (n : Nat) : (mfOf n).bits + field n 50 48 * 2 ^ 48 = n % 2 ^ 56 := by
  simp only [mfOf, MF.bits, toNat_flag, toNat_ofField]
  rw [header_split, low_split n 47 40 48, low_split n 39 32 40, low_split n 31 24 32, low_split n 23 16 24,
    low_split n 15 12 16, low_split n 11 11 12, low_split n 10 10 11, low_split n 9 9 10, low_split n 8 0 9, Nat.pow_zero, Nat.mul_one, Nat.mod_one, Nat.add_zero]
  ac_rfl

theorem bits_bfOf (n : Nat) : (bfOf n).bits + field n 50 48 * 2 ^ 48 = n % 2 ^ 56 := by
  simp only [bfOf, BF.bits, toNat_flag, toNat_ofField]
  rw [header_split, low_split n 47 16 48, low_split n 15 8 16, low_split n 7 0 8, Nat.pow_zero, Nat.mul_one, Nat.mod_one, Nat.add_zero]
  ac_rfl

theorem bits_i32Of (n : Nat) : (i32Of n).bits + field n 50 48 * 2 ^ 48 = n % 2 ^ 56 := by
  simp only [i32Of, I32.bits, toNat_flag, toNat_ofField]
  rw [header_split, low_split n 47 40 48, low_split n 39 8 40, low_split n 7 0 8, Nat.pow_zero, Nat.mul_one, Nat.mod_one, Nat.add_zero]
  ac_rfl

/-- The opcode and the fields of a format give a word back that has no bit outside the format's usable bits. -/
theorem bodyOf_back {n : Nat} {fmt : Fmt5} (hn : n < 2 ^ 64) (hfmt : fmt ≠ .event) (h : within n (usableBits fmt) = true) :
    field n 63 56 * 2 ^ 56 + bodyOf fmt n = n := by
  have hheader : field n 50 48 = 0 := field_zero_of_within (within_trans _ _ _ h (usableBits_assigned fmt)) rfl
  suffices hbody : bodyOf fmt n = n % 2 ^ 56 by rw [hbody, ← low_split n 63 56 64, Nat.mod_eq_of_lt hn]
  cases fmt with
  | rrr => simpa [bodyOf, hheader] using bits_rrrOf n
  | ri => simpa [bodyOf, hheader, field_zero_of_within (hi := 10) (lo := 9) h rfl] using bits_riOf n
  | mf => simpa [bodyOf, hheader] using bits_mfOf n
  | bf => simpa [bodyOf, hheader] using bits_bfOf n
  | i32 => simpa [bodyOf, hheader] using bits_i32Of n
  | event => exact absurd rfl hfmt

theorem wordOf_of_opcode {i : Instr} {opc : Nat} (h : opcodeOf i = some opc) : wordOf i = BitVec.ofNat 64 (opc * 2 ^ 56 + i.bodyBits) := by
  unfold wordOf encode
  split
  · cases h
  · simp only [h, Option.getD_some]

/-- A word that decodes is of no instruction, by its opcode or by the header bits of a retired one, or it is a member of its opcode that
uses every bit that is set. -/
theorem decodeWord_ok {w : Word} {i : Instr} (h : decodeWord w = .ok i) :
    i = .unassignedOpcode w ∨
      ∃ ms, members (field w.toNat 63 56) w.toNat = some ms ∧ i ∈ ms ∧ within w.toNat (formOf i).mask = true := by
  simp only [decodeWord] at h
  split at h
  · cases h; exact .inl rfl
  · rename_i ms hms
    split at h
    · cases h; exact .inl rfl
    · split at h
      · cases h
      · split at h
        · cases h
        · split at h
          · cases h; exact .inr ⟨ms, hms, List.mem_of_find?_eq_some ‹_›, ‹_›⟩
          · cases h

/-- Settles O4: a member has the word's fields, and its format loses none of the bits that it may use. -/
theorem decodedWordEncodesBack : Obligations.DecodedWordEncodesBack := by
  unfold Obligations.DecodedWordEncodesBack
  intro w i h
  obtain rfl | ⟨ms, hms, hmem, hwithin⟩ := decodeWord_ok h
  · rfl
  · obtain ⟨hopcode, hbody, hfmt⟩ := members_readFrom _ (field_lt _ 63 56) hms i hmem
    rw [wordOf_of_opcode hopcode, hbody, bodyOf_back w.isLt hfmt (within_trans _ _ _ hwithin (instrMask_usable i))]
    exact BitVec.ofNat_toNat 64 w

end Sys2Proof.Codec
end

section
/-! PROOFS. Words that trap (R96 to R101, R117), and how a trap reads its warp. -/

namespace Sys2Proof.Codec

open Sys2Proof Machine Laws

/-! ### Traps -/

theorem asBase_idem (w : Warp) : w.asBase.asBase = w.asBase := by
  cases hmode : w.mode with
  | firmware handler pre => cases handler <;> simp [Warp.asBase, hmode]
  | _ => simp [Warp.asBase, hmode]

/-- A trap is taken from the mode that firmware mode was entered from (R101). -/
theorem takeTrap_asBase (env : Env) (t : TrapInfo) : takeTrap { env with w := env.w.asBase } t = takeTrap env t := by
  simp only [takeTrap, asBase_idem]

/-- An attempt that traps where SPIN_WATCHDOG does not stand in its place. -/
theorem settle_trap {opts : Opts} {env : Env} (hspin : env.spin = false) (t : TrapInfo) : settle opts env (.trap t) = takeTrap env t := by
  simp [settle, hspin]

section
variable {w : Word} {s : State} {env : Env} (hopen : openIssue (.unassignedOpcode w) w s = some env) (hspin : env.spin = false)
include hopen hspin

theorem exec_unassigned (hcause : retiredCause (natBits w.toNat 63 56) = none) :
    exec (.unassignedOpcode w) s = .next (takeTrap env { cause := .illegalOpc, tval := w, mask := env.e.mask }) := by
  obtain ⟨-, -, -, -, -, -, -, rfl, -⟩ := opened_env hopen
  rw [← takeTrap_asBase]
  show execUnassignedOpcode env.word s = _
  simp only [execUnassignedOpcode, hopen, hcause, Env.wordTrap]
  exact congrArg Host.Outcome.next (settle_trap (by exact hspin) _)

/-- A retired opcode with header bits set enters firmware mode before it traps (R97, R101). -/
theorem exec_retiredHeader {c : Cause} (hcause : retiredCause (natBits w.toNat 63 56) = some c) :
    exec (.unassignedOpcode w) s = .next (takeTrap ({ env with w := env.w.asBase }.enterFirmware c)
      { cause := .illegalOpc, tval := w, mask := env.e.mask }) := by
  obtain ⟨-, -, -, -, -, -, -, rfl, -⟩ := opened_env hopen
  show execUnassignedOpcode env.word s = _
  simp only [execUnassignedOpcode, hopen, hcause, Env.wordTrap]
  exact congrArg Host.Outcome.next (settle_trap (by exact hspin) _)
end

theorem execBadWord_trap {v : Word} {s : State} {env : Env} (hopen : openIssue (.unassignedOpcode v) v s = some env)
    (hspin : env.spin = false) (c : Cause) :
    execBadWord v c s = takeTrap env
      { cause := if (0x50 ≤ field v.toNat 63 56 ∧ field v.toNat 63 56 ≤ 0x52) ∧
          immSpare (env.w.slot (field v.toNat 15 12)) (field v.toNat 31 16) = true then .rsvdBits else c
        tval := v, mask := env.e.mask } := by
  obtain ⟨-, -, -, -, -, -, -, hword, -⟩ := opened_env hopen
  simp only [execBadWord, hopen, Env.wordTrap, settle_trap hspin, hword, Bool.and_eq_true, decide_eq_true_eq]

/-- Settles O20: TRAP and BKPT are issues whose body traps, and a word of no instruction settles with its trap. -/
theorem trapInstructions : Obligations.TrapInstructions := by
  unfold Obligations.TrapInstructions
  refine ⟨?trap, ?bkpt, ?unassigned, ?retiredHeader, ?rsvdBits, ?illegalX, ?otherOpcode, ?slotImmediate⟩
  case trap => exact fun r s env hadm _ => issue_trap hadm rfl
  case bkpt => exact fun r s env hadm _ => issue_trap hadm rfl
  case unassigned => exact fun w s env hopen hspin hcause => exec_unassigned hopen hspin hcause
  case retiredHeader => exact fun w c s env hopen hspin hcause => exec_retiredHeader hopen hspin hcause
  case rsvdBits =>
    intro v s h
    exact StepRuns.runWord_error (by simp only [decodeFetched, h]) s
  case illegalX =>
    intro v s h
    exact StepRuns.runWord_error (by simp only [decodeFetched, h]) s
  case otherOpcode =>
    intro v c s env hopen hspin hopc
    rw [execBadWord_trap hopen hspin, if_neg (by omega)]
  case slotImmediate =>
    intro v c s env hopen hspin hlo hhi
    simp only [execBadWord_trap hopen hspin, hlo, hhi, and_self, true_and]

end Sys2Proof.Codec
end

section
/-! PROOFS. Accesses that an issue adds, and results that return to their registers (R89, R91). -/

namespace Sys2Proof.Results

open Sys2Proof Machine Laws

/-- Settles O29: `addLanes_effect` for the lanes of P. -/
theorem accessesOfAnIssue : Obligations.AccessesOfAnIssue := by
  unfold Obligations.AccessesOfAnIssue
  exact fun env o pl kind => addLanes_effect env o pl kind env.p.lanes

/-- The context with a result no longer owed. -/
abbrev paid (x : Context) (o : Owed) : Context := { x with owed := x.owed.filter (fun y => y.id ≠ o.id) }

/-- A result without an error has none to record. -/
theorem noteResult_good {o : Owed} (hbad : o.bad = none) (s : State) (x : Context) (used : Bool) : noteResult s x o used = (s, x) := by
  simp only [noteResult, hbad]

section
variable {c id : Nat} {s : State} {x : Context} {o : Owed} (hctx : s.ctx? c = some x)
  (howed : x.owed.find? (fun y => y.id = id) = some o) (hbad : o.bad = none)
include hctx howed hbad

/-- A result for a warp that is gone is dropped. -/
theorem result_withoutWarp (hwarp : x.warp? o.uid = none) : exec (.resultReturn c id) s =
    .next (s.setCtx { paid x o with gtdrop := x.gtdrop + 1 }) := by
  show execResultReturn c id s = _
  have hgone : (paid x o).warp? o.uid = none := hwarp
  simp only [execResultReturn, hctx, howed, returnResult, hgone, noteResult_good hbad]

section
variable {w : Warp} (hwarp : x.warp? o.uid = some w)
include hwarp

/-- A result for a vector register that is no longer the one asked for is dropped. -/
theorem result_stale (hclass : o.dest.uniform = false)
    (hstale : w.live.has o.dest.lane = false ∨ w.nregs ≤ o.dest.reg ∨ o.dest.allocGen ≠ w.allocGen) :
    exec (.resultReturn c id) s =
      .next (s.setCtx { paid x o with gtdrop := x.gtdrop + 1 }) := by
  show execResultReturn c id s = _
  have hthere : (paid x o).warp? o.uid = some w := hwarp
  have hdrop : (!w.live.has o.dest.lane || decide (w.nregs ≤ o.dest.reg) || decide (o.dest.allocGen ≠ w.allocGen)) = true := by
    simpa [or_assoc] using hstale
  simp only [execResultReturn, hctx, howed, returnResult, hthere, noteResult_good hbad, hclass, Bool.false_eq_true, if_false, hdrop, if_true]

/-- A result for a uniform register: it fills the register that waits for it, and is dropped where a later producer took it. -/
theorem result_uniform (hclass : o.dest.uniform = true) : exec (.resultReturn c id) s =
    .next (s.setCtx (if w.smark o.dest.reg = .empty o.dest.prod then
      (paid x o).setWarp (w.writeS o.dest.reg o.value)
    else { paid x o with wawdrop := x.wawdrop + 1 })) := by
  show execResultReturn c id s = _
  have hthere : (paid x o).warp? o.uid = some w := hwarp
  simp only [execResultReturn, hctx, howed, returnResult, hthere, noteResult_good hbad, hclass, hbad, if_true, Bool.false_eq_true, if_false]
  by_cases hmark : w.smark o.dest.reg = .empty o.dest.prod
  · simp only [hmark, ne_eq, not_true_eq_false, if_false, if_true]
  · simp only [hmark, ne_eq, not_false_eq_true, if_false, if_true]

/-- As `result_uniform`, for a vector register that is still the one asked for. -/
theorem result_vector (hclass : o.dest.uniform = false) (hlive : w.live.has o.dest.lane = true) (hreg : o.dest.reg < w.nregs)
    (halloc : o.dest.allocGen = w.allocGen) : exec (.resultReturn c id) s =
    .next (s.setCtx (if w.vmark o.dest.reg o.dest.lane = .empty o.dest.prod then
      (paid x o).setWarp (w.writeV o.dest.reg o.dest.lane o.value)
    else { paid x o with wawdrop := x.wawdrop + 1 })) := by
  show execResultReturn c id s = _
  have hthere : (paid x o).warp? o.uid = some w := hwarp
  have hfresh : (!w.live.has o.dest.lane || decide (w.nregs ≤ o.dest.reg) || decide (o.dest.allocGen ≠ w.allocGen)) = false := by
    simp [hlive, hreg, halloc]
  simp only [execResultReturn, hctx, howed, returnResult, hthere, noteResult_good hbad, hclass, hbad, Bool.false_eq_true, if_false, hfresh]
  by_cases hmark : w.vmark o.dest.reg o.dest.lane = .empty o.dest.prod
  · simp only [hmark, ne_eq, not_true_eq_false, if_false, if_true]
  · simp only [hmark, ne_eq, not_false_eq_true, if_false, if_true]
end
end

/-- Settles O33: a result is stale (`result_stale`, `result_withoutWarp`), or its register's mark decides (`result_vector`,
`result_uniform`). -/
theorem resultsReturn : Obligations.ResultsReturn := by
  unfold Obligations.ResultsReturn
  refine ⟨?vector, ?uniform, ?taken, ?gone⟩
  case vector =>
    intro c id s x o w hctx howed hwarp hbad hclass hlive hreg halloc hmark
    rw [result_vector hctx howed hbad hwarp hclass hlive hreg halloc, if_pos hmark]
  case uniform =>
    intro c id s x o w hctx howed hwarp hbad hclass hmark
    rw [result_uniform hctx howed hbad hwarp hclass, if_pos hmark]
  case taken =>
    rintro c id s x o w hctx howed hwarp hbad (⟨hclass, hlive, hreg, halloc, hmark⟩ | ⟨hclass, hmark⟩)
    · rw [result_vector hctx howed hbad hwarp hclass hlive hreg halloc, if_neg hmark]
    · rw [result_uniform hctx howed hbad hwarp hclass, if_neg hmark]
  case gone =>
    rintro c id s x o hctx howed hbad (hwarp | ⟨w, hwarp, hclass, hstale⟩)
    · exact result_withoutWarp hctx howed hbad hwarp
    · exact result_stale hctx howed hbad hwarp hclass hstale

end Sys2Proof.Results
end

section
/-! PROOFS. NOP and the relative branches (R107, R108). -/

namespace Sys2Proof.Branches

open Sys2Proof Machine Laws

/-- Where a thread that is sent goes. -/
theorem dest_send {env : Env} {m : Mask} {t : Nat} (h : m.has t = true) (pc : Nat → PC) (pri : BitVec 8) :
    (env.send m pc pri).dest t = (pri, pc t, false) := by
  have hfound : m.lanes.find? (fun u => u = t) = some t := by
    have hsome : (m.lanes.find? (fun u => u = t)).isSome = true := by simpa [mem_lanes] using h
    obtain ⟨u, hu⟩ := Option.isSome_iff_exists.mp hsome
    have hut : u = t := by simpa using List.find?_some hu
    rw [hu, hut]
  simp only [Env.dest, Env.send, List.find?_map, Function.comp_def, hfound, Option.map_some]

/-- Where a thread goes that nothing sends. -/
theorem dest_of_noMoves {env : Env} (h : env.moves = []) (t : Nat) : env.dest t = (env.e.pri, env.next, false) := by
  simp only [Env.dest, h, List.find?_nil]

theorem send_sameIssue (env : Env) (m : Mask) (pc : Nat → PC) (pri : BitVec 8) : SameIssue env (env.send m pc pri) :=
  ⟨rfl, rfl, rfl, rfl⟩

/-- An instruction completes whose issue has one effect that leaves the entry, and what leaves it, alone. -/
theorem completes_of_sameIssue {i : Instr} {opts : Opts} {eff : Env → Env} (hexec : ∀ s, exec i s = issueDone i opts s eff)
    (hsame : ∀ env, SameIssue env (eff env)) : Completes i opts eff := by
  intro s env hadm
  obtain ⟨he, hjoin, hdead, hout⟩ := hsame env
  rw [hexec]
  exact issueDone_closes hadm he hjoin hdead hout

/-- Settles O54: the threads go where they are sent (`dest_send`), and an issue with P empty sends none (R82). -/
theorem nopAndBranchesSendTheirThreads : Obligations.NopAndBranchesSendTheirThreads := by
  unfold Obligations.NopAndBranchesSendTheirThreads
  refine ⟨?nop, ?bra, ?bruAny, ?bruAll, ?empty, ?together⟩
  case nop => exact fun r => completes_of_sameIssue (fun s => rfl) SameIssue.refl
  case bra => exact fun r => completes_of_sameIssue (fun s => rfl) fun env => send_sameIssue env _ _ _
  case bruAny => exact fun r => completes_of_sameIssue (fun s => rfl) fun env => send_sameIssue env _ _ _
  case bruAll =>
    refine fun r => completes_of_sameIssue (fun s => rfl) fun env => ?_
    split
    · exact send_sameIssue env _ _ _
    · exact SameIssue.refl env
  case empty =>
    intro i opts s env hform hopen hpass hspin hp hmask
    have hnone (body : Env → Res) : Closes opts (issue i opts s body) env :=
      Scope.guardFalseIssueHasNoEffect i opts s env body hopen hpass hspin hp hmask
    rcases hform with ⟨r, rfl, rfl⟩ | ⟨r, rfl, rfl⟩ | ⟨r, rfl, rfl⟩ | ⟨r, rfl, rfl⟩
    all_goals exact hnone _
  case together =>
    exact fun env pc pri t _ => ⟨rfl, fun hmoves => dest_of_noMoves hmoves t, fun hin => dest_send hin _ pri⟩

end Sys2Proof.Branches
end

section
/-! PROOFS. Accesses at their home: a load that acquires renumbers what its warp has issued behind it (R165, R276). -/

namespace Sys2Proof.Performed

open Sys2Proof Machine Laws

/-- A load of eight bytes of local memory that warp 2 has in flight. -/
def loadInFlight (id addr : Nat) (acq : Option Nat) : Access :=
  { id := id, uid := 2, ins := id, core := 0, lane := 0, addr := BitVec.ofNat 64 addr, cached := true, acq := acq, rel := none, relAt := 0
    kind := .load { uniform := false, reg := id, lane := 0, prod := id, allocGen := 0 } none 8 false 0
    pieces := [{ pos := addr * 8, len := 64, off := 0 }] }

/-- An LDACQ at cluster scope. -/
def acquiringLoad : Access := loadInFlight 50 0x20000 (some 3)

/-- A context in which a load stands behind the LDACQ of its warp. -/
def acquiringContext : Context :=
  { newContext State.reset bootParams .running with accesses := [acquiringLoad, loadInFlight 51 0x20008 none] }

/-- A package whose stacks are all ready, with that context. -/
def acquiringPackage : State := { State.reset with rdy := -1, nextId := 100, ctxs := [acquiringContext] }

theorem acquiringLoad_mayGo : canPerform acquiringPackage acquiringContext acquiringLoad = true := by decide +kernel

/-- The numbers of the accesses that a context of a package has in flight. -/
def numbersInFlight (s : State) (c : Nat) : Option (List Nat) := (s.ctx? c).map (fun x => x.accesses.map (fun b => b.id))

/-- The LDACQ, performed, gives the load behind it a number behind all that is in flight and its two results: 102 + (51 - 50). -/
theorem acquire_renumbers : numbersInFlight (goAccess acquiringPackage 0 50 false) 0 = some [103] := by decide +kernel

/-- Refutes O31: a load that acquires does not leave the other accesses of its context as they were. As it takes effect, the later
accesses of its warp take new numbers (`Context.behind`), so that the load behind an LDACQ is 103 and no longer 51. -/
theorem not_accessesArePerformed : ¬ Obligations.AccessesArePerformed := by
  unfold Obligations.AccessesArePerformed
  rintro ⟨-, hload, -, -⟩
  obtain ⟨t, o, hexec, -, hctx, -⟩ :=
    hload 0 50 false acquiringPackage acquiringContext acquiringLoad _ none 8 false 0 rfl rfl acquiringLoad_mayGo rfl rfl
  have hgo : goAccess acquiringPackage 0 50 false = t := Host.Outcome.next.inj hexec
  have hkept : numbersInFlight t 0 = some [51] := by
    rw [numbersInFlight, hctx]
    rfl
  have hmoved : numbersInFlight t 0 = some [103] := hgo ▸ acquire_renumbers
  exact absurd (hkept.symm.trans hmoved) (by decide)

end Sys2Proof.Performed
end

section
/-! PROOFS. Atomics at their home: what a package keeps while an access takes effect, and the integer atomics and the
compare-and-swap (R159, R176). -/

namespace Sys2Proof.Atomics

open Sys2Proof Machine Laws MemoryForm

/-! ### The contexts of a package as an access takes effect at its home -/

theorem foldl_ctxs {α : Type} {f : State → α → State} (hf : ∀ s a, (f s a).ctxs = s.ctxs) (l : List α) (s : State) :
    (l.foldl f s).ctxs = s.ctxs :=
  List.foldlRecOn (motive := fun t => t.ctxs = s.ctxs) l f rfl (fun t ht a _ => (hf t a).trans ht)

@[simp] theorem countPage_ctxs (s : State) (c : Option Nat) (die va n : Nat) : (s.countPage c die va n).ctxs = s.ctxs := by
  unfold State.countPage
  split
  · rfl
  · split <;> rfl

@[simp] theorem countMiss_ctxs (s : State) (c core : Nat) (ps : List Piece) : (s.countMiss c core ps).ctxs = s.ctxs :=
  foldl_ctxs (fun t p => by split <;> simp) ps s

@[simp] theorem putData_ctxs (s : State) (core : Nat) (ps : List Piece) (data : Nat) : (s.putData core ps data).ctxs = s.ctxs := by
  unfold State.putData
  exact foldl_ctxs (fun _ _ => by rfl) ps s

@[simp] theorem refreshCopies_ctxs (s : State) (c core line : Nat) : (s.refreshCopies c core line).ctxs = s.ctxs := rfl

@[simp] theorem clearPoison_ctxs (s : State) (core : Nat) (ps : List Piece) : (s.clearPoison core ps).ctxs = s.ctxs := rfl

@[simp] theorem clearPoison_mem (s : State) (core : Nat) (ps : List Piece) : (s.clearPoison core ps).mem = s.mem := rfl

@[simp] theorem putData_one_mem (s : State) (core : Nat) (p : Piece) (data : Nat) :
    (s.putData core [p] data).mem = writeBits s.mem p.pos p.len (data / 2 ^ p.off) := rfl

/-! ### The context that an access leaves behind -/

/-- The context of an access that is no store, as it takes effect: its release is marked, and it is in flight no more. -/
def afterAccess (x : Context) (a : Access) : Context :=
  { x.releaseOf a with accesses := (x.releaseOf a).accesses.filter (fun b => b.id ≠ a.id) }

@[simp] theorem releaseOf_id (x : Context) (a : Access) : (x.releaseOf a).id = x.id := by
  unfold Context.releaseOf Context.markReleased Context.markAs
  split
  · split <;> rfl
  · rfl

@[simp] theorem afterAccess_id (x : Context) (a : Access) : (afterAccess x a).id = x.id := releaseOf_id x a

/-- A context that is found has the number it is sought by. -/
theorem id_of_ctx? {s : State} {c : Nat} {x : Context} (h : s.ctx? c = some x) : x.id = c := by
  simpa using List.find?_some h

/-- The context that a package of the same contexts has after one of them is put back. -/
theorem ctx?_setCtx_of_ctxs {s t : State} {c : Nat} {x y : Context} (hctx : s.ctx? c = some x) (ht : t.ctxs = s.ctxs)
    (hy : y.id = x.id) : (t.setCtx y).ctx? c = some y := by
  have hid : y.id = c := hy.trans (id_of_ctx? hctx)
  have hfound : t.ctx? y.id = some x := by rw [hid, State.ctx?, ht]; exact hctx
  exact hid ▸ ctx?_setCtx t y (by simp [hfound])

/-! ### Which access goes, and how -/

/-- An access that is no store takes effect alone. -/
theorem storeGroup_of_not_store {s : State} {x : Context} {a : Access} (h : a.kind.isStore = false) : storeGroup s x a = [a] := by
  simp [storeGroup, h]

/-- ACCESS_PERFORM of an access that is no store and may go. -/
theorem exec_accessPerform_of_canPerform {c id : Nat} (fc : Bool) {s : State} {x : Context} {a : Access} (hctx : s.ctx? c = some x)
    (hfind : x.accesses.find? (fun b => b.id = id) = some a) (hgo : canPerform s x a = true) (hkind : a.kind.isStore = false) :
    exec (.accessPerform c id fc) s = .next (performAccess s x a fc) := by
  have hgroup : (a :: storeGroup s x a).all (canPerform s x) = true := by simp [storeGroup_of_not_store hkind, hgo]
  change Host.Outcome.next (goAccess s c id fc) = _
  simp only [goAccess, hctx, hfind, hgroup, if_true]

/-- What leaves the list with an access that is no store is that access. -/
theorem filter_group_of_not_store {s : State} {x : Context} {a : Access} (h : a.kind.isStore = false) (l : List Access) :
    l.filter (fun b => b.id ≠ a.id && !(storeGroup s x a).any (fun g => g.id = b.id)) = l.filter (fun b => b.id ≠ a.id) := by
  refine List.filter_congr fun b _ => ?_
  rw [storeGroup_of_not_store h]
  simp [eq_comm]

theorem performAccess_atomic {s : State} {x : Context} {a : Access} (fc : Bool) {op n data : Nat} {sg : Bool} {ret : Option Dest}
    {p : Piece} (hkind : a.kind = .atomic op sg n data ret) (hpiece : a.pieces = [p]) :
    performAccess s x a fc = performAtomic s (afterAccess x a) a
      (some (atomicOp op sg (8 * n) (readBits s.mem p.pos (8 * n)) data)) (BitVec.ofNat 64 (readBits s.mem p.pos (8 * n))) ret := by
  have hstore : a.kind.isStore = false := by rw [hkind]; rfl
  simp only [performAccess, hkind, hpiece, filter_group_of_not_store hstore, List.headD_cons, afterAccess]

theorem performAccess_acas {s : State} {x : Context} {a : Access} (fc : Bool) {n cmp new : Nat} {d : Dest} {p : Piece}
    (hkind : a.kind = .acas n cmp new d) (hpiece : a.pieces = [p]) :
    performAccess s x a fc = performAtomic s (afterAccess x a) a
      (if readBits s.mem p.pos (8 * n) = cmp then some new else none) (BitVec.ofNat 64 (readBits s.mem p.pos (8 * n))) (some d) := by
  have hstore : a.kind.isStore = false := by rw [hkind]; rfl
  simp only [performAccess, hkind, hpiece, filter_group_of_not_store hstore, List.headD_cons, afterAccess]

/-! ### The effect of an atomic -/

/-- The package after an atomic that meets no error, before its context is put back. -/
def atomicHome (s : State) (x : Context) (a : Access) (write : Option Nat) : State :=
  let s := s.countMiss x.id a.core a.pieces
  match write with
  | some v => (s.putData a.core a.pieces v).clearPoison a.core a.pieces
  | none => (linesOf a.pieces).foldl (fun s l => s.refreshCopies x.id a.core l) s

theorem atomicHome_ctxs (s : State) (x : Context) (a : Access) (write : Option Nat) : (atomicHome s x a write).ctxs = s.ctxs := by
  cases write with
  | none => exact (foldl_ctxs (fun _ _ => refreshCopies_ctxs _ _ _ _) _ _).trans (countMiss_ctxs _ _ _ _)
  | some v => simp [atomicHome]

theorem atomicHome_mem {a : Access} {p : Piece} (s : State) (x : Context) (write : Option Nat) (hpiece : a.pieces = [p]) :
    (atomicHome s x a write).mem = write.elim s.mem (fun v => writeBits s.mem p.pos p.len (v / 2 ^ p.off)) := by
  cases write with
  | none => exact (foldl_mem (fun _ _ => refreshCopies_mem _ _ _ _) _ _).trans (countMiss_mem _ _ _ _)
  | some v => simp [atomicHome, hpiece]

/-- An atomic that meets no error and returns owes its old value (R176). -/
theorem performAtomic_of_good {s : State} {a : Access} (x : Context) (write : Option Nat) (old : Word) (d : Dest)
    (hgood : s.badPieces a.pieces = []) :
    performAtomic s x a write old (some d) =
      { atomicHome s x a write with nextId := (atomicHome s x a write).nextId + 1 }.setCtx
        (x.owe (atomicHome s x a write).nextId a.uid d old none) := by
  cases write <;> simp only [performAtomic, hgood, spoiled, if_true, atomicHome]

/-- What an atomic of one piece that meets no error and returns does, whatever it computes. -/
theorem performAtomic_effect {c : Nat} {s : State} {x : Context} {a : Access} {p : Piece} (write : Option Nat) (old : Word) (d : Dest)
    (hctx : s.ctx? c = some x) (hpiece : a.pieces = [p]) (hgood : s.badPieces a.pieces = []) :
    let t := performAtomic s (afterAccess x a) a write old (some d)
    ∃ o : Owed, o.dest = d ∧ o.uid = a.uid ∧ o.value = old ∧
      t.mem = write.elim s.mem (fun v => writeBits s.mem p.pos p.len (v / 2 ^ p.off)) ∧
      t.ctx? c = some { afterAccess x a with owed := (afterAccess x a).owed ++ [o] } := by
  intro t
  have ht : t = _ := performAtomic_of_good (afterAccess x a) write old d hgood
  refine ⟨{ id := (atomicHome s (afterAccess x a) a write).nextId, uid := a.uid, dest := d, value := old, bad := none },
    rfl, rfl, rfl, ?_, ?_⟩
  · rw [ht, setCtx_mem]
    exact atomicHome_mem s _ write hpiece
  · rw [ht]
    exact ctx?_setCtx_of_ctxs hctx (atomicHome_ctxs s _ a write) (afterAccess_id x a)

/-! ### The operations -/

/-- The unsigned addition, minimum, maximum and exchange of R176. -/
theorem atomicOp_unsigned (w old v : Nat) : atomicOp 0 false w old v = (old + v) % 2 ^ w ∧ atomicOp 2 false w old v = min old v ∧
    atomicOp 3 false w old v = max old v ∧ atomicOp 7 false w old v = v := by
  refine ⟨rfl, ?min, ?max, rfl⟩
  case min =>
    simp only [atomicOp, Bool.false_eq_true, if_false, decide_eq_true_eq]
    split <;> omega
  case max =>
    simp only [atomicOp, Bool.false_eq_true, if_false, decide_eq_true_eq]
    split <;> omega

/-- Settles O32: an atomic that may go goes alone (`exec_accessPerform_of_canPerform`), and both kinds have one effect at their home
(`performAtomic_effect`), which the compare-and-swap keeps from writing where the values differ. -/
theorem atomicsArePerformed : Obligations.AtomicsArePerformed := by
  unfold Obligations.AtomicsArePerformed
  refine ⟨?atomic, ?acas, fun w old v _ _ => atomicOp_unsigned w old v⟩
  case atomic =>
    intro c id fc s x a op sg n data d p hctx hfind hgo hkind hpiece hgood y
    have hexec := exec_accessPerform_of_canPerform fc hctx hfind hgo (by rw [hkind]; rfl)
    rw [performAccess_atomic fc hkind hpiece] at hexec
    obtain ⟨o, hdest, huid, hvalue, hmem, hafter⟩ := performAtomic_effect _ _ d hctx hpiece hgood
    exact ⟨_, o, hexec, hdest, huid, hvalue, hmem, hafter⟩
  case acas =>
    intro c id fc s x a n cmp new d p hctx hfind hgo hkind hpiece hgood y
    have hexec := exec_accessPerform_of_canPerform fc hctx hfind hgo (by rw [hkind]; rfl)
    rw [performAccess_acas fc hkind hpiece] at hexec
    obtain ⟨o, hdest, huid, hvalue, hmem, hafter⟩ := performAtomic_effect _ _ d hctx hpiece hgood
    refine ⟨_, o, hexec, hdest, huid, hvalue, hmem.trans ?_, hafter⟩
    split <;> rfl

end Sys2Proof.Atomics
end

section
/-! PROOFS. Events of accesses in flight and of the pewter network (R211 to R214, R228, R290, R324, R335). -/

namespace Sys2Proof.AccessEvents

open Sys2Proof Machine Laws Atomics

/-! ### Accesses that fail -/

/-- What every failed access leaves, whatever its kind: the driver is told, the access is in flight no more, and its acquire is made
(R290, R324). -/
def afterFailure (s : State) (x : Context) (a : Access) : State × Context := a.acquired (s.tellDriver a) (afterAccess x a)

/-- A context in which a warp's write to a multicast member has failed (R335). -/
def failMember (x : Context) (uid m : Nat) (trap : Bool) : Context :=
  { x with warps := x.warps.map (fun (w : Warp) =>
      if w.uid = uid then { w with mstat := w.mstat ||| BitVec.ofNat 64 (2 ^ m), mtrap := w.mtrap || trap } else w) }

section
variable {s : State} {x : Context} {a : Access}

theorem failAccess_member {m home data : Nat} {tr od : Bool} (hkind : a.kind = .member m home tr od data) :
    failAccess s x a = (afterFailure s x a).1.setCtx (failMember (afterFailure s x a).2 a.uid m tr) := by
  simp only [failAccess, hkind]
  rfl

theorem failAccess_store {data : Nat} (hkind : a.kind = .store data) :
    failAccess s x a = (afterFailure s x a).1.setCtx ((afterFailure s x a).2.failRemote a.uid a.addr) := by
  simp only [failAccess, hkind, AccKind.dests]
  rfl

theorem failAccess_load {d : Dest} {bytes : Nat} {sx : Bool} {keep : Word} (hkind : a.kind = .load d none bytes sx keep) :
    failAccess s x a = { (afterFailure s x a).1 with nextId := (afterFailure s x a).1.nextId + 512 }.setCtx
      ((afterFailure s x a).2.owe ((afterFailure s x a).1.nextId + d.reg) a.uid d 0
        (some { addr := a.addr, remote := true, keys := [] })) := by
  simp only [failAccess, hkind, AccKind.dests, Option.toList_none, List.foldl_cons, List.foldl_nil]
  rfl

variable {c id : Nat} (hctx : s.ctx? c = some x) (hfind : x.accesses.find? (fun b => b.id = id) = some a) (horder : x.inOrder a = true)
include hctx hfind horder

/-- An access in its order fails where its path or its target fails (R324). -/
theorem remoteAccess_fails (hfar : (a.remote || a.kind.home.isSome) = true) :
    exec (.remoteAccessFail c id) s = .next (failAccess s x a) := by
  show execRemoteAccessFail c id s = _
  simp only [execRemoteAccessFail, hctx, hfind, hfar, horder, Bool.and_self, if_true]

/-- A silent member that is queried answers, and its write is performed, or counts as failed (R335). -/
theorem member_queried {m home data : Nat} {tr od : Bool} (hkind : a.kind = .member m home tr od data) (answered : Bool) :
    exec (.mcastMemberTimeout c id m answered) s = .next (if answered then goAccess s c id false else failAccess s x a) := by
  show execMcastMemberTimeout c id m answered s = _
  simp only [execMcastMemberTimeout, hctx, hfind, hkind, horder, ne_eq, not_true_eq_false, decide_false, Bool.not_true, Bool.or_self,
    Bool.false_eq_true, if_false]

end

/-! ### Warps that pass a barrier -/

/-- The scope of the acquire that a barrier makes, where it makes one (R212). -/
def acquireOf (acq : Bool) (scope : Nat) : Option Nat := if acq then some scope else none

/-- What a wait acquires as it ends at the barrier that a test names: none where it is no wait there (R212, R213). -/
def barrierWait (this : Park → Bool) (k : Park) : Option (Option Nat) :=
  if !this k then none
  else match k with
  | .bsync _ acq scope => some (acquireOf acq scope)
  | .barr _ _ => some (acquireOf true 2)
  | _ => none

/-- A warp put back as it passes a barrier, with the acquire that it makes. -/
def passOn (s : State) (x : Context) (r : Option Nat) (w : Warp) : State :=
  match r with
  | some scope => s.acquireWith (x.setWarp w) (widCoreNo w.wid) scope
  | none => s.setCtx (x.setWarp w)

section
variable {s : State} {c u : Nat} {x : Context} {w : Warp} {this : Park → Bool} (hctx : s.ctx? c = some x) (hwarp : x.warp? u = some w)
include hctx hwarp

/-- The wait that a handler set aside is sought first, then the warp's own (R228). -/
theorem passBarrier_eq : s.passBarrier c u this =
    (w.saved.bind (fun v => (v.park.bind (barrierWait this)).map (fun r => (v, r)))).elim
      ((w.park.bind (barrierWait this)).elim s (fun r => passOn s x r { w with park := x.afterBarrier u s.nextId r }))
      (fun q => passOn s x q.2 { w with saved := some { q.1 with park := x.afterBarrier u s.nextId q.2 } }) := by
  simp only [State.passBarrier, hctx, hwarp]
  change (match w.saved.bind (fun v => (v.park.bind (barrierWait this)).map (fun r => (v, r))) with
    | some (v, r) => passOn s x r { w with saved := some { v with park := x.afterBarrier u s.nextId r } }
    | none => match w.park.bind (barrierWait this) with
      | some r => passOn s x r { w with park := x.afterBarrier u s.nextId r }
      | none => s) = _
  cases w.saved.bind (fun v => (v.park.bind (barrierWait this)).map (fun r => (v, r))) with
  | some q => rfl
  | none =>
    cases w.park.bind (barrierWait this) with
    | some r => rfl
    | none => rfl

theorem passBarrier_saved {v : Saved} {k : Park} {r : Option Nat} (hsaved : w.saved = some v) (hpark : v.park = some k)
    (hwait : barrierWait this k = some r) :
    s.passBarrier c u this = passOn s x r { w with saved := some { v with park := x.afterBarrier u s.nextId r } } := by
  rw [passBarrier_eq hctx hwarp]
  simp only [hsaved, hpark, hwait, Option.bind_some, Option.map_some, Option.elim_some]

variable (hsaved : ∀ v k, w.saved = some v → v.park = some k → this k = false)
include hsaved

omit hctx hwarp in
/-- A handler has set no wait at the barrier aside. -/
theorem saved_waits_elsewhere : w.saved.bind (fun v => (v.park.bind (barrierWait this)).map (fun r => (v, r))) = none := by
  simp only [Option.bind_eq_none_iff, Option.map_eq_none_iff]
  intro v hv k hk
  simp only [barrierWait, hsaved v k hv hk, Bool.not_false, if_true]

theorem passBarrier_own {k : Park} {r : Option Nat} (hpark : w.park = some k) (hwait : barrierWait this k = some r) :
    s.passBarrier c u this = passOn s x r { w with park := x.afterBarrier u s.nextId r } := by
  rw [passBarrier_eq hctx hwarp, saved_waits_elsewhere hsaved]
  simp only [hpark, hwait, Option.bind_some, Option.elim_some, Option.elim_none]

theorem passBarrier_elsewhere {k : Park} (hpark : w.park = some k) (hwait : this k = false) : s.passBarrier c u this = s := by
  have hnone : barrierWait this k = none := by simp only [barrierWait, hwait, Bool.not_false, if_true]
  rw [passBarrier_eq hctx hwarp, saved_waits_elsewhere hsaved]
  simp only [hpark, hnone, Option.bind_some, Option.elim_none]

end

theorem barrierWait_bsync (ch scope : Nat) (acq : Bool) :
    barrierWait (Park.atBsync ch scope) (.bsync ch acq scope) = some (acquireOf acq scope) := by
  simp only [barrierWait, Park.atBsync, decide_true, Bool.and_self, Bool.not_true, Bool.false_eq_true, if_false]

theorem barrierWait_barr (blk id : Nat) : barrierWait (Park.atBarr blk id) (.barr blk id) = some (acquireOf true 2) := by
  simp only [barrierWait, Park.atBarr, decide_true, Bool.and_self, Bool.not_true, Bool.false_eq_true, if_false]

/-- A generation of another channel or another scope is another barrier (R211). -/
theorem atBsync_other {ch scope n m : Nat} (acq : Bool) (h : n ≠ ch ∨ m ≠ scope) : Park.atBsync ch scope (.bsync n acq m) = false := by
  rcases h with h | h
  · simp only [Park.atBsync, h, decide_false, Bool.false_and]
  · simp only [Park.atBsync, h, decide_false, Bool.and_false]

/-- The acquire of a barrier, where it is made, waits for the warp's earlier loads and results (R178, R212). -/
theorem afterBarrier_acquires (x : Context) (u id scope : Nat) (acq : Bool) :
    x.afterBarrier u id (acquireOf acq scope) =
      if acq = true ∧ x.acquireReady u id = false then some (.fence true false false scope 0 id 0 0) else none := by
  cases acq with
  | false => rfl
  | true => cases h : x.acquireReady u id <;> simp [Context.afterBarrier, acquireOf, h]

theorem passOn_acquires (s : State) (x : Context) (scope : Nat) (acq : Bool) (w : Warp) :
    passOn s x (acquireOf acq scope) w =
      if acq then s.acquireWith (x.setWarp w) (widCoreNo w.wid) scope else s.setCtx (x.setWarp w) := by
  cases acq <;> rfl

/-! ### Signals that arrive -/

section
variable {s : State} {c : Nat} {x : Context} (hctx : s.ctx? c = some x) (hactive : x.active = true)
include hctx hactive

theorem bsync_released {die ch : Nat} {k : Closing}
    (hclosed : x.closings.find? (fun k => k.ch = ch && k.dies.contains die && k.at_ ≤ s.cycle) = some k) :
    exec (.bsyncRelease c die ch) s = .next (k.warps.foldl (fun s u => s.passBarrier c u (Park.atBsync ch (barScope k.pkg)))
      (s.setCtx { x with closings := x.closings.filter (fun y => y ≠ k) })) := by
  show execBsyncRelease c die ch s = _
  simp only [execBsyncRelease, hctx, hclosed, hactive, Bool.not_true, Bool.false_eq_true, if_false]

theorem barr_released {blk id : Nat} {b : Block} {q : Nat × Barr} (hblock : x.block? blk = some b)
    (hfull : b.barrs.find? (fun q => 16 ≤ q.1 && q.1 % 16 = id) = some q) :
    exec (.barrRelease c blk id) s = .next (q.2.arrived.foldl (fun s u => s.passBarrier c u (Park.atBarr blk id))
      (s.setCtx (x.setBlock { b with barrs := b.barrs.filter (fun y => y.1 ≠ q.1) }))) := by
  show execBarrRelease c blk id s = _
  simp only [execBarrRelease, hctx, hblock, hfull, hactive, Bool.not_true, Bool.false_eq_true, if_false]

end

/-- A context in which a broadcast has reached the channel's register on each of its dies (R214). -/
def bcastArrived (x : Context) (b : Bcast) (id : Nat) : Context :=
  { x with
    bcasts := x.bcasts.filter (fun y => y.id ≠ id)
    bcValue := b.dies.foldl (fun m d => smPut 0 m (d * 16 + b.ch) b.value) x.bcValue
    bcGen := b.dies.foldl (fun m d => smPut 0 m (d * 16 + b.ch) (smGet 0 m (d * 16 + b.ch) + 1)) x.bcGen }

/-- The warps on the dies of a broadcast to which no other of its channel comes in the cycle (R214). -/
def bcastTakers (y : Context) (b : Bcast) (cycle : Nat) : List Nat :=
  (y.warps.filter (fun w => b.dies.contains (widDie w.wid) &&
    !y.bcasts.any (fun z => z.ch = b.ch && z.dies.contains (widDie w.wid) && z.at_ ≤ cycle))).map (fun w => w.uid)

/-- Warps take what a channel holds in turn, each result under a number of its own. -/
def takeBcasts (y : Context) (ch n : Nat) (us : List Nat) : Context :=
  us.foldl (fun x u => match x.warp? u with
    | some w => x.takeBcast w ch (n + u)
    | none => x) y

/-- A broadcast that no earlier one on its dies precedes arrives, and the receives that wait there are filled (R214). -/
theorem bcast_arrives {s : State} {c id : Nat} {x : Context} {b : Bcast} (hctx : s.ctx? c = some x)
    (hdue : x.bcasts.find? (fun b => b.id = id && b.at_ ≤ s.cycle) = some b) (hactive : x.active = true)
    (hfirst : ∀ y ∈ x.bcasts, y.before b = false) :
    exec (.bcastArrive c id) s =
      let y := bcastArrived x b id
      let us := bcastTakers y b s.cycle
      .next ({ s with nextId := s.nextId + us.foldl max 0 + 1 }.setCtx (takeBcasts y b.ch s.nextId us)) := by
  have hnone : x.bcasts.any (fun y => y.before b) = false := by
    simp only [List.any_eq_false, Bool.not_eq_true]
    exact hfirst
  show execBcastArrive c id s = _
  simp only [execBcastArrive, hctx, hdue, hactive, hnone, Bool.not_true, Bool.or_self, Bool.false_eq_true, if_false]
  rfl

/-- The oldest receive of a warp takes a value that the warp has not seen (R214). -/
theorem takeBcast_oldest {x : Context} {w : Warp} {ch id : Nat} {d : Dest} {r : List (Nat × Dest)} (hrecvs : w.recvs = (ch, d) :: r)
    (hnew : smGet 0 w.bcSeen ch < smGet 0 x.bcGen (widDie w.wid * 16 + ch)) :
    x.takeBcast w ch id = (x.setWarp { w with bcSeen := smPut 0 w.bcSeen ch (smGet 0 x.bcGen (widDie w.wid * 16 + ch)), recvs := r }).owe id
      w.uid d (smGet 0 x.bcValue (widDie w.wid * 16 + ch)) none := by
  have hfind : ((ch, d) :: r).find? (fun q => q.1 = ch) = some (ch, d) := List.find?_cons_of_pos (decide_eq_true rfl)
  simp only [Context.takeBcast, hrecvs, hfind, Nat.not_le.mpr hnew, if_false, List.erase_cons_head]

/-- Settles O48: an access fails by its kind, a wait at a barrier ends where it stands, and a broadcast arrives in its order. -/
theorem eventsOfAccessesAndPewter : Obligations.EventsOfAccessesAndPewter := by
  unfold Obligations.EventsOfAccessesAndPewter
  refine ⟨?failMember, ?failStore, ?failLoad, ?answers, ?silent, ?bsync, ?barr, ?pass, ?arrive, ?take⟩
  case failMember =>
    rintro c id a m home tr od data s x hctx ⟨hfind, horder, hkind⟩
    have hfar : (a.remote || a.kind.home.isSome) = true := by rw [hkind]; exact Bool.or_true _
    rw [remoteAccess_fails hctx hfind horder hfar, failAccess_member hkind]
    rfl
  case failStore =>
    rintro c id a data s x hctx ⟨hfind, horder, hremote, hkind⟩
    rw [remoteAccess_fails hctx hfind horder (by rw [hremote, Bool.true_or]), failAccess_store hkind]
    rfl
  case failLoad =>
    rintro c id a d bytes sx keep s x hctx ⟨hfind, horder, hremote, hkind⟩
    rw [remoteAccess_fails hctx hfind horder (by rw [hremote, Bool.true_or]), failAccess_load hkind]
    rfl
  case answers =>
    rintro c id a m home tr od data s x hctx ⟨hfind, horder, hkind⟩
    exact member_queried hctx hfind horder hkind true
  case silent =>
    rintro c id a m home tr od data s x hctx ⟨hfind, horder, hkind⟩
    rw [member_queried hctx hfind horder hkind false, if_neg Bool.false_ne_true, failAccess_member hkind]
    rfl
  case bsync =>
    rintro c die ch k s x hctx ⟨hactive, hclosed⟩
    exact bsync_released hctx hactive hclosed
  case barr =>
    rintro c blk id b q s x hctx ⟨hactive, hblock, hfull⟩
    exact barr_released hctx hactive hblock hfull
  case pass =>
    intro s c u x w ch hctx hwarp after t
    refine ⟨?ownBsync, ?savedBsync, ?ownBarr, ?savedBarr, ?other⟩
    case ownBsync =>
      intro acq sc hsaved hpark
      rw [passBarrier_own hctx hwarp hsaved hpark (barrierWait_bsync ch sc acq), passOn_acquires, afterBarrier_acquires]
    case savedBsync =>
      intro acq sc v hsaved hpark
      rw [passBarrier_saved hctx hwarp hsaved hpark (barrierWait_bsync ch sc acq), passOn_acquires, afterBarrier_acquires]
    case ownBarr =>
      intro blk id hsaved hpark
      rw [passBarrier_own hctx hwarp hsaved hpark (barrierWait_barr blk id), passOn_acquires, afterBarrier_acquires]
    case savedBarr =>
      intro blk id v hsaved hpark
      rw [passBarrier_saved hctx hwarp hsaved hpark (barrierWait_barr blk id), passOn_acquires, afterBarrier_acquires]
    case other =>
      intro n acq sc m hother hsaved hpark
      refine passBarrier_elsewhere hctx hwarp (fun v k hv => ?_) hpark (atBsync_other acq hother)
      rw [hsaved] at hv
      cases hv
  case arrive =>
    rintro c id b s x hctx ⟨hdue, hactive, hfirst⟩
    exact bcast_arrives hctx hdue hactive hfirst
  case take => exact fun x w ch d r id hrecvs hnew => takeBcast_oldest hrecvs hnew

end Sys2Proof.AccessEvents
end

section
/-! PROOFS. Events of messages: reservations, sends, matches, landings and active messages (R216, R218, R221, R325 to R333). -/

namespace Sys2Proof.MessageEvents

open Sys2Proof Machine Laws MemoryForm

/-! ### Reservations -/

/-- One more piece of a send is granted (R326). -/
def grantedOnce (s : State) (z : Sending) : State :=
  { s with sending := s.sending.map (fun (y : Sending) => if y.id = z.id then { y with granted := y.granted + 1 } else y) }

/-- The granted piece of a message that has met its engine arrives there, and at once in the unexpected queue where the message stands
in it (R326, R331). -/
def grantArrived (s : State) (z : Sending) : State :=
  { grantedOnce s z with held := s.held.map (fun (h : Held) =>
      if h.id = z.id then { h with arrived := h.arrived + 1, landed := if h.queued then h.landed + 1 else h.landed } else h) }

section
variable (s : State) {z : Sending}

theorem grant_outside (hpkg : z.pkg ≠ 0xFF) : s.grant z = (grantedOnce s z).tidySends := by
  simp only [State.grant, hpkg, ne_eq, not_false_eq_true, if_true]
  rfl

theorem grant_unmatched (hpkg : z.pkg = 0xFF) (hmatched : z.matched = false) :
    s.grant z = (grantedOnce s z).takeSlots z.die 0xFF 1 := by
  simp only [State.grant, hpkg, hmatched, ne_eq, not_true_eq_false, Bool.not_false, if_false, if_true]
  rfl

theorem grant_matched (hpkg : z.pkg = 0xFF) (hmatched : z.matched = true) :
    s.grant z = (if s.held.any (fun h => h.id = z.id && !h.queued) then (grantArrived s z).takeSlots z.die 0xFF 1
      else grantArrived s z).tidySends := by
  simp only [State.grant, hpkg, hmatched, ne_eq, not_true_eq_false, Bool.not_true, Bool.false_eq_true, if_false]
  rfl

end

section
variable {s : State} {pkg die : Nat}

theorem reservation_none (hfull : s.grantable pkg die = false) : exec (.reservationGrant pkg die) s = .next s := by
  show execReservationGrant pkg die s = _
  simp only [execReservationGrant, hfull, Bool.not_false, if_true]
  split <;> rfl

variable {z : Sending} (hgrantable : s.grantable pkg die = true)
  (holdest : s.sending.find? (fun z => z.pkg = pkg && z.die = die && z.granted < z.pieces && !s.setAside z) = some z)
include hgrantable holdest

theorem reservation_active (hmsg : z.msg = none) : exec (.reservationGrant pkg die) s = .next (s.grant z) := by
  show execReservationGrant pkg die s = _
  simp only [execReservationGrant, holdest, hgrantable, hmsg, Bool.not_true, Bool.false_eq_true, if_false]

theorem reservation_reads {m m' : Msg} {x : Context} {t : State} (hmsg : z.msg = some m) (hctx : s.ctx? z.ctx = some x)
    (hread : s.readPiece x z m = some (t, m')) : exec (.reservationGrant pkg die) s = .next ((t.putMsg z.id m').grant z) := by
  show execReservationGrant pkg die s = _
  simp only [execReservationGrant, holdest, hgrantable, hmsg, hctx, hread, Bool.not_true, Bool.false_eq_true, if_false]

theorem reservation_waits {m : Msg} {x : Context} (hmsg : z.msg = some m) (hctx : s.ctx? z.ctx = some x)
    (hread : s.readPiece x z m = none) : exec (.reservationGrant pkg die) s = .next s := by
  show execReservationGrant pkg die s = _
  simp only [execReservationGrant, holdest, hgrantable, hmsg, hctx, hread, Bool.not_true, Bool.false_eq_true, if_false]

end

theorem grantable_here (s : State) (die : Nat) :
    s.grantable 0xFF die = true ↔ s.rdy.getLsbD (32 + die) = true ∧ s.slotsOf die 0xFF < 16 := by
  simp only [State.grantable, ne_eq, not_true_eq_false, if_false, Bool.and_eq_true, decide_eq_true_eq]

/-! ### Things in a list by their places -/

theorem find?_zipIdx_place {α : Type} (l : List α) {k i : Nat} (h : k ≤ i) :
    (l.zipIdx k).find? (fun q => q.2 = i) = l[i - k]?.map (fun a => (a, i)) := by
  induction l generalizing k with
  | nil => rfl
  | cons a r ih =>
    rw [List.zipIdx_cons]
    by_cases hk : k = i
    · subst hk
      simp only [List.find?_cons, decide_true, Nat.sub_self, List.getElem?_cons_zero, Option.map_some]
    · rw [show i - k = (i - (k + 1)) + 1 by omega, List.getElem?_cons_succ, ← ih (by omega)]
      simp only [List.find?_cons, hk, decide_false]

section
variable {α β : Type} (l : List α) {p : Nat → Bool} (f : α → β) {i : Nat}

/-- Of numbered things of which those whose number passes a test are kept, the one of a number. -/
theorem find?_kept (hp : p i = true) {a : α} (ha : l[i]? = some a) :
    ((l.zipIdx.filter (fun q => p q.2)).map (fun q => (q.2, f q.1))).find? (fun r => r.1 = i) = some (i, f a) := by
  have hsame : l.zipIdx.find? (fun q => decide (p q.2 = true ∧ decide (q.2 = i) = true)) = l.zipIdx.find? (fun q => q.2 = i) :=
    congrArg (l.zipIdx.find? ·) (funext fun q => by
      by_cases hq : q.2 = i
      · simp only [hq, hp, decide_true, and_self]
      · simp only [hq, decide_false, Bool.false_eq_true, and_false])
  rw [List.find?_map, List.find?_filter]
  refine (congrArg _ (hsame.trans (find?_zipIdx_place l (Nat.zero_le i)))).trans ?_
  rw [Nat.sub_zero, ha]
  rfl

theorem find?_dropped (hp : p i = false) :
    ((l.zipIdx.filter (fun q => p q.2)).map (fun q => (q.2, f q.1))).find? (fun r => r.1 = i) = none := by
  simp only [List.find?_eq_none, List.mem_map, List.mem_filter, decide_eq_true_eq]
  rintro _ ⟨q, ⟨-, hq⟩, rfl⟩ rfl
  exact Bool.false_ne_true (hp.symm.trans hq)
end

/-! ### The piece that a reservation reads -/

@[simp] theorem engTouch_mem_of_not_global (s : State) (x : Context) (e : Seat) {space : Nat} (write : Bool) (pos : Int) (len : Nat)
    (h : space ≠ 0) : engTouch s x e space write pos len = s := if_pos h

/-- Where an element of a message lies in its stream tells with which piece it goes (R215, R326). -/
theorem runPiece_element {m : Msg} {i : Nat} (hi : i < m.codes.length) :
    runPiece m i = (if m.blk then (i / 32 + 1) * 64 + i * m.width else i * m.width) / 32768 := by
  cases hblk : m.blk <;> simp [runPiece, runPos, hblk, hi]

/-- The runs that go with the next piece of a send, each with its place in the payload, and what their homes hold (R326). -/
def pieceReads (s : State) (x : Context) (z : Sending) (m : Msg) : List (Nat × List Nat × Nat × Hit) :=
  let w := windowOf z.td z.slot 0
  (w.payloadRuns.zipIdx.filter (fun q => runPiece m q.2 = z.granted)).map (fun q => (q.2, rawRun s x (z.seat x m) w q.1.1 q.1.2))

/-- What a run of the payload is once the piece is read: what its home holds, a free value where that cannot be read, and what it was
where it goes with another piece. -/
def pieceValue (s : State) (reads : List (Nat × List Nat × Nat × Hit)) (q : Nat × Nat) : Nat :=
  match reads.find? (fun r => r.1 = q.2) with
  | none => q.1
  | some r =>
    match r.2.2.2 with
    | .ok _ => r.2.2.1
    | _ => (Config.freeWord (s.freeCount + q.2)).toNat

theorem readPiece_codes {s t : State} {x : Context} {z : Sending} {m m' : Msg} (hread : s.readPiece x z m = some (t, m')) :
    m'.codes = (((m.codes ++ m.heads.map (fun v => v.toNat)).zipIdx.map (pieceValue s (pieceReads s x z m))).take m.codes.length).map
      (fun v => v % 2 ^ m.width) := by
  unfold State.readPiece at hread
  extract_lets w e n mine reads keys ps fails val all m0 t0 at hread
  split at hread
  · cases hread
  · obtain ⟨-, rfl⟩ := Prod.mk.inj (Option.some.inj hread)
    rfl

theorem readPiece_mem {s t : State} {x : Context} {z : Sending} {m m' : Msg} (hread : s.readPiece x z m = some (t, m'))
    (hspace : (windowOf z.td z.slot 0).space ≠ 0) : t.mem = s.mem := by
  unfold State.readPiece at hread
  extract_lets w e n mine reads keys ps fails val all m0 t0 at hread
  split at hread
  · cases hread
  · obtain ⟨rfl, -⟩ := Prod.mk.inj (Option.some.inj hread)
    exact (foldl_mem (fun t q => by rw [engTouch_mem_of_not_global _ _ _ _ _ _ hspace]) mine _).trans (by rw [recordKeys_mem, noteFails_mem])

theorem readPiece_code {s t : State} {x : Context} {z : Sending} {m m' : Msg} {i : Nat} (hread : s.readPiece x z m = some (t, m'))
    (hi : i < m.codes.length) :
    m'.codes.getD i 0 = pieceValue s (pieceReads s x z m) (m.codes.getD i 0, i) % 2 ^ m.width := by
  have hcode : (m.codes ++ m.heads.map (fun v => v.toNat))[i]? = some (m.codes.getD i 0) := by
    rw [List.getElem?_append_left hi, List.getD_eq_getElem?_getD, List.getElem?_eq_getElem hi, Option.getD_some]
  rw [readPiece_codes hread, List.getD_eq_getElem?_getD, List.getElem?_map, List.getElem?_take_of_lt hi, List.getElem?_map,
    List.getElem?_zipIdx, hcode, Nat.zero_add]
  rfl

section
variable {s : State} {x : Context} {z : Sending} {m : Msg} {i : Nat}

theorem pieceValue_of_other (v : Nat) (hpiece : runPiece m i ≠ z.granted) : pieceValue s (pieceReads s x z m) (v, i) = v := by
  have hnone := find?_dropped (windowOf z.td z.slot 0).payloadRuns (p := fun n => decide (runPiece m n = z.granted))
    (fun q => rawRun s x (z.seat x m) (windowOf z.td z.slot 0) q.1 q.2) (decide_eq_false hpiece)
  simp only [pieceValue, pieceReads, hnone]

theorem pieceValue_of_read (v : Nat) {n : Nat} (hpiece : runPiece m i = z.granted) (hi : i < (windowOf z.td z.slot 0).payloadRuns.length)
    (hok : (rawRun s x (z.seat x m) (windowOf z.td z.slot 0) ((windowOf z.td z.slot 0).payloadRuns.getD i (0, 0)).1
      ((windowOf z.td z.slot 0).payloadRuns.getD i (0, 0)).2).2.2 = .ok n) :
    pieceValue s (pieceReads s x z m) (v, i) =
      (rawRun s x (z.seat x m) (windowOf z.td z.slot 0) ((windowOf z.td z.slot 0).payloadRuns.getD i (0, 0)).1
        ((windowOf z.td z.slot 0).payloadRuns.getD i (0, 0)).2).2.1 := by
  have hrun : (windowOf z.td z.slot 0).payloadRuns[i]? = some ((windowOf z.td z.slot 0).payloadRuns.getD i (0, 0)) := by
    rw [List.getD_eq_getElem?_getD, List.getElem?_eq_getElem hi, Option.getD_some]
  have hfound := find?_kept (windowOf z.td z.slot 0).payloadRuns (p := fun n => decide (runPiece m n = z.granted))
    (fun q => rawRun s x (z.seat x m) (windowOf z.td z.slot 0) q.1 q.2) (decide_eq_true hpiece) hrun
  simp only [pieceValue, pieceReads, hfound, hok]

end

/-! ### Sends that end, and messages that meet their engine -/

theorem msend_completes {s : State} {c u : Nat} {x : Context} {w : Warp} {z : Sending} (hctx : s.ctx? c = some x)
    (hwarp : x.warp? u = some w) (hactive : x.active = true) (hpark : w.park = some (.send z.id))
    (hsent : s.sending.find? (fun y => z.id = y.id && y.granted = y.pieces) = some z) :
    exec (.msendComplete c u) s = .next ((s.setCtx (x.setWarp { w with park := none })).tidySends) := by
  have hid : w.sendId = some z.id := by simp only [Warp.sendId, hpark, Option.bind_some, Option.some_or]
  have hpass : w.passSend z.id = { w with park := none } := if_pos hpark
  show execMsendComplete c u s = _
  simp only [execMsendComplete, hctx, hwarp, hid, Option.some.injEq, hsent, hactive, hpass, if_true]

section
variable {s : State} {h : Held}

theorem meet_receive {r : Receive} (hfound : s.receives.find? (fun r => r.open_ && r.die = h.die && r.accepts h.msg) = some r) :
    s.meet h = s.take r h := by
  simp only [State.meet, hfound]

/-- A message that no receive accepts goes to the queue where it has room, and else stays in its slots (R331). -/
theorem meet_none (hnone : ∀ r ∈ s.receives, r.open_ = true → r.die = h.die → r.accepts h.msg = false) :
    s.meet h = if s.queueRoom h.die h.msg then s.enqueue h else { s with held := s.held ++ [h] } := by
  have hfind : s.receives.find? (fun r => r.open_ && r.die = h.die && r.accepts h.msg) = none := by
    simp only [List.find?_eq_none, Bool.and_eq_true, decide_eq_true_eq]
    rintro r hr ⟨⟨hopen, hdie⟩, haccepts⟩
    exact Bool.false_ne_true ((hnone r hr hopen hdie).symm.trans haccepts)
  simp only [State.meet, hfind]

end

/-- A send is the oldest of a kind that its warp has towards a die and that has not met its engine (R329). -/
abbrev FirstOfWarp (s : State) (die : Nat) (z : Sending) (p : Sending → Prop) : Prop :=
  ∀ y ∈ s.sending, y.ctx = z.ctx → y.uid = z.uid → y.pkg = 0xFF → y.die = die → p y → y.matched = false → z.id ≤ y.id

theorem none_earlier {s : State} {z : Sending} {die : Nat} {p : Sending → Bool} (hfirst : FirstOfWarp s die z (fun y => p y = true)) :
    s.sending.any (fun y => y.ctx = z.ctx && y.uid = z.uid && y.pkg = 0xFF && y.die = die && p y && !y.matched && y.id < z.id) = false := by
  simp only [List.any_eq_false, Bool.and_eq_true, decide_eq_true_eq, Bool.not_eq_true']
  rintro y hy ⟨⟨⟨⟨⟨⟨hctx, huid⟩, hpkg⟩, hdie⟩, hp⟩, hmatched⟩, hid⟩
  exact Nat.not_le.mpr hid (hfirst y hy hctx huid hpkg hdie hp hmatched)

section
variable {s : State} {die id : Nat} {z : Sending} {m : Msg} (hready : s.rdy.getLsbD (32 + die) = true)
  (hsend : s.sending.find? (fun z => z.id = id && z.pkg = 0xFF && z.die = die && !z.matched && 1 ≤ z.granted) = some z)
  (hmsg : z.msg = some m)
  (hfirst : FirstOfWarp s die z (fun y => y.msg ≠ none))
  (hfree : s.stuck die 0xFF = false) (hturn : s.inTurn die m = true)
include hready hsend hmsg hfirst hfree hturn

omit hready hsend hmsg in
/-- Nothing keeps the first message of a warp from its engine in its turn (R329). -/
theorem own_open : (s.sending.any (fun y => y.ctx = z.ctx && y.uid = z.uid && y.pkg = 0xFF && y.die = die && y.msg.isSome &&
    !y.matched && y.id < z.id) || s.stuck die 0xFF || !s.inTurn die m) = false := by
  have hearly := none_earlier (p := fun y => y.msg.isSome) fun y hy hc hu hp hd hm =>
    hfirst y hy hc hu hp hd (Option.isSome_iff_ne_none.mp hm)
  rw [hearly, hfree, hturn]
  rfl

theorem own_meets {x : Context} (hrx : s.rxCtx die m.rxid = some x) :
    exec (.messageMatch die (.own id)) s = .next
      (({ s with sending := s.sending.map (fun (y : Sending) => if y.id = id then { y with matched := true } else y) }.metFirst die m).meet
        { id := id, die := die, msg := m, pieces := z.pieces, arrived := z.granted, landed := 0, queued := false
          landfault := false, receive := none }).tidySends := by
  have hopen := own_open hfirst hfree hturn
  show execMessageMatch die (.own id) s = _
  simp only [execMessageMatch, hready, hsend, hmsg, hopen, hrx, Option.isNone_some, Bool.not_true, Bool.false_eq_true, if_false]

/-- A message whose receive context is not on the die is discarded, and the driver told (log entry 25). -/
theorem own_discarded (hrx : s.rxCtx die m.rxid = none) :
    exec (.messageMatch die (.own id)) s = .next { (({ s with
      sending := s.sending.map (fun (y : Sending) => if y.id = id then { y with matched := true, granted := y.pieces } else y) }.metFirst
        die m).returnSlots die 0xFF z.granted) with driverLog := s.driverLog ++ [BitVec.ofNat 64 id] }.tidySends := by
  have hopen := own_open hfirst hfree hturn
  show execMessageMatch die (.own id) s = _
  simp only [execMessageMatch, hready, hsend, hmsg, hopen, hrx, Option.isNone_none, Bool.not_true, Bool.false_eq_true, if_false, if_true]

end

/-- A message of another package meets the engine in a slot of that package's (R325, R329). -/
theorem remote_meets {s : State} {die : Nat} {m : Msg} {x : Context} (hready : s.rdy.getLsbD (32 + die) = true) (hpkg : m.srcPkg < 0x80)
    (hpod : s.pod ≠ none) (hfree : s.stuck die m.srcPkg = false) (hroom : s.slotsOf die m.srcPkg < 16) (hturn : s.inTurn die m = true)
    (hrx : s.rxCtx die m.rxid = some x) :
    exec (.messageMatch die (.remote m)) s = .next (({ (s.metFirst die m) with nextId := s.nextId + 1 }.takeSlots die m.srcPkg 1).meet
      { id := s.nextId, die := die, msg := m, pieces := msgPieces m, arrived := 1, landed := 0, queued := false
        landfault := false, receive := none }) := by
  have hopen : (decide (0x80 ≤ m.srcPkg) || s.pod.isNone || s.stuck die m.srcPkg || decide (16 ≤ s.slotsOf die m.srcPkg) ||
      !s.inTurn die m) = false := by
    rw [decide_eq_false (Nat.not_le.mpr hpkg), Option.isNone_eq_false_iff.mpr (Option.isSome_iff_ne_none.mpr hpod), hfree,
      decide_eq_false (Nat.not_le.mpr hroom), hturn]
    rfl
  show execMessageMatch die (.remote m) s = _
  simp only [execMessageMatch, hready, hopen, hrx, Option.isNone_some, Bool.not_true, Bool.false_eq_true, if_false]

/-! ### Pieces that land -/

section
variable {s : State} {die id : Nat} {h : Held} {q : Nat × Nat} {r : Receive} {x : Context}
  (hheld : s.held.find? (fun h => h.id = id && h.die = die) = some h) (hreceive : h.receive = some q)
  (hfound : s.receives.find? (fun r => r.die = q.1 && r.entry = q.2) = some r) (hctx : s.ctx? r.ctx = some x)
  (hready : s.rdy.getLsbD (32 + die) = true) (hland : r.mayLand x = true)
include hheld hreceive hfound hctx hready hland

/-- A piece leaves its slot, which returns to its source, and a message lands with its last (R326, R330). -/
theorem piece_lands (hred : r.red = none) (hleft : h.landed < h.arrived) :
    let h' := { h with landed := h.landed + 1 }
    let t := { s with held := s.held.map (fun (y : Held) => if y.id = id then h' else y) }.returnSlots die h.msg.srcPkg 1
    exec (.pieceLand die id) s = .next (if h.landed + 1 < h.pieces then t.nextPiece h' else landOne t x r h') := by
  have hplain : s.redReady r = false := by simp only [State.redReady, hred]
  show execPieceLand die id s = _
  simp only [execPieceLand, hheld, hreceive, Option.bind_some, hfound, hctx, hready, hland, hplain, hred, hleft, Option.isSome_none,
    Bool.not_true, Bool.or_self, Bool.false_and, Bool.false_eq_true, if_false, if_true]

/-- A contribution that finds no staging room waits in its slots, and its next piece comes (R332). -/
theorem piece_waits (hopen : s.redReady r = false) (hred : r.red ≠ none) (hroom : s.stageRoom x r h = false) :
    exec (.pieceLand die id) s = .next (s.nextPiece h) := by
  have hsome : r.red.isSome = true := Option.isSome_iff_ne_none.mpr hred
  show execPieceLand die id s = _
  simp only [execPieceLand, hheld, hreceive, Option.bind_some, hfound, hctx, hready, hland, hopen, hsome, hroom, Bool.not_true,
    Bool.or_self, Bool.not_false, Bool.and_self, Bool.false_eq_true, if_false, if_true]

end

theorem nextPiece_comes (s : State) (h : Held) :
    s.nextPiece h = if h.msg.srcPkg = 0xFF ∨ h.pieces ≤ h.arrived ∨ 16 ≤ s.slotsOf h.die h.msg.srcPkg then s
      else { s with held := s.held.map (fun (y : Held) => if y.id = h.id then { y with arrived := y.arrived + 1 } else y) }.takeSlots h.die
        h.msg.srcPkg 1 := by
  simp only [State.nextPiece, Bool.or_eq_true, decide_eq_true_eq, or_assoc]

theorem landfault_freed {s : State} {die id : Nat} {h : Held}
    (hheld : s.held.find? (fun h => h.die = die && h.id = id && h.landfault) = some h) :
    exec (.landfaultEntryFree die id) s = .next ({ s with held := s.held.filter (fun y => y.id ≠ id) }.settleQueue die h.msg.rxid) := by
  show execLandfaultEntryFree die id s = _
  simp only [execLandfaultEntryFree, hheld]

/-! ### Active messages -/

section
variable {s : State} {die id : Nat} {z : Sending} {a : ActiveMsg} (hready : s.rdy.getLsbD (36 + die) = true)
  (hsend : s.sending.find? (fun z => z.id = id && z.pkg = 0xFF && z.die = die && !z.matched && 1 ≤ z.granted) = some z)
  (hactive : z.active = some a)
  (hfirst : FirstOfWarp s die z (fun y => y.active ≠ none))
include hready hsend hactive hfirst

omit hready hsend hactive in
theorem none_active_earlier : s.sending.any (fun y => y.ctx = z.ctx && y.uid = z.uid && y.pkg = 0xFF && y.die = die &&
    y.active.isSome && !y.matched && y.id < z.id) = false :=
  none_earlier (p := fun y => y.active.isSome) fun y hy hc hu hp hd hm => hfirst y hy hc hu hp hd (Option.isSome_iff_ne_none.mp hm)

theorem active_delivered {t : State} (hdeliver : s.deliverActive die a = some t) :
    exec (.activeMessageDeliver die (.own id)) s = .next ({ t with sending := t.sending.map (fun (y : Sending) =>
      if y.id = id then { y with matched := true } else y) }.returnSlots die 0xFF z.granted).tidySends := by
  have hearly := none_active_earlier hfirst
  show execActiveMessageDeliver die (.own id) s = _
  simp only [execActiveMessageDeliver, hready, hsend, hactive, hearly, hdeliver, Bool.not_true, Bool.false_eq_true, if_false]

theorem active_waits (hdeliver : s.deliverActive die a = none) : exec (.activeMessageDeliver die (.own id)) s = .next s := by
  have hearly := none_active_earlier hfirst
  show execActiveMessageDeliver die (.own id) s = _
  simp only [execActiveMessageDeliver, hready, hsend, hactive, hearly, hdeliver, Bool.not_true, Bool.false_eq_true, if_false]

end

section
variable {s : State} {die q : Nat} {a : ActiveMsg} (hown : a.q = some q)
include hown

/-- The handler block of an active message starts in the first core of the die that has room for it (R221, R333). -/
theorem deliver_starts {x : Context} {l : Launch} {p : Placed} (hctx : s.ctx? a.ctx = some x) (htarget : activeTarget a x die = some l)
    (hrunning : x.state = .running) (hplace : l.rcd.placeOne x (x.cores die) 1 0 = some p) :
    s.deliverActive die a =
      some (startBlock (s.setCtx (x.setLaunch { l with msgCount := smPut 0 l.msgCount die (smGet 0 l.msgCount die + 1) }))
        x.id l (l.startHandler p die (smGet 0 l.msgCount die) a)) := by
  simp only [State.deliverActive, hown, hctx, htarget, hrunning, hplace, ne_eq, not_true_eq_false, if_false]

/-- An active message without a target is discarded, and the driver told (R333). -/
theorem deliver_discards (htarget : ∀ x, s.ctx? a.ctx = some x → activeTarget a x die = none) :
    s.deliverActive die a = some { s with driverLog := s.driverLog ++ [BitVec.ofNat 64 a.src.toNat] } := by
  cases hctx : s.ctx? a.ctx with
  | none => simp only [State.deliverActive, hown, hctx]
  | some x =>
    simp only [State.deliverActive, hown, hctx, htarget x hctx, Option.isSome_some, Bool.true_or, if_true]

end

/-- Settles O50: the oldest request is granted, with its piece read run by run (`readPiece_code`), a message meets its engine behind the
earlier ones of its warp (`none_earlier`), and pieces and active messages go where their receive or their target is. -/
theorem eventsOfMessages : Obligations.EventsOfMessages := by
  unfold Obligations.EventsOfMessages
  refine ⟨?grant, ?reservation, ?reservationFull, ?grantable, ?piece, ?runPiece, ?slots, ?sendEnds, ?meets, ?discarded, ?remote, ?receive,
    ?queue, ?lands, ?stages, ?next, ?active, ?starts, ?noTarget, ?faultFreed⟩
  case grant =>
    intro s z up t
    exact ⟨grant_outside s, grant_unmatched s, grant_matched s⟩
  case reservation =>
    intro s pkg die z hgrantable holdest
    exact ⟨reservation_active hgrantable holdest, fun m x t m' => reservation_reads hgrantable holdest,
      fun m x => reservation_waits hgrantable holdest⟩
  case reservationFull => exact fun s pkg die => reservation_none
  case grantable => exact grantable_here
  case piece =>
    intro s x z m t m' i hread w q r hcells hruns hi
    refine ⟨readPiece_mem hread, fun hpiece => ?_, fun hpiece v hok => ?_⟩
    · rw [readPiece_code hread hi, pieceValue_of_other _ hpiece]
    · have hrun : i < w.payloadRuns.length := by omega
      rw [readPiece_code hread hi, pieceValue_of_read _ hpiece hrun hok]
  case runPiece => exact fun m i => runPiece_element
  case slots => exact fun s die src n => ⟨rfl, rfl⟩
  case sendEnds =>
    rintro c u z s x w hctx hwarp ⟨hactive, hpark, hsent⟩
    exact msend_completes hctx hwarp hactive hpark hsent
  case meets =>
    intro s die id z m x hready hsend hmsg hfirst hfree hturn hrx
    exact own_meets hready hsend hmsg hfirst hfree hturn hrx
  case discarded =>
    intro s die id z m hready hsend hmsg hfirst hfree hturn hrx
    exact own_discarded hready hsend hmsg hfirst hfree hturn hrx
  case remote =>
    intro s die m x hready hpkg hpod hfree hroom hturn hrx
    exact remote_meets hready hpkg hpod hfree hroom hturn hrx
  case receive => exact fun s h r => meet_receive
  case queue => exact fun s h => meet_none
  case lands =>
    intro s die id h q r x hheld hreceive hfound hctx hready hland hred hleft
    exact piece_lands hheld hreceive hfound hctx hready hland hred hleft
  case stages =>
    intro s die id h q r x hheld hreceive hfound hctx hready hland hopen hred hroom
    exact piece_waits hheld hreceive hfound hctx hready hland hopen hred hroom
  case next => exact nextPiece_comes
  case active =>
    intro s die id z a hready hsend hactive hfirst
    exact ⟨fun t => active_delivered hready hsend hactive hfirst, active_waits hready hsend hactive hfirst⟩
  case starts =>
    intro s die a q x l p hown hctx htarget hrunning hplace
    exact deliver_starts hown hctx htarget hrunning hplace
  case noTarget => exact fun s die a q hown => deliver_discards hown
  case faultFreed => exact fun s die id h => landfault_freed

end Sys2Proof.MessageEvents
end

section
/-! PROOFS. Events of launches: doorbells, acceptance, dispatch, reassignment and completion (R287, R292 to R302, R344, R345, R356). -/

namespace Sys2Proof.LaunchEvents

open Sys2Proof Machine Laws Atomics

/-! ### The host's writes and the doorbell -/

/-- With no piece written no mark of an error is cleared. -/
theorem granuleLeft_nil (p : Nat) : granuleLeft [] p = true := by
  by_cases hsize : p % 64 = 0
  · simp only [granuleLeft, hsize, decide_true, Bool.true_or]
  · simp only [granuleLeft, List.any_nil, Bool.not_false, List.any_eq_true, List.mem_range, Bool.or_eq_true, and_true]
    exact .inr ⟨0, by omega⟩

theorem hostWrites_nil (s : State) (c : Nat) : s.hostWrites c [] = s := by
  have hkept : s.poison.filter (granuleLeft []) = s.poison := List.filter_eq_self.mpr fun p _ => granuleLeft_nil p
  simp only [State.hostWrites, List.filterMap_nil, List.foldl_nil, hkept]

theorem hostWrite_byte (s : State) (c k : Nat) (b : Byte) (hspace : keySpace k < 0x100) (hreach : s.reachable k = true) :
    (s.hostWrites c [.byte k b]).mem = putByte s.mem k b := by
  simp only [State.hostWrites, List.foldl_cons, List.foldl_nil, State.hostWrite, hspace, hreach, decide_true, Bool.and_self, if_true]

theorem hostWrite_slot {s : State} {c k : Nat} {x : Context} (hctx : s.ctx? c = some x) :
    s.hostWrite c (.slot k) = if x.busy.getLsbD k then s.overwrite x k else s := by
  simp only [State.hostWrite, hctx]

/-- A doorbell stands behind the host's writes, and both behind a stack that is not ready (R287, R356). -/
theorem doorbell_after_writes (c slot : Nat) (bs : List Byte) (ws : List HostWrite) (s : State) :
    exec (.hostDoorbell c slot ⟨bs, ws⟩) s =
      if ws.any s.hostWaits then .next s else exec (.hostDoorbell c slot ⟨bs, []⟩) (s.hostWrites c ws) := by
  show execHostDoorbell c slot ⟨bs, ws⟩ s = if _ then _ else execHostDoorbell c slot ⟨bs, []⟩ (s.hostWrites c ws)
  simp only [execHostDoorbell, hostWrites_nil, List.any_nil, Bool.false_eq_true, if_false]
  split <;> rfl

/-- A record of 128 bytes fits a slot of the launch window (R294). -/
theorem record_fits {slot : Nat} {bs : List Byte} (hslot : slot < 16) (hlength : bs.length = 128) :
    (decide (16 ≤ slot) || decide (bs.length ≠ 128)) = false := by
  rw [decide_eq_false (Nat.not_le.mpr hslot), decide_eq_false (not_not_intro hlength)]
  rfl

section
variable {s : State} {c slot : Nat} {x : Context} {bs : List Byte} (hctx : s.ctx? c = some x)
include hctx

theorem doorbell_submits (hslot : slot < 16) (hlength : bs.length = 128) (hfree : x.busy.getLsbD slot = false) :
    exec (.hostDoorbell c slot ⟨bs, []⟩) s =
      .next (s.setCtx { x with busy := x.busy ||| BitVec.ofNat 16 (2 ^ slot), submitted := x.submitted ++ [.host slot bs] }) := by
  have hopen := record_fits hslot hlength
  show execHostDoorbell c slot ⟨bs, []⟩ s = _
  simp only [execHostDoorbell, hostWrites_nil, List.any_nil, hctx, hopen, hfree, Bool.false_eq_true, if_false]

/-- The doorbell of a record that is still to be taken changes nothing (R294). -/
theorem doorbell_again (hbusy : x.busy.getLsbD slot = true) (hsame : x.window slot = some bs) :
    exec (.hostDoorbell c slot ⟨bs, []⟩) s = .next s := by
  show execHostDoorbell c slot ⟨bs, []⟩ s = _
  simp only [execHostDoorbell, hostWrites_nil, List.any_nil, hctx, hbusy, hsame, Bool.false_eq_true, if_true, ite_self]

theorem doorbell_overwrites (hslot : slot < 16) (hlength : bs.length = 128) (hbusy : x.busy.getLsbD slot = true)
    (hother : x.window slot ≠ some bs) : exec (.hostDoorbell c slot ⟨bs, []⟩) s = .next (s.overwrite x slot) := by
  have hopen := record_fits hslot hlength
  show execHostDoorbell c slot ⟨bs, []⟩ s = _
  simp only [execHostDoorbell, hostWrites_nil, List.any_nil, hctx, hopen, hbusy, hother, Bool.false_eq_true, if_false, if_true]

end

/-! ### A record that the host has overwritten -/

/-- The free values that the bytes of an overwritten record have (R294; log entry 35). -/
def freeRecord (s : State) : List Byte := (List.range 128).map (fun i => BitVec.ofNat 8 (Config.freeWord (s.freeCount + i)).toNat)

/-- A submission with other bytes where it is the record of a slot. -/
def withRecord (slot : Nat) (bs : List Byte) : Submitted → Submitted
  | .host k r => if k = slot then .host k bs else .host k r
  | .warp u a d prod => .warp u a d prod

/-- A context with other bytes in the record of a slot that is still to be taken. -/
def withRecords (x : Context) (slot : Nat) (bs : List Byte) : Context :=
  { x with submitted := x.submitted.map (withRecord slot bs) }

theorem overwrite_eq (s : State) (x : Context) (slot : Nat) :
    s.overwrite x slot = { s with freeCount := s.freeCount + 128 }.setCtx (withRecords x slot (freeRecord s)) :=
  congrArg (fun f => ({ s with freeCount := s.freeCount + 128 } : State).setCtx { x with submitted := x.submitted.map f })
    (funext fun b => by cases b <;> rfl)

/-- Any other submission stays as it is. -/
theorem withRecord_of_other {slot : Nat} {bs : List Byte} {b : Submitted} (h : ∀ r, b ≠ .host slot r) : withRecord slot bs b = b := by
  cases b with
  | warp u a d prod => rfl
  | host k r => exact if_neg fun hk => h r (congrArg (Submitted.host · r) hk)

theorem eq_of_withRecord_eq {slot : Nat} {bs r : List Byte} {b : Submitted} (h : withRecord slot bs b = .host slot r) : r = bs := by
  cases b with
  | warp u a d prod => cases h
  | host k r' =>
    by_cases hk : k = slot
    · rw [withRecord, if_pos hk] at h
      exact (Submitted.host.inj h).2.symm
    · rw [withRecord, if_neg hk] at h
      exact absurd (Submitted.host.inj h).1 hk

/-! ### Acceptance -/

/-- Where a refused submission's completion word goes: none where its record cannot be read or names none (R295). -/
def completionPlace (v : Nat × Hit) : Option Nat :=
  match v.2 with
  | .ok _ => recCpl v.1
  | _ => none

section
variable {s : State} {c : Nat} {x : Context} {b : Submitted} {bs : List Submitted} (hctx : s.ctx? c = some x)
  (hsubmitted : x.submitted = b :: bs) (hactive : x.active = true) (hready : s.rdy.getLsbD (36 + x.p.dies.headD 0) = true)
include hctx hsubmitted hactive hready

/-- The oldest submission is accepted under the context's next number, and waits with all its shares (R293, R297). -/
theorem launch_accepted {r : Rec} {slots : SMap Word} {hs : List Nat}
    (hjudge : judge s x (b.record s x).1 (b.record s x).2 = .accepted r slots hs) (hkind : r.kind = false) :
    exec (.launchAccept c) s =
      let t := touchRecord s x b (b.record s x).1 (b.record s x).2
      let y : Context := x.takeSubmission b t.nextId x.nextQ
      .next ({ t with nextId := t.nextId + 1 }.setCtx { y with
        launches := y.launches ++ [({ q := x.nextQ, rcd := r, slots := slots, handlers := hs, gens := [], waiting := r.shares x x.nextQ
                                      stageOf := r.firstStages x, stageCount := [], msgCount := [], ended := none } : Launch)]
        nextQ := (x.nextQ + 1) % 2 ^ 32 }) := by
  show execLaunchAccept c s = _
  simp only [execLaunchAccept, hctx, hsubmitted, hactive, hready, hjudge, hkind, Bool.not_true, Bool.or_self, Bool.false_eq_true, if_false]

/-- The oldest submission is refused with its cause, once its completion word can be written (R292, R295, R356). -/
theorem launch_refused {k : Cause} {rv : List Nat} (hjudge : judge s x (b.record s x).1 (b.record s x).2 = .refused k rv)
    (hread : (b.record s x).2 ≠ .wait) (hfree : ∀ a, completionPlace (b.record s x) = some a → unitBusy s x a = false) :
    exec (.launchAccept c) s = .next (refuse ((touchRecord s x b (b.record s x).1 (b.record s x).2).revoke c rv) x b
      (completionPlace (b.record s x)) k) := by
  show execLaunchAccept c s = _
  simp only [execLaunchAccept, hctx, hsubmitted, hactive, hready, hjudge, hread, Bool.not_true, Bool.or_self, Bool.false_eq_true, if_false,
    decide_false, Bool.or_false]
  cases hhit : (b.record s x).2 with
  | wait => exact absurd hhit hread
  | fail n ks => simp only [completionPlace, hhit, Bool.false_eq_true, if_false]
  | ok n =>
    cases hplace : recCpl (b.record s x).1 with
    | none => simp only [completionPlace, hhit, hplace, Bool.false_eq_true, if_false]
    | some a =>
      have hbusy := hfree a (by simp only [completionPlace, hhit, hplace])
      simp only [completionPlace, hhit, hplace, hbusy, Bool.false_eq_true, if_false]

end

theorem judge_full {s : State} {x : Context} (raw : Nat) (hit : Hit) (hfull : 256 ≤ x.launches.length) :
    judge s x raw hit = .refused .launchFull [] := by
  simp only [judge, hfull, if_true]

theorem judge_malformed {s : State} {x : Context} {raw : Nat} (v : Nat) (hroom : x.launches.length < 256) (hrecord : recOk raw = false) :
    judge s x raw (.ok v) = .refused .launchRecord [] := by
  simp only [judge, Nat.not_le.mpr hroom, hrecord, Bool.not_false, if_false, if_true]

/-! ### Dispatch -/

section
variable {s : State} {c die : Nat} {x : Context} {l : Launch} (hctx : s.ctx? c = some x) (hrunning : x.state = .running)
  (hready : s.rdy.getLsbD (36 + die) = true) (hdue : s.activeDue c die = false)
include hctx hrunning hready hdue

omit hctx in
/-- Nothing keeps a die of a running context from starting a block once no active message is due there (R297). -/
theorem dispatch_open : (decide (x.state ≠ .running) || !s.rdy.getLsbD (36 + die) || s.activeDue c die) = false := by
  rw [decide_eq_false (not_not_intro hrunning), hready, hdue]
  rfl

/-- The next share of a die is admitted whole (R297). -/
theorem share_admitted {q : Nat × Nat} {ps : List Placed} (hlaunch : x.nextLaunch die = some l)
    (hshare : l.waiting.find? (fun q => q.1 = die) = some q) (hplace : l.place x die q.2 = some ps) :
    exec (.blockAdmit c die) s = .next (ps.foldl (fun s p => startBlock s c l (l.startGrid p))
      (s.setCtx (x.setLaunch ({ l with waiting := l.waiting.erase q } : Launch)))) := by
  have hopen := dispatch_open hrunning hready hdue
  show execBlockAdmit c die s = _
  simp only [execBlockAdmit, hctx, hopen, hlaunch, hshare, hplace, Bool.false_eq_true, if_false]

/-- A stage block takes the items at the head of its queue: as many as it has threads, or what is left once the stages before it have
ended (R300). -/
theorem stage_dispatched {k : Nat} {p : Placed} (honly : x.launches = [l]) (hlive : l.ended = none) (hstage : 0 < k) (hlast : k < l.stages)
    (hdie : die ∈ x.p.dies)
    (hitems : l.rcd.warps * l.rcd.lanes ≤ (x.queue l.q die k).length ∨ (1 ≤ (x.queue l.q die k).length ∧ x.drained l die k = true))
    (hplace : l.rcd.placeOne x (x.coresOf l.stageOf die k) l.rcd.warps l.rcd.scr = some p) :
    exec (.stageBlockDispatch c die k) s =
      let q := x.queue l.q die k
      let t := l.rcd.warps * l.rcd.lanes
      let n := smGet 0 l.stageCount (die * 4 + k)
      .next (startBlock (s.setCtx ((x.setLaunch { l with stageCount := smPut 0 l.stageCount (die * 4 + k) (n + 1) }).setQueue l.q die k 0
        (q.drop t))) c l (l.startStage p die k n (q.take t))) := by
  have hopen := dispatch_open hrunning hready hdue
  have hserved : (l.ended.isSome || decide (k = 0) || decide (l.stages ≤ k) || !x.p.dies.contains die) = false := by
    rw [hlive, decide_eq_false (Nat.pos_iff_ne_zero.mp hstage), decide_eq_false (Nat.not_le.mpr hlast), List.contains_iff_mem.mpr hdie]
    rfl
  have hfull : (decide (l.rcd.warps * l.rcd.lanes ≤ (x.queue l.q die k).length) ||
      (decide (1 ≤ (x.queue l.q die k).length) && x.drained l die k)) = true := by
    simp only [Bool.or_eq_true, Bool.and_eq_true, decide_eq_true_eq]
    exact hitems
  show execStageBlockDispatch c die k s = _
  simp only [execStageBlockDispatch, hctx, hopen, honly, List.findSome?_cons, hserved, hfull, hplace, Option.map_some, Bool.false_eq_true,
    if_false, if_true]

end

/-- A core that holds no block of a staged launch moves to the stage that R302 gives it. -/
theorem core_reassigned {s : State} {c core : Nat} {x : Context} (hctx : s.ctx? c = some x) (hrunning : x.state = .running)
    (hcore : core ∈ x.cores (core / 128)) (hdie : core / 128 ∈ x.p.dies) :
    exec (.coreReassign c core) s = .next (s.setCtx { x with launches := x.launches.map (fun (l : Launch) =>
      if l.stages = 0 || l.ended.isSome || x.blocks.any (fun b => b.q = l.q && b.core = core) then l
      else { l with stageOf := smPut 0 l.stageOf core (l.newStage x core) }) }) := by
  have hopen : (decide (x.state ≠ .running) || !(x.cores (core / 128)).contains core || !x.p.dies.contains (core / 128)) = false := by
    rw [decide_eq_false (not_not_intro hrunning), List.contains_iff_mem.mpr hcore, List.contains_iff_mem.mpr hdie]
    rfl
  show execCoreReassign c core s = _
  simp only [execCoreReassign, hctx, hopen, Bool.false_eq_true, if_false]

/-! ### Completion -/

theorem drainGone_of_quiet {s : State} {x : Context} (h : x.accesses = []) : drainGone s x = s := by
  simp only [drainGone, h, List.filter_nil, List.foldl_nil]

/-- A launch of which nothing is left writes its completion word and leaves the table (R295). -/
theorem launch_completes {s : State} {c q : Nat} {x : Context} {l : Launch} (hctx : s.ctx? c = some x) (hlaunch : x.launch? q = some l)
    (hlive : l.ended = none) (hover : l.over s x = true) (hresidue : x.residue = false) (haccesses : x.accesses = [])
    (hcpl : l.rcd.cpl ≠ 0) (hfree : unitBusy s x l.rcd.cpl = false) :
    exec (.launchComplete c q) s = .next (((engStore s x x.launchSeat l.rcd.cpl 8 (completionWord false false 0 q)).setCtx { x with
      launches := x.launches.filter (fun y => y.q ≠ q), queues := x.queues.filter (fun k => k.q ≠ q) }).dropSides c) := by
  have hgone : drainGone s x = s := drainGone_of_quiet haccesses
  show execLaunchComplete c q s = _
  simp only [execLaunchComplete, hctx, Option.bind_some, hlaunch, hlive, hover, hgone, hresidue, hcpl, hfree, Option.isSome_none,
    Option.getD_none, Bool.not_true, Bool.and_false, Bool.or_self, Bool.false_eq_true, if_false]

/-- No card of a launch is left, none is posted, and no chain of its own is followed (R287, R295; log entry 73). -/
theorem quiet_iff (l : Launch) (x : Context) : l.quiet x = true ↔ (∀ k ∈ x.cards, k.q ≠ l.q) ∧ (∀ p ∈ x.posted, p.card.q ≠ l.q) ∧
    ∀ n ∈ x.channels, n.walking ≠ none → n.chainQ ≠ l.q := by
  simp only [Launch.quiet, Bool.and_eq_true, Bool.not_eq_true', List.any_eq_false, decide_eq_true_eq, Option.isSome_iff_ne_none, not_and,
    and_assoc, ne_eq]

theorem over_iff (l : Launch) (s : State) (x : Context) (hlive : l.ended = none) : l.over s x = true ↔ l.waiting = [] ∧
    (∀ b ∈ x.blocks, b.q ≠ l.q) ∧ (∀ k ∈ x.queues, k.q = l.q → k.items = []) ∧ l.quiet x = true := by
  simp only [Launch.over, hlive, Bool.and_eq_true, Bool.not_eq_true', List.any_eq_false, decide_eq_true_eq, Option.isNone_none,
    Bool.true_or, List.isEmpty_iff, ne_eq, not_and, Decidable.not_not, and_assoc, and_true]

/-- A launch that is killed has ended with that cause, and its warps are halted, at once (R345; log entry 22). -/
theorem launch_killed {s : State} {c : Nat} {x : Context} (hctx : s.ctx? c = some x) (q : Nat) :
    exec (.launchKill c q) s = .next (s.setCtx (x.endLaunch q .killed)) := by
  show execLaunchKill c q s = _
  simp only [execLaunchKill, hctx]

/-- Settles O51: each event of a launch has its effect once nothing keeps it (`record_fits`, `dispatch_open`, `over_iff`), and a record that
the host overwrites is the only submission that changes (`overwrite_eq`). -/
theorem eventsOfLaunches : Obligations.EventsOfLaunches := by
  unfold Obligations.EventsOfLaunches
  refine ⟨?submits, ?again, ?overwrites, ?slotWrite, ?overwritten, ?writes, ?byte, ?accepted, ?refused, ?full, ?malformed, ?admitted,
    ?stage, ?reassigned, ?completes, ?nothingLeft, ?killed⟩
  case submits =>
    rintro c slot bs s x hctx ⟨hslot, hlength, hfree⟩
    exact doorbell_submits hctx hslot hlength hfree
  case again =>
    rintro c slot bs s x hctx ⟨hbusy, hsame⟩
    exact doorbell_again hctx hbusy hsame
  case overwrites =>
    rintro c slot bs s x hctx ⟨hslot, hlength, hbusy, hother⟩
    exact doorbell_overwrites hctx hslot hlength hbusy hother
  case slotWrite => exact fun s c x k => hostWrite_slot
  case overwritten =>
    intro s c x k hctx
    rw [overwrite_eq]
    refine ⟨withRecords x k (freeRecord s), ctx?_setCtx_of_ctxs hctx rfl rfl, rfl, List.length_map _, fun b hb hother => ?_,
      fun bs hbs => ?_, rfl, rfl⟩
    · exact List.mem_map.mpr ⟨b, hb, withRecord_of_other hother⟩
    · obtain ⟨b, -, hb⟩ := List.mem_map.mp hbs
      exact eq_of_withRecord_eq hb
  case writes => exact doorbell_after_writes
  case byte => exact fun c k b s => hostWrite_byte s c k b
  case accepted =>
    rintro c b bs r slots hs s x hctx ⟨hsubmitted, hactive, hready, hjudge, hkind⟩
    exact launch_accepted hctx hsubmitted hactive hready hjudge hkind
  case refused =>
    rintro c b bs k rv s x hctx ⟨hsubmitted, hactive, hready, hjudge, hread, hfree⟩
    exact launch_refused hctx hsubmitted hactive hready hjudge hread hfree
  case full => exact fun s x raw hit => judge_full raw hit
  case malformed => exact fun s x raw v => judge_malformed v
  case admitted =>
    rintro c die l q ps s x hctx ⟨hrunning, hready, hdue, hlaunch, hshare, hplace⟩
    exact share_admitted hctx hrunning hready hdue hlaunch hshare hplace
  case stage =>
    rintro c die k l p s x hctx ⟨hrunning, hready, hdue, honly, hlive, hstage, hlast, hdie, hitems, hplace⟩
    exact stage_dispatched hctx hrunning hready hdue honly hlive hstage hlast hdie hitems hplace
  case reassigned =>
    rintro c core s x hctx ⟨hrunning, hcore, hdie⟩
    exact core_reassigned hctx hrunning hcore hdie
  case completes =>
    rintro c q l s x hctx ⟨hlaunch, hlive, hover, hresidue, haccesses, hcpl, hfree⟩
    exact launch_completes hctx hlaunch hlive hover hresidue haccesses hcpl hfree
  case nothingLeft =>
    intro l s x hlive
    rw [over_iff l s x hlive, quiet_iff]
  case killed => exact fun c q s x hctx _ => launch_killed hctx q

end Sys2Proof.LaunchEvents
end

section
/-! PROOFS. The bits of a leaf entry: D is set only by a write that the page allows (R262). -/

namespace Sys2Proof.PageBits

open Sys2Proof Machine Laws

/-- A leaf of 1 GiB of local HBM that may be read and not written, with neither A nor D set (R261, R262). -/
def readOnlyLeaf : Nat := 2 ^ 63 + 2 ^ 62 + 0xFF * 2 ^ 47 + 0x400

/-- The tables of the boot context, with that leaf in their last level. -/
def readOnlyTables : List (Nat × Word) := bootTables.take 2 ++ [(8192, BitVec.ofNat 64 readOnlyLeaf)]

/-- A package whose stacks are all ready, and whose memory holds those tables. -/
def readOnlyPackage : State := ({ State.reset with rdy := -1 } : State).writePtes readOnlyTables

/-- A context whose tables they are: its root is at address 0. -/
def readOnlyContext : Context := newContext readOnlyPackage bootParams .running

theorem findLeaf_readOnly : findLeaf readOnlyPackage readOnlyContext 0 0x10000 true = .leaf readOnlyLeaf 2 (some 8192) := by decide +kernel

/-- A write that the page does not allow sets A and leaves D as it was. -/
theorem touchLeaf_readOnly :
    readBytes (touchLeaf readOnlyPackage readOnlyContext 0 0x10000 true).mem (keyHbm 8192) 8 = readOnlyLeaf ||| 2 := by decide +kernel

/-- Refutes O30: its second clause has D set for every write, but `touchLeaf` sets D only where the leaf's W bit allows the write, as R262
has it: the read-only leaf gains A alone. -/
theorem not_pageBitsOnly : ¬ Obligations.PageBitsOnly := by
  unfold Obligations.PageBitsOnly
  rintro ⟨-, hbits, -⟩
  have hboth := hbits readOnlyPackage readOnlyContext 0 0x10000 true readOnlyLeaf 2 8192 findLeaf_readOnly
  exact absurd (touchLeaf_readOnly.symm.trans hboth) (by decide)

end Sys2Proof.PageBits
end

section
/-! PROOFS. Events of the package: what an uncorrectable error marks (R269). -/

namespace Sys2Proof.PackageEvents

open Sys2Proof Machine Laws

/-- The first byte of the vault of cluster 0 of context 0, a space whose granules have 16 bytes. -/
def vaultKey : Nat := keyVault 0 0 0

/-- The mark of 32 bytes in error from that byte on. -/
def wideMark : Nat := vaultKey * 64 + 32

/-- A package in which those 32 bytes are in error. -/
def markedPackage : State := { State.reset with poison := [wideMark] }

/-- An uncorrectable error in the granule of that byte. -/
def vaultError : ErrorEvent := { unit := 2, die := 0, cluster := 0, idx := 0, loc := 0, consumed := false, site := .granule vaultKey }

/-- A package after an event that gives a next state, and as it was after any other. -/
def afterEvent (i : Instr) (s : State) : State :=
  match exec i s with
  | .next t => t
  | _ => s

/-- The granule lies in a range that is marked, and takes no mark of its own. -/
theorem error_in_marked_granule : (afterEvent (.uncorrectableError vaultError) markedPackage).poison = [wideMark] := by decide +kernel

/-- Refutes O53: its fifth clause has every uncorrectable error in a byte leave the mark of that byte's own granule. `markGranule` adds none
where a mark of more bytes covers the granule already, and the clause does not bound the marks of its state. -/
theorem not_eventsOfThePackage : ¬ Obligations.EventsOfThePackage := by
  unfold Obligations.EventsOfThePackage
  rintro ⟨-, -, -, -, hgranule, -⟩
  obtain ⟨t, hexec, -, hmarked⟩ := hgranule markedPackage vaultError vaultKey (by decide) (by decide) rfl
  have hpoison : t.poison = [wideMark] := by
    rw [← error_in_marked_granule, afterEvent, hexec]
  rw [hpoison] at hmarked
  exact absurd hmarked (by decide)

end Sys2Proof.PackageEvents
end

section
/-! PROOFS. Events of contexts and pages: slices, exchanges, rotation, creation and end, the driver's replies, migration and shootdown
(R256, R264 to R267, R304 to R313, R336, R356). -/

namespace Sys2Proof.ContextEvents

open Sys2Proof Machine Laws MemoryForm Atomics

/-- What an event does to a warp that its context holds. -/
theorem onWarp_found {s : State} {c u : Nat} {x : Context} {w : Warp} (hctx : s.ctx? c = some x) (hwarp : x.warp? u = some w)
    (f : Context → Warp → State) : s.onWarp c u f = f x w := by
  simp only [State.onWarp, hctx, hwarp]

/-! ### Slices and the signal -/

section
variable {s : State} {c : Nat} {x : Context} (hctx : s.ctx? c = some x)
include hctx

/-- A slice that is over drains a context with a resident block (R308). -/
theorem slice_drains (hrunning : x.state = .running) (hover : x.sliceLeft = 0) (hblocks : x.blocks ≠ []) :
    exec (.sliceExpire c) s = .next (s.setCtx { x with
      state := CtxState.draining, signalAt := some (s.cycle + pewterCycles (1 < x.p.dies.length)), forceAt := none
      unsignalled := (x.warps.filter (fun w => !x.isOut w.blk)).map (fun w => w.uid) }) := by
  have hresident : x.blocks.isEmpty = false := List.isEmpty_eq_false_iff.mpr hblocks
  show execSliceExpire c s = _
  simp only [execSliceExpire, hctx, hrunning, hover, hresident, ne_eq, not_true_eq_false, decide_false, Bool.or_self, Bool.false_eq_true,
    if_false]

/-- Without a resident block a new slice begins (R308). -/
theorem slice_renewed (hrunning : x.state = .running) (hover : x.sliceLeft = 0) (hblocks : x.blocks = []) :
    exec (.sliceExpire c) s = .next (s.setCtx { x with sliceLeft := x.newSlice }) := by
  show execSliceExpire c s = _
  simp only [execSliceExpire, hctx, hrunning, hover, hblocks, ne_eq, not_true_eq_false, decide_false, Bool.or_self, Bool.false_eq_true,
    if_false, List.isEmpty_nil, if_true]

end

section
variable {s : State} {c u : Nat} {x : Context} {w : Warp} (hctx : s.ctx? c = some x) (hwarp : x.warp? u = some w)
include hctx hwarp

/-- The signal reaches a warp of a draining context once its cycle has come, unless an AMOVV is read out, which `hreading`
excludes (R207, R308, R309). -/
theorem signal_arrives {t : Nat} (hdraining : x.state = .draining) (hsignal : x.signalAt = some t) (hdue : t ≤ s.cycle)
    (hlisted : w.uid ∈ x.unsignalled) (hgoing : w.halted = false)
    (hreading : ∀ d h k fw r0 c0 m id, w.park ≠ some (.readout d h k fw r0 c0 m id)) :
    exec (.preemptSignal c u) s =
      .next (s.setCtx ({ x with unsignalled := x.unsignalled.filter (fun u => u ≠ w.uid) }.setWarp (w.takePreempt x.vector))) := by
  show execPreemptSignal c u s = _
  rw [execPreemptSignal, onWarp_found hctx hwarp]
  refine congrArg Host.Outcome.next (if_neg ?_)
  simp only [hdraining, hsignal, hdue, hgoing, List.contains_iff_mem.mpr hlisted, ne_eq, not_true_eq_false, decide_false, decide_true,
    Bool.not_true, Bool.or_self]
  exact Bool.false_ne_true

/-- The signal waits while an AMOVV of the warp is read out (R207, R308). -/
theorem signal_waits {d : BitVec 8} {h k : Nat} {fw : Word} {r0 c0 : Nat} {m : Mask} {id : Nat}
    (hpark : w.park = some (.readout d h k fw r0 c0 m id)) : exec (.preemptSignal c u) s = .next s := by
  show execPreemptSignal c u s = _
  simp only [execPreemptSignal, onWarp_found hctx hwarp, hpark, Bool.or_true, if_true]

/-- A warp that has not executed PDONE in time is halted (R311). -/
theorem stop_forced {t : Nat} (hdraining : x.state = .draining) (hforce : x.forceAt = some t) (hdue : t ≤ s.wall)
    (hgoing : w.halted = false) : exec (.forcedStop c u) s = .next (s.setCtx (x.setWarp { w with halted := true })) := by
  show execForcedStop c u s = _
  simp only [execForcedStop, onWarp_found hctx hwarp, hdraining, hforce, hdue, hgoing, decide_true, Bool.not_false, Bool.and_self, if_true]

end

/-! ### Exchange -/

/-- A context as an exchange leaves it on its way out (R306, R312). -/
def standingBy (x : Context) : Context := { x with state := .standby, signalAt := none, forceAt := none, unsignalled := [] }

/-- No launch of a warp's number is ending (R312). -/
def goesOn (x : Context) (w : Warp) : Bool :=
  match x.launch? w.q with
  | some l => l.ended.isNone
  | none => true

/-- A warp as it resumes: it runs again unless its launch is ending, its translated code under the generations of now (R104, R312). -/
def resumedWarp (s : State) (c : Nat) (x : Context) (w : Warp) : Warp := (if goesOn x w then { w with halted := false } else w).remap s c

/-- A context as it resumes (R307, R312, R313). -/
def resumed (s : State) (c : Nat) (x : Context) : Context :=
  { x with
    state := .running, signalAt := none, forceAt := none, unsignalled := [], sliceLeft := x.newSlice
    warps := x.warps.map (resumedWarp s c x) }

theorem goesOn_of_live {x : Context} {w : Warp} (h : (x.launch? w.q).all (fun l => l.ended.isNone) = true) : goesOn x w = true := by
  unfold goesOn
  cases hlaunch : x.launch? w.q with
  | none => rfl
  | some l => simpa only [hlaunch, Option.all_some] using h

theorem resumedWarp_q (s : State) (c : Nat) (x : Context) (w : Warp) : (resumedWarp s c x w).q = w.q := by
  unfold resumedWarp
  split <;> rfl

theorem resumedWarp_halted {s : State} {c : Nat} {x : Context} {w : Warp} (h : goesOn x w = true) :
    (resumedWarp s c x w).halted = false := by
  rw [resumedWarp, if_pos h]
  rfl

/-- Resuming changes of a warp only whether it is halted and its generations. -/
theorem resumedWarp_rest (s : State) (c : Nat) (x : Context) (w : Warp) :
    { resumedWarp s c x w with gens := [], halted := false } = { w with gens := [], halted := false } := by
  unfold resumedWarp
  split <;> rfl

theorem resumeContext_found {s : State} {c : Nat} {x : Context} (hctx : s.ctx? c = some x) : resumeContext s c =
    ({ s with copies := s.copies.filter (fun y => !y.at_.inPart (resumed s c x)) } : State).setCtx (resumed s c x) := by
  unfold resumeContext
  rw [hctx]
  rfl

theorem resumeContext_ctx? {s : State} {c : Nat} {x : Context} (hctx : s.ctx? c = some x) :
    (resumeContext s c).ctx? c = some (resumed s c x) := by
  rw [resumeContext_found hctx]
  exact ctx?_setCtx_of_ctxs hctx rfl rfl

/-- Another context is as it was when one resumes. -/
theorem resumeContext_ctx?_other {s : State} {c d : Nat} {x : Context} (hctx : s.ctx? c = some x) (hd : d ≠ c) :
    (resumeContext s c).ctx? d = s.ctx? d := by
  have hid : d ≠ (resumed s c x).id := fun h => hd (h.trans (show x.id = c from id_of_ctx? hctx))
  rw [resumeContext_found hctx]
  exact ctx?_setCtx_other _ _ _ hid

/-- The peers of a context do not depend on how it stands itself. -/
theorem peers_setCtx (s : State) {x y : Context} (hid : y.id = x.id) : (s.setCtx y).peers x = s.peers x := by
  unfold State.peers State.setCtx
  dsimp only
  induction s.ctxs with
  | nil => rfl
  | cons z zs ih =>
    by_cases hz : z.id = x.id
    · simp only [List.map_cons, List.filter_cons, hid, hz, if_true, ne_eq, not_true_eq_false, decide_false, Bool.false_and,
        Bool.false_eq_true, if_false]
      simpa only [hid, ne_eq] using ih
    · simp only [List.map_cons, List.filter_cons, hid, hz, if_false]
      simp only [hid] at ih
      rw [ih]

theorem successor_setCtx (s : State) {x y : Context} (hid : y.id = x.id) : (s.setCtx y).successor x = s.successor x := by
  rw [State.successor, peers_setCtx s hid, State.successor]

theorem successor_id {s : State} {x y : Context} (h : s.successor x = some y) : y.id ≠ x.id := by
  have hpeer := (List.mem_filter.mp (List.mem_of_find?_eq_some h)).2
  simp only [Bool.and_eq_true, decide_eq_true_eq] at hpeer
  exact hpeer.1

/-- Without accesses in flight and results owed nothing is left to settle. -/
theorem settleWarps_quiet {s : State} {c : Nat} {x : Context} (hctx : s.ctx? c = some x) (haccesses : x.accesses = [])
    (howed : x.owed = []) : settleWarps s c = s := by
  simp only [settleWarps, hctx, haccesses, howed, List.map_nil, List.foldl_nil]

section
variable {s : State} {c : Nat} {x : Context} (hctx : s.ctx? c = some x)
include hctx

/-- A running context that is idle gives way to one that has work (R306). -/
theorem idle_gives_way {y : Context} (hrunning : x.state = .running) (hidle : x.idle = true) (hnext : s.successor x = some y) :
    exec (.contextIdleExchange c) s = .next (s.setCtx { x with state := .exchanging }) := by
  have hready : (decide (x.state = .running) && x.idle && (s.successor x).isSome) = true := by
    rw [hrunning, hidle, hnext]
    rfl
  show execContextIdleExchange c s = _
  simp only [execContextIdleExchange, hctx, hready, if_true]

/-- A standby context with work runs where nothing holds its partitions (R306). -/
theorem standby_runs (hstandby : x.state = .standby) (hwork : x.hasWork = true) (hfree : ∀ y ∈ s.peers x, y.holds = false) :
    exec (.contextExchange c) s = .next (resumeContext s c) := by
  have hnone : (s.peers x).any Context.holds = false := List.any_eq_false.mpr fun y hy => ne_true_of_eq_false (hfree y hy)
  show execContextExchange c s = _
  simp only [execContextExchange, hctx, hstandby, hwork, hnone, Bool.not_false, Bool.and_self, if_true]

variable (hleaving : x.state = .draining ∨ x.state = .exchanging)
include hleaving

omit hctx in
/-- A context that is leaving has not left, and an exchange takes it. -/
theorem leaving_state : x.state ≠ .standby ∧ (decide (x.state = .exchanging) || decide (x.state = .draining)) = true := by
  obtain h | h := hleaving <;> rw [h] <;> decide

/-- A context that has not stopped is not exchanged (R312). -/
theorem exchange_waits (hstopped : x.stopped = false) : exec (.contextExchange c) s = .next s := by
  show execContextExchange c s = _
  simp only [execContextExchange, hctx, (leaving_state hleaving).1, hstopped, Bool.not_false, Bool.true_or, if_false, if_true]

/-- A context that has stopped, with nothing left to settle, stands by, and its successor resumes, or itself where there is none (R312,
R313). -/
theorem exchange_resumes (hstopped : x.stopped = true) (haccesses : x.accesses = []) (howed : x.owed = []) :
    exec (.contextExchange c) s = .next (resumeContext (s.setCtx (standingBy x)) ((s.successor x).elim c Context.id)) := by
  obtain ⟨hnot, hleaves⟩ := leaving_state hleaving
  have hsettled : (!x.accesses.isEmpty || !x.owed.isEmpty) = false := by
    rw [haccesses, howed]
    rfl
  have hsame : (s.setCtx { x with state := .standby, signalAt := none, forceAt := none, unsignalled := [] }).successor x = s.successor x :=
    successor_setCtx s rfl
  show execContextExchange c s = _
  simp only [execContextExchange, hctx, hnot, hstopped, hleaves, settleWarps_quiet hctx haccesses howed, hsettled, hsame, if_false,
    Bool.not_true, Bool.or_self, Bool.false_eq_true]
  cases s.successor x <;> rfl

end

/-- An exchange changes the outgoing context and its successor, and no other and no byte of memory (R306, R312, R313). -/
theorem exchange_changes {s : State} {c : Nat} {x y : Context} (hctx : s.ctx? c = some x)
    (hleaving : x.state = .draining ∨ x.state = .exchanging) (hstopped : x.stopped = true) (haccesses : x.accesses = [])
    (howed : x.owed = []) (hnext : s.successor x = some y) (hfound : s.ctx? y.id = some y) :
    ∃ t z, exec (.contextExchange c) s = .next t ∧ t.mem = s.mem ∧ y.id ≠ c ∧
      t.ctx? c = some (standingBy x) ∧ t.ctx? y.id = some z ∧
      z = { y with state := .running, signalAt := none, forceAt := none, unsignalled := [], sliceLeft := y.newSlice, warps := z.warps } ∧
      z.warps.map (fun w => { w with gens := [], halted := false }) = y.warps.map (fun w => { w with gens := [], halted := false }) ∧
      (∀ w ∈ z.warps, (y.launch? w.q).all (fun l => l.ended.isNone) = true → w.halted = false) ∧
      ∀ d, d ≠ c → d ≠ y.id → t.ctx? d = s.ctx? d := by
  have hother : y.id ≠ c := id_of_ctx? hctx ▸ successor_id hnext
  have hout : (s.setCtx (standingBy x)).ctx? c = some (standingBy x) := ctx?_setCtx_of_ctxs hctx rfl rfl
  have hkept : ∀ d, d ≠ c → (s.setCtx (standingBy x)).ctx? d = s.ctx? d := fun d hd =>
    ctx?_setCtx_other _ _ _ (id_of_ctx? hctx ▸ hd)
  have hin : (s.setCtx (standingBy x)).ctx? y.id = some y := (hkept y.id hother).trans hfound
  have hexec := exchange_resumes hctx hleaving hstopped haccesses howed
  rw [hnext] at hexec
  refine ⟨_, resumed (s.setCtx (standingBy x)) y.id y, hexec, resumeContext_mem _ _, hother,
    (resumeContext_ctx?_other hin (Ne.symm hother)).trans hout, resumeContext_ctx? hin, rfl, ?_, fun w hw hlive => ?_,
    fun d hd hdy => (resumeContext_ctx?_other hin hdy).trans (hkept d hd)⟩
  · simp only [resumed, List.map_map]
    exact List.map_congr_left fun w _ => resumedWarp_rest _ _ _ w
  · obtain ⟨v, -, rfl⟩ := List.mem_map.mp hw
    rw [resumedWarp_q] at hlive
    exact resumedWarp_halted (goesOn_of_live hlive)

/-! ### Creation, rotation and end -/

/-- A context that is created is the last of the package, and nothing of it has run (R38, R304). -/
theorem create_adds {s : State} {p : CtxParams} (hok : paramsOk p = true) (hfit : paramsFit p s = true) :
    ∃ st objects, s.create p = { s with
      nextCtx := s.nextCtx + 1
      ctxs := s.ctxs ++ [{ newContext s p .inHbm with state := st, sliceLeft := (newContext s p .inHbm).newSlice }]
      objects := objects } := by
  have hadmitted : (!paramsOk p || !paramsFit p s) = false := by
    rw [hok, hfit]
    rfl
  unfold State.create
  rw [if_neg (ne_true_of_eq_false hadmitted)]
  exact ⟨_, _, rfl⟩

theorem create_refused {s : State} {p : CtxParams} (hbad : paramsOk p = false) : exec (.contextCreate p) s = .next s := by
  show Host.Outcome.next (s.create p) = _
  simp only [State.create, hbad, Bool.not_false, Bool.true_or, if_true]

section
variable {s : State} {c : Nat} {x : Context} (hctx : s.ctx? c = some x)
include hctx

theorem rotation_in (hwaits : x.state = .inHbm) (hnone : ∀ y ∈ s.peers x, y.state ≠ .standby) (hways : waysFit x (s.peers x) = true) :
    exec (.tenantRotation c true) s = .next (s.setCtx { x with state := .standby }) := by
  have hfree : (s.peers x).any (fun y => y.state = .standby) = false :=
    List.any_eq_false.mpr fun y hy => by simpa only [decide_eq_true_eq] using hnone y hy
  have hopen : (decide (x.state = .inHbm) && !(s.peers x).any (fun y => y.state = .standby) && waysFit x (s.peers x)) = true := by
    rw [hwaits, hfree, hways]
    rfl
  show execTenantRotation c true s = _
  simp only [execTenantRotation, hctx, hopen, if_true]

theorem rotation_out (hstandby : x.state = .standby) : exec (.tenantRotation c false) s = .next (s.setCtx { x with state := .inHbm }) := by
  show execTenantRotation c false s = _
  simp only [execTenantRotation, hctx, Bool.false_eq_true, if_false]
  rw [if_pos hstandby]

end

/-- The contexts of a package and its signed objects. -/
def tenants (s : State) : List Context × List CodeObject := (s.ctxs, s.objects)

theorem foldl_tenants {α : Type} {f : State → α → State} (hf : ∀ s a, tenants (f s a) = tenants s) (l : List α) (s : State) :
    tenants (l.foldl f s) = tenants s :=
  List.foldlRecOn (motive := fun t => tenants t = tenants s) l f rfl (fun t ht a _ => (hf t a).trans ht)

theorem returnSlots_tenants (s : State) (die src n : Nat) : tenants (s.returnSlots die src n) = tenants s := rfl

theorem settleQueue_tenants (s : State) (die rxid : Nat) : tenants (s.settleQueue die rxid) = tenants s :=
  foldl_tenants (fun t h => by split <;> rfl) _ s

theorem dropReceive_tenants (s : State) (r : Receive) : tenants (s.dropReceive r) = tenants s := by
  unfold State.dropReceive
  rw [settleQueue_tenants, foldl_tenants (fun (t : State) (h : Held) => returnSlots_tenants t h.die h.msg.srcPkg h.inSlots)]
  rfl

theorem dropReceives_tenants (s : State) (p : Receive → Bool) : tenants (s.dropReceives p) = tenants s :=
  foldl_tenants dropReceive_tenants _ s

theorem dropHeld_tenants (s : State) (rxid : Nat) (dies : List Nat) : tenants (s.dropHeld rxid dies) = tenants s := by
  unfold State.dropHeld
  rw [foldl_tenants (fun _ _ => returnSlots_tenants _ _ _ _)]
  rfl

/-- A context without work ends, and its vaults and signed objects go with it (R256, R328). -/
theorem context_ends {s : State} {c : Nat} {x : Context} (hctx : s.ctx? c = some x) (hidle : x.hasWork = false) :
    ∃ t, exec (.contextEnd c) s = .next t ∧ t.ctxs = s.ctxs.filter (fun y => y.id ≠ c) ∧
      t.mem = s.mem.filter (fun q => !keyOfCtx c q.1) ∧ t.objects = s.objects.filter (fun o => o.ctx ≠ c) := by
  have hkept : tenants ((s.dropReceives (fun r => r.ctx = c)).dropHeld x.p.rxid x.p.dies) = tenants s :=
    (dropHeld_tenants _ _ _).trans (dropReceives_tenants _ _)
  obtain ⟨hctxs, hobjects⟩ := Prod.mk.inj hkept
  have hexec : exec (.contextEnd c) s = execContextEnd c s := rfl
  simp only [execContextEnd, hctx, hidle, Bool.false_eq_true, if_false] at hexec
  refine ⟨_, hexec, ?_, ?_, ?_⟩
  · simp only [hctxs]
  · simp only [dropHeld_mem, dropReceives_mem]
  · simp only [hobjects]

/-! ### The driver's replies (R260, R265, R267; log entries 23 and 34) -/

section
variable {s : State} {c u : Nat} {x : Context} {w : Warp} (hctx : s.ctx? c = some x) (hwarp : x.warp? u = some w)
include hctx hwarp

/-- The driver maps pages, and may raise HW in its reply to a growth (R260). -/
theorem pages_mapped {va : Nat} {priv : Bool} {ptes : List (Nat × Word)} (hw : Option Nat) (hpark : w.park = some (.driver va priv))
    (hready : s.ptesReady ptes = true) : exec (.demandPaging c u (.mapped ptes hw)) s =
      .next ((s.writePtes ptes).setCtx ({ x with hw := hw.elim x.hw (fun n =>
        if priv then min (2 ^ x.p.wsz) (max x.hw (n / 65536 * 65536)) else x.hw) }.setWarp { w with park := none })) := by
  show execDemandPaging c u (.mapped ptes hw) s = _
  simp only [execDemandPaging, onWarp_found hctx hwarp, State.replyReady, hready, hpark, Bool.not_true, Bool.false_eq_true, if_false]
  cases hw <;> rfl

/-- The driver refuses a page, which its warp remembers (log entry 23). -/
theorem page_refused {va : Nat} (hpark : w.park = some (.driver va false)) : exec (.demandPaging c u .refused) s =
    .next (s.setCtx (x.setWarp { w with park := none, refused := va / 2 ^ 16 :: w.refused })) := by
  show execDemandPaging c u .refused s = _
  simp only [execDemandPaging, onWarp_found hctx hwarp, State.replyReady, hpark, Bool.not_true, Bool.false_eq_true, if_false,
    Bool.false_and, Bool.or_false]

/-- A warp whose next instruction lies on a missing page takes its block out (R267). -/
theorem block_swaps_out {e : Entry} {b : Block} (hentry : selectEntry x.prog (w.opened x.prog) = some e) (hblock : x.block? w.blk = some b)
    (hruns : x.runs w = true) (hpark : w.park = none) (hmissing : (fetch s x w e).2 = .missing) :
    exec (.fetchFaultSwap c u) s = .next (swapOut s c b w.uid) := by
  show execFetchFaultSwap c u s = _
  simp only [execFetchFaultSwap, onWarp_found hctx hwarp, hentry, hblock, hruns, hpark, hmissing, decide_true, Bool.and_self, if_true]

end

section
variable {s : State} {c blk u : Nat} {x : Context} {b : Block} (hctx : s.ctx? c = some x) (hblock : x.block? blk = some b)
  (hout : b.swapped = some u) (hrunning : x.state = .running) (hroom : x.canReturn b = true)

/-- A block's scratchpad back in its place, with its cards (R267). -/
def broughtBack (s : State) (c : Nat) (x : Context) (b : Block) : State :=
  moveBytes (s.setCtx ((x.setBlock { b with swapped := none }).rehome b.id b.spBase)) c (b.saveKey x) (b.sram x).1 b.spSize

include hrunning hroom in
theorem return_open {r : DriverReply} (hready : s.replyReady r = true) :
    (decide (x.state ≠ .running) || !x.canReturn b || !s.replyReady r) = false := by
  rw [hrunning, hroom, hready]
  rfl

include hctx hblock hout hrunning hroom

/-- A swapped block returns with the pages that the driver maps (R267). -/
theorem block_returns {ptes : List (Nat × Word)} (hw : Option Nat) (hready : s.ptesReady ptes = true) :
    exec (.blockSwapIn c blk (.mapped ptes hw)) s = .next ((broughtBack s c x b).writePtes ptes) := by
  have hopen := return_open hrunning hroom (r := .mapped ptes hw) hready
  show execBlockSwapIn c blk (.mapped ptes hw) s = _
  simp only [execBlockSwapIn, hctx, hblock, hout, hopen, Bool.false_eq_true, if_false]
  rfl

/-- Where the driver refuses the page, the block returns and its entry traps (R267). -/
theorem block_returns_refused :
    exec (.blockSwapIn c blk .refused) s = .next (fetchTrap (broughtBack s c x b) c u .pageFault [] []) := by
  have hopen := return_open hrunning hroom (r := .refused) (s := s) rfl
  show execBlockSwapIn c blk .refused s = _
  simp only [execBlockSwapIn, hctx, hblock, hout, hopen, Bool.false_eq_true, if_false]
  rfl

end

/-! ### Migration and shootdown (R264, R266, R336; log entries 37 and 38) -/

/-- A counter is that of the page, of n bytes, that an address lies on. -/
def counts (die c e n va : Nat) (m : MigCount) : Bool := m.die = die && m.ctx = (if e.testBit 3 then none else some c) && m.va / n = va / n

/-- Where the page of an address begins at its home. -/
def pageHome (s : State) (e level va : Nat) : Nat := leafKey s e level (va / 2 ^ pageBits level * 2 ^ pageBits level)

/-- The leaf of a page that has moved to local memory. -/
def movedLeaf (e pfn : Nat) : Nat := spliceBits (spliceBits (spliceBits (spliceBits e 58 2 0) 55 3 0) 47 8 0xFF) 12 35 pfn

/-- The package after a migration: the page's bytes are in local memory, where its leaf has them, and no translation and no copy of what was
there is left. -/
def movedPage (s : State) (c va pfn e level at_ : Nat) : State :=
  let t := (copyBytes s (pageHome s e level va) (keyHbm (pfn * 2 ^ 16)) (2 ^ pageBits level)).dropTranslation c va
  { t with
    mem := writeBytes t.mem (keyHbm at_) 8 (movedLeaf e pfn)
    copies := t.copies.filter (fun y =>
      !(keyHbm (pfn * 2 ^ 16) ≤ y.line * 128 && y.line * 128 < keyHbm (pfn * 2 ^ 16) + 2 ^ pageBits level))
    migs := t.migs.filter (fun m =>
      !(m.ctx = (if e.testBit 3 then none else some c) && m.va / 2 ^ pageBits level = va / 2 ^ pageBits level)) }

/-- The package after a migration that met errors in its page: they are recorded, the driver is told, and the count starts again. -/
def badPage (s : State) (die c va e level : Nat) (bad : List Nat) : State :=
  { s.recordKeys 0x02 bad with
    driverLog := s.driverLog ++ [BitVec.ofNat 64 va]
    migs := (s.recordKeys 0x02 bad).migs.filter (fun m => !counts die c e (2 ^ pageBits level) va m) }

/-- A MODE 11 page whose count has reached its threshold, that no access is left on, and for which the driver has named a place in local
memory. -/
structure Migrates (s : State) (die c va pfn : Nat) (x : Context) (e level at_ : Nat) : Prop where
  found : s.ctx? c = some x
  leaf : walkFrom s va 5 x.p.root = .leaf e level (some at_)
  mode : natBits e 59 58 = 3
  quiet : s.touched (pageHome s e level va) (2 ^ pageBits level) = false
  counted : 2 ^ (4 + natBits e 57 55) ≤ (s.migs.filter (counts die c e (2 ^ pageBits level) va)).foldl (fun k m => k + m.count) 0
  reachable : s.reachable (pageHome s e level va) = true
  aligned : pfn * 2 ^ 16 % 2 ^ pageBits level = 0
  fits : pfn * 2 ^ 16 + 2 ^ pageBits level ≤ Config.hbmBytes

section
variable {s : State} {die c va pfn : Nat} {x : Context} {e level at_ : Nat} (h : Migrates s die c va pfn x e level at_)
include h

/-- Once a migration is due, only the errors of its page and the stacks that take it decide what it does. -/
theorem Migrates.exec_eq : exec (.pageMigration die c va pfn true) s = .next (
    if s.badGranules (pageHome s e level va) (2 ^ pageBits level) ≠ [] then
      badPage s die c va e level (s.badGranules (pageHome s e level va) (2 ^ pageBits level))
    else if !s.rangeReady (pfn * 2 ^ 16) (2 ^ pageBits level) then s else movedPage s c va pfn e level at_) := by
  have hdue : (decide (natBits e 59 58 ≠ 3) ||
      decide ((s.migs.filter (counts die c e (2 ^ pageBits level) va)).foldl (fun k m => k + m.count) 0 < 2 ^ (4 + natBits e 57 55)) ||
      s.touched (pageHome s e level va) (2 ^ pageBits level)) = false := by
    rw [decide_eq_false (not_not_intro h.mode), decide_eq_false (Nat.not_lt.mpr h.counted), h.quiet]
    rfl
  have hplace : (!true || !s.reachable (pageHome s e level va) || decide (pfn * 2 ^ 16 % 2 ^ pageBits level ≠ 0) ||
      decide (Config.hbmBytes < pfn * 2 ^ 16 + 2 ^ pageBits level)) = false := by
    rw [h.reachable, decide_eq_false (not_not_intro h.aligned), decide_eq_false (Nat.not_lt.mpr h.fits)]
    rfl
  have hopen : exec (.pageMigration die c va pfn true) s = execPageMigration die c va pfn true s := rfl
  simp only [execPageMigration, h.found, h.leaf] at hopen
  rw [hopen]
  refine congrArg Host.Outcome.next ?_
  refine (if_neg (ne_true_of_eq_false hdue)).trans ((if_neg (ne_true_of_eq_false hplace)).trans ?_)
  rfl

/-- A page without an error moves once the stacks that take it are ready (R264, R336, R356). -/
theorem Migrates.moves (hgood : s.badGranules (pageHome s e level va) (2 ^ pageBits level) = [])
    (hready : s.rangeReady (pfn * 2 ^ 16) (2 ^ pageBits level) = true) :
    exec (.pageMigration die c va pfn true) s = .next (movedPage s c va pfn e level at_) := by
  rw [h.exec_eq, if_neg (not_not_intro hgood), hready]
  rfl

/-- A page with an error stays, and its count starts again (R349; log entry 38). -/
theorem Migrates.starts_again (hbad : s.badGranules (pageHome s e level va) (2 ^ pageBits level) ≠ []) :
    exec (.pageMigration die c va pfn true) s =
      .next (badPage s die c va e level (s.badGranules (pageHome s e level va) (2 ^ pageBits level))) := by
  rw [h.exec_eq, if_pos hbad]

end

theorem record_tlb (s : State) (src loc : Word) : (s.record src loc).tlb = s.tlb := by
  unfold State.record
  split <;> rfl

theorem recordKeys_tlb (s : State) (typ : BitVec 8) (keys : List Nat) : (s.recordKeys typ keys).tlb = s.tlb :=
  List.foldlRecOn (motive := fun (t : State) => t.tlb = s.tlb) keys _ rfl (fun _ ht _ _ => (record_tlb _ _ _).trans ht)

theorem badPage_tlb (s : State) (die c va e level : Nat) (bad : List Nat) : (badPage s die c va e level bad).tlb = s.tlb :=
  recordKeys_tlb s 0x02 bad

theorem badPage_mem (s : State) (die c va e level : Nat) (bad : List Nat) : (badPage s die c va e level bad).mem = s.mem :=
  recordKeys_mem s 0x02 bad

/-- No counter of the page is left where its count starts again. -/
theorem badPage_uncounted {s : State} {die c va e level : Nat} {bad : List Nat} {m : MigCount}
    (hm : m ∈ (badPage s die c va e level bad).migs) (hdie : m.die = die) (hctx : m.ctx = if e.testBit 3 then none else some c) :
    m.va / 2 ^ pageBits level ≠ va / 2 ^ pageBits level := by
  have hother := (List.mem_filter.mp hm).2
  intro hpage
  simp only [counts, hdie, hctx, hpage, decide_true, Bool.and_self, Bool.not_true, Bool.false_eq_true] at hother

/-- A shootdown drops the translations of an address once no access is left on its page (R266; log entry 37). -/
theorem shootdown_drops {s : State} {va : Nat} (c : Nat) (hquiet : s.pageInUse va = false) :
    exec (.tlbShootdown c va) s = .next (s.dropTranslation c va) := by
  show execTlbShootdown c va s = _
  simp only [execTlbShootdown, hquiet, Bool.false_eq_true, if_false]

theorem shootdown_waits {s : State} {va : Nat} (c : Nat) (hbusy : s.pageInUse va = true) : exec (.tlbShootdown c va) s = .next s := by
  show execTlbShootdown c va s = _
  simp only [execTlbShootdown, hbusy, if_true]

/-- Settles O52: each event has its effect once its guards hold; an exchange, a creation, an end and a migration change what
`exchange_changes`, `create_adds`, `context_ends` and `Migrates.exec_eq` say. -/
theorem eventsOfContextsAndPages : Obligations.EventsOfContextsAndPages := by
  unfold Obligations.EventsOfContextsAndPages
  refine ⟨?drains, ?renewed, ?signal, ?signalWaits, ?forced, ?idle, ?standbyRuns, ?exchanged, ?alone, ?exchangeChanges, ?exchangeWaits,
    ?resumes, ?created, ?notCreated, ?rotatesIn, ?rotatesOut, ?ends, ?mapped, ?mappedGrown, ?refused, ?swapsOut, ?swapsIn, ?swapsInRefused,
    ?moves, ?startsAgain, ?shootdown, ?shootdownWaits⟩
  case drains =>
    rintro c s x hctx ⟨hrunning, hover, hblocks⟩
    exact slice_drains hctx hrunning hover hblocks
  case renewed =>
    rintro c s x hctx ⟨hrunning, hover, hblocks⟩
    exact slice_renewed hctx hrunning hover hblocks
  case signal =>
    rintro c u t s x w hctx hwarp ⟨hdraining, hsignal, hdue, hlisted, hgoing, hreading⟩
    exact signal_arrives hctx hwarp hdraining hsignal hdue hlisted hgoing hreading
  case signalWaits => exact fun c u d h k fw r0 c0 m id s x w hctx hwarp hpark => signal_waits hctx hwarp hpark
  case forced =>
    rintro c u t s x w hctx hwarp ⟨hdraining, hforce, hdue, hgoing⟩
    exact stop_forced hctx hwarp hdraining hforce hdue hgoing
  case idle =>
    rintro c y s x hctx ⟨hrunning, hidle, hnext⟩
    exact idle_gives_way hctx hrunning hidle hnext
  case standbyRuns =>
    rintro c s x hctx ⟨hstandby, hwork, hfree⟩
    exact standby_runs hctx hstandby hwork hfree
  case exchanged =>
    rintro c y s x hctx ⟨hleaving, hstopped, haccesses, howed, hnext⟩
    have hexec := exchange_resumes hctx hleaving hstopped haccesses howed
    rwa [hnext] at hexec
  case alone =>
    rintro c s x hctx ⟨hleaving, hstopped, haccesses, howed, hnext⟩
    have hexec := exchange_resumes hctx hleaving hstopped haccesses howed
    rwa [hnext] at hexec
  case exchangeChanges => exact fun s c x y => exchange_changes
  case exchangeWaits =>
    rintro c s x hctx ⟨hleaving, hstopped⟩
    exact exchange_waits hctx hleaving hstopped
  case resumes => exact fun s c x hctx => ⟨resumed s c x, resumeContext_ctx? hctx, rfl, rfl, rfl, rfl⟩
  case created =>
    intro s p hok hfit
    obtain ⟨st, objects, hcreate⟩ := create_adds hok hfit
    refine ⟨s.create p, { newContext s p .inHbm with state := st, sliceLeft := (newContext s p .inHbm).newSlice }, rfl, ?_⟩
    rw [hcreate]
    exact ⟨rfl, rfl, rfl, rfl, rfl, rfl, rfl, rfl, rfl, rfl, rfl, rfl, rfl⟩
  case notCreated => exact fun s p => create_refused
  case rotatesIn =>
    rintro c s x hctx ⟨hwaits, hnone, hways⟩
    exact rotation_in hctx hwaits hnone hways
  case rotatesOut => exact fun c s x => rotation_out
  case ends => exact fun s c x => context_ends
  case mapped =>
    rintro c u va priv ptes s x w hctx hwarp ⟨hpark, hready⟩
    exact pages_mapped hctx hwarp none hpark hready
  case mappedGrown =>
    rintro c u va priv ptes n s x w hctx hwarp ⟨hpark, hready⟩
    exact pages_mapped hctx hwarp (some n) hpark hready
  case refused => exact fun c u va s x w hctx hwarp => page_refused hctx hwarp
  case swapsOut =>
    rintro c u e b s x w hctx hwarp ⟨hentry, hblock, hruns, hpark, hmissing⟩
    exact block_swaps_out hctx hwarp hentry hblock hruns hpark hmissing
  case swapsIn =>
    rintro c blk b u ptes hw s x hctx ⟨hblock, hout, hrunning, hroom, hready⟩
    exact block_returns hctx hblock hout hrunning hroom hw hready
  case swapsInRefused =>
    rintro c blk b u s x hctx ⟨hblock, hout, hrunning, hroom⟩
    exact block_returns_refused hctx hblock hout hrunning hroom
  case moves =>
    intro s die c va pfn x e level at_ hctx hleaf hmode hquiet hcounted hreach haligned hfits hgood hready
    have hdue : Migrates s die c va pfn x e level at_ := ⟨hctx, hleaf, hmode, hquiet, hcounted, hreach, haligned, hfits⟩
    exact ⟨_, hdue.moves hgood hready, rfl, rfl, rfl⟩
  case startsAgain =>
    intro s die c va pfn x e level at_ hctx hleaf hmode hquiet hcounted hreach haligned hfits hbad
    have hdue : Migrates s die c va pfn x e level at_ := ⟨hctx, hleaf, hmode, hquiet, hcounted, hreach, haligned, hfits⟩
    exact ⟨_, hdue.starts_again hbad, badPage_tlb _ _ _ _ _ _ _, badPage_mem _ _ _ _ _ _ _, rfl,
      fun m hm hdie hctx => badPage_uncounted hm hdie hctx⟩
  case shootdown => exact fun s c va => shootdown_drops c
  case shootdownWaits => exact fun s c va => shootdown_waits c

end Sys2Proof.ContextEvents
end

section
/-! PROOFS. The counters that outlive a reset (R352, R359, R360, R362), and what of the package leaves them as they are. -/

namespace Sys2Proof.CountersKept

open Sys2Proof Machine Laws

/-! ### The counters of a state -/

/-- FSV, the fuses that are blown, the goal of a rise, the one-time-key index and the journal's pointers. -/
structure Counts where
  fsv : Nat
  fuses : Nat
  goal : Nat
  index : Nat
  jwp : Nat
  jap : Nat

/-- The counters of a state. -/
def counts (s : State) : Counts := ⟨s.fsv, s.fuses, s.fsvGoal, s.sigIndex, s.jwp, s.jap⟩

/-- Of a state that is written out, whatever else it holds. -/
@[simp] theorem counts_mk (cycle wall mem poison copies tlb wcache migs ctxs nextCtx receives rxGen held actives firsts sending slotsUsed
    pod rdy dead nfeat fsv fuses fsvGoal loader fw capDone objects recBuf journal jwp jap jdrop chain seals sigIndex reports driverLog
    recovering reposts droops cur turn nextId freeCount oracle agenda : _) :
    counts ⟨cycle, wall, mem, poison, copies, tlb, wcache, migs, ctxs, nextCtx, receives, rxGen, held, actives, firsts, sending, slotsUsed,
      pod, rdy, dead, nfeat, fsv, fuses, fsvGoal, loader, fw, capDone, objects, recBuf, journal, jwp, jap, jdrop, chain, seals, sigIndex,
      reports, driverLog, recovering, reposts, droops, cur, turn, nextId, freeCount, oracle, agenda⟩ =
      ⟨fsv, fuses, fsvGoal, sigIndex, jwp, jap⟩ := (rfl)

@[simp] theorem counts_eta (s : State) : (⟨s.fsv, s.fuses, s.fsvGoal, s.sigIndex, s.jwp, s.jap⟩ : Counts) = counts s := (rfl)

@[simp] theorem counts_ite {c : Prop} {_ : Decidable c} (s t : State) :
    counts (if c then s else t) = if c then counts s else counts t :=
  apply_ite counts c s t

@[simp] theorem foldl_counts {α : Type} {f : State → α → State} (hf : ∀ s a, counts (f s a) = counts s) (l : List α) (s : State) :
    counts (l.foldl f s) = counts s :=
  List.foldlRecOn (motive := fun t => counts t = counts s) l f rfl (fun t ht a _ => (hf t a).trans ht)

/-! ### Updates that write other fields only

`(rfl)` and not `rfl`: `simp` then has a proof of its own for each, which it needs where one stands under a fold. -/

@[simp] theorem setCtx_counts (s : State) (x : Context) : counts (s.setCtx x) = counts s := (rfl)
@[simp] theorem updateCopies_counts (s : State) (core : Nat) (p : Piece) (v : Nat) : counts (s.updateCopies core p v) = counts s := (rfl)
@[simp] theorem acquire_counts (s : State) (core scope : Nat) : counts (s.acquire core scope) = counts s := (rfl)
@[simp] theorem acquireWith_counts (s : State) (x : Context) (core scope : Nat) : counts (s.acquireWith x core scope) = counts s := (rfl)
@[simp] theorem clearPoison_counts (s : State) (core : Nat) (ps : List Piece) : counts (s.clearPoison core ps) = counts s := (rfl)
@[simp] theorem clearWritten_counts (s : State) (die : Nat) (ps : List Piece) : counts (clearWritten s die ps) = counts s := (rfl)
@[simp] theorem takeSlots_counts (s : State) (die src n : Nat) : counts (s.takeSlots die src n) = counts s := (rfl)
@[simp] theorem returnSlots_counts (s : State) (die src n : Nat) : counts (s.returnSlots die src n) = counts s := (rfl)
@[simp] theorem tidySends_counts (s : State) : counts s.tidySends = counts s := (rfl)
@[simp] theorem putMsg_counts (s : State) (id : Nat) (m : Msg) : counts (s.putMsg id m) = counts s := (rfl)
@[simp] theorem metFirst_counts (s : State) (die : Nat) (m : Msg) : counts (s.metFirst die m) = counts s := (rfl)
@[simp] theorem poisonKeys_counts (s : State) (ks : List Nat) : counts (s.poisonKeys ks) = counts s := (rfl)
@[simp] theorem retire_counts (s : State) (r : Receive) : counts (s.retire r) = counts s := (rfl)
@[simp] theorem overwrite_counts (s : State) (x : Context) (slot : Nat) : counts (s.overwrite x slot) = counts s := (rfl)
@[simp] theorem mapObjects_counts (s : State) (c : Nat) (as : List Nat) (f : CodeObject → CodeObject) :
    counts (s.mapObjects c as f) = counts s := (rfl)
@[simp] theorem install_counts (s : State) (c : Nat) (as : List Nat) : counts (s.install c as) = counts s := (rfl)
@[simp] theorem revoke_counts (s : State) (c : Nat) (as : List Nat) : counts (s.revoke c as) = counts s := (rfl)
@[simp] theorem dropSides_counts (s : State) (c : Nat) : counts (s.dropSides c) = counts s := (rfl)
@[simp] theorem dropTranslation_counts (s : State) (c va : Nat) : counts (s.dropTranslation c va) = counts s := (rfl)
@[simp] theorem spoilCopy_counts (s : State) (at_ : CopyAt) (k : Nat) : counts (s.spoilCopy at_ k) = counts s := (rfl)
@[simp] theorem endJob_counts (s : State) (r : RecoveryPlan) : counts (s.endJob r) = counts s := (rfl)

@[simp] theorem onWarp_counts (s : State) (c u : Nat) {f : Context → Warp → State} (hf : ∀ x w, counts (f x w) = counts s) :
    counts (s.onWarp c u f) = counts s := by
  unfold State.onWarp
  split
  · rfl
  · split
    · rfl
    · exact hf _ _

/-! ### The journal and the driver -/

@[simp] theorem record_counts (s : State) (src loc : Word) : counts (s.record src loc) = counts s := by simp [State.record]

@[simp] theorem recordKeys_counts (s : State) (typ : BitVec 8) (keys : List Nat) : counts (s.recordKeys typ keys) = counts s := by
  simp [State.recordKeys]

@[simp] theorem noteTrap_counts (s : State) (t : TrapInfo) : counts (s.noteTrap t) = counts s := by simp [State.noteTrap]

@[simp] theorem tellDriver_counts (s : State) (a : Access) : counts (s.tellDriver a) = counts s := (rfl)

@[simp] theorem noteHit_counts (s : State) (a : Word) (h : Hit) : counts (s.noteHit a h) = counts s := by
  unfold State.noteHit
  split <;> simp

@[simp] theorem noteFails_counts (s : State) (hs : List Hit) :
    counts (s.noteFails hs) = counts s := foldl_counts (fun t h => by cases h <;> simp) hs s

@[simp] theorem noteLanded_counts (s : State) (keys : List Nat) : counts (s.noteLanded keys) = counts s := by simp [State.noteLanded]

@[simp] theorem dropRecord_counts (s : State) : counts s.dropRecord = counts s := (rfl)

/-! ### Page counters and copies -/

@[simp] theorem countPage_counts (s : State) (c : Option Nat) (die va n : Nat) : counts (s.countPage c die va n) = counts s := by
  unfold State.countPage
  repeat' split
  all_goals simp

@[simp] theorem countMiss_counts (s : State) (c core : Nat) (ps : List Piece) : counts (s.countMiss c core ps) = counts s := by
  simp [State.countMiss]

@[simp] theorem countLines_counts (s : State) (x : Context) (e : Seat) (write : Bool) (lo hi : Nat) :
    counts (countLines s x e write lo hi) = counts s := by
  unfold countLines
  split <;> simp

@[simp] theorem countWindow_counts (s : State) (x : Context) (e : Seat) (w : Window) (write : Bool) :
    counts (countWindow s x e w write) = counts s := by simp [countWindow]

@[simp] theorem refreshCopies_counts (s : State) (c core line : Nat) : counts (s.refreshCopies c core line) = counts s := (rfl)

@[simp] theorem refreshNear_counts (s : State) (core line : Nat) : counts (s.refreshNear core line) = counts s := (rfl)

@[simp] theorem fillCopy_counts (s : State) (room : Nat) (at_ : CopyAt) (line : Nat) : counts (s.fillCopy room at_ line) = counts s := (rfl)

@[simp] theorem keepLines_counts (s : State) (x : Context) (core : Nat) (cached : Bool) (ps : List Piece) :
    counts (s.keepLines x core cached ps) = counts s := (rfl)

@[simp] theorem countAhead_counts (s : State) (core line : Nat) : counts (s.countAhead core line) = counts s := by
  unfold State.countAhead
  dsimp only
  repeat' split
  all_goals simp

@[simp] theorem readAhead_counts (s : State) : counts s.readAhead = counts s := by simp [State.readAhead]

/-! ### Messages and receives -/

@[simp] theorem enqueue_counts (s : State) (h : Held) : counts (s.enqueue h) = counts s := (rfl)

@[simp] theorem settleQueue_counts (s : State) (die rxid : Nat) : counts (s.settleQueue die rxid) = counts s := by simp [State.settleQueue]

@[simp] theorem dropReceive_counts (s : State) (r : Receive) : counts (s.dropReceive r) = counts s := by simp [State.dropReceive]

@[simp] theorem dropReceives_counts (s : State) (p : Receive → Bool) : counts (s.dropReceives p) = counts s := by simp [State.dropReceives]

@[simp] theorem take_counts (s : State) (r : Receive) (h : Held) : counts (s.take r h) = counts s := (rfl)

@[simp] theorem search_counts (s : State) (die entry : Nat) (hs : List Held) : counts (s.search die entry hs) = counts s := by
  refine foldl_counts (fun t h => ?_) hs s
  split
  · simp
  · rfl

@[simp] theorem grant_counts (s : State) (z : Sending) : counts (s.grant z) = counts s := by simp [State.grant]

@[simp] theorem meet_counts (s : State) (h : Held) : counts (s.meet h) = counts s := by
  unfold State.meet
  split <;> simp

@[simp] theorem finishReceive_counts (s : State) (r : Receive) (status landed : Nat) :
    counts (s.finishReceive r status landed) = counts s := (rfl)

@[simp] theorem landfault_counts (s : State) (r : Receive) (hs : List Held) (addr : Int) :
    counts (s.landfault r hs addr) = counts s := (rfl)

@[simp] theorem nextPiece_counts (s : State) (h : Held) : counts (s.nextPiece h) = counts s := by simp [State.nextPiece]

@[simp] theorem dropHeld_counts (s : State) (rxid : Nat) (dies : List Nat) :
    counts (s.dropHeld rxid dies) = counts s := by simp [State.dropHeld]

@[simp] theorem forgetMessages_counts (s : State) (x : Context) (stamp : Nat) :
    counts (s.forgetMessages x stamp) = counts s := by simp [State.forgetMessages]

@[simp] theorem forget_counts (s : State) (q : ContextSeed) : counts (s.forget q) = counts s := by
  unfold State.forget
  split <;> simp

/-! ### Contexts and the driver's own tables -/

@[simp] theorem resumeContext_counts (s : State) (c : Nat) : counts (resumeContext s c) = counts s := by
  unfold resumeContext
  split <;> simp

@[simp] theorem create_counts (s : State) (p : CtxParams) : counts (s.create p) = counts s := by simp [State.create]

@[simp] theorem repost_counts (s : State) (q : Nat × List Byte) : counts (s.repost q) = counts s := by
  unfold State.repost
  repeat' split
  all_goals simp

@[simp] theorem postAll_counts (s : State) : counts s.postAll = counts s := by simp [State.postAll]

@[simp] theorem spoil_counts (s : State) (site : ErrorSite) : counts (s.spoil site) = counts s := by
  unfold State.spoil
  split <;> simp

@[simp] theorem takeSignal_counts (s : State) (c u : Nat) : counts (s.takeSignal c u) = counts s := by
  unfold State.takeSignal
  repeat' split
  all_goals simp

@[simp] theorem passBarrier_counts (s : State) (c u : Nat) (this : Park → Bool) : counts (s.passBarrier c u this) = counts s := by
  unfold State.passBarrier
  dsimp only
  repeat' split
  all_goals simp

/-! ### Results and failed accesses -/

@[simp] theorem acquired_counts (a : Access) (s : State) (x : Context) : counts (a.acquired s x).1 = counts s := by
  unfold Access.acquired
  split <;> simp

@[simp] theorem spoiled_counts (s : State) (x : Context) (a : Access) (keys : List Nat) : counts (spoiled s x a keys).1 = counts s := by
  unfold spoiled
  repeat' split
  all_goals simp

@[simp] theorem failAccess_counts (s : State) (x : Context) (a : Access) : counts (failAccess s x a) = counts s := by
  unfold failAccess
  extract_lets y gone told z t x'
  have ht : counts t = counts s := acquired_counts a told gone
  repeat' split
  all_goals simp [ht]

@[simp] theorem failPort_counts (s : State) (k : Nat) : counts (s.failPort k) = counts s := by
  refine foldl_counts (fun t x => foldl_counts (fun u a => ?_) _ t) s.ctxs s
  split <;> simp

@[simp] theorem noteResult_counts (s : State) (x : Context) (o : Owed) (used : Bool) :
    counts (noteResult s x o used).1 = counts s := by
  unfold noteResult
  repeat' split
  all_goals simp

@[simp] theorem returnResult_counts (s : State) (x : Context) (o : Owed) : counts (returnResult s x o) = counts s := by
  unfold returnResult
  dsimp only
  repeat' split
  all_goals simp

@[simp] theorem noteOperand_counts (s : State) (x : Context) (o : EngOp) (d : BitVec 256) (w : Window) :
    counts (noteOperand s x o d w) = counts s := by simp [noteOperand]

/-! ### The end of an issue -/

@[simp] theorem commit_counts (env : Env) : counts env.commit = counts env.dev := (rfl)

@[simp] theorem deliver_counts (env : Env) (t : TrapInfo) : counts (deliver env t) = counts env.dev := by
  unfold deliver
  dsimp only
  split <;> simp

@[simp] theorem takeTrap_counts (env : Env) (t : TrapInfo) : counts (takeTrap env t) = counts env.dev := by simp [takeTrap]

@[simp] theorem fenceTrap_counts (s : State) (x : Context) (w : Warp) (pc : PC) (act : Mask) (c : Cause) (v : Word) :
    counts (s.fenceTrap x w pc act c v) = counts s := by
  unfold State.fenceTrap
  dsimp only
  split <;> simp

/-! ### Page entries and fetches -/

@[simp] theorem touchLeaf_counts (s : State) (x : Context) (unit va : Nat) (write : Bool) :
    counts (touchLeaf s x unit va write) = counts s := by
  unfold touchLeaf
  split <;> simp

@[simp] theorem touchWindow_counts (s : State) (x : Context) (e : Seat) (w : Window) (write : Bool) :
    counts (touchWindow s x e w write) = counts s := by simp [touchWindow]

@[simp] theorem engTouch_counts (s : State) (x : Context) (e : Seat) (space : Nat) (write : Bool) (pos : Int) (len : Nat) :
    counts (engTouch s x e space write pos len) = counts s := by simp [engTouch]

@[simp] theorem unitTouch_counts (s : State) (x : Context) (a n : Nat) : counts (unitTouch s x a n) = counts s := by simp [unitTouch]

@[simp] theorem fetchWord_counts (s : State) (c core k : Nat) (p : Piece) : counts (fetchWord s c core k p).1 = counts s := by
  unfold fetchWord
  dsimp only
  repeat' split
  all_goals simp

@[simp] theorem fetch_counts (s : State) (x : Context) (w : Warp) (e : Entry) : counts (fetch s x w e).1 = counts s := by
  unfold fetch
  dsimp only
  repeat' split
  all_goals simp

@[simp] theorem testWord_counts (s : State) (x : Context) (w : Warp) (va : Nat) : counts (s.testWord x w va) = counts s := by
  unfold State.testWord
  split <;> simp

@[simp] theorem sawWord_counts (s : State) (x : Context) (w : Warp) (va : Nat) : counts (s.sawWord x w va) = counts s := by
  simp [State.sawWord]

@[simp] theorem testPark_counts (s : State) (x : Context) (w : Warp) (k : Park) : counts (s.testPark x w k) = counts s := by
  unfold State.testPark
  split <;> simp

/-! ### Accesses at their home -/

@[simp] theorem putPiece_counts (s : State) (p : Piece) (data : Nat) : counts (s.putPiece p data) = counts s := (rfl)

@[simp] theorem putData_counts (s : State) (core : Nat) (ps : List Piece) (data : Nat) : counts (s.putData core ps data) = counts s := by
  simp [State.putData]

@[simp] theorem engPut_counts (s : State) (die : Nat) (ps : List Piece) (v : Nat) : counts (engPut s die ps v) = counts s := by
  simp [engPut]

@[simp] theorem performAtomic_counts (s : State) (x : Context) (a : Access) (write : Option Nat) (old : Word) (ret : Option Dest) :
    counts (performAtomic s x a write old ret) = counts s := by
  unfold performAtomic
  extract_lets keys t q u bad
  have hu : counts u = counts s := by
    dsimp only [u]
    split <;> simp [q, t]
  split <;> simp [hu]

@[simp] theorem performAccess_counts (s : State) (x : Context) (a : Access) (fromCopy : Bool) :
    counts (performAccess s x a fromCopy) = counts s := by
  unfold performAccess
  dsimp only
  repeat' split
  all_goals simp

@[simp] theorem goAccess_counts (s : State) (c id : Nat) (fromCopy : Bool) : counts (goAccess s c id fromCopy) = counts s := by
  unfold goAccess
  repeat' split
  all_goals simp

@[simp] theorem goFrom_counts (c : Nat) (p : Access → Bool) (n last : Nat) (s : State) : counts (goFrom c p n last s) = counts s := by
  induction n generalizing last s with
  | zero => rfl
  | succ n ih =>
    unfold goFrom
    split
    · rfl
    · rw [ih, goAccess_counts]

@[simp] theorem goAccesses_counts (s : State) (c : Nat) (p : Access → Bool) : counts (goAccesses s c p) = counts s := by
  unfold goAccesses
  split <;> simp

@[simp] theorem drainGone_counts (s : State) (x : Context) : counts (drainGone s x) = counts s := by simp [drainGone]

@[simp] theorem settleWarps_counts (s : State) (c : Nat) : counts (settleWarps s c) = counts s := by
  unfold settleWarps
  split
  · rfl
  · extract_lets t
    have ht : counts t = counts s := by simp [t]
    split
    · exact ht
    · refine (foldl_counts (fun u id => ?_) _ t).trans ht
      repeat' split
      all_goals simp

/-! ### Engines and cards -/

theorem engWriteFrom_counts (s : State) (x : Context) (e : Seat) (space place : Nat) (puts : List Put) (done : List Piece) :
    counts (engWriteFrom s x e space place puts done).1 = counts s := by
  induction puts generalizing s done with
  | nil => rfl
  | cons p r ih =>
    unfold engWriteFrom
    extract_lets q
    split
    · rw [ih, engPut_counts]
    · rfl

@[simp] theorem engWriteAll_counts (s : State) (x : Context) (e : Seat) (space place : Nat) (puts : List Put) :
    counts (engWriteAll s x e space place puts).1 = counts s := by simp [engWriteAll, engWriteFrom_counts]

@[simp] theorem engStore_counts (s : State) (x : Context) (e : Seat) (a n v : Nat) : counts (engStore s x e a n v) = counts s := by
  unfold engStore
  extract_lets z
  split
  · simp [z]
  · simp

@[simp] theorem engWords_counts (x : Context) (e : Seat) (a : Nat) (ws : List Nat) (s : State) :
    counts (engWords s x e a ws) = counts s := by
  induction ws generalizing s a with
  | nil => exact rfl
  | cons w r ih => exact (ih _ _).trans (engStore_counts s x e a 8 w)

@[simp] theorem putItems_counts (x : Context) (q die stage depth n : Nat) (items : List (Word × Word)) (s : State) :
    counts (s.putItems x q die stage depth n items) = counts s := by
  induction items generalizing s n with
  | nil => simp [State.putItems]
  | cons i r ih => simp only [State.putItems, ih, counts_mk, counts_eta]

@[simp] theorem markChunk_counts (s : State) (x : Context) (k : Card) (n : Nat) (bit : Bool) :
    counts (k.markChunk s x n bit) = counts s := by simp [Card.markChunk]

@[simp] theorem endChunk_counts (s : State) (x : Context) (k : Card) (n : Nat) : counts (k.endChunk s x n).1 = counts s := by
  unfold Card.endChunk
  split <;> simp

@[simp] theorem place_counts (s : State) (k : Card) (x : Context) (n : Channel) (aux0 aux1 : Word) :
    counts (k.place s x n aux0 aux1).1 = counts s := by
  unfold Card.place
  extract_lets t u v
  have hu : counts u = counts s := by
    dsimp only [u]
    split <;> simp [t]
  simp [v, hu]

@[simp] theorem begin_counts (s : State) (x : Context) (k : Card) (j : Nat) : counts (k.begin s x j) = counts s := by
  unfold Card.begin
  dsimp only
  repeat' split
  all_goals simp

@[simp] theorem touchSource_counts (s : State) (x : Context) (k : Card) (i : CardItem) : counts (k.touchSource s x i) = counts s := by
  simp [Card.touchSource]

@[simp] theorem touchDest_counts (s : State) (x : Context) (k : Card) (i : CardItem) : counts (k.touchDest s x i) = counts s := by
  unfold Card.touchDest
  split <;> simp

theorem runFrom_counts (x : Context) (items : List CardItem) (z : CardRun) : counts (Card.runFrom x items z).dev = counts z.dev := by
  induction items generalizing z with
  | nil => exact rfl
  | cons i r ih =>
    unfold Card.runFrom
    dsimp only
    repeat' split
    all_goals simp [ih]

@[simp] theorem publish_counts (s t : State) (x : Context) (k : Card) (ps : List Piece) : counts (k.publish s t x ps).1 = counts t := by
  unfold Card.publish
  split <;> simp

@[simp] theorem run_counts (s : State) (x : Context) (k : Card) (p : CardItem → Bool) : counts (k.run s x p).dev = counts s := by
  simp [Card.run, runFrom_counts]

@[simp] theorem runRange_counts (s : State) (x : Context) (k : Card) (first last : Nat) :
    counts (k.runRange s x first last).dev = counts s :=
  run_counts _ _ _ _

@[simp] theorem finish_counts (s : State) (x : Context) (k : Card) (status : Nat) : counts (k.finish s x status) = counts s := by
  unfold Card.finish
  extract_lets lost whole ns t u v y
  have hv : counts v = counts s := by simp [v, u, t]
  split
  · exact hv
  · simp [hv]

@[simp] theorem multiply_counts (s : State) (x : Context) (o : EngOp) (t : Tile) : counts (o.multiply s x t) = counts s := by
  unfold EngOp.multiply
  dsimp only
  repeat' split
  all_goals simp

/-! ### Blocks and warps that end or begin -/

@[simp] theorem drainScratch_counts (s : State) (c : Nat) (b : Block) : counts (drainScratch s c b) = counts s := by
  unfold drainScratch
  split
  · rfl
  · refine foldl_counts (fun t a => ?_) _ s
    split <;> simp

@[simp] theorem endBlock_counts (s : State) (c : Nat) (b : Block) : counts (endBlock s c b) = counts s := by
  unfold endBlock
  dsimp only
  repeat' split
  all_goals simp

@[simp] theorem endWarp_counts (s : State) (c u : Nat) : counts (endWarp s c u) = counts s := by
  unfold endWarp
  dsimp only
  repeat' split
  all_goals simp

@[simp] theorem reap_counts (s : State) : counts s.reap = counts s := by
  unfold State.reap
  repeat' split
  all_goals simp

@[simp] theorem startBlock_counts (s : State) (c : Nat) (l : Launch) (z : Start) : counts (startBlock s c l z) = counts s := by
  unfold startBlock
  split <;> simp

@[simp] theorem stopUnits_counts (s : State) (c q : Nat) : counts (stopUnits s c q) = counts s := by
  unfold stopUnits
  extract_lets t
  have ht : counts t = counts s := by simp [t]
  split
  · exact ht
  · refine (foldl_counts (fun u k => ?_) _ _).trans ht
    repeat' split
    all_goals simp

@[simp] theorem stopLaunch_counts (s : State) (c q : Nat) : counts (stopLaunch s c q) = counts s := by
  unfold stopLaunch
  dsimp only
  repeat' split
  all_goals simp

/-! ### Bytes that the driver, the host and firmware move -/

@[simp] theorem copyTable_counts (s : State) : counts s.copyTable = counts s := (rfl)

@[simp] theorem moveBytes_counts (s : State) (c a b n : Nat) : counts (moveBytes s c a b n) = counts s := by
  unfold moveBytes
  dsimp only
  repeat' split
  all_goals simp

@[simp] theorem copyBytes_counts (s : State) (a b n : Nat) : counts (copyBytes s a b n) = counts s := (rfl)

@[simp] theorem writePtes_counts (s : State) (ptes : List (Nat × Word)) : counts (s.writePtes ptes) = counts s := (rfl)

@[simp] theorem swapOut_counts (s : State) (c : Nat) (b : Block) (u : Nat) : counts (swapOut s c b u) = counts s := by
  unfold swapOut
  extract_lets t
  have ht : counts t = counts s := by simp [t, drainWarp]
  split
  · exact ht
  · split <;> simp [ht]

@[simp] theorem hostWrite_counts (s : State) (c : Nat) (w : HostWrite) : counts (s.hostWrite c w) = counts s := by
  unfold State.hostWrite
  repeat' split
  all_goals simp

@[simp] theorem hostWrites_counts (s : State) (c : Nat) (ws : List HostWrite) : counts (s.hostWrites c ws) = counts s := by
  simp [State.hostWrites]

@[simp] theorem takeOver_counts (s : State) (r : RecoveryPlan) : counts (s.takeOver r) = counts s := by
  unfold State.takeOver
  split <;> simp

@[simp] theorem restore_counts (s : State) (r : RecoveryPlan) : counts (s.restore r) = counts s := by simp [State.restore]

@[simp] theorem bringTable_counts (s : State) : counts s.bringTable = counts s := by simp [State.bringTable]

@[simp] theorem landWindow_counts (s : State) (x : Context) (e : Seat) (w : Window) (codes : List Nat) (heads : List Word) :
    counts (landWindow s x e w codes heads).1 = counts s := by
  unfold landWindow
  extract_lets all
  split <;> simp

@[simp] theorem landRed_counts (s : State) (x : Context) (r : Receive) (op n : Nat) : counts (landRed s x r op n) = counts s := by
  unfold landRed
  extract_lets w f cells fits part heads leaf elem res invalid status t z
  have ht : counts t = counts s := by simp [t]
  have hz : counts z.1 = counts t := by simp [z]
  clear_value status heads res t z
  repeat' split
  all_goals simp [ht, hz]

@[simp] theorem settleRed_counts (s : State) (x : Context) (r : Receive) : counts (s.settleRed x r) = counts s := by
  unfold State.settleRed
  split
  · rfl
  · simp

/-! ### Messages that land -/

theorem readPiece_counts {s t : State} {x : Context} {z : Sending} {m m' : Msg} (hr : s.readPiece x z m = some (t, m')) :
    counts t = counts s := by
  unfold State.readPiece at hr
  extract_lets w e n mine reads keys ps fails val all m1 u at hr
  split at hr
  · cases hr
  · obtain ⟨rfl, -⟩ := Prod.mk.inj (Option.some.inj hr)
    simp [u]

@[simp] theorem landOne_counts (s : State) (x : Context) (r : Receive) (m : Held) : counts (landOne s x r m) = counts s := by
  unfold landOne
  extract_lets w m gone n z at_ hit keys status t
  have hz : counts z.1 = counts s := by simp [z, gone]
  have ht : counts t = counts s := by simp [t, hz]
  clear_value z status t
  repeat' split
  all_goals simp [ht, gone]

theorem deliverActive_counts {s t : State} {die : Nat} {a : ActiveMsg} (hd : s.deliverActive die a = some t) : counts t = counts s := by
  unfold State.deliverActive at hd
  extract_lets ctx gone at hd
  have hgone : counts gone = counts s := by simp [gone]
  clear_value ctx gone
  repeat' split at hd
  all_goals cases hd
  all_goals simp [hgone]

@[simp] theorem retryActive_counts (s : State) (m : HeldActive) : counts (s.retryActive m) = counts s := by
  unfold State.retryActive
  split
  · rfl
  · split
    · rfl
    · rename_i t ht
      simpa using deliverActive_counts ht

@[simp] theorem arriveActive_counts (s : State) (die : Nat) (a : ActiveMsg) : counts (s.arriveActive die a) = counts s := by
  unfold State.arriveActive
  extract_lets behind
  split
  · rename_i t ht
    split at ht
    · cases ht
    · exact deliverActive_counts ht
  · simp

/-! ### Records of a launch -/

@[simp] theorem refuse_counts (s : State) (x : Context) (b : Submitted) (cpl : Option Nat) (c : Cause) :
    counts (refuse s x b cpl c) = counts s := by
  unfold refuse
  repeat' split
  all_goals simp

@[simp] theorem touchRecord_counts (s : State) (x : Context) (b : Submitted) (raw : Nat) (hit : Hit) :
    counts (touchRecord s x b raw hit) = counts s := by
  unfold touchRecord
  extract_lets r named t t1 hs t2
  have ht : counts t = counts s := by
    dsimp only [t]
    split <;> simp
  have ht2 : counts t2 = counts s := by simp [t2, t1, ht]
  clear_value named t2
  split
  · exact ht
  · split
    · refine (foldl_counts (fun u o => ?_) _ t2).trans ht2
      split <;> simp
    · exact ht2

@[simp] theorem endWait_counts (s : State) (x : Context) (w : Warp) (met : Bool) : counts (endWait s x w met) = counts s := by
  unfold endWait
  repeat' split
  all_goals simp

end Sys2Proof.CountersKept
end

section
/-! PROOFS. One issue leaves the counters as they are when its effect does. -/

namespace Sys2Proof.CountersKept

open Sys2Proof Machine Laws MemoryForm

/-! ### How an attempt and an instruction end -/

/-- The effect of an attempt, where it has one, leaves the counters at a value. -/
def ResKeeps (k : Counts) : Res → Prop
  | .done env => counts env.dev = k
  | .trap _ => True
  | .hold _ => True

/-- The next state, where there is one, has the counters at a value. -/
def NextKeeps (k : Counts) : Host.Outcome State Fault Refusal → Prop
  | .next t => counts t = k
  | .fault _ => True
  | .refused _ => True

@[simp] theorem resKeeps_done {k : Counts} {env : Env} : ResKeeps k (.done env) ↔ counts env.dev = k := Iff.rfl

@[simp] theorem resKeeps_trap (k : Counts) (t : TrapInfo) : ResKeeps k (.trap t) := trivial

@[simp] theorem resKeeps_hold (k : Counts) (p : Park) : ResKeeps k (.hold p) := trivial

@[simp] theorem nextKeeps_next {k : Counts} {t : State} : NextKeeps k (.next t) ↔ counts t = k := Iff.rfl

@[simp] theorem nextKeeps_fault (k : Counts) (f : Fault) : NextKeeps k (.fault f) := trivial

@[simp] theorem wordTrap_keeps (k : Counts) (env : Env) (c : Cause) : ResKeeps k (env.wordTrap c) := trivial

@[simp] theorem trapP_keeps (k : Counts) (env : Env) (c : Cause) (v : Word) : ResKeeps k (env.trapP c v) := trivial

@[simp] theorem trapE_keeps (k : Counts) (env : Env) (c : Cause) (v : Word) : ResKeeps k (env.trapE c v) := trivial

@[simp] theorem trapDesc_keeps (k : Counts) (env : Env) (c : Cause) (d : BitVec 256) : ResKeeps k (env.trapDesc c d) := trivial

@[simp] theorem trapAcc_keeps (k : Counts) (env : Env) (c : Cause) (a : BitVec 8) : ResKeeps k (env.trapAcc c a) := trivial

theorem resKeeps_of_noEffect {k : Counts} {o : Option Res} {r : Res} (ho : NoEffect o) (hr : o = some r) : ResKeeps k r := by
  cases r with
  | done env => exact absurd hr (ho env)
  | trap t => trivial
  | hold p => trivial

/-- An effect behind a check. -/
theorem resKeeps_check {k : Counts} {o : Option Res} {b : Res} :
    NoEffect o → ResKeeps k b → ResKeeps k (match o with | some x => x | none => b) := by
  intro ho hb
  cases o with
  | none => exact hb
  | some x => exact resKeeps_of_noEffect ho rfl

theorem resKeeps_ite {k : Counts} {c : Prop} {_ : Decidable c} {a b : Res} (ha : ResKeeps k a) (hb : ResKeeps k b) :
    ResKeeps k (if c then a else b) := by
  split
  · exact ha
  · exact hb

/-! ### What an issue does to the package -/

theorem foldl_dev_counts {α : Type} {f : Env → α → Env} (hf : ∀ e a, counts (f e a).dev = counts e.dev) (l : List α) (env : Env) :
    counts (l.foldl f env).dev = counts env.dev :=
  List.foldlRecOn (motive := fun e => counts e.dev = counts env.dev) l f rfl (fun e he a _ => (hf e a).trans he)

@[simp] theorem addLanes_counts (env : Env) (o : AccOpts) (pl : Plan) (lanes : List Nat) (kind : Env → Nat → AccKind) :
    counts (env.addLanes o pl lanes kind).dev = counts env.dev := by
  unfold Env.addLanes
  exact foldl_dev_counts (fun _ _ => by exact rfl) lanes env

@[simp] theorem oweV_counts (env : Env) (d : BitVec 8) (f : Nat → Word) : counts (env.oweV d f).dev = counts env.dev := by
  unfold Env.oweV
  exact foldl_dev_counts (fun _ _ => by exact rfl) _ env

@[simp] theorem touchPlan_counts (env : Env) (pl : Plan) : counts (env.touchPlan pl).dev = counts env.dev := by
  unfold Env.touchPlan
  split <;> simp

@[simp] theorem keepRead_counts (env : Env) (pl : Plan) : counts (env.keepRead pl).dev = counts env.dev := countMiss_counts _ _ _ _

theorem makeAccess_keeps (env : Env) (o : AccOpts) (pl : Plan) (lanes : List Nat) (kind : Env → Nat → AccKind) :
    ResKeeps (counts env.dev) (env.makeAccess o pl lanes kind) := by
  unfold Env.makeAccess
  refine resKeeps_check (checkPlan_noEffect env pl) ?_
  split <;> simp

theorem callTo_keeps (env : Env) (pc : Nat → PC) (tpri : BitVec 8) : ResKeeps (counts env.dev) (env.callTo pc tpri) := by
  unfold Env.callTo
  extract_lets env'
  have hmade := makeAccess_keeps env .plain (env.recordPlan (-16) true) env.p.lanes
    (fun _ _ => .store (callRecord (env.genAt env.next) env.next env.e.pri))
  split
  · rename_i e he
    rw [he] at hmade
    exact hmade
  · exact hmade

theorem ret_keeps (env : Env) : ResKeeps (counts env.dev) env.ret := by
  unfold Env.ret
  refine resKeeps_check (trapLanes_noEffect _ _ _ _) ?_
  extract_lets pl pop rpc old env1 env2
  refine resKeeps_check (checkPlan_noEffect _ _) (resKeeps_check (readNow_noEffect _ _) (resKeeps_check (trapLanes_noEffect _ _ _ _) ?_))
  show counts env2.dev = counts env.dev
  have hread : counts env1.dev = counts env.dev := by simp [env1]
  dsimp only [env2]
  split
  · exact hread
  · rw [foldl_dev_counts (fun _ _ => by rw [refreshGen_dev])]
    exact hread

theorem prefetch_counts (env : Env) (r : MF) : counts (env.prefetch r).dev = counts env.dev := by
  unfold Env.prefetch
  refine foldl_counts (fun s t => ?_) _ env.dev
  extract_lets va
  split
  · extract_lets k p
    split <;> simp
  · simp
  · rfl

theorem multicast_keeps (env : Env) (r : MF) (ordered : Bool) : ResKeeps (counts env.dev) (env.multicast r ordered) := by
  unfold Env.multicast
  extract_lets size trap off
  split
  · trivial
  · refine resKeeps_check (trapLanes_noEffect _ _ _ _) ?_
    split
    · split
      · trivial
      · exact foldl_dev_counts (fun e t => foldl_dev_counts (fun _ _ => by exact rfl) _ e) _ env
    · rfl

/-! ### Releases -/

theorem perform_counts {env e : Env} {p : Access → Bool} (he : env.perform p = some e) : counts e.dev = counts env.dev := by
  unfold Env.perform at he
  extract_lets s at he
  have hs : counts s = counts env.dev := by simp [s]
  clear_value s
  repeat' split at he
  all_goals cases he
  exact hs

theorem releaseFor_counts {env e : Env} {scope : Nat} {p : Access → Bool} (he : env.releaseFor scope p = some e) :
    counts e.dev = counts env.dev := by
  unfold Env.releaseFor at he
  split at he
  · cases he
  · obtain ⟨e1, hperform, rfl⟩ := Option.map_eq_some_iff.mp he
    have hdone : counts e1.dev = counts env.dev := perform_counts hperform
    exact hdone

theorem releaseAt_counts {env e : Env} {scope : Nat} (he : env.releaseAt scope = some e) : counts e.dev = counts env.dev :=
  releaseFor_counts he

theorem release_counts {env e : Env} (he : env.release = some e) : counts e.dev = counts env.dev := releaseAt_counts he

theorem releaseIn_counts {env e : Env} {rs : List Reg} (he : env.releaseIn rs = some e) : counts e.dev = counts env.dev := by
  unfold Env.releaseIn at he
  split at he
  · cases he
  · exact perform_counts he

theorem endLevel_counts {env e : Env} {k : LevelEnd} (he : env.endLevel k = some e) : counts e.dev = counts env.dev := by
  unfold Env.endLevel at he
  repeat' split at he
  · cases he; rfl
  · cases he
  · exact releaseFor_counts he

theorem envEndBlock_counts {env e : Env} {b : Block} (he : env.endBlock b = some e) : counts e.dev = counts env.dev := by
  unfold Env.endBlock at he
  extract_lets s at he
  have hs : counts s = counts env.dev := by simp [s]
  clear_value s
  repeat' split at he
  all_goals cases he
  exact hs

/-- The ends of several levels, each after the one before. -/
theorem endLevels_counts (ks : List LevelEnd) (env : Env) :
    ∀ e, ks.foldl (fun (e : Option Env) k => e.bind (fun e => e.endLevel k)) (some env) = some e → counts e.dev = counts env.dev :=
  List.foldlRecOn (motive := fun o : Option Env => ∀ e, o = some e → counts e.dev = counts env.dev) ks _
    (fun e he => by cases he; rfl)
    (fun o ho k _ e he => by
      obtain ⟨e1, ho1, hk⟩ := Option.bind_eq_some_iff.mp he
      exact (endLevel_counts hk).trans (ho e1 ho1))

theorem envFinish_counts {env e : Env} (he : env.finish = some e) : counts e.dev = counts env.dev := by
  unfold Env.finish at he
  split at he
  · cases he; rfl
  · extract_lets levels gone at he
    obtain ⟨e1, hlevels, hend⟩ := Option.bind_eq_some_iff.mp he
    have h1 : counts e1.dev = counts env.dev := endLevels_counts _ env e1 hlevels
    split at hend
    · exact (envEndBlock_counts hend).trans h1
    · cases hend
      exact h1

theorem waitDone_keeps (env : Env) (d : BitVec 8) (scope : Nat) : ResKeeps (counts env.dev) (env.waitDone d scope) := by
  unfold Env.waitDone
  split
  · trivial
  · exact rfl

theorem barr_keeps (env : Env) (id n : Nat) : ResKeeps (counts env.dev) (env.barr id n) := by
  unfold Env.barr
  split
  · trivial
  · rename_i e he
    have hreleased := releaseAt_counts he
    split
    · exact hreleased
    · exact hreleased

/-! ### Lanes, elements and descriptors -/

theorem encodeLanes_keeps (env : Env) (rm : Rm) (d : BitVec 8) (base : Nat) (elems : Nat → List (Nat → Option Nat))
    (place : Nat → List Nat → Word) : ResKeeps (counts env.dev) (env.encodeLanes rm d base elems place) := by
  unfold Env.encodeLanes
  exact resKeeps_check (trapLanes_noEffect _ _ _ _) rfl

theorem convert_keeps (env : Env) (rm : Rm) (d : BitVec 8) (ns sa w nd da : Nat) (elem : Nat → Nat → Nat → Option Nat) :
    ResKeeps (counts env.dev) (env.convert rm d ns sa w nd da elem) := by
  unfold Env.convert
  split
  · trivial
  · exact encodeLanes_keeps _ _ _ _ _ _

theorem sinv_keeps (env : Env) (r : MF) (set : Bool) : ResKeeps (counts env.dev) (env.sinv r set) := by
  unfold Env.sinv
  dsimp only
  repeat' split
  all_goals simp

theorem writeCsr_keeps (env : Env) (v : Word) (ok : Bool) (f : Context → Context) :
    ResKeeps (counts env.dev) (env.writeCsr v ok f) := by
  unfold Env.writeCsr
  split <;> simp

theorem gtake_keeps (env : Env) (r : RRR) (f : Word × Nat → Word) : ResKeeps (counts env.dev) (env.gtake r f) := by
  unfold Env.gtake
  split
  · trivial
  · extract_lets one
    exact foldl_dev_counts (f := one) (fun _ _ => rfl) _ env

/-! ### Matrix tasks and messages -/

theorem newTile_trap {env : Env} {a : BitVec 8} {mt nt afn : Nat} {engines : List Nat} {af : Word} {r : Res}
    (h : env.newTile a mt nt engines af afn = .inl r) : ∃ t, r = .trap t := by
  unfold Env.newTile at h
  dsimp only at h
  repeat' split at h
  all_goals cases h
  all_goals exact ⟨_, rfl⟩

theorem mma_keeps (env : Env) (g : MmaArgs) : ResKeeps (counts env.dev) (env.mma g) := by
  unfold Env.mma
  extract_lets engines a b mt nt af go
  have hgo (t : Tile) (e : Env) (he : e.dev = env.dev) : ResKeeps (counts env.dev) (go t e) := by
    dsimp only [go]
    split
    · trivial
    · rename_i e1 hrelease
      have hreleased : counts e1.dev = counts e.dev := releaseIn_counts hrelease
      exact hreleased.trans (congrArg counts he)
  clear_value go engines
  split
  · trivial
  · split
    · trivial
    · split
      · trivial
      · split
        · split
          · trivial
          · exact hgo _ _ rfl
        · split
          · rename_i r hr
            obtain ⟨t, rfl⟩ := newTile_trap hr
            trivial
          · rename_i q hq
            exact hgo _ _ (newTile_dev.2 q hq)

theorem mpost_keeps (env : Env) (r : RRR) (red : Option Nat) : ResKeeps (counts env.dev) (env.mpost r red) := by
  unfold Env.mpost
  extract_lets d match_ mask ctl n die bad
  split
  · trivial
  · refine resKeeps_check (checkDesc_noEffect _ _ _) ?_
    split
    · simp
    · show counts (State.settleQueue (State.search _ _ _ _) _ _) = counts env.dev
      rw [settleQueue_counts, search_counts]
      exact rfl

/-! ### The issue -/

theorem settle_counts {env : Env} (opts : Opts) {r : Res} (hr : ResKeeps (counts env.dev) r) :
    counts (settle opts env r) = counts env.dev := by
  unfold settle
  split
  · repeat' split
    all_goals simp [holdIssue]
  · simp
  · split
    · simp
    · exact hr

theorem orPoison_keeps {k : Counts} {r : Res} (t : Option TrapInfo) (hr : ResKeeps k r) : ResKeeps k (r.orPoison t) := by
  unfold Res.orPoison
  split
  · exact hr
  · split <;> trivial

theorem attempt_keeps {opts : Opts} {env : Env} {body : Env → Res} (hearly : NoEffect (opts.early env))
    (hb : ResKeeps (counts env.dev) (body env)) : ResKeeps (counts env.dev) (attempt opts env body) := by
  unfold attempt
  split
  · rename_i r hr
    exact resKeeps_of_noEffect (gate_noEffect hearly) hr
  · refine orPoison_keeps _ ?_
    split
    · rfl
    · exact hb

/-- An issue leaves the counters as they are when its effect, and what follows it, does. -/
theorem nextKeeps_issueThen {i : Instr} {opts : Opts} {s : State} {body : Env → Res} {post : State → State}
    (hearly : ∀ env, NoEffect (opts.early env)) (hb : ∀ env, ResKeeps (counts env.dev) (body env))
    (hpost : ∀ t, counts (post t) = counts t) : NextKeeps (counts s) (issueThen i opts s body post) := by
  unfold issueThen
  split
  · trivial
  · rename_i env hopen
    have hdev : env.dev = s := openIssue_dev hopen
    rw [← hdev]
    exact (hpost _).trans (settle_counts opts (attempt_keeps (hearly env) (hb env)))

/-- An issue whose options make no check of their own. -/
theorem nextKeeps_issue {i : Instr} {opts : Opts} {s : State} {body : Env → Res} (hearly : opts.early = fun _ => none)
    (hb : ∀ env, ResKeeps (counts env.dev) (body env)) : NextKeeps (counts s) (issue i opts s body) :=
  nextKeeps_issueThen (fun _ => by rw [hearly]; exact noEffect_none) hb fun _ => rfl

theorem nextKeeps_issueDone {i : Instr} {opts : Opts} {s : State} {f : Env → Env} (hearly : opts.early = fun _ => none)
    (hf : ∀ env, counts (f env).dev = counts env.dev) : NextKeeps (counts s) (issueDone i opts s f) :=
  nextKeeps_issue hearly hf

/-- An issue whose effect leaves the package as it is, whatever it does to the warp and the context. -/
theorem nextKeeps_frame {i : Instr} {opts : Opts} {s : State} {f : Env → Env} (hearly : opts.early = fun _ => none)
    (hf : ∀ env, (f env).dev = env.dev) : NextKeeps (counts s) (issueDone i opts s f) :=
  nextKeeps_issueDone hearly fun env => by rw [hf env]

/-! ### Retired instructions and the return from a handler -/

theorem emulate_counts (env : Env) (c : Cause) (r : RRR) (opts : Opts) (named : List Opnd) {body : Env → Res}
    (hb : ∀ env, ResKeeps (counts env.dev) (body env)) : counts (env.emulate c r opts named body) = counts env.dev := by
  unfold Env.emulate
  extract_lets env1
  refine settle_counts opts (resKeeps_check (t5Check_noEffect _ _ _) ?_)
  split
  · exact rfl
  · exact hb env1

theorem nextKeeps_retired {c : Cause} {i : Instr} {r : RRR} {opts : Opts} {named : List Opnd} {s : State} {body : Env → Res}
    (hb : ∀ env, ResKeeps (counts env.dev) (body env)) : NextKeeps (counts s) (retiredIssue c i r opts named s body) := by
  unfold retiredIssue
  split
  · trivial
  · rename_i env hopen
    have hdev : env.dev = s := openIssue_dev hopen
    rw [← hdev]
    split
    · exact rfl
    · split <;> simp [emulate_counts _ _ _ _ _ hb]

theorem completeEntry_keeps (env : Env) : ResKeeps (counts env.dev) env.completeEntry := by
  unfold Env.completeEntry
  split
  · exact ret_keeps env.asEntered
  · exact rfl

theorem nextKeeps_eret {i : Instr} {isNext : Bool} {s : State} : NextKeeps (counts s) (eretWith i isNext s) := by
  unfold eretWith
  split
  · trivial
  · rename_i env hopen
    have hdev : env.dev = s := openIssue_dev hopen
    rw [← hdev]
    show counts _ = _
    split
    · rename_i r hr
      exact settle_counts _ (resKeeps_of_noEffect (precheck_noEffect (opts := .plain) noEffect_none) hr)
    · split
      · exact settle_counts _ rfl
      · split
        · simp
        · split
          · simp
          · simp
          · extract_lets env1
            split
            · exact takeTrap_counts env1 _
            · rw [takeSignal_counts]
              exact settle_counts _ (completeEntry_keeps env1)

end Sys2Proof.CountersKept
end

section
/-! PROOFS. The instructions of a warp leave the counters as they are. -/

namespace Sys2Proof.CountersKept

open Sys2Proof Machine Laws MemoryForm

/-! ### Control, lanes and elements -/

theorem execExit_keeps (r : RRR) (s : State) : NextKeeps (counts s) (execExit r s) := by
  refine nextKeeps_issueThen (fun _ => noEffect_none) (fun env => ?_) reap_counts
  split
  · trivial
  · rename_i e hfin
    have hended := envFinish_counts hfin
    exact hended

theorem execShflx_keeps (r : RRR) (s : State) : NextKeeps (counts s) (execShflx r s) := by
  refine nextKeeps_issue rfl fun env => ?_
  extract_lets k
  split
  · exact rfl
  · refine resKeeps_ite trivial (resKeeps_ite (oweV_counts _ _ _) ?_)
    extract_lets far
    refine resKeeps_check ?_ (foldl_dev_counts (fun _ _ => by exact rfl) _ env)
    cases far with
    | none => exact noEffect_none
    | some w => exact farTrap_noEffect env r w

theorem execFredx_keeps (r : RRR) (s : State) : NextKeeps (counts s) (execFredx r s) := by
  refine nextKeeps_issue rfl fun env => ?_
  extract_lets f run
  split
  · trivial
  · exact rfl

/-! ### Accesses, descriptors, channels and cards -/

theorem execJpost_keeps (r : RRR) (s : State) : NextKeeps (counts s) (execJpost r s) := by
  refine nextKeeps_issue rfl fun env => ?_
  extract_lets reg p
  refine resKeeps_check (checkPost_noEffect env p) ?_
  split
  · trivial
  · rename_i c _
    extract_lets k
    refine resKeeps_ite trivial (resKeeps_ite trivial ?_)
    split
    · trivial
    · rename_i e hrel
      exact (place_counts e.dev k e.ctx c p.aux0 p.aux1).trans (releaseIn_counts hrel)

theorem execChsetRing_keeps (r : RRR) (s : State) : NextKeeps (counts s) (execChsetRing r s) := by
  refine nextKeeps_issue rfl fun env => ?_
  extract_lets b ch k
  refine resKeeps_ite trivial (resKeeps_check (checkAddrs_noEffect env _) (resKeeps_ite trivial (resKeeps_ite trivial ?_)))
  split
  · trivial
  · rename_i e hrel
    exact (engStore_counts e.dev e.ctx e.seat (e.s r.c).toNat 8 0).trans (releaseIn_counts hrel)

theorem execChsetChain_keeps (r : RRR) (s : State) : NextKeeps (counts s) (execChsetChain r s) := by
  refine nextKeeps_issue rfl fun env => resKeeps_ite trivial (resKeeps_check (checkAddrs_noEffect env _) ?_)
  split
  · trivial
  · exact resKeeps_ite trivial (resKeeps_ite trivial rfl)

theorem readPlan_counts (env : Env) (pl : Plan) : counts ((env.touchPlan pl).keepRead pl).dev = counts env.dev := by simp

theorem execTwait_keeps (r : RI) (s : State) : NextKeeps (counts s) (execTwait r s) := by
  refine nextKeeps_issue rfl fun env => ?_
  extract_lets scope n a m pl
  refine resKeeps_ite trivial (resKeeps_check (checkPlan_noEffect env pl) (resKeeps_check (readNow_noEffect env pl) ?_))
  have hread := readPlan_counts env pl
  exact resKeeps_ite (hread ▸ waitDone_keeps _ r.d scope) (resKeeps_ite hread hread)

theorem execSqwait_keeps (r : RI) (s : State) : NextKeeps (counts s) (execSqwait r s) := by
  refine nextKeeps_issue rfl fun env => ?_
  extract_lets scope n a
  refine resKeeps_ite trivial ?_
  split
  · trivial
  · exact resKeeps_ite trivial (resKeeps_ite (waitDone_keeps env r.d scope) (resKeeps_ite rfl rfl))

theorem execJcancel_keeps (r : RRR) (s : State) : NextKeeps (counts s) (execJcancel r s) := by
  refine nextKeeps_issue rfl fun env => resKeeps_ite trivial ?_
  split
  · exact rfl
  · exact resKeeps_ite rfl (resKeeps_ite rfl rfl)

theorem execQpush_keeps (r : RRR) (s : State) : NextKeeps (counts s) (execQpush r s) := by
  refine nextKeeps_issue rfl fun env => ?_
  extract_lets die dest
  clear_value dest
  cases dest with
  | none => trivial
  | some q =>
    refine resKeeps_ite trivial ?_
    split
    · trivial
    · rename_i e hrel
      exact (putItems_counts _ _ _ _ _ _ _ _).trans (releaseAt_counts hrel)

/-! ### The matrix engine -/

theorem execAsto_keeps (r : RRR) (s : State) : NextKeeps (counts s) (execAsto r s) := by
  refine nextKeeps_issue rfl fun env => ?_
  extract_lets d w
  split
  · trivial
  · exact resKeeps_ite trivial (resKeeps_ite trivial (resKeeps_ite trivial rfl))

theorem execAldr_keeps (r : RRR) (s : State) : NextKeeps (counts s) (execAldr r s) := by
  refine nextKeeps_issue rfl fun env => ?_
  extract_lets d w af go
  refine resKeeps_ite trivial (resKeeps_ite trivial (resKeeps_ite trivial ?_))
  split
  · exact resKeeps_ite trivial rfl
  · refine resKeeps_ite trivial ?_
    split
    · rename_i x hx
      obtain ⟨t, rfl⟩ := newTile_trap hx
      trivial
    · rename_i q hq
      have htile : counts q.2.dev = counts env.dev := congrArg counts (newTile_dev.2 q hq)
      exact htile

theorem execAmovv_keeps (r : RRR) (s : State) : NextKeeps (counts s) (execAmovv r s) := by
  refine nextKeeps_issue rfl fun env => resKeeps_ite trivial ?_
  split
  · trivial
  · exact resKeeps_ite trivial (resKeeps_check (trapLanes_noEffect env _ _ _) rfl)

/-! ### Barriers and messages -/

theorem execBsync_keeps (r : RI) (s : State) : NextKeeps (counts s) (execBsync r s) := by
  refine nextKeeps_issue rfl fun env =>
    resKeeps_ite trivial (resKeeps_ite trivial (resKeeps_ite trivial (resKeeps_ite ?_ rfl)))
  split
  · rename_i e hrel
    have hreleased := releaseAt_counts hrel
    exact hreleased
  · trivial

theorem execBarr_keeps (r : RI) (s : State) : NextKeeps (counts s) (execBarr r s) := by
  refine nextKeeps_issue rfl fun env => ?_
  extract_lets n id
  split
  · exact rfl
  · exact resKeeps_ite trivial (resKeeps_ite trivial (barr_keeps env id n))

theorem execMsend_keeps (r : RRR) (s : State) : NextKeeps (counts s) (execMsend r s) := by
  refine nextKeeps_issue rfl fun env => ?_
  extract_lets d b c num w
  refine resKeeps_ite trivial (resKeeps_ite trivial (resKeeps_check (checkDesc_noEffect env d [0]) ?_))
  exact resKeeps_ite trivial (resKeeps_ite trivial (resKeeps_ite trivial (resKeeps_ite trivial (touchWindow_counts _ _ _ _ _))))

theorem execMtest_keeps (r : RRR) (s : State) : NextKeeps (counts s) (execMtest r s) := by
  refine nextKeeps_issue rfl fun env => ?_
  split
  · trivial
  · extract_lets free status tag word counted kept acquired seen
    have hseen : counts seen.dev = counts env.dev := by
      dsimp only [seen]
      split <;> exact rfl
    exact hseen

theorem execMcancel_keeps (r : RRR) (s : State) : NextKeeps (counts s) (execMcancel r s) := by
  refine nextKeeps_issue rfl fun env => ?_
  split
  · trivial
  · show counts (ite _ _ _) = counts env.dev
    rw [counts_ite]
    split <;> exact rfl

/-! ### Regions, launches, special registers and retired instructions -/

theorem execLaunch_keeps (r : RRR) (s : State) : NextKeeps (counts s) (execLaunch r s) := by
  refine nextKeeps_issue rfl fun env => resKeeps_check (checkPlan_noEffect env _) ?_
  split
  · trivial
  · rename_i e hrel
    have hreleased := release_counts hrel
    exact hreleased

theorem execCsrr_keeps (r : RI) (s : State) : NextKeeps (counts s) (execCsrr r s) := by
  refine nextKeeps_issue rfl fun env => resKeeps_check (fopCheck_noEffect env _) ?_
  split
  · exact rfl
  · trivial

theorem execCsrw_keeps (r : RI) (s : State) : NextKeeps (counts s) (execCsrw r s) := by
  refine nextKeeps_issue rfl fun env => ?_
  extract_lets v
  split
  · exact writeCsr_keeps _ _ _ _
  · exact writeCsr_keeps _ _ _ _
  · exact writeCsr_keeps _ _ _ _
  · exact writeCsr_keeps _ _ _ _
  · exact resKeeps_ite rfl trivial
  · exact rfl
  · exact resKeeps_ite trivial (resKeeps_ite rfl trivial)
  · trivial

theorem execSreg_keeps (r : RI) (s : State) : NextKeeps (counts s) (execSreg r s) := by
  refine nextKeeps_issue rfl fun env => ?_
  split
  · trivial
  · exact rfl
  · exact rfl

theorem execBarw_keeps (r : RRR) (s : State) : NextKeeps (counts s) (execBarw r s) := by
  refine nextKeeps_retired fun env => ?_
  extract_lets pl
  have hput := makeAccess_keeps env .plain pl env.p.lanes (fun _ t => .store (env.v r.d t).toNat)
  split
  · rename_i e hdone
    rw [hdone] at hput
    exact resKeeps_ite trivial (hput ▸ barr_keeps e 15 0)
  · exact hput

theorem execLdtex_keeps (r : RRR) (s : State) : NextKeeps (counts s) (execLdtex r s) := by
  refine nextKeeps_retired fun env => ?_
  extract_lets at_ head
  refine resKeeps_check (checkPlan_noEffect env head) (resKeeps_check (readNow_noEffect env head) (resKeeps_ite trivial ?_))
  refine resKeeps_check (checkPlan_noEffect _ _) (resKeeps_check (readNow_noEffect _ _) ?_)
  exact (readPlan_counts _ _).trans (readPlan_counts env head)

theorem execUnassignedOpcode_keeps (w : Word) (s : State) : NextKeeps (counts s) (execUnassignedOpcode w s) := by
  unfold execUnassignedOpcode
  split
  · trivial
  · rename_i env hopen
    rw [← openIssue_dev hopen]
    extract_lets base fw
    refine (settle_counts .plain (wordTrap_keeps _ fw _)).trans ?_
    dsimp only [fw]
    split <;> exact rfl

end Sys2Proof.CountersKept
end

section
/-! PROOFS. What happens of itself, and what the driver, the host and firmware do, leaves the counters as they are, but for the events
of the counters themselves. -/

namespace Sys2Proof.CountersKept

open Sys2Proof Machine Laws MemoryForm

theorem execFairnessGrant_keeps (c w : Nat) (s : State) : NextKeeps (counts s) (execFairnessGrant c w s) := by
  simp [execFairnessGrant]

theorem execGrantEnd_keeps (c w : Nat) (s : State) : NextKeeps (counts s) (execGrantEnd c w s) := by simp [execGrantEnd]

theorem execSpinWatchdog_keeps (s : State) : NextKeeps (counts s) (execSpinWatchdog s) := by
  unfold execSpinWatchdog
  split
  · exact rfl
  · rename_i env hopen
    have hdev : env.dev = s := openIssue_dev hopen
    split <;> simp [hdev]

theorem execWjoinExpire_keeps (c w : Nat) (pc : PC) (s : State) : NextKeeps (counts s) (execWjoinExpire c w pc s) := by
  refine onWarp_counts s c w fun x w => ?_
  repeat' split
  all_goals simp

theorem execRgrowGrant_keeps (c part : Nat) (s : State) : NextKeeps (counts s) (execRgrowGrant c part s) := by
  unfold execRgrowGrant
  repeat' split
  all_goals simp

theorem execNapEnd_keeps (c w : Nat) (s : State) : NextKeeps (counts s) (execNapEnd c w s) := by simp [execNapEnd]

theorem execResultReturn_keeps (c id : Nat) (s : State) : NextKeeps (counts s) (execResultReturn c id s) := by
  unfold execResultReturn
  repeat' split
  all_goals simp

theorem execWaitConditionMet_keeps (c u : Nat) (s : State) : NextKeeps (counts s) (execWaitConditionMet c u s) := by
  unfold execWaitConditionMet
  repeat' split
  all_goals simp

theorem execWaitExpire_keeps (c u : Nat) (s : State) : NextKeeps (counts s) (execWaitExpire c u s) := by
  unfold execWaitExpire
  repeat' split
  all_goals simp

theorem execAmovvReadout_keeps (c u : Nat) (s : State) : NextKeeps (counts s) (execAmovvReadout c u s) := by
  unfold execAmovvReadout
  repeat' split
  all_goals simp

theorem execFenceComplete_keeps (c u : Nat) (s : State) : NextKeeps (counts s) (execFenceComplete c u s) := by
  unfold execFenceComplete
  repeat' split
  all_goals simp

theorem execRemoteAccessFail_keeps (c id : Nat) (s : State) : NextKeeps (counts s) (execRemoteAccessFail c id s) := by
  unfold execRemoteAccessFail
  repeat' split
  all_goals simp

theorem execMcastMemberTimeout_keeps (c id member : Nat) (answered : Bool) (s : State) :
    NextKeeps (counts s) (execMcastMemberTimeout c id member answered s) := by
  unfold execMcastMemberTimeout
  repeat' split
  all_goals simp

theorem execJpostAccept_keeps (c cl ch : Nat) (s : State) : NextKeeps (counts s) (execJpostAccept c cl ch s) := by
  unfold execJpostAccept
  repeat' split
  all_goals simp

theorem execChainCardAccept_keeps (c cl ch : Nat) (s : State) : NextKeeps (counts s) (execChainCardAccept c cl ch s) := by
  unfold execChainCardAccept
  dsimp only
  repeat' split
  all_goals simp

theorem execCardStart_keeps (c id : Nat) (s : State) : NextKeeps (counts s) (execCardStart c id s) := by
  unfold execCardStart
  repeat' split
  all_goals simp

theorem execLoopIterationStart_keeps (c id : Nat) (s : State) : NextKeeps (counts s) (execLoopIterationStart c id s) := by
  unfold execLoopIterationStart
  repeat' split
  all_goals simp

theorem execCardLineWritten_keeps (c id line : Nat) (s : State) : NextKeeps (counts s) (execCardLineWritten c id line s) := by
  unfold execCardLineWritten
  dsimp only
  repeat' split
  all_goals simp

theorem execCardChunkDone_keeps (c id n : Nat) (s : State) : NextKeeps (counts s) (execCardChunkDone c id n s) := by
  unfold execCardChunkDone
  dsimp only
  repeat' split
  all_goals simp

theorem execCardComplete_keeps (c id : Nat) (s : State) : NextKeeps (counts s) (execCardComplete c id s) := by
  unfold execCardComplete
  dsimp only
  repeat' split
  all_goals simp

theorem execMmaComplete_keeps (c id : Nat) (s : State) : NextKeeps (counts s) (execMmaComplete c id s) := by
  unfold execMmaComplete
  repeat' split
  all_goals simp

theorem execAstoComplete_keeps (c id : Nat) (s : State) : NextKeeps (counts s) (execAstoComplete c id s) := by
  unfold execAstoComplete
  dsimp only
  repeat' split
  all_goals simp

theorem execAldrComplete_keeps (c id : Nat) (s : State) : NextKeeps (counts s) (execAldrComplete c id s) := by
  unfold execAldrComplete
  dsimp only
  repeat' split
  all_goals simp

theorem execBsyncRelease_keeps (c die ch : Nat) (s : State) : NextKeeps (counts s) (execBsyncRelease c die ch s) := by
  unfold execBsyncRelease
  repeat' split
  all_goals simp

theorem execBarrRelease_keeps (c blk id : Nat) (s : State) : NextKeeps (counts s) (execBarrRelease c blk id s) := by
  unfold execBarrRelease
  repeat' split
  all_goals simp

theorem execBcastArrive_keeps (c id : Nat) (s : State) : NextKeeps (counts s) (execBcastArrive c id s) := by
  unfold execBcastArrive
  repeat' split
  all_goals simp

theorem execReservationGrant_keeps (pkg die : Nat) (s : State) : NextKeeps (counts s) (execReservationGrant pkg die s) := by
  unfold execReservationGrant
  repeat' split
  all_goals simp
  rename_i hread
  exact readPiece_counts hread

theorem execMsendComplete_keeps (c u : Nat) (s : State) : NextKeeps (counts s) (execMsendComplete c u s) := by
  unfold execMsendComplete
  repeat' split
  all_goals simp

theorem execMessageMatch_keeps (die : Nat) (a : Arrival) (s : State) : NextKeeps (counts s) (execMessageMatch die a s) := by
  unfold execMessageMatch
  repeat' split
  all_goals simp

theorem execPieceLand_keeps (die id : Nat) (s : State) : NextKeeps (counts s) (execPieceLand die id s) := by
  unfold execPieceLand
  repeat' split
  all_goals simp

theorem execActiveMessageDeliver_keeps (die : Nat) (m : ActiveArrival) (s : State) :
    NextKeeps (counts s) (execActiveMessageDeliver die m s) := by
  unfold execActiveMessageDeliver
  dsimp only
  repeat' split
  all_goals simp
  rename_i hdeliver
  exact deliverActive_counts hdeliver

theorem execLandfaultEntryFree_keeps (die id : Nat) (s : State) : NextKeeps (counts s) (execLandfaultEntryFree die id s) := by
  unfold execLandfaultEntryFree
  split <;> simp

theorem execHostDoorbell_keeps (c slot : Nat) (ring : Doorbell) (s : State) : NextKeeps (counts s) (execHostDoorbell c slot ring s) := by
  unfold execHostDoorbell
  dsimp only
  repeat' split
  all_goals simp

theorem execLaunchAccept_keeps (c : Nat) (s : State) : NextKeeps (counts s) (execLaunchAccept c s) := by
  unfold execLaunchAccept
  dsimp only
  repeat' split
  all_goals simp

theorem execBlockAdmit_keeps (c die : Nat) (s : State) : NextKeeps (counts s) (execBlockAdmit c die s) := by
  unfold execBlockAdmit
  repeat' split
  all_goals simp

theorem execStageBlockDispatch_keeps (c die stage : Nat) (s : State) : NextKeeps (counts s) (execStageBlockDispatch c die stage s) := by
  unfold execStageBlockDispatch
  dsimp only
  repeat' split
  all_goals simp

theorem execCoreReassign_keeps (c core : Nat) (s : State) : NextKeeps (counts s) (execCoreReassign c core s) := by
  unfold execCoreReassign
  split <;> simp

theorem execLaunchComplete_keeps (c q : Nat) (s : State) : NextKeeps (counts s) (execLaunchComplete c q s) := by
  unfold execLaunchComplete
  dsimp only
  repeat' split
  all_goals simp

theorem execLaunchKill_keeps (c q : Nat) (s : State) : NextKeeps (counts s) (execLaunchKill c q s) := by
  unfold execLaunchKill
  split <;> simp

theorem execSliceExpire_keeps (c : Nat) (s : State) : NextKeeps (counts s) (execSliceExpire c s) := by
  unfold execSliceExpire
  split <;> simp

theorem execPreemptSignal_keeps (c w : Nat) (s : State) : NextKeeps (counts s) (execPreemptSignal c w s) := by
  simp [execPreemptSignal]

theorem execForcedStop_keeps (c w : Nat) (s : State) : NextKeeps (counts s) (execForcedStop c w s) := by simp [execForcedStop]

theorem execContextIdleExchange_keeps (c : Nat) (s : State) : NextKeeps (counts s) (execContextIdleExchange c s) := by
  unfold execContextIdleExchange
  split <;> simp

theorem execContextExchange_keeps (c : Nat) (s : State) : NextKeeps (counts s) (execContextExchange c s) := by
  unfold execContextExchange
  dsimp only
  repeat' split
  all_goals simp

theorem execContextCreate_keeps (p : CtxParams) (s : State) : NextKeeps (counts s) (execContextCreate p s) := by
  simp [execContextCreate]

theorem execContextEnd_keeps (c : Nat) (s : State) : NextKeeps (counts s) (execContextEnd c s) := by
  unfold execContextEnd
  split <;> simp

theorem execTenantRotation_keeps (c : Nat) (inward : Bool) (s : State) : NextKeeps (counts s) (execTenantRotation c inward s) := by
  unfold execTenantRotation
  split <;> simp

@[simp] theorem fetchTrap_counts (s : State) (c u : Nat) (cause : Cause) (recs : List (Word × Word)) (told : List Word) :
    counts (fetchTrap s c u cause recs told) = counts s := by
  unfold fetchTrap
  split
  · rfl
  · rename_i env hopen
    have htrap := settle_counts (env := env) .plain (resKeeps_trap _
      { cause := cause, tval := env.e.pc.setWidth 64, mask := env.e.mask, recs := recs, told := told })
    rw [openIssue_dev hopen] at htrap
    exact htrap

theorem execFetchFaultSwap_keeps (c w : Nat) (s : State) : NextKeeps (counts s) (execFetchFaultSwap c w s) := by
  refine onWarp_counts s c w fun x w => ?_
  extract_lets ready
  clear_value ready
  repeat' split
  all_goals simp

theorem execBlockSwapIn_keeps (c blk : Nat) (r : DriverReply) (s : State) : NextKeeps (counts s) (execBlockSwapIn c blk r s) := by
  unfold execBlockSwapIn
  repeat' split
  all_goals simp

theorem execDemandPaging_keeps (c w : Nat) (r : DriverReply) (s : State) : NextKeeps (counts s) (execDemandPaging c w r s) := by
  refine onWarp_counts s c w fun x w => ?_
  repeat' split
  all_goals simp

theorem execPageMigration_keeps (die c va pfn : Nat) (ok : Bool) (s : State) :
    NextKeeps (counts s) (execPageMigration die c va pfn ok s) := by
  unfold execPageMigration
  repeat' split
  all_goals simp

theorem execTlbShootdown_keeps (c va : Nat) (s : State) : NextKeeps (counts s) (execTlbShootdown c va s) := by
  unfold execTlbShootdown
  split <;> simp

theorem execErrorCorrected_keeps (e : ErrorEvent) (s : State) : NextKeeps (counts s) (execErrorCorrected e s) := by
  unfold execErrorCorrected
  split <;> simp

theorem execUncorrectableError_keeps (e : ErrorEvent) (s : State) : NextKeeps (counts s) (execUncorrectableError e s) := by
  unfold execUncorrectableError
  split <;> simp

theorem execNfeatWrite_keeps (v : Word) (s : State) : NextKeeps (counts s) (execNfeatWrite v s) := by
  unfold execNfeatWrite
  split <;> simp

theorem execFunctionReady_keeps (bit : Nat) (s : State) : NextKeeps (counts s) (execFunctionReady bit s) := by
  simp [execFunctionReady]

theorem execPortDead_keeps (k : Nat) (s : State) : NextKeeps (counts s) (execPortDead k s) := by
  unfold execPortDead
  split <;> simp

theorem execPortRetrain_keeps (k : Nat) (s : State) : NextKeeps (counts s) (execPortRetrain k s) := by
  unfold execPortRetrain
  split <;> simp

theorem execFatalFaultRecovery_keeps (r : RecoveryPlan) (s : State) : NextKeeps (counts s) (execFatalFaultRecovery r s) := by
  unfold execFatalFaultRecovery
  split <;> simp

theorem execSupplyDroop_keeps (die extra : Nat) (s : State) : NextKeeps (counts s) (execSupplyDroop die extra s) := by
  simp [execSupplyDroop]

end Sys2Proof.CountersKept
end

section
/-! PROOFS. No step lowers the counters that outlive a reset, and each stays within its bound (R352, R359, R360, R362). -/

namespace Sys2Proof.CountersKept

open Sys2Proof Machine Laws MemoryForm

/-! ### How the counters may change -/

/-- FSV is at most the fuses that are blown, and these and the goal of a rise at most 128. -/
def Counts.Bounded (a : Counts) : Prop := a.fsv ≤ a.fuses ∧ a.fuses ≤ 128 ∧ a.goal ≤ 128

/-- The counters of a later state: none is lower, and the bounds still hold. -/
structure Counts.Grows (a b : Counts) : Prop where
  bounded : b.Bounded
  fsv : a.fsv ≤ b.fsv
  fuses : a.fuses ≤ b.fuses
  index : a.index ≤ b.index
  jwp : a.jwp ≤ b.jwp
  jap : a.jap ≤ b.jap
  index_le : a.index ≤ 2 ^ 40 → b.index ≤ 2 ^ 40
  jap_le : a.jap ≤ a.jwp → b.jap ≤ b.jwp

theorem Counts.Grows.refl {a : Counts} (h : a.Bounded) : a.Grows a :=
  ⟨h, Nat.le_refl _, Nat.le_refl _, Nat.le_refl _, Nat.le_refl _, Nat.le_refl _, id, id⟩

theorem Counts.Grows.of_eq {a b : Counts} (h : a.Bounded) (hb : b = a) : a.Grows b := by
  subst hb
  exact .refl h

theorem Counts.Grows.trans {a b c : Counts} (h : a.Grows b) (k : b.Grows c) : a.Grows c :=
  ⟨k.bounded, Nat.le_trans h.fsv k.fsv, Nat.le_trans h.fuses k.fuses, Nat.le_trans h.index k.index,
    Nat.le_trans h.jwp k.jwp, Nat.le_trans h.jap k.jap, k.index_le ∘ h.index_le, k.jap_le ∘ h.jap_le⟩

/-- A function of the state lets the counters grow. -/
def Raises (f : State → State) : Prop := ∀ s, (counts s).Bounded → (counts s).Grows (counts (f s))

/-- The next state, where there is one, has counters that have grown. -/
def NextGrows (a : Counts) : Host.Outcome State Fault Refusal → Prop
  | .next t => a.Grows (counts t)
  | .fault _ => True
  | .refused _ => True

theorem raises_of_counts {f : State → State} (h : ∀ s, counts (f s) = counts s) : Raises f := fun s hb => .of_eq hb (h s)

theorem Raises.comp {f g : State → State} (hf : Raises f) (hg : Raises g) : Raises (fun s => g (f s)) :=
  fun s hb => (hf s hb).trans (hg _ (hf s hb).bounded)

theorem Raises.ite {f g : State → State} {c : State → Bool} (hf : Raises f) (hg : Raises g) :
    Raises (fun s => if c s then f s else g s) := by
  intro s hb
  dsimp only
  split
  · exact hf s hb
  · exact hg s hb

theorem raises_foldl {α : Type} {f : State → α → State} (hf : ∀ a, Raises (fun s => f s a)) (l : List α) :
    Raises (fun s => l.foldl f s) := by
  induction l with
  | nil => exact fun s hb => .refl hb
  | cons a r ih => exact (hf a).comp ih

theorem nextGrows_of_keeps {a : Counts} {o : Host.Outcome State Fault Refusal} (hb : a.Bounded) (ho : NextKeeps a o) :
    NextGrows a o := by
  cases o with
  | next t => exact .of_eq hb ho
  | fault f => trivial
  | refused r => trivial

theorem nextGrows_next {a : Counts} {o : Host.Outcome State Fault Refusal} {t : State} (ho : NextGrows a o) (hnext : o = .next t) :
    a.Grows (counts t) := by
  rw [hnext] at ho
  exact ho

/-! ### The journal -/

/-- A record is one more in the journal. -/
theorem putRecord_raises (src loc : Word) : Raises (fun s => s.putRecord src loc) :=
  fun s hb => ⟨hb, Nat.le_refl _, Nat.le_refl _, Nat.le_refl _, Nat.le_succ s.jwp, Nat.le_refl _, id, Nat.le_succ_of_le⟩

/-- A signature is made by the next key, while one is left. -/
theorem signSeal_raises (k : Nat) : Raises (fun s => s.signSeal k) := by
  intro s hb
  show (counts s).Grows (counts (s.signSeal k))
  unfold State.signSeal
  split
  · rename_i hleft
    have hlt : s.sigIndex < 2 ^ 40 := by simpa using (Bool.and_eq_true_iff.mp hleft).2
    exact ⟨hb, Nat.le_refl _, Nat.le_refl _, Nat.le_succ s.sigIndex, Nat.le_refl _, Nat.le_refl _, fun _ => hlt, id⟩
  · exact .refl hb

theorem sealStep_raises : Raises State.sealStep := by
  intro s hb
  unfold State.sealStep
  split
  · exact .refl hb
  · split
    · exact ((putRecord_raises _ _).comp (signSeal_raises _)) s hb
    · exact .of_eq hb (dropRecord_counts s)

theorem append_raises (src loc : Word) : Raises (fun s => s.append src loc) :=
  Raises.ite ((putRecord_raises src loc).comp sealStep_raises) (raises_of_counts dropRecord_counts)

theorem recordDrops_raises : Raises State.recordDrops := by
  intro s hb
  unfold State.recordDrops
  split
  · exact ((putRecord_raises _ _).comp sealStep_raises) { s with jdrop := 0 } hb
  · exact .refl hb

theorem appendAll_grows (rs : List (Word × Word)) {s : State} (hb : (counts s).Bounded) :
    (counts s).Grows (counts (rs.foldl (fun s r => s.append r.1 r.2) s)) :=
  raises_foldl (f := fun s (r : Word × Word) => s.append r.1 r.2) (fun r => append_raises r.1 r.2) rs s hb

/-- The records of a cycle, with that of the dropped events before them. -/
theorem flushRecords_raises : Raises State.flushRecords := by
  intro s hb
  have hdrops : (counts s).Grows (counts (if s.rdy.getLsbD 40 then s.recordDrops else s)) := by
    split
    · exact recordDrops_raises s hb
    · exact .refl hb
  unfold State.flushRecords
  generalize (if s.rdy.getLsbD 40 then s.recordDrops else s) = t at hdrops ⊢
  exact hdrops.trans (appendAll_grows _ (s := { t with recBuf := [] }) hdrops.bounded)

/-! ### Fuses, reset and the events of the counters -/

/-- The fuses of a rise go no higher than its goal, and FSV follows with the last (R360). -/
theorem blowFuses_raises : Raises State.blowFuses := by
  intro s hb
  obtain ⟨hfsv, hfuses, hgoal⟩ := hb
  have hfsv : s.fsv ≤ s.fuses := hfsv
  have hgoal : s.fsvGoal ≤ 128 := hgoal
  unfold State.blowFuses
  split
  · rename_i hrise
    extract_lets n
    have hn : s.fuses < n ∧ n ≤ s.fsvGoal := by dsimp only [n]; split <;> omega
    obtain ⟨hlow, hhigh⟩ := hn
    clear_value n
    refine ⟨⟨?_, Nat.le_trans hhigh hgoal, hgoal⟩, ?_, Nat.le_of_lt hlow, Nat.le_refl _, Nat.le_refl _, Nat.le_refl _, id, id⟩
    · show (if n = s.fsvGoal then n else s.fsv) ≤ n
      split <;> omega
    · show s.fsv ≤ if n = s.fsvGoal then n else s.fsv
      split <;> omega
  · exact .refl ⟨hfsv, hfuses, hgoal⟩

/-- What a reset keeps: FSV takes in the fuses that are blown (R359, R360). -/
theorem restart_raises : Raises State.restart := by
  intro s hb
  have hflush := flushRecords_raises s hb
  obtain ⟨hfsv, hfuses, hgoal⟩ := hflush.bounded
  have hkept : counts s.restart =
      ⟨s.flushRecords.fuses, s.flushRecords.fuses, 0, s.flushRecords.sigIndex, s.flushRecords.jwp, s.flushRecords.jap⟩ := by
    simp only [State.restart, copyTable_counts]
    rfl
  rw [hkept]
  exact ⟨⟨Nat.le_refl _, hfuses, Nat.zero_le _⟩, Nat.le_trans hflush.fsv hfsv, hflush.fuses, hflush.index, hflush.jwp, hflush.jap,
    hflush.index_le, hflush.jap_le⟩

theorem execJapWrite_grows (v : Nat) {s : State} (hb : (counts s).Bounded) : NextGrows (counts s) (execJapWrite v s) := by
  show (counts s).Grows (counts (if _ then _ else s))
  split
  · rename_i hv
    simp only [Bool.and_eq_true, decide_eq_true_eq] at hv
    exact ⟨hb, Nat.le_refl _, Nat.le_refl _, Nat.le_refl _, Nat.le_refl _, hv.1, id, fun _ => hv.2⟩
  · exact .refl hb

theorem execFsvRaise_grows (v : Nat) {s : State} (hb : (counts s).Bounded) : NextGrows (counts s) (execFsvRaise v s) := by
  show (counts s).Grows (counts (if _ then _ else s))
  split
  · rename_i hv
    simp only [Bool.and_eq_true, decide_eq_true_eq] at hv
    obtain ⟨⟨⟨⟨-, hgoal⟩, -⟩, -⟩, -⟩ := hv
    exact ⟨⟨hb.1, hb.2.1, hgoal⟩, Nat.le_refl _, Nat.le_refl _, Nat.le_refl _, Nat.le_refl _, Nat.le_refl _, id, id⟩
  · exact .refl hb

theorem execAttestationRequest_grows (nonce : Word) {s : State} (hb : (counts s).Bounded) :
    NextGrows (counts s) (execAttestationRequest nonce s) := by
  show (counts s).Grows (counts (if _ then _ else s))
  split
  · rename_i hleft
    exact ⟨hb, Nat.le_refl _, Nat.le_refl _, Nat.le_succ s.sigIndex, Nat.le_refl _, Nat.le_refl _, fun _ => hleft, id⟩
  · exact .refl hb

/-! ### Instructions and events -/

/-- An instruction or event that is none of those of the counters. -/
def Steady : Instr → Prop
  | .reset | .powerLoss | .japWrite _ | .fsvRaise _ | .attestationRequest _ => False
  | _ => True

/-- Every instruction and event but those of the counters leaves them as they are. -/
theorem exec_keeps {i : Instr} (hi : Steady i) (s : State) : NextKeeps (counts s) (exec i s) := by
  cases i with
  | nop _ | bra _ | bruAny _ | wjoin _ | yield _ | prioImm _ | prioReg _ | sadd _ | ssub _ | smul _ | smulh _ | sand _ | sor _
  | sxor _ | sshl _ | sshr _ | ssra _ | smin _ | smax _ | saddi _ | sldi _ | sldhi _ | scmp _ | ssel _ | sget _ | sgetFirst _
  | vbc _ | iadd _ | isub _ | imul _ | imulh _ | imad _ | iand _ | ior _ | ixor _ | ishl _ | ishr _ | isra _ | imin _ | imax _
  | icmp _ | isel _ | iselM _ | ipopc _ | iclz _ | ibfe _ | ibfi _ | lea _ | iaddi _ | iandi _ | iori _ | ixori _ | ishli _
  | ishri _ | icmpi _ | icmpm _ | mov _ | movi _ | moviHi _ | fmin _ | fmax _ | fclass _ | fpack _ | shfl _ | shflud _ | vote _
  | matchEq _ | mrank _ | mlead _ | elect _ | plog _ | pmov _ | pmovSet _ | pbal _ | redux _ | scan _ | fence _ | aqry _
  | fdrr _ | fwcallCapability _ | fwcallJournal _ =>
    exact nextKeeps_frame rfl fun _ => rfl
  | bruAll _ => exact nextKeeps_frame rfl fun env => by split <;> rfl
  | fcmp _ => exact nextKeeps_frame rfl fun env => by dsimp only; split <;> rfl
  | napImm _ | napReg _ => exact nextKeeps_frame rfl fun env => nap_dev env _
  | azero _ | arel _ => exact nextKeeps_issueDone rfl fun env => by dsimp only; split <;> exact rfl
  | trap _ | bkpt _ => exact nextKeeps_issue rfl fun _ => trivial
  | tmod _ | bcast _ | brecv _ | mprobe _ | gen _ | rshrk _ => exact nextKeeps_issue rfl fun _ => resKeeps_ite trivial rfl
  | csrwFres _ | pdone _ | fwcallVersion _ => exact nextKeeps_issue rfl fun _ => resKeeps_ite rfl trivial
  | yld _ | gdone _ | gnext _ =>
    exact nextKeeps_issue rfl fun env => by
      split
      · trivial
      · rfl
  | fadd _ | fsub _ | fmul _ | fdiv _ | fsqrt _ | frcp _ | frsq _ | fexp2 _ | flog2 _ | ffma _ | faddi _ | fmuli _ | ffmai _
  | fscale _ | fabsn _ | frnd _ | fsum _ | fdot _ | scanFadd _ =>
    exact nextKeeps_issue rfl fun _ => encodeLanes_keeps _ _ _ _ _ _
  | fcvt _ | ftoi _ | itof _ | fbscl _ =>
    exact nextKeeps_issueThen (starts_noEffect _ _ _ _ _) (fun _ => convert_keeps _ _ _ _ _ _ _ _ _) fun _ => rfl
  | ld _ | lds _ | ldv _ | ldacq _ | ldpv _ | ld2 _ | ldp _ | ldu _ | st2 _ | stp _ | stu _ | acas _ | st _ | sts _ | stv _
  | strel _ | stpv _ | atom _ | atoms _ | atomv _ =>
    exact nextKeeps_issue rfl fun _ => makeAccess_keeps _ _ _ _ _
  | ldg _ | stsc _ => exact nextKeeps_issue rfl fun env => resKeeps_check (checkDp_noEffect env _) (makeAccess_keeps _ _ _ _ _)
  | fatom _ =>
    exact nextKeeps_issue rfl fun env => resKeeps_check (checkShape_noEffect env _) (resKeeps_ite trivial (makeAccess_keeps _ _ _ _ _))
  | presq _ => exact nextKeeps_issue rfl fun env => resKeeps_check (trapLanes_noEffect env _ _ _) rfl
  | pfetch _ => exact nextKeeps_issueDone rfl fun _ => prefetch_counts _ _
  | mst _ | msto _ => exact nextKeeps_issue rfl fun _ => multicast_keeps _ _ _
  | sinv _ | sinvSet _ => exact nextKeeps_issue rfl fun _ => sinv_keeps _ _ _
  | mma _ | mmaCo _ | mmas _ | mmasCo _ => exact nextKeeps_issue rfl fun _ => mma_keeps _ _
  | gtake _ | gtakeLn _ => exact nextKeeps_issue rfl fun _ => gtake_keeps _ _ _
  | csrwCtx _ | csrwFairt _ | csrwFairq _ | csrwWdog _ | csrwGencfg _ => exact nextKeeps_issue rfl fun _ => writeCsr_keeps _ _ _ _
  | brx _ => exact nextKeeps_issue rfl fun _ => resKeeps_check (checkTarget_noEffect _ _) rfl
  | call _ => exact nextKeeps_issue rfl fun _ => callTo_keeps _ _ _
  | callx _ => exact nextKeeps_issue rfl fun _ => resKeeps_check (checkTarget_noEffect _ _) (callTo_keeps _ _ _)
  | ret _ => exact nextKeeps_issue rfl fun _ => ret_keeps _
  | eret _ | eretNext _ => exact nextKeeps_eret
  | hadd _ | hmul _ | hfma _ | bhadd _ | bhmul _ | bhfma _ => exact nextKeeps_retired fun _ => rfl
  | tdesc _ => exact nextKeeps_issue rfl fun _ => resKeeps_ite trivial (resKeeps_ite trivial (resKeeps_ite trivial rfl))
  | asend _ =>
    exact nextKeeps_issue rfl fun _ => resKeeps_ite trivial (resKeeps_ite trivial (resKeeps_ite trivial (resKeeps_ite trivial rfl)))
  | fdrw _ => exact nextKeeps_issue rfl fun _ => resKeeps_ite (resKeeps_ite rfl trivial) rfl
  | rgrow _ => exact nextKeeps_issue rfl fun _ => resKeeps_ite trivial (resKeeps_ite rfl rfl)
  | mpost _ => exact nextKeeps_issue rfl fun _ => mpost_keeps _ _ _
  | exit _ => exact execExit_keeps _ s
  | shflx _ => exact execShflx_keeps _ s
  | fredx _ => exact execFredx_keeps _ s
  | jpost _ => exact execJpost_keeps _ s
  | chsetRing _ => exact execChsetRing_keeps _ s
  | chsetChain _ => exact execChsetChain_keeps _ s
  | twait _ => exact execTwait_keeps _ s
  | sqwait _ => exact execSqwait_keeps _ s
  | jcancel _ => exact execJcancel_keeps _ s
  | qpush _ => exact execQpush_keeps _ s
  | asto _ => exact execAsto_keeps _ s
  | aldr _ => exact execAldr_keeps _ s
  | amovv _ => exact execAmovv_keeps _ s
  | bsync _ => exact execBsync_keeps _ s
  | barr _ => exact execBarr_keeps _ s
  | msend _ => exact execMsend_keeps _ s
  | mtest _ => exact execMtest_keeps _ s
  | mcancel _ => exact execMcancel_keeps _ s
  | launch _ => exact execLaunch_keeps _ s
  | csrr _ => exact execCsrr_keeps _ s
  | csrw _ => exact execCsrw_keeps _ s
  | sreg _ => exact execSreg_keeps _ s
  | barw _ => exact execBarw_keeps _ s
  | ldtex _ => exact execLdtex_keeps _ s
  | unassignedOpcode _ => exact execUnassignedOpcode_keeps _ s
  | fairnessGrant _ _ => exact execFairnessGrant_keeps _ _ s
  | grantEnd _ _ => exact execGrantEnd_keeps _ _ s
  | spinWatchdog => exact execSpinWatchdog_keeps s
  | wjoinExpire _ _ _ => exact execWjoinExpire_keeps _ _ _ s
  | rgrowGrant _ _ => exact execRgrowGrant_keeps _ _ s
  | napEnd _ _ => exact execNapEnd_keeps _ _ s
  | resultReturn _ _ => exact execResultReturn_keeps _ _ s
  | waitConditionMet _ _ => exact execWaitConditionMet_keeps _ _ s
  | waitExpire _ _ => exact execWaitExpire_keeps _ _ s
  | accessPerform _ _ _ => exact goAccess_counts _ _ _ _
  | fenceComplete _ _ => exact execFenceComplete_keeps _ _ s
  | remoteAccessFail _ _ => exact execRemoteAccessFail_keeps _ _ s
  | jpostAccept _ _ _ => exact execJpostAccept_keeps _ _ _ s
  | chainCardAccept _ _ _ => exact execChainCardAccept_keeps _ _ _ s
  | cardStart _ _ => exact execCardStart_keeps _ _ s
  | loopIterationStart _ _ => exact execLoopIterationStart_keeps _ _ s
  | cardLineWritten _ _ _ => exact execCardLineWritten_keeps _ _ _ s
  | cardChunkDone _ _ _ => exact execCardChunkDone_keeps _ _ _ s
  | cardComplete _ _ => exact execCardComplete_keeps _ _ s
  | mmaComplete _ _ => exact execMmaComplete_keeps _ _ s
  | astoComplete _ _ => exact execAstoComplete_keeps _ _ s
  | aldrComplete _ _ => exact execAldrComplete_keeps _ _ s
  | amovvReadout _ _ => exact execAmovvReadout_keeps _ _ s
  | bsyncRelease _ _ _ => exact execBsyncRelease_keeps _ _ _ s
  | barrRelease _ _ _ => exact execBarrRelease_keeps _ _ _ s
  | bcastArrive _ _ => exact execBcastArrive_keeps _ _ s
  | reservationGrant _ _ => exact execReservationGrant_keeps _ _ s
  | msendComplete _ _ => exact execMsendComplete_keeps _ _ s
  | messageMatch _ _ => exact execMessageMatch_keeps _ _ s
  | pieceLand _ _ => exact execPieceLand_keeps _ _ s
  | activeMessageDeliver _ _ => exact execActiveMessageDeliver_keeps _ _ s
  | mcastMemberTimeout _ _ _ _ => exact execMcastMemberTimeout_keeps _ _ _ _ s
  | hostDoorbell _ _ _ => exact execHostDoorbell_keeps _ _ _ s
  | launchAccept _ => exact execLaunchAccept_keeps _ s
  | blockAdmit _ _ => exact execBlockAdmit_keeps _ _ s
  | stageBlockDispatch _ _ _ => exact execStageBlockDispatch_keeps _ _ _ s
  | coreReassign _ _ => exact execCoreReassign_keeps _ _ s
  | launchComplete _ _ => exact execLaunchComplete_keeps _ _ s
  | launchKill _ _ => exact execLaunchKill_keeps _ _ s
  | sliceExpire _ => exact execSliceExpire_keeps _ s
  | preemptSignal _ _ => exact execPreemptSignal_keeps _ _ s
  | forcedStop _ _ => exact execForcedStop_keeps _ _ s
  | contextIdleExchange _ => exact execContextIdleExchange_keeps _ s
  | contextExchange _ => exact execContextExchange_keeps _ s
  | contextCreate _ => exact execContextCreate_keeps _ s
  | fetchFaultSwap _ _ => exact execFetchFaultSwap_keeps _ _ s
  | blockSwapIn _ _ _ => exact execBlockSwapIn_keeps _ _ _ s
  | pageMigration _ _ _ _ _ => exact execPageMigration_keeps _ _ _ _ _ s
  | tlbShootdown _ _ => exact execTlbShootdown_keeps _ _ s
  | errorCorrected _ => exact execErrorCorrected_keeps _ s
  | nfeatWrite _ => exact execNfeatWrite_keeps _ s
  | functionReady _ => exact execFunctionReady_keeps _ s
  | portDead _ => exact execPortDead_keeps _ s
  | portRetrain _ => exact execPortRetrain_keeps _ s
  | fatalFaultRecovery _ => exact execFatalFaultRecovery_keeps _ s
  | supplyDroop _ _ => exact execSupplyDroop_keeps _ _ s
  | contextEnd _ => exact execContextEnd_keeps _ s
  | tenantRotation _ _ => exact execTenantRotation_keeps _ _ s
  | demandPaging _ _ _ => exact execDemandPaging_keeps _ _ _ s
  | uncorrectableError _ => exact execUncorrectableError_keeps _ s
  | landfaultEntryFree _ _ => exact execLandfaultEntryFree_keeps _ _ s
  | reset | powerLoss | japWrite _ | fsvRaise _ | attestationRequest _ => exact hi.elim

/-- Every instruction and every event of the model. -/
theorem exec_grows (i : Instr) {s : State} (hb : (counts s).Bounded) : NextGrows (counts s) (exec i s) := by
  by_cases hi : Steady i
  · exact nextGrows_of_keeps hb (exec_keeps hi s)
  · cases i with
    | reset | powerLoss => exact restart_raises s hb
    | japWrite v => exact execJapWrite_grows v hb
    | fsvRaise v => exact execFsvRaise_grows v hb
    | attestationRequest nonce => exact execAttestationRequest_grows nonce hb
    | _ => exact absurd trivial hi

/-! ### The issue of a warp -/

theorem execBadWord_counts (v : Word) (c : Cause) (s : State) : counts (execBadWord v c s) = counts s := by
  unfold execBadWord
  split
  · rfl
  · rename_i env hopen
    rw [← openIssue_dev hopen]
    exact settle_counts .plain trivial

theorem runWord_grows (v : Word) {s : State} (hb : (counts s).Bounded) : NextGrows (counts s) (runWord v s) := by
  unfold runWord
  split
  · exact exec_grows _ hb
  · exact .of_eq hb (execBadWord_counts v _ s)

theorem runFirmware_grows (i : Instr) (q : Nat × Nat) {s : State} (hb : (counts s).Bounded) :
    NextGrows (counts s) (runFirmware i q s) := by
  unfold runFirmware
  have hexec : NextGrows (counts s) (exec i { s with cur := some q }) := exec_grows i (s := { s with cur := some q }) hb
  split
  · rename_i t hnext
    have ht : (counts s).Grows (counts t) := nextGrows_next hexec hnext
    show (counts s).Grows (counts _)
    split
    · exact ht.trans (.of_eq ht.bounded (onWarp_counts _ _ _ fun _ _ => setCtx_counts _ _))
    · exact ht
  · exact hexec

theorem issueFirmware_grows (v : Word) (q : Nat × Nat) {s : State} (hb : (counts s).Bounded) :
    NextGrows (counts s) (issueFirmware v q s) := by
  unfold issueFirmware
  split
  · exact runWord_grows v (s := { s with cur := some q }) hb
  · rename_i i r _
    have hrun : NextGrows (counts s) (runFirmware i q { s with agenda := r }) := runFirmware_grows i q (s := { s with agenda := r }) hb
    split
    · rename_i t hnext
      have ht : (counts s).Grows (counts t) := nextGrows_next hrun hnext
      show (counts s).Grows (counts (if _ then _ else t))
      split <;> exact ht
    · exact hrun

theorem issueAt_grows (q : Nat × Nat) {s : State} (hb : (counts s).Bounded) : NextGrows (counts s) (issueAt s q) := by
  unfold issueAt
  split
  · exact .refl hb
  · rename_i x _
    split
    · exact .refl hb
    · rename_i w _
      split
      · exact .refl hb
      · rename_i e _
        split
        · exact issueFirmware_grows w.finsn q hb
        · have hfetched : counts (fetch s x w e).1 = counts s := fetch_counts s x w e
          split
          · rename_i t v hfetch
            rw [hfetch] at hfetched
            have ht : counts t = counts s := hfetched
            rw [← ht] at hb ⊢
            exact runWord_grows v (s := { t with cur := some q }) hb
          · exact .of_eq hb (fetchTrap_counts _ _ _ _ _ _)
          · exact nextGrows_of_keeps hb (execFetchFaultSwap_keeps _ _ s)
          · exact .refl hb

theorem issueFirst_grows (part : Nat) (qs : List (Nat × Nat)) {s : State} (hb : (counts s).Bounded) :
    NextGrows (counts s) (issueFirst part qs s) := by
  induction qs generalizing s with
  | nil => exact .refl hb
  | cons q r ih =>
    unfold issueFirst
    have hissue : NextGrows (counts s) (issueAt s q) := issueAt_grows q hb
    split
    · rename_i t hnext
      have ht : (counts s).Grows (counts t) := nextGrows_next hissue hnext
      split
      · have hrest := ih ht.bounded
        cases hgo : issueFirst part r t with
        | next u =>
          rw [hgo] at hrest
          exact ht.trans hrest
        | fault f => trivial
        | refused r => trivial
      · exact ht
    · exact hissue

/-! ### What happens of itself, and the step -/

theorem happen_raises (i : Instr) : Raises (fun s => s.happen i) := by
  intro s hb
  show (counts s).Grows (counts (s.happen i))
  unfold State.happen
  split
  · rename_i t hnext
    exact nextGrows_next (exec_grows i hb) hnext
  · exact .refl hb
  · exact .refl hb

theorem happenAll_raises (is : List Instr) : Raises (fun s => s.happenAll is) := raises_foldl happen_raises is

theorem tick_raises : Raises State.tick := by
  intro s hb
  have hfront : counts s.bringTable.readAhead = counts s := by simp
  have hblown := blowFuses_raises s.bringTable.readAhead (hfront ▸ hb)
  rw [hfront] at hblown
  exact hblown.trans (flushRecords_raises _ hblown.bounded)

theorem endCycle_raises : Raises State.endCycle := by
  intro s hb
  unfold State.endCycle
  extract_lets worked posted ticked
  have hworked : (counts s).Grows (counts worked) := by
    dsimp only [worked]
    split
    · exact .refl hb
    · exact happenAll_raises _ s hb
  have hposted : (counts s).Grows (counts posted) := by
    refine hworked.trans (.of_eq hworked.bounded ?_)
    dsimp only [posted]
    split <;> simp
  have hbounds := hposted.trans (happenAll_raises (posted.ctxs.flatMap Context.bounds) posted hposted.bounded)
  have hticked : (counts s).Grows (counts ticked) := hbounds.trans (tick_raises (posted.happenAll _).refuseAll hbounds.bounded)
  exact hticked.trans (happenAll_raises _ ticked hticked.bounded)

theorem runMachine_grows {s : State} (hb : (counts s).Bounded) : NextGrows (counts s) (runMachine s) := by
  unfold runMachine
  split
  · exact issueFirst_grows _ _ hb
  · exact endCycle_raises s hb

theorem step_grows {s : State} (hb : (counts s).Bounded) : NextGrows (counts s) (step s) := by
  unfold step runStep
  split
  · exact runMachine_grows hb
  · rename_i i r _
    split
    · exact exec_grows i (s := { s with agenda := r }) hb
    · split
      · exact runMachine_grows hb
      · exact runMachine_grows (s := { s with agenda := r }) hb

/-- Settles O59: only records, seals, the pointer's writes, the blowing of fuses, attestation and a reset change the counters
(`exec_keeps`), each upward and within its bound, and a step is made of instructions, events and the end of a cycle (`step_grows`). -/
theorem countersNeverFall : Obligations.CountersNeverFall := by
  intro s t hfsv hfuses hgoal hstep
  have hgrows : (counts s).Grows (counts t) := nextGrows_next (step_grows ⟨hfsv, hfuses, hgoal⟩) hstep
  exact ⟨hgrows.bounded, ⟨hgrows.fsv, hgrows.fuses, hgrows.index, hgrows.jwp, hgrows.jap⟩, hgrows.index_le, hgrows.jap_le⟩

end Sys2Proof.CountersKept
end

section
/-! PROOFS. The entry of a trap into the user handler, and the end of a launch by a trap (R340 to R344). -/

namespace Sys2Proof.Traps

open Sys2Proof Machine Laws MemoryForm

/-! ### What is noted of a trap -/

theorem record_ctxs (s : State) (src loc : Word) : (s.record src loc).ctxs = s.ctxs := by
  unfold State.record
  split <;> rfl

/-- The records of a trap and what the driver is told leave the contexts as they are. -/
theorem noteTrap_ctxs (s : State) (t : TrapInfo) : (s.noteTrap t).ctxs = s.ctxs :=
  List.foldlRecOn (motive := fun u : State => u.ctxs = s.ctxs) t.recs _ rfl (fun _ hu _ _ => (record_ctxs _ _ _).trans hu)

/-! ### The warp as its trap finds it -/

theorem asBase_program {w : Warp} (h : w.mode = .program) : w.asBase = w := by
  simp [Warp.asBase, h]

theorem asBase_eq (w : Warp) : ∃ m, w.asBase = { w with mode := m } := by
  unfold Warp.asBase
  split
  · exact ⟨_, rfl⟩
  · exact ⟨w.mode, rfl⟩

theorem regionTrap_frontier (w : Warp) (cfg : Word) : (w.regionTrap cfg).frontier = w.frontier := by
  unfold Warp.regionTrap
  split
  · rfl
  · dsimp only
    split <;> rfl

/-- The warp of a trapping issue, with the issue counted and the switch test of its region made (R43, R247, R305). -/
def counted (env : Env) (t : TrapInfo) : Warp :=
  let w := (env.w.asBase.countFc env.ctx env.e env.top env.more).regionTrap env.ctx.gencfg
  { w with
    issues := env.w.asBase.issues + 1, wc := if t.cause = .spinWatchdog then 0 else w.wc + 1, refused := [], growRefused := false
    fc := if w.fc = env.ctx.limit && env.ctx.prog then 0 else w.fc, grantDue := 0 }

theorem takeTrap_eq (env : Env) (t : TrapInfo) : takeTrap env t = deliver { env with w := counted env t } t := rfl

/-- What the count of a trapping issue leaves of its warp. -/
structure CountedFrom (v w : Warp) (t : TrapInfo) : Prop where
  same : Same v w
  frontier : w.frontier = v.frontier
  live : w.live = v.live
  preds : w.preds = v.preds
  issues : w.issues = v.issues + 1
  wc : t.cause ≠ .spinWatchdog → w.wc = v.wc + 1

theorem counted_from (env : Env) (t : TrapInfo) : CountedFrom env.w.asBase (counted env t) t := by
  obtain ⟨hsame, hlive, hpreds, -, -, -, hfrontier, -, -, hwc⟩ := countFc_spec env.w.asBase env.ctx env.e env.top env.more
  have hkept := kept_regionTrap (env.w.asBase.countFc env.ctx env.e env.top env.more) env.ctx.gencfg
  have hregion := regionTrap_frontier (env.w.asBase.countFc env.ctx env.e env.top env.more) env.ctx.gencfg
  refine ⟨(hsame.trans hkept.same).trans (by constructor <;> rfl), hregion.trans hfrontier, hkept.live.trans hlive, hkept.preds.trans hpreds,
    rfl, fun hspin => ?_⟩
  show (if t.cause = .spinWatchdog then 0 else _) = _
  rw [if_neg hspin, hkept.wc, hwc]

/-! ### Its delivery -/

/-- A warp with the report of a trap (R340). -/
def reported (env : Env) (t : TrapInfo) : Warp :=
  { env.w with ucause := BitVec.ofNat 9 t.cause.code, uepc := env.e.pc, utval := t.tval, ufmask := t.mask }

/-- The priorities that the threads of the issuing entry save. -/
def savedPris (env : Env) : SMap (BitVec 8) := env.e.mask.lanes.foldl (fun m l => smPut 0 m l env.e.pri) []

/-- A warp that enters the user handler (R340, R341). -/
def entered (env : Env) (t : TrapInfo) : Warp :=
  { reported env t with
    frontier := [⟨255, env.ctx.vector, env.e.mask, false, env.w.issues, false, false⟩]
    saved := some { frontier := env.others env.w.frontier, park := none, grantLeft := env.w.grantLeft, wc := 0, entered := env.e.mask
                    pris := savedPris env, granted := env.e.granted, demoted := env.e.demoted }
    grantLeft := 0
    mode := .handler false }

theorem deliver_enters {env : Env} {t : TrapInfo} (h : env.canHandle t = true) :
    deliver env t = (env.dev.noteTrap t).setCtx (env.ctx.setWarp (entered env t)) := by
  have hcan : ({ env with dev := env.dev.noteTrap t } : Env).canHandle t = true := h
  simp only [deliver, hcan, if_true]
  rfl

theorem deliver_ends {env : Env} {t : TrapInfo} (h : env.canHandle t = false) :
    deliver env t = { env.dev.noteTrap t with driverLog := (env.dev.noteTrap t).driverLog ++ trapReport (reported env t) env.w.q t env.e.pc }.setCtx
      ((env.ctx.setWarp (reported env t)).endLaunch env.w.q t.cause) := by
  have hcan : ({ env with dev := env.dev.noteTrap t } : Env).canHandle t = false := h
  simp only [deliver, hcan, Bool.false_eq_true, if_false]
  rfl

theorem smGet_putAll (v : BitVec 8) (ls : List Nat) (m : SMap (BitVec 8)) (l : Nat) :
    smGet 0 (ls.foldl (fun m l => smPut 0 m l v) m) l = if l ∈ ls then v else smGet 0 m l := by
  induction ls generalizing m with
  | nil => rfl
  | cons k r ih =>
    rw [List.foldl_cons, ih]
    by_cases hr : l ∈ r
    · simp [hr]
    · by_cases hk : l = k
      · subst hk; simp
      · simp [hr, hk, smGet_put_other]

theorem savedPris_get {env : Env} {l : Nat} (h : env.e.mask.has l = true) : smGet 0 (savedPris env) l = env.e.pri := by
  rw [savedPris, smGet_putAll, if_pos ((mem_lanes _ _).mpr h)]

/-- The entries that are held stand where they stood. -/
theorem holds_others (env : Env) (es : List Entry) (l : Nat) (q : BitVec 8 × PC × Bool) :
    Holds (env.others es) l q ↔ ∃ y ∈ es, y.same env.e = false ∧ y.mask.has l = true ∧ (y.pri, y.pc, y.parked) = q := by
  constructor
  · rintro ⟨x, hx, hat⟩
    obtain ⟨y, hy, rfl⟩ := List.mem_map.mp hx
    obtain ⟨hmem, hother⟩ := List.mem_filter.mp hy
    exact ⟨y, hmem, by simpa using hother, hat⟩
  · rintro ⟨y, hmem, hother, hat⟩
    exact ⟨_, List.mem_map_of_mem (List.mem_filter.mpr ⟨hmem, by simp [hother]⟩), hat⟩

/-- Settles O21: the count of the issue changes neither the mode nor the frontier (`counted_from`), and the delivery of a trap that the
launch can handle gives the warp the handler's entry (`deliver_enters`). -/
theorem trapEntry : Obligations.TrapEntry := by
  intro env t hcan
  have hmode : env.w.mode = .program := by
    simp only [Env.canHandle, Bool.and_eq_true, decide_eq_true_eq] at hcan
    exact hcan.1.2
  have hcounted := counted_from env t
  rw [asBase_program hmode] at hcounted
  obtain ⟨hsame, hfrontier, hlive, hpreds, hissues, hwc⟩ := hcounted
  have htrap := (takeTrap_eq env t).trans (deliver_enters (env := { env with w := counted env t })
    (by simpa [Env.canHandle, hsame.mode] using hcan))
  generalize counted env t = w at hsame hfrontier hlive hpreds hissues hwc htrap
  refine ⟨_, _, htrap, ?_, rfl, rfl, rfl, rfl, rfl, rfl, ⟨_, rfl, rfl, rfl, rfl, rfl⟩, rfl, fun l _ hl => savedPris_get hl, fun l q => ?_,
    ?_, ?_, ?_, hissues, hwc⟩
  · rw [noteTrap_mem, noteTrap_ctxs]
  · rw [← hfrontier]
    exact holds_others _ _ l q
  · show (w.vregs, w.vmarks, w.sregs, w.smarks) = _
    rw [hsame.vregs, hsame.vmarks, hsame.sregs, hsame.smarks]
  · show (w.preds, w.slots, w.tdescs, w.accs) = _
    rw [hpreds, hsame.slots, hsame.tdescs, hsame.accs]
  · show (w.live, w.csp, w.rs, w.uscr, w.mstat) = _
    rw [hlive, hsame.csp, hsame.rs, hsame.uscr, hsame.mstat]

/-- Settles O22: what a launch cannot handle from the base mode is delivered as the end of the launch (`deliver_ends`), by the warp that
`counted_from` gives. -/
theorem trapEndsLaunch : Obligations.TrapEndsLaunch := by
  intro env t hcan
  obtain ⟨hsame, -, -, hpreds, -, -⟩ := counted_from env t
  have htrap := (takeTrap_eq env t).trans (deliver_ends (env := { env with w := counted env t })
    (by simpa [Env.canHandle, hsame.mode] using hcan))
  generalize counted env t = w at hsame hpreds htrap
  obtain ⟨m, hbase⟩ := asBase_eq env.w
  rw [hbase] at hsame hpreds
  refine ⟨_, _, htrap, ?_, rfl, rfl, rfl, rfl, ?_, rfl, rfl⟩
  · show (w.uid, w.wid, w.q) = _
    rw [hsame.uid, hsame.wid, hsame.q]
  · show (w.vregs, w.sregs, w.preds) = _
    rw [hsame.vregs, hsame.sregs, hpreds]

end Sys2Proof.Traps
end

section
/-! PROOFS. The reset state, and the copy of the capability table that a reset makes (R356 to R359). -/

namespace Sys2Proof.ResetCopy

open Sys2Proof Machine Laws MemoryForm

/-! ### A run of bytes put into local memory -/

/-- A byte after a list of bytes is put from an address on: the list's byte at its own place, and what stood there at every other. The
count `n` is that of the bytes put before. -/
theorem memByte_putFrom (bs : List Byte) (m : Memory) (a n j : Nat) :
    memByte ((bs.zipIdx n).foldl (fun (m : Memory) q => putByte m (keyHbm (a + q.2)) q.1) m) (keyHbm j) =
      if a + n ≤ j ∧ j < a + n + bs.length then bs.getD (j - (a + n)) 0 else memByte m (keyHbm j) := by
  induction bs generalizing m n with
  | nil => rw [if_neg (by simp)]; rfl
  | cons b r ih =>
    rw [List.zipIdx_cons, List.foldl_cons, ih, memByte_put, List.length_cons]
    unfold keyHbm
    rcases Nat.lt_trichotomy j (a + n) with hbelow | rfl | habove
    · rw [if_neg (by omega), if_neg (by omega), if_neg (by omega)]
    · rw [if_neg (by omega), if_pos rfl, if_pos (by omega), Nat.sub_self, List.getD_cons_zero]
    · have hplace : j - (a + n) = j - (a + (n + 1)) + 1 := by omega
      rw [if_neg (by omega : ¬ j = a + n), hplace, List.getD_cons_succ]
      exact ite_congr (propext (by omega)) (fun _ => rfl) (fun _ => rfl)

/-- Each byte of a list that is put stands at its place. -/
theorem memByte_putBytes (m : Memory) (a : Nat) (bs : List Byte) (i : Nat) (h : i < bs.length) :
    memByte (putBytes m a bs) (keyHbm (a + i)) = bs.getD i 0 := by
  refine (memByte_putFrom bs m a 0 (a + i)).trans ?_
  rw [if_pos (by omega), Nat.add_zero, Nat.add_sub_cancel_left]

/-- The copy of the capability table holds each of its bytes at its place. -/
theorem memByte_copyTable (s : State) (i : Nat) (h : i < (capTable s.loader).length) :
    memByte s.copyTable.mem (keyHbm (capPlace + i)) = (capTable s.loader).getD i 0 := by
  dsimp only [State.copyTable]
  exact memByte_putBytes _ _ _ _ h

/-! ### The boot ROM's check and the place of the table -/

theorem bootLoader_iff (f : Firmware) (fsv : Nat) : bootLoader f fsv = true ↔ f.verified = false ∨ f.security.toNat < fsv := by
  simp [bootLoader]

/-- The lines of the capability table lie in the stacks of die 0 (R356, R357). -/
theorem stackOf_capLine {i : Nat} (h : i < (capTable false).length) : stackOf ((capPlace + i) / 128) < 2 := by
  have hfrom : capPlace / 128 ≤ (capPlace + i) / 128 := Nat.div_le_div_right (Nat.le_add_right _ _)
  have hto : (capPlace + i) / 128 * 128 < capPlace + (capTable false).length :=
    Nat.lt_of_le_of_lt (Nat.div_mul_le_self _ _) (Nat.add_lt_add_left h _)
  rw [stackOf, if_pos (by simp [hfrom, hto])]
  exact Nat.mod_lt _ Nat.two_pos

/-- Settles O60: at reset every value is read off the record; the event's memory is that of the copy of the table (`wf_restart`,
`memByte_copyTable`), and its choice of what runs is the boot ROM's (`bootLoader_iff`). -/
theorem resetState : Obligations.ResetState := by
  have hloader : State.reset.loader = !Config.fwVerified := by simp [State.reset, bootLoader, bootImage]
  refine ⟨⟨rfl, rfl, rfl, rfl, rfl, rfl, Nat.le_refl _, Nat.zero_le _, Nat.zero_le _, Nat.zero_le _, Nat.le_refl _, hloader, rfl⟩, fun s => ?_⟩
  exact ⟨s.restart, rfl, wf_restart s, rfl, rfl, bootLoader_iff bootImage s.fuses, fun _ => stackOf_capLine,
    memByte_copyTable { s.kept with loader := bootLoader bootImage s.fuses }⟩

end Sys2Proof.ResetCopy
end
